-- ==== Sys2Proof/Word.lean ====
section
/-! DEFINITION. The word types of the IR9 (spec 01 R12, R21-R23, 00 R4). -/

namespace Sys2Proof

/-- A scalar register, one 64-bit lane, or one instruction word (R21, R23, R46). -/
abbrev Word := BitVec 64

/-- A byte of memory (R4). -/
abbrev Byte := BitVec 8

/-- A lane mask: EXEC or a predicate register; bit `l` governs lane `l` (R13, R22). -/
abbrev Mask := BitVec 32

/-- A 56-bit virtual address (R12). -/
abbrev VAddr := BitVec 56

/-- A vector register: 32 lanes of 64 bits, lane 0 first (R23). -/
abbrev VReg := List Word

/-- The number of lanes of a wave (R12). -/
abbrev lanes : Nat := 32

end Sys2Proof
end

