-- ==== Sys2Proof/Syntax.lean ====
section
/-! DEFINITION. The instruction words and the steps of the IR9: one constructor per row of the opcode table. -/

namespace Sys2Proof

/-- Element types of the ET field (R10, R61). -/
inductive ET where
  | i64 | i32x2 | i16x4 | i8x8 | n32x2 | n8x8
  | f32x2 | f16x4 | bf16x4 | e4m3x8 | e5m2x8 | e2m1x16
deriving DecidableEq, Repr, Inhabited

/-- Rounding modes of the RM field (R61, R89). -/
inductive RM where
  | rn | rz | rd | ru | rs
deriving DecidableEq, Repr, Inhabited

/-- The b operand of a format-R vector instruction, by its BK field (R61, R143). -/
inductive BSrc where
  | v (r : BitVec 8)
  | s (r : BitVec 8)
  | imm (i : BitVec 8)
deriving DecidableEq, Repr, Inhabited

/-- The b operand of majors 0x10 and 0x11: Sb, or an unsigned immediate when mod[11] = 1 (R114). -/
inductive SSrc where
  | r (n : BitVec 8)
  | imm (n : BitVec 8)
deriving DecidableEq, Repr, Inhabited

/-- Access sizes of the SIZE field (R51). -/
inductive Size where
  | n8 | n16 | n32 | b64 | i8 | i16 | i32
deriving DecidableEq, Repr, Inhabited

/-- Memory scopes (R50, R248). -/
inductive Scope where
  | wave | group | cluster | device | system
deriving DecidableEq, Repr, Inhabited

/-- Conditions of BRC (R120). -/
inductive SCond where
  | eqz | nez | ltz | gez | gtz | lez
deriving DecidableEq, Repr, Inhabited

/-- Conditions of BRV (R120). -/
inductive PCond where
  | any | all | none | nall
deriving DecidableEq, Repr, Inhabited

/-- Conditions of VCMP and VCMPM (R151). -/
inductive VCond where
  | eq | ne | lt | le | gt | ge | un
deriving DecidableEq, Repr, Inhabited

/-- Operators of VXRED and VXSCAN (R161). -/
inductive RedOp where
  | add | min | max | and | or | xor
deriving DecidableEq, Repr, Inhabited

/-- Operations of VATOM and SATOM (R64, R185). -/
inductive AtomOp where
  | add | min | max | minu | maxu | and | or | xor | swap | cas | fadd
deriving DecidableEq, Repr, Inhabited

/-- Kinds of FENCE (R181). -/
inductive FenceKind where
  | acq | rel | acqRel
deriving DecidableEq, Repr, Inhabited

/-- `sd, sa, sb|imm8` of majors 0x10 and 0x11 (R114). -/
structure SBin where
  q : Bool
  d : BitVec 8
  a : BitVec 8
  b : SSrc
deriving DecidableEq, Repr, Inhabited

/-- `sd, sa, sb|imm8, sc` of SMAD (R114). -/
structure STern where
  q : Bool
  d : BitVec 8
  a : BitVec 8
  b : SSrc
  c : BitVec 8
deriving DecidableEq, Repr, Inhabited

/-- `sd, sa` (R117). -/
structure SUn where
  q : Bool
  d : BitVec 8
  a : BitVec 8
deriving DecidableEq, Repr, Inhabited

/-- `sd, sa, width` of SSEXT and SZEXT (R117). -/
structure SWid where
  q : Bool
  d : BitVec 8
  a : BitVec 8
  width : BitVec 6
deriving DecidableEq, Repr, Inhabited

/-- `sd, sa, sb, pos` of SBFX and SBFI (R117). -/
structure SBf where
  q : Bool
  d : BitVec 8
  a : BitVec 8
  b : BitVec 8
  pos : BitVec 6
deriving DecidableEq, Repr, Inhabited

/-- `sd, sa, sb, sc` of SSEL (R118). -/
structure SSelF where
  q : Bool
  d : BitVec 8
  a : BitVec 8
  b : BitVec 8
  c : BitVec 8
deriving DecidableEq, Repr, Inhabited

/-- `sd, sa, sb, shift` of SLEA (R118). -/
structure SLeaF where
  q : Bool
  d : BitVec 8
  a : BitVec 8
  b : BitVec 8
  shift : BitVec 3
deriving DecidableEq, Repr, Inhabited

/-- Format I with a destination and a source (R48, R119). -/
structure SImm where
  q : Bool
  d : BitVec 8
  a : BitVec 8
  imm : BitVec 36
deriving DecidableEq, Repr, Inhabited

/-- SRD: `vec` is mod[0], `sr` the special-register number (R131). -/
structure SrdF where
  q : Bool
  vec : Bool
  d : BitVec 8
  sr : BitVec 8
deriving DecidableEq, Repr, Inhabited

/-- SWR: `sr` is the d field (R132). -/
structure SwrF where
  q : Bool
  sr : BitVec 8
  a : BitVec 8
deriving DecidableEq, Repr, Inhabited

/-- PERFRD: `clr` is mod[0] (R134). -/
structure PerfrdF where
  q : Bool
  d : BitVec 8
  n : BitVec 8
  clr : Bool
deriving DecidableEq, Repr, Inhabited

/-- Format R vector instruction (R47, R56, R61): `x` is mod[10]. -/
structure VOp where
  q : Bool
  pn : Bool
  pi : BitVec 3
  d : BitVec 8
  a : BitVec 8
  b : BSrc
  c : BitVec 8
  et : ET
  rm : RM
  sat : Bool
  x : Bool
deriving DecidableEq, Repr, Inhabited

/-- VCVT: destination ET in fn[3:0], source ET in mod[3:0] (R154). -/
structure VCvtF where
  q : Bool
  pn : Bool
  pi : BitVec 3
  d : BitVec 8
  a : BitVec 8
  b : BitVec 8
  dst : ET
  src : ET
  rm : RM
  sat : Bool
  x : Bool
deriving DecidableEq, Repr, Inhabited

/-- VQNT and VDQNT: `bs` is fn[2:0], `wide` stands in c[3:0] (R155). -/
structure VQntF where
  q : Bool
  pn : Bool
  pi : BitVec 3
  d : BitVec 8
  a : BitVec 8
  b : BitVec 8
  bs : BitVec 3
  narrow : ET
  wide : ET
  rm : RM
  sat : Bool
deriving DecidableEq, Repr, Inhabited

/-- VMOVI (R153). -/
structure VMoviF where
  q : Bool
  pn : Bool
  pi : BitVec 3
  d : BitVec 8
  imm : BitVec 36
deriving DecidableEq, Repr, Inhabited

/-- VBALLOT: `d` of class S, `a` of class P (R160). -/
structure VBallotF where
  q : Bool
  pn : Bool
  pi : BitVec 3
  d : BitVec 8
  a : BitVec 8
deriving DecidableEq, Repr, Inhabited

/-- Format M load or store (R50, R51). -/
structure MemF where
  q : Bool
  pn : Bool
  pi : BitVec 3
  d : BitVec 8
  a : BitVec 8
  b : BitVec 8
  slack : BitVec 3
  scope : Scope
  hint : BitVec 2
  size : Size
  scale : BitVec 2
  bk : Bool
  ik : Bool
  disp : BitVec 12
deriving DecidableEq, Repr, Inhabited

/-- FENCE (R181). -/
structure FenceF where
  q : Bool
  kind : FenceKind
  line : Bool
  bk : Bool
  a : BitVec 8
  slack : BitVec 3
  scope : Scope
  disp : BitVec 12
deriving DecidableEq, Repr, Inhabited

/-- CLEAN and INVAL (R180): `all` is fn[1]. -/
structure CacheF where
  q : Bool
  all : Bool
  bk : Bool
  a : BitVec 8
  slack : BitVec 3
  scope : Scope
  disp : BitVec 12
deriving DecidableEq, Repr, Inhabited

/-- WMAP (R179). -/
structure WmapF where
  q : Bool
  wr : Bool
  d : BitVec 8
  a : BitVec 8
  b : BitVec 8
  slack : BitVec 3
deriving DecidableEq, Repr, Inhabited

/-- VATOM and SATOM (R64, R184). -/
structure AtomF where
  q : Bool
  pn : Bool
  pi : BitVec 3
  d : BitVec 8
  a : BitVec 8
  b : BitVec 8
  slack : BitVec 3
  scope : Scope
  hint : BitVec 2
  op : AtomOp
  w64 : Bool
  ret : Bool
  bk : Bool
  disp : BitVec 12
deriving DecidableEq, Repr, Inhabited

/-- MMA.BP (R209). -/
structure MmaF where
  q : Bool
  d : BitVec 8
  a : BitVec 8
  b : BitVec 8
  c : BitVec 8
  slack : BitVec 3
  pa : BitVec 4
  pb : BitVec 4
  acc : Bool
deriving DecidableEq, Repr, Inhabited

/-- MRD (R217). -/
structure MrdF where
  q : Bool
  d : BitVec 8
  a : BitVec 8
  b : BitVec 8
  c : BitVec 8
  slack : BitVec 3
  rowbyte : BitVec 8
  fp32 : Bool
deriving DecidableEq, Repr, Inhabited

/-- MWR (R218). -/
structure MwrF where
  q : Bool
  d : BitVec 8
  a : BitVec 8
  b : BitVec 8
  slack : BitVec 3
deriving DecidableEq, Repr, Inhabited

/-- QPLANE (R221). -/
structure QplaneF where
  q : Bool
  a : BitVec 8
  b : BitVec 8
  slack : BitVec 3
  planes : BitVec 4
  et : ET
deriving DecidableEq, Repr, Inhabited

/-- TCOPY, TCOPYW and THASH (R223). -/
structure CopyF where
  q : Bool
  d : BitVec 8
  a : BitVec 8
  slack : BitVec 3
  queue : BitVec 2
deriving DecidableEq, Repr, Inhabited

/-- EMIT: `size` is the pip size in 16 B units minus 1 (R237). -/
structure EmitF where
  q : Bool
  pn : Bool
  pi : BitVec 3
  d : BitVec 8
  a : BitVec 8
  b : BitVec 8
  slack : BitVec 3
  size : BitVec 4
deriving DecidableEq, Repr, Inhabited

/-- EMITC (R240). -/
structure EmitcF where
  q : Bool
  pn : Bool
  pi : BitVec 3
  d : BitVec 8
  a : BitVec 8
  b : BitVec 8
  slack : BitVec 3
deriving DecidableEq, Repr, Inhabited

/-- JOINDEC (R241). -/
structure JoindecF where
  q : Bool
  pn : Bool
  pi : BitVec 3
  d : BitVec 8
  a : BitVec 8
  slack : BitVec 3
deriving DecidableEq, Repr, Inhabited

/-- PIPRD: `idx` is xmod[0] (R242). -/
structure PiprdF where
  q : Bool
  pn : Bool
  pi : BitVec 3
  d : BitVec 8
  idx : Bool
deriving DecidableEq, Repr, Inhabited

/-- A submission entry as the command processor fetched it from queue `queue` of function `fn` (R408). -/
structure Cmd where
  fn : Nat
  queue : Nat
  tag : BitVec 32
  addr : Word
  args : List Word
deriving DecidableEq, Repr, Inhabited

/-- A Jalti mailbox command: TAG and the argument words 1 to 7 (R356). -/
structure Mail where
  tag : BitVec 16
  words : List Word
deriving DecidableEq, Repr, Inhabited

/-- What the module and its boot images supply at a reset (R415): device number strap, stepping, the configuration
(SPARES, injection enable, trace LOG2), and whether each verification and training step passes. -/
structure BootInput where
  dev : BitVec 2
  step : BitVec 8
  spares : Nat
  injection : Bool
  traceLog2 : Nat
  traceBase : BitVec 40
  dumpBase : BitVec 40
  jaltiOk : Bool
  memoryOk : Bool
  cpOk : Bool
  stage4Ok : Bool
deriving DecidableEq, Repr, Inhabited

/-- Causes of a change of CAP (R422). -/
inductive CapCause where
  | hot | cool | overPower | underPower
deriving DecidableEq, Repr, Inhabited

/-- What a peer asks of this device (R313, R314): bytes read from, or written to, a virtual address. -/
inductive PeerAsk where
  | read (n : Nat)
  | write (bytes : List Byte)
  /-- an atomic with its data and CAS's compare value; `ret` asks for the old value -/
  | atomic (op : AtomOp) (w64 : Bool) (ret : Bool) (data : Nat) (cmp : Nat)
  /-- a release's deposit at the line (R254) -/
  | deposit (sig : BitVec 512)
  /-- an acquire's read of the line's signature (R256) -/
  | acquire
deriving DecidableEq, Repr, Inhabited

/-- What the header of a peer's request carries besides address and ASID (R378, R387). -/
structure PeerHead where
  slack : BitVec 10 := 1023
  frac : BitVec 2 := 0
  hard : Bool := false
  cls : BitVec 3 := 0
deriving DecidableEq, Repr, Inhabited

/-- A peer's request: its header and what it asks (R269, R314, R378). -/
structure PeerCall where
  head : PeerHead
  ask : PeerAsk
deriving DecidableEq, Repr, Inhabited

/-- A deferred change that a quiesce point may apply (R295, R347, R387, R416, R370, R270). -/
inductive QuiesceChange where
  | clusterMap (ctx : Nat) (map : List Nat)
  | removePair (pair : Nat)
  | routes
  | husk0Share (bank : Nat) (share : Nat)
  | movePage (from_ : Nat) (to_ : Nat)
  | huskMap (ctx : Nat) (ghusk : Nat) (husk : Nat)
deriving DecidableEq, Repr, Inhabited

/-- One constructor per row of spec/opcode_table.json.
The first 175 are instruction words; the others are the part's steps, commands and resets, which no word encodes. -/
inductive Instr where
  -- control and system (R128-R137)
  | nop (q : Bool)
  | bkpt (q : Bool) (tag : BitVec 8)
  | exitw (q : Bool)
  | tret (q : Bool)
  | trap (q : Bool) (n : BitVec 16)
  | srd (o : SrdF)
  | swr (o : SwrF)
  | perfrd (o : PerfrdF)
  | bra (q : Bool) (off : BitVec 32)
  | brc (q : Bool) (cond : SCond) (a : BitVec 8) (off : BitVec 32)
  | brv (q : Bool) (cond : PCond) (a : BitVec 8) (off : BitVec 32)
  | call (q : Bool) (off : BitVec 32)
  | ret (q : Bool) (a : BitVec 8)
  | jmpi (q : Bool) (a : BitVec 8)
  | xmovExecP (q : Bool) (a : BitVec 8)
  | xand (q : Bool) (d : BitVec 8) (a : BitVec 8) (inv : Bool)
  | xjoin (q : Bool) (a : BitVec 8)
  | xmovPExec (q : Bool) (d : BitVec 8)
  | sigchk (q : Bool) (imm : BitVec 32)
  | acorn (q : Bool) (id : BitVec 16)
  | icinv (q : Bool) (scope : Scope)
  -- scalar (R115-R119)
  | sadd (o : SBin) | ssub (o : SBin) | sand (o : SBin) | sor (o : SBin) | sxor (o : SBin) | sandn (o : SBin)
  | sshl (o : SBin) | sshr (o : SBin) | ssar (o : SBin) | srot (o : SBin) | smin (o : SBin) | smax (o : SBin)
  | sminu (o : SBin) | smaxu (o : SBin) | sslt (o : SBin) | ssltu (o : SBin) | sseq (o : SBin)
  | smul (o : SBin) | smulh (o : SBin) | smulhu (o : SBin) | sdiv (o : SBin) | sdivu (o : SBin)
  | srem (o : SBin) | sremu (o : SBin) | smad (o : STern)
  | sclz (o : SUn) | sctz (o : SUn) | spopc (o : SUn) | sbrev (o : SUn)
  | ssext (o : SWid) | szext (o : SWid) | sbfx (o : SBf) | sbfi (o : SBf)
  | ssel (o : SSelF) | slea (o : SLeaF)
  | saddi (o : SImm) | sandi (o : SImm) | sori (o : SImm) | sxori (o : SImm) | smovi (o : SImm)
  | smovhi (o : SImm) | sslti (o : SImm) | saddpc (o : SImm)
  -- vector integer (R146, R147)
  | vadd (o : VOp) | vsub (o : VOp) | vmul (o : VOp) | vmulh (o : VOp) | vmad (o : VOp) | vmin (o : VOp)
  | vmax (o : VOp) | vabs (o : VOp) | vneg (o : VOp) | vabsd (o : VOp) | vavg (o : VOp) | vdiv (o : VOp)
  | vrem (o : VOp) | vand (o : VOp) | vor (o : VOp) | vxor (o : VOp) | vandn (o : VOp) | vnot (o : VOp)
  | vshl (o : VOp) | vshr (o : VOp) | vsar (o : VOp) | vrot (o : VOp) | vclz (o : VOp) | vpopc (o : VOp)
  -- vector floating (R148-R150)
  | vfadd (o : VOp) | vfsub (o : VOp) | vfmul (o : VOp) | vfma (o : VOp) | vfms (o : VOp) | vfmin (o : VOp)
  | vfmax (o : VOp) | vfabs (o : VOp) | vfneg (o : VOp) | vfdiv (o : VOp)
  | vrcp (o : VOp) | vrsq (o : VOp) | vsqrt (o : VOp) | vexp2 (o : VOp) | vlog2 (o : VOp) | vsin (o : VOp)
  | vcos (o : VOp) | vtanh (o : VOp) | vsigm (o : VOp)
  -- compare, select, convert, random (R151-R156)
  | vcmp (cond : VCond) (o : VOp) | vcmpm (cond : VCond) (o : VOp)
  | vsel (o : VOp) | vselm (o : VOp) | vpack (o : VOp) | vunpkl (o : VOp) | vunpkh (o : VOp) | vmov (o : VOp)
  | vmovi (o : VMoviF) | vcvt (o : VCvtF) | vqnt (o : VQntF) | vdqnt (o : VQntF)
  | vrndRaw (o : VOp) | vrndUniform (o : VOp)
  -- cross-lane and workload instructions (R157-R165)
  | vxread (o : VOp) | vxshf (o : VOp) | vxbfly (o : VOp) | vballot (o : VBallotF)
  | vxred (op : RedOp) (o : VOp) | vxscan (op : RedOp) (o : VOp)
  | vacs (o : VOp) | vdwc (o : VOp) | vwmax (o : VOp) | vwavg (o : VOp)
  -- memory, atomics, transactions, groups, barriers, claims (R170-R201)
  | ldS (o : MemF) | stS (o : MemF) | vld (o : MemF) | vst (o : MemF) | vldx (o : MemF) | vstx (o : MemF)
  | spld (o : MemF) | spst (o : MemF) | lda (o : MemF) | strel (o : MemF)
  | fence (o : FenceF) | clean (o : CacheF) | inval (o : CacheF) | wmap (o : WmapF)
  | vatom (o : AtomF) | satom (o : AtomF)
  | txbegin (q : Bool) (off : BitVec 32) | txend (q : Bool) (d : BitVec 8) | txabort (q : Bool) (a : BitVec 8)
  | gjoin (q : Bool) (a : BitVec 8) (sgid : BitVec 2) | gleave (q : Bool)
  | bopen (q : Bool) (d : BitVec 8) (a : BitVec 8) (mask : BitVec 4)
  | bara (q : Bool) (a : BitVec 8) | barw (q : Bool) (a : BitVec 8)
  | vclaim (q : Bool) (n : BitVec 6) | vrels (q : Bool) (n : BitVec 6)
  -- matrix, copies, pods (R209-R242)
  | mmaBp (o : MmaF) | mzero (q : Bool) (d : BitVec 8) | mrd (o : MrdF) | mwr (o : MwrF)
  | mbatch (q : Bool) (d : BitVec 8) | mwait (q : Bool) (a : BitVec 8)
  | qplane (o : QplaneF) | amaxrd (q : Bool) (d : BitVec 8) (slot : BitVec 6)
  | tcopy (o : CopyF) | tcopyw (o : CopyF) | thash (o : CopyF)
  | cfence (q : Bool) (mask : BitVec 4) | cwait (q : Bool) (a : BitVec 8)
  | cyield (q : Bool) (a : BitVec 8) (off : BitVec 13)
  | emit (o : EmitF) | emitc (o : EmitcF) | joindec (o : JoindecF) | piprd (o : PiprdF)
  -- steps of the memory system and of traps
  | loadReturn (w : Nat)
  | atomicPerformed (n : Nat)
  | fenceComplete (w : Nat)
  | writebackAck (w : Nat)
  | icinvAck (w : Nat)
  | trapEntry (w : Nat) (cause : BitVec 7) (mask : BitVec 32) (addr : BitVec 56)
  | launchTeardown (l : Nat)
  | transactionAbort (w : Nat) (reason : BitVec 4) (code : BitVec 16)
  | claimGrant (core : Nat)
  | claimDeadlock (g : Nat)
  -- steps of the engines
  | matrixOperationStart (twin : Nat)
  | mmaKstep (twin : Nat)
  | tileAccessComplete (twin : Nat)
  | copyStart (cluster : Nat) (queue : Nat)
  | copyComplete (cluster : Nat) (queue : Nat)
  | podAppend (n : Nat)
  | coalescingTimerExpiry (graph : Nat) (node : Nat)
  | podDeadlock (l : Nat)
  | continuationDispatch (graph : Nat) (node : Nat)
  | groupDispatch (ctx : Nat)
  | gangReserve (l : Nat) (grpid : Nat)
  | gangBackoffExpiry (l : Nat) (grpid : Nat)
  -- launches
  | launch (c : Cmd)
  | edgeHash (l : Nat) (edge : Nat) (region : Nat)
  | operatingPointChange (domain : Nat)
  | launchCompletion (l : Nat)
  | quantumEnd (w : Nat)
  | epochEnd (l : Nat)
  -- checked mode
  | checkCompare (pair : Nat)
  | acornTake (pair : Nat) (reason : Nat)
  | reexecute (pair : Nat)
  -- memories
  | l2Request (bank : Nat)
  | huskSweepComplete (husk : Nat)
  | shareRetire (bank : Nat) (share : Nat)
  -- preemption and virtualisation
  | preemptionSave (w : Nat)
  | fullSave (w : Nat)
  | preemptionRestore (ctx : Nat)
  | worldSwitch (outCtx : Nat) (inCtx : Nat)
  | stage2FaultService (w : Nat) (frame : Option Nat)
  | null (w : Nat)
  | poolRefill (w : Nat) (frames : List (BitVec 48))
  | tlbi (w : Nat)
  | fail (w : Nat)
  | poolCheck (ctx : Nat) (frames : List (BitVec 48))
  -- host
  | huskDefine (c : Cmd)
  | graphCreate (c : Cmd)
  | graphDestroy (c : Cmd)
  | traceMark (c : Cmd)
  | perfConfig (c : Cmd)
  | perfRead (c : Cmd)
  | slotConfig (c : Cmd)
  | poolSet (c : Cmd) (frames : List (BitVec 48))
  | s1rootSet (c : Cmd)
  | ctxCreate (c : Cmd) (asid : BitVec 16) (s2root : Nat)
  | ctxDestroy (c : Cmd)
  | vfAssign (c : Cmd)
  -- Jalti mailbox, watchdog, thermal
  | pairStatus (m : Mail)
  | pairReturn (m : Mail) (pass : Bool)
  | inject (m : Mail)
  | wdogSet (m : Mail)
  | wdogKick (m : Mail)
  -- resets and registers
  | warmReset (b : BootInput)
  | quiescePoint (changes : List QuiesceChange)
  | modeRequest (pair : Nat) (checked : Bool)
  -- controllers, fabric, link security
  | lpddr6Request (controller : Nat)
  | arbiterGrant (arbiter : Nat)
  | slackExhaustion (packet : Nat)
  -- steps whose moment the manual leaves open (R249, R257, R318)
  | storePerformed (core : Nat) (sector : Nat)
  | preemptionRequest (ctx : Nat)
  | signatureEpochAdvance
  -- host accesses, resets and registers
  | apertureAccess (fn : Nat) (off : Nat) (ask : PeerAsk)
  | sqDoorbell (fn : Nat) (queue : Nat) (tail : BitVec 32)
  | queueEnable (fn : Nat) (queue : Nat) (value : Word)
  | registerWrite (fn : Nat) (offset : Nat) (value : Word)
  | iciLoad (ctx : Nat) (base : Word) (file : List Byte)
  | coldReset (b : BootInput)
  | vfFunctionLevelReset (fn : Nat)
  -- peers and links
  | peerRequest (asid : BitVec 16) (va : BitVec 56) (call : PeerCall)
  | peerShootdown (asid : BitVec 16) (va : BitVec 56) (len : Nat)
  | peerFatalNotice (dev : BitVec 2)
  | linkTraining (port : Nat) (goodLanes : Nat) (peer : BitVec 2)
  | linkLossOfLock (port : Nat)
  -- module: watchdog, heat, patrol
  | watchdogExpiry (heartbeatLost : Bool)
  | thermalCapAdjust (cause : CapCause)
  | thermalFatal (tj : Int) (watts : Nat)
  | hotClear (controller : Nat)
  | dramPatrol (sector : Nat)
  | stage2Shootdown (ctx : Nat) (ipa : Nat) (len : Nat)
  -- SPDM and link security (R413, R414)
  | getVersion
  | getCapabilities
  | negotiateAlgorithms (base : BitVec 8) (hash : BitVec 8)
  | getDigests
  | getCertificate (slot : BitVec 4)
  | challenge (slot : BitVec 4)
  | getMeasurements (index : BitVec 8) (nonce : List Byte)
  | keyExchange (slot : BitVec 4)
  | finish (session : Nat)
  | heartbeat (session : Nat)
  | endSession (session : Nat)
  | ideKm (session : Nat) (stream : Nat) (keySet : Nat) (enable : Bool)
  | ideIntegrityFailure (stream : Nat)
  | doeDiscovery (index : BitVec 8)
deriving DecidableEq, Repr, Inhabited

end Sys2Proof
end

