-- ==== Sys2Proof/WellFormed.lean ====
section
/-! DEFINITION. Which instruction terms some word encodes: the RESERVED_FIELD conditions that the types leave open
(R53, R56, R62, R144 and the instruction chapters). Register ranges are checked at issue, after PRIVILEGE (R60). -/

namespace Sys2Proof

/-- Integer element types (R146). -/
def ET.isInt : ET → Bool
  | .i64 | .i32x2 | .i16x4 | .i8x8 | .n32x2 | .n8x8 => true
  | _ => false

/-- FP32, FP16 and BF16, the formats of arithmetic (R82, R148). -/
def ET.isArith : ET → Bool
  | .f32x2 | .f16x4 | .bf16x4 => true
  | _ => false

/-- Floating element types, the storage formats included. -/
def ET.isFloat (t : ET) : Bool := !t.isInt

/-- Signed integer element types (R146). -/
def ET.isSigned : ET → Bool
  | .i64 | .i32x2 | .i16x4 | .i8x8 => true
  | _ => false

/-- Sub-elements of a lane (R10). -/
def ET.count : ET → Nat
  | .i64 => 1
  | .i32x2 | .n32x2 | .f32x2 => 2
  | .i16x4 | .f16x4 | .bf16x4 => 4
  | .i8x8 | .n8x8 | .e4m3x8 | .e5m2x8 => 8
  | .e2m1x16 => 16

/-- The immediate form of the b operand. -/
def BSrc.isImm : BSrc → Bool
  | .imm _ => true
  | _ => false

/-- The vector-register form of the b operand (BK = 0). -/
def BSrc.isV : BSrc → Bool
  | .v _ => true
  | _ => false

/-- An unused b operand: BK = 0 and b = 0 (R53, R143). -/
def BSrc.isUnused (b : BSrc) : Bool := b == .v 0

/-- `pn = 1, pi = 0` names an empty mask and is reserved (R56). -/
def predOk (pn : Bool) (pi : BitVec 3) : Bool := !(pn && pi == 0)

/-- An instruction that acts once per wave takes no predicate (R56). -/
def noPred (pn : Bool) (pi : BitVec 3) : Bool := !pn && pi == 0

/-- RM as an ordinary rounding field: every mode but stochastic (R91). -/
def RM.plain (r : RM) : Bool := r != .rs

/-- What a format-R vector row accepts (the tables of R146-R165). -/
structure VAccept where
  et : ET → Bool
  rm : RM → Bool := fun r => r == .rn
  sat : Bool := false
  x : Bool := false
  /-- which b operands the row takes -/
  b : BSrc → Bool
  useC : Bool := false
  useA : Bool := true

/-- The RESERVED_FIELD checks common to format-R vector rows (R144). -/
def VAccept.ok (r : VAccept) (o : VOp) : Bool :=
  predOk o.pn o.pi && r.et o.et && r.rm o.rm && (r.sat || !o.sat) && (r.x || !o.x) && r.b o.b
    && (r.useC || o.c == 0) && (r.useA || o.a == 0)

/-- A b-kind operand: an immediate only with an integer ET (R62). -/
def bKind (o : VOp) (b : BSrc) : Bool := !(b.isImm && o.et.isFloat)

/-- A binary integer row: b-kind operand (R146, R147). -/
def accInt (o : VOp) (sat : Bool := false) (useC : Bool := false) : VAccept :=
  { et := ET.isInt, b := bKind o, sat := sat, useC := useC }

/-- A unary integer row. -/
def accIntUn (sat : Bool := false) (et : ET → Bool := ET.isInt) : VAccept :=
  { et := et, b := BSrc.isUnused, sat := sat }

/-- A binary floating row rounded by RM 0-3 (R148). -/
def accFloat (o : VOp) (useC : Bool := false) : VAccept :=
  { et := ET.isArith, b := bKind o, rm := RM.plain, sat := true, useC := useC }

/-- A unary special function (R149). -/
def accSpecial : VAccept := { et := ET.isArith, b := BSrc.isUnused }

/-- ETs of a reduction or scan by operator (R161). -/
def redEt (op : RedOp) (t : ET) : Bool :=
  match op with
  | .add => t.isInt || t.isArith
  | .min | .max => true
  | .and | .or | .xor => t.isInt

/-- VXRED and VXSCAN: RM 0-3 and SAT only where `.add` rounds or clamps (R161). -/
def accRed (op : RedOp) (o : VOp) (x : Bool) : VAccept :=
  { et := redEt op, b := BSrc.isUnused, x := x, sat := op == .add
    rm := fun r => r == .rn || (op == .add && o.et.isArith && r.plain) }

/-- Source element types of VPACK (R152). -/
def packEt : ET → Bool
  | .i32x2 | .i16x4 | .i8x8 | .n32x2 | .n8x8 => true
  | _ => false

/-- Element types of VUNPKL and VUNPKH (R152). -/
def unpackEt : ET → Bool
  | .i64 | .i32x2 | .i16x4 => true
  | _ => false

/-- Narrow element types of VQNT and VDQNT (R155). -/
def narrowEt : ET → Bool
  | .e4m3x8 | .e5m2x8 | .e2m1x16 | .i8x8 => true
  | _ => false

/-- The legal VCVT words (R154). -/
def vcvtOk (o : VCvtF) : Bool :=
  let nS := o.src.count
  let nD := o.dst.count
  predOk o.pn o.pi && o.dst != o.src && (nD == nS || nD == 2 * nS || nS == 2 * nD)
    && (nD == 2 * nS || o.b == 0) && (nS == 2 * nD || !o.x)
    && (o.src.isFloat || o.dst.isFloat || o.rm == .rn)

/-- The legal load and store words, with the index kinds `ik` accepts (R50, R174, R177). -/
def memOk (ik : Bool → Bool) (pred : Bool) (withScope : Bool) (o : MemF) : Bool :=
  (if pred then predOk o.pn o.pi else noPred o.pn o.pi) && ik o.ik
    && (if withScope then o.scope != .wave else o.scope == .wave)

/-- The legal atomic words (R64, R184). -/
def atomOk (pred : Bool) (o : AtomF) : Bool :=
  (if pred then predOk o.pn o.pi else noPred o.pn o.pi) && o.scope != .wave
    && !(o.op == .fadd && o.w64) && !(o.op == .cas && !o.ret)

/-- Plane counts of MMA.BP and QPLANE (R209, R221). -/
def planesOk (n : BitVec 4) : Bool := 2 ≤ n.toNat && n.toNat ≤ 8

/-- Whether a term is an instruction that some word encodes; a step row has no word and is well formed as it stands. -/
def wellFormed : Instr → Bool
  | .nop _ | .bkpt _ _ | .exitw _ | .tret _ | .trap _ _ => true
  | .srd _ | .swr _ | .perfrd _ => true
  | .bra _ _ | .brc _ _ _ _ | .brv _ _ _ _ | .call _ _ | .ret _ _ | .jmpi _ _ => true
  | .xmovExecP _ _ | .xand _ _ _ _ | .xjoin _ _ | .xmovPExec _ _ | .sigchk _ _ | .acorn _ _ => true
  | .icinv _ s => s == .wave || s == .cluster || s == .device
  | .sadd _ | .ssub _ | .sand _ | .sor _ | .sxor _ | .sandn _ | .sshl _ | .sshr _ | .ssar _ | .srot _
  | .smin _ | .smax _ | .sminu _ | .smaxu _ | .sslt _ | .ssltu _ | .sseq _ => true
  | .smul _ | .smulh _ | .smulhu _ | .sdiv _ | .sdivu _ | .srem _ | .sremu _ | .smad _ => true
  | .sclz _ | .sctz _ | .spopc _ | .sbrev _ => true
  | .ssext o => o.width != 0
  | .szext o => o.width != 0
  | .sbfx _ | .sbfi _ | .ssel _ | .slea _ => true
  | .saddi _ | .sandi _ | .sori _ | .sxori _ | .smovhi _ | .sslti _ => true
  | .smovi o => o.a == 0
  | .saddpc o => o.a == 0
  | .vadd o => (accInt o true).ok o
  | .vsub o => (accInt o true).ok o
  | .vmul o => (accInt o true).ok o
  | .vmulh o => (accInt o).ok o
  | .vmad o => (accInt o true true).ok o
  | .vmin o => (accInt o).ok o
  | .vmax o => (accInt o).ok o
  | .vabs o => (accIntUn true ET.isSigned).ok o
  | .vneg o => (accIntUn true ET.isSigned).ok o
  | .vabsd o => (accInt o).ok o
  | .vavg o => { accInt o with rm := RM.plain : VAccept }.ok o
  | .vdiv o => (accInt o true).ok o
  | .vrem o => (accInt o).ok o
  | .vand o => (accInt o).ok o
  | .vor o => (accInt o).ok o
  | .vxor o => (accInt o).ok o
  | .vandn o => (accInt o).ok o
  | .vnot o => accIntUn.ok o
  | .vshl o => (accInt o).ok o
  | .vshr o => (accInt o).ok o
  | .vsar o => (accInt o).ok o
  | .vrot o => (accInt o).ok o
  | .vclz o => accIntUn.ok o
  | .vpopc o => accIntUn.ok o
  | .vfadd o => (accFloat o).ok o
  | .vfsub o => (accFloat o).ok o
  | .vfmul o => (accFloat o).ok o
  | .vfma o => (accFloat o true).ok o
  | .vfms o => (accFloat o true).ok o
  | .vfmin o => { et := ET.isArith, b := bKind o : VAccept }.ok o
  | .vfmax o => { et := ET.isArith, b := bKind o : VAccept }.ok o
  | .vfabs o => accSpecial.ok o
  | .vfneg o => accSpecial.ok o
  | .vfdiv o => (accFloat o).ok o
  | .vrcp o => accSpecial.ok o
  | .vrsq o => accSpecial.ok o
  | .vsqrt o => accSpecial.ok o
  | .vexp2 o => accSpecial.ok o
  | .vlog2 o => accSpecial.ok o
  | .vsin o => accSpecial.ok o
  | .vcos o => accSpecial.ok o
  | .vtanh o => accSpecial.ok o
  | .vsigm o => accSpecial.ok o
  | .vcmp c o => (c != .un || o.et.isFloat) && { et := fun _ => true, b := bKind o, x := true : VAccept }.ok o
  | .vcmpm c o => (c != .un || o.et.isFloat) && { et := fun _ => true, b := bKind o : VAccept }.ok o
  | .vsel o => { et := fun _ => true, b := bKind o, useC := true : VAccept }.ok o
  | .vselm o => { et := fun _ => true, b := bKind o, useC := true : VAccept }.ok o
  | .vpack o => { et := packEt, b := BSrc.isV, sat := true : VAccept }.ok o
  | .vunpkl o => { et := unpackEt, b := BSrc.isUnused, x := true : VAccept }.ok o
  | .vunpkh o => { et := unpackEt, b := BSrc.isUnused, x := true : VAccept }.ok o
  | .vmov o => { et := fun _ => true, b := bKind o, useA := false : VAccept }.ok o
  | .vmovi o => predOk o.pn o.pi
  | .vcvt o => vcvtOk o
  | .vqnt o => predOk o.pn o.pi && narrowEt o.narrow && o.wide.isArith
  | .vdqnt o => predOk o.pn o.pi && narrowEt o.narrow && o.wide.isArith
  | .vrndRaw o => { et := fun t => t == .n32x2 || t == .i64, b := BSrc.isUnused : VAccept }.ok o
  | .vrndUniform o => { et := ET.isArith, b := BSrc.isUnused : VAccept }.ok o
  | .vxread o => { et := fun _ => true, b := BSrc.isV, useC := true : VAccept }.ok o
  | .vxshf o => { et := fun _ => true, b := fun b => !b.isV, useC := true : VAccept }.ok o
  | .vxbfly o =>
      { et := fun _ => true, useC := true
        b := fun b => match b with
          | .imm m => 1 ≤ m.toNat && m.toNat ≤ 16
          | _ => false : VAccept }.ok o
  | .vballot o => predOk o.pn o.pi
  | .vxred op o => (accRed op o false).ok o
  | .vxscan op o => (accRed op o true).ok o
  | .vacs o => { et := fun t => t == .i16x4 || t == .i32x2, b := BSrc.isV, x := true, useC := true : VAccept }.ok o
  | .vdwc o =>
      { et := fun t => t == .i8x8 || t == .i16x4, b := BSrc.isV, sat := true, x := o.et == .i8x8
        useC := true : VAccept }.ok o
  | .vwmax o => { et := fun t => t.isInt || t.isArith, b := BSrc.isV : VAccept }.ok o
  | .vwavg o => { et := fun t => t.isInt || t.isArith, b := BSrc.isV, x := true : VAccept }.ok o
  | .ldS o => memOk (fun k => k) false false o
  | .stS o => memOk (fun k => k) false false o
  | .vld o => memOk (fun k => k) true false o
  | .vst o => memOk (fun k => k) true false o
  | .vldx o => memOk (fun k => !k) true false o
  | .vstx o => memOk (fun k => !k) true false o
  | .spld o => memOk (fun _ => true) true false o && o.bk && o.hint == 0
  | .spst o => memOk (fun _ => true) true false o && o.bk && o.hint == 0
  | .lda o => memOk (fun k => k) false true o
  | .strel o => memOk (fun k => k) false true o
  | .fence o => o.scope != .wave && (o.line || (o.a == 0 && !o.bk && o.disp == 0))
  | .clean o => !o.all || (o.a == 0 && !o.bk && o.disp == 0)
  | .inval o => !o.all || (o.a == 0 && !o.bk && o.disp == 0)
  | .wmap _ => true
  | .vatom o => atomOk true o
  | .satom o => atomOk false o
  | .txbegin _ _ | .txend _ _ | .txabort _ _ | .gjoin _ _ _ | .gleave _ | .bopen _ _ _ _ => true
  | .bara _ _ | .barw _ _ | .vclaim _ _ | .vrels _ _ => true
  | .mmaBp o => planesOk o.pa && planesOk o.pb
  | .mzero _ _ | .mrd _ | .mwr _ | .mbatch _ _ | .mwait _ _ => true
  | .qplane o => planesOk o.planes && (o.et == .i8x8 || o.et == .i16x4 || o.et == .i32x2)
  | .amaxrd _ _ _ | .tcopy _ | .tcopyw _ | .thash _ => true
  | .cfence _ m => m != 0
  | .cwait _ _ | .cyield _ _ _ => true
  | .emit o => predOk o.pn o.pi
  | .emitc o => predOk o.pn o.pi
  | .joindec o => predOk o.pn o.pi
  | .piprd o => predOk o.pn o.pi
  | .loadReturn _ | .storePerformed _ _ | .atomicPerformed _ | .fenceComplete _ | .writebackAck _ | .icinvAck _
  | .trapEntry _ _ _ _ | .launchTeardown _ | .transactionAbort _ _ _ | .claimGrant _ | .claimDeadlock _ => true
  | .matrixOperationStart _ | .mmaKstep _ | .tileAccessComplete _ | .copyStart _ _ | .copyComplete _ _
  | .podAppend _ | .coalescingTimerExpiry _ _ | .podDeadlock _ | .continuationDispatch _ _ | .groupDispatch _
  | .gangReserve _ _ | .gangBackoffExpiry _ _ => true
  | .launch _ | .edgeHash _ _ _ | .operatingPointChange _ | .launchCompletion _ | .signatureEpochAdvance
  | .quantumEnd _ | .epochEnd _ | .checkCompare _ | .acornTake _ _ | .reexecute _ => true
  | .l2Request _ | .huskSweepComplete _ | .shareRetire _ _ | .dramPatrol _ | .preemptionRequest _
  | .preemptionSave _ | .fullSave _ | .preemptionRestore _ | .worldSwitch _ _ | .stage2FaultService _ _ => true
  | .null _ | .poolRefill _ _ | .tlbi _ | .fail _ | .stage2Shootdown _ _ _ | .poolCheck _ _ => true
  | .peerRequest _ _ _ | .peerFatalNotice _ | .linkTraining _ _ _ | .linkLossOfLock _ => true
  | .apertureAccess _ _ _ | .sqDoorbell _ _ _ | .queueEnable _ _ _ => true
  | .huskDefine _ | .graphCreate _ | .graphDestroy _ | .traceMark _ | .perfConfig _ | .perfRead _ | .slotConfig _
  | .poolSet _ _ | .s1rootSet _ | .ctxCreate _ _ _ | .ctxDestroy _ | .vfAssign _ => true
  | .getVersion | .getCapabilities | .negotiateAlgorithms _ _ | .getDigests | .getCertificate _ | .challenge _
  | .getMeasurements _ _ | .keyExchange _ | .finish _ | .heartbeat _ | .endSession _ | .ideIntegrityFailure _ => true
  | .pairStatus _ | .pairReturn _ _ | .inject _ | .wdogSet _ | .wdogKick _ | .watchdogExpiry _
  | .thermalCapAdjust _ | .hotClear _ => true
  | .coldReset _ | .warmReset _ | .vfFunctionLevelReset _ | .registerWrite _ _ _ | .quiescePoint _
  | .modeRequest _ _ | .iciLoad _ _ _ => true
  | .lpddr6Request _ | .arbiterGrant _ | .slackExhaustion _ | .peerShootdown _ _ _ | .ideKm _ _ _ _
  | .doeDiscovery _ | .thermalFatal _ _ => true

end Sys2Proof
end

