-- ==== Sys2Proof/Decode.lean ====
section
/-! DEFINITION. The instruction encodings: the decoder, total on every 64-bit word, and the encoder (02 R46-R64). -/

namespace Sys2Proof

/-- What a 64-bit word is: an instruction, or the decode condition that it meets first (R60). -/
inductive Decoded where
  | ok (i : Instr)
  | illegalOpcode
  | reservedField
deriving DecidableEq, Repr

/-! ### Field codes -/

/-- ET codes (R61). -/
def ET.code : ET → BitVec 4
  | .i64 => 0 | .i32x2 => 1 | .i16x4 => 2 | .i8x8 => 3 | .n32x2 => 5 | .n8x8 => 7
  | .f32x2 => 8 | .f16x4 => 9 | .bf16x4 => 10 | .e4m3x8 => 11 | .e5m2x8 => 12 | .e2m1x16 => 13

/-- ET of a code; 4, 6, 14 and 15 are reserved (R61). -/
def ET.ofCode (n : BitVec 4) : Option ET :=
  match n.toNat with
  | 0 => some .i64 | 1 => some .i32x2 | 2 => some .i16x4 | 3 => some .i8x8 | 5 => some .n32x2 | 7 => some .n8x8
  | 8 => some .f32x2 | 9 => some .f16x4 | 10 => some .bf16x4 | 11 => some .e4m3x8 | 12 => some .e5m2x8
  | 13 => some .e2m1x16
  | _ => none

/-- RM codes (R61). -/
def RM.code : RM → BitVec 3
  | .rn => 0 | .rz => 1 | .rd => 2 | .ru => 3 | .rs => 4

/-- RM of a code; 5 to 7 are reserved (R61). -/
def RM.ofCode (n : BitVec 3) : Option RM :=
  match n.toNat with
  | 0 => some .rn | 1 => some .rz | 2 => some .rd | 3 => some .ru | 4 => some .rs
  | _ => none

/-- BK codes (R61). -/
def BSrc.bk : BSrc → BitVec 2
  | .v _ => 0 | .s _ => 1 | .imm _ => 2

/-- The b field of a vector operand. -/
def BSrc.field : BSrc → BitVec 8
  | .v r => r | .s r => r | .imm i => i

/-- The b operand of BK and b; BK = 3 is reserved (R61). -/
def BSrc.ofCode (bk : BitVec 2) (b : BitVec 8) : Option BSrc :=
  match bk.toNat with
  | 0 => some (.v b) | 1 => some (.s b) | 2 => some (.imm b)
  | _ => none

/-- SIZE codes (R51). -/
def Size.code : Size → BitVec 4
  | .n8 => 0 | .n16 => 1 | .n32 => 2 | .b64 => 3 | .i8 => 4 | .i16 => 5 | .i32 => 6

/-- SIZE of a code; 7 to 15 are reserved (R51). -/
def Size.ofCode (n : BitVec 4) : Option Size :=
  match n.toNat with
  | 0 => some .n8 | 1 => some .n16 | 2 => some .n32 | 3 => some .b64 | 4 => some .i8 | 5 => some .i16 | 6 => some .i32
  | _ => none

/-- Scope codes (R50). -/
def Scope.code : Scope → BitVec 3
  | .wave => 0 | .group => 1 | .cluster => 2 | .device => 3 | .system => 4

/-- Scope of a code; 5 to 7 are reserved (R50). -/
def Scope.ofCode (n : BitVec 3) : Option Scope :=
  match n.toNat with
  | 0 => some .wave | 1 => some .group | 2 => some .cluster | 3 => some .device | 4 => some .system
  | _ => none

/-- cond codes of BRC (R63). -/
def SCond.code : SCond → BitVec 4
  | .eqz => 0 | .nez => 1 | .ltz => 2 | .gez => 3 | .gtz => 4 | .lez => 5

/-- Condition of BRC; 6 to 15 are reserved (R63). -/
def SCond.ofCode (n : BitVec 4) : Option SCond :=
  match n.toNat with
  | 0 => some .eqz | 1 => some .nez | 2 => some .ltz | 3 => some .gez | 4 => some .gtz | 5 => some .lez
  | _ => none

/-- cond codes of BRV (R63). -/
def PCond.code : PCond → BitVec 4
  | .any => 0 | .all => 1 | .none => 2 | .nall => 3

/-- Condition of BRV; 4 to 15 are reserved (R63). -/
def PCond.ofCode (n : BitVec 4) : Option PCond :=
  match n.toNat with
  | 0 => some .any | 1 => some .all | 2 => some .none | 3 => some .nall
  | _ => none

/-- fn codes of VCMP and VCMPM (R63). -/
def VCond.code : VCond → BitVec 8
  | .eq => 0 | .ne => 1 | .lt => 2 | .le => 3 | .gt => 4 | .ge => 5 | .un => 6

/-- Condition of VCMP and VCMPM (R63). -/
def VCond.ofCode (n : Nat) : Option VCond :=
  match n with
  | 0 => some .eq | 1 => some .ne | 2 => some .lt | 3 => some .le | 4 => some .gt | 5 => some .ge | 6 => some .un
  | _ => none

/-- Operator codes of VXRED and VXSCAN: fn[3:0] (R63). -/
def RedOp.code : RedOp → BitVec 4
  | .add => 0 | .min => 1 | .max => 2 | .and => 3 | .or => 4 | .xor => 5

/-- Operator of VXRED and VXSCAN (R63). -/
def RedOp.ofCode (n : Nat) : Option RedOp :=
  match n with
  | 0 => some .add | 1 => some .min | 2 => some .max | 3 => some .and | 4 => some .or | 5 => some .xor
  | _ => none

/-- OP codes of atomics (R64). -/
def AtomOp.code : AtomOp → BitVec 4
  | .add => 0 | .min => 1 | .max => 2 | .minu => 3 | .maxu => 4 | .and => 5 | .or => 6 | .xor => 7
  | .swap => 8 | .cas => 9 | .fadd => 10

/-- OP of an atomic; 11 to 15 are reserved (R64). -/
def AtomOp.ofCode (n : BitVec 4) : Option AtomOp :=
  match n.toNat with
  | 0 => some .add | 1 => some .min | 2 => some .max | 3 => some .minu | 4 => some .maxu | 5 => some .and
  | 6 => some .or | 7 => some .xor | 8 => some .swap | 9 => some .cas | 10 => some .fadd
  | _ => none

/-- KIND codes of FENCE (R181). -/
def FenceKind.code : FenceKind → BitVec 2
  | .acq => 0 | .rel => 1 | .acqRel => 2

/-- KIND of FENCE; 3 is reserved (R181). -/
def FenceKind.ofCode (n : BitVec 2) : Option FenceKind :=
  match n.toNat with
  | 0 => some .acq | 1 => some .rel | 2 => some .acqRel
  | _ => none

/-! ### The five formats -/

/-- A field whose lowest bit is bit `lo`. -/
def fld {w n : Nat} (lo : Nat) (x : BitVec n) : BitVec w := x.setWidth w <<< lo

/-- A one-bit field. -/
def flag {w : Nat} (lo : Nat) (b : Bool) : BitVec w := fld lo (BitVec.ofBool b)

/-- Format R (R47). -/
def rWord (q : Bool) (op : BitVec 7) (pn : Bool) (pi : BitVec 3) (d a b c fn : BitVec 8) (mod : BitVec 12) : Word :=
  flag 63 q ||| fld 56 op ||| flag 55 pn ||| fld 52 pi ||| fld 44 d ||| fld 36 a ||| fld 28 b ||| fld 20 c ||| fld 12 fn ||| fld 0 mod

/-- Format I (R48). -/
def iWord (q : Bool) (op : BitVec 7) (pn : Bool) (pi : BitVec 3) (d a : BitVec 8) (imm : BitVec 36) : Word :=
  flag 63 q ||| fld 56 op ||| flag 55 pn ||| fld 52 pi ||| fld 44 d ||| fld 36 a ||| fld 0 imm

/-- Format B (R49). -/
def bWord (q : Bool) (op : BitVec 7) (cond : BitVec 4) (a : BitVec 8) (off : BitVec 32) : Word :=
  flag 63 q ||| fld 56 op ||| fld 48 cond ||| fld 36 a ||| fld 0 off

/-- Format M (R50). -/
def mWord (q : Bool) (op : BitVec 7) (pn : Bool) (pi : BitVec 3) (d a b : BitVec 8) (slack scope : BitVec 3)
    (hint : BitVec 2) (fn : BitVec 8) (disp : BitVec 12) : Word :=
  flag 63 q ||| fld 56 op ||| flag 55 pn ||| fld 52 pi ||| fld 44 d ||| fld 36 a ||| fld 28 b ||| fld 25 slack ||| fld 22 scope ||| fld 20 hint ||| fld 12 fn ||| fld 0 disp

/-- Format X (R52). -/
def xWord (q : Bool) (op : BitVec 7) (pn : Bool) (pi : BitVec 3) (d a b c : BitVec 8) (fn : BitVec 4)
    (slack : BitVec 3) (xmod : BitVec 13) : Word :=
  flag 63 q ||| fld 56 op ||| flag 55 pn ||| fld 52 pi ||| fld 44 d ||| fld 36 a ||| fld 28 b ||| fld 20 c ||| fld 16 fn ||| fld 13 slack ||| fld 0 xmod

namespace Fld
/-- Bit [63]. -/
def q (w : Word) : Bool := w.getLsbD 63
/-- Bits [62:56]. -/
def op (w : Word) : BitVec 7 := w.extractLsb' 56 7
/-- Bit [55]. -/
def pn (w : Word) : Bool := w.getLsbD 55
/-- Bits [54:52]. -/
def pi (w : Word) : BitVec 3 := w.extractLsb' 52 3
/-- Bits [51:44]. -/
def d (w : Word) : BitVec 8 := w.extractLsb' 44 8
/-- Bits [43:36]. -/
def a (w : Word) : BitVec 8 := w.extractLsb' 36 8
/-- Bits [35:28]. -/
def b (w : Word) : BitVec 8 := w.extractLsb' 28 8
/-- Bits [27:20] of formats R and X. -/
def c (w : Word) : BitVec 8 := w.extractLsb' 20 8
/-- Bits [19:12] of formats R and M. -/
def fn (w : Word) : BitVec 8 := w.extractLsb' 12 8
/-- Bits [11:0] of format R. -/
def mod (w : Word) : BitVec 12 := w.extractLsb' 0 12
/-- Bits [35:0] of format I. -/
def imm36 (w : Word) : BitVec 36 := w.extractLsb' 0 36
/-- Bits [51:48] of format B. -/
def cond (w : Word) : BitVec 4 := w.extractLsb' 48 4
/-- Bits [31:0] of format B. -/
def off (w : Word) : BitVec 32 := w.extractLsb' 0 32
/-- Bits [27:25] of format M. -/
def mslack (w : Word) : BitVec 3 := w.extractLsb' 25 3
/-- Bits [24:22] of format M. -/
def scope (w : Word) : BitVec 3 := w.extractLsb' 22 3
/-- Bits [21:20] of format M. -/
def hint (w : Word) : BitVec 2 := w.extractLsb' 20 2
/-- Bits [11:0] of format M. -/
def disp (w : Word) : BitVec 12 := w.extractLsb' 0 12
/-- Bits [19:16] of format X. -/
def xfn (w : Word) : BitVec 4 := w.extractLsb' 16 4
/-- Bits [15:13] of format X. -/
def xslack (w : Word) : BitVec 3 := w.extractLsb' 13 3
/-- Bits [12:0] of format X. -/
def xmod (w : Word) : BitVec 13 := w.extractLsb' 0 13
end Fld

/-! ### The encoder -/

/-- mod of a format-R vector instruction (R61). -/
def vmodBits (o : VOp) : BitVec 12 := flag 10 o.x ||| fld 8 o.b.bk ||| flag 7 o.sat ||| fld 4 o.rm.code ||| fld 0 o.et.code

/-- A format-R vector word. -/
def vWord (op : BitVec 7) (fn : BitVec 8) (o : VOp) : Word :=
  rWord o.q op o.pn o.pi o.d o.a o.b.field o.c fn (vmodBits o)

/-- The b field of majors 0x10 and 0x11. -/
def SSrc.field : SSrc → BitVec 8
  | .r n => n | .imm n => n

/-- mod[11] of majors 0x10 and 0x11 (R114). -/
def SSrc.mod : SSrc → BitVec 12
  | .r _ => 0 | .imm _ => 0x800

/-- A word of majors 0x10 and 0x11 (R114). -/
def sWord (op : BitVec 7) (fn : BitVec 8) (o : SBin) : Word :=
  rWord o.q op false 0 o.d o.a o.b.field 0 fn o.b.mod

/-- A word of the unary forms of major 0x12 (R117). -/
def sUnWord (fn : BitVec 8) (o : SUn) : Word := rWord o.q 0x12 false 0 o.d o.a 0 0 fn 0

/-- A word of SSEXT and SZEXT (R117). -/
def sWidWord (fn : BitVec 8) (o : SWid) : Word := rWord o.q 0x12 false 0 o.d o.a 0 0 fn (fld 0 o.width)

/-- A word of SBFX and SBFI (R117). -/
def sBfWord (fn : BitVec 8) (o : SBf) : Word := rWord o.q 0x12 false 0 o.d o.a o.b 0 fn (fld 0 o.pos)

/-- A word of majors 0x18 to 0x1F (R119). -/
def sImmWord (op : BitVec 7) (o : SImm) : Word := iWord o.q op false 0 o.d o.a o.imm

/-- A load or store word (R50, R51). -/
def memWord (op : BitVec 7) (o : MemF) : Word :=
  mWord o.q op o.pn o.pi o.d o.a o.b o.slack o.scope.code o.hint (flag 7 o.ik ||| flag 6 o.bk ||| fld 4 o.scale ||| fld 0 o.size.code) o.disp

/-- A VATOM (ik = 0) or SATOM (ik = 1) word (R64). -/
def atomWord (ik : Bool) (o : AtomF) : Word :=
  mWord o.q 0x6D o.pn o.pi o.d o.a o.b o.slack o.scope.code o.hint
    (flag 7 ik ||| flag 6 o.bk ||| flag 5 o.ret ||| flag 4 o.w64 ||| fld 0 o.op.code) o.disp

/-- A CLEAN (inv = 0) or INVAL (inv = 1) word (R180). -/
def cacheWord (inv : Bool) (o : CacheF) : Word :=
  mWord o.q 0x6B false 0 0 o.a 0 o.slack o.scope.code 0 (flag 6 o.bk ||| flag 1 o.all ||| flag 0 inv) o.disp

/-- A VQNT (fn[3] = 0) or VDQNT (fn[3] = 1) word (R155). -/
def qntWord (dq : Bool) (o : VQntF) : Word :=
  rWord o.q 0x38 o.pn o.pi o.d o.a o.b (fld 0 o.wide.code) (flag 3 dq ||| fld 0 o.bs)
    (flag 7 o.sat ||| fld 4 o.rm.code ||| fld 0 o.narrow.code)

/-- A TCOPY, TCOPYW or THASH word (R63). -/
def copyWord (fn : BitVec 4) (o : CopyF) : Word :=
  xWord o.q 0x7B false 0 o.d o.a 0 0 fn o.slack (fld 0 o.queue)

/-- The word of an instruction, `none` for a step, a command or a reset (R46-R64). -/
def encode : Instr → Option Word
  | .nop q => some (rWord q 0x01 false 0 0 0 0 0 0 0)
  | .bkpt q tag => some (rWord q 0x01 false 0 0 0 0 0 1 (fld 0 tag))
  | .exitw q => some (rWord q 0x01 false 0 0 0 0 0 2 0)
  | .tret q => some (rWord q 0x01 false 0 0 0 0 0 3 0)
  | .trap q n => some (iWord q 0x02 false 0 0 0 (fld 0 n))
  | .srd o => some (rWord o.q 0x03 false 0 o.d o.sr 0 0 0 (flag 0 o.vec))
  | .swr o => some (rWord o.q 0x04 false 0 o.sr o.a 0 0 0 0)
  | .perfrd o => some (rWord o.q 0x05 false 0 o.d o.n 0 0 0 (flag 0 o.clr))
  | .bra q off => some (bWord q 0x06 0 0 off)
  | .brc q c a off => some (bWord q 0x07 c.code a off)
  | .brv q c a off => some (bWord q 0x08 c.code a off)
  | .call q off => some (bWord q 0x09 0 0 off)
  | .ret q a => some (rWord q 0x0A false 0 0 a 0 0 0 0)
  | .jmpi q a => some (rWord q 0x0A false 0 0 a 0 0 1 0)
  | .xmovExecP q a => some (rWord q 0x0B false 0 0 a 0 0 0 0)
  | .xand q d a inv => some (rWord q 0x0B false 0 d a 0 0 1 (flag 0 inv))
  | .xjoin q a => some (rWord q 0x0B false 0 0 a 0 0 2 0)
  | .xmovPExec q d => some (rWord q 0x0B false 0 d 0 0 0 3 0)
  | .sigchk q imm => some (iWord q 0x0C false 0 0 0 (fld 0 imm))
  | .acorn q id => some (iWord q 0x0D false 0 0 0 (fld 0 id))
  | .icinv q s => some (rWord q 0x0E false 0 0 0 0 0 0 (fld 0 s.code))
  | .sadd o => some (sWord 0x10 0 o)
  | .ssub o => some (sWord 0x10 1 o)
  | .sand o => some (sWord 0x10 2 o)
  | .sor o => some (sWord 0x10 3 o)
  | .sxor o => some (sWord 0x10 4 o)
  | .sandn o => some (sWord 0x10 5 o)
  | .sshl o => some (sWord 0x10 6 o)
  | .sshr o => some (sWord 0x10 7 o)
  | .ssar o => some (sWord 0x10 8 o)
  | .srot o => some (sWord 0x10 9 o)
  | .smin o => some (sWord 0x10 10 o)
  | .smax o => some (sWord 0x10 11 o)
  | .sminu o => some (sWord 0x10 12 o)
  | .smaxu o => some (sWord 0x10 13 o)
  | .sslt o => some (sWord 0x10 14 o)
  | .ssltu o => some (sWord 0x10 15 o)
  | .sseq o => some (sWord 0x10 16 o)
  | .smul o => some (sWord 0x11 0 o)
  | .smulh o => some (sWord 0x11 1 o)
  | .smulhu o => some (sWord 0x11 2 o)
  | .sdiv o => some (sWord 0x11 3 o)
  | .sdivu o => some (sWord 0x11 4 o)
  | .srem o => some (sWord 0x11 5 o)
  | .sremu o => some (sWord 0x11 6 o)
  | .smad o => some (rWord o.q 0x11 false 0 o.d o.a o.b.field o.c 7 o.b.mod)
  | .sclz o => some (sUnWord 0 o)
  | .sctz o => some (sUnWord 1 o)
  | .spopc o => some (sUnWord 2 o)
  | .sbrev o => some (sUnWord 3 o)
  | .ssext o => some (sWidWord 4 o)
  | .szext o => some (sWidWord 5 o)
  | .sbfx o => some (sBfWord 6 o)
  | .sbfi o => some (sBfWord 7 o)
  | .ssel o => some (rWord o.q 0x13 false 0 o.d o.a o.b o.c 0 0)
  | .slea o => some (rWord o.q 0x14 false 0 o.d o.a o.b 0 0 (fld 0 o.shift))
  | .saddi o => some (sImmWord 0x18 o)
  | .sandi o => some (sImmWord 0x19 o)
  | .sori o => some (sImmWord 0x1A o)
  | .sxori o => some (sImmWord 0x1B o)
  | .smovi o => some (sImmWord 0x1C o)
  | .smovhi o => some (sImmWord 0x1D o)
  | .sslti o => some (sImmWord 0x1E o)
  | .saddpc o => some (sImmWord 0x1F o)
  | .vadd o => some (vWord 0x30 0 o)
  | .vsub o => some (vWord 0x30 1 o)
  | .vmul o => some (vWord 0x30 2 o)
  | .vmulh o => some (vWord 0x30 3 o)
  | .vmad o => some (vWord 0x30 4 o)
  | .vmin o => some (vWord 0x30 5 o)
  | .vmax o => some (vWord 0x30 6 o)
  | .vabs o => some (vWord 0x30 7 o)
  | .vneg o => some (vWord 0x30 8 o)
  | .vabsd o => some (vWord 0x30 9 o)
  | .vavg o => some (vWord 0x30 10 o)
  | .vdiv o => some (vWord 0x30 11 o)
  | .vrem o => some (vWord 0x30 12 o)
  | .vand o => some (vWord 0x31 0 o)
  | .vor o => some (vWord 0x31 1 o)
  | .vxor o => some (vWord 0x31 2 o)
  | .vandn o => some (vWord 0x31 3 o)
  | .vnot o => some (vWord 0x31 4 o)
  | .vshl o => some (vWord 0x31 5 o)
  | .vshr o => some (vWord 0x31 6 o)
  | .vsar o => some (vWord 0x31 7 o)
  | .vrot o => some (vWord 0x31 8 o)
  | .vclz o => some (vWord 0x31 9 o)
  | .vpopc o => some (vWord 0x31 10 o)
  | .vfadd o => some (vWord 0x32 0 o)
  | .vfsub o => some (vWord 0x32 1 o)
  | .vfmul o => some (vWord 0x32 2 o)
  | .vfma o => some (vWord 0x32 3 o)
  | .vfms o => some (vWord 0x32 4 o)
  | .vfmin o => some (vWord 0x32 5 o)
  | .vfmax o => some (vWord 0x32 6 o)
  | .vfabs o => some (vWord 0x32 7 o)
  | .vfneg o => some (vWord 0x32 8 o)
  | .vfdiv o => some (vWord 0x32 9 o)
  | .vrcp o => some (vWord 0x33 0 o)
  | .vrsq o => some (vWord 0x33 1 o)
  | .vsqrt o => some (vWord 0x33 2 o)
  | .vexp2 o => some (vWord 0x33 3 o)
  | .vlog2 o => some (vWord 0x33 4 o)
  | .vsin o => some (vWord 0x33 5 o)
  | .vcos o => some (vWord 0x33 6 o)
  | .vtanh o => some (vWord 0x33 7 o)
  | .vsigm o => some (vWord 0x33 8 o)
  | .vcmp c o => some (vWord 0x34 c.code o)
  | .vcmpm c o => some (vWord 0x35 c.code o)
  | .vsel o => some (vWord 0x36 0 o)
  | .vselm o => some (vWord 0x36 1 o)
  | .vpack o => some (vWord 0x36 2 o)
  | .vunpkl o => some (vWord 0x36 3 o)
  | .vunpkh o => some (vWord 0x36 4 o)
  | .vmov o => some (vWord 0x36 5 o)
  | .vmovi o => some (iWord o.q 0x40 o.pn o.pi o.d 0 o.imm)
  | .vcvt o => some (rWord o.q 0x37 o.pn o.pi o.d o.a o.b 0 (fld 0 o.dst.code)
      (flag 10 o.x ||| flag 7 o.sat ||| fld 4 o.rm.code ||| fld 0 o.src.code))
  | .vqnt o => some (qntWord false o)
  | .vdqnt o => some (qntWord true o)
  | .vrndRaw o => some (vWord 0x39 0 o)
  | .vrndUniform o => some (vWord 0x39 1 o)
  | .vxread o => some (vWord 0x3A 0 o)
  | .vxshf o => some (vWord 0x3A 1 o)
  | .vxbfly o => some (vWord 0x3A 2 o)
  | .vballot o => some (rWord o.q 0x3A o.pn o.pi o.d o.a 0 0 3 0)
  | .vxred op o => some (vWord 0x3A (fld 4 (1 : BitVec 4) ||| fld 0 op.code) o)
  | .vxscan op o => some (vWord 0x3A (fld 4 (2 : BitVec 4) ||| fld 0 op.code) o)
  | .vacs o => some (vWord 0x3B 0 o)
  | .vdwc o => some (vWord 0x3C 0 o)
  | .vwmax o => some (vWord 0x3D 0 o)
  | .vwavg o => some (vWord 0x3D 1 o)
  | .ldS o => some (memWord 0x60 o)
  | .stS o => some (memWord 0x61 o)
  | .vld o => some (memWord 0x62 o)
  | .vst o => some (memWord 0x63 o)
  | .vldx o => some (memWord 0x64 o)
  | .vstx o => some (memWord 0x65 o)
  | .spld o => some (memWord 0x66 o)
  | .spst o => some (memWord 0x67 o)
  | .lda o => some (memWord 0x68 o)
  | .strel o => some (memWord 0x69 o)
  | .fence o => some (mWord o.q 0x6A false 0 0 o.a 0 o.slack o.scope.code 0
      (flag 6 o.bk ||| flag 4 o.line ||| fld 0 o.kind.code) o.disp)
  | .clean o => some (cacheWord false o)
  | .inval o => some (cacheWord true o)
  | .wmap o => some (mWord o.q 0x6C false 0 o.d o.a o.b o.slack 0 0 (flag 0 o.wr) 0)
  | .vatom o => some (atomWord false o)
  | .satom o => some (atomWord true o)
  | .txbegin q off => some (bWord q 0x70 0 0 off)
  | .txend q d => some (rWord q 0x71 false 0 d 0 0 0 0 0)
  | .txabort q a => some (rWord q 0x71 false 0 0 a 0 0 1 0)
  | .gjoin q a s => some (rWord q 0x72 false 0 0 a 0 0 0 (fld 0 s))
  | .gleave q => some (rWord q 0x72 false 0 0 0 0 0 1 0)
  | .bopen q d a m => some (rWord q 0x73 false 0 d a 0 0 0 (fld 0 m))
  | .bara q a => some (rWord q 0x73 false 0 0 a 0 0 1 0)
  | .barw q a => some (rWord q 0x73 false 0 0 a 0 0 2 0)
  | .vclaim q n => some (rWord q 0x74 false 0 0 0 0 0 0 (fld 0 n))
  | .vrels q n => some (rWord q 0x74 false 0 0 0 0 0 1 (fld 0 n))
  | .mmaBp o => some (xWord o.q 0x78 false 0 o.d o.a o.b o.c 0 o.slack (flag 8 o.acc ||| fld 4 o.pb ||| fld 0 o.pa))
  | .mzero q d => some (xWord q 0x79 false 0 d 0 0 0 0 0 0)
  | .mrd o => some (xWord o.q 0x79 false 0 o.d o.a o.b o.c 1 o.slack (flag 8 o.fp32 ||| fld 0 o.rowbyte))
  | .mwr o => some (xWord o.q 0x79 false 0 o.d o.a o.b 0 2 o.slack 0)
  | .mbatch q d => some (xWord q 0x79 false 0 d 0 0 0 3 0 0)
  | .mwait q a => some (xWord q 0x79 false 0 0 a 0 0 4 0 0)
  | .qplane o => some (xWord o.q 0x7A false 0 0 o.a o.b 0 0 o.slack (fld 4 o.et.code ||| fld 0 o.planes))
  | .amaxrd q d s => some (xWord q 0x7A false 0 d 0 0 0 1 0 (fld 0 s))
  | .tcopy o => some (copyWord 0 o)
  | .tcopyw o => some (copyWord 1 o)
  | .thash o => some (copyWord 2 o)
  | .cfence q m => some (xWord q 0x7B false 0 0 0 0 0 3 0 (fld 0 m))
  | .cwait q a => some (xWord q 0x7B false 0 0 a 0 0 4 0 0)
  | .cyield q a off => some (xWord q 0x7B false 0 0 a 0 0 5 0 off)
  | .emit o => some (xWord o.q 0x7C o.pn o.pi o.d o.a o.b 0 0 o.slack (fld 0 o.size))
  | .emitc o => some (xWord o.q 0x7C o.pn o.pi o.d o.a o.b 0 1 o.slack 0)
  | .joindec o => some (xWord o.q 0x7C o.pn o.pi o.d o.a 0 0 2 o.slack 0)
  | .piprd o => some (xWord o.q 0x7C o.pn o.pi o.d 0 0 0 3 0 (flag 0 o.idx))
  | .loadReturn _ | .storePerformed _ _ | .atomicPerformed _ | .fenceComplete _ | .writebackAck _ | .icinvAck _
  | .trapEntry _ _ _ _ | .launchTeardown _ | .transactionAbort _ _ _ | .claimGrant _ | .claimDeadlock _
  | .matrixOperationStart _ | .mmaKstep _ | .tileAccessComplete _ | .copyStart _ _ | .copyComplete _ _
  | .podAppend _ | .coalescingTimerExpiry _ _ | .podDeadlock _ | .continuationDispatch _ _ | .groupDispatch _
  | .gangReserve _ _ | .gangBackoffExpiry _ _ | .launch _ | .edgeHash _ _ _ | .operatingPointChange _
  | .launchCompletion _ | .signatureEpochAdvance | .quantumEnd _ | .epochEnd _ | .checkCompare _ | .acornTake _ _
  | .reexecute _ | .l2Request _ | .huskSweepComplete _ | .shareRetire _ _ | .dramPatrol _ | .preemptionRequest _
  | .preemptionSave _ | .fullSave _ | .preemptionRestore _ | .worldSwitch _ _ | .stage2FaultService _ _ | .null _
  | .poolRefill _ _ | .tlbi _ | .fail _ | .stage2Shootdown _ _ _ | .poolCheck _ _ | .peerRequest _ _ _
  | .peerFatalNotice _ | .linkTraining _ _ _ | .linkLossOfLock _ | .apertureAccess _ _ _ | .sqDoorbell _ _ _
  | .queueEnable _ _ _ | .huskDefine _ | .graphCreate _ | .graphDestroy _ | .traceMark _ | .perfConfig _
  | .perfRead _ | .slotConfig _ | .poolSet _ _ | .s1rootSet _ | .ctxCreate _ _ _ | .ctxDestroy _ | .vfAssign _
  | .getVersion | .getCapabilities | .negotiateAlgorithms _ _ | .getDigests | .getCertificate _ | .challenge _
  | .getMeasurements _ _ | .keyExchange _ | .finish _ | .heartbeat _ | .endSession _ | .ideIntegrityFailure _
  | .pairStatus _ | .pairReturn _ _ | .inject _ | .wdogSet _ | .wdogKick _ | .watchdogExpiry _
  | .thermalCapAdjust _ | .hotClear _ | .coldReset _ | .warmReset _ | .vfFunctionLevelReset _
  | .registerWrite _ _ _ | .quiescePoint _ | .modeRequest _ _ | .iciLoad _ _ _ | .lpddr6Request _ | .arbiterGrant _
  | .slackExhaustion _ | .peerShootdown _ _ _ | .ideKm _ _ _ _ | .doeDiscovery _ | .thermalFatal _ _ => none

/-! ### The decoder -/

/-- An instruction whose field parsed, or RESERVED_FIELD. -/
def orReserved : Option Instr → Decoded
  | some i => .ok i
  | none => .reservedField

/-- A format-R vector operand set; a reserved ET, RM or BK has none (R61). -/
def parseV (w : Word) : Option VOp := do
  let et ← ET.ofCode ((Fld.mod w).extractLsb' 0 4)
  let rm ← RM.ofCode ((Fld.mod w).extractLsb' 4 3)
  let b ← BSrc.ofCode ((Fld.mod w).extractLsb' 8 2) (Fld.b w)
  return { q := Fld.q w, pn := Fld.pn w, pi := Fld.pi w, d := Fld.d w, a := Fld.a w, b := b, c := Fld.c w
           et := et, rm := rm, sat := (Fld.mod w).getLsbD 7, x := (Fld.mod w).getLsbD 10 }

/-- The b operand of majors 0x10 and 0x11 (R114). -/
def parseSb (w : Word) : SSrc := if (Fld.mod w).getLsbD 11 then .imm (Fld.b w) else .r (Fld.b w)

/-- `sd, sa, sb|imm8`. -/
def parseS (w : Word) : SBin := { q := Fld.q w, d := Fld.d w, a := Fld.a w, b := parseSb w }

/-- `sd, sa`. -/
def parseSUn (w : Word) : SUn := { q := Fld.q w, d := Fld.d w, a := Fld.a w }

/-- SSEXT and SZEXT. -/
def parseSWid (w : Word) : SWid := { q := Fld.q w, d := Fld.d w, a := Fld.a w, width := (Fld.mod w).extractLsb' 0 6 }

/-- SBFX and SBFI. -/
def parseSBf (w : Word) : SBf :=
  { q := Fld.q w, d := Fld.d w, a := Fld.a w, b := Fld.b w, pos := (Fld.mod w).extractLsb' 0 6 }

/-- Majors 0x18 to 0x1F. -/
def parseSImm (w : Word) : SImm := { q := Fld.q w, d := Fld.d w, a := Fld.a w, imm := Fld.imm36 w }

/-- A load or store; a reserved SIZE or scope has none (R50, R51). -/
def parseMem (w : Word) : Option MemF := do
  let size ← Size.ofCode ((Fld.fn w).extractLsb' 0 4)
  let scope ← Scope.ofCode (Fld.scope w)
  return { q := Fld.q w, pn := Fld.pn w, pi := Fld.pi w, d := Fld.d w, a := Fld.a w, b := Fld.b w
           slack := Fld.mslack w, scope := scope, hint := Fld.hint w, size := size
           scale := (Fld.fn w).extractLsb' 4 2, bk := (Fld.fn w).getLsbD 6, ik := (Fld.fn w).getLsbD 7, disp := Fld.disp w }

/-- An atomic; a reserved OP or scope has none (R64). -/
def parseAtom (w : Word) : Option AtomF := do
  let op ← AtomOp.ofCode ((Fld.fn w).extractLsb' 0 4)
  let scope ← Scope.ofCode (Fld.scope w)
  return { q := Fld.q w, pn := Fld.pn w, pi := Fld.pi w, d := Fld.d w, a := Fld.a w, b := Fld.b w
           slack := Fld.mslack w, scope := scope, hint := Fld.hint w, op := op, w64 := (Fld.fn w).getLsbD 4
           ret := (Fld.fn w).getLsbD 5, bk := (Fld.fn w).getLsbD 6, disp := Fld.disp w }

/-- FENCE (R181). -/
def parseFence (w : Word) : Option FenceF := do
  let kind ← FenceKind.ofCode ((Fld.fn w).extractLsb' 0 2)
  let scope ← Scope.ofCode (Fld.scope w)
  return { q := Fld.q w, kind := kind, line := (Fld.fn w).getLsbD 4, bk := (Fld.fn w).getLsbD 6, a := Fld.a w
           slack := Fld.mslack w, scope := scope, disp := Fld.disp w }

/-- CLEAN and INVAL (R180). -/
def parseCache (w : Word) : Option CacheF := do
  let scope ← Scope.ofCode (Fld.scope w)
  return { q := Fld.q w, all := (Fld.fn w).getLsbD 1, bk := (Fld.fn w).getLsbD 6, a := Fld.a w
           slack := Fld.mslack w, scope := scope, disp := Fld.disp w }

/-- VCVT (R154). -/
def parseVcvt (w : Word) : Option VCvtF := do
  let dst ← ET.ofCode ((Fld.fn w).extractLsb' 0 4)
  let src ← ET.ofCode ((Fld.mod w).extractLsb' 0 4)
  let rm ← RM.ofCode ((Fld.mod w).extractLsb' 4 3)
  return { q := Fld.q w, pn := Fld.pn w, pi := Fld.pi w, d := Fld.d w, a := Fld.a w, b := Fld.b w, dst := dst, src := src
           rm := rm, sat := (Fld.mod w).getLsbD 7, x := (Fld.mod w).getLsbD 10 }

/-- VQNT and VDQNT (R155). -/
def parseQnt (w : Word) : Option VQntF := do
  let narrow ← ET.ofCode ((Fld.mod w).extractLsb' 0 4)
  let wide ← ET.ofCode ((Fld.c w).extractLsb' 0 4)
  let rm ← RM.ofCode ((Fld.mod w).extractLsb' 4 3)
  return { q := Fld.q w, pn := Fld.pn w, pi := Fld.pi w, d := Fld.d w, a := Fld.a w, b := Fld.b w
           bs := (Fld.fn w).extractLsb' 0 3, narrow := narrow, wide := wide, rm := rm, sat := (Fld.mod w).getLsbD 7 }

/-- TCOPY, TCOPYW and THASH. -/
def parseCopy (w : Word) : CopyF :=
  { q := Fld.q w, d := Fld.d w, a := Fld.a w, slack := Fld.xslack w, queue := (Fld.xmod w).extractLsb' 0 2 }

/-- Major 0x01 (R63). -/
def decodeControl (w : Word) : Decoded :=
  match (Fld.fn w).toNat with
  | 0x00 => .ok (.nop (Fld.q w))
  | 0x01 => .ok (.bkpt (Fld.q w) ((Fld.mod w).extractLsb' 0 8))
  | 0x02 => .ok (.exitw (Fld.q w))
  | 0x03 => .ok (.tret (Fld.q w))
  | _ => .illegalOpcode

/-- Major 0x0B (R63). -/
def decodeMask (w : Word) : Decoded :=
  match (Fld.fn w).toNat with
  | 0x00 => .ok (.xmovExecP (Fld.q w) (Fld.a w))
  | 0x01 => .ok (.xand (Fld.q w) (Fld.d w) (Fld.a w) ((Fld.mod w).getLsbD 0))
  | 0x02 => .ok (.xjoin (Fld.q w) (Fld.a w))
  | 0x03 => .ok (.xmovPExec (Fld.q w) (Fld.d w))
  | _ => .illegalOpcode

/-- Major 0x10 (R115). -/
def decodeScalar (w : Word) : Decoded :=
  match (Fld.fn w).toNat with
  | 0x00 => .ok (.sadd (parseS w))
  | 0x01 => .ok (.ssub (parseS w))
  | 0x02 => .ok (.sand (parseS w))
  | 0x03 => .ok (.sor (parseS w))
  | 0x04 => .ok (.sxor (parseS w))
  | 0x05 => .ok (.sandn (parseS w))
  | 0x06 => .ok (.sshl (parseS w))
  | 0x07 => .ok (.sshr (parseS w))
  | 0x08 => .ok (.ssar (parseS w))
  | 0x09 => .ok (.srot (parseS w))
  | 0x0A => .ok (.smin (parseS w))
  | 0x0B => .ok (.smax (parseS w))
  | 0x0C => .ok (.sminu (parseS w))
  | 0x0D => .ok (.smaxu (parseS w))
  | 0x0E => .ok (.sslt (parseS w))
  | 0x0F => .ok (.ssltu (parseS w))
  | 0x10 => .ok (.sseq (parseS w))
  | _ => .illegalOpcode

/-- Major 0x11 (R116). -/
def decodeScalarMul (w : Word) : Decoded :=
  match (Fld.fn w).toNat with
  | 0x00 => .ok (.smul (parseS w))
  | 0x01 => .ok (.smulh (parseS w))
  | 0x02 => .ok (.smulhu (parseS w))
  | 0x03 => .ok (.sdiv (parseS w))
  | 0x04 => .ok (.sdivu (parseS w))
  | 0x05 => .ok (.srem (parseS w))
  | 0x06 => .ok (.sremu (parseS w))
  | 0x07 => .ok (.smad { q := Fld.q w, d := Fld.d w, a := Fld.a w, b := parseSb w, c := Fld.c w })
  | _ => .illegalOpcode

/-- Major 0x12 (R117). -/
def decodeScalarBits (w : Word) : Decoded :=
  match (Fld.fn w).toNat with
  | 0x00 => .ok (.sclz (parseSUn w))
  | 0x01 => .ok (.sctz (parseSUn w))
  | 0x02 => .ok (.spopc (parseSUn w))
  | 0x03 => .ok (.sbrev (parseSUn w))
  | 0x04 => .ok (.ssext (parseSWid w))
  | 0x05 => .ok (.szext (parseSWid w))
  | 0x06 => .ok (.sbfx (parseSBf w))
  | 0x07 => .ok (.sbfi (parseSBf w))
  | _ => .illegalOpcode

/-- Major 0x30 (R146). -/
def decodeVecInt (w : Word) : Decoded :=
  match (Fld.fn w).toNat with
  | 0x00 => orReserved ((parseV w).map .vadd)
  | 0x01 => orReserved ((parseV w).map .vsub)
  | 0x02 => orReserved ((parseV w).map .vmul)
  | 0x03 => orReserved ((parseV w).map .vmulh)
  | 0x04 => orReserved ((parseV w).map .vmad)
  | 0x05 => orReserved ((parseV w).map .vmin)
  | 0x06 => orReserved ((parseV w).map .vmax)
  | 0x07 => orReserved ((parseV w).map .vabs)
  | 0x08 => orReserved ((parseV w).map .vneg)
  | 0x09 => orReserved ((parseV w).map .vabsd)
  | 0x0A => orReserved ((parseV w).map .vavg)
  | 0x0B => orReserved ((parseV w).map .vdiv)
  | 0x0C => orReserved ((parseV w).map .vrem)
  | _ => .illegalOpcode

/-- Major 0x31 (R147). -/
def decodeVecBits (w : Word) : Decoded :=
  match (Fld.fn w).toNat with
  | 0x00 => orReserved ((parseV w).map .vand)
  | 0x01 => orReserved ((parseV w).map .vor)
  | 0x02 => orReserved ((parseV w).map .vxor)
  | 0x03 => orReserved ((parseV w).map .vandn)
  | 0x04 => orReserved ((parseV w).map .vnot)
  | 0x05 => orReserved ((parseV w).map .vshl)
  | 0x06 => orReserved ((parseV w).map .vshr)
  | 0x07 => orReserved ((parseV w).map .vsar)
  | 0x08 => orReserved ((parseV w).map .vrot)
  | 0x09 => orReserved ((parseV w).map .vclz)
  | 0x0A => orReserved ((parseV w).map .vpopc)
  | _ => .illegalOpcode

/-- Major 0x32 (R148). -/
def decodeVecFloat (w : Word) : Decoded :=
  match (Fld.fn w).toNat with
  | 0x00 => orReserved ((parseV w).map .vfadd)
  | 0x01 => orReserved ((parseV w).map .vfsub)
  | 0x02 => orReserved ((parseV w).map .vfmul)
  | 0x03 => orReserved ((parseV w).map .vfma)
  | 0x04 => orReserved ((parseV w).map .vfms)
  | 0x05 => orReserved ((parseV w).map .vfmin)
  | 0x06 => orReserved ((parseV w).map .vfmax)
  | 0x07 => orReserved ((parseV w).map .vfabs)
  | 0x08 => orReserved ((parseV w).map .vfneg)
  | 0x09 => orReserved ((parseV w).map .vfdiv)
  | _ => .illegalOpcode

/-- Major 0x33 (R149). -/
def decodeSpecial (w : Word) : Decoded :=
  match (Fld.fn w).toNat with
  | 0x00 => orReserved ((parseV w).map .vrcp)
  | 0x01 => orReserved ((parseV w).map .vrsq)
  | 0x02 => orReserved ((parseV w).map .vsqrt)
  | 0x03 => orReserved ((parseV w).map .vexp2)
  | 0x04 => orReserved ((parseV w).map .vlog2)
  | 0x05 => orReserved ((parseV w).map .vsin)
  | 0x06 => orReserved ((parseV w).map .vcos)
  | 0x07 => orReserved ((parseV w).map .vtanh)
  | 0x08 => orReserved ((parseV w).map .vsigm)
  | _ => .illegalOpcode

/-- Major 0x36 (R152). -/
def decodeSelect (w : Word) : Decoded :=
  match (Fld.fn w).toNat with
  | 0x00 => orReserved ((parseV w).map .vsel)
  | 0x01 => orReserved ((parseV w).map .vselm)
  | 0x02 => orReserved ((parseV w).map .vpack)
  | 0x03 => orReserved ((parseV w).map .vunpkl)
  | 0x04 => orReserved ((parseV w).map .vunpkh)
  | 0x05 => orReserved ((parseV w).map .vmov)
  | _ => .illegalOpcode

/-- Major 0x39 (R156). -/
def decodeRandom (w : Word) : Decoded :=
  match (Fld.fn w).toNat with
  | 0x00 => orReserved ((parseV w).map .vrndRaw)
  | 0x01 => orReserved ((parseV w).map .vrndUniform)
  | _ => .illegalOpcode

/-- Majors 0x34 and 0x35 (R151). -/
def decodeCompare (mk : VCond → VOp → Instr) (w : Word) : Decoded :=
  match VCond.ofCode (Fld.fn w).toNat with
  | some c => orReserved ((parseV w).map (mk c))
  | none => .illegalOpcode

/-- Major 0x37; fn[7:4] must be zero (R154). -/
def decodeVcvt (w : Word) : Decoded :=
  if (Fld.fn w).extractLsb' 4 4 = 0 then orReserved ((parseVcvt w).map .vcvt) else .illegalOpcode

/-- Major 0x38; fn 0x00-0x0F (R155). -/
def decodeQuant (w : Word) : Decoded :=
  if (Fld.fn w).extractLsb' 4 4 = 0 then
    orReserved ((parseQnt w).map (if (Fld.fn w).getLsbD 3 then .vdqnt else .vqnt))
  else .illegalOpcode

/-- fn 0x10-0x15 and 0x20-0x25 of major 0x3A (R161). -/
def decodeReduce (mk : RedOp → VOp → Instr) (w : Word) : Decoded :=
  match RedOp.ofCode ((Fld.fn w).extractLsb' 0 4).toNat with
  | some op => orReserved ((parseV w).map (mk op))
  | none => .illegalOpcode

/-- Major 0x3A (R158-R161). -/
def decodeCross (w : Word) : Decoded :=
  match ((Fld.fn w).extractLsb' 4 4).toNat with
  | 0 =>
    match ((Fld.fn w).extractLsb' 0 4).toNat with
    | 0 => orReserved ((parseV w).map .vxread)
    | 1 => orReserved ((parseV w).map .vxshf)
    | 2 => orReserved ((parseV w).map .vxbfly)
    | 3 => .ok (.vballot { q := Fld.q w, pn := Fld.pn w, pi := Fld.pi w, d := Fld.d w, a := Fld.a w })
    | _ => .illegalOpcode
  | 1 => decodeReduce .vxred w
  | 2 => decodeReduce .vxscan w
  | _ => .illegalOpcode

/-- A major with the one fn code 0. -/
def decodeOne (mk : VOp → Instr) (w : Word) : Decoded :=
  if Fld.fn w = 0 then orReserved ((parseV w).map mk) else .illegalOpcode

/-- Major 0x3D (R164). -/
def decodeWindow (w : Word) : Decoded :=
  match (Fld.fn w).toNat with
  | 0 => orReserved ((parseV w).map .vwmax)
  | 1 => orReserved ((parseV w).map .vwavg)
  | _ => .illegalOpcode

/-- Major 0x70s of formats B and R (R188-R201). -/
def decodeSync (w : Word) : Decoded :=
  match (Fld.op w).toNat, (Fld.fn w).toNat with
  | 0x71, 0 => .ok (.txend (Fld.q w) (Fld.d w))
  | 0x71, 1 => .ok (.txabort (Fld.q w) (Fld.a w))
  | 0x72, 0 => .ok (.gjoin (Fld.q w) (Fld.a w) ((Fld.mod w).extractLsb' 0 2))
  | 0x72, 1 => .ok (.gleave (Fld.q w))
  | 0x73, 0 => .ok (.bopen (Fld.q w) (Fld.d w) (Fld.a w) ((Fld.mod w).extractLsb' 0 4))
  | 0x73, 1 => .ok (.bara (Fld.q w) (Fld.a w))
  | 0x73, 2 => .ok (.barw (Fld.q w) (Fld.a w))
  | 0x74, 0 => .ok (.vclaim (Fld.q w) ((Fld.mod w).extractLsb' 0 6))
  | 0x74, 1 => .ok (.vrels (Fld.q w) ((Fld.mod w).extractLsb' 0 6))
  | _, _ => .illegalOpcode

/-- Majors 0x78 to 0x7C (R209-R242). -/
def decodeEngine (w : Word) : Decoded :=
  match (Fld.op w).toNat, (Fld.xfn w).toNat with
  | 0x78, 0 => .ok (.mmaBp { q := Fld.q w, d := Fld.d w, a := Fld.a w, b := Fld.b w, c := Fld.c w, slack := Fld.xslack w
                             pa := (Fld.xmod w).extractLsb' 0 4, pb := (Fld.xmod w).extractLsb' 4 4
                             acc := (Fld.xmod w).getLsbD 8 })
  | 0x79, 0 => .ok (.mzero (Fld.q w) (Fld.d w))
  | 0x79, 1 => .ok (.mrd { q := Fld.q w, d := Fld.d w, a := Fld.a w, b := Fld.b w, c := Fld.c w, slack := Fld.xslack w
                           rowbyte := (Fld.xmod w).extractLsb' 0 8, fp32 := (Fld.xmod w).getLsbD 8 })
  | 0x79, 2 => .ok (.mwr { q := Fld.q w, d := Fld.d w, a := Fld.a w, b := Fld.b w, slack := Fld.xslack w })
  | 0x79, 3 => .ok (.mbatch (Fld.q w) (Fld.d w))
  | 0x79, 4 => .ok (.mwait (Fld.q w) (Fld.a w))
  | 0x7A, 0 => orReserved ((ET.ofCode ((Fld.xmod w).extractLsb' 4 4)).map fun et =>
      .qplane { q := Fld.q w, a := Fld.a w, b := Fld.b w, slack := Fld.xslack w
                planes := (Fld.xmod w).extractLsb' 0 4, et := et })
  | 0x7A, 1 => .ok (.amaxrd (Fld.q w) (Fld.d w) ((Fld.xmod w).extractLsb' 0 6))
  | 0x7B, 0 => .ok (.tcopy (parseCopy w))
  | 0x7B, 1 => .ok (.tcopyw (parseCopy w))
  | 0x7B, 2 => .ok (.thash (parseCopy w))
  | 0x7B, 3 => .ok (.cfence (Fld.q w) ((Fld.xmod w).extractLsb' 0 4))
  | 0x7B, 4 => .ok (.cwait (Fld.q w) (Fld.a w))
  | 0x7B, 5 => .ok (.cyield (Fld.q w) (Fld.a w) (Fld.xmod w))
  | 0x7C, 0 => .ok (.emit { q := Fld.q w, pn := Fld.pn w, pi := Fld.pi w, d := Fld.d w, a := Fld.a w, b := Fld.b w
                            slack := Fld.xslack w, size := (Fld.xmod w).extractLsb' 0 4 })
  | 0x7C, 1 => .ok (.emitc { q := Fld.q w, pn := Fld.pn w, pi := Fld.pi w, d := Fld.d w, a := Fld.a w, b := Fld.b w
                             slack := Fld.xslack w })
  | 0x7C, 2 => .ok (.joindec { q := Fld.q w, pn := Fld.pn w, pi := Fld.pi w, d := Fld.d w, a := Fld.a w
                               slack := Fld.xslack w })
  | 0x7C, 3 => .ok (.piprd { q := Fld.q w, pn := Fld.pn w, pi := Fld.pi w, d := Fld.d w, idx := (Fld.xmod w).getLsbD 0 })
  | _, _ => .illegalOpcode

/-- The instruction that a word's fields name, before the checks of reserved fields. -/
def parseWord (w : Word) : Decoded :=
  match (Fld.op w).toNat with
  | 0x01 => decodeControl w
  | 0x02 => .ok (.trap (Fld.q w) ((Fld.imm36 w).extractLsb' 0 16))
  | 0x03 => if Fld.fn w = 0 then
      .ok (.srd { q := Fld.q w, vec := (Fld.mod w).getLsbD 0, d := Fld.d w, sr := Fld.a w }) else .illegalOpcode
  | 0x04 => if Fld.fn w = 0 then .ok (.swr { q := Fld.q w, sr := Fld.d w, a := Fld.a w }) else .illegalOpcode
  | 0x05 => if Fld.fn w = 0 then
      .ok (.perfrd { q := Fld.q w, d := Fld.d w, n := Fld.a w, clr := (Fld.mod w).getLsbD 0 }) else .illegalOpcode
  | 0x06 => .ok (.bra (Fld.q w) (Fld.off w))
  | 0x07 => orReserved ((SCond.ofCode (Fld.cond w)).map fun c => .brc (Fld.q w) c (Fld.a w) (Fld.off w))
  | 0x08 => orReserved ((PCond.ofCode (Fld.cond w)).map fun c => .brv (Fld.q w) c (Fld.a w) (Fld.off w))
  | 0x09 => .ok (.call (Fld.q w) (Fld.off w))
  | 0x0A =>
    match (Fld.fn w).toNat with
    | 0 => .ok (.ret (Fld.q w) (Fld.a w))
    | 1 => .ok (.jmpi (Fld.q w) (Fld.a w))
    | _ => .illegalOpcode
  | 0x0B => decodeMask w
  | 0x0C => .ok (.sigchk (Fld.q w) ((Fld.imm36 w).extractLsb' 0 32))
  | 0x0D => .ok (.acorn (Fld.q w) ((Fld.imm36 w).extractLsb' 0 16))
  | 0x0E => if Fld.fn w = 0 then
      orReserved ((Scope.ofCode ((Fld.mod w).extractLsb' 0 3)).map (.icinv (Fld.q w))) else .illegalOpcode
  | 0x10 => decodeScalar w
  | 0x11 => decodeScalarMul w
  | 0x12 => decodeScalarBits w
  | 0x13 => if Fld.fn w = 0 then
      .ok (.ssel { q := Fld.q w, d := Fld.d w, a := Fld.a w, b := Fld.b w, c := Fld.c w }) else .illegalOpcode
  | 0x14 => if Fld.fn w = 0 then
      .ok (.slea { q := Fld.q w, d := Fld.d w, a := Fld.a w, b := Fld.b w, shift := (Fld.mod w).extractLsb' 0 3 })
      else .illegalOpcode
  | 0x18 => .ok (.saddi (parseSImm w))
  | 0x19 => .ok (.sandi (parseSImm w))
  | 0x1A => .ok (.sori (parseSImm w))
  | 0x1B => .ok (.sxori (parseSImm w))
  | 0x1C => .ok (.smovi (parseSImm w))
  | 0x1D => .ok (.smovhi (parseSImm w))
  | 0x1E => .ok (.sslti (parseSImm w))
  | 0x1F => .ok (.saddpc (parseSImm w))
  | 0x30 => decodeVecInt w
  | 0x31 => decodeVecBits w
  | 0x32 => decodeVecFloat w
  | 0x33 => decodeSpecial w
  | 0x34 => decodeCompare .vcmp w
  | 0x35 => decodeCompare .vcmpm w
  | 0x36 => decodeSelect w
  | 0x37 => decodeVcvt w
  | 0x38 => decodeQuant w
  | 0x39 => decodeRandom w
  | 0x3A => decodeCross w
  | 0x3B => decodeOne .vacs w
  | 0x3C => decodeOne .vdwc w
  | 0x3D => decodeWindow w
  | 0x40 => .ok (.vmovi { q := Fld.q w, pn := Fld.pn w, pi := Fld.pi w, d := Fld.d w, imm := Fld.imm36 w })
  | 0x60 => orReserved ((parseMem w).map .ldS)
  | 0x61 => orReserved ((parseMem w).map .stS)
  | 0x62 => orReserved ((parseMem w).map .vld)
  | 0x63 => orReserved ((parseMem w).map .vst)
  | 0x64 => orReserved ((parseMem w).map .vldx)
  | 0x65 => orReserved ((parseMem w).map .vstx)
  | 0x66 => orReserved ((parseMem w).map .spld)
  | 0x67 => orReserved ((parseMem w).map .spst)
  | 0x68 => orReserved ((parseMem w).map .lda)
  | 0x69 => orReserved ((parseMem w).map .strel)
  | 0x6A => orReserved ((parseFence w).map .fence)
  | 0x6B => orReserved ((parseCache w).map (if (Fld.fn w).getLsbD 0 then .inval else .clean))
  | 0x6C => .ok (.wmap { q := Fld.q w, wr := (Fld.fn w).getLsbD 0, d := Fld.d w, a := Fld.a w, b := Fld.b w
                         slack := Fld.mslack w })
  | 0x6D => orReserved ((parseAtom w).map (if (Fld.fn w).getLsbD 7 then .satom else .vatom))
  | 0x70 => .ok (.txbegin (Fld.q w) (Fld.off w))
  | 0x71 => decodeSync w
  | 0x72 => decodeSync w
  | 0x73 => decodeSync w
  | 0x74 => decodeSync w
  | 0x78 => decodeEngine w
  | 0x79 => decodeEngine w
  | 0x7A => decodeEngine w
  | 0x7B => decodeEngine w
  | 0x7C => decodeEngine w
  | _ => .illegalOpcode

/-- The decoder (R60, R63).
An unlisted major or fn is ILLEGAL_OPCODE.
A word whose named instruction is not well formed, or that is not the word of that instruction because a bit the
instruction does not define is 1 (R53), is RESERVED_FIELD. -/
def decodeWord (w : Word) : Decoded :=
  match parseWord w with
  | .ok i => if wellFormed i && encode i == some w then .ok i else .reservedField
  | other => other

/-- The instruction the decoder reads from a row's bits (every row is one 64-bit word). -/
def decodeTableWord (_nbits w : Nat) : Option Instr :=
  match decodeWord (BitVec.ofNat 64 w) with
  | .ok i => some i
  | _ => none

end Sys2Proof
end

