-- ==== Sys2Proof/Machine/Bits.lean ====
section
/-! DEFINITION. Bit fields, sub-elements of a lane, byte order and lists with a default (00 R4, R10, 01 R23). -/

namespace Sys2Proof

/-- `l` with entry `n` set to `x`; entries up to `n` that are missing become `d`. -/
def putAt {α : Type} (d : α) : List α → Nat → α → List α
  | [], 0, x => [x]
  | [], n + 1, x => d :: putAt d [] n x
  | _ :: t, 0, x => x :: t
  | h :: t, n + 1, x => h :: putAt d t n x

/-- `f` applied to entry `n`, where there is one. -/
def modAt {α : Type} (f : α → α) : List α → Nat → List α
  | [], _ => []
  | h :: t, 0 => f h :: t
  | h :: t, n + 1 => h :: modAt f t n

/-- The first number below `n` for which `p` holds. -/
def firstBelow (p : Nat → Bool) (n : Nat) : Option Nat := (List.range n).find? p

/-- Position of the first entry that `p` accepts. -/
def indexWhere {α : Type} (p : α → Bool) : List α → Option Nat
  | [] => none
  | h :: t => if p h then some 0 else (indexWhere p t).map (· + 1)

/-- `l` without its entry `n`. -/
def dropAt {α : Type} : List α → Nat → List α
  | [], _ => []
  | _ :: t, 0 => t
  | h :: t, n + 1 => h :: dropAt t n

/-- The value of an association list at a key. -/
def lookupD {α β : Type} [DecidableEq α] (d : β) (l : List (α × β)) (k : α) : β :=
  match l.find? (fun e => e.1 == k) with
  | some e => e.2
  | none => d

/-- An association list with the value at a key replaced. -/
def assign {α β : Type} [DecidableEq α] (l : List (α × β)) (k : α) (v : β) : List (α × β) :=
  (k, v) :: l.filter (fun e => !(e.1 == k))

/-- The list cut into pieces of `n`, at most `fuel` of them. -/
def chunks {α : Type} (n : Nat) : Nat → List α → List (List α)
  | 0, _ => []
  | fuel + 1, l => if l.isEmpty then [] else l.take n :: chunks n fuel (l.drop n)

/-- Sum of the values of `f` over a list. -/
def sumBy {α : Type} (f : α → Nat) (l : List α) : Nat := l.foldl (fun n x => n + f x) 0

/-- Least value of `f` over a list, with the first entry that has it. -/
def leastBy {α : Type} (f : α → Nat) : List α → Option α
  | [] => none
  | h :: t =>
    match leastBy f t with
    | none => some h
    | some m => if f h ≤ f m then some h else some m

/-- Insertion into a list that ascends in `f`, behind equal keys. -/
def insertBy {α : Type} (f : α → Nat) (x : α) : List α → List α
  | [] => [x]
  | h :: t => if f x < f h then x :: h :: t else h :: insertBy f x t

/-- Stable ascending sort by `f`. -/
def sortBy {α : Type} (f : α → Nat) (l : List α) : List α := l.foldl (fun acc x => insertBy f x acc) []

/-! ### Numbers and bits -/

/-- Bits [hi:lo] of a number. -/
def bits (n hi lo : Nat) : Nat := (n >>> lo) % 2 ^ (hi + 1 - lo)

/-- Bit `i` of a number. -/
def bitAt (n i : Nat) : Bool := n.testBit i

/-- A number of `w` bits read as two's complement (R76). -/
def toSigned (w n : Nat) : Int := if n.testBit (w - 1) then (n : Int) - (2 ^ w : Nat) else n

/-- An integer modulo 2^w (R77). -/
def wrapTo (w : Nat) (i : Int) : Nat := (i % ((2 ^ w : Nat) : Int)).toNat

/-- The least and the greatest value of a `w`-bit element (R76). -/
def minOf (signed : Bool) (w : Nat) : Int := if signed then -((2 ^ (w - 1) : Nat) : Int) else 0
def maxOf (signed : Bool) (w : Nat) : Int := if signed then (2 ^ (w - 1) : Nat) - 1 else (2 ^ w : Nat) - 1

/-- An integer clamped to a range. -/
def clampTo (lo hi i : Int) : Int := if i < lo then lo else if hi < i then hi else i

/-- An exact integer result stored into a `w`-bit element, with or without SAT (R77). -/
def storeInt (signed sat : Bool) (w : Nat) (i : Int) : Nat :=
  wrapTo w (if sat then clampTo (minOf signed w) (maxOf signed w) i else i)

/-- Sign extension of an `n`-bit field to 64 bits. -/
def sext64 {n : Nat} (x : BitVec n) : Word := x.signExtend 64

/-- Number of 1 bits. -/
def popCount {w : Nat} (x : BitVec w) : Nat := (List.range w).countP x.getLsbD

/-- Leading zeros of a `w`-bit number (R117). -/
def leadZeros (w n : Nat) : Nat := if n = 0 then w else w - 1 - n.log2

/-- Trailing zeros of a word; 64 for zero (R117). -/
def trailZeros (x : Word) : Nat := (firstBelow x.getLsbD 64).getD 64

/-- Bit order reversed (R117). -/
def reverseBits (x : Word) : Word := BitVec.ofNat 64 ((List.range 64).foldl (fun n i => 2 * n + (x.getLsbD i).toNat) 0)

/-! ### Bytes -/

/-- The `n` low bytes of a number, lowest first (R4). -/
def bytesOf : Nat → Nat → List Byte
  | 0, _ => []
  | n + 1, v => BitVec.ofNat 8 v :: bytesOf n (v >>> 8)

/-- The number that little-endian bytes hold (R4). -/
def ofBytes : List Byte → Nat
  | [] => 0
  | b :: t => b.toNat + 256 * ofBytes t

/-- The number that big-endian bytes hold. -/
def ofBytesBE (l : List Byte) : Nat := l.foldl (fun n b => 256 * n + b.toNat) 0

/-- The `n` low bytes of a number, highest first. -/
def bytesBE (n v : Nat) : List Byte := (bytesOf n v).reverse

/-- `n` zero bytes. -/
def zeros (n : Nat) : List Byte := List.replicate n 0

/-- The little-endian field of `n` bytes at offset `o`. -/
def fieldAt (l : List Byte) (o n : Nat) : Nat := ofBytes ((l.drop o).take n)

/-! ### Elements of a lane -/

/-- Bits of a sub-element (R10). -/
def ET.width (t : ET) : Nat := 64 / t.count

/-- Sub-element `j` of width `w` of a lane (R23). -/
def elemOf (w : Nat) (x : Word) (j : Nat) : Nat := (x.toNat >>> (j * w)) % 2 ^ w

/-- The `64 / w` sub-elements of a lane, lowest first (R23). -/
def elemsOf (w : Nat) (x : Word) : List Nat := (List.range (64 / w)).map (elemOf w x)

/-- Elements packed from the lowest upward, each taken modulo 2^w (R23). -/
def packNat (w : Nat) : List Nat → Nat
  | [] => 0
  | e :: t => e % 2 ^ w + 2 ^ w * packNat w t

/-- The lane that given sub-elements form (R23). -/
def packElems (w : Nat) (l : List Nat) : Word := BitVec.ofNat 64 (packNat w l)

/-- `f` applied to every sub-element. -/
def mapElems (w : Nat) (f : Nat → Nat) (x : Word) : Word := packElems w ((elemsOf w x).map f)

/-- `f` applied to corresponding sub-elements of two lanes. -/
def zipElems (w : Nat) (f : Nat → Nat → Nat) (x y : Word) : Word :=
  packElems w (List.zipWith f (elemsOf w x) (elemsOf w y))

/-- `f` applied to corresponding sub-elements of three lanes. -/
def zipElems3 (w : Nat) (f : Nat → Nat → Nat → Nat) (x y z : Word) : Word :=
  packElems w ((List.range (64 / w)).map fun j => f (elemOf w x j) (elemOf w y j) (elemOf w z j))

/-- The value of a sub-element as an integer of its type (R76). -/
def elemInt (t : ET) (n : Nat) : Int := if t.isSigned then toSigned t.width n else n

/-- Lane `l` of a vector register; a lane never written is zero (R35 leaves it open, log 1). -/
def laneOf (v : VReg) (l : Nat) : Word := v.getD l 0

/-- A vector register from a function of the lane. -/
def vregOf (f : Nat → Word) : VReg := (List.range lanes).map f

/-- The register of 32 zero lanes. -/
def zeroVReg : VReg := List.replicate lanes 0

/-- `new` in the lanes of the mask, `old` in the others (R56). -/
def mergeLanes (m : Mask) (new old : VReg) : VReg :=
  vregOf fun l => if m.getLsbD l then laneOf new l else laneOf old l

/-- The lanes of a mask, ascending. -/
def lanesOf (m : Mask) : List Nat := (List.range lanes).filter m.getLsbD

/-- A mask from a predicate on lanes. -/
def maskOf (p : Nat → Bool) : Mask := BitVec.ofNat 32 ((List.range lanes).foldr (fun l n => (p l).toNat + 2 * n) 0)

/-- All lanes. -/
abbrev allLanes : Mask := 0xFFFFFFFF

end Sys2Proof
end

