-- ==== Sys2Proof/Machine/Float.lean ====
section
/-! DEFINITION. The floating formats, their exact values, and rounding to them (03 R80-R90, R100-R102, R108). -/

namespace Sys2Proof

/-- The six floating formats (R80). -/
inductive Fmt where
  | fp32 | fp16 | bf16 | e4m3 | e5m2 | e2m1
deriving DecidableEq, Repr

/-- Bits of an encoding (R80). -/
def Fmt.width : Fmt → Nat
  | .fp32 => 32 | .fp16 => 16 | .bf16 => 16 | .e4m3 => 8 | .e5m2 => 8 | .e2m1 => 4

/-- Mantissa bits (R80). -/
def Fmt.mant : Fmt → Nat
  | .fp32 => 23 | .fp16 => 10 | .bf16 => 7 | .e4m3 => 3 | .e5m2 => 2 | .e2m1 => 1

/-- Exponent bias (R80). -/
def Fmt.bias : Fmt → Nat
  | .fp32 => 127 | .fp16 => 15 | .bf16 => 127 | .e4m3 => 7 | .e5m2 => 15 | .e2m1 => 1

/-- Code of the largest finite magnitude (R80). -/
def Fmt.maxFinite : Fmt → Nat
  | .fp32 => 0x7F7FFFFF | .fp16 => 0x7BFF | .bf16 => 0x7F7F | .e4m3 => 0x7E | .e5m2 => 0x7B | .e2m1 => 0x7

/-- Code of +infinity, where the format has one (R81). -/
def Fmt.infCode : Fmt → Option Nat
  | .fp32 => some 0x7F800000 | .fp16 => some 0x7C00 | .bf16 => some 0x7F80 | .e5m2 => some 0x7C
  | .e4m3 | .e2m1 => none

/-- The canonical NaN; +0 for E2M1, which has none (R83, R85). -/
def Fmt.nan : Fmt → Nat
  | .fp32 => 0x7FC00000 | .fp16 => 0x7E00 | .bf16 => 0x7FC0 | .e4m3 => 0x7F | .e5m2 => 0x7E | .e2m1 => 0

/-- The format of a floating element type. -/
def ET.fmt : ET → Fmt
  | .f16x4 => .fp16 | .bf16x4 => .bf16 | .e4m3x8 => .e4m3 | .e5m2x8 => .e5m2 | .e2m1x16 => .e2m1
  | _ => .fp32

/-- The exponent of the unit of the subnormals: 1 - b - M (R81). -/
def Fmt.emin (f : Fmt) : Int := 1 - (f.bias : Int) - (f.mant : Int)

/-- An exact value: NaN, an infinity, a zero with its sign, or (-1)^neg * num / den * 2^e with num and den positive. -/
inductive FX where
  | nan
  | inf (neg : Bool)
  | zero (neg : Bool)
  | val (neg : Bool) (num den : Nat) (e : Int)
deriving DecidableEq, Repr

/-- Magnitude code of an encoding: all bits but the sign. -/
def Fmt.mag (f : Fmt) (c : Nat) : Nat := c % 2 ^ (f.width - 1)

/-- Sign bit of an encoding. -/
def Fmt.sign (f : Fmt) (c : Nat) : Bool := c.testBit (f.width - 1)

/-- The code with a sign and a magnitude code. -/
def Fmt.code (f : Fmt) (neg : Bool) (mag : Nat) : Nat := if neg then 2 ^ (f.width - 1) + mag else mag

/-- Whether an encoding is a NaN (R81). -/
def Fmt.isNaN (f : Fmt) (c : Nat) : Bool := f.maxFinite < f.mag c && some (f.mag c) != f.infCode

/-- The exact value of an encoding (R81). -/
def Fmt.decode (f : Fmt) (c : Nat) : FX :=
  let m := f.mag c
  if f.isNaN c then .nan
  else if some m = f.infCode then .inf (f.sign c)
  else if m = 0 then .zero (f.sign c)
  else
    let e := m / 2 ^ f.mant
    if e = 0 then .val (f.sign c) m 1 f.emin
    else .val (f.sign c) (2 ^ f.mant + m % 2 ^ f.mant) 1 (f.emin + (e - 1 : Nat))

/-- `n * 2^s / d` as a fraction, for an integer shift. -/
def shiftFrac (n d : Nat) (s : Int) : Nat × Nat :=
  match s with
  | .ofNat k => (n <<< k, d)
  | .negSucc k => (n, d <<< (k + 1))

/-- Floor of the base-2 logarithm of n / d * 2^e. -/
def log2Frac (n d : Nat) (e : Int) : Int :=
  let k : Int := (n.log2 : Int) - (d.log2 : Int)
  let (a, b) := shiftFrac n d (-k)
  if a < b then e + k - 1 else e + k

/-- Whether a magnitude that lies between `lo` (quotient) and `lo + 1` with remainder `rem / den` rounds up (R89, R90).
`r` holds the 16 random bits of stochastic rounding. -/
def roundsUp (rm : RM) (neg : Bool) (lo rem den r : Nat) : Bool :=
  if rem = 0 then false
  else match rm with
    | .rn => den < 2 * rem || (2 * rem == den && lo % 2 == 1)
    | .rz => false
    | .rd => neg
    | .ru => !neg
    | .rs => 2 ^ 16 ≤ (2 ^ 16 * rem) / den + r

/-- The code of an overflowed magnitude (R85). -/
def Fmt.overflow (f : Fmt) (rm : RM) (sat neg : Bool) : Nat :=
  if sat || rm == .rz || (rm == .rd && !neg) || (rm == .ru && neg) then f.code neg f.maxFinite
  else match f with
    | .e4m3 => 0x7F
    | .e2m1 => f.code neg f.maxFinite
    | _ => f.code neg (f.infCode.getD 0)

/-- The code of an infinite source (R85). -/
def Fmt.infinity (f : Fmt) (sat neg : Bool) : Nat :=
  match f with
  | .fp32 | .fp16 | .bf16 => f.code neg (f.infCode.getD 0)
  | .e5m2 => if sat then f.code neg f.maxFinite else f.code neg 0x7C
  | .e4m3 => if sat then f.code neg f.maxFinite else 0x7F
  | .e2m1 => f.code neg f.maxFinite

/-- An exact value rounded once to a format (R82, R85, R89, R90). -/
def Fmt.round (f : Fmt) (rm : RM) (sat : Bool) (r : Nat) (x : FX) : Nat :=
  match x with
  | .nan => f.nan
  | .inf neg => f.infinity sat neg
  | .zero neg => f.code neg 0
  | .val neg n d e =>
    let u : Int := max (log2Frac n d e - f.mant) f.emin
    let (a, b) := shiftFrac n d (e - u)
    let lo := a / b
    let m := if roundsUp rm neg lo (a % b) b r then lo + 1 else lo
    let c := m + (u - f.emin).toNat * 2 ^ f.mant
    if f.maxFinite < c then f.overflow rm sat neg else f.code neg c

/-- An exact value rounded to an integer and clamped to a range; NaN gives 0 (R86). -/
def FX.toInt (rm : RM) (r : Nat) (lo hi : Int) (x : FX) : Int :=
  match x with
  | .nan => 0
  | .inf neg => if neg then lo else hi
  | .zero _ => 0
  | .val neg n d e =>
    let (a, b) := shiftFrac n d e
    let q := a / b
    let m := if roundsUp rm neg q (a % b) b r then q + 1 else q
    clampTo lo hi (if neg then -(m : Int) else m)

/-- The exact value of an integer. -/
def FX.ofInt (i : Int) : FX :=
  match i with
  | .ofNat 0 => .zero false
  | .ofNat (n + 1) => .val false (n + 1) 1 0
  | .negSucc n => .val true (n + 1) 1 0

/-- Whether a value carries the minus sign. -/
def FX.isNeg : FX → Bool
  | .nan => false
  | .inf s => s
  | .zero s => s
  | .val s _ _ _ => s

/-- The value with its sign changed. -/
def FX.neg : FX → FX
  | .nan => .nan
  | .inf s => .inf (!s)
  | .zero s => .zero (!s)
  | .val s n d e => .val (!s) n d e

/-- The value times 2^k. -/
def FX.scale (k : Int) : FX → FX
  | .val s n d e => .val s n d (e + k)
  | x => x

/-- Exact product (R82). -/
def FX.mul (x y : FX) : FX :=
  let s := x.isNeg != y.isNeg
  match x, y with
  | .nan, _ => .nan
  | _, .nan => .nan
  | .inf _, .zero _ => .nan
  | .zero _, .inf _ => .nan
  | .inf _, _ => .inf s
  | _, .inf _ => .inf s
  | .zero _, _ => .zero s
  | _, .zero _ => .zero s
  | .val _ n d e, .val _ n' d' e' => .val s (n * n') (d * d') (e + e')

/-- Exact sum; an exact zero of opposite signs is +0, or −0 rounding down (R82, IEEE 754-2019 6.3). -/
def FX.add (rm : RM) (x y : FX) : FX :=
  match x, y with
  | .nan, _ => .nan
  | _, .nan => .nan
  | .inf s, .inf s' => if s == s' then .inf s else .nan
  | .inf s, _ => .inf s
  | _, .inf s => .inf s
  | .zero s, .zero s' => .zero (if s == s' then s else rm == .rd)
  | .zero _, y => y
  | x, .zero _ => x
  | .val s n d e, .val s' n' d' e' =>
    let lo := min e e'
    let a : Int := (n * d') <<< (e - lo).toNat
    let b : Int := (n' * d) <<< (e' - lo).toNat
    let t := (if s then -a else a) + (if s' then -b else b)
    if t = 0 then .zero (rm == .rd) else .val (t < 0) t.natAbs (d * d') lo

/-- Exact quotient (R82). -/
def FX.div (x y : FX) : FX :=
  let s := x.isNeg != y.isNeg
  match x, y with
  | .nan, _ => .nan
  | _, .nan => .nan
  | .inf _, .inf _ => .nan
  | .inf _, _ => .inf s
  | _, .inf _ => .zero s
  | .zero _, .zero _ => .nan
  | _, .zero _ => .inf s
  | .zero _, _ => .zero s
  | .val _ n d e, .val _ n' d' e' => .val s (n * d') (d * n') (e - e')

/-- The order of a non-NaN encoding among the encodings of its format; the two zeros are equal (R84). -/
def Fmt.key (f : Fmt) (c : Nat) : Int := if f.sign c then -(f.mag c : Int) else f.mag c

/-- As `Fmt.key`, with −0 below +0 (R84). -/
def Fmt.keyZ (f : Fmt) (c : Nat) : Int := if f.sign c then -(f.mag c : Int) - 1 else f.mag c

/-- minimumNumber and maximumNumber (R84). -/
def Fmt.minMax (f : Fmt) (isMax : Bool) (a b : Nat) : Nat :=
  if f.isNaN a then (if f.isNaN b then f.nan else b)
  else if f.isNaN b then a
  else if (f.keyZ a ≤ f.keyZ b) != isMax then a else b

/-- One rounded addition, subtraction, product, fused product and quotient (R82). -/
def Fmt.addC (f : Fmt) (rm : RM) (sat : Bool) (a b : Nat) : Nat := f.round rm sat 0 ((f.decode a).add rm (f.decode b))
def Fmt.subC (f : Fmt) (rm : RM) (sat : Bool) (a b : Nat) : Nat := f.round rm sat 0 ((f.decode a).add rm (f.decode b).neg)
def Fmt.mulC (f : Fmt) (rm : RM) (sat : Bool) (a b : Nat) : Nat := f.round rm sat 0 ((f.decode a).mul (f.decode b))
def Fmt.fmaC (f : Fmt) (rm : RM) (sat : Bool) (a b c : Nat) : Nat :=
  f.round rm sat 0 (((f.decode a).mul (f.decode b)).add rm (f.decode c))
def Fmt.divC (f : Fmt) (rm : RM) (sat : Bool) (a b : Nat) : Nat := f.round rm sat 0 ((f.decode a).div (f.decode b))

/-! ### Scales -/

/-- A value under an E8M0 scale byte, or NaN for the byte 0xFF (R100, R102). -/
def scaleBy (e8m0 : Nat) (up : Bool) (x : FX) : FX :=
  if e8m0 = 0xFF then .nan
  else x.scale (if up then (e8m0 : Int) - 127 else 127 - (e8m0 : Int))

/-- An accumulator under its row and column scales, rounded to FP32 (R108). -/
def scaleAcc (acc : Int) (er ec : Nat) : Nat :=
  if er = 0xFF ∨ ec = 0xFF then Fmt.nan .fp32
  else Fmt.round .fp32 .rn false 0 ((FX.ofInt acc).scale ((er : Int) - 127 + ((ec : Int) - 127)))

end Sys2Proof
end

