-- ==== Sys2Proof/Machine/Flags.lean ====
section
/-! DEFINITION. Conditions, comparisons and the block signature: the IR9's flag computations (04 R120, R125, 05 R151). -/

namespace Sys2Proof

/-- The scalar conditions of BRC, on a 64-bit register (R120). -/
def SCond.holds (c : SCond) (x : Word) : Bool :=
  match c with
  | .eqz => x == 0
  | .nez => x != 0
  | .ltz => x.msb
  | .gez => !x.msb
  | .gtz => !x.msb && x != 0
  | .lez => x.msb || x == 0

/-- The predicate conditions of BRV under EXEC (R120). -/
def PCond.holds (c : PCond) (p exec : Mask) : Bool :=
  match c with
  | .any => p &&& exec != 0
  | .all => p &&& exec == exec
  | .none => p &&& exec == 0
  | .nall => p &&& exec != exec

/-- An integer comparison (R151). -/
def VCond.intHolds (c : VCond) (x y : Int) : Bool :=
  match c with
  | .eq => x == y
  | .ne => x != y
  | .lt => x < y
  | .le => x ≤ y
  | .gt => y < x
  | .ge => y ≤ x
  | .un => false

/-- A floating comparison: with a NaN operand only `ne` and `un` hold, and the zeros are equal (R84, R151). -/
def VCond.floatHolds (c : VCond) (f : Fmt) (x y : Nat) : Bool :=
  if f.isNaN x || f.isNaN y then c == .ne || c == .un else c.intHolds (f.key x) (f.key y)

/-- A comparison of two sub-elements (R151). -/
def VCond.holds (c : VCond) (t : ET) (x y : Nat) : Bool :=
  if t.isFloat then c.floatHolds t.fmt x y else c.intHolds (elemInt t x) (elemInt t y)

/-- One bit step of the reflected CRC-32C register (R125). -/
def crcBit (x : BitVec 32) : BitVec 32 := if x.getLsbD 0 then (x >>> 1) ^^^ 0x82F63B78 else x >>> 1

/-- One byte folded into a signature (R125). -/
def crcByte (x : BitVec 32) (b : Byte) : BitVec 32 :=
  crcBit (crcBit (crcBit (crcBit (crcBit (crcBit (crcBit (crcBit (x ^^^ b.setWidth 32))))))))

/-- The fold of R125. -/
def sigFold (x : BitVec 32) (l : List Byte) : BitVec 32 := l.foldl crcByte x

end Sys2Proof
end

