-- ==== Sys2Proof/Config.lean ====
section
/-! DEFINITION. What the manual leaves open: the free values, as constants with no body (log 1, 9, 10). -/

namespace Sys2Proof.Config

/-- A free value: the content of a register the manual calls undefined (R35, R74, R200).
The argument is a fresh number drawn from the state's counter. -/
opaque freeValue : Nat → Word

/-- The unstated result bits of special function `f` (fn code of major 0x33) on an FP32 operand (R149).
The machine uses it only where it lies within the bound that R149 gives. -/
opaque specialFn (f : Nat) (x : BitVec 32) : BitVec 32

/-- The 132-byte ECDSA P-521 signature by the device identity key over some bytes (R400, R415, R419). -/
opaque deviceSignature : List Byte → List Byte

/-- The SHA-512 digest of the Jalti firmware image (index 1 of R400). -/
opaque jaltiDigest : List Byte

/-- The SHA-512 digest of the command-processor firmware image (index 2 of R400). -/
opaque cpDigest : List Byte

/-- The certificate chain bytes of slot 0 (R413). -/
opaque certificateChain : List Byte

/-- The part of an SPDM response that the manual does not state: request code, session number, serial number (R413). -/
opaque spdmBody (code : Nat) (session : Nat) (serial : Nat) : List Byte

/-- How the 32 bytes of measurement index 3 hold SPARES, injection enable, LOG2, WINDOW, device number and LINK_ROUTE (R400). -/
opaque measureConfig (spares : Nat) (injection : Bool) (log2 : Nat) (window : Word) (dev : Nat) (route : Nat) : List Byte

/-- The device state that firmware writes into section 4 of a fatal dump (R419). -/
opaque dumpFirmwareState : Nat → List Byte

/-- A peer's answer to the first request for a page (R314): the 64 KiB frame of its memory at which its own tables map the page
of an ASID, or none where it refuses.
The first argument counts the peer's shootdowns, after which its tables may differ. -/
opaque peerFrame (table dev asid page : Nat) : Option Nat

/-- Whether a peer's own tables permit an access (0 load, 1 store or atomic, 2 fetch) to a page (R314). -/
opaque peerPermits (table dev asid page kind : Nat) : Bool

/-- The KIND of a link record: R350 lists none (R386, R406, R414, R416, R417). -/
opaque linkRecordKind : BitVec 8

end Sys2Proof.Config
end

