-- ==== Sys2Proof/Machine/State.lean ====
section
/-! DEFINITION. The state of the device: waves, groups, cores, memories, engines, command processor, Jalti, fabric and
links, and the device right after cold reset. -/

namespace Sys2Proof.Machine

/-- Why a step stops with a fault. -/
inductive Fault where
  /-- Raised by a wave instruction executed while no wave is chosen for issue; `step` never does that. Safe. -/
  | noWave
deriving DecidableEq, Repr

/-- Why an instruction has no meaning. -/
inductive Refusal where
  /-- An arm of `exec` that is not modelled yet. Safe. -/
  | notModelled (mnemonic : String)
deriving DecidableEq, Repr

/-! ### Waves -/

/-- Privilege of a wave (R33). -/
inductive Priv where
  | u | s
deriving DecidableEq, Repr, Inhabited

/-- Wave states (R15). -/
inductive WState where
  | ready | parked | blocked | yielded | handler | saved | exited
deriving DecidableEq, Repr, Inhabited

/-- Execution state under the SEC-DED code of R332 besides the S and P registers: EXEC, a special register, a window, a tile's MPC
register, a pod's state, a barrier entry and a tensor slot, as the wave that reads it meets its error. -/
inductive Cell where
  | exec
  | special (n : Nat)
  | window (n : Nat)
  | mpc (n : Nat)
  | pod
  | barrier
  | slot (n : Nat)
deriving DecidableEq, Repr, Inhabited

/-- A register name as the hazard check sees it; `sb n` is S(n) of the S-mode bank, n = 56-63 (R21, R58). -/
inductive Reg where
  | s (n : Nat)
  | sb (n : Nat)
  | v (n : Nat)
  | p (n : Nat)
  /-- a coded state other than a register, as the error list of a wave names it (R332) -/
  | cell (c : Cell)
deriving DecidableEq, Repr, Inhabited

/-- A value for a register. -/
inductive RegVal where
  | s (x : Word)
  | v (x : VReg)
  | p (x : Mask)
deriving DecidableEq, Repr, Inhabited

/-- An outstanding long write: its register, the value it delivers, and how many returns of engine requests with this
tag are still missing (R57). -/
structure LongWrite where
  dst : Reg
  val : RegVal
  need : Nat := 0
  tag : Nat := 0
  /-- what the shadow's register receives, where that differs (R338) -/
  shadow : Option RegVal := none
deriving DecidableEq, Repr, Inhabited

/-- A cause with TMASK and TADDR, as trap entry stores them (R299). -/
structure Trap where
  cause : BitVec 7
  mask : Mask
  addr : VAddr
  /-- bit 63 of TADDR: `addr` is the number of a tile (R333) -/
  tile : Bool := false
deriving DecidableEq, Repr, Inhabited

/-- What a BLOCKED wave waits for (R15). -/
inductive Wait where
  | nothing
  /-- VCLAIM of n granules (R200) -/
  | claim (n : Nat)
  /-- a phase of a barrier entry (R198) -/
  | barrier (entry : Nat) (phase : Nat)
  /-- a block-policy append of the request with this tag (R238) -/
  | emit (tag : Nat)
  /-- a batch number (R220) -/
  | batch (n : Nat)
  /-- a copy ticket: queue and sequence number (R234) -/
  | ticket (queue : Nat) (seq : Nat)
  /-- the answer of the command processor to an S-mode TRAP (R302) -/
  | service (n : Nat)
  /-- the answer of the command processor to a STAGE2_FAULT (R312) -/
  | stage2 (trap : Trap)
deriving DecidableEq, Repr, Inhabited

/-- Why a READY or HANDLER wave is not eligible after an instruction it has issued (R182, R292). -/
inductive Hold where
  | none
  /-- a fence that is not complete: only memory and engine instructions wait -/
  | fence (o : FenceF) (line : Option Nat)
  /-- CLEAN or INVAL: sectors still to be acknowledged -/
  | writeback
  | icinv (scope : Scope)
  | txbegin
  /-- ACORN waiting for its snapshot (R127) -/
  | acorn (id : Nat)
  /-- a commit point waiting for the acorn before it, and one whose acorn has been taken (R341) -/
  | commit
  | commitReady
deriving DecidableEq, Repr, Inhabited

/-- An open transaction (R188, R189). -/
structure Txn where
  target : VAddr
  exec : Mask
  /-- 256-byte lines loaded, by line number, in order of first load -/
  reads : List Nat
  /-- every byte value that a load took from the home -/
  seen : List (Nat × Byte)
  /-- 256-byte lines stored -/
  lines : List Nat
  /-- the buffered bytes -/
  writes : List (Nat × Byte)
deriving DecidableEq, Repr, Inhabited

/-- One aggregated atomic request, for one address (R187); `join` marks a JOINDEC (R241). -/
structure AtomReq where
  wave : Nat
  tag : Nat
  ctx : Nat
  op : AtomOp
  w64 : Bool
  ret : Bool
  scope : Scope
  join : Bool
  /-- virtual and system physical address -/
  va : Nat
  pa : Nat
  /-- lane, data and compare value of every lane of the address, ascending -/
  lanes : List (Nat × Nat × Nat)
  slack : Nat
deriving DecidableEq, Repr, Inhabited

/-- One pip on its way to a pod, or in it: record bytes and depth; `join` is the join address of a continuation pip. -/
structure Pip where
  bytes : List Byte
  depth : Nat
  join : Nat := 0
  /-- place in the order of R291 once it is launchable -/
  order : Nat := 0
  /-- place in the order of appends, the lc of the append, and the lc in which it became launchable (R287) -/
  place : Nat := 0
  born : Nat := 0
  ready : Nat := 0
deriving DecidableEq, Repr, Inhabited

/-- An EMIT or EMITC on its way to its pod (R237, R240). -/
structure EmitReq where
  wave : Nat
  tag : Nat
  graph : Nat
  node : Nat
  pips : List Pip
  mask : Mask
  cont : Bool
  /-- the appending wave is BLOCKED under the block policy (R238) -/
  blocked : Bool := false
  /-- the launch descriptor's seed pips, appended by the command processor (R278) -/
  seed : Bool := false
  /-- committed in a deterministic launch and waiting for room: tried again at epoch ends only (R389) -/
  held : Bool := false
  /-- slack class of its request (R34) -/
  slack : Nat := 0
deriving DecidableEq, Repr, Inhabited

/-- Kinds of copy (R227-R230). -/
inductive CopyKind where
  | plain | plane | window | hash
deriving DecidableEq, Repr, Inhabited

/-- Where a copy stands (R223, R232). -/
inductive CopyStage where
  | queued | running | stopped
deriving DecidableEq, Repr, Inhabited

/-- A copy in a queue: its descriptor's fields and its progress (R224, R225). -/
structure Copy where
  seq : Nat
  kind : CopyKind
  wave : Nat
  group : Nat
  ctx : Nat
  launch : Nat
  srcSp : Bool
  dstSp : Bool
  src : Nat
  dst : Nat
  esize : Nat
  ext : List Nat
  sstride : List Int
  dstride : List Int
  win : Nat
  pad : Nat
  i4 : Bool
  planes : Nat
  slot : Option Nat
  afmt : Nat
  trace : Bool
  slack : Nat
  /-- copies (queue, seq) that a CFENCE puts ahead of this one (R233) -/
  after : List (Nat × Nat)
  stage : CopyStage := .queued
  /-- elements done (R232) -/
  done : Nat := 0
  /-- the issuing wave was in S-mode -/
  smode : Bool := false
  /-- fault met by the next element: cause and virtual address; and whether a wave has trapped for it -/
  fault : Option (BitVec 7 × Nat) := none
  delivered : Bool := false
  /-- source bytes hashed (R230), or elements converted (R228, R229), so far -/
  taken : List Byte := []
  /-- absolute maximum (FP32 code) and NaN flag for the push (R104) -/
  amax : Nat := 0
  nan : Bool := false
  /-- held until the wave's next acorn (R244), or until the epoch end (R389) -/
  heldBack : Bool := false
  /-- its place in the commit order of an epoch end; 0 for a copy that no epoch end started (R389) -/
  turn : Nat := 0
deriving DecidableEq, Repr, Inhabited

/-- An effect of a deterministic wave, held to the epoch end (R389). -/
inductive Effect where
  | store (cls : Nat) (bytes : List (Nat × Byte))
  | sp (bytes : List (Nat × Byte))
  | atomic (r : AtomReq)
  | emit (r : EmitReq)
  | arrive (entry : Nat) (n : Nat)
  | copy (cluster : Nat) (queue : Nat) (seq : Nat)
deriving DecidableEq, Repr, Inhabited

/-- A failing byte of a register's entry: a vector register's byte whose parity fails, with whether its mirror's byte fails too
(R335); of a scalar or predicate register, a wrong bit of its code, with whether a second one makes it uncorrectable (R332). -/
structure RegErr where
  reg : Reg
  mirrorBad : Bool
  /-- byte of a vector register, 8 * lane + byte of the lane -/
  byte : Nat := 0
  /-- bit position of the failing code -/
  bit : Nat := 0
deriving DecidableEq, Repr, Inhabited

/-- A wave (R12-R15, R20-R24, R31, R43, R44). -/
structure Wave where
  state : WState := .ready
  priv : Priv := .u
  pc : VAddr := 0
  exec : Mask := allLanes
  /-- S0-S63; S0 is not read -/
  s : List Word := []
  /-- the S-mode bank S56-S63 -/
  sbank : List Word := []
  /-- V0 to V(VALLOC - 1) -/
  v : List VReg := []
  /-- P0-P7; P0 is not read -/
  p : List Mask := []
  valloc : Nat := 8
  /-- index of the wave's group, and its member index and sub-group there -/
  group : Nat := 0
  waveid : Nat := 0
  sgid : BitVec 2 := 0
  ctx : Nat := 0
  launch : Nat := 0
  /-- logical cluster, core, quarter and slot -/
  clid : Nat := 0
  coreid : Nat := 0
  quarter : Nat := 0
  slot : Nat := 0
  pipbase : BitVec 32 := 0
  /-- depths of the valid pips by lane; none for a flat kernel -/
  pipDepth : List Nat := []
  pipValid : Mask := 0
  sigreg : BitVec 32 := 0
  rngkey : Word := 0
  qidx : BitVec 32 := 0
  /-- U-mode retirements since the last quantum end, and whether a quantum end is due or reached (R388) -/
  quantumCount : Nat := 0
  quantumDue : Bool := false
  quantumEnded : Bool := false
  tcause : BitVec 7 := 0
  tmask : Mask := 0
  taddr : VAddr := 0
  /-- bit 63 of TADDR, which R333 sets beside a tile's number -/
  taddrTile : Bool := false
  tpc : VAddr := 0
  entryMask : Mask := 0
  unmarked : List Reg := []
  pending : List LongWrite := []
  retStack : List VAddr := []
  atomicSet : BitVec 512 := 0
  /-- what the JOINDEC with a tag has deposited at its first join word, for its further ones (R254) -/
  joinSet : Nat × BitVec 512 := (0, 0)
  txn : Option Txn := none
  aborts : Nat := 0
  tokenWanted : Bool := false
  wait : Wait := .nothing
  hold : Hold := .none
  /-- the instruction a BLOCKED wave retires when its wait ends -/
  stalled : Option Instr := none
  /-- a trap or a transaction abort that waits for the returns of R58 -/
  trap : Option Trap := none
  abort : Option (BitVec 4 × BitVec 16) := none
  /-- continuation PC and ticket of a YIELDED wave -/
  yieldPc : VAddr := 0
  yieldTicket : Word := 0
  effects : List Effect := []
  sinceAcorn : Nat := 0
  sincePreempt : Nat := 0
  preempted : Bool := false
  /-- whether a save kept all registers (R319) -/
  savedFull : Bool := false
  /-- the cc from which it issues its first instruction (R278) -/
  startAt : Nat := 0
  lastIssue : Nat := 0
  eligibleSince : Nat := 0
  /-- the cc in which its last fence was complete (R293) -/
  fencedAt : Nat := 0
  regErrs : List RegErr := []
  /-- at IL3, the registers of the shadow that differ from the leader's, with what they hold there (R43, R337, R338) -/
  shadow : List (Reg × RegVal) := []
  /-- FLAGS of the point a SAVED wave stopped at: tiles, windows and S bank live (R74) -/
  savedFlags : BitVec 8 := 7
  /-- the state a SAVED wave resumes in -/
  savedState : WState := .ready
  /-- the epoch of a deterministic launch in which it exited: it counts as a member until that epoch ends (R141) -/
  exitEpoch : Option Nat := none
deriving DecidableEq, Repr, Inhabited

/-! ### Groups -/

/-- A window register (R28). -/
structure Window where
  vbase : VAddr := 0
  pbase : BitVec 40 := 0
  dev : BitVec 2 := 0
  limit : BitVec 36 := 0
  ghusk : BitVec 4 := 0
  valid : Bool := false
  wr : Bool := false
  peer : Bool := false
  asid : BitVec 16 := 0
  /-- the stage-2 leaf denied the page's GHUSK: accesses use husk 0 and count as denials (R308) -/
  denied : Bool := false
deriving DecidableEq, Repr, Inhabited

/-- A group (R16-R19). -/
structure Group where
  live : Bool := true
  detached : Bool := false
  grpid : BitVec 32 := 0
  ctx : Nat := 0
  launch : Nat := 0
  /-- logical clusters it occupies -/
  clusters : List Nat := []
  gang : Nat := 0
  spbase : BitVec 20 := 0
  spsize : BitVec 20 := 0
  windows : List Window := []
  /-- twins (logical cluster, twin) whose tiles it holds -/
  twins : List (Nat × Nat) := []
  nodeid : BitVec 16 := 0
  flat : Bool := true
  graph : Nat := 0
  pipcount : BitVec 11 := 0
  poolBytes : Nat := 0
  ilevel : Nat := 0
  det : Bool := false
  quantum : BitVec 32 := 4096
  prio : Nat := 0
  slackInit : Nat := 0
  dispatchCc : Nat := 0
  /-- entries of the open batch still in queues, batches outstanding with theirs, and the next number (R219) -/
  openBatch : Nat := 0
  batches : List (Nat × Nat) := []
  nextBatch : Nat := 1
  /-- cc for which it has been in claim deadlock, and the waves of its cores with their VALLOC as they then were (R201) -/
  stuck : Nat := 0
  marks : List (Nat × Nat) := []
  pcapa : Nat := 0
  pcapb : Nat := 0
  /-- the cc in which its batches last ceased to be 8 (R293) -/
  roomAt : Nat := 0
  /-- VALLOC at dispatch -/
  regs : Nat := 8
deriving DecidableEq, Repr, Inhabited

/-! ### Contexts -/

/-- A tensor slot (R103). -/
structure Slot where
  fmt : BitVec 2 := 0
  count : Nat := 0
  head : Nat := 0
  nan : Bool := false
  margin : BitVec 4 := 0
  entries : List (BitVec 32) := []
deriving DecidableEq, Repr, Inhabited

/-- A performance counter (R134, R420). -/
structure Perf where
  count : BitVec 48 := 0
  overflow : Bool := false
  cfg : BitVec 16 := 0
  /-- the cc of the last event, and the events counted in it (R133) -/
  stamp : Nat := 0
  fresh : Nat := 0
deriving DecidableEq, Repr, Inhabited

/-- An open barrier (R195, R196). -/
structure Barrier where
  entry : Nat
  gen : Nat
  group : Nat
  per : Nat
  mask : BitVec 4
  phase : Nat := 0
  expected : Nat := 0
  arrived : Nat := 0
  /-- arrivals of each member in this phase, by WAVEID -/
  counts : List (Nat × Nat) := []
  /-- members counted from the next phase -/
  late : List Nat := []
  broken : Bool := false
deriving DecidableEq, Repr, Inhabited

/-- A context (R31, R103, R195, R303, R308, R316). -/
structure Context where
  alive : Bool := true
  fn : Nat := 0
  asid : BitVec 16 := 0
  s1root : Option Nat := none
  s2root : Nat := 0
  /-- physical clusters by logical number (R295) -/
  clusterMap : List Nat := []
  slacktab : List (BitVec 16) := []
  tvec : VAddr := 0
  perf : List Perf := []
  slots : List Slot := []
  barriers : List Barrier := []
  /-- last generation given to each entry of the barrier table -/
  barrierGens : List (Nat × Nat) := []
  /-- last generation given to each index of the pod table (R236) -/
  podGens : List (Nat × Nat) := []
  pool : Option Nat := none
  quota : Nat := 0
  framesUsed : Nat := 0
  huskMap : List Nat := []
  huskDenials : Nat := 0
  lastSeq : Option Nat := none
  switchedOut : Bool := false
  preempting : Bool := false
  /-- the frame pool is to be checked: a launch has ended (R316) -/
  poolDue : Bool := false
  /-- the lc of the last check of the frame pool (R316) -/
  poolAt : Nat := 0
  /-- the 2 GiB block of local memory that its stage 2 maps, if one was free (R324, log 12) -/
  block : Option Nat := none
  /-- the shares that its husks may have, where a quota is set (R361) -/
  shareQuota : Option Nat := none
  /-- launches and GRPIDs that hold or await the admission token of the partition, with their place in its order (R290) -/
  tokens : List ((Nat × Nat) × Nat) := []
  /-- exhaustions since the last SLACK_HARD record, by class (R384) -/
  exhaustions : List (Nat × Nat) := []
  /-- cc of the last SLACK_HARD record, by class -/
  hardStamps : List (Nat × Nat) := []
deriving DecidableEq, Repr, Inhabited

/-! ### Launches, graphs, images -/

/-- A kernel descriptor (R73). -/
structure Kernel where
  entry : Nat
  codeSize : Nat
  regs : Nat
  sregs : Nat
  ilevel : Nat
  scratch : Nat
  record : Nat
  threshold : Nat
  timer : Nat
  prio : Nat
  slack : Nat
  overflow : Nat
  depthLimit : Nat
  det : Bool
  node : Bool
deriving DecidableEq, Repr, Inhabited

/-- A preemption point (R74). -/
structure PreemptPoint where
  addr : VAddr
  plive : BitVec 8
  flags : BitVec 8
  slive : Word
  vlive : BitVec 256
deriving DecidableEq, Repr, Inhabited

/-- A loaded image (R71-R75). -/
structure Image where
  ctx : Nat
  /-- its context has not been destroyed -/
  live : Bool := true
  base : Nat
  kernels : List Kernel
  points : List PreemptPoint
  acorns : List (Nat × Nat × Nat)
deriving DecidableEq, Repr, Inhabited

/-- Launch states (R278). -/
inductive LState where
  | enqueued | waiting | settling | running | finishing | complete | orphans | aborted | rejected | depFailed
deriving DecidableEq, Repr, Inhabited

/-- An edge (R279). -/
structure Edge where
  producer : Option Nat
  regions : List (Nat × Nat)
  hashed : Nat := 0
  /-- the launch that PRODUCER named at enqueue, where it named a known one (R279) -/
  known : Option Nat := none
deriving DecidableEq, Repr, Inhabited

/-- A gang that is a candidate or backs off (R290). -/
structure Gang where
  grpid : Nat
  lfsr : BitVec 16
  attempts : Nat
  backingOff : Bool
  /-- cc left of the back-off -/
  wait : Nat := 0
  token : Bool := false
deriving DecidableEq, Repr, Inhabited

/-- A group formed from pips, waiting for dispatch (R283). -/
structure Formed where
  grpid : Nat
  node : Nat
  pips : List Pip
  order : Nat
  /-- the cc of its formation (R278) -/
  since : Nat := 0
deriving DecidableEq, Repr, Inhabited

/-- The bytes before a copy of a deterministic launch, which other waves' loads return until the epoch end after the
issuing wave's CWAIT or CYIELD on it (R393). -/
structure Veil where
  wave : Nat
  queue : Nat
  seq : Nat
  old : List (Nat × Byte)
  waited : Bool := false
deriving DecidableEq, Repr, Inhabited

/-- A launch (R274-R281). -/
structure Launch where
  ctx : Nat
  fn : Nat
  queue : Nat
  tag : BitVec 32
  seq : Nat
  desc : List Byte
  state : LState := .enqueued
  graph : Option Nat := none
  image : Nat := 0
  kernel : Nat := 0
  ilevel : Nat := 0
  det : Bool := false
  matrix : Bool := false
  oppt : Nat := 7
  prio : Nat := 0
  slackc : Nat := 0
  pcapa : Nat := 0
  pcapb : Nat := 0
  planearg : Nat := 0
  gang : Nat := 0
  quantum : Nat := 4096
  ngroups : Nat := 0
  waves : Nat := 1
  snode : Nat := 0
  /-- seed pips, as read at enqueue -/
  seeds : List (List Byte) := []
  roles : Nat := 0
  rngkey : Word := 0
  tstamp : Nat := 0
  args : List Word := []
  edges : List Edge := []
  status : Nat := 0
  nextGroup : Nat := 0
  formed : List Formed := []
  dispatched : Nat := 0
  orphanCount : Nat := 0
  traced : Bool := false
  tearing : Bool := false
  completed : Bool := false
  gangs : List Gang := []
  /-- slot snapshot and deferred pushes of a deterministic launch (R106): GRPID, WAVEID, ticket, slot, value, NaN -/
  snapshot : List Slot := []
  pushes : List (Nat × Nat × Nat × Nat × Nat × Bool) := []
  /-- writer indices of a deterministic launch: line and GRPID (R392) -/
  writers : List (Nat × Nat) := []
  veils : List Veil := []
  /-- the same of scratchpad bytes, by their keys -/
  spVeils : List Veil := []
  epoch : Nat := 0
  /-- order and cc of enqueue -/
  order : Nat := 0
  since : Nat := 0
  /-- lc for which it has been in pod deadlock, and the pool bytes then in use (R239) -/
  stuck : Nat := 0
  stuckPool : Nat := 0
deriving DecidableEq, Repr, Inhabited

/-- A pod (R282, R283). -/
structure Pod where
  /-- index in the context's pod table (R236) -/
  idx : Nat := 0
  kernel : Nat
  cont : Bool
  ancestors : Word
  roles : Nat
  gen : Nat
  fifo : List Pip := []
  /-- lc left of the timer; none where it is off -/
  timer : Option Nat := none
  /-- pips at the end of the last lc (R283) -/
  last : Nat := 0
  /-- launchable continuation pips, in order (R287) -/
  launchable : List Pip := []
deriving DecidableEq, Repr, Inhabited

/-- A stage graph (R282). -/
structure Graph where
  ctx : Nat
  image : Nat
  live : Bool := true
  poolSize : Nat
  poolUsed : Nat := 0
  pods : List Pod
deriving DecidableEq, Repr, Inhabited

/-! ### Cores -/

/-- A sector in an L1 data cache (R249). -/
structure L1Sector where
  /-- system physical address [41:6] -/
  sec : Nat
  data : List Byte
  dirty : BitVec 64
  /-- whether the bytes outside the mask were filled from the home -/
  filled : Bool
  /-- bytes of a sector that was not filled, valid since a write-back left them clean (R180) -/
  clean : BitVec 64 := 0
  /-- at the protected end of its set's order: evicted only where its set has no other line (R358, hint 3) -/
  prot : Bool := false
  /-- signature epoch of the fill -/
  epoch : Nat
  owner : Nat
deriving DecidableEq, Repr, Inhabited

/-- A combined translation in a TLB (R309). -/
structure TlbEntry where
  asid : BitVec 16
  /-- virtual 64 KiB page number and system physical page number -/
  vpage : Nat
  ppage : Nat
  /-- IPA page -/
  ipage : Nat
  w1 : Bool
  w2 : Bool
  x1 : Bool
  x2 : Bool
  u : Bool
  ghusk : Nat
  allowed : Bool
  peer : Bool
deriving DecidableEq, Repr, Inhabited

/-- A core's memories and queues, by physical core number. -/
structure Core where
  /-- VCLAIMs in order of issue: wave and granules (R200) -/
  claims : List (Nat × Nat) := []
  mirrored : Bool := false
  /-- sectors, most recently used line first -/
  l1 : List L1Sector := []
  /-- 64-byte code blocks: block number and bytes, most recently used first (R138) -/
  icache : List (Nat × List Byte) := []
  tlb : List TlbEntry := []
  /-- the core takes no new wave of another group (R290): launch and GRPID of the token holder -/
  reserved : Option (Nat × Nat) := none
deriving DecidableEq, Repr, Inhabited

/-! ### Memories and homes -/

/-- A signature entry (R256). -/
structure SigEntry where
  line : Nat
  even : BitVec 512
  odd : BitVec 512
deriving DecidableEq, Repr, Inhabited

/-- The signature entries of a bank, most recently deposited first, with its overflow entry (R256). -/
structure SigBank where
  bank : Nat
  entries : List SigEntry := []
  ovEven : BitVec 512 := 0
  ovOdd : BitVec 512 := 0
deriving DecidableEq, Repr, Inhabited

/-- A sector of the remote data cache (R371). -/
structure RdcSector where
  sec : Nat
  data : List Byte
  dirty : BitVec 64
  epoch : Nat
  /-- cores that read it, for the scope-4 acquire (R182) -/
  readers : List Nat := []
  /-- cores whose dirty bytes it holds, for the scope-4 release (R182) -/
  writers : List Nat := []
  /-- whether the bytes outside the mask were filled from the owning device -/
  filled : Bool := true
  /-- owner tag (R325) -/
  owner : Nat := 0
deriving DecidableEq, Repr, Inhabited

/-- State that belongs to no single context, in which an error is uncontained (R354); stage-2 tables stand in memory. -/
inductive DeviceErr where
  | huskMap | cpMemory | podHeader | packetHeader | lockstep
deriving DecidableEq, Repr, Inhabited

/-- Storage: homes, scratchpads, host memory, signatures, errors (R246, R256, R330, R332, R371). -/
structure Mem where
  /-- home bytes by system physical address; an unlisted byte reads 0 -/
  home : List (Nat × Byte) := []
  /-- scratchpad bytes by (4 * physical cluster + core) * 2^20 + offset -/
  sp : List (Nat × Byte) := []
  /-- host memory by bus address -/
  host : List (Nat × Byte) := []
  sigs : List SigBank := []
  /-- signature epoch (R257) -/
  epoch : Nat := 0
  rdc : List RdcSector := []
  /-- priority tokens (R192): slice, and the waves that hold or await its token, in order of request -/
  tokens : List (Nat × List Nat) := []
  /-- wrong symbols of a memory sector: symbol number and error value (R330) -/
  symErrs : List (Nat × List (Nat × BitVec 8)) := []
  /-- sectors that read as poison (R325) -/
  poison : List Nat := []
  /-- wrong bits of an 8-byte scratchpad word, by word address (R332) -/
  spErrs : List (Nat × List Nat) := []
  /-- wrong bits of an 8-byte word of an L1 sector: core, 8 * sector + word, bits (R332) -/
  l1Errs : List (Nat × Nat × List Nat) := []
  /-- code blocks of instruction caches with a wrong parity: core and block (R332) -/
  icErrs : List (Nat × Nat) := []
  /-- wrong bits of L2 lines: line and bits (R332) -/
  l2Errs : List (Nat × List Nat) := []
  /-- wrong bits of accumulators: twin, tile, index, bits (R332) -/
  accErrs : List (Nat × Nat × Nat × List Nat) := []
  /-- uncorrectable errors in state that belongs to no single context (R354) -/
  deviceErrs : List DeviceErr := []
deriving DecidableEq, Repr, Inhabited

/-! ### Matrix engines -/

/-- A matrix queue entry (R208). -/
inductive MatOp where
  | mma (tile : Nat) (offA offB ks pa pb : Nat) (acc : Bool) (leader : Nat)
  | zero (tile : Nat)
  | read (tile row : Nat) (scales : VReg) (rowbyte : Nat) (fp32 : Bool) (wave tag : Nat)
  | write (tile row : Nat) (data : List VReg)
deriving DecidableEq, Repr, Inhabited

/-- An entry with its group and batch number; `batch = 0` for an MRD. -/
structure MatEntry where
  op : MatOp
  group : Nat
  batch : Nat
  wave : Nat
  started : Bool := false
  /-- the operation was stopped and resumes at KSTEP (R213, R214) -/
  resume : Bool := false
  /-- address of its instruction, for a record (R432) -/
  pc : VAddr := 0
  /-- on a checked pair, what the shadow's registers made of it, where that differs (R244) -/
  shadowOp : Option MatOp := none
deriving DecidableEq, Repr, Inhabited

/-- A tile's description (R26). -/
structure Mpc where
  kstep : BitVec 10 := 0
  busy : Bool := false
  ovf : Bool := false
deriving DecidableEq, Repr, Inhabited

/-- A twin: its queue, tiles and MPC registers (R25, R26, R208). -/
structure Twin where
  queue : List MatEntry := []
  /-- accumulators of A0-A3, row by row; a missing one is 0 -/
  tiles : List (List (BitVec 32)) := []
  mpc : List Mpc := []
  /-- group that owns the tiles -/
  owner : Option Nat := none
  /-- a suspended operation and the scratchpad address of its failing byte, delivered or not (R214) -/
  suspended : Option (Nat × Bool) := none
  /-- the head was stopped for a preemption (R213) -/
  stopped : Bool := false
  /-- the cc in which its queue last ceased to be full (R293) -/
  roomAt : Nat := 0
deriving DecidableEq, Repr, Inhabited

/-- A queue of a copy engine (R223). -/
structure CopyQueue where
  next : Nat := 0
  entries : List Copy := []
  /-- copies that the last CFENCE puts ahead of later copies of this queue -/
  joins : List (Nat × Nat) := []
  /-- the cc in which it last ceased to be full (R293) -/
  roomAt : Nat := 0
deriving DecidableEq, Repr, Inhabited

/-- The state of a group saved with its last wave (R319): twins by logical cluster and twin, and the scratchpad bytes of its
window by logical cluster, core and offset. -/
structure GroupSave where
  group : Nat
  twins : List (Nat × Nat × Twin)
  bytes : List (Nat × Nat × Nat × Byte)
  /-- its bytes in shadow storage, and whether they spilled to the context's save region instead (R321) -/
  size : Nat := 0
  spilled : Bool := false
deriving DecidableEq, Repr, Inhabited

/-! ### Host interface and command processor -/

/-- A queue pair (R407). -/
structure Queue where
  sqBase : BitVec 64 := 0
  log2n : BitVec 4 := 6
  ctx : Nat := 0
  bound : Bool := false
  enable : Bool := false
  err : Bool := false
  ien : Bool := false
  vec : BitVec 5 := 0
  sqTail : BitVec 32 := 0
  sqHead : BitVec 32 := 0
  cqBase : BitVec 64 := 0
  cqHead : BitVec 32 := 0
  cqTail : BitVec 32 := 0
deriving DecidableEq, Repr, Inhabited

/-- A function's own registers: queues, and APBASE and APCTX (R405, R407). -/
structure Func where
  queues : List Queue := []
  apbase : BitVec 64 := 0
  apctx : BitVec 8 := 0
  apen : Bool := false
  /-- VF assignment: physical pairs, and the slice in microseconds when time-sliced (R322) -/
  pairs : List Nat := []
  slice : Nat := 0
  /-- the lc at which the slice in progress began -/
  since : Nat := 0
deriving DecidableEq, Repr, Inhabited

/-- The command processor and the identity block (R405, R415, R419). -/
structure Cp where
  funcs : List Func := []
  stepping : BitVec 8 := 0
  stage : Nat := 0
  errcode : Nat := 0
  ready : Bool := false
  dumpValid : Bool := false
  dumpPartial : Bool := false
  dumpSeq : BitVec 32 := 0
  dumpBase : BitVec 40 := 0
  /-- bytes of the fatal dump, section by section -/
  dump : List Byte := []
  /-- MSI-X messages sent: function and vector, newest first -/
  msix : List (Nat × Nat) := []
  nextAsid : Nat := 1
  /-- next never used 64 KiB frame, and scrubbed frames (R324) -/
  nextFrame : Nat := 0
  freeFrames : List Nat := []
  /-- frames of each context's pool and pages, as it must scrub them -/
  owned : List (Nat × Nat) := []
  /-- device husk by 64 KiB frame, husk 0 where a frame is not listed (R366) -/
  frameHusk : List (Nat × Nat) := []
  fatal : Bool := false
  changes : List QuiesceChange := []
  spares : Nat := 0
  injection : Bool := false
  /-- replies of BAR 2 and register reads, newest first -/
  hostReplies : List (Option (List Byte)) := []
  /-- the world switch in progress: contexts out and in (R323) -/
  switching : Option (Nat × Nat) := none
deriving DecidableEq, Repr, Inhabited

/-! ### Jalti and checked pairs -/

/-- Modes of a cluster pair (R329). -/
inductive PairMode where
  | independent | checked | offline
deriving DecidableEq, Repr, Inhabited

/-- A check-buffer entry (R339). -/
structure CheckEntry where
  wave : Nat
  pc : VAddr
  core : Nat
  ctx : Nat
  va : Nat
  pa : Nat
  /-- the bytes to release to the leader's L1; none for a store of a transaction -/
  bytes : List (Nat × Byte)
  size : Nat
  mask : Mask
  perWave : Bool
  hint : BitVec 2
  compared : Bool := false
  /-- slack class of the store (R34), and whether it is one 128-byte event at the home (R261) -/
  cls : Nat := 0
  event : Bool := false
deriving DecidableEq, Repr, Inhabited

/-- The armed injection of a pair (R357). -/
structure Inject where
  cluster : Nat
  n : Nat
  lane : Nat
  bit : Nat
  counting : Bool := false
deriving DecidableEq, Repr, Inhabited

/-- The snapshot of an acorn (R342). -/
structure Snapshot where
  waves : List (Nat × Wave)
  groups : List (Nat × Group)
  barriers : List (Nat × List Barrier)
  twins : List (Nat × Twin)
  claims : List (Nat × List (Nat × Nat))
  /-- generations of the barrier tables, by context -/
  gens : List (Nat × List (Nat × Nat)) := []
  /-- copy queues of the leader cluster -/
  queues : List (Nat × CopyQueue) := []
  /-- 64-byte scratchpad blocks held, with their old bytes -/
  blocks : List (Nat × List Byte)
deriving DecidableEq, Repr, Inhabited

/-- A cluster pair: mode, counts, check buffer and acorn store (R329, R339-R345). -/
structure Pair where
  mode : PairMode := .independent
  mismatches : Nat := 0
  rollbacks : Nat := 0
  offlines : Nat := 0
  buffer : List CheckEntry := []
  snapshot : Option Snapshot := none
  acornId : Nat := 0xFFFF
  retry : Nat := 0
  /-- an acorn is wanted, for a reason of R397, 0 for ACORN: no wave of the pair issues until it is taken -/
  wanted : Option Nat := none
  frozen : Bool := false
  /-- the cc in which the check buffer last ceased to be full (R293) -/
  roomAt : Nat := 0
  inject : Option Inject := none
  /-- wrong bits of words of the check buffer, and of the acorn store (R332) -/
  bufferErrs : List (List Nat) := []
  acornErrs : List (List Nat) := []
deriving DecidableEq, Repr, Inhabited

/-- Jalti (R329, R356, R357, R422). -/
structure Jalti where
  pairs : List Pair := []
  wdogPeriod : Nat := 0
  wdogMissed : Nat := 0
  /-- mailbox words 0-7 of the command and of the response area -/
  command : List Word := []
  response : List Word := []
  cap : Nat := 4
  tcapped : Bool := false
  pcapped : Bool := false
  /-- whether temperature, and power, last lowered CAP and have not yet permitted a rise (R422) -/
  tHolds : Bool := false
  pHolds : Bool := false
  tlim : Nat := 110
  plim : Nat := 420
  tj : Int := 25
  /-- operating points of the four voltage domains -/
  points : List Nat := []
deriving DecidableEq, Repr, Inhabited

/-! ### Records -/

/-- The reliability ring (R351, R352). -/
structure Rel where
  base : BitVec 40 := 0
  size : BitVec 17 := 0
  head : BitVec 32 := 0
  tail : BitVec 32 := 0
  enable : Bool := false
  ovf : Bool := false
  irq : Bool := false
  dropped : Nat := 0
  rseq : Nat := 1
  pendingLost : Nat := 0
deriving DecidableEq, Repr, Inhabited

/-- The trace ring (R396, R399). -/
structure Trace where
  base : BitVec 40 := 0
  log2 : Nat := 30
  head : Nat := 0
  window : BitVec 64 := 0
  frozen : Bool := false
  short : Bool := false
  lostent : Nat := 0
  tseq : Nat := 0
  chain : List Byte := []
  newest : Nat := 0
  /-- units and TSTAMP of the LAUNCH entries still in the ring -/
  stamps : List (Nat × Nat) := []
deriving DecidableEq, Repr, Inhabited

/-! ### Fabric, L2 and controllers -/

/-- Owner of an L2 share (R359). -/
inductive Share where
  | husk (h : Nat)
  | spare
  | retired
deriving DecidableEq, Repr, Inhabited

/-- A defined husk (R361). -/
structure Husk where
  num : Nat
  ctx : Nat
  banks : List Nat
  shares : Nat
  fill : Nat
  policy : Nat
  cls : Nat
  gen : Nat
  /-- banks of the old map while a resize sweeps (R368) -/
  oldBanks : Option (List Nat) := none
deriving DecidableEq, Repr, Inhabited

/-- A line in an L2 bank (R359, R364). -/
structure L2Line where
  bank : Nat
  husk : Nat
  line : Nat
  share : Nat
  dirty : Bool
  owner : Nat
  /-- the 64-byte sectors that it holds, of its four (R364) -/
  secs : List Nat := []
deriving DecidableEq, Repr, Inhabited

/-- A request packet (R378). -/
structure Packet where
  slack : Nat
  frac : Nat
  hard : Bool
  cls : Nat
  owner : Nat
  /-- system physical sector, husk, and kind: write, or transfer to memory -/
  sec : Nat
  husk : Nat
  write : Bool
  arrived : Nat
  /-- stop of the asking cluster, 64-byte transfers, and whether a wave in U-mode asked -/
  src : Nat := 0
  sectors : Nat := 1
  umode : Bool := false
  /-- its exhaustion has been counted (R384) -/
  counted : Bool := false
  /-- an atomic or a commit, which allocates in a streaming husk too (R365) -/
  alloc : Bool := false
  /-- stop of a request for scratchpad or a pod, which goes to no bank (R177, R237) -/
  dest : Option Nat := none
  /-- bank whose miss it serves (R359) -/
  bank : Option Nat := none
deriving DecidableEq, Repr, Inhabited

/-- A queue of packets at a place of the fabric (R360, R373, R377). -/
structure PQueue where
  /-- kind: 0 router input of the request network, 1 bank, 2 controller, 3 injection of requests, 4 router input of the reply
  network, 5 injection of replies, 6 what banks send to a controller or a link's port; number of the stop, bank, controller or, from
  16 up, port; and its input -/
  kind : Nat
  num : Nat
  input : Nat
  packets : List Packet
  /-- the cc of its last grant or exhaustion (R380) -/
  stamp : Option Nat := none
deriving DecidableEq, Repr, Inhabited

/-- A controller's hotness sketch (R374-R376): nonzero counters by row * 1024 + column. -/
structure Sketch where
  en : Bool := false
  filter : Bool := false
  ctx : BitVec 8 := 0
  count : BitVec 48 := 0
  counters : List (Nat × Nat) := []
  /-- 32 entries: page, estimate -/
  top : List (Option (Nat × Nat)) := []
deriving DecidableEq, Repr, Inhabited

/-- A message to a peer: a shootdown, which the peer has acknowledged when the shootdown here is complete (R315), or the notice of
a fatal error (R355). -/
inductive PeerMsg where
  | shootdown (dev : Nat) (asid : BitVec 16) (va : Nat) (len : Nat)
  | fatal (dev : Nat)
deriving DecidableEq, Repr, Inhabited

/-- A peer port (R416). -/
structure Port where
  state : BitVec 2 := 0
  width : BitVec 4 := 0
  peer : BitVec 2 := 0
  retrains : BitVec 16 := 0
deriving DecidableEq, Repr, Inhabited

/-- Memories and fabric as R359-R387 describe them. -/
structure Fabric where
  /-- owners of the 16 shares of each bank that are not husk 0's: (bank, share) -/
  shareMap : List ((Nat × Nat) × Share) := []
  husks : List Husk := []
  l2 : List L2Line := []
  /-- cc of the corrected errors of each share, newest first (R369) -/
  shareErrs : List ((Nat × Nat) × List Nat) := []
  queues : List PQueue := []
  sketches : List Sketch := []
  ports : List Port := []
  dev : BitVec 2 := 0
  /-- PORTS0-PORTS3 -/
  routes : List (BitVec 3) := []
  /-- devices that are not answered (R417) -/
  deadPeers : List (BitVec 2) := []
  /-- shootdowns that peers have asked for: their tables may have changed at each (R315) -/
  peerEpoch : Nat := 0
  /-- ASID to local context, for peer requests (R314) -/
  peerTable : List (Nat × Nat) := []
  /-- answers to peers, newest first: the page's home address and the bytes, or none for PEER_FAULT (R314) -/
  peerReplies : List (Option (Nat × List Byte)) := []
  /-- what this device has told its peers, newest first (R315, R355) -/
  toPeers : List PeerMsg := []
  /-- check-bit lines that each controller's cache holds, by the 1 KiB of data they cover, most recent first; and wrong bits of
  their 8-byte words: line, word, bits (R331) -/
  checkLines : List (Nat × List Nat) := []
  checkErrs : List (Nat × Nat × List Nat) := []
deriving DecidableEq, Repr, Inhabited

/-! ### Security -/

/-- An SPDM session (R413). -/
structure Session where
  id : Nat
  established : Bool
deriving DecidableEq, Repr, Inhabited

/-- An IDE stream (R414). -/
structure Stream where
  num : Nat
  keys : List Nat
  enabled : Bool
  insecure : Bool
deriving DecidableEq, Repr, Inhabited

/-- SPDM responder, IDE and DOE (R413, R414). -/
structure Secure where
  /-- connection phase: 0 none, 1 version, 2 capabilities, 3 algorithms -/
  phase : Nat := 0
  sessions : List Session := []
  nextSession : Nat := 1
  streams : List Stream := []
  /-- responses, newest first -/
  responses : List (List Byte) := []
  transcript : List Byte := []
  serial : Nat := 0
deriving DecidableEq, Repr, Inhabited

/-! ### The device -/

/-- The whole device, with the model's own fields at the end (log 1, 5, 6). -/
structure State where
  waves : List Wave := []
  groups : List Group := []
  ctxs : List Context := []
  launches : List Launch := []
  graphs : List Graph := []
  images : List Image := []
  cores : List Core := []
  /-- twins by 2 * physical cluster + twin -/
  twins : List Twin := []
  /-- queues of the copy engines by 4 * physical cluster + queue -/
  copies : List CopyQueue := []
  /-- groups saved at a preemption (R319) -/
  saves : List GroupSave := []
  mem : Mem := {}
  atomics : List AtomReq := []
  emits : List EmitReq := []
  /-- join words that a JOINDEC has brought to 0: context and virtual address (R240) -/
  joined : List (Nat × Nat) := []
  cp : Cp := {}
  jalti : Jalti := {}
  rel : Rel := {}
  trace : Trace := {}
  fab : Fabric := {}
  sec : Secure := {}
  /-- cc since reset (R6) -/
  cc : Nat := 0
  /-- lc since reset, the part of the next one that has passed in MHz over the clock of the cc, and whether the launchers are
  still to act for the lc that has ended (R273, R283) -/
  lc : Nat := 0
  lcPart : Nat := 0
  lcEnd : Bool := false
  /-- the lc of the next advance of the signature epoch (R257) -/
  epochAt : Nat := 524288
  /-- next request tag -/
  tag : Nat := 1
  /-- order counter of enqueues and formations (R291) -/
  order : Nat := 0
  /-- the model's own: steps still to happen that come from outside or from a timer -/
  agenda : List Instr := []
  /-- the model's own: the wave whose instruction `exec` runs -/
  cur : Option Nat := none
  /-- the model's own: 0 for the engines' turn of a cc, q + 1 for issue quarters q and above -/
  turn : Nat := 0
  /-- the model's own: index of the next free value (log 1) -/
  free : Nat := 0
deriving DecidableEq, Repr, Inhabited

/-! ### Reset -/

/-- The SLACKTAB values of a new context: INIT per class, HARD 0 (R34). -/
def slackDefaults : List (BitVec 16) := [1023, 512, 256, 128, 64, 32, 16, 8]

/-- A queue's registers at reset (R407). -/
def Queue.reset : Queue := {}

/-- A function's registers at reset (R405, R407). -/
def Func.reset : Func := { queues := List.replicate 8 Queue.reset }

/-- An empty twin (R25, R26). -/
def Twin.reset : Twin := { tiles := List.replicate 4 [], mpc := List.replicate 4 {} }

/-- The device right after cold reset and before boot stage 1 completes (R405, R407, R415, R418).
Nothing is resident; the registers hold the Reset column of their maps, and what the spec gives no value for the value
that log 2, 3 or 12 names. -/
def State.reset : State :=
  { cores := List.replicate 192 {}
    twins := List.replicate 96 Twin.reset
    copies := List.replicate 192 {}
    cp := { funcs := List.replicate 16 Func.reset }
    jalti := { pairs := List.replicate 24 {}, command := List.replicate 8 0, response := List.replicate 8 0
               points := List.replicate 4 3 }
    trace := { chain := zeros 64 }
    fab := { sketches := List.replicate 16 { top := List.replicate 32 none }, ports := List.replicate 3 {}
             routes := List.replicate 4 0 } }

end Sys2Proof.Machine
end

