-- ==== Sys2Proof/Machine/Codes.lean ====
section
/-! DEFINITION. The Reed-Solomon code of a memory sector (11 R330). -/

namespace Sys2Proof.Machine

/-- Multiplication by α = x in GF(2^8) with the polynomial x^8 + x^4 + x^3 + x^2 + 1 (R330). -/
def gfX (a : BitVec 8) : BitVec 8 := if a.getLsbD 7 then (a <<< 1) ^^^ 0x1D else a <<< 1

/-- Product in GF(2^8), by the bits of the second factor from bit 7 down. -/
def gfMul (a b : BitVec 8) : BitVec 8 :=
  [7, 6, 5, 4, 3, 2, 1, 0].foldl (fun r i => gfX r ^^^ (if b.getLsbD i then a else 0)) 0

/-- α to a power. -/
def gfPow : Nat → BitVec 8
  | 0 => 1
  | n + 1 => gfX (gfPow n)

/-- The `n`-th power of an element. -/
def gfExp (a : BitVec 8) : Nat → BitVec 8
  | 0 => 1
  | n + 1 => gfMul a (gfExp a n)

/-- Inverse in GF(2^8); 0 for 0. -/
def gfInv (a : BitVec 8) : BitVec 8 := gfExp a 254

/-- The syndromes of an error pattern: its values at the roots α^0 to α^3 (R330). -/
def syndromes (l : List (Nat × BitVec 8)) : List (BitVec 8) :=
  (List.range 4).map fun r => l.foldl (fun x e => x ^^^ gfMul e.2 (gfExp (gfPow r) e.1)) 0

/-- The pattern of one wrong symbol with given syndromes at a position, if there is one. -/
def onePattern (syn : List (BitVec 8)) (i : Nat) : Option (List (Nat × BitVec 8)) :=
  let p := [(i, syn.getD 0 0)]
  if syn.getD 0 0 != 0 && syndromes p == syn then some p else none

/-- The pattern of two wrong symbols with given syndromes at two positions, if there is one. -/
def twoPattern (syn : List (BitVec 8)) (i k : Nat) : Option (List (Nat × BitVec 8)) :=
  let a := gfPow i
  let b := gfPow k
  let e2 := gfMul (syn.getD 1 0 ^^^ gfMul a (syn.getD 0 0)) (gfInv (a ^^^ b))
  let e1 := syn.getD 0 0 ^^^ e2
  let p := [(i, e1), (k, e2)]
  if e1 != 0 && e2 != 0 && syndromes p == syn then some p else none

/-- What the decoder does with an error pattern (R330). -/
inductive RsResult where
  /-- the syndromes are zero: nothing is detected -/
  | unseen
  /-- the decoder takes this pattern off the word -/
  | corrects (p : List (Nat × BitVec 8))
  | uncorrectable
deriving DecidableEq, Repr

/-- The decoder of RS(68,64): the pattern of at most two symbols with the syndromes of the errors (R330). -/
def rsDecode (errs : List (Nat × BitVec 8)) : RsResult :=
  let syn := syndromes errs
  if syn.all (· == 0) then .unseen
  else
    match (List.range 68).findSome? (onePattern syn) with
    | some p => .corrects p
    | none =>
      match (List.range 68).findSome? (fun i => (List.range i).findSome? fun k => twoPattern syn k i) with
      | some p => .corrects p
      | none => .uncorrectable

/-- The errors that stay in a word after the decoder's correction, as values by data symbol. -/
def residual (errs p : List (Nat × BitVec 8)) : List (Nat × BitVec 8) :=
  let at_ (l : List (Nat × BitVec 8)) (i : Nat) : BitVec 8 := l.foldl (fun x e => if e.1 = i then x ^^^ e.2 else x) 0
  ((List.range 64).map fun i => (i, at_ errs i ^^^ at_ p i)).filter fun e => e.2 != 0

end Sys2Proof.Machine
end

