-- ==== Sys2Proof/Machine/Memory.lean ====
section
/-! DEFINITION. Byte stores in canonical form, and the homes, scratchpads and host memory as such stores
(08 R246, R247, 01 R38; log 2). -/

namespace Sys2Proof.Machine

/-- A byte store: cells in ascending address order, none of them zero (log 2: an unlisted byte reads 0). -/
abbrev Memory := List Host.Cell

/-- The byte at an address. -/
def Memory.read : Memory → Nat → Byte
  | [], _ => 0
  | (k, b) :: t, a => if k = a then b else if a < k then 0 else Memory.read t a

/-- The cell of a byte, if it is listed at all. -/
def Memory.cell (a : Nat) (b : Byte) (t : Memory) : Memory := if b = 0 then t else (a, b) :: t

/-- The store with one byte written; the canonical form is kept. -/
def Memory.write : Memory → Nat → Byte → Memory
  | [], a, b => Memory.cell a b []
  | (k, x) :: t, a, b =>
    if k = a then Memory.cell a b t
    else if a < k then Memory.cell a b ((k, x) :: t)
    else (k, x) :: Memory.write t a b

/-- Every address is at least `lo`, addresses rise strictly and no cell is zero. -/
def Memory.wfFrom : Nat → Memory → Bool
  | _, [] => true
  | lo, (k, b) :: t => decide (lo ≤ k) && b != 0 && Memory.wfFrom (k + 1) t

/-- The canonical form. -/
def Memory.wf (m : Memory) : Bool := Memory.wfFrom 0 m

/-- `n` bytes from an address upward. -/
def Memory.readN (m : Memory) (a n : Nat) : List Byte := (List.range n).map fun i => m.read (a + i)

/-- Bytes written from an address upward. -/
def Memory.writeN (m : Memory) (a : Nat) : List Byte → Memory
  | [] => m
  | b :: t => Memory.writeN (m.write a b) (a + 1) t

/-- Separate bytes written in order. -/
def Memory.writeAll (m : Memory) (l : List (Nat × Byte)) : Memory := l.foldl (fun m e => m.write e.1 e.2) m

/-- The little-endian number of `n` bytes at an address (R4). -/
def Memory.num (m : Memory) (a n : Nat) : Nat := ofBytes (m.readN a n)

/-! ### System physical addresses -/

/-- The 64-byte sector number and the 256-byte line number of an address. -/
def sectorOf (a : Nat) : Nat := a / 64
def lineOf (a : Nat) : Nat := a / 256

/-- Device number of a system physical address (R303: bits [41:40]). -/
def devOf (pa : Nat) : Nat := bits pa 41 40

/-- System physical address of a local address on this device. -/
def State.localPa (s : State) (a : Nat) : Nat := s.fab.dev.toNat * 2 ^ 40 + a % 2 ^ 40

/-- Whether an address is homed at a peer. -/
def State.isPeer (s : State) (pa : Nat) : Bool := devOf pa != s.fab.dev.toNat

/-- The scratchpad key of an address of R38 with a physical cluster: core [21:20], offset [19:0]. -/
def spKey (phys core off : Nat) : Nat := (4 * phys + core) * 2 ^ 20 + off

/-- The wrong bits of the 8-byte words of a sector in the L2, word by word (R332). -/
def State.l2Words (s : State) (sec : Nat) : List (List Nat) :=
  let l := lookupD [] s.mem.l2Errs (sec / 4)
  (List.range 8).map fun w => l.filter fun b => b / 64 == 8 * (sec % 4) + w

/-- A dirty L2 line whose word fails in two bits or more: uncorrectable (R332). -/
def State.l2Bad (s : State) (sec : Nat) : Bool :=
  !s.mem.l2Errs.isEmpty && (s.fab.l2.any fun x => x.line == sec / 4 && x.dirty) && (s.l2Words sec).any fun w => 2 ≤ w.length

/-- A sector of LPDDR6 holds poison (R325), or an error pattern that its code reports uncorrectable (R330). -/
def State.dramBad (s : State) (sec : Nat) : Bool :=
  s.mem.poison.contains sec ||
    match lookupD [] s.mem.symErrs sec with
    | [] => false
    | l => rsDecode l == .uncorrectable

/-- The bytes of a sector that its home cannot give: all of them, or those of the failing words of a dirty L2 line (R333). -/
def State.badBytes (s : State) (sec : Nat) : BitVec 64 :=
  if s.dramBad sec then BitVec.allOnes 64
  else if s.l2Bad sec then
    BitVec.ofBoolListLE ((s.l2Words sec).flatMap fun w => List.replicate 8 (decide (2 ≤ w.length))) |>.setWidth 64
  else 0

/-- A byte that its home cannot give (R333). -/
def State.byteBad (s : State) (pa : Nat) : Bool := (s.badBytes (sectorOf pa)).getLsbD (pa % 64)

/-- A sector holds poison (R325), or an error pattern that its code reports uncorrectable (R330, R332). -/
def State.sectorBad (s : State) (sec : Nat) : Bool :=
  s.mem.poison.contains sec || s.l2Bad sec ||
    match lookupD [] s.mem.symErrs sec with
    | [] => false
    | l => rsDecode l == .uncorrectable

/-- Bytes written at the home, with the writes' sectors free of the errors they cover (R330, R333: a sector written whole
reads good again). -/
def Mem.writeHome (m : Mem) (l : List (Nat × Byte)) : Mem :=
  let whole := (l.map (fun e => sectorOf e.1)).eraseDups.filter fun sec =>
    ((l.map Prod.fst).eraseDups.countP fun a => sectorOf a == sec) == 64
  { m with
    home := Memory.writeAll m.home l
    poison := m.poison.filter fun sec => !whole.contains sec
    symErrs := m.symErrs.filter fun e => !whole.contains e.1 }

/-- Bytes written at their homes. -/
def State.writeHome (s : State) (l : List (Nat × Byte)) : State := { s with mem := s.mem.writeHome l }

/-- Consecutive bytes written at their home. -/
def State.writeHomeN (s : State) (a : Nat) (l : List Byte) : State := s.writeHome ((List.range l.length).zip l |>.map fun e => (a + e.1, e.2))

/-- Bytes read at their home. -/
def State.readHomeN (s : State) (a n : Nat) : List Byte := Memory.readN s.mem.home a n

/-- Scratchpad bytes by key. -/
def State.readSp (s : State) (key : Nat) : Byte := Memory.read s.mem.sp key

/-- Scratchpad bytes written; a word that is written whole is free of its errors (R332). -/
def State.writeSp (s : State) (l : List (Nat × Byte)) : State :=
  { s with mem := { s.mem with sp := Memory.writeAll s.mem.sp l
                               spErrs := s.mem.spErrs.filter fun e => !((List.range 8).all fun j => l.any fun b => b.1 == 8 * e.1 + j) } }

/-- Scratchpad bytes written on a cluster, and on a checked pair at the same places of the shadow cluster (R338, R342). -/
def State.writeSpBoth (s : State) (checked : Bool) (l : List (Nat × Byte)) : State :=
  s.writeSp (if checked then l ++ l.map fun b => (b.1 + 2 ^ 22, b.2) else l)

/-- Host memory at a bus address. -/
def State.readHostN (s : State) (a n : Nat) : List Byte := Memory.readN s.mem.host a n

def State.writeHostN (s : State) (a : Nat) (l : List Byte) : State :=
  { s with mem := { s.mem with host := Memory.writeN s.mem.host a l } }

end Sys2Proof.Machine
end

