-- ==== Sys2Proof/Machine/Records.lean ====
section
/-! DEFINITION. Reliability records, trace entries, messages to the host, and counter events
(11 R349-R355, 13 R396-R399, 14 R412, R420, R421). -/

namespace Sys2Proof.Machine

/-! ### Indexed parts of the state -/

def State.wave (s : State) (k : Nat) : Wave := s.waves.getD k default
def State.setWave (s : State) (k : Nat) (w : Wave) : State := { s with waves := s.waves.set k w }
def State.modWave (s : State) (k : Nat) (f : Wave → Wave) : State := { s with waves := modAt f s.waves k }

def State.group (s : State) (g : Nat) : Group := s.groups.getD g default
def State.modGroup (s : State) (g : Nat) (f : Group → Group) : State := { s with groups := modAt f s.groups g }

def State.ctx (s : State) (c : Nat) : Context := s.ctxs.getD c default
def State.modCtx (s : State) (c : Nat) (f : Context → Context) : State := { s with ctxs := modAt f s.ctxs c }

def State.launch (s : State) (l : Nat) : Launch := s.launches.getD l default
def State.modLaunch (s : State) (l : Nat) (f : Launch → Launch) : State := { s with launches := modAt f s.launches l }

def State.graph (s : State) (g : Nat) : Graph := s.graphs.getD g default
def State.modGraph (s : State) (g : Nat) (f : Graph → Graph) : State := { s with graphs := modAt f s.graphs g }

def State.core (s : State) (n : Nat) : Core := s.cores.getD n default
def State.modCore (s : State) (n : Nat) (f : Core → Core) : State := { s with cores := modAt f s.cores n }

def State.twin (s : State) (n : Nat) : Twin := s.twins.getD n default
def State.modTwin (s : State) (n : Nat) (f : Twin → Twin) : State := { s with twins := modAt f s.twins n }

def State.copyQueue (s : State) (n : Nat) : CopyQueue := s.copies.getD n default
def State.modCopyQueue (s : State) (n : Nat) (f : CopyQueue → CopyQueue) : State :=
  { s with copies := modAt f s.copies n }

def State.pair (s : State) (n : Nat) : Pair := s.jalti.pairs.getD n default
def State.modPair (s : State) (n : Nat) (f : Pair → Pair) : State :=
  { s with jalti := { s.jalti with pairs := modAt f s.jalti.pairs n } }

def State.func (s : State) (n : Nat) : Func := s.cp.funcs.getD n default
def State.modFunc (s : State) (n : Nat) (f : Func → Func) : State :=
  { s with cp := { s.cp with funcs := modAt f s.cp.funcs n } }

/-- The physical cluster of a logical one (R295); identity where the map has no entry. -/
def State.physCluster (s : State) (c : Nat) (clid : Nat) : Nat := (s.ctx c).clusterMap.getD clid clid

/-- Physical core number of a wave. -/
def State.coreOf (s : State) (w : Wave) : Nat := 4 * s.physCluster w.ctx w.clid + w.coreid

/-- Waves that are on the part: neither exited nor saved. -/
def Wave.resident (w : Wave) : Bool := w.state != .exited && w.state != .saved

/-- Indices of the waves that satisfy a predicate. -/
def State.wavesWith (s : State) (p : Wave → Bool) : List Nat :=
  (List.range s.waves.length).filter fun k => p (s.wave k)

/-- Members of a group: every wave of it that has not exited (R16). -/
def State.members (s : State) (g : Nat) : List Nat := s.wavesWith fun w => w.group == g && w.state != .exited

/-! ### Messages and counters -/

/-- An MSI-X message (R412). -/
def State.message (s : State) (fn vec : Nat) : State := { s with cp := { s.cp with msix := (fn, vec) :: s.cp.msix } }

/-- The events that a counter has counted in a cc (R133). -/
def Perf.inCc (p : Perf) (cc : Nat) : Nat := if p.stamp = cc then p.fresh else 0

/-- `n` counted by one counter; a wrap sets the overflow bit (R134). -/
def Perf.add (p : Perf) (cc n : Nat) : Perf :=
  { p with count := BitVec.ofNat 48 (p.count.toNat + n), overflow := p.overflow || decide (2 ^ 48 ≤ p.count.toNat + n)
           stamp := cc, fresh := p.inCc cc + n }

/-- A counter written by an SWR: the events of that cc are added after the write (R133). -/
def Perf.write (p : Perf) (cc : Nat) (x : BitVec 48) : Perf :=
  let n := p.inCc cc
  { p with count := BitVec.ofNat 48 (x.toNat + n), overflow := p.overflow || decide (2 ^ 48 ≤ x.toNat + n) }

/-- Whether a counter counts an event of U-mode, or of S-mode and engines (R420). -/
def Perf.counts (p : Perf) (event : Nat) (umode : Bool) : Bool :=
  (p.cfg.setWidth 8).toNat == event && event != 0 && (if umode then p.cfg.getLsbD 8 else p.cfg.getLsbD 9)

/-- `n` events of a code in a context (R420, R421): a context that is switched out counts nothing (R323). -/
def State.count (s : State) (c event n : Nat) (umode : Bool := false) : State :=
  let x := s.ctx c
  if n = 0 || x.switchedOut || !x.perf.any (fun p => p.counts event umode) then s
  else
    let after := x.perf.map fun p => if p.counts event umode then p.add s.cc n else p
    let raised := (x.perf.zip after).countP fun e => e.1.counts event umode && e.2.overflow && !e.1.overflow && e.1.cfg.getLsbD 10
    let s := s.modCtx c fun x => { x with perf := after }
    (List.range raised).foldl (fun s _ => s.message x.fn (if x.fn = 0 then 18 else 8)) s

/-! ### The trace ring -/

/-- The 16-byte header of an entry (R397). -/
def traceHeader (tseq type units context : Nat) : List Byte :=
  bytesOf 8 tseq ++ bytesOf 1 type ++ bytesOf 1 units ++ bytesOf 2 context ++ zeros 4

/-- Units of the ring. -/
def Trace.units (t : Trace) : Nat := 2 ^ (t.log2 - 6)

/-- An entry of `units` units is written and folded into the chain, or counted as lost while FROZEN (R396, R399).
`body` holds its bytes from 16 on and is padded with zeros; `stamp` is the TSTAMP of a LAUNCH entry. -/
def State.traceEntry (s : State) (type units context : Nat) (body : List Byte) (stamp : Option Nat := none) : State :=
  let t := s.trace
  if t.frozen then { s with trace := { t with lostent := min (t.lostent + 1) (2 ^ 32 - 1) } }
  else
    let entry := traceHeader t.tseq type units context ++ body
    let entry := entry ++ zeros (64 * units - entry.length)
    let pos := t.head % t.units
    let pad := if pos + units ≤ t.units then 0 else t.units - pos
    let at_ := t.head + pad
    let base := s.localPa t.base.toNat
    let s := s.writeHomeN (base + 64 * pos) (zeros (64 * pad))
    let s := s.writeHomeN (base + 64 * (at_ % t.units)) entry
    let head := at_ + units
    let newest := stamp.getD t.newest
    let lost := t.stamps.filter fun e => e.1 + t.units < head
    let kept := t.stamps.filter fun e => !(e.1 + t.units < head)
    { s with trace := { t with
        head := head
        tseq := t.tseq + 1
        chain := Sha.sha512 (t.chain ++ entry)
        newest := newest
        short := t.short || lost.any fun e => newest < e.2 + t.window.toNat
        stamps := match stamp with
          | some x => kept ++ [(at_, x)]
          | none => kept } }

/-! ### Reliability records -/

/-- The contents of a record besides RSEQ and LOST (R349). -/
structure Rec where
  kind : Nat
  sev : Nat
  esc : Bool := false
  poison : Bool := false
  cause : Nat := 0
  source : Nat
  context : Nat := 0xFFFF
  launch : Nat := 0
  addr : Nat := 0
  vaddr : Nat := 0
  loc : Nat := 0
  synd : Nat := 0
  acornId : Nat := 0
  retry : Nat := 0
  syndw : Nat := 0
  pc : Nat := 0
deriving DecidableEq, Repr

/-- The 64 bytes of a record (R349). -/
def Rec.bytes (r : Rec) (rseq lost : Nat) : List Byte :=
  bytesOf 8 rseq ++ bytesOf 1 r.kind ++ bytesOf 1 (r.sev + 4 * r.esc.toNat + 8 * r.poison.toNat) ++ bytesOf 1 r.cause
    ++ bytesOf 1 r.source ++ bytesOf 2 r.context ++ bytesOf 2 lost ++ bytesOf 8 r.launch ++ bytesOf 8 r.addr
    ++ bytesOf 8 r.vaddr ++ bytesOf 4 r.loc ++ bytesOf 4 r.synd ++ bytesOf 2 r.acornId ++ bytesOf 1 r.retry
    ++ bytesOf 1 r.syndw ++ zeros 4 ++ bytesOf 8 r.pc

/-- SLOTS of a legal ring (R351). -/
def Rel.sizeOk (r : Rel) : Bool := [64, 128, 256, 512, 1024, 2048, 4096, 8192, 16384, 32768, 65536].contains r.size.toNat

/-- Whether the ring takes the next record (R352). -/
def Rel.takes (r : Rel) : Bool := r.enable && r.sizeOk && (r.head - r.tail).toNat < r.size.toNat

/-- A record is written to the ring, or dropped and counted (R352); an ERROR trace entry holds a record of severity 2 or 3
and a CHK_ROLLBACK (R397). -/
def State.record (s : State) (r : Rec) : State :=
  let q := s.rel
  let image := r.bytes q.rseq q.pendingLost
  let s :=
    if q.takes then
      let s := s.writeHomeN (s.localPa (q.base.toNat / 4096 * 4096 + 64 * (q.head.toNat % q.size.toNat))) image
      let s := { s with rel := { q with head := q.head + 1, rseq := q.rseq + 1, pendingLost := 0 } }
      if q.irq && (2 ≤ r.sev || q.head == q.tail) then s.message 0 16 else s
    else
      { s with rel := { q with ovf := true, dropped := min (q.dropped + 1) (2 ^ 32 - 1), rseq := q.rseq + 1
                               pendingLost := min (q.pendingLost + 1) 65535 } }
  if 2 ≤ r.sev || (r.kind == 0x09 && r.sev == 1) then s.traceEntry 5 2 (if r.context = 0xFFFF then 0 else r.context) (zeros 48 ++ image) else s

/-- A record about a wave: its context, launch, place and PC. -/
def State.waveRec (s : State) (k : Nat) (kind sev source : Nat) : Rec :=
  let w := s.wave k
  { kind := kind, sev := sev, source := source, context := w.ctx, launch := (s.launch w.launch).seq
    loc := s.physCluster w.ctx w.clid + 64 * w.coreid, pc := w.pc.toNat }

/-- A link record (R386, R406, R414, R416, R417); the spec gives it no KIND of its own (log 1). -/
def State.linkRecord (s : State) (sev : Nat) : State := s.record { kind := Config.linkRecordKind.toNat, sev := sev, source := 11 }

/-! ### Fatal errors (R355, R419) -/

/-- Number of a wave state in the dump: the order of R15's table (log 20). -/
def WState.code : WState → Nat
  | .ready => 0 | .parked => 1 | .blocked => 2 | .yielded => 3 | .handler => 4 | .saved => 5 | .exited => 6

/-- Section 2: one resident wave (R419). -/
def State.dumpWave (s : State) (w : Wave) : List Byte :=
  bytesOf 8 w.ctx ++ bytesOf 8 (s.group w.group).grpid.toNat ++ bytesOf 8 w.waveid ++ bytesOf 8 w.state.code
    ++ bytesOf 8 w.pc.toNat ++ bytesOf 8 w.exec.toNat
    ++ (List.range 64).flatMap (fun n => bytesOf 8 (if n = 0 then 0 else (w.s.getD n 0).toNat))
    ++ ((List.range 7).flatMap fun n => bytesOf 8 (w.p.getD (n + 1) 0).toNat)
    ++ bytesOf 8 w.tcause.toNat ++ bytesOf 8 w.tmask.toNat ++ bytesOf 8 (w.taddr.toNat + 2 ^ 63 * w.taddrTile.toNat) ++ bytesOf 8 w.tpc.toNat

/-- Section 3: the mode, check buffer and acorn of each pair (R419). -/
def State.dumpPairs (s : State) : List Byte :=
  s.jalti.pairs.flatMap fun p =>
    bytesOf 8 (match p.mode with | .independent => 0 | .checked => 1 | .offline => 2) ++ bytesOf 8 p.acornId
      ++ bytesOf 8 p.buffer.length
      ++ p.buffer.flatMap fun e => bytesOf 8 e.va ++ bytesOf 8 e.pc.toNat ++ bytesOf 8 e.mask.toNat ++ bytesOf 8 e.size
        ++ e.bytes.map Prod.snd

/-- The newest records of the ring, oldest first (R419: at most 1,024). -/
def State.dumpRecords (s : State) : List Byte :=
  let n := min 1024 (min s.rel.head.toNat s.rel.size.toNat)
  (List.range n).flatMap fun i =>
    s.readHomeN (s.localPa (s.rel.base.toNat / 4096 * 4096 + 64 * ((s.rel.head.toNat - n + i) % s.rel.size.toNat))) 64

/-- The newest 4 MiB of the trace ring (R419). -/
def State.dumpTrace (s : State) : List Byte :=
  let n := min (min 65536 s.trace.units) s.trace.head
  (List.range n).flatMap fun i => s.readHomeN (s.localPa (s.trace.base.toNat + 64 * ((s.trace.head - n + i) % s.trace.units))) 64

/-- The table of the dump's header: offset, length and type of each section, 16 bytes each (R419). -/
def dumpTable : Nat → Nat → List (List Byte) → List Byte
  | _, _, [] => []
  | off, type, c :: t => bytesOf 8 off ++ bytesOf 4 c.length ++ bytesOf 4 type ++ dumpTable (off + c.length) (type + 1) t

/-- The dump that firmware writes to the reserved region (R419): header, the five sections, signature. -/
def State.dumpBytes (s : State) (fatal : List Byte) (seq : Nat) : List Byte :=
  let sections := [fatal ++ s.dumpRecords, (s.waves.filter Wave.resident).flatMap s.dumpWave, s.dumpPairs,
    Config.dumpFirmwareState s.free, s.dumpTrace]
  let header := bytesOf 4 0x44504D31 ++ bytesOf 4 seq ++ bytesOf 8 s.trace.tseq ++ dumpTable 4096 1 sections
  let all := header ++ zeros (4096 - header.length) ++ sections.flatten
  all ++ Config.deviceSignature (Sha.sha512 all)

/-- The other devices that a link reaches (R386). -/
def State.linked (s : State) : List Nat :=
  (List.range 4).filter fun d => d != s.fab.dev.toNat && s.fab.routes.getD d 0 != 0 && !s.fab.deadPeers.contains (BitVec.ofNat 2 d)

/-- An uncontained event: the device halts, peers are told, the FATAL record and the dump are written (R355). -/
def State.fatalError (s : State) (source : Nat) (r : Rec) : State :=
  if s.cp.fatal then s
  else
    let rec_ : Rec := { r with kind := 0x11, sev := 3, source := source }
    let image := rec_.bytes s.rel.rseq s.rel.pendingLost
    let seq := s.rel.rseq
    let s := s.record rec_
    let dump := s.dumpBytes image seq
    let s := s.writeHomeN (s.localPa s.cp.dumpBase.toNat) dump
    let s := { s with cp := { s.cp with fatal := true, dump := dump, dumpValid := true, dumpPartial := false
                                        dumpSeq := BitVec.ofNat 32 seq }
                      trace := { s.trace with frozen := true }
                      fab := { s.fab with toPeers := s.linked.map PeerMsg.fatal ++ s.fab.toPeers } }
    s.message 0 19

end Sys2Proof.Machine
end

