-- ==== Sys2Proof/Machine/Homes.lean ====
section
/-! DEFINITION. The home bank of a line, release signatures and priority tokens (08 R253-R257, 12 R363, R364, 06 R192). -/

namespace Sys2Proof.Machine

/-- The physical banks of a husk; husk 0 spans all 192 (R363). -/
def State.huskBanks (s : State) (h : Nat) : List Nat :=
  match s.fab.husks.find? (fun x => x.num == h) with
  | some x => x.banks
  | none => List.range 192

/-- The index of R364 among `n` banks. -/
def bankIndex (n pa : Nat) : Nat :=
  (((bits pa 23 8 ^^^ bits pa 39 24) ^^^ bits pa 41 40) * n) >>> 16

/-- The home bank of an address in a husk (R364). -/
def State.homeBank (s : State) (h pa : Nat) : Nat :=
  let b := s.huskBanks h
  b.getD (bankIndex b.length pa) 0

/-- The device husk of an address's frame (R366). -/
def State.huskOf (s : State) (pa : Nat) : Nat := lookupD 0 s.cp.frameHusk (pa / 65536)

/-- The REMOTE husk, if one is defined (R371). -/
def State.remoteHusk (s : State) : Option Nat := (s.fab.husks.find? (fun h => h.cls == 1)).map Husk.num

/-- The home slice of a line: its bank, or 192 plus the owning device of a peer's line (log 21). -/
def State.slice (s : State) (pa : Nat) : Nat := if s.isPeer pa then 192 + devOf pa else s.homeBank (s.huskOf pa) pa

/-- The slice that serves scopes 1 to 3: for a peer's line a bank of the remote data cache, where there is one (R269, R371). -/
def State.nearSlice (s : State) (pa : Nat) : Nat :=
  match s.remoteHusk with
  | some h => if s.isPeer pa then s.homeBank h pa else s.slice pa
  | none => s.slice pa

/-- The husk that holds a line in this device's L2 (R366, R371). -/
def State.lineHusk (s : State) (pa : Nat) : Nat := if s.isPeer pa then (s.remoteHusk).getD 0 else s.huskOf pa

/-! ### Signatures -/

/-- The four constants of R253. -/
def sigConst : List Nat := [0x9E3779B97, 0x7F4A7C15B, 0xD6E8FEB87, 0x58476C7A3]

/-- The signature of one sector, by its number PA[41:6] (R253). -/
def sectorSig (sec : Nat) : BitVec 512 :=
  sigConst.foldl (fun x c => x ||| (1#512 <<< (((sec * c) % 2 ^ 36) >>> 27))) 0

/-- The signature of a set of sectors (R253). -/
def sigOf (l : List Nat) : BitVec 512 := l.foldl (fun x sec => x ||| sectorSig sec) 0

/-- A sector matches a signature when its bits are set in it (R253). -/
def sigMatch (x : BitVec 512) (sec : Nat) : Bool := x &&& sectorSig sec == sectorSig sec

/-- `x` ORed into the half of an epoch (R256). -/
def SigEntry.deposit (e : SigEntry) (epoch : Nat) (x : BitVec 512) : SigEntry :=
  if epoch % 2 = 0 then { e with even := e.even ||| x } else { e with odd := e.odd ||| x }

/-- A deposit at a line of a bank: the line's entry moves to the front; the 1,025th entry goes to the overflow entry (R256). -/
def SigBank.deposit (b : SigBank) (epoch line : Nat) (x : BitVec 512) : SigBank :=
  let e := ((b.entries.find? (fun e => e.line == line)).getD { line := line, even := 0, odd := 0 }).deposit epoch x
  let l := e :: b.entries.filter (fun e => e.line != line)
  let gone := l.drop 1024
  { b with entries := l.take 1024
           ovEven := gone.foldl (fun x e => x ||| e.even) b.ovEven
           ovOdd := gone.foldl (fun x e => x ||| e.odd) b.ovOdd }

/-- A deposit at the home of a line in a slice (R254, R256). -/
def State.depositAt (s : State) (slice line : Nat) (x : BitVec 512) : State :=
  let b := (s.mem.sigs.find? (fun b => b.bank == slice)).getD { bank := slice }
  { s with mem := { s.mem with sigs := b.deposit s.mem.epoch line x :: s.mem.sigs.filter (fun b => b.bank != slice) } }

/-- The old home bank of a line whose husk is being resized to other banks (R270, R368). -/
def State.oldSlices (s : State) (pa : Nat) : List Nat :=
  match (s.fab.husks.find? fun h => h.num == s.lineHusk pa).bind Husk.oldBanks with
  | some b => [b.getD (bankIndex b.length pa) 0]
  | none => []

/-- What a slice's signature entries hold for a line (R256). -/
def State.signatureIn (s : State) (slice line : Nat) : BitVec 512 :=
  let b := (s.mem.sigs.find? (fun b => b.bank == slice)).getD { bank := slice }
  match b.entries.find? (fun e => e.line == line) with
  | some e => e.even ||| e.odd
  | none => b.ovEven ||| b.ovOdd

/-- The signature that an acquire of a line reads, over its home and, during a resize, its old home; `none` when it is
saturated (R256, R270). -/
def State.signatureAt (s : State) (slices : List Nat) (line : Nat) : Option (BitVec 512) :=
  let x := slices.foldl (fun x sl => x ||| s.signatureIn sl line) 0
  if 256 < popCount x then none else some x

/-! ### Shares of the L2 (R359, R363) -/

/-- Owner of a share of a bank; husk 0 holds what is given to nothing else (R359, R363). -/
def State.shareOwner (s : State) (bank share : Nat) : Share := lookupD (.husk 0) s.fab.shareMap (bank, share)

/-- The shares of a bank with an owner, ascending. -/
def State.sharesOf (s : State) (bank : Nat) (o : Share) : List Nat := (List.range 16).filter fun i => s.shareOwner bank i == o

/-- Husk `h`'s definition; husk 0's is fixed (R363). -/
def State.huskDef (s : State) (h : Nat) : Husk :=
  (s.fab.husks.find? fun x => x.num == h).getD
    { num := 0, ctx := 0, banks := List.range 192, shares := 16, fill := 2, policy := 0, cls := 0, gen := 0 }

/-- Sectors that a miss fills (R361, R364). -/
def fillSectors (fill : Nat) : Nat := 2 ^ min fill 2

/-- Clean sectors of the remote data cache go, and of dirty ones the clean bytes (R182, R249, R257). -/
def dropRdc (p : RdcSector → Bool) (l : List RdcSector) : List RdcSector :=
  l.filterMap fun r => if p r then (if r.dirty = 0 then none else some { r with filled := false }) else some r

/-! ### Priority tokens -/

/-- A wave asks for the token of each slice (R192). -/
def State.requestTokens (s : State) (k : Nat) (slices : List Nat) : State :=
  let add (t : List (Nat × List Nat)) (sl : Nat) : List (Nat × List Nat) :=
    let q := lookupD [] t sl
    if q.contains k then t else assign t sl (q ++ [k])
  { s with mem := { s.mem with tokens := slices.eraseDups.foldl add s.mem.tokens } }

/-- A wave gives up its tokens and its places in the queues for them (R192). -/
def State.releaseTokens (s : State) (k : Nat) : State :=
  { s with mem := { s.mem with tokens := (s.mem.tokens.map fun e => (e.1, e.2.filter (· != k))).filter fun e => !e.2.isEmpty } }

/-- The slices whose token a wave holds. -/
def State.tokensOf (s : State) (k : Nat) : List Nat :=
  (s.mem.tokens.filter fun e => e.2.head? == some k).map Prod.fst

end Sys2Proof.Machine
end

