-- ==== Sys2Proof/Machine/Ops.lean ====
section
/-! DEFINITION. The shared operations on registers, retirement, barriers, membership, kills, transaction aborts, taking an
exception and returning from one. -/

namespace Sys2Proof

/-! ### What retirement asks of an instruction -/

/-- Major opcode of an instruction's word (R47). -/
def Instr.major (i : Instr) : Nat := (Fld.op ((encode i).getD 0)).toNat

/-- The switch marker of an instruction's word (R58). -/
def Instr.marker (i : Instr) : Bool := ((encode i).getD 0).getLsbD 63

/-- Vector instructions, majors 0x30 to 0x40 (R63). -/
def Instr.isVector (i : Instr) : Bool := 0x30 ≤ i.major && i.major ≤ 0x40

/-- The instructions that do not fold into SIGREG (R124). -/
def Instr.unfolded : Instr → Bool
  | .sigchk _ _ => true
  | .swr o => o.sr == 0x12
  | _ => false

/-- The instructions that end a quantum when they retire (R388). -/
def Instr.endsQuantum : Instr → Bool
  | .bara _ _ | .barw _ _ | .vclaim _ _ | .emit _ | .emitc _ | .exitw _ => true
  | .vatom o | .satom o => o.ret && (o.scope == .group || o.scope == .cluster)
  | _ => false

/-- CYIELD, which goes on at its continuation (R235). -/
def Instr.isCyield : Instr → Bool
  | .cyield _ _ _ => true
  | _ => false

/-- SIGREG after a retirement in U-mode: the word's bytes, then an XJOIN's difference (R124). -/
def foldedSig (i : Instr) (extra : List Byte) (x : BitVec 32) : BitVec 32 :=
  if i.unfolded then x else sigFold x (bytesOf 8 ((encode i).getD 0).toNat ++ extra)

end Sys2Proof

namespace Sys2Proof.Machine

/-! ### Registers -/

/-- Scalar register `n` at the wave's privilege: S0 reads zero, and S56-S63 name the S bank in S-mode (R21). -/
def Wave.readS (w : Wave) (n : Nat) : Word :=
  if n = 0 then 0 else if 56 ≤ n ∧ w.priv = .s then w.sbank.getD (n - 56) 0 else w.s.getD n 0

/-- Scalar register `n` written; a write to S0 is discarded (R21). -/
def Wave.writeS (w : Wave) (n : Nat) (x : Word) : Wave :=
  if n = 0 then w
  else if 56 ≤ n ∧ w.priv = .s then { w with sbank := putAt 0 w.sbank (n - 56) x }
  else { w with s := putAt 0 w.s n x }

/-- Predicate register `n`: P0 reads all ones (R22). -/
def Wave.readP (w : Wave) (n : Nat) : Mask := if n = 0 then allLanes else w.p.getD n 0

/-- Predicate register `n` written; a write to P0 is discarded (R22). -/
def Wave.writeP (w : Wave) (n : Nat) (x : Mask) : Wave := if n = 0 then w else { w with p := putAt 0 w.p n x }

/-- Vector register `n` (R23). -/
def Wave.readV (w : Wave) (n : Nat) : VReg := w.v.getD n zeroVReg

/-- Vector register `n` written whole. -/
def Wave.writeV (w : Wave) (n : Nat) (x : VReg) : Wave := { w with v := putAt zeroVReg w.v n x }

/-- Vector register `n` written in the lanes of a mask (R56). -/
def Wave.writeLanes (w : Wave) (m : Mask) (n : Nat) (x : VReg) : Wave := w.writeV n (mergeLanes m x (w.readV n))

/-- The register that scalar number `n` names at the wave's privilege (R21). -/
def Wave.sReg (w : Wave) (n : Nat) : Reg := if 56 ≤ n ∧ w.priv = .s then .sb n else .s n

/-- A value put into a register, whichever bank it lies in. -/
def Wave.put (w : Wave) (r : Reg) (v : RegVal) : Wave :=
  match r, v with
  | .s n, .s x => if n = 0 then w else { w with s := putAt 0 w.s n x }
  | .sb n, .s x => { w with sbank := putAt 0 w.sbank (n - 56) x }
  | .v n, .v x => w.writeV n x
  | .p n, .p x => w.writeP n x
  | .cell _, _ => w
  | _, _ => w

/-- What the shadow holds of a register once both clusters have written it (R338): nothing of its own but where the values
differ. -/
def shadowAfter (l : List (Reg × RegVal)) (r : Reg) (v : Option RegVal) : List (Reg × RegVal) :=
  if l.isEmpty && v.isNone then [] else (v.map fun x => (r, x)).toList ++ l.filter fun e => e.1 != r

/-- The errors of a register once it is written whole (R335). -/
def errsAfter (l : List RegErr) (r : Reg) : List RegErr := if l.isEmpty then [] else l.filter fun e => e.reg != r

/-- A long write arriving at its register (R57): the entry and its mirror are written together (R335), and at IL3 the
shadow's register as well (R338). -/
def Wave.deliver (w : Wave) (l : LongWrite) : Wave :=
  { w.put l.dst l.val with shadow := shadowAfter w.shadow l.dst l.shadow, regErrs := errsAfter w.regErrs l.dst }

/-- A long write issued: its register enters the unmarked set (R57, R58). -/
def Wave.long (w : Wave) (dst : Reg) (val : RegVal) (need : Nat := 0) (tag : Nat := 0) : Wave :=
  { w with unmarked := dst :: w.unmarked, pending := w.pending ++ [{ dst := dst, val := val, need := need, tag := tag }] }

/-- The state that a waiting wave returns to (R15). -/
def Wave.home (w : Wave) : WState := if w.priv = .u then .ready else .handler

/-- Whether a wave has an effect of its held ones on some address; its held stores and SPSTs give way to a later one of a
handler, which is not held (R175, R204). -/
def Wave.overtake (w : Wave) (sp : Bool) (keys : List Nat) : Wave :=
  let cut (l : List (Nat × Byte)) : List (Nat × Byte) := l.filter fun b => !keys.contains b.1
  { w with effects := w.effects.map fun e => match e with
    | .store c l => if sp then e else .store c (cut l)
    | .sp l => if sp then .sp (cut l) else e
    | e => e }

/-- Effective level of a wave's group (R43). -/
def State.ilevelOf (s : State) (w : Wave) : Nat := (s.group w.group).ilevel

/-- Whether a wave belongs to a deterministic launch. -/
def State.detOf (s : State) (w : Wave) : Bool := (s.group w.group).det

/-- Whether a wave's effects are held to its quantum end: at U in a deterministic launch (R204, R327). -/
def State.holdsOf (s : State) (w : Wave) : Bool := s.detOf w && w.priv == .u

/-- The twin of a wave (R207). -/
def State.twinOf (s : State) (w : Wave) : Nat := 2 * s.physCluster w.ctx w.clid + w.coreid / 2

/-- The physical cluster pair of a wave (R329). -/
def State.pairOf (s : State) (w : Wave) : Nat := s.physCluster w.ctx w.clid / 2

/-- SEQ of a wave's launch. -/
def State.seqOf (s : State) (w : Wave) : Nat := (s.launch w.launch).seq

/-! ### Retirement -/

/-- The wave's side of a retirement: PC, signature, counts, and the switch marker (R58, R124, R318, R343, R388). -/
def Wave.retired (w : Wave) (i : Instr) (priv : Priv) (next : VAddr) (extra : List Byte)
    (fold det preempting : Bool) (quantum : Nat) : Wave :=
  let u := priv = .u
  let w := { w with
    pc := next
    sigreg := if fold && u then foldedSig i extra w.sigreg else w.sigreg
    sinceAcorn := w.sinceAcorn + 1
    sincePreempt := if preempting then w.sincePreempt + 1 else 0
    quantumCount := if det && u then w.quantumCount + 1 else w.quantumCount
    quantumDue := w.quantumDue || (det && u && (i.endsQuantum || decide (quantum ≤ w.quantumCount + 1))) }
  if i.marker then
    if w.pending.isEmpty then { w with unmarked := [] } else { w with state := .parked }
  else w

/-- Instruction `i` of wave `k` retires and the wave goes on at `next`; `priv` is the level it executed at. -/
def State.retireAt (s : State) (k : Nat) (i : Instr) (priv : Priv) (next : VAddr) (extra : List Byte := []) : State :=
  let w := s.wave k
  let g := s.group w.group
  let s := s.setWave k (w.retired i priv next extra (1 ≤ g.ilevel) g.det (s.ctx w.ctx).preempting g.quantum.toNat)
  let s := s.count w.ctx 2 1 (priv = .u)
  if i.isVector then s.count w.ctx 3 1 (priv = .u) else s

/-- Wave `k` becomes BLOCKED on a reason; `i` retires when the wait ends (R15). -/
def State.block (s : State) (k : Nat) (why : Wait) (i : Option Instr) : State :=
  s.modWave k fun w => { w with state := .blocked, wait := why, stalled := i }

/-- The wait of wave `k` ends: its instruction retires, or issues again when it had not been performed (R15). -/
def State.unblock (s : State) (k : Nat) : State :=
  let w := s.wave k
  let s' := s.setWave k { w with state := w.home, wait := .nothing, stalled := none, eligibleSince := s.cc }
  match w.stalled with
  | some i => s'.retireAt k i w.priv (w.pc + 8)
  | none => s'

/-- A trap that is entered once the returns of R58 have come: the wave stops waiting for anything else. -/
def State.postTrap (s : State) (k : Nat) (t : Trap) : State :=
  s.modWave k fun w => { w with state := .parked, wait := .nothing, stalled := none, trap := some t }

/-! ### Waits for copies (R232-R235, R393) -/

/-- Sequence number `a` is at or before `b` (R234). -/
def seqBefore (a b : Nat) : Bool := (b + 2 ^ 32 - a) % 2 ^ 32 < 2 ^ 31


/-- One copy of a queue changed. -/
def State.modCopy (s : State) (q seq : Nat) (f : Copy → Copy) : State :=
  s.modCopyQueue q fun x => { x with entries := x.entries.map fun c => if c.seq = seq then f c else c }

/-- The trap of a stopped copy (R232, R245). -/
def Copy.trap (c : Copy) (mask : Mask) : Trap :=
  match c.fault with
  | some (0x60, _) => { cause := 0x60, mask := mask, addr := 0 }
  | some (_, va) => { cause := 0x53, mask := mask, addr := BitVec.ofNat 56 va }
  | none => { cause := 0x53, mask := mask, addr := 0 }

/-- A copy that has left its queue with the state of its group or its function (R243, R323). -/
def State.copyAway (s : State) (c : Copy) : Bool := (s.ctx c.ctx).switchedOut || s.saves.any fun g => g.group == c.group

/-- The copies of a queue that are in it. -/
def State.copiesIn (s : State) (q : Nat) : List Copy := (s.copyQueue q).entries.filter fun c => !s.copyAway c

/-- The copies that a wait for a sequence number waits for (R234). -/
def State.copiesUpTo (s : State) (q seq : Nat) : List Copy := (s.copiesIn q).filter fun c => seqBefore c.seq seq

/-- The first stopped copy of the wave's context, at or before a sequence number, that no wave has trapped for (R232). -/
def State.stoppedCopy (s : State) (c q seq : Nat) : Option Copy :=
  (s.copiesUpTo q seq).find? fun x => x.stage == .stopped && !x.delivered && x.ctx == c

/-- The CWAIT or CYIELD of wave `k` on a ticket retires: its own copies count as waited on (R234, R235, R393). -/
def State.ticketDone (s : State) (k : Nat) (i : Instr) (q seq : Nat) (next : VAddr) : State :=
  let w := s.wave k
  let s :=
    if s.detOf w then
      let wait (v : Veil) : Veil := if v.wave = k && v.queue = q && seqBefore v.seq seq then { v with waited := true } else v
      s.modLaunch w.launch fun l => { l with veils := l.veils.map wait, spVeils := l.spVeils.map wait }
    else s
  s.retireAt k i w.priv next

/-- The waves that wait on a queue: a stopped copy makes the first of its context trap, and those whose copies are all
complete go on (R232, R234, R235). -/
def State.wakeTickets (s : State) (q : Nat) : State :=
  (List.range s.waves.length).foldl (fun s k =>
    let w := s.wave k
    match w.wait with
    | .ticket q' seq =>
      if q' ≠ q || !(w.state == .blocked || w.state == .yielded) then s
      else match s.stoppedCopy w.ctx q seq with
        | some c => (s.modCopy q c.seq fun c => { c with delivered := true }).postTrap k (c.trap w.exec)
        | none =>
          if !(s.copiesUpTo q seq).isEmpty then s
          else
            let next := if w.state = .yielded || w.stalled.any Instr.isCyield then w.yieldPc else w.pc + 8
            let s := s.setWave k { w with state := w.home, wait := .nothing, stalled := none, eligibleSince := s.cc }
            match w.stalled with
            | some i => s.ticketDone k i q seq next
            | none => s
    | _ => s) s

/-! ### Barriers (R195-R198) -/

/-- Entry `e` of a context's barrier table. -/
def Context.barrier (c : Context) (e : Nat) : Option Barrier := c.barriers.find? (fun b => b.entry == e)

/-- Entry `e` changed. -/
def Context.modBarrier (c : Context) (e : Nat) (f : Barrier → Barrier) : Context :=
  { c with barriers := c.barriers.map fun b => if b.entry = e then f b else b }

/-- Members of a barrier's group in its MASK. -/
def State.barrierMembers (s : State) (b : Barrier) : List Nat :=
  (s.members b.group).filter fun k => b.mask.getLsbD (s.wave k).sgid.toNat

/-- A barrier at the start of its next phase (R196). -/
def Barrier.advance (b : Barrier) (members : Nat) : Barrier :=
  { b with phase := b.phase + 1, arrived := 0, counts := [], late := [], expected := b.per * members }

/-- A phase completes when ARRIVED = EXPECTED, and its waiters are released (R196). -/
def State.completePhase (s : State) (c e : Nat) : State :=
  match (s.ctx c).barrier e with
  | none => s
  | some b =>
    if b.arrived ≠ b.expected || b.broken then s
    else
      let n := (s.barrierMembers b).length
      let s := s.modCtx c fun x => x.modBarrier e fun b => b.advance n
      (s.wavesWith fun w => w.ctx == c && w.state == .blocked && w.wait == .barrier e b.phase).foldl State.unblock s

/-- `n` arrivals of a member in the current phase (R198). -/
def Barrier.arrive (b : Barrier) (waveid n : Nat) : Barrier :=
  { b with arrived := b.arrived + n, counts := assign b.counts waveid (lookupD 0 b.counts waveid + n) }

/-- A member leaves the current phase (R197). -/
def Barrier.leave (b : Barrier) (waveid : Nat) : Barrier :=
  let late := b.late.filter (· != waveid)
  if b.late.contains waveid then { b with late := late }
  else { b with expected := b.expected - b.per, arrived := b.arrived - lookupD 0 b.counts waveid, late := late
                counts := b.counts.filter fun e => e.1 != waveid }

/-- The open barriers of a wave's group whose MASK includes a sub-group. -/
def State.barriersOf (s : State) (w : Wave) (sgid : BitVec 2) : List Nat :=
  ((s.ctx w.ctx).barriers.filter fun b => b.group == w.group && b.mask.getLsbD sgid.toNat).map Barrier.entry

/-- A wave leaves the given barriers; `move` changes its membership; then phases complete where the counts are equal (R197),
in a deterministic launch at the epoch end (R389). -/
def State.leaveBarriers (s : State) (k : Nat) (entries : List Nat) (move : State → State) : State :=
  let w := s.wave k
  let s := entries.foldl (fun s e => s.modCtx w.ctx fun x => x.modBarrier e fun b => b.leave w.waveid) s
  let det := s.detOf w
  let s := move s
  if det then s else entries.foldl (fun s e => s.completePhase w.ctx e) s

/-- A killed member breaks the barriers of its MASK, and their waiters trap (R197). -/
def State.breakBarriers (s : State) (k : Nat) : State :=
  let w := s.wave k
  (s.barriersOf w w.sgid).foldl (fun s e =>
    let s := s.modCtx w.ctx fun x => x.modBarrier e fun b => { b with broken := true }
    let waits (x : Wave) : Bool := x.ctx == w.ctx && x.state == .blocked &&
      match x.wait with
      | .barrier e' _ => e' == e
      | _ => false
    (s.wavesWith waits).foldl (fun s j => s.postTrap j { cause := 0x31, mask := (s.wave j).exec, addr := 0 }) s) s

/-! ### Leaving a group (R16, R136, R194, R215, R232) -/

/-- A twin at the dissolution of its group (R215): a suspended operation is abandoned, and the tiles are freed once the
queue is empty. -/
def Twin.release (t : Twin) : Twin :=
  let t := if t.suspended.isSome then { t with queue := t.queue.drop 1, suspended := none } else t
  let t := { t with stopped := false }
  if t.queue.isEmpty then Twin.reset else t

/-- The stopped copies of a dissolved group are abandoned with a contained record (R232). -/
def State.abandonCopies (s : State) (g : Nat) : State :=
  (List.range s.copies.length).foldl (fun s q =>
    let stopped := (s.copyQueue q).entries.filter fun c => c.group == g && c.stage == .stopped
    if stopped.isEmpty then s else
    let s := s.modCopyQueue q fun x => { x with entries := x.entries.filter fun c => !(c.group == g && c.stage == .stopped) }
    (stopped.foldl (fun s c => s.record
      { kind := 0x0F, sev := 2, source := 8, context := c.ctx, launch := (s.launch c.launch).seq
        cause := ((c.fault.map fun f => f.1.toNat).getD 0), vaddr := (c.fault.map Prod.snd).getD 0, loc := q / 4 }) s).wakeTickets q) s

/-- An emptied group dissolves: its handles, tiles, pool bytes and stopped copies are freed (R16, R194, R215, R232). -/
def State.dissolve (s : State) (g : Nat) : State :=
  let x := s.group g
  if !x.live || !(s.members g).isEmpty then s
  else
    let s := s.modGroup g fun x => { x with live := false }
    let s := s.modCtx x.ctx fun c => { c with barriers := c.barriers.filter fun b => b.group != g }
    let s := if x.flat then s else s.modGraph x.graph fun y => { y with poolUsed := y.poolUsed - x.poolBytes }
    let s := { s with twins := s.twins.map fun (t : Twin) => if t.owner = some g then t.release else t }
    s.abandonCopies g

/-- A core is mirrored while a resident wave on it runs at IL2 or IL3 (R335, R336). -/
def State.remirror (s : State) (core : Nat) : State :=
  s.modCore core fun c => { c with mirrored := s.waves.any fun w => w.resident && s.coreOf w == core && 2 ≤ s.ilevelOf w }

/-- A wave becomes EXITED: it leaves the claim queue, its registers go back to the pool and an emptied group dissolves (R136). -/
def State.exited (s : State) (k : Nat) : State :=
  let w := s.wave k
  let core := s.coreOf w
  let s := s.modWave k fun w =>
    { w with state := .exited, wait := .nothing, hold := .none, stalled := none, trap := none, abort := none, txn := none
             pending := [], unmarked := [], exitEpoch := if s.detOf w then some (s.launch w.launch).epoch else none }
  let s := (s.modCore core fun c => { c with claims := c.claims.filter fun e => e.1 != k }).releaseTokens k
  (s.remirror core).dissolve w.group

/-- A launch is to end ABORTED: the command processor begins its teardown (R276, R301). -/
def State.abortLaunch (s : State) (l : Nat) : State :=
  s.modLaunch l fun x =>
    match x.state with
    | .enqueued | .waiting | .settling | .running | .finishing => { x with tearing := true }
    | _ => x

/-- A wave is killed where it stands (R301): its barriers break and its membership is released. -/
def State.killSilently (s : State) (k : Nat) : State := (s.breakBarriers k).exited k

/-- A wave is killed with a record, and its launch ends ABORTED (R301). -/
def State.kill (s : State) (k : Nat) (code : BitVec 7) : State :=
  let s := s.record { s.waveRec k 0x0E 2 10 with cause := code.toNat }
  (s.abortLaunch (s.wave k).launch).killSilently k

/-! ### Transactions that abort (R189-R192) -/

/-- Slices of the lines of a transaction's read and write sets. -/
def State.txnSlices (s : State) (t : Txn) : List Nat := (t.reads ++ t.lines).map fun l => s.slice (256 * l)

/-- The status word of an abort (R191). -/
def abortStatus (reason : BitVec 4) (consec : Nat) (token : Bool) (code : BitVec 16) : Word :=
  BitVec.ofNat 64 (reason.toNat + 16 * min consec 15 + 256 * token.toNat + 65536 * code.toNat)

/-- The abort itself, once the returns of R58 have come (R191, R192). -/
def State.performAbort (s : State) (k : Nat) (reason : BitVec 4) (code : BitVec 16) : State :=
  let w := s.wave k
  match w.txn with
  | none => s.modWave k fun w => { w with abort := none }
  | some t =>
    let n := w.aborts + 1
    let slices := s.txnSlices t
    let s := if reason = 1 then s else s.releaseTokens k
    let s := if 8 ≤ n then s.requestTokens k slices else s
    let held := s.tokensOf k
    let token := 8 ≤ n && !slices.isEmpty && slices.all held.contains
    let s := s.setWave k { (w.writeS 61 (abortStatus reason n token code)) with
      exec := t.exec, pc := t.target, txn := none, aborts := n, tokenWanted := decide (8 ≤ n), abort := none
      unmarked := [], state := w.home, wait := .nothing, stalled := none, hold := .none, eligibleSince := s.cc
      shadow := shadowAfter w.shadow (w.sReg 61) none, regErrs := errsAfter w.regErrs (w.sReg 61) }
    s.count w.ctx 0x0E 1 (w.priv = .u)

/-- A transaction is to abort: at once, or after the outstanding returns (R191). -/
def State.abortTxn (s : State) (k : Nat) (reason : BitVec 4) (code : BitVec 16) : State :=
  if (s.wave k).pending.isEmpty then s.performAbort k reason code
  else s.modWave k fun w => { w with state := .parked, wait := .nothing, stalled := none, abort := some (reason, code) }

/-! ### Checked pairs that disagree (R344-R347, R432) -/

/-- Barriers of a context put back as an acorn holds them: an entry that a group of the pair has opened since is free again,
with the generation that it had (R342). -/
def Context.backTo (c : Context) (p : Snapshot) (old : List Barrier) (gens : List (Nat × Nat)) : Context :=
  let mine (b : Barrier) : Bool := p.groups.any fun g => g.1 == b.group
  let opened := ((c.barriers.filter fun b => mine b && !(old.any fun o => o.entry == b.entry && o.gen == b.gen)).map Barrier.entry)
  { c with
    barriers := (c.barriers.filter fun b => !mine b) ++ old
    barrierGens := (c.barrierGens.filter fun e => !opened.contains e.1) ++ gens.filter fun e => opened.contains e.1 }

/-- The acorn snapshot is restored to both clusters (R345 step 3): waves, groups, barriers, twins, claims and scratchpad blocks
of the pair; its copy queues hold again what they held, with later copies gone that had not left the pair (R244), and an append
that waits for room is asked for anew. -/
def State.restore (s : State) (p : Snapshot) : State :=
  let mine (k : Nat) : Bool := p.waves.any fun e => e.1 == k
  let s := p.waves.foldl (fun s e => s.setWave e.1 e.2) s
  let s := p.groups.foldl (fun s e => s.modGroup e.1 fun _ => e.2) s
  let s := p.barriers.foldl (fun s e => s.modCtx e.1 fun c => c.backTo p e.2 (lookupD [] p.gens e.1)) s
  let s := p.twins.foldl (fun s e => s.modTwin e.1 fun _ => e.2) s
  let s := p.claims.foldl (fun s e => s.modCore e.1 fun c => { c with claims := e.2 }) s
  let s := p.queues.foldl (fun s e => s.modCopyQueue e.1 fun x =>
    { x with next := e.2.next, joins := e.2.joins
             entries := x.entries.filter fun c => !c.heldBack || e.2.entries.any fun y => y.seq == c.seq }) s
  let s := { s with emits := s.emits.filter fun r => !(r.blocked && !r.seed && mine r.wave) }
  p.blocks.foldl (fun s e =>
    s.writeSpBoth true (((List.range 64).zip e.2).map fun b => (64 * e.1 + b.1, b.2))) s

/-- Words of the check buffer or the acorn store with a single wrong bit are corrected, with a record each (R332, R350). -/
def State.pairCorrected (s : State) (p ctx : Nat) (errs : List (List Nat)) : State :=
  errs.foldl (fun s e => s.record { kind := 0x03, sev := 1, source := 6, context := ctx, loc := 2 * p, synd := e.headD 0 }) s

/-- A word that its code cannot correct is among some (R332). -/
def unreadable (errs : List (List Nat)) : Bool := errs.any fun e => 2 ≤ e.length

/-- A mismatch on a checked pair (R345, R347): freeze, discard, restore and log, or the pair goes OFFLINE; an acorn store that
cannot be read is a mismatch of its own (R332). -/
def State.mismatch (s : State) (p : Nat) (wave : Nat) (r : Rec) : State :=
  let q := s.pair p
  let w := s.wave wave
  let r : Rec := { r with context := w.ctx, launch := s.seqOf w, loc := s.physCluster w.ctx w.clid + 64 * w.coreid
                          acornId := q.acornId, retry := q.retry + 1 }
  let s := s.modPair p fun q =>
    { q with mismatches := q.mismatches + 1, buffer := [], bufferErrs := [], frozen := true, retry := q.retry + 1, wanted := none }
  if q.retry = 0 && !unreadable q.acornErrs then
    let s := (s.pairCorrected p w.ctx q.acornErrs).modPair p fun q => { q with acornErrs := [] }
    let s := match q.snapshot with
      | some x => s.restore x
      | none => s
    let s := s.record { r with kind := 0x09, sev := 1 }
    let s := s.modPair p fun q => { q with rollbacks := q.rollbacks + 1 }
    s.count w.ctx 0x0F 1
  else
    let s := s.record { r with kind := 0x0A, sev := 2, esc := true }
    let s := s.abortLaunch w.launch
    let s := s.modPair p fun q => { q with mode := .offline, offlines := q.offlines + 1, snapshot := none, acornErrs := [] }
    let s := { s with cp := { s.cp with changes := s.cp.changes ++ [QuiesceChange.removePair p] } }
    s.message 0 17

/-! ### Taking an exception and returning from one -/

/-- Trap entry, once the returns of R58 have come (R299); a cause raised in S-mode, or without a handler, kills the wave
(R301). -/
def State.enterTrap (s : State) (k : Nat) (t : Trap) : State :=
  let w := s.wave k
  let tvec := (s.ctx w.ctx).tvec
  if w.priv = .s then s.kill k 0x64
  else if tvec = 0 then s.kill k 0x65
  else s.setWave k { w with
    entryMask := w.exec, tcause := t.cause, tmask := t.mask, taddr := t.addr, tpc := w.pc
    taddrTile := t.tile, priv := .s, exec := allLanes, pc := tvec, state := .handler
    unmarked := [], trap := none, wait := .nothing, hold := .none, stalled := none, eligibleSince := s.cc }

/-- A condition of kind W on wave `k` at its PC (R189, R298, R299): inside a transaction it aborts with reason FAULT;
otherwise the trap is entered, after the outstanding returns. -/
def State.takeTrap (s : State) (k : Nat) (t : Trap) : State :=
  let w := s.wave k
  if w.txn.isSome then s.abortTxn k 6 (t.cause.setWidth 16)
  else if w.pending.isEmpty then s.enterTrap k t
  else s.postTrap k t

/-- A trap whose TMASK is EXEC (R299). -/
def State.trapExec (s : State) (k : Nat) (cause : BitVec 7) (addr : VAddr := 0) : State :=
  s.takeTrap k { cause := cause, mask := (s.wave k).exec, addr := addr }

/-- The return from a trap (R130): mask, bank, privilege and PC. -/
def Wave.returned (w : Wave) : Wave := { w with exec := w.entryMask, priv := .u, pc := w.tpc, state := .ready }

/-- A wave waits for its outstanding returns and then issues the same instruction again (R58, R130, R136, R190). -/
def State.parkAgain (s : State) (k : Nat) : State := s.modWave k fun w => { w with state := .parked }

end Sys2Proof.Machine
end

