-- ==== Sys2Proof/Machine/Translate.lean ====
section
/-! DEFINITION. The two-stage walk, the TLB, windows and the resolution of an access (10 R303-R314, 01 R28-R30, 06 R170, R178,
R179). -/

namespace Sys2Proof.Machine

/-- What an access wants (R307). -/
inductive AccessKind where
  | load | store | fetch
deriving DecidableEq, Repr, Inhabited

/-- Why a walk or a check fails: the causes of R307, and table entries that read as uncorrectable (R354). -/
inductive WalkErr where
  | pageFault | permission | format | stage2 | fetchFault | peer | shareLost
  | badEntry1 | badEntry2
deriving DecidableEq, Repr, Inhabited

/-! ### Table entries (R304-R306) -/

/-- Page bytes of a SIZE code (R304). -/
def pageBytes (size : Nat) : Nat :=
  match size with
  | 0 => 2 ^ 16 | 1 => 2 ^ 21 | 2 => 2 ^ 26 | 3 => 2 ^ 31 | _ => 2 ^ 35

/-- Whether SIZE is allowed at a level (R303). -/
def sizeAt (level size : Nat) : Bool :=
  match level with
  | 2 => size == 3 || size == 4
  | 3 => size == 0 || size == 1 || size == 2
  | _ => false

/-- OA of an entry, as an address. -/
def oaOf (e : Nat) : Nat := bits e 47 16 * 2 ^ 16

/-- Whether a valid entry raises PT_FORMAT (R306). -/
def badFormat (stage level e : Nat) : Bool :=
  let reserved := bits e 15 12 != 0 || (stage == 2 && bits e 47 42 != 0)
  if bitAt e 1 then reserved || bits e 11 2 != 0 || level == 3
  else reserved || level == 1 || !sizeAt level (bits e 4 2) || oaOf e % pageBytes (bits e 4 2) != 0
    || (stage == 2 && bits e 11 7 != 0)

/-- The index of a level in a stage's table (R303). -/
def tableIndex (stage level a : Nat) : Nat :=
  match level with
  | 1 => if stage = 1 then bits a 55 42 else bits a 47 42
  | 2 => bits a 41 29
  | _ => bits a 28 16

/-- The entry at a system physical address, or none where a byte of it is uncorrectable (R333). -/
def State.readEntry (s : State) (pa : Nat) : Option Nat :=
  if s.byteBad pa then none else some (Memory.num s.mem.home pa 8)

/-! ### The walks -/

/-- One stage's walk from a level's table, where `reach` turns a table's address into a system physical address: the leaf and
its page's bytes (R303-R306). -/
def walkFrom (s : State) (stage : Nat) (reach : Nat → Except WalkErr Nat) (a : Nat) : Nat → Nat → Nat → Except WalkErr Nat
  | 0, _, _ => .error .format
  | fuel + 1, level, table =>
    match reach (table + 8 * tableIndex stage level a) with
    | .error e => .error e
    | .ok pa =>
      match s.readEntry pa with
      | none => .error (if stage = 1 then .badEntry1 else .badEntry2)
      | some e =>
        if !bitAt e 0 then .error (if stage = 1 then .pageFault else .stage2)
        else if badFormat stage level e then .error .format
        else if bitAt e 1 then walkFrom s stage reach a fuel (level + 1) (oaOf e)
        else .ok e

/-- Output address of a leaf for an input address. -/
def leafOut (e a : Nat) : Nat := oaOf e + a % pageBytes (bits e 4 2)

/-- Stage 2: the leaf for an IPA. A leaf that reaches beyond local memory counts as invalid (R372). -/
def State.walk2 (s : State) (root ipa : Nat) : Except WalkErr Nat :=
  match walkFrom s 2 .ok ipa 3 1 root with
  | .error e => .error e
  | .ok e =>
    let pa := oaOf e % 2 ^ 42
    if !s.isPeer pa && 0x3C00000000 < pa % 2 ^ 40 + pageBytes (bits e 4 2) then .error .stage2 else .ok e

/-- Stage 2 as the map of addresses. -/
def State.xlate2 (s : State) (root ipa : Nat) : Except WalkErr Nat :=
  match s.walk2 root ipa with
  | .error e => .error e
  | .ok e => .ok (leafOut e ipa % 2 ^ 42)

/-- Both leaves for a virtual address (R303). -/
structure Leaves where
  e1 : Nat
  e2 : Nat
  ipa : Nat
  pa : Nat
deriving DecidableEq, Repr, Inhabited

/-- The physical address behind a stage-2 output: on a peer, the one that the home's reply gives, or its refusal (R313, R314). -/
def State.homePa (s : State) (asid : BitVec 16) (va pa : Nat) : Except WalkErr Nat :=
  if !s.isPeer pa then .ok pa
  else match Config.peerFrame s.fab.peerEpoch (devOf pa) asid.toNat (va / 65536) with
    | none => .error .peer
    | some f => .ok (devOf pa * 2 ^ 40 + f % 2 ^ 24 * 65536 + va % 65536)

/-- The two-stage walk of a context (R303); without S1ROOT every walk meets an invalid entry. -/
def State.walk (s : State) (c va : Nat) : Except WalkErr Leaves :=
  let x := s.ctx c
  match x.s1root with
  | none => .error .pageFault
  | some root =>
    match walkFrom s 1 (s.xlate2 x.s2root) va 3 1 root with
    | .error e => .error e
    | .ok e1 =>
      let ipa := leafOut e1 va
      match s.walk2 x.s2root ipa with
      | .error e => .error e
      | .ok e2 => (s.homePa x.asid va (leafOut e2 ipa % 2 ^ 42)).map fun pa => { e1 := e1, e2 := e2, ipa := ipa, pa := pa }

/-- The combined translation of a page (R309). -/
def State.entryOf (s : State) (asid : BitVec 16) (va : Nat) (l : Leaves) : TlbEntry :=
  let g := bits l.e1 11 8
  { asid := asid, vpage := va / 65536, ppage := l.pa / 65536, ipage := l.ipa / 65536
    w1 := bitAt l.e1 5, w2 := bitAt l.e2 5, x1 := bitAt l.e1 6, x2 := bitAt l.e2 6, u := bitAt l.e1 7
    ghusk := g, allowed := bitAt l.e2 (48 + g), peer := s.isPeer l.pa }

/-- The translation that a core uses for an address: its TLB's, or the walk's (R309). -/
def State.lookupPage (s : State) (c core va : Nat) : Except WalkErr TlbEntry :=
  let asid := (s.ctx c).asid
  match (s.core core).tlb.find? (fun e => e.asid == asid && e.vpage == va / 65536) with
  | some e => .ok e
  | none => (s.walk c va).map (s.entryOf asid va)

/-- The device husk of an access (R308). -/
def State.deviceHusk (s : State) (c : Nat) (e : TlbEntry) : Nat :=
  if e.allowed then (s.ctx c).huskMap.getD e.ghusk 0 else 0

/-- Whether a local line's husk has no share left in its home bank (R370). -/
def State.shareLost (s : State) (h pa : Nat) : Bool :=
  let bank := s.homeBank h pa
  let owner (i : Nat) : Share := lookupD (.husk 0) s.fab.shareMap (bank, i)
  !((List.range 16).any fun i => owner i == .husk h)

/-- The port of a peer request (R387): the lowest of the mask before the PA is known, then one that the PA picks. -/
def State.peerPort (s : State) (dev : Nat) (pa : Option Nat) : Option Nat :=
  let l := (List.range 3).filter fun i => (s.fab.routes.getD dev 0).getLsbD i
  match pa with
  | none => l.head?
  | some a => l[(bits a 15 8 ^^^ bits a 23 16) % l.length]?

/-- Whether a peer answers a request: it is not dead, and the request's port has not failed (R387, R416, R417). -/
def State.peerUp (s : State) (dev : Nat) (pa : Option Nat) : Bool :=
  !s.fab.deadPeers.contains (BitVec.ofNat 2 dev) && (s.peerPort dev pa).any fun p => (s.fab.ports.getD p {}).state != 3

/-- The number of an access kind for a peer's permission. -/
def AccessKind.code : AccessKind → Nat
  | .load => 0
  | .store => 1
  | .fetch => 2

/-- The permission of an access at an address of a translated page (R307, R314, R370). -/
def State.permit (s : State) (c : Nat) (kind : AccessKind) (u : Bool) (e : TlbEntry) (va : Nat) : Option WalkErr :=
  let pa := e.ppage * 65536 + va % 65536
  if e.peer then
    (if !s.peerUp (devOf pa) (some pa) || !Config.peerPermits s.fab.peerEpoch (devOf pa) e.asid.toNat e.vpage kind.code then some .peer
     else match s.remoteHusk with
      | some h => if s.shareLost h pa then some .shareLost else none
      | none => none)
  else if kind == .store && !e.w2 then some .stage2
  else if kind == .fetch && !e.x2 then some .stage2
  else if u && !e.u then some .permission
  else if kind == .store && !e.w1 then some .permission
  else if kind == .fetch && !e.x1 then some .fetchFault
  else if s.shareLost (s.deviceHusk c e) pa then some .shareLost
  else none

/-- The cause code of an error for an access (R122, R307). -/
def WalkErr.cause (kind : AccessKind) : WalkErr → BitVec 7
  | .pageFault => if kind = .fetch then 0x16 else 0x12
  | .permission => if kind = .fetch then 0x16 else 0x13
  | .format => 0x17
  | .stage2 => 0x18
  | .fetchFault => 0x16
  | .peer => 0x19
  | .shareLost => 0x15
  | .badEntry1 => 0x41
  | .badEntry2 => 0x41

/-- The translation of the page at an address: the TLB entry, or the error of the walk or of the permission check. -/
def State.page (s : State) (c core : Nat) (kind : AccessKind) (u : Bool) (va : Nat) : Except WalkErr TlbEntry :=
  match s.lookupPage c core va with
  | .error e => .error e
  | .ok e =>
    match s.permit c kind u e va with
    | some x => .error x
    | none => .ok e

/-- The husk of an access enters the command processor's frame table, where the frame has none yet: a frame keeps its one device
husk (R366). -/
def State.noteFrame (s : State) (c : Nat) (e : TlbEntry) : State :=
  let h := s.deviceHusk c e
  if e.peer || h = s.huskOf (e.ppage * 65536) || s.cp.frameHusk.any (fun f => f.1 == e.ppage) then s
  else { s with cp := { s.cp with frameHusk := assign s.cp.frameHusk e.ppage h } }

/-- A core's TLB takes a translation, and the command processor's frame table its husk (R309, R366). -/
def State.fillTlb (s : State) (c core : Nat) (e : TlbEntry) : State :=
  (s.modCore core fun x =>
    { x with tlb := e :: x.tlb.filter fun y => !(y.asid == e.asid && y.vpage == e.vpage) }).noteFrame c e

/-! ### Bytes of lanes -/

/-- One lane's access: its lane number, virtual address as 64-bit sum, and the system physical address of each byte where a
window has resolved it. -/
structure LaneReq where
  lane : Nat
  va : Nat
  /-- window path (R29): the physical address of byte j, or none on the translation path -/
  direct : List (Option Nat)
deriving DecidableEq, Repr, Inhabited

/-- A lane's outcome: the physical address of each byte, or its cause (R178). -/
abbrev LaneRes := Except WalkErr (List Nat)

/-- Rank of a cause in the order of R178 and R298; ADDR_RANGE and ATOMIC_ALIGN are checked apart. -/
def WalkErr.rank : WalkErr → Nat
  | .pageFault | .format | .stage2 | .badEntry1 | .badEntry2 | .fetchFault => 2
  | .permission => 3
  | .shareLost => 5
  | .peer => 6

/-- The first error of least rank in a list. -/
def worst (l : List WalkErr) : Option WalkErr := leastBy WalkErr.rank l

/-- The translation at an address in a table by 256-byte lines. -/
def pageAt (l : List (Nat × Except WalkErr TlbEntry)) (va : Nat) : Except WalkErr TlbEntry :=
  match l.find? (fun e => e.1 == va / 256) with
  | some e => e.2
  | none => .error .pageFault

/-- The bytes of a lane on the translation path: byte number and virtual address. -/
def LaneReq.paged (r : LaneReq) : List (Nat × Nat) :=
  ((List.range r.direct.length).filter fun j => (r.direct.getD j none).isNone).map fun j => (j, (r.va + j) % 2 ^ 64)

/-- The outcome of a lane, from the translations of its pages. -/
def LaneReq.resolve (r : LaneReq) (pages : List (Nat × Except WalkErr TlbEntry)) : LaneRes :=
  let errs := r.paged.filterMap fun b => match pageAt pages b.2 with
    | .error e => some e
    | .ok _ => none
  match worst errs with
  | some e => .error e
  | none => .ok ((List.range r.direct.length).map fun j =>
      match r.direct.getD j none with
      | some pa => pa
      | none => match pageAt pages ((r.va + j) % 2 ^ 64) with
        | .ok e => e.ppage * 65536 + (r.va + j) % 65536
        | .error _ => 0)

/-! ### Windows (R28-R30, R179, R310) -/

/-- The bytes from an address to the end of both pages that map it (R179). -/
def Leaves.reach (l : Leaves) (va : Nat) : Nat :=
  let p1 := pageBytes (bits l.e1 4 2)
  let p2 := pageBytes (bits l.e2 4 2)
  min (p1 - va % p1) (p2 - l.ipa % p2)

/-- Whether the stage-2 leaf denies the stage-1 leaf's GHUSK (R308). -/
def Leaves.denies (l : Leaves) : Bool := !bitAt l.e2 (48 + bits l.e1 11 8)

/-- A window refilled from its VBASE, where the walk succeeds (R310). -/
def State.refill (s : State) (c : Nat) (w : Window) : Window :=
  match s.walk c w.vbase.toNat with
  | .error _ => w
  | .ok l =>
    { w with limit := BitVec.ofNat 36 (min w.limit.toNat (l.reach w.vbase.toNat))
             wr := w.wr && bitAt l.e1 5 && bitAt l.e2 5
             pbase := BitVec.ofNat 40 l.pa, dev := BitVec.ofNat 2 (devOf l.pa), peer := s.isPeer l.pa
             ghusk := BitVec.ofNat 4 (bits l.e1 11 8), valid := true, denied := !s.isPeer l.pa && l.denies }

/-- Window `n` of a wave's group. -/
def State.window (s : State) (w : Wave) (n : Nat) : Window := (s.group w.group).windows.getD n {}

/-- An access at byte offset `o` through a window takes the window path (R29, R176). -/
def Window.direct (w : Window) (store : Bool) (o : Nat) : Bool := o < w.limit.toNat && w.valid && (!store || w.wr)

/-- The physical address of an offset inside a window. -/
def Window.pa (w : Window) (o : Nat) : Nat := w.dev.toNat * 2 ^ 40 + (w.pbase.toNat + o) % 2 ^ 40

/-- The access of a lane of `n` bytes at a 64-bit offset through a window (R29). -/
def Window.lane (w : Window) (store : Bool) (lane o n : Nat) : LaneReq :=
  { lane := lane, va := (w.vbase.toNat + o) % 2 ^ 64
    direct := (List.range n).map fun j =>
      let b := (o + j) % 2 ^ 64
      if w.direct store b then some (w.pa b) else none }

/-- The access of a lane at an address. -/
def plainLane (lane va n : Nat) : LaneReq := { lane := lane, va := va, direct := List.replicate n none }

/-- Whether an offset of the lanes makes an invalid window refill (R29). -/
def Window.wantsRefill (w : Window) (offsets : List Nat) : Bool := !w.valid && offsets.any fun o => o < w.limit.toNat

/-- ADDR_RANGE (R170): some byte's address has bits [63:56] set, on the translation path. -/
def LaneReq.outOfRange (r : LaneReq) : Bool := r.paged.any fun b => 2 ^ 56 ≤ b.2

/-- Whether the husk that serves a window's byte has lost its home bank (R370). -/
def State.lineLost (s : State) (pa : Nat) : Bool :=
  if s.isPeer pa then s.remoteHusk.any fun h => s.shareLost h pa else s.shareLost (s.huskOf pa) pa

/-- A byte reached through a window lies in a lost bank, or is answered by a peer that is gone (R178, R370, R387). -/
def State.directFault (s : State) (r : LaneReq) : Option WalkErr :=
  let pas := r.direct.filterMap id
  if pas.any s.lineLost then some .shareLost
  else if pas.any fun pa => s.isPeer pa && !s.peerUp (devOf pa) (some pa) then some .peer
  else none

/-- What a set of lane accesses gives: each lane's fault or bytes, and the pages translated on the way. -/
structure Resolved where
  faults : List (Nat × BitVec 7 × Nat)
  lanes : List (Nat × List Nat)
  pages : List TlbEntry
  /-- a walk read an uncorrectable stage-2 entry, which is uncontained (R354) -/
  fatal : Bool
deriving DecidableEq, Repr, Inhabited

/-- The cause of one lane (R178): ADDR_RANGE, then translation, then ATOMIC_ALIGN (`align` is the width, 1 for none), then the
rest. -/
def laneCause (s : State) (kind : AccessKind) (align : Nat) (pages : List (Nat × Except WalkErr TlbEntry)) (r : LaneReq) :
    Except (BitVec 7) (List Nat) :=
  if r.outOfRange then .error 0x10
  else
    match r.resolve pages with
    | .error e => if 4 < e.rank && r.va % align != 0 then .error 0x14 else .error (e.cause kind)
    | .ok l =>
      if r.va % align != 0 then .error 0x14
      else match s.directFault r with
        | some e => .error (e.cause kind)
        | none => .ok l

/-- All lanes of an access resolved (R29, R170, R178). -/
def State.resolve (s : State) (w : Wave) (kind : AccessKind) (align : Nat) (reqs : List LaneReq) : Resolved :=
  let core := s.coreOf w
  let lines := (reqs.flatMap fun r => if r.outOfRange then [] else r.paged.map fun b => b.2 / 256).eraseDups
  let pages := lines.map fun p => (p, s.page w.ctx core kind (w.priv = .u) (p * 256))
  let outs := reqs.map fun r => (r, laneCause s kind align pages r)
  { faults := outs.filterMap fun e => match e.2 with
      | .error c => some (e.1.lane, c, e.1.va)
      | .ok _ => none
    lanes := outs.filterMap fun e => match e.2 with
      | .ok l => some (e.1.lane, l)
      | .error _ => none
    pages := (pages.filterMap fun e => match e.2 with
      | .ok t => some t
      | .error _ => none).eraseDups
    fatal := pages.any fun e => match e.2 with
      | .ok _ => false
      | .error x => x == .badEntry2 }

/-- Accesses of a context that use husk 0 because their GHUSK is denied are counted (R308). -/
def State.countDenials (s : State) (c n : Nat) : State :=
  if n = 0 then s else s.modCtx c fun x => { x with huskDenials := x.huskDenials + n }

/-- Pages of an access whose GHUSK the stage-2 leaf denies (R308). -/
def denials (pages : List TlbEntry) : Nat := pages.countP fun e => !e.peer && !e.allowed

/-- The translations an access made enter the core's TLB; a denied husk is counted (R308, R309). -/
def State.keepPages (s : State) (w : Wave) (pages : List TlbEntry) : State :=
  (pages.foldl (fun s e => s.fillTlb w.ctx (s.coreOf w) e) s).countDenials w.ctx (denials pages)

/-- The trap of a set of faulting lanes (R178): the cause of the lowest lane, every lane with that cause, and the lowest
lane's address; `exec` replaces the mask for an instruction that acts once per wave. -/
def trapOf (faults : List (Nat × BitVec 7 × Nat)) (exec : Option Mask) : Option Trap :=
  match leastBy (fun e => e.1) faults with
  | none => none
  | some f =>
    let lanes := (faults.filter fun e => e.2.1 == f.2.1).map Prod.fst
    some { cause := f.2.1, mask := exec.getD (maskOf lanes.contains), addr := BitVec.ofNat 56 f.2.2 }

/-- A stage-2 fault is reported to the command processor first (R312); an uncorrectable stage-2 entry is uncontained, and a
stage-1 entry MEM_ERROR (R354); anything else is a trap, HUSK_SHARE_LOST with a record (R370). -/
def State.raise (s : State) (k : Nat) (t : Trap) : State :=
  if t.cause = 0x18 then s.block k (.stage2 t) none
  else if t.cause = 0x15 && (s.wave k).txn.isNone then
    (s.record { s.waveRec k 0x0C 2 1 with cause := 0x15, vaddr := t.addr.toNat }).takeTrap k t
  else s.takeTrap k t

end Sys2Proof.Machine
end

