-- ==== Sys2Proof/Machine/Cache.lean ====
section
/-! DEFINITION. Fabric requests, sector errors, the remote data cache and the L1 data caches; release and acquire
(08 R249-R257, R269, 06 R171, R180-R182, 11 R330-R333, R354, 12 R358, R371, R372, R378). -/

namespace Sys2Proof.Machine

/-- Who sends a request: core, context and slack class (R34, R378), and whether in U-mode (R420). -/
structure Asker where
  core : Nat
  ctx : Nat
  cls : Nat
  umode : Bool := false
  /-- the SLACK of a request that no instruction issues (R378) -/
  fixed : Option Nat := none
  /-- an atomic's or a commit's request, which allocates under every policy (R365) -/
  alloc : Bool := false
deriving DecidableEq, Repr, Inhabited

/-- Who sends what no instruction issues: an eviction's write-back, a sweep, the scrubber (R378). -/
def idleAsker (core ctx : Nat) : Asker := { core := core, ctx := ctx, cls := 0, fixed := some 1023 }

/-- Initial SLACK of a class in a context (R34). -/
def State.slackInit (s : State) (c cls : Nat) : Nat := ((s.ctx c).slacktab.getD cls 0).toNat % 1024

/-- HARD of a class in a context (R34). -/
def State.slackHard (s : State) (c cls : Nat) : Bool := ((s.ctx c).slacktab.getD cls 0).getLsbD 15

/-- The LPDDR6 controller of a local address (R372). -/
def controllerOf (pa : Nat) : Nat :=
  bits pa 15 12 ^^^ bits pa 19 16 ^^^ bits pa 23 20 ^^^ bits pa 27 24 ^^^ bits pa 31 28 ^^^ bits pa 35 32 ^^^ bits pa 39 36

/-- The channel of a local address (R372). -/
def channelOf (pa : Nat) : Nat := 2 * controllerOf pa + bits pa 8 8

/-- A packet joins a queue of the fabric, which is made where it is missing; a queue becomes exhausted with an exhausted
packet (R380). -/
def Fabric.enqueue (f : Fabric) (kind num input cc : Nat) (p : Packet) : Fabric :=
  let here (q : PQueue) : Bool := q.kind == kind && q.num == num && q.input == input
  let stamp : Option Nat := if p.slack = 0 then some cc else none
  if f.queues.any here then
    { f with queues := f.queues.map fun q => if here q then { q with packets := q.packets ++ [p], stamp := q.stamp.or stamp } else q }
  else { f with queues := f.queues ++ [{ kind := kind, num := num, input := input, packets := [p], stamp := stamp }] }

/-- A request for a sector enters the injection queue of its source at the cluster's stop (R377, R378): it carries slack and
orders service, never values (R383). -/
def State.post (s : State) (a : Asker) (sec : Nat) (write : Bool) : State :=
  let p : Packet := { slack := a.fixed.getD (s.slackInit a.ctx a.cls), frac := 0, hard := a.fixed.isNone && s.slackHard a.ctx a.cls
                      cls := a.cls, owner := a.ctx, sec := sec, husk := s.lineHusk (64 * sec), write := write, arrived := s.cc
                      src := a.core / 4, umode := a.umode, alloc := a.alloc }
  let s := { s with fab := s.fab.enqueue 3 (a.core / 4) (a.core % 4) s.cc p }
  if (s.ctx a.ctx).fn = 0 then s.count a.ctx 0x0B (if write then 2 else 1) a.umode else s

/-- A request to another stop than a bank's: remote scratchpad (R177, R206), or a pod, whose launcher's stop the spec does not
place and which the model takes to be the asker's own (R237, log 42). -/
def State.postTo (s : State) (a : Asker) (dest : Nat) (write : Bool) : State :=
  let p : Packet := { slack := s.slackInit a.ctx a.cls, frac := 0, hard := s.slackHard a.ctx a.cls, cls := a.cls, owner := a.ctx
                      sec := 0, husk := 0, write := write, arrived := s.cc, src := a.core / 4, umode := a.umode, dest := some dest }
  { s with fab := s.fab.enqueue 3 (a.core / 4) (a.core % 4) s.cc p }

/-- A request that enters the fabric at an edge stop, whose place the spec does not give: it joins the network at the stop of the
line's home (R377, R378, log 42). -/
def State.postEdge (s : State) (slack owner sec : Nat) (write : Bool) (head : PeerHead := {}) : State :=
  let stop := s.nearSlice (64 * sec) / 4
  if s.isPeer (64 * sec) then s
  else
    let p : Packet := { slack := slack, frac := head.frac.toNat, hard := head.hard, cls := head.cls.toNat, owner := owner, sec := sec
                        husk := s.lineHusk (64 * sec), write := write, arrived := s.cc, src := stop }
    { s with fab := s.fab.enqueue 3 stop 4 s.cc p }

/-- What one stage's walk reads, in order: the entries of its tables, each behind what its translation reads (R303). -/
def walkReads (s : State) (stage : Nat) (inner : Nat → List Nat) (reach : Nat → Except WalkErr Nat) (a : Nat) : Nat → Nat → Nat → List Nat
  | 0, _, _ => []
  | fuel + 1, level, table =>
    let entry := table + 8 * tableIndex stage level a
    inner entry ++ match reach entry with
      | .error _ => []
      | .ok pa => pa :: match s.readEntry pa with
        | some e => if bitAt e 0 && bitAt e 1 && !badFormat stage level e then walkReads s stage inner reach a fuel (level + 1) (oaOf e) else []
        | none => []

/-- The table entries that the walk of an address reads, by system physical address (R303). -/
def State.walkPas (s : State) (c va : Nat) : List Nat :=
  let x := s.ctx c
  let second (ipa : Nat) : List Nat := walkReads s 2 (fun _ => []) .ok ipa 3 1 x.s2root
  match x.s1root with
  | none => []
  | some root =>
    walkReads s 1 second (s.xlate2 x.s2root) va 3 1 root ++
      match walkFrom s 1 (s.xlate2 x.s2root) va 3 1 root with
      | .ok e1 => second (leafOut e1 va)
      | .error _ => []

/-- The requests of a walk of an address, with the slack of the instruction served (R172, R378). -/
def State.postWalk (s : State) (a : Asker) (va : Nat) : State := (s.walkPas a.ctx va).foldl (fun s pa => s.post a (pa / 64) false) s

/-! ### Errors in memory sectors (R330, R350) -/

/-- The two error locations in SYND (R349). -/
def rsSynd (p : List (Nat × BitVec 8)) : Nat := (p.map Prod.fst).getD 0 0 + 256 * (p.map Prod.fst).getD 1 0

/-- A sector read from LPDDR6, by an access or a patrol: the decoder's correction is made and recorded (R330); an error it
does not see, or takes for another, leaves the data wrong. -/
def State.heal (s : State) (sec owner : Nat) : State :=
  match lookupD [] s.mem.symErrs sec with
  | [] => s
  | errs =>
    let pa := 64 * sec
    let wrong (s : State) (p : List (Nat × BitVec 8)) : State :=
      let fix := (residual errs p).map fun e => (pa + e.1, Memory.read s.mem.home (pa + e.1) ^^^ e.2)
      { s with mem := { s.mem with home := Memory.writeAll s.mem.home fix
                                   symErrs := s.mem.symErrs.filter fun e => e.1 != sec } }
    let r : Rec := { kind := 0x01, sev := 1, source := 0, context := owner, addr := pa
                     loc := 256 * channelOf pa + 65536 * controllerOf pa }
    match rsDecode errs with
    | .unseen => wrong s []
    | .corrects p => (wrong s p).record { r with synd := rsSynd p }
    | .uncorrectable => if s.mem.poison.contains sec then s else s.record { r with kind := 0x02, sev := 2 }

/-- A corrected error of an L2 line counts for its share (R369). -/
def State.noteShareErr (s : State) (sec : Nat) : State :=
  match (s.fab.l2.find? fun x => x.line == sec / 4) with
  | none => s
  | some x =>
    let errs := assign s.fab.shareErrs (x.bank, x.share) (s.cc :: lookupD [] s.fab.shareErrs (x.bank, x.share))
    { s with fab := { s.fab with shareErrs := errs } }

/-- A sector read in the L2: single wrong bits of a dirty line are corrected, a clean line is refetched, each with a record;
what a dirty line cannot correct stays (R332, R350). -/
def State.healL2 (s : State) (sec owner : Nat) : State :=
  let bad := (s.l2Words sec).filter fun w => !w.isEmpty
  if bad.isEmpty || s.l2Bad sec then s
  else
    let s := bad.foldl (fun s w => (s.record { kind := 0x03, sev := 1, source := 1, context := owner, addr := 64 * sec
                                               loc := 256 * s.slice (64 * sec), synd := w.headD 0 % 64 }).noteShareErr sec) s
    let keep := (lookupD [] s.mem.l2Errs (sec / 4)).filter fun b => b / 512 != sec % 4
    { s with mem := { s.mem with l2Errs := (assign s.mem.l2Errs (sec / 4) keep).filter fun e => !e.2.isEmpty } }

/-! ### Homes and the remote data cache -/

/-- The bytes of a sector at its home. -/
def State.homeSector (s : State) (sec : Nat) : List Byte := s.readHomeN (64 * sec) 64

/-- Bytes put into a sector's image at their offsets. -/
def mergeBytes (image : List Byte) (l : List (Nat × Byte)) : List Byte := l.foldl (fun x e => x.set (e.1 % 64) e.2) image

/-- A mask of bytes from offsets. -/
def byteMask (offsets : List Nat) : BitVec 64 := offsets.foldl (fun m o => m ||| (1#64 <<< o)) 0

/-- The dirty bytes of a sector's image: address and byte. -/
def dirtyBytes (sec : Nat) (data : List Byte) (dirty : BitVec 64) : List (Nat × Byte) :=
  ((List.range 64).filter dirty.getLsbD).map fun o => (64 * sec + o, data.getD o 0)

/-- An uncorrectable error in dirty data that is written back or evicted is charged to its owner (R325): a record, the
owner's launches end ABORTED, and the home is poisoned. -/
def State.charge (s : State) (source sec owner loc : Nat) : State :=
  let s := s.record { kind := 0x07, sev := 2, poison := true, cause := 0x43, source := source, context := owner, addr := 64 * sec, loc := loc }
  let s := (List.range s.launches.length).foldl (fun s l =>
    let x := s.launch l
    if x.ctx = owner && (x.state == .running || x.state == .finishing) then s.abortLaunch l else s) s
  { s with mem := { s.mem with poison := sec :: s.mem.poison.filter (· != sec) } }

/-- A dirty sector of the remote data cache is written back to the owning device (R371), or charged to its owner where it is
unreadable (R325). -/
def State.rdcWriteBack (s : State) (sec : Nat) : State :=
  match s.mem.rdc.find? (fun r => r.sec == sec && r.dirty != 0) with
  | none => s
  | some r =>
    let s := if s.l2Bad sec then s.charge 1 sec r.owner (256 * s.nearSlice (64 * sec)) else s.writeHome (dirtyBytes sec r.data r.dirty)
    { s with mem := { s.mem with rdc := s.mem.rdc.map fun x => if x.sec = sec then { x with dirty := 0, writers := [] } else x } }

/-- A sector leaves the remote data cache, its dirty bytes written back first. -/
def State.rdcDrop (s : State) (sec : Nat) : State :=
  let s := s.rdcWriteBack sec
  { s with mem := { s.mem with rdc := s.mem.rdc.filter fun x => x.sec != sec } }

/-- The ways of the remote data cache's sets that a line meets: those of the husk's shares in its home bank (R359, R371). -/
def State.rdcWays (s : State) (h sec : Nat) : Nat := 3 * (s.sharesOf (s.homeBank h (64 * sec)) (.husk h)).length

/-- Room for the line of a sector in its set of the remote data cache: the line that was used least recently leaves (R371,
log 8). -/
def State.rdcRoom (s : State) (h sec : Nat) : State :=
  let bank := s.homeBank h (64 * sec)
  let here (line : Nat) : Bool := line % 64 == sec / 4 % 64 && s.homeBank h (256 * line) == bank
  let lines := ((s.mem.rdc.map fun r => r.sec / 4).filter here).eraseDups
  if lines.contains (sec / 4) || lines.length < s.rdcWays h sec then s
  else match lines.getLast? with
    | none => s
    | some line => ((List.range 4).map fun i => 4 * line + i).foldl State.rdcDrop s

/-- The sectors of the FILL-aligned block of a sector that the remote data cache lacks (R364), the sector itself first. -/
def State.rdcMissing (s : State) (h sec : Nat) : List Nat :=
  let n := fillSectors (s.huskDef h).fill
  (sec :: ((List.range n).map fun i => sec / n * n + i).filter (· != sec)).filter fun x => !(s.mem.rdc.any fun r => r.sec == x)

/-- A sector enters the remote data cache, with those of its block that are read with it (R364, R371). -/
def State.rdcFill (s : State) (h owner sec : Nat) : State :=
  let s := s.rdcRoom h sec
  let new := (s.rdcMissing h sec).map fun x =>
    ({ sec := x, data := s.homeSector x, dirty := 0, epoch := s.mem.epoch, owner := owner } : RdcSector)
  { s with mem := { s.mem with rdc := new ++ s.mem.rdc } }

/-- A sector of the remote data cache as it is after a use: its clean bytes read again where they are not valid, and the
sector first in the order. -/
def State.rdcUse (s : State) (h owner sec : Nat) : RdcSector × State :=
  let s := if s.mem.rdc.any fun r => r.sec == sec then s else s.rdcFill h owner sec
  let r := (s.mem.rdc.find? fun r => r.sec == sec).getD
    { sec := sec, data := s.homeSector sec, dirty := 0, epoch := s.mem.epoch, owner := owner }
  (if r.filled then r
   else { r with data := mergeBytes (s.homeSector sec) (dirtyBytes sec r.data r.dirty), filled := true, epoch := s.mem.epoch }, s)

/-- A sector as the home at scopes 1 to 3 serves it (R269, R371), with the bytes that it cannot give; a clean sector of the
remote data cache with a wrong bit is dropped and read again (R332). -/
def State.nearRead (s : State) (a : Asker) (sec : Nat) : List Byte × BitVec 64 × State :=
  let stale := (s.l2Words sec).any (fun w => !w.isEmpty) && s.mem.rdc.any fun r => r.sec == sec && r.dirty == 0
  let s := ((s.post a sec false).heal sec a.ctx).healL2 sec a.ctx
  let bad := s.badBytes sec
  match (if bad = 0 && s.isPeer (64 * sec) then s.remoteHusk else none) with
  | none => (s.homeSector sec, bad, s)
  | some h =>
    let (r, s) := (if stale then s.rdcDrop sec else s).rdcUse h a.ctx sec
    let r := { r with readers := if r.readers.contains a.core then r.readers else a.core :: r.readers }
    (r.data, 0, { s with mem := { s.mem with rdc := r :: s.mem.rdc.filter fun x => x.sec != sec } })

/-- Bytes of one sector merged at the home of scopes 1 to 3 (R249, R269); a write of part of a sector reads it, which corrects
what is wrong (R331), and a write-through REMOTE husk forwards the bytes to the owning device (R365). -/
def State.nearWrite (s : State) (a : Asker) (sec : Nat) (l : List (Nat × Byte)) : State :=
  let s := s.post a sec true
  let mask := byteMask (l.map fun e => e.1 % 64)
  let s := if mask = BitVec.allOnes 64 then s else s.heal sec a.ctx
  match (if s.isPeer (64 * sec) then s.remoteHusk else none) with
  | none => s.writeHome l
  | some h =>
    let (r, s) := s.rdcUse h a.ctx sec
    let r := { r with data := mergeBytes r.data l, owner := a.ctx }
    let through := (s.huskDef h).policy == 1
    let r := if through then r
      else { r with dirty := r.dirty ||| mask, writers := if r.writers.contains a.core then r.writers else a.core :: r.writers }
    let s := if through then s.writeHome l else s
    { s with mem := { s.mem with rdc := r :: s.mem.rdc.filter fun x => x.sec != sec } }

/-! ### L1 data caches -/

/-- A sector of a core's L1. -/
def Core.sector (c : Core) (sec : Nat) : Option L1Sector := c.l1.find? (fun x => x.sec == sec)

/-- A core's L1 with one sector replaced where it stands. -/
def Core.setSector (c : Core) (x : L1Sector) : Core :=
  { c with l1 := c.l1.map fun y => if y.sec = x.sec then x else y }

/-- The bytes of a sector that may be read: dirty ones, the clean ones where they were filled, and those that a write-back
left clean (R180, R249). -/
def L1Sector.valid (x : L1Sector) : BitVec 64 := if x.filled then BitVec.allOnes 64 else x.dirty ||| x.clean

/-- The wrong bits of an L1 sector, by word. -/
def State.l1Bits (s : State) (core sec : Nat) : List (Nat × List Nat) :=
  (s.mem.l1Errs.filter fun e => e.1 == core && e.2.1 / 8 == sec).map fun e => (e.2.1 % 8, e.2.2)

/-- The errors of a sector that left an L1 are gone. -/
def State.clearL1Errs (s : State) (core sec : Nat) : State :=
  if s.mem.l1Errs.isEmpty then s else
  { s with mem := { s.mem with l1Errs := s.mem.l1Errs.filter fun e => !(e.1 == core && e.2.1 / 8 == sec) } }

/-- A single wrong bit of an L1 word: the record of its correction or of its refetch (R332, R350). -/
def State.l1Corrected (s : State) (core : Nat) (x : L1Sector) (e : Nat × List Nat) : State :=
  s.record { kind := 0x03, sev := 1, source := 2, context := x.owner, addr := 64 * x.sec + 8 * e.1
             loc := core / 4 + 64 * (core % 4), synd := e.2.headD 0 }

/-- The bytes of the words of a sector with two wrong bits or more. -/
def l1BadBytes (bits : List (Nat × List Nat)) : BitVec 64 :=
  byteMask ((bits.filter fun e => 2 ≤ e.2.length).flatMap fun e => (List.range 8).map (8 * e.1 + ·))

/-- An L1 sector is accessed, with some bytes written: wrong bits of a clean sector drop the copy, single ones of a dirty
sector are corrected, words written whole are good again, and the rest stays (R332). -/
def State.meetL1 (s : State) (core : Nat) (x : L1Sector) (written : BitVec 64) : Option L1Sector × State :=
  match s.l1Bits core x.sec with
  | [] => (some x, s)
  | bits =>
    if x.dirty = 0 then
      let s := bits.foldl (fun s e => s.l1Corrected core x e) (s.clearL1Errs core x.sec)
      (none, s.modCore core fun c => { c with l1 := c.l1.filter fun y => y.sec != x.sec })
    else
      let whole (e : Nat × List Nat) : Bool := (written.toNat >>> (8 * e.1)) % 256 == 255
      let left := bits.filter fun e => !whole e && decide (2 ≤ e.2.length)
      let s := (bits.filter fun e => !whole e && decide (e.2.length < 2)).foldl (fun s e => s.l1Corrected core x e) (s.clearL1Errs core x.sec)
      (some x, { s with mem := { s.mem with l1Errs := left.map (fun e => (core, 8 * x.sec + e.1, e.2)) ++ s.mem.l1Errs } })

/-- The dirty bytes of a sector go to its home (R249): corrected on the way, or charged when uncorrectable (R325, R332). -/
def State.writeBackSector (s : State) (a : Asker) (x : L1Sector) : State :=
  if x.dirty = 0 then s
  else
    let bits := s.l1Bits a.core x.sec
    let s := s.clearL1Errs a.core x.sec
    let loc := a.core / 4 + 64 * (a.core % 4)
    if bits.any fun e => 2 ≤ e.2.length then s.charge 2 x.sec x.owner loc
    else
      (bits.foldl (fun s e => s.l1Corrected a.core x e) s).nearWrite a x.sec (dirtyBytes x.sec x.data x.dirty)

/-- The distinct lines of a core's L1 in the set of a line, most recent first (R358). -/
def Core.setLines (c : Core) (line : Nat) : List Nat := ((c.l1.map fun x => x.sec / 4).filter fun l => l % 64 == line % 64).eraseDups

/-- A line of a core's L1 is at the protected end of its set's order. -/
def Core.protects (c : Core) (line : Nat) : Bool := c.l1.any fun x => x.sec / 4 == line && x.prot

/-- The line of a full set that leaves it: the last that is not protected, or the last (R171, R358, log 8). -/
def Core.victim (c : Core) (lines : List Nat) : Nat := ((lines.filter fun l => !c.protects l).getLast?).getD (lines.getLastD 0)

/-- Room for a line in its set of 12 ways: one line of the set is written back and dropped (R358, log 8). -/
def State.makeRoom (s : State) (core line : Nat) : State :=
  let l := (s.core core).setLines line
  if l.contains line || l.length < 12 then s
  else
    let victim := (s.core core).victim l
    let gone := (s.core core).l1.filter fun x => x.sec / 4 == victim
    let s := s.modCore core fun c => { c with l1 := c.l1.filter fun x => x.sec / 4 != victim }
    gone.foldl (fun s x => s.writeBackSector (idleAsker core x.owner) x) s

/-- A sector's protection after a use of its line: hint 3 gives it and hint 1 takes it (R171, R358). -/
def L1Sector.hinted (hint : Nat) (x : L1Sector) : L1Sector := { x with prot := hint == 3 || (hint != 1 && x.prot) }

/-- A line moves to the front of the order, or to its end for hint 1; hint 3 protects it (R171, R358). -/
def Core.touch (c : Core) (line hint : Nat) : Core :=
  let here := (c.l1.filter fun x => x.sec / 4 == line).map (L1Sector.hinted hint)
  let rest := c.l1.filter fun x => x.sec / 4 != line
  { c with l1 := if hint = 1 then rest ++ here else here ++ rest }

/-- A sector enters a core's L1 (R171, R249). -/
def State.putSector (s : State) (core hint : Nat) (x : L1Sector) : State :=
  let s := s.makeRoom core (x.sec / 4)
  s.modCore core fun c => ({ c with l1 := x :: c.l1.filter fun y => y.sec != x.sec } : Core).touch (x.sec / 4) hint

/-- The L1's own copy of a sector, if any, after the errors that an access with some bytes written meets in it. -/
def State.ownSector (s : State) (core sec : Nat) (written : BitVec 64) : Option L1Sector × State :=
  match (s.core core).sector sec with
  | none => (none, s)
  | some x => s.meetL1 core x written

/-- A sector's bytes for a load of the bytes in `need`, with those that cannot be read (R333): a hit, or the home's bytes under
the dirty ones; hint 2 leaves the L1 unchanged (R171, R249). -/
def State.loadSector (s : State) (a : Asker) (hint : Nat) (sec : Nat) (need : BitVec 64) : List Byte × BitVec 64 × State :=
  match s.ownSector a.core sec 0 with
  | (some x, s) =>
    let own := l1BadBytes (s.l1Bits a.core sec)
    if hint ≠ 2 && need &&& x.valid == need then (x.data, own, s.modCore a.core fun c => c.touch (sec / 4) hint)
    else
      let (home, bad, s) := (s.count a.ctx 0x07 1 a.umode).nearRead a sec
      let merged := mergeBytes home (dirtyBytes sec x.data x.dirty)
      (merged, (bad &&& ~~~x.dirty) ||| (own &&& x.dirty),
        if hint = 2 || bad != 0 then s else s.putSector a.core hint { x with data := merged, filled := true, epoch := s.mem.epoch })
  | (none, s) =>
    let (home, bad, s) := (s.count a.ctx 0x07 1 a.umode).nearRead a sec
    (home, bad,
      if hint = 2 || bad != 0 then s
      else s.putSector a.core hint { sec := sec, data := home, dirty := 0, filled := true, epoch := s.mem.epoch, owner := a.ctx })

/-- A store of bytes of one sector into a core's L1, or to the home under hint 2 with a copy in the L1 updated (R171, R250). -/
def State.storeSector (s : State) (a : Asker) (hint sec : Nat) (l : List (Nat × Byte)) : State :=
  let mask := byteMask (l.map fun e => e.1 % 64)
  let (x, s) := s.ownSector a.core sec mask
  if hint = 2 then
    let s := match x with
      | some x => s.modCore a.core fun c =>
          c.setSector { x with data := mergeBytes x.data l, dirty := x.dirty &&& ~~~mask, clean := x.clean ||| mask }
      | none => s
    s.nearWrite a sec l
  else
    let x := x.getD { sec := sec, data := zeros 64, dirty := 0, filled := false, epoch := s.mem.epoch, owner := a.ctx }
    s.putSector a.core hint { x with data := mergeBytes x.data l, dirty := x.dirty ||| mask, owner := a.ctx }

/-- The sectors of a list of written bytes, in order of first appearance, with their bytes. -/
def bySector (l : List (Nat × Byte)) : List (Nat × List (Nat × Byte)) :=
  ((l.map fun e => sectorOf e.1).eraseDups).map fun sec => (sec, l.filter fun e => sectorOf e.1 == sec)

/-- A store's bytes performed at the core (R250). -/
def State.storeAtCore (s : State) (a : Asker) (hint : Nat) (l : List (Nat × Byte)) : State :=
  (bySector l).foldl (fun s e => s.storeSector a hint e.1 e.2) s

/-- A store's bytes performed at their homes. -/
def State.storeAtHome (s : State) (a : Asker) (l : List (Nat × Byte)) : State :=
  (bySector l).foldl (fun s e => s.nearWrite a e.1 e.2) s

/-- The writer index of the lines of some addresses homed here: the largest GRPID that has committed a write (R392). -/
def State.markWriters (s : State) (l grpid : Nat) (pas : List Nat) : State :=
  let lines := ((pas.filter fun p => !s.isPeer p).map lineOf).eraseDups
  s.modLaunch l fun x => { x with writers := lines.foldl (fun t line => assign t line (max grpid (lookupD 0 t line))) x.writers }

/-! ### Write-back, invalidation, release and acquire -/

/-- CLEAN of one sector: its dirty bytes go home and it stays valid and clean (R180). -/
def State.cleanSector (s : State) (a : Asker) (sec : Nat) : State :=
  match (s.core a.core).sector sec with
  | none => s
  | some x =>
    let s := s.writeBackSector a x
    if x.dirty = 0 then s
    else s.modCore a.core fun c => { c with l1 := c.l1.map fun (y : L1Sector) =>
      if y.sec = sec then { y with dirty := 0, clean := y.clean ||| y.dirty } else y }

/-- The sectors of a core's L1 that hold dirty bytes. -/
def Core.dirtySectors (c : Core) : List Nat := (c.l1.filter fun x => x.dirty != 0).map L1Sector.sec

/-- A sector's clean bytes are invalidated; its dirty bytes stay (R249). -/
def Core.dropClean (c : Core) (p : L1Sector → Bool) : Core :=
  let keep (x : L1Sector) : Option L1Sector :=
    if p x then (if x.dirty = 0 then none else some { x with filled := false, clean := 0 }) else some x
  { c with l1 := c.l1.filterMap keep }

/-- INVAL of one sector (R180): CLEAN, then the copy goes. -/
def State.invalSector (s : State) (a : Asker) (sec : Nat) : State :=
  (s.cleanSector a sec).modCore a.core fun c => { c with l1 := c.l1.filter fun x => x.sec != sec }

/-- The release part of R182: every dirty sector of the core's L1 goes to its home, at scope 4 also the dirty sectors of the
remote data cache to their owners; the sectors written back. -/
def State.releaseCore (s : State) (a : Asker) (scope : Scope) : List Nat × State :=
  let l := (s.core a.core).dirtySectors
  let s := l.foldl (fun s sec => s.cleanSector a sec) s
  if scope = .system then
    (l, ((s.mem.rdc.filter fun r => r.dirty != 0 && r.writers.contains a.core).map RdcSector.sec).foldl (fun s sec => s.rdcWriteBack sec) s)
  else (l, s)

/-- The slices at which a deposit or an acquire of a line acts at a scope (R254, R269). -/
def State.depositSlices (s : State) (pa : Nat) (scope : Scope) : List Nat :=
  if s.isPeer pa && scope = .system then [s.nearSlice pa, s.slice pa].eraseDups else [s.nearSlice pa]

/-- A release that names a line (R182, R254, R255): write-back, deposit with the wave's atomic set, which is cleared. -/
def State.releaseLine (s : State) (k : Nat) (a : Asker) (scope : Scope) (pa : Nat) : State :=
  let (l, s) := s.releaseCore a scope
  let x := sigOf l ||| (s.wave k).atomicSet
  let s := (s.depositSlices pa scope).foldl (fun s sl => s.depositAt sl (lineOf pa) x) s
  s.modWave k fun w => { w with atomicSet := 0 }

/-- The acquire part without LINE (R182): every clean sector of the L1, and at scope 4 those of the remote data cache lines
that the core has read. -/
def State.acquireAll (s : State) (core : Nat) (scope : Scope) : State :=
  let s := s.modCore core fun c => c.dropClean fun _ => true
  if scope = .system then
    let lines := (s.mem.rdc.filter fun r => r.readers.contains core).map fun r => r.sec / 4
    { s with mem := { s.mem with rdc := dropRdc (fun r => lines.contains (r.sec / 4)) s.mem.rdc } }
  else s

/-- The acquire part with LINE (R182, R256, R269): the clean sectors that match the line's signature, or all of them when it
is saturated. -/
def State.acquireLine (s : State) (core : Nat) (scope : Scope) (pa : Nat) : State :=
  let slices := if scope = .system && s.isPeer pa then [s.slice pa] else s.nearSlice pa :: s.oldSlices pa
  match s.signatureAt slices (lineOf pa) with
  | none => s.acquireAll core scope
  | some x =>
    let s := s.modCore core fun c => c.dropClean fun y => sigMatch x y.sec
    if scope = .system then
      { s with mem := { s.mem with rdc := dropRdc (fun r => sigMatch x r.sec) s.mem.rdc } }
    else s

/-- A store's bytes at the core, or at the home as one event (R171, R250, R261). -/
def State.storePlain (s : State) (a : Asker) (hint : Nat) (event : Bool) (bytes : List (Nat × Byte)) : State :=
  if event then
    let secs := (bytes.map fun e => sectorOf e.1).eraseDups
    (secs.foldl (fun s sec => s.cleanSector a sec) s).storeAtCore a 2 bytes
  else s.storeAtCore a hint bytes

/-! ### What a wave's load returns -/

/-- Bytes that stand over memory for wave `k`, latest first: its own held stores in a deterministic launch (R390), and on a
checked pair the check buffer's entries of its core (R339). -/
def State.overlay (s : State) (k : Nat) : List (Nat × Byte) :=
  let w := s.wave k
  let own := w.effects.flatMap fun e => match e with
    | .store _ l => l
    | _ => []
  let core := s.coreOf w
  let buffered := ((s.pair (s.pairOf w)).buffer.filter fun e => e.core == core).flatMap CheckEntry.bytes
  (buffered ++ own).reverse

/-- Bytes that other waves' copies have overwritten but that this wave still reads as they were (R393). -/
def State.veiled (s : State) (k : Nat) : List (Nat × Byte) :=
  (s.launches.flatMap fun l => l.veils).flatMap fun v => if v.wave = k then [] else v.old

/-- The last byte that a list gives an address, where the list has the latest first. -/
def overlayByte (l : List (Nat × Byte)) (pa : Nat) : Option Byte := (l.find? (fun e => e.1 == pa)).map Prod.snd

/-- The bytes of a set of addresses for wave `k`; also the addresses that read uncorrectable (R333). A wave of a
deterministic launch reads the homes (R390, log 22). -/
def State.loadBytes (s : State) (k : Nat) (a : Asker) (hint : Nat) (pas : List Nat) : List (Nat × Byte) × List Nat × State :=
  let hint := if s.detOf (s.wave k) then 2 else hint
  let secs := (pas.map sectorOf).eraseDups
  let step (acc : List (Nat × List Byte × BitVec 64) × State) (sec : Nat) : List (Nat × List Byte × BitVec 64) × State :=
    let need := byteMask ((pas.filter fun p => sectorOf p == sec).map (· % 64))
    let (d, bad, s) := acc.2.loadSector a hint sec need
    (acc.1 ++ [(sec, d, bad)], s)
  let (views, s) := secs.foldl step ([], s)
  let mine := s.overlay k
  let veil := if (s.launches.any fun l => !l.veils.isEmpty) then s.veiled k else []
  let byte (pa : Nat) : Byte :=
    match overlayByte mine pa with
    | some b => b
    | none => match overlayByte veil pa with
      | some b => b
      | none => (lookupD ([], 0) views (sectorOf pa)).1.getD (pa % 64) 0
  let bad := pas.filter fun pa => (overlayByte mine pa).isNone && (lookupD ([], 0) views (sectorOf pa)).2.getLsbD (pa % 64)
  (pas.eraseDups.map fun pa => (pa, byte pa), bad, s)

/-! ### Scratchpad errors (R332, R333) -/

/-- A scratchpad word's state: no error, one correctable bit, or uncorrectable. -/
def State.spBits (s : State) (key : Nat) : List Nat := lookupD [] s.mem.spErrs (key / 8)

/-- A scratchpad byte's address of R38 in a context: the logical number of its cluster, core and offset. -/
def State.spAddr (s : State) (c key : Nat) : Nat :=
  ((indexWhere (fun p => p == key / 2 ^ 22) (s.ctx c).clusterMap).getD 0) * 2 ^ 22 + key % 2 ^ 22

/-- A word with one wrong bit is corrected in place, with a record (R332, R350). -/
def State.healSp (s : State) (key ctx : Nat) : State :=
  match s.spBits key with
  | [b] =>
    let s := { s with mem := { s.mem with spErrs := s.mem.spErrs.filter fun e => e.1 != key / 8 } }
    s.record { kind := 0x03, sev := 1, source := 3, context := ctx, addr := s.spAddr ctx key
               loc := key / 2 ^ 22 + 64 * (key / 2 ^ 20 % 4), synd := b }
  | _ => s

/-- Whether a scratchpad byte reads uncorrectable. -/
def State.spBad (s : State) (key : Nat) : Bool := 2 ≤ (s.spBits key).length

end Sys2Proof.Machine
end

