-- ==== Sys2Proof/Machine/Atomic.lean ====
section
/-! DEFINITION. Atomic requests performed at the home (03 R112, 06 R185-R187, 07 R240, R241, 08 R255, R263). -/

namespace Sys2Proof

/-- Bytes of an atomic access (R64). -/
def atomBytes (w64 : Bool) : Nat := if w64 then 8 else 4

/-- The new memory value of an operation other than CAS (R185): old value `o`, data `v`. -/
def AtomOp.apply (op : AtomOp) (w64 : Bool) (o v : Nat) : Nat :=
  let w := 8 * atomBytes w64
  match op with
  | .add => (o + v) % 2 ^ w
  | .min => if toSigned w o ≤ toSigned w v then o else v
  | .max => if toSigned w v ≤ toSigned w o then o else v
  | .minu => Nat.min o v
  | .maxu => Nat.max o v
  | .and => o &&& v
  | .or => o ||| v
  | .xor => o ^^^ v
  | .swap => v
  | .cas => v
  | .fadd => Fmt.addC .fp32 .rn false o v

/-- The aggregator's order for operations other than CAS (R112): the memory's new value, and what each lane receives. -/
def AtomOp.combine (op : AtomOp) (w64 : Bool) (old : Nat) (vs : List Nat) : Nat × List Nat :=
  match vs with
  | [] => (old, [])
  | v :: t =>
    let folds := t.foldl (fun acc x => acc ++ [op.apply w64 (acc.getLastD v) x]) [v]
    (op.apply w64 old (folds.getLastD v), old :: (folds.dropLast.map fun f => op.apply w64 old f))

/-- CAS lanes one after another (R187): each lane's compare value and new value. -/
def casLanes (old : Nat) : List (Nat × Nat) → Nat × List Nat
  | [] => (old, [])
  | (new, cmp) :: t =>
    let r := casLanes (if old = cmp then new else old) t
    (r.1, old :: r.2)

end Sys2Proof

namespace Sys2Proof.Machine

/-- The result of a request on an old value: the new value and the lanes' results (R187, R241). -/
def AtomReq.result (r : AtomReq) (old : Nat) : Nat × List Nat :=
  let w := 8 * atomBytes r.w64
  if r.join then
    (wrapTo w ((old : Int) - r.lanes.length), (List.range r.lanes.length).map fun (i : Nat) => wrapTo w ((old : Int) - (i + 1 : Nat)))
  else if r.op = .cas then casLanes old (r.lanes.map fun l => (l.2.1 % 2 ^ w, l.2.2 % 2 ^ w))
  else r.op.combine r.w64 old (r.lanes.map fun l => l.2.1 % 2 ^ w)

/-- Values put into lanes of a register. -/
def RegVal.fill (x : RegVal) (vals : List (Nat × Nat)) : RegVal :=
  match x with
  | .v x => .v (vregOf fun i => match vals.find? (fun e => e.1 == i) with
      | some e => BitVec.ofNat 64 e.2
      | none => laneOf x i)
  | .s _ => .s (BitVec.ofNat 64 ((vals.headD (0, 0)).2))
  | .p m => .p m

/-- Values put into lanes of an outstanding long write; the shadow receives the leader's (R338). -/
def LongWrite.fill (l : LongWrite) (vals : List (Nat × Nat)) : LongWrite :=
  { l with val := l.val.fill vals, shadow := l.shadow.map fun x => x.fill vals, need := l.need - 1 }

/-- An engine's return for the long write with a tag (R57). -/
def State.answer (s : State) (k tag : Nat) (f : LongWrite → LongWrite) : State :=
  s.modWave k fun w => { w with pending := w.pending.map fun l => if l.tag = tag && l.need ≠ 0 then f l else l }

/-- A launchable list with one more pip (R287): behind those that became launchable before it, but where append and decrement
took place in the same lc in order of append. -/
def insertPip (l : List Pip) (x : Pip) : List Pip :=
  let later (y : Pip) : Bool := y.ready == x.ready && y.born == x.ready && x.born == x.ready && x.place < y.place
  l.takeWhile (fun y => !later y) ++ x :: l.dropWhile fun y => !later y

/-- The join word of a context was brought to 0: its waiting continuation pips become launchable, in order of append
(R240, R287). -/
def State.joinDone (s : State) (c va : Nat) : State :=
  let pod (p : Pod) : Pod :=
    if !p.cont then p else
    { p with fifo := p.fifo.filter fun x => x.join != va
             launchable := ((p.fifo.filter fun x => x.join == va).map fun (x : Pip) =>
               { x with order := s.order, ready := s.lc }).foldl insertPip p.launchable }
  { s with order := s.order + 1
           graphs := s.graphs.map fun (g : Graph) => if g.ctx = c && g.live then { g with pods := g.pods.map pod } else g
           joined := if s.joined.contains (c, va) then s.joined else (c, va) :: s.joined }

/-- One atomic request performed at the home of its line, as one event (R186, R187, R241, R263): a JOINDEC's release
comes before it (R254), the core's own copy goes, and the sector enters the wave's atomic set (R255). -/
def State.performAtomic (s : State) (r : AtomReq) : State :=
  let w := s.wave r.wave
  let a : Asker := { core := s.coreOf w, ctx := r.ctx, cls := r.slack, umode := w.priv == .u, alloc := true }
  let sec := sectorOf r.pa
  let s :=
    if r.join then
      let (l, s) := s.releaseCore a .device
      let w := s.wave r.wave
      let further := w.joinSet.1 == r.tag
      let x := sigOf l ||| (if further then w.joinSet.2 else w.atomicSet)
      let s := s.depositAt (s.nearSlice r.pa) (lineOf r.pa) x
      s.modWave r.wave fun w => { w with atomicSet := if further then w.atomicSet else 0, joinSet := (r.tag, x) }
    else s
  let s := ((s.invalSector a sec).rdcDrop sec).post a sec true
  let s := s.heal sec r.ctx
  let n := atomBytes r.w64
  let old := Memory.num s.mem.home r.pa n
  let (new, vals) := r.result old
  let s := s.writeHome ((List.range n).zip (bytesOf n new) |>.map fun e => (r.pa + e.1, e.2))
  let s := if s.detOf w then s.markWriters w.launch (s.group w.group).grpid.toNat [r.pa] else s
  let s := s.modWave r.wave fun w => { w with atomicSet := w.atomicSet ||| sectorSig sec }
  let s := if r.ret || r.join then s.answer r.wave r.tag fun l => l.fill ((r.lanes.map Prod.fst).zip vals) else s
  if r.join && 1 ≤ toSigned 64 old then
    (if toSigned 64 old ≤ r.lanes.length then s.joinDone r.ctx r.va
     else { s with joined := s.joined.filter fun e => e != (r.ctx, r.va) })
  else s

/-- The outstanding request at a place in the list is performed. -/
def State.performNth (s : State) (n : Nat) : State :=
  match s.atomics[n]? with
  | none => s
  | some r => { s with atomics := dropAt s.atomics n }.performAtomic r

/-- Whether a wave has requests outstanding. -/
def State.atomicsOf (s : State) (k : Nat) : List AtomReq := s.atomics.filter fun r => r.wave == k

/-- Every outstanding request of a wave is performed, in order of issue. -/
def State.drainAtomics (s : State) (k : Nat) : State :=
  (s.atomicsOf k).foldl State.performAtomic { s with atomics := s.atomics.filter fun r => r.wave != k }

/-- The requests of a wave that meet the sectors of a later access are performed first (R252: same bytes in program order). -/
def State.drainSectors (s : State) (k : Nat) (secs : List Nat) : State :=
  if s.atomics.isEmpty then s else
  let mine (r : AtomReq) : Bool := r.wave == k && secs.contains (sectorOf r.pa)
  (s.atomics.filter mine).foldl State.performAtomic { s with atomics := s.atomics.filter fun r => !mine r }

end Sys2Proof.Machine
end

