-- ==== Sys2Proof/Machine/Checked.lean ====
section
/-! DEFINITION. Checked pairs: the check buffer, the comparator, acorns and commit points (11 R337-R348, 04 R127). -/

namespace Sys2Proof

/-- The commit points of R341, in a wave at level `s` (S-mode when true) that may hold a transaction. -/
def Instr.commitPoint (i : Instr) (smode txn : Bool) : Bool :=
  match i with
  | .vatom _ | .satom _ | .emit _ | .emitc _ | .joindec _ | .strel _ | .clean _ | .inval _ | .exitw _ => true
  | .txend _ _ => txn
  | .fence o => o.kind != .acq
  | .icinv _ s => s == .device
  | .swr o => (0x18 ≤ o.sr.toNat && o.sr.toNat ≤ 0x20) || (0x28 ≤ o.sr.toNat && o.sr.toNat ≤ 0x2F)
  | .trap _ _ => smode
  | _ => false

end Sys2Proof

namespace Sys2Proof.Machine

/-- The resident waves of a pair. -/
def State.pairWaves (s : State) (p : Nat) : List Nat := s.wavesWith fun w => w.resident && s.pairOf w == p

/-- A wave of a launch at IL3. -/
def State.checked (s : State) (w : Wave) : Bool := s.ilevelOf w == 3

/-- The scratchpad blocks that the fullest acorn store of a core holds (R343). -/
def Snapshot.fullest (p : Snapshot) : Nat :=
  let cores := p.blocks.map fun b => b.1 / 16384
  (cores.map fun c => cores.count c).foldl max 0

/-- The acorn that a pair wants, with its reason (R343). -/
def State.acornWanted (s : State) (p : Nat) : Option Nat :=
  let q := s.pair p
  if q.mode ≠ .checked then none
  else match q.wanted with
    | some r => some r
    | none =>
      if (s.pairWaves p).any fun k => 2048 ≤ (s.wave k).sinceAcorn then some 1
      else if 192 ≤ q.buffer.length then some 2
      else if (q.snapshot.map Snapshot.fullest).any fun n => 96 ≤ n then some 3
      else none

/-- A return that comes only at the epoch end, of an atomic held to it (R389). -/
def Wave.heldReturn (w : Wave) (l : LongWrite) : Bool :=
  l.need != 0 && w.effects.any fun e => match e with
    | .atomic r => r.tag == l.tag
    | _ => false

/-- A wave of a pair has stopped for an acorn (R342): its returns have come, and the effect outside the pair of a commit point
that it has issued is complete (R341). -/
def Wave.stopped (w : Wave) : Bool :=
  w.pending.all w.heldReturn && w.trap.isNone && w.abort.isNone
    && (match w.hold with
      | .fence _ _ | .writeback | .icinv _ => false
      | .none | .txbegin | .acorn _ | .commit | .commitReady => true)
    && (match w.wait with
      | .service _ => false
      | .nothing | .claim _ | .barrier _ _ | .emit _ | .batch _ | .ticket _ _ | .stage2 _ => true)

/-- The waves of a pair have stopped, its matrix queues have drained and its check buffer has compared (R341, R342). -/
def State.pairQuiet (s : State) (p : Nat) : Bool :=
  let q := s.pair p
  q.buffer.all CheckEntry.compared
    && (List.range 4).all (fun t => (s.twin (4 * p + t)).queue.isEmpty || (s.twin (4 * p + t)).suspended.isSome)
    && (s.pairWaves p).all fun k => (s.wave k).stopped

/-- A wave as an acorn holds it (R342): a BLOCKED or YIELDED one stands at its blocking instruction, unretired, and the shadow
holds what the leader holds. -/
def Wave.atAcorn (w : Wave) (unclaimed : Bool) : Wave :=
  let hold : Hold := match w.hold with
    | .txbegin => .txbegin
    | _ => .none
  let w := { w with hold := hold, shadow := [] }
  if (w.state = .blocked || w.state = .yielded) && unclaimed then
    { w with state := if w.state = .yielded then .ready else w.home, wait := .nothing, stalled := none }
  else w

/-- What a rollback needs of a pair (R342). A claim keeps its place in its queue, which the acorn holds too, and a wave of a
deterministic launch that has ended its quantum keeps its held effects. -/
def State.snapshotOf (s : State) (p : Nat) : Snapshot :=
  let ws := s.pairWaves p
  let gs := (ws.map fun k => (s.wave k).group).eraseDups
  let cs := (ws.map fun k => (s.wave k).ctx).eraseDups
  let keeps (k : Nat) : Bool := (match (s.wave k).wait with
    | .claim _ => true
    | _ => false) || (s.detOf (s.wave k) && (s.wave k).quantumEnded)
  { waves := ws.map fun k => (k, (s.wave k).atAcorn (!keeps k))
    groups := gs.map fun g => (g, s.group g)
    barriers := cs.map fun c => (c, (s.ctx c).barriers.filter fun b => gs.contains b.group)
    twins := (List.range 4).map fun t => (4 * p + t, s.twin (4 * p + t))
    claims := (List.range 8).map fun c => (8 * p + c, (s.core (8 * p + c)).claims)
    gens := cs.map fun c => (c, (s.ctx c).barrierGens)
    queues := (List.range 4).map fun q => (8 * p + q, s.copyQueue (8 * p + q))
    blocks := [] }

/-- A compared entry leaves the buffer for the leader core's L1, or for its home as one event (R261, R339, R342). -/
def State.releaseEntry (s : State) (e : CheckEntry) : State :=
  let w := s.wave e.wave
  let s := s.storePlain { core := e.core, ctx := e.ctx, cls := e.cls, umode := true } e.hint.toNat e.event e.bytes
  if s.detOf w then s.markWriters w.launch (s.group w.group).grpid.toNat (e.bytes.map Prod.fst) else s

/-- An acorn of a pair (R342, R343): open transactions abort, but for one that commits; the buffer is released in entry
order; the snapshot is taken; the counts restart; held copies enter their queues (R244). -/
def State.takeAcorn (s : State) (p reason : Nat) : State :=
  let ws := s.pairWaves p
  let asked := ws.filterMap fun k => match (s.wave k).hold with
    | .acorn id => some (k, id)
    | _ => none
  let s := ws.foldl (fun s k =>
    if (s.wave k).txn.isSome && (s.wave k).hold ≠ .commit then s.performAbort k 10 0 else s) s
  let s := (s.pair p).buffer.foldl State.releaseEntry s
  let pc := (ws.head?.map fun k => (s.wave k).pc.toNat).getD 0
  let launch := (ws.head?.map fun k => (s.wave k).launch).getD 0
  let ctx := (ws.head?.map fun k => (s.wave k).ctx).getD 0
  let s := asked.foldl (fun s e =>
    let w := s.wave e.1
    let s := (s.modWave e.1 fun w => { w with hold := .none, eligibleSince := s.cc }).retireAt e.1
      (.acorn (w.stalled.any Instr.marker) (BitVec.ofNat 16 e.2)) w.priv (w.pc + 8)
    s.modWave e.1 fun w => { w with stalled := none }) s
  let s := ws.foldl (fun s k => s.modWave k fun w => { w with sinceAcorn := 0 }) s
  let snap := s.snapshotOf p
  let s := s.modPair p fun q =>
    { q with buffer := [], bufferErrs := [], acornErrs := [], snapshot := some snap, retry := 0, wanted := none
             roomAt := if 256 ≤ q.buffer.length then s.cc else q.roomAt
             acornId := (asked.head?.map Prod.snd).getD 0xFFFF
             inject := q.inject.map fun j => { j with counting := true } }
  let s := ws.foldl (fun s k => if (s.wave k).hold = .commit then s.modWave k fun w => { w with hold := .commitReady } else s) s
  let held (c : Copy) : Bool := c.heldBack && ws.contains c.wave && !(s.detOf (s.wave c.wave))
  let s := { s with copies := s.copies.map fun (x : CopyQueue) =>
    { x with entries := x.entries.map fun c => if held c then { c with heldBack := false } else c } }
  if reason = 0 then s
  else s.traceEntry 4 1 ctx (bytesOf 8 (s.launch launch).seq ++ bytesOf 1 p ++ bytesOf 1 reason ++ zeros 6 ++ bytesOf 8 pc)

/-- Whether the armed injection fires on an entry (R357). -/
def Inject.fires (j : Inject) (e : CheckEntry) : Bool :=
  (e.mask.getLsbD j.lane || (e.perWave && j.lane == 0)) && decide (j.bit < 8 * e.size)

/-- The place of the first entry of a pair that has not compared. -/
def Pair.nextCompare (q : Pair) : Option Nat := indexWhere (fun e => !e.compared) q.buffer

/-- The comparator takes the next store entry of a pair (R340, R357): an injected difference starts the mismatch sequence. -/
def State.compareNext (s : State) (p : Nat) : State :=
  let q := s.pair p
  match q.nextCompare with
  | none => s
  | some n =>
    let e := q.buffer.getD n default
    let pass (inj : Option Inject) : State :=
      s.modPair p fun q => { q with inject := inj, buffer := modAt (fun e => { e with compared := true }) q.buffer n }
    match q.inject with
    | none => pass none
    | some j =>
      if !j.counting then pass (some j)
      else if 1 < j.n then pass (some { j with n := j.n - 1 })
      else if !j.fires e then pass none
      else
        let byte := e.size * j.lane + j.bit / 8
        let s := s.modPair p fun q => { q with inject := none }
        s.mismatch p e.wave { kind := 0, sev := 0, source := 6, addr := e.pa, vaddr := e.va, synd := 2 ^ (byte % 32)
                              syndw := byte / 32, pc := e.pc.toNat }

/-- Old values of scratchpad blocks enter the acorn store at their first write (R342); keys are of the leader's cluster. -/
def State.noteBlocks (s : State) (p : Nat) (keys : List Nat) : State :=
  let blocks := (keys.map (· / 64)).eraseDups
  s.modPair p fun q => { q with snapshot := q.snapshot.map fun x =>
    { x with blocks := x.blocks ++ ((blocks.filter fun b => !(x.blocks.any fun e => e.1 == b)).map fun b =>
        (b, Memory.readN s.mem.sp (64 * b) 64)) } }

end Sys2Proof.Machine
end

