-- ==== Sys2Proof/Machine/Rng.lean ====
section
/-! DEFINITION. The counter-based random streams (03 R91-R95). -/

namespace Sys2Proof

/-- The working state of Philox: the counter and the key (R92). -/
structure PhiloxState where
  c0 : Nat
  c1 : Nat
  c2 : Nat
  c3 : Nat
  k0 : Nat
  k1 : Nat
deriving DecidableEq, Repr

/-- One of the 10 rounds (R92). -/
def PhiloxState.round (p : PhiloxState) : PhiloxState :=
  let a := 0xD2511F53 * p.c0
  let b := 0xCD9E8D57 * p.c2
  { c0 := (b >>> 32) ^^^ p.c1 ^^^ p.k0, c1 := b % 2 ^ 32, c2 := (a >>> 32) ^^^ p.c3 ^^^ p.k1, c3 := a % 2 ^ 32
    k0 := (p.k0 + 0x9E3779B9) % 2 ^ 32, k1 := (p.k1 + 0xBB67AE85) % 2 ^ 32 }

/-- `n` rounds. -/
def PhiloxState.rounds : Nat → PhiloxState → PhiloxState
  | 0, p => p
  | n + 1, p => PhiloxState.rounds n p.round

/-- Philox-4x32-10: the block out3:out2:out1:out0 (R92). -/
def philox (c0 c1 c2 c3 k0 k1 : Nat) : Nat :=
  let p := PhiloxState.rounds 10 { c0 := c0, c1 := c1, c2 := c2, c3 := c3, k0 := k0, k1 := k1 }
  p.c0 + 2 ^ 32 * (p.c1 + 2 ^ 32 * (p.c2 + 2 ^ 32 * p.c3))

/-- The global thread index (R93). -/
def threadIndex (grpid waveid lane : Nat) : Nat := (grpid * 2048 + waveid * 32 + lane) % 2 ^ 43

/-- The block at position `pos` of the stream of a domain and a thread (R93). -/
def streamBlock (domain : Nat) (key : Word) (g : Nat) (pos : Word) : Nat :=
  philox (pos.toNat % 2 ^ 32) (pos.toNat >>> 32) (g % 2 ^ 32) ((domain <<< 30) ||| (g >>> 32))
    (key.toNat % 2 ^ 32) (key.toNat >>> 32)

/-- The 16 random bits of destination sub-element `t` under stochastic rounding (R91). -/
def stochasticBits (key : Word) (g : Nat) (pos : Word) (t : Nat) : Nat :=
  bits (streamBlock 1 key g (pos + BitVec.ofNat 64 (t / 8))) (16 * (t % 8) + 15) (16 * (t % 8))

end Sys2Proof
end

