-- ==== Sys2Proof/Machine/Operands.lean ====
section
/-! DEFINITION. The operands that an instruction names, the decode conditions on them, and the reading of operand forms
(02 R53-R56, R58, R60, R61, 01 R21-R24, R31-R33, 05 R143). -/

namespace Sys2Proof

/-- An operand field with its class (R53); `run` is an aligned or unaligned run of vector registers (R54). -/
inductive Opnd where
  | s (n : Nat)
  | v (n : Nat)
  | p (n : Nat)
  | w (n : Nat)
  | tile (n : Nat)
  | run (n len align : Nat)
deriving DecidableEq, Repr

/-- A field outside its class's range, or a run that is misaligned or goes beyond V255 (R53, R54, R144). -/
def Opnd.illegal : Opnd → Bool
  | .s n => 63 < n
  | .v _ => false
  | .p n => 7 < n
  | .w n => 15 < n
  | .tile n => 3 < n
  | .run n len align => n % align != 0 || 256 < n + len

/-- The b operand of a format-R vector instruction as an operand (R143). -/
def BSrc.opnd : BSrc → List Opnd
  | .v r => [.v r.toNat]
  | .s r => [.s r.toNat]
  | .imm _ => []

/-- The b operand of majors 0x10 and 0x11. -/
def SSrc.opnd : SSrc → List Opnd
  | .r n => [.s n.toNat]
  | .imm _ => []

/-- The governing predicate as an operand: P0 with `pn = 0` stands for no predicate (R56). -/
def predOpnd (pi : BitVec 3) : List Opnd := if pi = 0 then [] else [.p pi.toNat]

/-- S55 under stochastic rounding (R91). -/
def rmOpnd (r : RM) : List Opnd := if r = .rs then [.s 55] else []

def SBin.opnds (o : SBin) : List Opnd := [.s o.d.toNat, .s o.a.toNat] ++ o.b.opnd
def SUn.opnds (o : SUn) : List Opnd := [.s o.d.toNat, .s o.a.toNat]
def SImm.opnds (o : SImm) (a : Bool) : List Opnd := .s o.d.toNat :: (if a then [.s o.a.toNat] else [])

/-- Destination and sources of a vector form: `c` names a third vector source. -/
def VOp.common (o : VOp) : List Opnd := predOpnd o.pi ++ rmOpnd o.rm
def VOp.unary (o : VOp) : List Opnd := [.v o.d.toNat, .v o.a.toNat] ++ o.common
def VOp.binary (o : VOp) : List Opnd := [.v o.d.toNat, .v o.a.toNat] ++ o.b.opnd ++ o.common
def VOp.ternary (o : VOp) : List Opnd := [.v o.d.toNat, .v o.a.toNat] ++ o.b.opnd ++ [.v o.c.toNat] ++ o.common

/-- The registers that address a format-M access (R50, R51). -/
def baseOpnd (bk : Bool) (a : BitVec 8) : Opnd := if bk then .s a.toNat else .w a.toNat
def MemF.addr (o : MemF) : List Opnd :=
  [baseOpnd o.bk o.a, if o.ik then .s o.b.toNat else .v o.b.toNat] ++ predOpnd o.pi
def MemF.scalar (o : MemF) : List Opnd := .s o.d.toNat :: o.addr
def MemF.vector (o : MemF) : List Opnd := .v o.d.toNat :: o.addr

/-- Registers of the wide run of VQNT and VDQNT (R155). -/
def VQntF.ratio (o : VQntF) : Nat := o.narrow.count / o.wide.count

/-- Registers of the addresses of VXREAD (R159). -/
def xreadRun (t : ET) : Nat := max 1 (t.count / 4)

/-- Every operand that an instruction word names, as source or destination (R53, R58). -/
def operands : Instr → List Opnd
  | .nop _ | .bkpt _ _ | .exitw _ | .tret _ | .trap _ _ | .bra _ _ | .sigchk _ _ | .acorn _ _ | .icinv _ _ => []
  | .srd o => [if o.vec then .v o.d.toNat else .s o.d.toNat]
  | .swr o => [.s o.a.toNat]
  | .perfrd o => [.s o.d.toNat]
  | .brc _ _ a _ => [.s a.toNat]
  | .brv _ _ a _ => [.p a.toNat]
  | .call _ _ => [.s 62]
  | .ret _ a | .jmpi _ a => [.s a.toNat]
  | .xmovExecP _ a | .xjoin _ a => [.p a.toNat]
  | .xand _ d a _ => [.p d.toNat, .p a.toNat]
  | .xmovPExec _ d => [.p d.toNat]
  | .sadd o | .ssub o | .sand o | .sor o | .sxor o | .sandn o | .sshl o | .sshr o | .ssar o | .srot o
  | .smin o | .smax o | .sminu o | .smaxu o | .sslt o | .ssltu o | .sseq o
  | .smul o | .smulh o | .smulhu o | .sdiv o | .sdivu o | .srem o | .sremu o => o.opnds
  | .smad o => [.s o.d.toNat, .s o.a.toNat] ++ o.b.opnd ++ [.s o.c.toNat]
  | .sclz o | .sctz o | .spopc o | .sbrev o => o.opnds
  | .ssext o | .szext o => [.s o.d.toNat, .s o.a.toNat]
  | .sbfx o | .sbfi o => [.s o.d.toNat, .s o.a.toNat, .s o.b.toNat]
  | .ssel o => [.s o.d.toNat, .s o.a.toNat, .s o.b.toNat, .s o.c.toNat]
  | .slea o => [.s o.d.toNat, .s o.a.toNat, .s o.b.toNat]
  | .saddi o | .sandi o | .sori o | .sxori o | .smovhi o | .sslti o => o.opnds true
  | .smovi o | .saddpc o => o.opnds false
  | .vadd o | .vsub o | .vmul o | .vmulh o | .vmin o | .vmax o | .vabsd o | .vavg o | .vdiv o | .vrem o
  | .vand o | .vor o | .vxor o | .vandn o | .vshl o | .vshr o | .vsar o | .vrot o
  | .vfadd o | .vfsub o | .vfmul o | .vfmin o | .vfmax o | .vfdiv o => o.binary
  | .vmad o | .vfma o | .vfms o => o.ternary
  | .vabs o | .vneg o | .vnot o | .vclz o | .vpopc o | .vfabs o | .vfneg o
  | .vrcp o | .vrsq o | .vsqrt o | .vexp2 o | .vlog2 o | .vsin o | .vcos o | .vtanh o | .vsigm o => o.unary
  | .vcmp _ o => [.p o.d.toNat, .v o.a.toNat] ++ o.b.opnd ++ o.common
  | .vcmpm _ o => o.binary
  | .vsel o => o.binary ++ [.p o.c.toNat]
  | .vselm o => o.ternary
  | .vpack o => o.binary
  | .vunpkl o | .vunpkh o => o.unary
  | .vmov o => .v o.d.toNat :: o.b.opnd ++ o.common
  | .vmovi o => .v o.d.toNat :: predOpnd o.pi
  | .vcvt o => [.v o.d.toNat, .v o.a.toNat] ++ (if o.dst.count = 2 * o.src.count then [.v o.b.toNat] else [])
      ++ predOpnd o.pi ++ rmOpnd o.rm
  | .vqnt o => [.v o.d.toNat, .run o.a.toNat o.ratio o.ratio, .v o.b.toNat] ++ predOpnd o.pi ++ rmOpnd o.rm
  | .vdqnt o => [.run o.d.toNat o.ratio o.ratio, .v o.a.toNat, .v o.b.toNat] ++ predOpnd o.pi ++ rmOpnd o.rm
  | .vrndRaw o | .vrndUniform o => [.v o.d.toNat, .s o.a.toNat] ++ o.common
  | .vxread o => [.v o.d.toNat, .v o.a.toNat, .s o.c.toNat] ++ o.common ++
      match o.b with
      | .v r => [.run r.toNat (xreadRun o.et) (xreadRun o.et)]
      | b => b.opnd
  | .vxshf o | .vxbfly o => [.v o.d.toNat, .v o.a.toNat, .s o.c.toNat] ++ o.b.opnd ++ o.common
  | .vballot o => [.s o.d.toNat, .p o.a.toNat] ++ predOpnd o.pi
  | .vxred _ o | .vxscan _ o => o.unary
  | .vacs o => [.v o.d.toNat, .v o.c.toNat, .run o.a.toNat 2 2] ++ o.common ++
      match o.b with
      | .v r => [.run r.toNat 2 2]
      | b => b.opnd
  | .vdwc o => [.run o.d.toNat 2 2, .v o.a.toNat] ++ o.b.opnd ++ [.s o.c.toNat] ++ o.common
  | .vwmax o | .vwavg o => [.v o.d.toNat, .v o.a.toNat] ++ (match o.b with
      | .v r => [.s r.toNat]
      | b => b.opnd) ++ o.common
  | .ldS o | .stS o | .lda o | .strel o => o.scalar
  | .vld o | .vst o | .vldx o | .vstx o | .spld o | .spst o => o.vector
  | .fence o => if o.line then [baseOpnd o.bk o.a] else []
  | .clean o | .inval o => if o.all then [] else [baseOpnd o.bk o.a]
  | .wmap o => [.w o.d.toNat, .s o.a.toNat, .s o.b.toNat]
  | .vatom o => [baseOpnd o.bk o.a, .v o.b.toNat] ++ predOpnd o.pi
      ++ (if o.op = .cas then [.run o.d.toNat 2 2] else [.v o.d.toNat])
  | .satom o => [baseOpnd o.bk o.a, .s o.b.toNat, .s o.d.toNat]
      ++ (if o.op = .cas then [.s (o.d.toNat + 1)] else [])
  | .txbegin _ _ | .gleave _ | .vclaim _ _ | .vrels _ _ => []
  | .txend _ d => [.s d.toNat]
  | .txabort _ a => [.s a.toNat]
  | .gjoin _ a _ => [.s a.toNat]
  | .bopen _ d a _ => [.s d.toNat, .s a.toNat]
  | .bara _ a | .barw _ a => [.s a.toNat]
  | .mmaBp o => [.tile o.d.toNat, .s o.a.toNat, .s o.b.toNat, .s o.c.toNat]
  | .mzero _ d => [.tile d.toNat]
  | .mrd o => [.run o.d.toNat 4 4, .tile o.a.toNat, .s o.b.toNat, .v o.c.toNat]
  | .mwr o => [.tile o.d.toNat, .run o.a.toNat 4 4, .s o.b.toNat]
  | .mbatch _ d => [.s d.toNat]
  | .mwait _ a => [.s a.toNat]
  | .qplane o => [.run o.a.toNat (32 / o.et.count) (32 / o.et.count), .s o.b.toNat]
  | .amaxrd _ d _ => [.s d.toNat]
  | .tcopy o | .tcopyw o | .thash o => [.s o.d.toNat, .s o.a.toNat]
  | .cfence _ _ => []
  | .cwait _ a | .cyield _ a _ => [.s a.toNat]
  | .emit o => [.p o.d.toNat, .s o.a.toNat, .run o.b.toNat (2 * (o.size.toNat + 1)) 1] ++ predOpnd o.pi
  | .emitc o => [.p o.d.toNat, .s o.a.toNat, .run o.b.toNat 4 1] ++ predOpnd o.pi
  | .joindec o => [.v o.d.toNat, .v o.a.toNat] ++ predOpnd o.pi
  | .piprd o => .v o.d.toNat :: predOpnd o.pi
  | .loadReturn _ | .storePerformed _ _ | .atomicPerformed _ | .fenceComplete _ | .writebackAck _ | .icinvAck _
  | .trapEntry _ _ _ _ | .launchTeardown _ | .transactionAbort _ _ _ | .claimGrant _ | .claimDeadlock _ => []
  | .matrixOperationStart _ | .mmaKstep _ | .tileAccessComplete _ | .copyStart _ _ | .copyComplete _ _
  | .podAppend _ | .coalescingTimerExpiry _ _ | .podDeadlock _ | .continuationDispatch _ _ | .groupDispatch _
  | .gangReserve _ _ | .gangBackoffExpiry _ _ => []
  | .launch _ | .edgeHash _ _ _ | .operatingPointChange _ | .launchCompletion _ | .signatureEpochAdvance
  | .quantumEnd _ | .epochEnd _ | .checkCompare _ | .acornTake _ _ | .reexecute _ => []
  | .l2Request _ | .huskSweepComplete _ | .shareRetire _ _ | .dramPatrol _ | .preemptionRequest _
  | .preemptionSave _ | .fullSave _ | .preemptionRestore _ | .worldSwitch _ _ | .stage2FaultService _ _ => []
  | .null _ | .poolRefill _ _ | .tlbi _ | .fail _ | .stage2Shootdown _ _ _ | .poolCheck _ _ => []
  | .peerRequest _ _ _ | .peerFatalNotice _ | .linkTraining _ _ _ | .linkLossOfLock _ => []
  | .apertureAccess _ _ _ | .sqDoorbell _ _ _ | .queueEnable _ _ _ => []
  | .huskDefine _ | .graphCreate _ | .graphDestroy _ | .traceMark _ | .perfConfig _ | .perfRead _ | .slotConfig _
  | .poolSet _ _ | .s1rootSet _ | .ctxCreate _ _ _ | .ctxDestroy _ | .vfAssign _ => []
  | .getVersion | .getCapabilities | .negotiateAlgorithms _ _ | .getDigests | .getCertificate _ | .challenge _
  | .getMeasurements _ _ | .keyExchange _ | .finish _ | .heartbeat _ | .endSession _ | .ideIntegrityFailure _ => []
  | .pairStatus _ | .pairReturn _ _ | .inject _ | .wdogSet _ | .wdogKick _ | .watchdogExpiry _
  | .thermalCapAdjust _ | .hotClear _ => []
  | .coldReset _ | .warmReset _ | .vfFunctionLevelReset _ | .registerWrite _ _ _ | .quiescePoint _
  | .modeRequest _ _ | .iciLoad _ _ _ => []
  | .lpddr6Request _ | .arbiterGrant _ | .slackExhaustion _ | .peerShootdown _ _ _ | .ideKm _ _ _ _
  | .doeDiscovery _ | .thermalFatal _ _ => []

/-! ### Special registers (R31, R55, R132) -/

/-- Access of a special register at a level (R31). -/
inductive SrRight where
  | none | r | rw
deriving DecidableEq, Repr

/-- The rights of a special-register number at U and at S, for those that exist (R31, R55). -/
def srRights (n : Nat) : Option (SrRight × SrRight) :=
  if n ≤ 0x0D ∨ n = 0x10 ∨ n = 0x11 then some (.r, .r)
  else if n = 0x12 then some (.rw, .rw)
  else if n = 0x13 then some (.r, .r)
  else if n = 0x14 then some (.rw, .rw)
  else if 0x18 ≤ n ∧ n ≤ 0x1F then some (.r, .rw)
  else if n = 0x20 ∨ n = 0x24 then some (.none, .rw)
  else if 0x21 ≤ n ∧ n ≤ 0x23 then some (.none, .r)
  else if 0x28 ≤ n ∧ n ≤ 0x2F then some (.r, .rw)
  else if 0x30 ≤ n ∧ n ≤ 0x33 then some (.r, .rw)
  else if 0x40 ≤ n ∧ n < 0x70 then some (.none, .r)
  else none

/-- PRIVILEGE of an instruction word at U (R31, R33, R130, R132, R134). -/
def Instr.privileged : Instr → Bool
  | .tret _ => true
  | .srd o => (srRights o.sr.toNat).any fun r => r.1 == .none
  | .swr o => (srRights o.sr.toNat).any fun r => r.1 == .none || (r.1 == .r && r.2 == .rw)
  | .perfrd o => o.clr
  | _ => false

/-- ILLEGAL_OPERAND of an instruction word beyond its operand classes (R32, R53, R55, R132, R162, R184, R199, R217). -/
def Instr.illegalWord : Instr → Bool
  | .srd o => (srRights o.sr.toNat).isNone || (o.sr == 0 && !o.vec)
  | .swr o => !((srRights o.sr.toNat).any fun r => r.2 == .rw)
  | .perfrd o => 7 < o.n.toNat
  | .vacs o => o.d == o.c
  | .satom o => o.op == .cas && o.d.getLsbD 0
  | .vclaim _ n | .vrels _ n => n == 0 || 32 < n.toNat
  | .mrd o => o.rowbyte.getLsbD 0 || !o.rowbyte.getLsbD 7
  | _ => false

/-- Bytes of an access size (R51). -/
def Size.bytes : Size → Nat
  | .n8 | .i8 => 1
  | .n16 | .i16 => 2
  | .n32 | .i32 => 4
  | .b64 => 8

/-- A loaded value in its 64-bit destination (R51): zero- or sign-extended by SIZE. -/
def Size.extend (z : Size) (n : Nat) : Word :=
  match z with
  | .i8 => (BitVec.ofNat 8 n).signExtend 64
  | .i16 => (BitVec.ofNat 16 n).signExtend 64
  | .i32 => (BitVec.ofNat 32 n).signExtend 64
  | .n8 | .n16 | .n32 | .b64 => BitVec.ofNat 64 n

end Sys2Proof

namespace Sys2Proof.Machine

/-- The registers that an operand names, for the range and hazard checks (R24, R58). -/
def Wave.regsOf (w : Wave) : Opnd → List Reg
  | .s n => [w.sReg n]
  | .v n => [.v n]
  | .p n => [.p n]
  | .run n len _ => (List.range len).map fun i => .v (n + i)
  | .w _ | .tile _ => []

/-- A vector register at or above VALLOC (R24). -/
def Wave.outOfRange (w : Wave) : Reg → Bool
  | .v n => w.valloc ≤ n
  | _ => false

/-- The range and hazard checks of registers, in the order of R60. -/
def Wave.checkRegs (w : Wave) (l : List Reg) : Option (BitVec 7) :=
  if l.any w.outOfRange then some 0x05
  else if l.any w.unmarked.contains then some 0x06
  else none

/-- The decode conditions of an instruction word that decoding leaves: PRIVILEGE, ILLEGAL_OPERAND, VREG_RANGE and
UNMARKED_HAZARD, the first that applies (R60). -/
def Wave.decodeCheck (w : Wave) (i : Instr) : Option (BitVec 7) :=
  if w.priv = .u && i.privileged then some 0x03
  else if (operands i).any Opnd.illegal || i.illegalWord then some 0x04
  else w.checkRegs ((operands i).flatMap w.regsOf)

/-- The governing mask of a lane instruction (R56). -/
def Wave.governing (w : Wave) (pn : Bool) (pi : BitVec 3) : Mask :=
  if pn then w.exec &&& ~~~w.readP pi.toNat else w.exec &&& w.readP pi.toNat

/-- `y` of majors 0x10 and 0x11 (R114). -/
def Wave.ssrc (w : Wave) : SSrc → Word
  | .r n => w.readS n.toNat
  | .imm n => n.setWidth 64

/-- The low `w` bits of a word in every sub-element (R143). -/
def broadcast (w : Nat) (x : Word) : Word := packElems w (List.replicate (64 / w) x.toNat)

/-- The b operand of a vector instruction, lane by lane (R143). -/
def Wave.bsrc (w : Wave) (t : ET) : BSrc → VReg
  | .v r => w.readV r.toNat
  | .s r => List.replicate lanes (broadcast t.width (w.readS r.toNat))
  | .imm i => List.replicate lanes (broadcast t.width (i.signExtend 64))

/-- The global thread index of a lane (R93). -/
def State.threadOf (s : State) (w : Wave) (lane : Nat) : Nat := threadIndex (s.group w.group).grpid.toNat w.waveid lane

end Sys2Proof.Machine
end

