-- ==== Sys2Proof/Machine/Shadow.lean ====
section
/-! DEFINITION. The shadow of a wave at IL3: its registers, its execution of the leader's instructions, and the comparator
(11 R337, R338, R340, R432, 01 R43, 04 R140, 06 R203, 07 R244). -/

namespace Sys2Proof

/-- Instructions of which the shadow takes the leader's value (R140, R203, R244, R338): loads, and reads of the part. -/
def Instr.logged : Instr → Bool
  | .ldS _ | .vld _ | .vldx _ | .spld _ | .lda _ | .srd _ | .perfrd _ | .amaxrd _ _ _ | .piprd _ | .mbatch _ _ => true
  | _ => false

/-- Matrix instructions, which the comparator does not compare where they write (R244); QPLANE is compared, as R340 says (DEDUCED,
log 84). -/
def Instr.matrixOp : Instr → Bool
  | .mmaBp _ | .mzero _ _ | .mrd _ | .mwr _ => true
  | _ => false

/-- Whether the first operand that an instruction names is only written. -/
def Instr.writesFirst : Instr → Bool
  | .swr _ | .brc _ _ _ _ | .brv _ _ _ _ | .ret _ _ | .jmpi _ _ | .xmovExecP _ _ | .xjoin _ _ | .stS _ | .strel _ | .vst _ | .vstx _
  | .spst _ | .fence _ | .clean _ | .inval _ | .vatom _ | .satom _ | .txabort _ _ | .gjoin _ _ _ | .bara _ _ | .barw _ _ | .mwr _
  | .mwait _ _ | .qplane _ | .cwait _ _ | .cyield _ _ _ => false
  | _ => true

/-- The coded state besides registers that an instruction reads (R332). -/
def Instr.cells (i : Instr) : List Machine.Cell :=
  .exec :: match i with
  | .srd o => [.special o.sr.toNat]
  | .emit _ | .emitc _ | .piprd _ => [.pod]
  | .bara _ _ | .barw _ _ => [.barrier]
  | .amaxrd _ _ n => [.slot n.toNat]
  | .wmap _ => []
  | i => (operands i).filterMap fun o => match o with
    | .w n => some (.window n)
    | .tile n => some (.mpc n)
    | .s _ | .v _ | .p _ | .run _ _ _ => none

/-- The coded state besides registers that an instruction writes whole (R332). -/
def Instr.cellsWritten : Instr → List Machine.Cell
  | .wmap o => [.window o.d.toNat]
  | .swr o => [.special o.sr.toNat]
  | _ => []

/-- The operands that an instruction reads. -/
def Instr.reads (i : Instr) : List Opnd := if i.writesFirst then (operands i).drop 1 else operands i

/-- The operands that an instruction writes without reading them. -/
def Instr.writes (i : Instr) : List Opnd := if i.writesFirst then (operands i).take 1 else []

end Sys2Proof

namespace Sys2Proof.Machine

/-- The lanes of a vector register that an instruction writes (R56). -/
def Wave.writtenLanes (w : Wave) (i : Instr) : Mask :=
  let x := (encode i).getD 0
  w.governing (Fld.pn x) (Fld.pi x)

/-- The contents of a register, whichever bank it lies in. -/
def Wave.get (w : Wave) : Reg → RegVal
  | .s n => .s (if n = 0 then 0 else w.s.getD n 0)
  | .sb n => .s (w.sbank.getD (n - 56) 0)
  | .v n => .v (w.readV n)
  | .p n => .p (w.readP n)
  | .cell _ => .s 0

/-- The registers that a wave holds. -/
def Wave.allRegs (w : Wave) : List Reg :=
  (List.range 64).map Reg.s ++ (List.range 8).map (fun n => .sb (56 + n)) ++ (List.range 8).map Reg.p ++ (List.range w.v.length).map Reg.v

/-- The shadow of a wave: the leader's state with the shadow's own registers. -/
def Wave.asShadow (w : Wave) : Wave := { w.shadow.foldl (fun w e => w.put e.1 e.2) w with shadow := [] }

/-- A value without its contents. -/
def RegVal.blank : RegVal → RegVal
  | .s _ => .s 0
  | .v _ => .v []
  | .p _ => .p 0

/-- What the comparator sees of a state after an instruction of wave `k` (R340): all but the registers of the wave, which it
compares only where they reach something else. -/
def State.beyond (s : State) (k : Nat) : State :=
  s.modWave k fun w => { w with
    s := [], sbank := [], v := [], p := [], shadow := [], sigreg := 0, regErrs := []
    pending := w.pending.map fun (l : LongWrite) => { l with val := l.val.blank, shadow := none } }

/-- The leader's value in some lanes of what the shadow held. -/
def RegVal.over (m : Mask) (new old : RegVal) : RegVal :=
  match new, old with
  | .v x, .v y => .v (mergeLanes m x y)
  | x, _ => x

/-- The shadow after an instruction of which it takes the leader's value: what it held besides, in the lanes not written. -/
def Wave.logged (a w : Wave) (i : Instr) : Wave :=
  let dests := i.writes.flatMap w.regsOf
  let m := w.writtenLanes i
  let old (r : Reg) : Option RegVal := (w.shadow.find? fun e => e.1 == r).map Prod.snd
  { a with
    shadow := w.shadow.filterMap fun e =>
      if !dests.contains e.1 || a.pending.any (fun l => l.dst == e.1) then some e
      else if (a.get e.1).over m e.2 = a.get e.1 then none else some (e.1, (a.get e.1).over m e.2)
    pending := a.pending.map fun (l : LongWrite) =>
      if w.pending.any (fun x => x.dst == l.dst) then l
      else match old l.dst with
        | some y => { l with shadow := if l.val.over m y = l.val then none else some (l.val.over m y) }
        | none => l }

/-- The leader's wave with its shadow, after both have executed an instruction: the registers that now differ. -/
def Wave.withShadow (a b : Wave) : Wave :=
  { a with
    shadow := a.allRegs.filterMap fun r => if a.get r = b.get r then none else some (r, b.get r)
    pending := (a.pending.zip b.pending).map fun e =>
      if e.1.shadow.isSome || e.1.val = e.2.val then e.1 else { e.1 with shadow := some e.2.val } }

/-- SYND and SYNDW of two byte images (R432): the bytes that differ in the 32-byte window of the first one. -/
def imageSynd (x y : List Byte) : Nat × Nat :=
  let differ := (List.range (max x.length y.length)).filter fun i => x.getD i 0 != y.getD i 0
  match differ with
  | [] => (0, 0xFF)
  | b :: _ => (sumBy (fun i => 2 ^ (i % 32)) (differ.filter fun i => i / 32 == b / 32), b / 32)

/-- The value of an instruction that the comparator compares besides what a store entry holds (R140, R203, R340). -/
def comparedValue (i : Instr) (w a : Wave) : List Byte :=
  match i with
  | .xmovExecP _ _ | .xand _ _ _ _ | .xjoin _ _ => bytesOf 4 a.exec.toNat
  | .swr o => bytesOf 8 (w.readS o.a.toNat).toNat
  | .gjoin _ r _ | .bopen _ _ r _ | .bara _ r | .barw _ r => bytesOf 8 (w.readS r.toNat).toNat
  | _ => []

/-- The byte image of a store entry (R432): lane l's datum at size * l. -/
def CheckEntry.image (e : CheckEntry) : List Byte :=
  let lanes := if e.perWave then [0] else lanesOf e.mask
  (List.range 256).map fun i =>
    match indexWhere (fun l => l == i / e.size) lanes with
    | some n => ((e.bytes.reverse.getD (lanes.length * e.size - 1 - (n * e.size + i % e.size)) (0, 0))).2
    | none => 0

/-- The record of a comparator mismatch on instruction `i` (R432): `a` and `b` are the states that leader and shadow reach. -/
def State.compareRec (s : State) (k : Nat) (i : Instr) (a b : State) : Rec :=
  let w := s.wave k
  let p := s.pairOf w
  let new (t : State) : Option CheckEntry := ((t.pair p).buffer.drop (s.pair p).buffer.length).head?
  let req := (a.atomics.drop s.atomics.length).head?
  let r : Rec := { kind := 0, sev := 0, source := 6, pc := w.pc.toNat }
  match new a, new b with
  | some x, some y =>
    let synd := if x.va = y.va && x.mask == y.mask && x.size == y.size && x.pa == y.pa then imageSynd x.image y.image else (0, 0xFF)
    { r with addr := x.pa, vaddr := x.va, synd := synd.1, syndw := synd.2 }
  | _, _ =>
    let synd := imageSynd (comparedValue i w (a.wave k)) (comparedValue i w.asShadow (b.wave k))
    { r with addr := (req.map AtomReq.pa).getD 0, vaddr := (req.map AtomReq.va).getD 0, synd := synd.1, syndw := synd.2 }

/-- The last entry of a twin's queue with what the shadow made of it (R244). -/
def Twin.withShadowOp (t : Twin) (op : Option MatOp) : Twin :=
  match t.queue.getLast? with
  | none => t
  | some e => { t with queue := t.queue.dropLast ++ [{ e with shadowOp := if op = some e.op then none else op }] }

/-- An instruction of wave `k` on both clusters of its pair (R337, R338, R340): where the shadow's registers are the leader's,
both do the same; otherwise the shadow executes it on its own, takes the leader's value of a load, and any difference that
reaches a compared point starts the mismatch sequence. A matrix operation goes on with each cluster's own operands (R244). -/
def State.onBoth (s : State) (k : Nat) (i : Instr) (go : State → State) : State :=
  let w := s.wave k
  if w.shadow.isEmpty then go s
  else if i.logged then
    let a := go s
    a.modWave k fun x => x.logged w i
  else
    let t := s.twinOf w
    let a := go s
    let b := go (s.setWave k w.asShadow)
    let op := (b.twin t).queue.getLast?.map MatEntry.op
    let b := if i.matrixOp then b.modTwin t fun x => { x with queue := (a.twin t).queue } else b
    if a.beyond k = b.beyond k then
      let a := a.setWave k ((a.wave k).withShadow (b.wave k))
      if i.matrixOp then a.modTwin t fun x => x.withShadowOp op else a
    else s.mismatch (s.pairOf w) k (s.compareRec k i a b)

end Sys2Proof.Machine
end

