-- ==== Sys2Proof/Machine/Issue.lean ====
section
/-! DEFINITION. The issue of an instruction by the current wave: eligibility, the decode conditions, register errors,
transactions and commit points around its own effect (02 R60, 06 R189, 09 R292, 11 R333, R335, R341). -/

namespace Sys2Proof

/-- Memory, scratchpad, atomic, transaction and engine instructions, which wait behind a fence (R182). -/
def Instr.behindFence (i : Instr) : Bool := (0x60 ≤ i.major && i.major ≤ 0x71) || (0x78 ≤ i.major && i.major ≤ 0x7C)

/-- The instructions that abort a transaction with UNSUPPORTED (R189). -/
def Instr.unsupported : Instr → Bool
  | .vatom _ | .satom _ | .lda _ | .strel _ | .fence _ | .clean _ | .inval _ | .wmap _ | .spld _ | .spst _
  | .gjoin _ _ _ | .gleave _ | .bopen _ _ _ _ | .bara _ _ | .barw _ _ | .vclaim _ _ | .vrels _ _
  | .acorn _ _ | .icinv _ _ | .swr _ | .exitw _ => true
  | i => 0x78 ≤ i.major && i.major ≤ 0x7C

end Sys2Proof

namespace Sys2Proof.Machine


/-- The copy queue that a number names for a wave's cluster (R223). -/
def State.queueOf (s : State) (w : Wave) (q : Nat) : Nat := 4 * s.physCluster w.ctx w.clid + q

/-- The instruction waits for a full matrix, batch, copy or check queue (R208, R219, R223, R339). -/
def State.queueFull (s : State) (w : Wave) : Instr → Bool
  | .mmaBp _ | .mzero _ _ | .mrd _ | .mwr _ => 8 ≤ (s.twin (s.twinOf w)).queue.length
  | .mbatch _ _ => 8 ≤ (s.group w.group).batches.length
  | .tcopy o | .tcopyw o | .thash o => 64 ≤ (s.copiesIn (s.queueOf w o.queue.toNat)).length
  | .stS _ | .vst _ | .vstx _ => s.checked w && 256 ≤ (s.pair (s.pairOf w)).buffer.length
  | _ => false

/-- Whether the wave's post-instruction wait lets the instruction issue (R182, R292). -/
def Hold.allows (h : Hold) (i : Instr) : Bool :=
  match h with
  | .none | .commitReady => true
  | .fence _ _ => !i.behindFence
  | .writeback | .icinv _ | .txbegin | .acorn _ | .commit => false

/-- A checked pair lets a wave issue: it is not frozen, and while an acorn is wanted, or taken for a commit point, only that
commit point issues (R341-R345). -/
def State.pairAllows (s : State) (w : Wave) : Bool :=
  let p := s.pairOf w
  !(s.checked w) || (!(s.pair p).frozen &&
    (w.hold == .commitReady ||
      ((s.acornWanted p).isNone && !((s.pairWaves p).any fun k => (s.wave k).hold == .commitReady))))

/-- The image that a launch's kernels come from: its own, or its graph's (R274, R282). -/
def State.imageOf (s : State) (l : Nat) : Image :=
  s.images.getD (match (s.launch l).graph with
    | some g => (s.graph g).image
    | none => (s.launch l).image) default

/-- The preemption point at a wave's PC (R74, R318). -/
def State.pointOf (s : State) (w : Wave) : Option PreemptPoint := (s.imageOf w.launch).points.find? fun p => p.addr == w.pc

/-- A preemption request stops a wave before its next instruction (R318): at a point in U-mode, or after 16,384
instructions. -/
def State.mustSave (s : State) (w : Wave) : Bool :=
  (s.ctx w.ctx).preempting && ((w.priv == .u && (s.pointOf w).isSome) || 16384 ≤ w.sincePreempt)

/-- A wave is eligible for the issue of `i` (R15, R292): it runs, its start has come (R278), it waits for nothing, and in a
deterministic launch has not ended its quantum (R388). -/
def State.canIssue (s : State) (k : Nat) (i : Instr) : Bool :=
  let w := s.wave k
  (w.state == .ready || w.state == .handler) && decide (w.startAt ≤ s.cc) && w.trap.isNone && w.abort.isNone && !w.quantumDue && !w.quantumEnded
    && w.hold.allows i && !s.queueFull w i && s.pairAllows w && !s.mustSave w && !s.cp.fatal

/-! ### Register errors (R332, R333, R335) -/

/-- The errors among the registers and the other coded state that an instruction names. -/
def Wave.errsOf (w : Wave) (i : Instr) : List RegErr :=
  let regs := (operands i).flatMap w.regsOf ++ (i.cells ++ i.cellsWritten).map Reg.cell
  w.regErrs.filter fun e => regs.contains e.reg

/-- The errors among the registers and the other coded state that an instruction reads (R332, R333, R335). -/
def Wave.readErrs (w : Wave) (i : Instr) : List RegErr :=
  let regs := i.reads.flatMap w.regsOf ++ i.cells.map Reg.cell
  (w.errsOf i).filter fun e => regs.contains e.reg

/-- The errors that an instruction has written over once it has retired (R335): a scalar or predicate register is written whole, of
a vector register the bytes of the written lanes. A register that awaits a long write keeps its errors until that arrives. -/
def Wave.mended (x w : Wave) (i : Instr) : Wave :=
  let regs := i.writes.flatMap w.regsOf ++ i.cellsWritten.map Reg.cell
  let gone (e : RegErr) : Bool := regs.contains e.reg && !(x.pending.any fun l => l.dst == e.reg) &&
    match e.reg with
    | .v _ => (w.writtenLanes i).getLsbD (e.byte / 8)
    | _ => true
  if x.pc = w.pc || x.priv ≠ w.priv then x else { x with regErrs := x.regErrs.filter fun e => !gone e }

/-- An error that is corrected: a scalar or predicate register's code, or a vector register's mirror (R332, R335). -/
def RegErr.corrected (e : RegErr) (mirrored : Bool) : Bool :=
  match e.reg with
  | .v _ => mirrored && !e.mirrorBad
  | _ => !e.mirrorBad

/-- Register errors met by an instruction that reads them: corrected with a record each, or REG_ERROR (R333, R335, R344, R432). -/
def State.meetRegErrs (s : State) (k : Nat) (i : Instr) (go : State → State) : State :=
  let w := s.wave k
  let errs := w.readErrs i
  if errs.isEmpty then go s
  else
    let mirrored := (s.core (s.coreOf w)).mirrored
    if errs.all fun e => e.corrected mirrored then
      let s := errs.foldl (fun s e => s.record
        { s.waveRec k (match e.reg with | .v _ => 0x05 | _ => 0x03) 1 4 with synd := e.bit }) s
      go (s.modWave k fun w => { w with regErrs := w.regErrs.filter fun e => !errs.contains e })
    else if s.checked w then
      let bit := ((errs.find? fun e => !e.corrected mirrored).map RegErr.bit).getD 0
      s.mismatch (s.pairOf w) k { kind := 0, sev := 0, source := 4, cause := 0x42, synd := bit, pc := w.pc.toNat }
    else
      (s.record { s.waveRec k 0x06 2 4 with cause := 0x42 }).trapExec k 0x42

/-- The issue of instruction `i` by wave `k`: not while it is not eligible; a decode condition traps (R60); an instruction
that a transaction does not support aborts it (R189); a commit point of a checked pair first waits for its acorn, and is
followed by one (R341); otherwise the instruction's own effect. On a checked pair the shadow executes it too (R337). -/
def State.issueAt (s : State) (k : Nat) (i : Instr) (body : State → State) : State :=
  let w := s.wave k
  if !s.canIssue k i then s
  else
    let s := s.modWave k fun w => { w with lastIssue := s.cc, preempted := false }
    match w.decodeCheck i with
    | some cause => s.trapExec k cause
    | none =>
      let done := s.meetRegErrs k i fun s => s.onBoth k i fun s =>
        if w.txn.isSome && i.unsupported then s.abortTxn k 5 0
        else if s.checked w && i.commitPoint (w.priv == .s) w.txn.isSome then
          if w.hold = .commitReady then
            (body (s.modWave k fun w => { w with hold := .none })).modPair (s.pairOf w) fun q => { q with wanted := some 4 }
          else
            (s.modWave k fun w => { w with hold := .commit }).modPair (s.pairOf w) fun q => { q with wanted := some 4 }
        else body s
      if (w.errsOf i).isEmpty then done else done.modWave k fun x => x.mended w i

/-- The meaning of an instruction of the current wave, from its own effect. -/
def issue (i : Instr) (s : State) (body : Nat → State → State) : Host.Outcome State Fault Refusal :=
  match s.cur with
  | none => .fault .noWave
  | some k => .next (s.issueAt k i (body k))

/-- A step of an engine, the command processor or the outside: always a next state. -/
def event (s : State) : Host.Outcome State Fault Refusal := .next s

/-- Instruction `i` of wave `k` retires and the wave goes on with the next word. -/
def State.done (s : State) (k : Nat) (i : Instr) : State := s.retireAt k i (s.wave k).priv ((s.wave k).pc + 8)

/-- A change of the wave's own registers, then retirement. -/
def State.doneWith (s : State) (k : Nat) (i : Instr) (f : Wave → Wave) : State := (s.setWave k (f (s.wave k))).done k i

/-- An instruction whose effect is on the wave's own registers alone. -/
def regOp (i : Instr) (s : State) (f : Wave → Wave) : Host.Outcome State Fault Refusal := issue i s fun k s => s.doneWith k i f

end Sys2Proof.Machine
end

