-- ==== Sys2Proof/Machine/Access.lean ====
section
/-! DEFINITION. What the memory instructions share: addresses, translation, memory errors, loading and storing of lanes, and
scratchpad access (06 R170-R178, R189, R204, 01 R38, R39, 08 R261, 11 R333, R339, R344). -/

namespace Sys2Proof

/-- The byte offset of a load or store (R51, R170): `pos` is the lane of a contiguous access. -/
def MemF.offset (o : MemF) (index : Word) (pos : Nat) : Word :=
  (index <<< o.scale.toNat) + o.disp.signExtend 64 * BitVec.ofNat 64 o.size.bytes + BitVec.ofNat 64 (pos * o.size.bytes)

end Sys2Proof

namespace Sys2Proof.Machine

/-- The offsets of lanes: the index is Sb, or the lane of Vb (R170). -/
def offsetsOf (o : MemF) (w : Wave) (contiguous : Bool) (lanes : List Nat) : List (Nat × Word) :=
  lanes.map fun l => (l, o.offset (if o.ik then w.readS o.b.toNat else laneOf (w.readV o.b.toNat) l) (if contiguous then l else 0))

/-- The lanes' accesses of `n` bytes each, at a base register or through a window, which is refilled where that is due (R29,
R170). -/
def State.reach (s : State) (k cls : Nat) (store bk : Bool) (a : BitVec 8) (n : Nat) (offs : List (Nat × Word)) :
    State × List LaneReq :=
  let w := s.wave k
  if bk then (s, offs.map fun e => plainLane e.1 (w.readS a.toNat + e.2).toNat n)
  else
    let x := s.window w a.toNat
    let s :=
      if x.wantsRefill (offs.map fun e => e.2.toNat) then
        (s.postWalk { core := s.coreOf w, ctx := w.ctx, cls := cls, umode := w.priv == .u } x.vbase.toNat).modGroup w.group
          fun g => { g with windows := putAt {} g.windows a.toNat (s.refill w.ctx x) }
      else s
    let x := s.window w a.toNat
    (s, offs.map fun e => x.lane store e.1 e.2.toNat n)

/-- A refill that is due for a window would read an uncorrectable stage-2 entry, which is uncontained (R354). -/
def State.refillFatal (s : State) (k : Nat) (bk : Bool) (a : BitVec 8) (offs : List (Nat × Word)) : Bool :=
  let w := s.wave k
  let x := s.window w a.toNat
  !bk && x.wantsRefill (offs.map fun e => e.2.toNat) && match s.walk w.ctx x.vbase.toNat with
    | .error e => e == .badEntry2
    | .ok _ => false

/-- Frames reached through a window lie in the husk of the window's own frame, which the window's page fixed (R28, R308). -/
def State.noteHusk (s : State) (bk : Bool) (x : Window) (reqs : List LaneReq) : State :=
  if bk then s
  else
    let h := s.huskOf (x.pa 0)
    let frames := ((reqs.flatMap fun r => r.direct.filterMap id).map (· / 65536)).eraseDups
    frames.foldl (fun s f =>
      if s.isPeer (65536 * f) || s.huskOf (65536 * f) = h || s.cp.frameHusk.any (fun e => e.1 == f) then s
      else { s with cp := { s.cp with frameHusk := assign s.cp.frameHusk f h } }) s

/-- Accesses through a window whose GHUSK is denied are counted, one a frame as on the translation path (R308). -/
def State.noteDenied (s : State) (c : Nat) (bk : Bool) (x : Window) (reqs : List LaneReq) : State :=
  if bk || !x.denied then s
  else s.countDenials c ((reqs.flatMap fun r => r.direct.filterMap id).map (· / 65536)).eraseDups.length

/-- The walks of the pages that an access meets and its core's TLB does not hold (R172, R309). -/
def State.postWalks (s : State) (w : Wave) (cls : Nat) (reqs : List LaneReq) : State :=
  let core := s.coreOf w
  let asid := (s.ctx w.ctx).asid
  let pages := (reqs.flatMap fun r => if r.outOfRange then [] else r.paged.map fun b => b.2 / 65536).eraseDups
  let missing := pages.filter fun p => !((s.core core).tlb.any fun e => e.asid == asid && e.vpage == p)
  missing.foldl (fun s p => s.postWalk { core := core, ctx := w.ctx, cls := cls, umode := w.priv == .u } (65536 * p)) s

/-- A record of memory that reads uncorrectable (R350): at L1, a peer, or LPDDR6. -/
def State.memSource (s : State) (core : Nat) (pa : Nat) : Nat :=
  if s.isPeer pa then 11
  else if ((s.core core).sector (sectorOf pa)).any (fun x => x.dirty != 0) && !(s.l1Bits core (sectorOf pa)).isEmpty then 2
  else if s.l2Bad (sectorOf pa) then 1
  else 0

/-- MEM_ERROR (R333): to the wave with a MEM_UNC record; at IL3 the launch ends ABORTED (R344). -/
def State.memError (s : State) (k source pa : Nat) (mask : Mask) (va : Nat) : State :=
  let w := s.wave k
  let r := { s.waveRec k 0x04 2 source with cause := 0x41, addr := pa, vaddr := va }
  if s.checked w then ((s.record r).abortLaunch w.launch).killSilently k
  else
    let s := if w.txn.isSome then s else s.record r
    s.takeTrap k { cause := 0x41, mask := mask, addr := BitVec.ofNat 56 va }

/-- Translation and permission of an access with slack class `cls`, before any lane is performed (R59, R172, R178): a fault
traps, an uncorrectable stage-2 entry is uncontained (R354), and otherwise `go` takes each lane's bytes. -/
def State.access (s : State) (k cls : Nat) (kind : AccessKind) (bk : Bool) (a : BitVec 8) (n align : Nat)
    (offs : List (Nat × Word)) (exec : Option Mask) (go : State → List (Nat × List Nat) → State) : State :=
  let w := s.wave k
  let lost := s.refillFatal k bk a offs
  let (s, reqs) := s.reach k cls (kind == .store) bk a n offs
  let r := s.resolve w kind align reqs
  let s := s.postWalks w cls reqs
  if r.fatal || lost then s.fatalError 10 { kind := 0x11, sev := 3, esc := true, source := 10 }
  else
    match trapOf r.faults exec with
    | some t =>
      if t.cause = 0x41 then s.memError k 0 0 t.mask t.addr.toNat else s.raise k t
    | none => go (((s.keepPages w r.pages).noteHusk bk (s.window w a.toNat) reqs).noteDenied w.ctx bk (s.window w a.toNat) reqs) r.lanes

/-! ### Loads -/

/-- The lines homed on this device among some addresses. -/
def State.localLines (s : State) (pas : List Nat) : List Nat := ((pas.filter fun p => !s.isPeer p).map lineOf).eraseDups

/-- A line that a higher-indexed group of the deterministic launch has written (R204, R392). -/
def State.detOrder (s : State) (w : Wave) (pas : List Nat) : Bool :=
  s.detOf w && (s.localLines pas).any fun l => (s.group w.group).grpid.toNat < lookupD 0 (s.launch w.launch).writers l

/-- The access covers exactly one or two aligned 128-byte blocks, each as one event (R261). -/
def blockEvent (n : Nat) (lanes : List (Nat × List Nat)) : Bool :=
  match lanes with
  | [] => false
  | (l, pas) :: _ =>
    (pas.headD 0 % 128 == 0) &&
      ((n == 4 && lanes.length == 32) ||
        (n == 8 && (lanes.length == 32 || (lanes.length == 16 && (l == 0 || l == 16) && (lanes.map Prod.fst) == (List.range 16).map (· + l)))))

/-- The value of a lane from bytes by address. -/
def laneValue (z : Size) (bytes : List (Nat × Byte)) (pas : List Nat) : Word :=
  z.extend (ofBytes (pas.map fun p => lookupD 0 bytes p))

/-- The lanes, of those that meet a bad address, for the mask of MEM_ERROR; with the lowest. -/
def failing (lanes : List (Nat × List Nat)) (bad : List Nat) : List (Nat × List Nat) :=
  lanes.filter fun e => e.2.any bad.contains

/-- A transaction's load (R189): it aborts for a peer's line and for a 33rd line; the bytes are the home's, but for its own. -/
def State.txnLoad (s : State) (k : Nat) (t : Txn) (pas : List Nat) : Except (BitVec 4) (List (Nat × Byte) × Txn) :=
  if pas.any s.isPeer then .error 9
  else
    let reads := (pas.map lineOf).foldl (fun r l => if r.contains l then r else r ++ [l]) t.reads
    if 32 < reads.length then .error 2
    else
      let own := t.writes.reverse
      let home := (pas.filter fun p => (overlayByte own p).isNone).eraseDups.map fun p => (p, Memory.read s.mem.home p)
      let value (p : Nat) : Byte := (overlayByte own p).getD (lookupD 0 home p)
      .ok (pas.eraseDups.map fun p => (p, value p), { t with reads := reads, seen := t.seen ++ home.filter fun e => !t.seen.contains e })

/-- A load that meets bytes of an uncorrectable sector: MEM_ERROR at the first of the lowest lane (R333); `exec` replaces the
mask. -/
def State.badLoad (s : State) (k : Nat) (lanes : List (Nat × List Nat)) (vas : List (Nat × Nat)) (exec : Option Mask)
    (bad : List Nat) : State :=
  let f := failing lanes bad
  let lane := (f.head?.map Prod.fst).getD 0
  let pa := ((f.head?.map Prod.snd).getD []).find? bad.contains |>.getD 0
  s.memError k (s.memSource (s.coreOf (s.wave k)) pa) pa (exec.getD (maskOf (f.map Prod.fst).contains)) (lookupD 0 vas lane)

/-- A load inside a transaction (R189). -/
def State.loadInTxn (s : State) (k : Nat) (a : Asker) (t : Txn) (lanes : List (Nat × List Nat)) (vas : List (Nat × Nat))
    (exec : Option Mask) (go : State → List (Nat × Byte) → State) : State :=
  let pas := lanes.flatMap Prod.snd
  let secs := (pas.map sectorOf).eraseDups
  let s := secs.foldl (fun s sec => s.heal sec a.ctx) s
  let bad := pas.filter s.byteBad
  if !bad.isEmpty then s.badLoad k lanes vas exec bad
  else match s.txnLoad k t pas with
    | .error r => s.abortTxn k r 0
    | .ok (bytes, t) => go ((secs.foldl (fun s sec => s.post a sec false) s).modWave k fun w => { w with txn := some t }) bytes

/-- A load outside transactions. -/
def State.loadPlain (s : State) (k : Nat) (a : Asker) (hint : Nat) (lanes : List (Nat × List Nat)) (vas : List (Nat × Nat))
    (exec : Option Mask) (go : State → List (Nat × Byte) → State) : State :=
  let r := s.loadBytes k a hint (lanes.flatMap Prod.snd)
  if r.2.1.isEmpty then go r.2.2 r.1 else r.2.2.badLoad k lanes vas exec r.2.1

/-- What comes before a load's bytes: the wave's own atomics to its sectors, and for an access that is one event the core's
clean copies (R252, R261). -/
def State.beforeLoad (s : State) (k : Nat) (event : Bool) (lanes : List (Nat × List Nat)) : State :=
  let secs := ((lanes.flatMap Prod.snd).map sectorOf).eraseDups
  let s := s.drainSectors k secs
  if event then s.modCore (s.coreOf (s.wave k)) fun c => c.dropClean fun x => secs.contains x.sec else s

/-- The bytes of a load of wave `k` for its lanes (R171, R175, R189, R251, R333), handed on as the state and the bytes by
address; `exec` replaces the mask of a MEM_ERROR. -/
def State.load (s : State) (k cls hint : Nat) (event : Bool) (lanes : List (Nat × List Nat)) (vas : List (Nat × Nat))
    (exec : Option Mask) (go : State → List (Nat × Byte) → State) : State :=
  let w := s.wave k
  let a : Asker := { core := s.coreOf w, ctx := w.ctx, umode := w.priv == .u, cls := cls }
  if s.detOrder w (lanes.flatMap Prod.snd) then s.trapExec k 0x60
  else match w.txn with
    | some t => (s.beforeLoad k event lanes).loadInTxn k a t lanes vas exec go
    | none => (s.beforeLoad k event lanes).loadPlain k a hint lanes vas exec go

/-! ### Stores -/

/-- The bytes of a store, the lowest lane's last where lanes meet (R175). -/
def storeBytes (n : Nat) (lanes : List (Nat × List Nat)) (value : Nat → Word) : List (Nat × Byte) :=
  lanes.reverse.flatMap fun e => e.2.zip (bytesOf n (value e.1).toNat)

/-- A store of wave `k` performed, buffered, held or checked (R189, R204, R250, R339). -/
def State.store (s : State) (k cls : Nat) (hint : BitVec 2) (event perWave : Bool) (n : Nat) (lanes : List (Nat × List Nat))
    (va : Nat) (bytes : List (Nat × Byte)) (go : State → State) : State :=
  let w := s.wave k
  let core := s.coreOf w
  let a : Asker := { core := core, ctx := w.ctx, cls := cls, umode := w.priv == .u }
  let entry (b : List (Nat × Byte)) : CheckEntry :=
    { wave := k, pc := w.pc, core := core, ctx := w.ctx, va := va, pa := ((lanes.head?.map Prod.snd).getD []).headD 0, bytes := b
      size := n, mask := maskOf (lanes.map Prod.fst).contains, perWave := perWave
      hint := if s.detOf w then 2 else hint, cls := cls, event := event && !s.detOf w }
  let check (s : State) (b : List (Nat × Byte)) : State := s.modPair (s.pairOf w) fun p => { p with buffer := p.buffer ++ [entry b] }
  match w.txn with
  | some t =>
    if (bytes.map Prod.fst).any s.isPeer then s.abortTxn k 9 0
    else
      let lines := (bytes.map fun e => lineOf e.1).foldl (fun r l => if r.contains l then r else r ++ [l]) t.lines
      if 16 < lines.length then s.abortTxn k 3 0
      else
        let s := s.modWave k fun w => { w with txn := some { t with lines := lines, writes := t.writes ++ bytes } }
        go (if s.checked w then check s [] else s)
  | none =>
    if s.holdsOf w then
      let s := s.modWave k fun w => { w with effects := w.effects ++ [.store cls bytes] }
      go (if s.checked w then check s [] else s)
    else
    let s := if s.detOf w then s.modWave k fun w => w.overtake false (bytes.map Prod.fst) else s
    if s.checked w then go (check s bytes)
    else if s.detOf w then
      go ((s.storeAtCore a 2 bytes).markWriters w.launch (s.group w.group).grpid.toNat (bytes.map Prod.fst))
    else go ((s.drainSectors k (bytes.map fun e => sectorOf e.1).eraseDups).storePlain a hint.toNat event bytes)

/-! ### Scratchpad (R38, R39, R177) -/

/-- Whether a byte at a 64-bit scratchpad address may be accessed by a wave (R39). -/
def State.spAllowed (s : State) (w : Wave) (addr : Nat) : Bool :=
  let off := bits addr 19 0
  let cl := bits addr 27 22
  let g := s.group w.group
  decide (off < 0xC0000) && addr >>> 28 == 0 && (cl == w.clid || cl == w.clid ^^^ 1) &&
    if w.priv = .u then
      (cl == w.clid || g.clusters.contains cl) && decide (g.spbase.toNat ≤ off) && decide (off < g.spbase.toNat + g.spsize.toNat)
    else decide (cl < (s.ctx w.ctx).clusterMap.length)

/-- The key of a scratchpad byte (R38). -/
def State.spKeyOf (s : State) (w : Wave) (addr : Nat) : Nat :=
  spKey (s.physCluster w.ctx (bits addr 27 22)) (bits addr 21 20) (bits addr 19 0)

/-- A scratchpad byte as wave `k` finds it: what stood there before other waves' copies of a deterministic launch (R393). -/
def State.spSeen (s : State) (k : Nat) (key : Nat) : Byte :=
  let old := (s.launches.flatMap fun l => l.spVeils).flatMap fun v => if v.wave = k then [] else v.old
  (overlayByte old key).getD (s.readSp key)

/-- The wave's own held scratchpad bytes, latest first (R390). -/
def State.spOwn (s : State) (k : Nat) : List (Nat × Byte) :=
  ((s.wave k).effects.flatMap fun e => match e with
    | .sp l => l
    | _ => []).reverse

/-- What the shadow of wave `k` reads at a key of its own cluster (R338, R390). -/
def State.spShadow (s : State) (k : Nat) (key : Nat) : Byte := (overlayByte (s.spOwn k) (key - 2 ^ 22)).getD (s.readSp key)

/-- Scratchpad bytes as wave `k` reads them: its own held ones first (R390). -/
def State.spByte (s : State) (k : Nat) (key : Nat) : Byte :=
  (overlayByte (s.spOwn k) key).getD (s.spSeen k key)

/-- The requests of an access to scratchpad of other cores, one a core, to the stops of their clusters (R172, R177). -/
def State.postSp (s : State) (w : Wave) (cls : Nat) (write : Bool) (keys : List Nat) : State :=
  let a : Asker := { core := s.coreOf w, ctx := w.ctx, cls := cls, umode := w.priv == .u }
  (((keys.map (· / 2 ^ 20)).eraseDups).filter (· != a.core)).foldl (fun s core => s.postTo a (core / 4) write) s

/-- The accesses of a scratchpad instruction: each lane's keys, after the checks of R39; a failing lane is an SP_RANGE. -/
def State.spAccess (s : State) (k cls n : Nat) (write : Bool) (addrs : List (Nat × Nat)) (go : State → List (Nat × List Nat) → State) :
    State :=
  let w := s.wave k
  let at_ (a : Nat) : List Nat := (List.range n).map fun j => (a + j) % 2 ^ 64
  let bad := addrs.filter fun e => (at_ e.2).any fun b => !s.spAllowed w b
  match trapOf (bad.map fun e => (e.1, 0x11, e.2)) none with
  | some t => s.takeTrap k t
  | none =>
    let lanes := addrs.map fun e => (e.1, (at_ e.2).map (s.spKeyOf w))
    go (s.postSp w cls write (lanes.flatMap Prod.snd)) lanes

/-- A scratchpad read that meets an uncorrectable word (R333): MEM_ERROR, or the mismatch sequence on a checked pair (R344);
the records name the address that fails (R432). -/
def State.spError (s : State) (k : Nat) (lanes : List (Nat × List Nat)) (bad : List Nat) (vas : List (Nat × Nat)) : State :=
  let w := s.wave k
  let f := failing lanes bad
  let lane := (f.head?.map Prod.fst).getD 0
  let va := lookupD 0 vas lane
  let key := (((f.head?.map Prod.snd).getD []).find? bad.contains).getD 0
  let at_ := s.spAddr w.ctx key
  if s.checked w then
    s.mismatch (s.pairOf w) k { kind := 0, sev := 0, source := 3, cause := 0x41, addr := at_
                                synd := (s.spBits key).headD 0 % 64, pc := w.pc.toNat }
  else
    let r := { s.waveRec k 0x04 2 3 with cause := 0x41, addr := at_, synd := (s.spBits key).headD 0 % 64 }
    let s := if w.txn.isSome then s else s.record r
    s.takeTrap k { cause := 0x41, mask := maskOf (f.map Prod.fst).contains, addr := BitVec.ofNat 56 va }

/-- Scratchpad bytes written by wave `k`: held in a deterministic launch (R204); on a checked pair noted, and written on both
clusters (R338, R342). -/
def State.spStore (s : State) (k : Nat) (bytes : List (Nat × Byte)) : State :=
  let w := s.wave k
  if s.holdsOf w then s.modWave k fun w => { w with effects := w.effects ++ [.sp bytes] }
  else
    let s := if s.detOf w then s.modWave k fun w => w.overtake true (bytes.map Prod.fst) else s
    let s := if s.checked w then s.noteBlocks (s.pairOf w) (bytes.map Prod.fst) else s
    s.writeSpBoth (s.checked w) bytes

end Sys2Proof.Machine
end

