-- ==== Sys2Proof/Machine/AtomicOps.lean ====
section
/-! DEFINITION. VATOM and SATOM (06 R184-R187, R204). -/

namespace Sys2Proof

/-- The byte offset of an atomic: index and displacement are scaled by the access size (R64). -/
def AtomF.offset (o : AtomF) (index : Word) : Word := (index + o.disp.signExtend 64) * BitVec.ofNat 64 (atomBytes o.w64)

/-- What a deterministic launch refuses of an atomic at scope 3 or 4, the first row of R204 that applies. -/
def AtomF.detCause (o : AtomF) : Option (BitVec 7) :=
  if o.scope != .device && o.scope != .system then none
  else if o.ret || o.op == .swap || o.op == .cas then some 0x61
  else if o.op == .fadd then some 0x62
  else none

end Sys2Proof

namespace Sys2Proof.Machine

/-- One request per distinct address, in order of first lane (R187): lane, data and compare value of each lane. -/
def gather (lanes : List (Nat × List Nat)) (data : Nat → Nat × Nat) : List (Nat × List (Nat × Nat × Nat)) :=
  let pas := (lanes.map fun e => e.2.headD 0).eraseDups
  pas.map fun pa => (pa, (lanes.filter fun e => e.2.headD 0 == pa).map fun e => (e.1, data e.1))

/-- The request of an atomic instruction, without its wave, tag, addresses and lanes. -/
def atomRequest (o : AtomF) : AtomReq :=
  { (default : AtomReq) with op := o.op, w64 := o.w64, ret := o.ret, scope := o.scope, slack := o.slack.toNat }

/-- Requests `r` of wave `k` on lanes with their offsets from a base (R184-R187, R241): `data` gives data and compare value of
a lane; `dst` is the long destination and what it holds before. -/
def State.atomic (s : State) (k : Nat) (i : Instr) (r : AtomReq) (bk : Bool) (base : BitVec 8) (offs : List (Nat × Word))
    (exec : Option Mask) (data : Nat → Nat × Nat) (dst : Reg) (before : RegVal) : State :=
  let w := s.wave k
  let n := atomBytes r.w64
  s.access k r.slack .store bk base n n offs exec fun s lanes =>
    let bad := (lanes.flatMap Prod.snd).filter s.byteBad
    let vas := (s.reach k r.slack true bk base n offs).2.map fun r => (r.lane, r.va)
    if !bad.isEmpty then
      let f := failing lanes bad
      s.memError k (s.memSource (s.coreOf w) (bad.headD 0)) (bad.headD 0) (exec.getD (maskOf (f.map Prod.fst).contains))
        (lookupD 0 vas ((f.head?.map Prod.fst).getD 0))
    else
      let tag := s.tag
      let reqs := (gather lanes data).map fun e =>
        ({ r with wave := k, tag := tag, ctx := w.ctx, va := lookupD 0 vas ((e.2.head?.map Prod.fst).getD 0), pa := e.1
                  lanes := e.2 } : AtomReq)
      let s := { s with tag := tag + 1 }
      let s := if r.ret then s.modWave k fun w => w.long dst before reqs.length tag else s
      let s :=
        if s.holdsOf w then s.modWave k fun w => { w with effects := w.effects ++ reqs.map Effect.atomic }
        else { s with atomics := s.atomics ++ reqs }
      s.done k i

/-- A VATOM or SATOM: what a deterministic launch refuses comes first (R204). -/
def State.atomicOp (s : State) (k : Nat) (i : Instr) (o : AtomF) (offs : List (Nat × Word)) (exec : Option Mask)
    (data : Nat → Nat × Nat) (dst : Reg) (before : RegVal) : State :=
  match (if s.detOf (s.wave k) then o.detCause else none) with
  | some c => s.trapExec k c
  | none => s.atomic k i (atomRequest o) o.bk o.a offs exec data dst before

/-- VATOM: each active lane (R184). -/
def execVatom (o : AtomF) (s : State) : Host.Outcome State Fault Refusal :=
  issue (.vatom o) s fun k s =>
    let w := s.wave k
    let d := w.readV o.d.toNat
    let offs := (lanesOf (w.governing o.pn o.pi)).map fun l => (l, o.offset (laneOf (w.readV o.b.toNat) l))
    s.atomicOp k (.vatom o) o offs none
      (fun l => if o.op = .cas then ((laneOf (w.readV (o.d.toNat + 1)) l).toNat, (laneOf d l).toNat) else ((laneOf d l).toNat, 0))
      (.v o.d.toNat) (.v d)

/-- SATOM: once per wave (R184). -/
def execSatom (o : AtomF) (s : State) : Host.Outcome State Fault Refusal :=
  issue (.satom o) s fun k s =>
    let w := s.wave k
    let d := (w.readS o.d.toNat).toNat
    s.atomicOp k (.satom o) o [(0, o.offset (w.readS o.b.toNat))] (some w.exec)
      (fun _ => if o.op = .cas then ((w.readS (o.d.toNat + 1)).toNat, d) else (d, 0))
      (w.sReg o.d.toNat) (.s (w.readS o.d.toNat))

end Sys2Proof.Machine
end

