-- ==== Sys2Proof/Machine/Copy.lean ====
section
/-! DEFINITION. The copy engines: descriptors, queues, the copies themselves, tensor-slot pushes and the waits for tickets
(07 R223-R235, R243-R245, 03 R97, R98, R104, R106, 08 R262, R265, 11 R333, 13 R389, R393, R398). -/

namespace Sys2Proof.Machine

/-! ### Descriptors (R224-R230) -/

/-- The signed fields of 8 bytes at an offset. -/
def strides (b : List Byte) (off : Nat) : List Int := (List.range 9).map fun j => toSigned 64 (fieldAt b (off + 8 * j) 8)

/-- Bytes of an element format of a push (R225). -/
def afmtBytes (afmt : Nat) : Nat := [1, 2, 4, 4, 2, 2, 1, 1].getD afmt 0

/-- The fields of a window word (R229). -/
structure WinWord where
  kw : Nat
  kh : Nat
  sw : Nat
  sh : Nat
  dw : Nat
  dh : Nat
  padl : Nat
  padt : Nat
  ncol : Nat
  ow0 : Nat
  oh0 : Nat
deriving DecidableEq, Repr

def winWord (x : Nat) : WinWord :=
  { kw := bits x 2 0, kh := bits x 5 3, sw := bits x 8 6, sh := bits x 11 9, dw := bits x 14 12, dh := bits x 17 15
    padl := bits x 22 18, padt := bits x 27 23, ncol := bits x 34 28, ow0 := bits x 48 35, oh0 := bits x 62 49 }

/-- K of plane mode and of window mode (R228, R229). -/
def Copy.kdim (c : Copy) : Nat :=
  match c.kind with
  | .window =>
    let w := winWord c.win
    (c.ext.getD 0 0 * w.kh * w.kw + 127) / 128 * 128
  | .plain | .plane | .hash => c.ext.getD 0 0

/-- What R228 and R229 require of both plane and window mode. -/
def Copy.tilesOk (c : Copy) : Bool :=
  c.esize == 1 && !c.srcSp && c.dstSp && c.dst % 1024 == 0 && c.dstride.all (· == 0)
    && decide (2 ≤ c.planes) && decide (c.planes ≤ if c.i4 then 4 else 8) && (!c.i4 || c.sstride.getD 0 0 == 1)

/-- The constraints of a copy's mode (R226-R230). -/
def Copy.modeOk (c : Copy) : Bool :=
  match c.kind with
  | .plain => !c.trace && !c.i4 && c.planes == 0
  | .plane => !c.trace && c.tilesOk && c.ext.length == 2 && c.ext.getD 1 0 == 64 && c.kdim % 128 == 0 && decide (c.kdim ≤ 65536)
  | .window =>
    let w := winWord c.win
    !c.trace && c.tilesOk && c.ext.length == 3 && !([w.kw, w.kh, w.sw, w.sh, w.dw, w.dh].contains 0)
      && decide (1 ≤ w.ncol) && decide (w.ncol ≤ 64) && !bitAt c.win 63 && decide (c.kdim ≤ 65536)
      && (!c.i4 || (-8 ≤ toSigned 8 c.pad && toSigned 8 c.pad ≤ 7))
  | .hash => !c.i4 && c.planes == 0 && c.slot.isNone && c.dstride.all (· == 0) && (c.dstSp || c.dst % 64 == 0)

/-- Reserved fields of a descriptor, and those that its instruction does not use (R224-R226). -/
def descReserved (b : List Byte) (window : Bool) : Bool :=
  let ctl := fieldAt b 16 8
  fieldAt b 24 8 != 0 || fieldAt b 68 4 != 0 || fieldAt b 232 24 != 0 || bitAt ctl 15 || ctl >>> 27 != 0
    || fieldAt b 225 7 != 0 || (!window && (fieldAt b 216 8 != 0 || fieldAt b 224 1 != 0))

/-- The copy that a descriptor asks for, by the instruction's mode in MODE 0; none is a COPY_DESC (R224-R230). -/
def copyOf (b : List Byte) (mode : CopyKind) (c : Copy) : Option Copy :=
  let ctl := fieldAt b 16 8
  let n := bits ctl 3 0
  let kind := if mode = .plain && bits ctl 9 8 = 1 then .plane else mode
  let d : Copy := { c with
    kind := kind, srcSp := bitAt ctl 6, dstSp := bitAt ctl 7, src := fieldAt b 0 8, dst := fieldAt b 8 8
    esize := 2 ^ bits ctl 5 4, ext := (List.range n).map fun j => fieldAt b (32 + 4 * j) 4
    sstride := strides b 72, dstride := strides b 144, win := fieldAt b 216 8, pad := fieldAt b 224 1
    i4 := bitAt ctl 10, planes := bits ctl 14 11, slot := if bitAt ctl 22 then some (bits ctl 21 16) else none
    afmt := bits ctl 25 23, trace := bitAt ctl 26 }
  if descReserved b (mode == .window) || n = 0 || 9 < n || d.ext.contains 0
      || (bits ctl 9 8 != 0 && kind != .plane) || (d.slot.isSome && afmtBytes d.afmt != d.esize) || !d.modeOk then none
  else some d

/-- The lowest address that a traversal reaches, and the number of bytes up to its highest (R226). -/
def bounding (base : Nat) (ext : List Nat) (st : List Int) (esize : Nat) : Int × Nat :=
  let steps := ext.zip st
  let lo := steps.foldl (fun x e => x + min 0 (((e.1 : Int) - 1) * e.2)) (base : Int)
  let hi := steps.foldl (fun x e => x + max 0 (((e.1 : Int) - 1) * e.2)) (base : Int)
  (lo, (hi - lo).toNat + esize)

/-- The scratchpad ranges of a copy (R226). -/
def Copy.spRanges (c : Copy) : List (Int × Nat) :=
  (if c.srcSp then [bounding c.src c.ext c.sstride c.esize] else []) ++
    if !c.dstSp then []
    else match c.kind with
      | .plain => [bounding c.dst c.ext c.dstride c.esize]
      | .hash => [((c.dst : Int), 64)]
      | .plane | .window => [((c.dst : Int), 1024 * c.planes * (c.kdim / 128))]

/-- Whether a range passes R39 for a wave. -/
def State.spRangeOk (s : State) (w : Wave) (r : Int × Nat) : Bool :=
  let lo := r.1.toNat
  decide (0 ≤ r.1) && decide (lo % 2 ^ 20 + r.2 ≤ 0xC0000) && s.spAllowed w lo && s.spAllowed w (lo + r.2 - 1)

/-! ### Reading and writing by the engine (R231, R265, R333) -/

/-- Why an element stops a copy: a cause, or none for an uncontained event, and the failing address; cause 0 where the write
data of a checked pair's two engines differ (R244). -/
abbrev CopyStop := Option (BitVec 7) × Nat

/-- The physical address of a byte for a copy, through both stages (R232). -/
def State.copyByte (s : State) (c : Copy) (kind : AccessKind) (va : Nat) : Except CopyStop (Nat × TlbEntry) :=
  if 2 ^ 56 ≤ va then .error (some 0x10, va)
  else
    match s.walk c.ctx va with
    | .error .badEntry2 => .error (none, va)
    | .error e => .error (some (e.cause kind), va)
    | .ok l =>
      let e := s.entryOf (s.ctx c.ctx).asid va l
      match s.permit c.ctx kind (!c.smode) e va with
      | some x => .error (some (x.cause kind), va)
      | none => .ok (e.ppage * 65536 + va % 65536, e)

/-- The physical addresses of consecutive bytes for a copy. -/
def State.copyBytes (s : State) (c : Copy) (kind : AccessKind) (addr n : Nat) : Except CopyStop (List (Nat × TlbEntry)) :=
  (List.range n).foldl (fun acc j =>
    match acc with
    | .error e => .error e
    | .ok l => match s.copyByte c kind ((addr + j) % 2 ^ 64) with
      | .error e => .error e
      | .ok x => .ok (l ++ [x])) (.ok [])

/-- The scratchpad keys of consecutive bytes for a copy (R38). -/
def State.copyKeys (s : State) (c : Copy) (addr n : Nat) : List Nat :=
  (List.range n).map fun j =>
    let a := (addr + j) % 2 ^ 64
    spKey (s.physCluster c.ctx (bits a 27 22)) (bits a 21 20) (bits a 19 0)

/-- Who asks for a copy's sectors: its cluster, with the class of the issuing instruction (R378). -/
def Copy.asker (s : State) (c : Copy) : Asker := { core := s.coreOf (s.wave c.wave), ctx := c.ctx, cls := c.slack }

/-- The frames that a copy touches get their husk, and a denied one counts (R308, R366). -/
def State.noteFrames (s : State) (c : Copy) (l : List (Nat × TlbEntry)) : State :=
  (l.foldl (fun s e => s.noteFrame c.ctx e.2) s).countDenials c.ctx (denials ((l.map Prod.snd).eraseDups))

/-- Sectors read for an engine, with the bytes that they cannot give. -/
def State.readSectors (s : State) (a : Asker) (secs : List Nat) : List (Nat × List Byte × BitVec 64) × State :=
  secs.foldl (fun (acc : List (Nat × List Byte × BitVec 64) × State) sec =>
    let (d, bad, s) := acc.2.nearRead a sec
    (acc.1 ++ [(sec, d, bad)], s)) ([], s)

/-- A byte of sectors read, and whether it cannot be read. -/
def sectorByte (views : List (Nat × List Byte × BitVec 64)) (pa : Nat) : Byte := (lookupD ([], 0) views (sectorOf pa)).1.getD (pa % 64) 0
def sectorFails (views : List (Nat × List Byte × BitVec 64)) (pa : Nat) : Bool :=
  (lookupD ([], 0) views (sectorOf pa)).2.getLsbD (pa % 64)

/-- The bytes of a memory sector or scratchpad before a copy of a deterministic launch, kept for other waves (R393). -/
def veilWith (l : List Veil) (wave q seq : Nat) (old : List (Nat × Byte)) : List Veil :=
  if l.any fun v => v.queue == q && v.seq == seq then
    l.map fun v => if v.queue = q && v.seq = seq then { v with old := v.old ++ old.filter fun e => !(v.old.any fun o => o.1 == e.1) } else v
  else l ++ [{ wave := wave, queue := q, seq := seq, old := old }]

/-- A copy reads bytes (R231, R265): scratchpad, or the homes and the remote data cache; in a deterministic launch the writer
index counts, and other waves' copies stay unseen (R245, R390, R392, R393). -/
def State.copyRead (s : State) (c : Copy) (addr n : Nat) : Except CopyStop (List Byte × State) :=
  if c.srcSp then
    let keys := s.copyKeys c addr n
    match (List.range n).find? fun j => s.spBad (keys.getD j 0) with
    | some j => .error (some 0x41, addr + j)
    | none =>
      let s := keys.foldl (fun s k => s.healSp k c.ctx) s
      .ok (keys.map (s.spSeen c.wave), s)
  else
    match s.copyBytes c .load addr n with
    | .error e => .error e
    | .ok l =>
      let pas := l.map Prod.fst
      let s := s.noteFrames c l
      if s.detOrder (s.wave c.wave) pas then .error (some 0x60, addr)
      else
        let (views, s) := s.readSectors (c.asker s) ((pas.map sectorOf).eraseDups)
        match (List.range n).find? fun j => sectorFails views (pas.getD j 0) with
        | some j => .error (some 0x41, addr + j)
        | none =>
          let veil := if s.detOf (s.wave c.wave) then s.veiled c.wave else []
          .ok (pas.map fun pa => (overlayByte veil pa).getD (sectorByte views pa), s)

/-- A copy's scratchpad bytes also enter the blocks that an acorn store holds (R342). -/
def State.copiedBlocks (s : State) (p : Nat) (bytes : List (Nat × Byte)) : State :=
  s.modPair p fun q => { q with snapshot := q.snapshot.map fun x => { x with blocks := x.blocks.map fun e =>
    (e.1, bytes.foldl (fun d b => if b.1 / 64 = e.1 then d.set (b.1 % 64) b.2 else d) e.2) } }

/-- A copy writes bytes (R231, R244, R393): scratchpad, or their homes; other waves of a deterministic launch keep reading
what stood there. -/
def State.copyWrite (s : State) (c : Copy) (q addr : Nat) (data : List Byte) : Except CopyStop State :=
  if c.dstSp then
    let bytes := (s.copyKeys c addr data.length).zip data
    let w := s.wave c.wave
    let s :=
      if s.detOf w then
        let old := (bytes.map Prod.fst).map fun key => (key, s.readSp key)
        s.modLaunch w.launch fun x => { x with spVeils := veilWith x.spVeils c.wave q c.seq old }
      else s
    .ok ((s.writeSpBoth (s.checked w) bytes).copiedBlocks (q / 8) bytes)
  else
    match s.copyBytes c .store addr data.length with
    | .error e => .error e
    | .ok l =>
      let s := s.noteFrames c l
      let bytes := (l.map Prod.fst).zip data
      let w := s.wave c.wave
      let s :=
        if s.detOf w then
          let old := (bytes.map Prod.fst).map fun pa => (pa, Memory.read s.mem.home pa)
          let s := s.modLaunch w.launch fun x => { x with veils := veilWith x.veils c.wave q c.seq old }
          s.markWriters w.launch (s.group w.group).grpid.toNat (bytes.map Prod.fst)
        else s
      .ok (s.storeAtHome (c.asker s) bytes)

/-! ### Traversal (R227-R230) -/

/-- The number of elements of a traversal, and the offset of the `n`-th, dimension 0 fastest (R227). -/
def countOf (ext : List Nat) : Nat := ext.foldl (· * ·) 1
def offsetAt : List Nat → List Int → Nat → Int
  | e :: ext, st :: strides, n => ((n % e : Nat) : Int) * st + offsetAt ext strides (n / e)
  | _, _, _ => 0

/-- An address of 64 bits with a signed offset. -/
def addrPlus (base : Nat) (off : Int) : Nat := wrapTo 64 ((base : Int) + off)

/-- An element's value in the format of a push: its magnitude as an FP32 code rounded up, or none for a NaN (R104). -/
def absCode (afmt x : Nat) : Option Nat :=
  let up (v : FX) : Nat := Fmt.fp32.round .ru false 0 v
  let int (w : Nat) : Option Nat :=
    let n := (toSigned w x).natAbs
    some (if n = 0 then 0 else up (.val false n 1 0))
  let flt (f : Fmt) : Option Nat := if f.isNaN x then none else some (up (f.decode (f.mag x)))
  match afmt with
  | 0 => int 8 | 1 => int 16 | 2 => int 32 | 3 => flt .fp32 | 4 => flt .fp16 | 5 => flt .bf16 | 6 => flt .e4m3
  | _ => flt .e5m2

/-- An element read enters the maximum of the push (R104). DESIGN CHOICE (log 77): R104 gives no maximum where every element is a
NaN, or where a TCOPYW read padding only; the entry pushed is then +0, which `amax` starts from. -/
def Copy.see (c : Copy) (data : List Byte) : Copy :=
  if c.slot.isNone then c
  else match absCode c.afmt (ofBytes data) with
    | some m => { c with amax := max c.amax m }
    | none => { c with nan := true }

/-- The elements that a copy handles. -/
def Copy.total (c : Copy) : Nat :=
  match c.kind with
  | .plain | .hash => countOf c.ext
  | .plane | .window => 64 * c.kdim

/-- Where the element of a row and place comes from in plane and window mode: a constant, or an address and which nibble
(R228, R229). -/
def Copy.source (c : Copy) (n : Nat) : Int ⊕ (Nat × Nat) :=
  let row := n / c.kdim
  let k := n % c.kdim
  let st (j : Nat) : Int := c.sstride.getD j 0
  let chan (x : Nat) : Int := if c.i4 then ((x / 2 : Nat) : Int) else (x : Int) * st 0
  match c.kind with
  | .window =>
    let w := winWord c.win
    let ch := c.ext.getD 0 1
    let t := k / ch
    let h : Int := ((w.oh0 * w.sh : Nat) : Int) - (w.padt : Nat) + (t / w.kw * w.dh : Nat)
    let x : Int := (((w.ow0 + row) * w.sw : Nat) : Int) - (w.padl : Nat) + (t % w.kw * w.dw : Nat)
    if w.ncol ≤ row ∨ ch * w.kh * w.kw ≤ k then .inl 0
    else if 0 ≤ h ∧ h < (c.ext.getD 2 0 : Nat) ∧ 0 ≤ x ∧ x < (c.ext.getD 1 0 : Nat) then
      .inr (addrPlus c.src (h * st 2 + x * st 1 + chan (k % ch)), k % ch % 2)
    else .inl (toSigned 8 c.pad)
  | .plain | .plane | .hash => .inr (addrPlus c.src ((row : Int) * st 1 + chan k), k % 2)

/-- The k-step tiles of which every element has been converted. -/
def Copy.tilesDone (c : Copy) : Nat := (c.done - 63 * c.kdim) / 128

/-- Byte `b` of the plane tile of plane `i` and k-step `st`, from the elements converted (R97, R98, R228). -/
def Copy.tileByte (c : Copy) (i st b : Nat) : Byte :=
  let bit (t : Nat) : Bool :=
    let x := toSigned 8 (c.taken.getD (b / 16 * c.kdim + 128 * st + 8 * (b % 16) + t) 0).toNat
    let y := x / (2 ^ ((if c.i4 then 4 else 8) - c.planes) : Nat)
    (wrapTo 8 y).testBit (c.planes - 1 - i)
  BitVec.ofNat 8 ((List.range 8).foldr (fun t acc => (bit t).toNat + 2 * acc) 0)

/-- The tiles of some k-steps are written, each whole (R228, R232). -/
def State.writeTiles (s : State) (c : Copy) (q from_ to_ : Nat) : State :=
  let ks := c.kdim / 128
  (List.range (to_ - from_)).foldl (fun s d =>
    (List.range c.planes).foldl (fun s i =>
      match s.copyWrite c q (c.dst + 1024 * (i * ks + from_ + d)) ((List.range 1024).map (c.tileByte i (from_ + d))) with
      | .ok s => s
      | .error _ => s) s) s

/-- On a checked pair, whether the element that the other cluster's engine reads from its own scratchpad differs (R244). -/
def State.engineDiffers (s : State) (c : Copy) (addr n : Nat) : Bool :=
  s.checked (s.wave c.wave) && c.srcSp && !c.dstSp && (s.copyKeys c addr n).any fun key => s.readSp key != s.readSp (key + 2 ^ 22)

/-- One element of a copy. DESIGN CHOICE (log 77): of a packed i4 element (I4 = 1) the value that enters a push is the nibble
sign-extended to a byte, which is then read in AFMT; R104 names no AFMT for i4. -/
def State.copyElement (s : State) (c : Copy) (q : Nat) : Except CopyStop (State × Copy) :=
  let n := c.done
  match c.kind with
  | .plain =>
    let src := addrPlus c.src (offsetAt c.ext c.sstride n)
    match s.copyRead c src c.esize with
    | .error e => .error e
    | .ok (data, s) =>
      if s.engineDiffers c src c.esize then .error (some 0, src) else
      match s.copyWrite c q (addrPlus c.dst (offsetAt c.ext c.dstride n)) data with
      | .error e => .error e
      | .ok s => .ok (s, { (c.see data) with done := n + 1 })
  | .hash =>
    match s.copyRead c (addrPlus c.src (offsetAt c.ext c.sstride n)) c.esize with
    | .error e => .error e
    | .ok (data, s) => .ok (s, { c with done := n + 1, taken := c.taken ++ data })
  | .plane | .window =>
    match c.source n with
    | .inl x => .ok (s, { c with done := n + 1, taken := c.taken ++ [BitVec.ofInt 8 x] })
    | .inr (a, nib) =>
      match s.copyRead c a 1 with
      | .error e => .error e
      | .ok (data, s) =>
        let b := (data.headD 0).toNat
        let x : Byte := if c.i4 then BitVec.ofInt 8 (toSigned 4 (b >>> (4 * nib) % 16)) else BitVec.ofNat 8 b
        .ok (s, { (c.see [x]) with done := n + 1, taken := c.taken ++ [x] })

/-- Elements of a copy in index order, to its end or to one that stops it (R232). -/
def runElements (q : Nat) : Nat → State → Copy → State × Copy × Option CopyStop
  | 0, s, c => (s, c, none)
  | fuel + 1, s, c =>
    match s.copyElement c q with
    | .error e => (s, c, some e)
    | .ok (s, c) => runElements q fuel s c

/-- A copy performed from where it stands: its tiles, or its digest, follow the elements (R228-R230). -/
def State.performCopy (s : State) (c : Copy) (q : Nat) : State × Copy × Option CopyStop :=
  let tiles := c.tilesDone
  let (s, c, stop) := runElements q (c.total - c.done) s c
  match c.kind with
  | .plain => (s, c, stop)
  | .plane | .window => (s.writeTiles c q tiles c.tilesDone, c, stop)
  | .hash =>
    match stop with
    | some e => (s, c, some e)
    | none =>
      match s.copyWrite c q c.dst (Sha.sha512 c.taken) with
      | .ok s => (s, c, none)
      | .error e => (s, c, some e)

/-! ### Queues: start, stop and completion (R223, R231-R233, R265) -/

/-- The copy that a queue comes to next: the first that is in it; none while one runs. -/
def State.nextCopy (s : State) (q : Nat) : Option Copy :=
  if (s.copyQueue q).entries.any fun c => c.stage == .running then none else (s.copiesIn q).head?

/-- The next copy of a queue could start: it is not held, no preemption has stopped the queue for its context, and the copies that
a CFENCE puts ahead of it are complete (R233, R243, R265). -/
def State.startable (s : State) (c : Copy) : Bool :=
  c.stage == .queued && !c.heldBack && !(s.ctx c.ctx).preempting
    && c.after.all fun e => !((s.copiesIn e.1).any fun x => x.seq == e.2)

/-- The next copy of a queue may start: copies that an epoch end started go in the order of their commit (R389). -/
def State.mayStart (s : State) (c : Copy) : Bool :=
  s.startable c && (c.turn == 0 || !((List.range s.copies.length).any fun q =>
    (s.nextCopy q).any fun x => x.turn != 0 && decide (x.turn < c.turn) && s.startable x))

/-- A stopped copy whose group has dissolved is abandoned at once (R232). -/
def State.stopCopy (s : State) (q : Nat) (c : Copy) (f : BitVec 7 × Nat) : State :=
  let s := s.modCopy q c.seq fun _ => { c with stage := .stopped, fault := some f, delivered := false }
  if (s.group c.group).live then s.wakeTickets q else s.abandonCopies c.group

/-- The record of write data that differ between the two engines of a checked pair (R244, R432): the element's address, and the
bytes that differ. -/
def State.copyRec (s : State) (c : Copy) : Rec :=
  let src := addrPlus c.src (offsetAt c.ext c.sstride c.done)
  let dst := addrPlus c.dst (offsetAt c.ext c.dstride c.done)
  let keys := s.copyKeys c src c.esize
  let synd := imageSynd (zeros (dst % 64) ++ keys.map s.readSp) (zeros (dst % 64) ++ keys.map fun key => s.readSp (key + 2 ^ 22))
  { kind := 0, sev := 0, source := 6, vaddr := dst, synd := synd.1, syndw := synd.2 }

/-- COPY_START: the next copy is performed, to its end or to an element that stops it (R227-R232, R265); on a checked pair
write data that differ start the mismatch sequence, and the copy goes on from that element (R244). -/
def execCopyStart (cluster queue : Nat) (s : State) : Host.Outcome State Fault Refusal :=
  event <|
    let q := 4 * cluster + queue
    match s.nextCopy q with
    | none => s
    | some c =>
      if !s.mayStart c then s
      else
        let (s, c, stop) := s.performCopy c q
        match stop with
        | none => s.modCopy q c.seq fun _ => { c with stage := .running }
        | some (some 0, _) =>
          let w := s.wave c.wave
          (s.modCopy q c.seq fun _ => c).mismatch (s.pairOf w) c.wave (s.copyRec c)
        | some (some cause, va) => s.stopCopy q c (cause, va)
        | some (none, va) => (s.stopCopy q c (0x41, va)).fatalError 10 { kind := 0x11, sev := 3, esc := true, source := 10 }

/-- One entry pushed into a tensor slot (R104). -/
def Slot.push (x : Slot) (m : Nat) (nan : Bool) : Slot :=
  { x with nan := x.nan || nan, entries := putAt 0 x.entries x.head (BitVec.ofNat 32 m), head := (x.head + 1) % 16
           count := min (x.count + 1) 16 }

/-- A push of a context's slot. -/
def State.pushSlot (s : State) (c slot m : Nat) (nan : Bool) : State :=
  s.modCtx c fun x => { x with slots := putAt {} x.slots slot ((x.slots.getD slot {}).push m nan) }

/-- The ticket of a copy (R223). -/
def ticketOf (seq queue clid : Nat) : Nat := seq + 2 ^ 32 * queue + 2 ^ 34 * clid

/-- Bytes that a copy has written (R420). -/
def Copy.written (c : Copy) : Nat :=
  match c.kind with
  | .plain => c.esize * c.total
  | .hash => 64
  | .plane | .window => 1024 * c.planes * (c.kdim / 128)

/-- The push of a completed copy: at once, or deferred to the end of a deterministic launch (R104, R106). -/
def State.copyPush (s : State) (c : Copy) (q : Nat) : State :=
  match c.slot with
  | none => s
  | some slot =>
    let w := s.wave c.wave
    if s.detOf w then
      s.modLaunch w.launch fun l =>
        { l with pushes := l.pushes ++ [((s.group w.group).grpid.toNat, w.waveid, ticketOf c.seq (q % 4) w.clid, slot, c.amax, c.nan)] }
    else s.pushSlot c.ctx slot c.amax c.nan

/-- COPY_COMPLETE: the push is applied, a traced digest is entered, and the waiters go on (R104, R230, R231, R234, R235). -/
def execCopyComplete (cluster queue : Nat) (s : State) : Host.Outcome State Fault Refusal :=
  event <|
    let q := 4 * cluster + queue
    match (s.copyQueue q).entries.find? fun c => c.stage == .running with
    | none => s
    | some c =>
        let s := (s.copyPush c q).count c.ctx 0x10 c.written
        let s :=
          if c.trace then
            s.traceEntry 3 2 c.ctx (bytesOf 8 (s.launch c.launch).seq ++ bytesOf 1 1 ++ zeros 7 ++ bytesOf 8 c.src
              ++ bytesOf 8 c.taken.length ++ bytesOf 8 (ticketOf c.seq queue (s.wave c.wave).clid) ++ zeros 8
              ++ Sha.sha512 c.taken)
          else s
        (s.modCopyQueue q fun x => { x with
          entries := x.entries.filter (fun y => y.seq != c.seq), roomAt := if 64 ≤ x.entries.length then s.cc else x.roomAt }).wakeTickets q

/-! ### The instructions -/

/-- The bytes of a descriptor at their homes, or the first address that is uncorrectable (R223, R231). -/
def State.readDesc (s : State) (a : Asker) (pas : List Nat) : Except Nat (List Byte × State) :=
  let (views, s) := s.readSectors a ((pas.map sectorOf).eraseDups)
  match pas.find? (sectorFails views) with
  | some p => .error p
  | none => .ok (pas.map (sectorByte views), s)

/-- The copy of wave `k` enters its queue, held until the next acorn or the epoch end where that is due (R223, R244, R389). -/
def State.enqueueCopy (s : State) (k : Nat) (i : Instr) (o : CopyF) (c : Copy) : State :=
  let w := s.wave k
  let q := s.queueOf w o.queue.toNat
  let x := s.copyQueue q
  let c := { c with
    seq := x.next, heldBack := s.detOf w || s.checked w
    after := x.joins.filter fun e => (s.copiesIn e.1).any fun y => y.seq == e.2 }
  let s := s.modCopyQueue q fun x => { x with next := (x.next + 1) % 2 ^ 32, entries := x.entries ++ [c], joins := c.after }
  let s :=
    if s.detOf w then s.modWave k fun w => { w with effects := w.effects ++ [.copy (q / 4) (q % 4) c.seq] } else s
  s.doneWith k i fun w => w.writeS o.d.toNat (BitVec.ofNat 64 (ticketOf c.seq o.queue.toNat w.clid))

/-- TCOPY, TCOPYW and THASH: the descriptor is read and checked at issue (R223-R230). -/
def State.copyIssue (s : State) (k : Nat) (i : Instr) (o : CopyF) (mode : CopyKind) : State :=
  let w := s.wave k
  if (w.readS o.a.toNat).toNat % 64 ≠ 0 then s.trapExec k 0x04
  else
    s.access k o.slack.toNat .load true o.a 256 1 [(0, 0)] (some w.exec) fun s lanes =>
      let pas := lanes.flatMap Prod.snd
      let va := (w.readS o.a.toNat).toNat
      if s.detOrder w pas then s.trapExec k 0x60
      else
        match s.readDesc { core := s.coreOf w, ctx := w.ctx, umode := w.priv == .u, cls := o.slack.toNat } pas with
        | .error pa => s.memError k (s.memSource (s.coreOf w) pa) pa w.exec va
        | .ok (b, s) =>
          let base : Copy := { (default : Copy) with
            wave := k, group := w.group, ctx := w.ctx, launch := w.launch, slack := o.slack.toNat, smode := w.priv == .s }
          match copyOf b mode base with
          | none => s.trapExec k 0x52
          | some c =>
            if c.spRanges.all (s.spRangeOk w) then s.enqueueCopy k i o c else s.trapExec k 0x11

/-- TCOPY (R223, R227, R228). -/
def execTcopy (o : CopyF) (s : State) : Host.Outcome State Fault Refusal :=
  issue (.tcopy o) s fun k s => s.copyIssue k (.tcopy o) o .plain

/-- TCOPYW (R223, R229). -/
def execTcopyw (o : CopyF) (s : State) : Host.Outcome State Fault Refusal :=
  issue (.tcopyw o) s fun k s => s.copyIssue k (.tcopyw o) o .window

/-- THASH (R223, R230). -/
def execThash (o : CopyF) (s : State) : Host.Outcome State Fault Refusal :=
  issue (.thash o) s fun k s => s.copyIssue k (.thash o) o .hash

/-- CFENCE: later copies of the named queues start after every copy now in any of them (R233). -/
def execCfence (q : Bool) (mask : BitVec 4) (s : State) : Host.Outcome State Fault Refusal :=
  issue (.cfence q mask) s fun k s =>
    let w := s.wave k
    let named := ((List.range 4).filter fun n => mask.getLsbD n).map (s.queueOf w)
    let ahead := named.flatMap fun q => (s.copiesIn q).map fun c => (q, c.seq)
    let s := named.foldl (fun s q => s.modCopyQueue q fun x =>
      { x with joins := (x.joins.filter fun e => !ahead.contains e) ++ ahead }) s
    s.done k (.cfence q mask)

/-- A CWAIT or CYIELD of wave `k` (R232, R234, R235): `yielding` gives the continuation PC of a CYIELD. In a deterministic
launch a copy issued in this epoch ends the quantum (R388); on a checked pair a held copy forces an acorn (R244). -/
def State.copyWait (s : State) (k : Nat) (i : Instr) (a : BitVec 8) (yielding : Option VAddr) : State :=
  let w := s.wave k
  let t := (w.readS a.toNat).toNat
  if t >>> 40 ≠ 0 ∨ bits t 39 34 ≠ w.clid then s.trapExec k 0x04
  else
    let q := s.queueOf w (bits t 33 32)
    let seq := bits t 31 0
    let ahead := s.copiesUpTo q seq
    if s.detOf w && ahead.any fun c => c.heldBack && c.launch == w.launch then
      s.modWave k fun w => { w with quantumEnded := true }
    else
      match s.stoppedCopy w.ctx q seq with
      | some c => (s.modCopy q c.seq fun c => { c with delivered := true }).takeTrap k (c.trap w.exec)
      | none =>
        let again := ahead.filter fun c => c.stage == .stopped && c.ctx == w.ctx
        let s := again.foldl (fun s c => s.modCopy q c.seq fun c => { c with stage := .queued, fault := none, delivered := false }) s
        if ahead.isEmpty then s.ticketDone k i q seq (yielding.getD (w.pc + 8))
        else
          let s := s.modWave k fun w => { w with
            state := if yielding.isSome && w.priv == .u then .yielded else .blocked, wait := .ticket q seq, stalled := some i
            yieldPc := yielding.getD w.yieldPc, yieldTicket := if yielding.isSome then w.readS a.toNat else w.yieldTicket }
          if s.checked w && ahead.any fun c => c.heldBack then
            s.modPair (s.pairOf w) fun p => { p with wanted := some (p.wanted.getD 5) }
          else s

/-- CWAIT (R234). -/
def execCwait (q : Bool) (a : BitVec 8) (s : State) : Host.Outcome State Fault Refusal :=
  issue (.cwait q a) s fun k s => s.copyWait k (.cwait q a) a none

/-- CYIELD (R235). -/
def execCyield (q : Bool) (a : BitVec 8) (off : BitVec 13) (s : State) : Host.Outcome State Fault Refusal :=
  issue (.cyield q a off) s fun k s =>
    s.copyWait k (.cyield q a off) a (some ((s.wave k).pc + (off.signExtend 56 <<< 3)))

end Sys2Proof.Machine
end

