-- ==== Sys2Proof/Machine/Pod.lean ====
section
/-! DEFINITION. Pods: EMIT, EMITC, JOINDEC and PIPRD, appends, and the formation of groups from pips
(07 R236-R242, R245, 09 R278, R282-R287). -/

namespace Sys2Proof.Machine

/-! ### Pods and their graph -/

/-- The pod of a node. -/
def State.pod (s : State) (g n : Nat) : Pod := (s.graph g).pods.getD n default

def State.modPod (s : State) (g n : Nat) (f : Pod → Pod) : State := s.modGraph g fun x => { x with pods := modAt f x.pods n }

/-- The kernel descriptor of a node (R282). -/
def State.podKernel (s : State) (g n : Nat) : Kernel :=
  (s.images.getD (s.graph g).image default).kernels.getD (s.pod g n).kernel default

/-- The launch of a graph that is in RUNNING, or still in FINISHING (R278). -/
def State.graphLaunch (s : State) (g : Nat) (finishing : Bool := true) : Option Nat :=
  (List.range s.launches.length).find? fun l =>
    let x := s.launch l
    x.graph == some g && (x.state == .running || (finishing && x.state == .finishing))

/-- Room in a graph's pool for `m` records of a node (R238, R282). -/
def State.podRoom (s : State) (g n m : Nat) : Bool :=
  decide ((s.graph g).poolUsed + m * (s.podKernel g n).record ≤ (s.graph g).poolSize)

/-- The graph and node that a pod handle names for a wave, or none for POD_HANDLE (R236). -/
def State.podOf (s : State) (w : Wave) (h : Word) : Option (Nat × Nat) :=
  let x := h.toNat
  let g := bits x 47 32
  let y := s.graph g
  match indexWhere (fun (p : Pod) => p.idx == bits x 11 0 && p.gen == bits x 27 12) y.pods with
  | none => none
  | some n =>
    let own := (s.launch w.launch).graph
    let allowed := match own with
      | some g' => g == g'
      | none => !s.detOf w && match s.graphLaunch g false with
        | some l => !(s.launch l).det
        | none => false
    if bits x 31 28 ≠ 0 || x >>> 48 ≠ 0 || !decide (g < s.graphs.length) || !y.live || !allowed || (w.priv == .u && y.ctx != w.ctx) then none
    else some (g, n)

/-! ### Formation (R283-R287) -/

/-- A group is formed from a node's oldest `m` pips (R283-R285); its GRPID is the launch's counter. -/
def State.formGroup (s : State) (l g n m : Nat) : State :=
  let p := s.pod g n
  let f : Formed := { grpid := (s.launch l).nextGroup % 2 ^ 32, node := n, pips := p.fifo.take m, order := s.order, since := s.cc }
  let s := s.modPod g n fun p => { p with fifo := p.fifo.drop m }
  { (s.modLaunch l fun x => { x with formed := x.formed ++ [f], nextGroup := x.nextGroup + 1 }) with order := s.order + 1 }

/-- The timer of a pod after a formation, or when pips first arrive (R283). -/
def Pod.restart (p : Pod) (timer : Nat) : Pod := { p with timer := if p.fifo.isEmpty || timer = 0 then none else some timer }

/-- Full groups form while the count reaches the threshold, at an epoch end of a deterministic launch (R389). -/
def formFull (l g n : Nat) : Nat → State → State
  | 0, s => s
  | fuel + 1, s =>
    let k := s.podKernel g n
    if k.threshold ≤ (s.pod g n).fifo.length && k.threshold ≠ 0 && !(s.pod g n).cont then
      formFull l g n fuel ((s.formGroup l g n k.threshold).modPod g n fun p => p.restart k.timer)
    else s

/-- What a launcher does for a pod at the end of an lc, after its appends (R283): at most one group forms, a full one before a
partial one, and the timer starts where pips have come to an empty pod. -/
def State.servePod (s : State) (l g n : Nat) (expired : Bool) : State :=
  let k := s.podKernel g n
  let c := (s.pod g n).fifo.length
  let s :=
    if k.threshold ≤ c && k.threshold ≠ 0 then (s.formGroup l g n k.threshold).modPod g n fun p => p.restart k.timer
    else if expired && c ≠ 0 then (s.formGroup l g n c).modPod g n fun p => { p with timer := none }
    else s
  s.modPod g n fun p =>
    let p := if p.last = 0 && !p.fifo.isEmpty then p.restart k.timer else p
    { p with last := p.fifo.length }

/-- The timers of a function do not run while a world switch takes it out (R323). -/
def State.frozenCtx (s : State) (c : Nat) : Bool :=
  (s.ctx c).switchedOut || s.cp.switching.any fun e => (s.ctx e.1).fn == (s.ctx c).fn

/-- The launch for which a pod's launcher forms groups: RUNNING and not torn down, not deterministic, not taken out by a world
switch (R283, R301, R323, R389). -/
def State.servedFor (s : State) (g n : Nat) : Option Nat :=
  if (s.pod g n).cont || s.frozenCtx (s.graph g).ctx then none
  else (s.graphLaunch g false).filter fun l => !(s.launch l).det && !(s.launch l).tearing

/-- A pod at the end of an lc: its timer counts down, and its launcher serves it (R283). -/
def State.lcPod (s : State) (g n : Nat) : State :=
  match s.servedFor g n with
  | none => s
  | some l =>
    let left := (s.pod g n).timer.map (· - 1)
    (s.modPod g n fun p => { p with timer := left }).servePod l g n (left == some 0)

/-- Groups formed at drain from a pod, each of at most THRESHOLD pips (R286). -/
def formDrain (l g n : Nat) : Nat → State → State
  | 0, s => s
  | fuel + 1, s =>
    if (s.pod g n).fifo.isEmpty || (s.pod g n).cont then s
    else formDrain l g n fuel ((s.formGroup l g n (max 1 (s.podKernel g n).threshold)).modPod g n fun p => { p with timer := none })

/-! ### Appends (R237, R238, R240) -/

/-- Whether a join word has been brought to 0 by a JOINDEC and holds no new count since, at its home (R240). -/
def State.isJoined (s : State) (c va : Nat) : Bool :=
  s.joined.contains (c, va) && match s.walk c va with
    | .ok l => toSigned 64 (Memory.num s.mem.home l.pa 8) ≤ 0
    | .error _ => true

/-- A continuation pip whose join word a JOINDEC has already brought to 0 is launchable at its append (R240). -/
def State.placePips (s : State) (g n : Nat) (l : List Pip) : State :=
  let c := (s.graph g).ctx
  let place := s.order
  l.foldl (fun s x => s.modPod g n fun p =>
    let x : Pip := { x with place := place, born := s.lc }
    if p.cont && s.isJoined c x.join then { p with launchable := insertPip p.launchable { x with order := s.order, ready := s.lc } }
    else { p with fifo := p.fifo ++ [x] }) { s with order := s.order + 1 }

/-- The records of a request enter the pod (R237); its launcher forms groups at the end of the lc (R283). -/
def State.append (s : State) (r : EmitReq) : State :=
  (s.placePips r.graph r.node r.pips).count (s.graph r.graph).ctx 0x11 r.pips.length (!r.seed && (s.wave r.wave).priv == .u)

/-- The pool bytes of a request are taken (R238, R282). -/
def State.takeRoom (s : State) (r : EmitReq) : State :=
  let n := r.pips.length * (s.podKernel r.graph r.node).record
  s.modGraph r.graph fun x => { x with poolUsed := x.poolUsed + n }

/-- Pd after an append: its active bits 0, or 1 where the pool was full under the fail policy (R238). -/
def emitResult (old mask : Mask) (full : Bool) : Mask := if full then old ||| mask else old &&& ~~~mask

/-- Pd of the wave that a request belongs to, written by the append itself. -/
def State.answerEmit (s : State) (r : EmitReq) (full : Bool) : State :=
  let result (v : RegVal) : RegVal := match v with
    | .p x => .p (emitResult x r.mask full)
    | v => v
  s.answer r.wave r.tag fun l => { l with val := result l.val, shadow := l.shadow.map result, need := 0 }

/-- The wave of a blocked request goes on: its Pd, a long write, is on its way, and its instruction retires (R57, R238). -/
def State.resumeEmit (s : State) (r : EmitReq) (full : Bool) : State :=
  let answer (d : BitVec 8) : State :=
    (s.modWave r.wave fun w => w.long (.p d.toNat) (.p (emitResult (w.readP d.toNat) r.mask full))).unblock r.wave
  match (s.wave r.wave).stalled with
  | some (.emit o) => answer o.d
  | some (.emitc o) => answer o.d
  | _ => s

/-- Requests of one wave to one pod, and the seed pips of a pod, append in order (R237, R278). -/
def EmitReq.sameStream (r x : EmitReq) : Bool :=
  r.graph == x.graph && r.node == x.node && r.seed == x.seed && (r.seed || r.wave == x.wave)

/-- Request `n` may reach its pod: it is not one of a deterministic launch's, none of its stream is ahead of it, and a blocked
one finds room. -/
def State.mayAppend (s : State) (n : Nat) : Bool :=
  match s.emits[n]? with
  | none => false
  | some r =>
    !r.held && !((s.emits.take n).any r.sameStream) && (!(r.blocked || r.seed) || s.podRoom r.graph r.node r.pips.length)

/-- The blocked append of a wave on a checked pair lies between two acorns, so that no rollback repeats it (R203, R244, R341):
it waits for the pair to stop, and an acorn follows it at once. -/
def State.appendPair (s : State) (r : EmitReq) : Option Nat :=
  if r.blocked && !r.seed && s.checked (s.wave r.wave) then some (s.pairOf (s.wave r.wave)) else none

/-- POD_APPEND: the request reaches its pod, and its records are appended as one event (R237, R238, R267). -/
def execPodAppend (n : Nat) (s : State) : Host.Outcome State Fault Refusal :=
  event <|
    if !s.mayAppend n then s
    else
      let r := s.emits.getD n default
      let t := { s with emits := dropAt s.emits n }
      if r.seed then (t.takeRoom r).append r
      else if !r.blocked then (t.append r).answerEmit r false
      else match s.appendPair r with
        | none => ((t.takeRoom r).append r).resumeEmit r false
        | some p =>
          if (s.pair p).frozen || !s.pairQuiet p then s.modPair p fun q => { q with wanted := some (q.wanted.getD 4) }
          else (((t.takeRoom r).append r).resumeEmit r false).takeAcorn p 4

/-- COALESCING_TIMER_EXPIRY: the timer of a pod runs out, and its launcher forms a partial group of all pips, or a full one where
the threshold is reached in the same lc; not in a deterministic launch, and not while a world switch takes the function out
(R283, R323). -/
def execCoalescingTimerExpiry (graph node : Nat) (s : State) : Host.Outcome State Fault Refusal :=
  event <|
    match s.servedFor graph node with
    | none => s
    | some l =>
      if (s.pod graph node).timer.isNone then s
      else (s.modPod graph node fun p => { p with timer := none }).servePod l graph node true

/-! ### EMIT and EMITC -/

/-- The record that lane `l` forms from `n` registers (R237): byte 8i + j is byte j of the lane in V(b + i). -/
def recordOf (w : Wave) (b n l : Nat) : List Byte := (List.range n).flatMap fun i => bytesOf 8 (laneOf (w.readV (b + i)) l).toNat

/-- The depth of a lane's own pip: 0 for a flat kernel (R237, R242). -/
def Wave.depthOf (w : Wave) (l : Nat) : Nat := w.pipDepth.getD l 0

/-- The depth that an EMIT to a node adds for a wave (R237, R282). -/
def State.deeper (s : State) (w : Wave) (g n : Nat) : Nat :=
  if (s.launch w.launch).graph = some g then
    let i := (s.group w.group).nodeid.toNat
    if n = i || (s.pod g i).ancestors.getLsbD n then 1 else 0
  else 0

/-- The request of an append enters the fabric with the slack of its instruction (R206, R237, R378). -/
def State.postEmit (s : State) (r : EmitReq) : State :=
  let w := s.wave r.wave
  let core := s.coreOf w
  s.postTo { core := core, ctx := w.ctx, cls := r.slack, umode := w.priv == .u } (core / 4) true

/-- The overflow policy and the append of wave `k` (R238, R245): with room the request is on its way; without it the wave
blocks, Pd says so, or POD_FULL. In a deterministic launch the request waits for the epoch end. -/
def State.emitRecords (s : State) (k : Nat) (i : Instr) (d : BitVec 8) (r : EmitReq) : State :=
  let w := s.wave k
  let tag := s.tag
  let r := { r with tag := tag }
  let mark (w : Wave) : Wave := { w with unmarked := .p d.toNat :: w.unmarked }
  if s.holdsOf w then
    (s.block k (.emit tag) (some i)).modWave k (fun w => { mark w with effects := w.effects ++ [.emit r], quantumEnded := true })
      |> fun s => { s with tag := tag + 1 }
  else if s.podRoom r.graph r.node r.pips.length then
    let s := { (s.takeRoom r).postEmit r with emits := s.emits ++ [r], tag := tag + 1 }
    s.doneWith k i fun w => w.long (.p d.toNat) (.p (w.readP d.toNat)) 1 tag
  else
    match (s.podKernel r.graph r.node).overflow with
    | 0 =>
      { ((s.block k (.emit tag) (some i)).modWave k mark).postEmit r with emits := s.emits ++ [{ r with blocked := true }], tag := tag + 1 }
    | 1 => s.doneWith k i fun w => w.long (.p d.toNat) (.p (emitResult (w.readP d.toNat) r.mask true))
    | _ => s.takeTrap k { cause := 0x56, mask := r.mask, addr := 0 }

/-- EMIT (R236-R238). -/
def execEmit (o : EmitF) (s : State) : Host.Outcome State Fault Refusal :=
  issue (.emit o) s fun k s =>
    let w := s.wave k
    match s.podOf w (w.readS o.a.toNat) with
    | none => s.trapExec k 0x54
    | some (g, n) =>
      let size := 16 * (o.size.toNat + 1)
      if (s.pod g n).cont || size ≠ (s.podKernel g n).record then s.trapExec k 0x55
      else
        let mask := w.governing o.pn o.pi
        let active := lanesOf mask
        let up := s.deeper w g n
        let limit := (s.podKernel g n).depthLimit
        let deep := active.filter fun l => limit < w.depthOf l + up
        if !deep.isEmpty then s.takeTrap k { cause := 0x57, mask := maskOf deep.contains, addr := 0 }
        else if active.isEmpty then s.done k (.emit o)
        else
          let pips := active.map fun l => ({ bytes := recordOf w o.b.toNat (size / 8) l, depth := w.depthOf l + up } : Pip)
          s.emitRecords k (.emit o) o.d
            { wave := k, tag := 0, graph := g, node := n, pips := pips, mask := mask, cont := false, slack := o.slack.toNat }

/-- EMITC (R236, R238, R240). -/
def execEmitc (o : EmitcF) (s : State) : Host.Outcome State Fault Refusal :=
  issue (.emitc o) s fun k s =>
    let w := s.wave k
    match s.podOf w (w.readS o.a.toNat) with
    | none => s.trapExec k 0x54
    | some (g, n) =>
      if !(s.pod g n).cont || (s.podKernel g n).record ≠ 32 then s.trapExec k 0x55
      else
        let mask := w.governing o.pn o.pi
        let active := lanesOf mask
        let field (l i : Nat) : Nat := (laneOf (w.readV (o.b.toNat + i)) l).toNat
        if active.any fun l => field l 0 % 8 ≠ 0 || field l 2 % 8 ≠ 0 then s.trapExec k 0x04
        else if active.isEmpty then s.done k (.emitc o)
        else
          let pips := active.map fun l => ({ bytes := recordOf w o.b.toNat 4 l, depth := w.depthOf l, join := field l 2 } : Pip)
          s.emitRecords k (.emitc o) o.d
            { wave := k, tag := 0, graph := g, node := n, pips := pips, mask := mask, cont := true, slack := o.slack.toNat }

/-! ### JOINDEC and PIPRD -/

/-- JOINDEC: a decrement at device scope at the home, with the new value of each lane in Vd (R241, R245). -/
def execJoindec (o : JoindecF) (s : State) : Host.Outcome State Fault Refusal :=
  issue (.joindec o) s fun k s =>
    let w := s.wave k
    if s.detOf w then s.trapExec k 0x61
    else
      let offs := (lanesOf (w.governing o.pn o.pi)).map fun l => (l, laneOf (w.readV o.a.toNat) l)
      let r : AtomReq := { (default : AtomReq) with
        op := .add, w64 := true, ret := true, scope := .device, join := true, slack := o.slack.toNat }
      s.atomic k (.joindec o) r true 0 offs none (fun _ => (0, 0)) (.v o.d.toNat) (.v (w.readV o.d.toNat))

/-- PIPRD: the pip's depth, or its index 32 * WAVEID + LANEID (R242). -/
def execPiprd (o : PiprdF) (s : State) : Host.Outcome State Fault Refusal :=
  regOp (.piprd o) s fun w =>
    let old := w.readV o.d.toNat
    let new := vregOf fun l => BitVec.ofNat 64 (if o.idx then 32 * w.waveid + l else w.depthOf l)
    w.long (.v o.d.toNat) (.v (mergeLanes (w.governing o.pn o.pi) new old))

end Sys2Proof.Machine
end

