-- ==== Sys2Proof/Machine/Complete.lean ====
section
/-! DEFINITION. What the command processor reads and writes for commands and launches: memory through a context, completion
entries, dependence regions, the end of a launch and its teardown (14 R408, R410-R412, 08 R268, 09 R276, R278, R279,
13 R397, R398, 03 R106, 10 R301). -/

namespace Sys2Proof.Machine

/-! ### Memory of a context as the command processor sees it -/

/-- The physical address of a virtual byte of a context, where both stages map it. -/
def State.vaPa (s : State) (c va : Nat) : Option Nat :=
  if 2 ^ 56 ≤ va then none
  else match s.walk c va with
    | .ok l => some l.pa
    | .error _ => none

/-- The physical addresses of `n` virtual bytes, where all of them are mapped. -/
def State.vaRange (s : State) (c va : Nat) : Nat → Option (List Nat)
  | 0 => some []
  | n + 1 =>
    match s.vaPa c va, State.vaRange s c (va + 1) n with
    | some p, some l => some (p :: l)
    | _, _ => none

/-- `n` bytes at a virtual address, read at their homes; none where a page is not mapped or a sector is uncorrectable. -/
def State.cpRead (s : State) (c va n : Nat) : Option (List Byte) :=
  match s.vaRange c va n with
  | some l => if l.any s.byteBad then none else some (l.map (Memory.read s.mem.home))
  | none => none

/-- Bytes written at their homes at a virtual address, where it is mapped. -/
def State.cpWrite (s : State) (c va : Nat) (data : List Byte) : State :=
  match s.vaRange c va data.length with
  | some l => ((l.map sectorOf).eraseDups).foldl (fun s sec => s.postEdge 256 c sec true) (s.writeHome (l.zip data))
  | none => s

/-- The requests of a read of the command processor or a launcher (R378). -/
def State.cpPost (s : State) (c va n : Nat) : State :=
  (((s.vaRange c va n).getD []).map sectorOf).eraseDups.foldl (fun s sec => s.postEdge 256 c sec false) s

/-! ### Completion entries (R408, R410-R412) -/

/-- Entries of a queue's rings. -/
def Queue.size (q : Queue) : Nat := 2 ^ q.log2n.toNat

/-- A message on a queue's vector, where the function has it (R412). -/
def State.queueMessage (s : State) (fn vec : Nat) : State :=
  if vec < (if fn = 0 then 16 else 8) then s.message fn vec else s

/-- A completion entry is written and its message sent (R408, R410). -/
def State.complete (s : State) (fn queue : Nat) (tag : BitVec 32) (status opc seq detail : Nat) : State :=
  let q := (s.func fn).queues.getD queue default
  let n := q.cqTail.toNat
  let phase := 1 - n / q.size % 2
  let entry := bytesOf 4 tag.toNat ++ bytesOf 2 status ++ bytesOf 1 opc ++ bytesOf 1 phase ++ bytesOf 8 seq ++ bytesOf 8 detail ++ zeros 8
  let s := s.writeHostN (q.cqBase.toNat + 32 * (n % q.size)) entry
  let s := s.modFunc fn fun f => { f with queues := modAt (fun (q : Queue) => { q with cqTail := q.cqTail + 1 }) f.queues queue }
  if q.ien then s.queueMessage fn q.vec.toNat else s

/-- The context that a command's queue is bound to (R407). -/
def State.cmdCtx (s : State) (c : Cmd) : Nat := ((s.func c.fn).queues.getD c.queue default).ctx

/-- A management command completes (R409). -/
def State.reply (s : State) (c : Cmd) (opc status : Nat) (detail : Nat := 0) : State :=
  s.complete c.fn c.queue c.tag status opc 0 detail

/-! ### Regions of edges (R268, R279, R398) -/

/-- The virtual addresses of the sectors that a region touches. -/
def regionSectors (va len : Nat) : List Nat :=
  if len = 0 then [] else (List.range ((va + len - 1) / 64 - va / 64 + 1)).map fun i => 64 * (va / 64 + i)

/-- The mapped physical sectors of a region. -/
def State.regionPas (s : State) (c va len : Nat) : List Nat :=
  (regionSectors va len).filterMap fun v => (s.vaPa c v).map sectorOf

/-- Every page that a region touches is mapped in both stages (R279). -/
def State.regionMapped (s : State) (c va len : Nat) : Bool := (regionSectors va len).all fun v => (s.vaPa c v).isSome

/-- Physical cores of a context's partition. -/
def State.partitionCores (s : State) (c : Nat) : List Nat := (s.ctx c).clusterMap.flatMap fun p => [4 * p, 4 * p + 1, 4 * p + 2, 4 * p + 3]

/-- The dirty bytes of a region in the L1s of the partition, and in the remote data cache, go to their homes (R268). -/
def State.cleanRegion (s : State) (c : Nat) (r : Nat × Nat) : State :=
  (s.regionPas c r.1 r.2).foldl (fun s sec =>
    ((s.partitionCores c).foldl (fun s core => s.cleanSector { core := core, ctx := c, cls := 0 } sec) s).rdcWriteBack sec) s

/-- The clean sectors of a region are invalidated in the L1s of the partition (R268). -/
def State.invalRegion (s : State) (c : Nat) (r : Nat × Nat) : State :=
  let secs := s.regionPas c r.1 r.2
  (s.partitionCores c).foldl (fun s core => s.modCore core fun x => x.dropClean fun y => secs.contains y.sec) s

/-- EDGE_HASH: the next region of a host edge is hashed and entered, PARTIAL where a part is unmapped (R398, R397). -/
def execEdgeHash (l edge region : Nat) (s : State) : Host.Outcome State Fault Refusal :=
  event <|
    let x := s.launch l
    match x.edges[edge]? with
    | none => s
    | some e =>
      match e.regions[region]? with
      | none => s
      | some (va, len) =>
        if x.state ≠ .waiting || e.producer.isSome || e.hashed ≠ region then s
        else
          let pas := (List.range len).map fun i => s.vaPa x.ctx (va + i)
          let bytes := pas.filterMap fun p => p.map (Memory.read s.mem.home)
          let s := s.traceEntry 3 2 x.ctx (bytesOf 8 x.seq ++ bytesOf 1 0 ++ bytesOf 1 edge ++ bytesOf 2 region
            ++ bytesOf 1 (pas.any Option.isNone).toNat ++ zeros 3 ++ bytesOf 8 va ++ bytesOf 8 len ++ zeros 16 ++ Sha.sha512 bytes)
          s.modLaunch l fun x => { x with edges := modAt (fun (e : Edge) => { e with hashed := e.hashed + 1 }) x.edges edge }

/-! ### The end of a launch (R276, R278, R286) -/

/-- Deferred pushes of a deterministic launch in ascending GRPID, WAVEID and ticket (R106). -/
def State.applyPushes (s : State) (l : Nat) : State :=
  let x := s.launch l
  let key (p : Nat × Nat × Nat × Nat × Nat × Bool) : Nat := (p.1 * 64 + p.2.1) * 2 ^ 40 + p.2.2.1
  let s := (sortBy key x.pushes).foldl (fun s p => s.pushSlot x.ctx p.2.2.2.1 p.2.2.2.2.1 p.2.2.2.2.2) s
  s.modLaunch l fun x => { x with pushes := [] }

/-- The pods of a launch's graph are emptied, and the bytes of what they held are free again; the orphans are counted
(R276, R286). -/
def State.emptyPods (s : State) (g : Nat) : State :=
  let bytes := sumBy (fun n => ((s.pod g n).fifo.length + (s.pod g n).launchable.length) * (s.podKernel g n).record)
    (List.range (s.graph g).pods.length)
  s.modGraph g fun x => { x with
    poolUsed := x.poolUsed - bytes
    pods := x.pods.map fun p => { p with fifo := [], launchable := [], timer := none } }

/-- A launch ends with a status: its END entry and its completion entry are written (R276, R397, R408). -/
def State.endLaunch (s : State) (l : Nat) (state : LState) (status : Nat) : State :=
  let x := s.launch l
  let s := s.applyPushes l
  let s := s.modLaunch l fun x => { x with
    state := state, status := status, tearing := false, completed := true, formed := [], gangs := [], writers := [], veils := []
    spVeils := [] }
  let s := s.traceEntry 2 1 x.ctx (bytesOf 8 x.seq ++ bytesOf 4 status ++ bytesOf 4 x.orphanCount ++ bytesOf 8 x.dispatched)
  let s := s.modCtx x.ctx fun c => { c with tokens := c.tokens.filter fun e => e.1.1 != l, poolDue := c.pool.isSome }
  let s := { s with cores := s.cores.map fun (c : Core) => if c.reserved.any (fun (e : Nat × Nat) => e.1 == l) then { c with reserved := none } else c }
  s.complete x.fn x.queue x.tag status 1 x.seq x.orphanCount

/-- Waves of a launch that have not exited; saved ones count. -/
def State.launchWaves (s : State) (l : Nat) : List Nat := s.wavesWith fun w => w.launch == l && w.state != .exited

/-- Whether a launch's own copies are outstanding (R278). -/
def State.launchCopies (s : State) (l : Nat) : Bool := s.copies.any fun q => q.entries.any fun c => c.launch == l

/-- A launch leaves RUNNING (R278): copies of a deterministic launch become visible (R393), and what its graph's pods still
hold is discarded and counted (R286). -/
def State.finishLaunch (s : State) (l : Nat) : State :=
  let x := s.launch l
  let orphans := match x.graph with
    | some g => sumBy (fun (p : Pod) => if p.cont then p.fifo.length else 0) (s.graph g).pods
    | none => 0
  let s := match x.graph with
    | some g => s.emptyPods g
    | none => s
  s.modLaunch l fun x => { x with state := .finishing, orphanCount := orphans, veils := [], spVeils := [] }

/-- LAUNCH_COMPLETION: a FINISHING launch whose own stores, atomics and copies are performed writes back the regions of the
edges that name it, and completes (R268, R278); one whose write-back is charged to its context is to end ABORTED (R325). -/
def execLaunchCompletion (l : Nat) (s : State) : Host.Outcome State Fault Refusal :=
  event <|
    let x := s.launch l
    let mine (k : Nat) : Bool := (s.wave k).launch == l
    if x.state ≠ .finishing || x.tearing || s.launchCopies l || s.atomics.any (fun r => mine r.wave)
        || s.jalti.pairs.any (fun p => p.buffer.any fun e => mine e.wave) then s
    else
      let regions := s.launches.flatMap fun y =>
        if y.ctx = x.ctx && y.state == .waiting then
          y.edges.flatMap fun e => if e.known = some l then e.regions else []
        else []
      let s := regions.foldl (fun s r => s.cleanRegion x.ctx r) s
      if (s.launch l).tearing then s
      else if x.orphanCount = 0 then s.endLaunch l .complete 0 else s.endLaunch l .orphans 1

/-- LAUNCH_TEARDOWN: every wave of a launch that is to end ABORTED is killed where it stands, with no record, and what its
pods and requests hold goes; the launch ends once the copies that it has issued are performed, and their pushes with them
(R106, R301). A copy that has not entered its queue is none of them (R244, R389). -/
def execLaunchTeardown (l : Nat) (s : State) : Host.Outcome State Fault Refusal :=
  event <|
    if !(s.launch l).tearing then s
    else
      let s := (s.launchWaves l).foldl State.killSilently s
      let s := { s with emits := s.emits.filter fun r => (s.wave r.wave).launch != l && !(r.seed && (s.launch l).graph == some r.graph) }
      let s := match (s.launch l).graph with
        | some g =>
          if (s.launch l).state = LState.running ∨ (s.launch l).state = LState.finishing then
            (s.emptyPods g).modGraph g fun x => { x with poolUsed := 0 }
          else s
        | none => s
      let s := { s with copies := s.copies.map fun (q : CopyQueue) =>
        { q with entries := q.entries.filter fun c => !(c.launch == l && c.heldBack) } }
      if s.launchCopies l then s else s.endLaunch l .aborted 2

end Sys2Proof.Machine
end

