-- ==== Sys2Proof/Machine/Fabric.lean ====
section
/-! DEFINITION. L2 banks, shares and husks, LPDDR6 controllers with their sketches, and the fabric (12 R359-R385, 11 R331, R332). -/

namespace Sys2Proof.Machine

/-! ### Shares and lines of the L2 -/

/-- A share given to an owner. -/
def State.setShare (s : State) (bank share : Nat) (o : Share) : State :=
  let rest := s.fab.shareMap.filter fun e => e.1 != (bank, share)
  { s with fab := { s.fab with shareMap := if o = .husk 0 then rest else ((bank, share), o) :: rest } }

/-- The port by which a line of a peer leaves: one of its device's, by address bits (R387). -/
def State.portTo (s : State) (pa : Nat) : Nat :=
  let mask := (s.fab.routes.getD (devOf pa) 0).toNat
  let ports := (List.range 3).filter (bitAt mask)
  ports.getD ((bits pa 15 8 ^^^ bits pa 23 16) % ports.length) 0

/-- A bank's packet on its way to a line's controller, or to the port of the device that a peer's line belongs to (R372, R377,
R378, R385). -/
def State.toMemory (s : State) (bank : Nat) (p : Packet) : State :=
  let pa := 64 * p.sec
  let num := if s.isPeer pa then 16 + s.portTo pa else controllerOf pa
  { s with fab := s.fab.enqueue 6 num bank s.cc { p with arrived := s.cc } }

/-- The write-back of a line, which no instruction issues (R378). -/
def writeBackOf (x : L2Line) : Packet :=
  { slack := 1023, frac := 0, hard := false, cls := 0, owner := x.owner, sec := 4 * x.line, husk := x.husk, write := true, arrived := 0
    sectors := 4 }

/-- A dirty line's bytes go to their home, or are charged to their owner where they are unreadable (R325, R332). -/
def State.writeBackLine (s : State) (x : L2Line) : State :=
  let bad := (List.range 4).filter fun i => s.l2Bad (4 * x.line + i)
  let s := (List.range 4).foldl (fun s i => s.healL2 (4 * x.line + i) x.owner) s
  if s.isPeer (256 * x.line) then (List.range 4).foldl (fun s i => s.rdcWriteBack (4 * x.line + i)) s
  else if !x.dirty then s
  else (bad.foldl (fun s i => s.charge 1 (4 * x.line + i) x.owner (256 * x.bank)) s).toMemory x.bank (writeBackOf x)

/-- A line leaves the L2 (R325, R332, R378): a dirty one is written back, or charged to its owner where it is unreadable. -/
def State.dropLine (s : State) (x : L2Line) : State :=
  let same (y : L2Line) : Bool := y.bank == x.bank && y.husk == x.husk && y.line == x.line
  let s := s.writeBackLine x
  let s := { s with fab := { s.fab with l2 := s.fab.l2.filter fun y => !same y }
                    mem := { s.mem with l2Errs := s.mem.l2Errs.filter fun e => e.1 != x.line } }
  if s.isPeer (256 * x.line) then (List.range 4).foldl (fun s i => s.rdcDrop (4 * x.line + i)) s else s

/-- The lines of a set of a bank in a husk, most recent first. -/
def State.l2Set (s : State) (bank h line : Nat) : List L2Line :=
  s.fab.l2.filter fun x => x.bank == bank && x.husk == h && x.line % 64 == line % 64

/-- A line enters its set: in a share with a free way, or in place of the last line of the set (R358, R359, log 8). -/
def State.allocate (s : State) (bank h line owner : Nat) (dirty last : Bool) (secs : List Nat) : State :=
  let shares := s.sharesOf bank (.husk h)
  let set := s.l2Set bank h line
  let put (s : State) (share : Nat) : State :=
    let x : L2Line := { bank := bank, husk := h, line := line, share := share, dirty := dirty, owner := owner, secs := secs }
    { s with fab := { s.fab with l2 := if last then s.fab.l2 ++ [x] else x :: s.fab.l2 } }
  match shares.find? fun i => (set.countP fun x => x.share == i) < 3 with
  | some share => put s share
  | none => match set.getLast? with
    | some victim => put (s.dropLine victim) victim.share
    | none => s

/-- A line held in a bank of the husk's old map, while a resize sweeps (R368). -/
def State.oldLine (s : State) (h line : Nat) : Option L2Line :=
  match (s.huskDef h).oldBanks with
  | some banks => s.fab.l2.find? fun x => x.husk == h && x.line == line && x.bank == banks.getD (bankIndex banks.length (256 * line)) 0
  | none => none

/-- A line moves to its new home as one event (R368 step 2). -/
def State.moveLine (s : State) (bank : Nat) (x : L2Line) : State :=
  let s := { s with fab := { s.fab with l2 := s.fab.l2.filter fun y => y != x } }
  s.allocate bank x.husk x.line x.owner x.dirty false x.secs

/-! ### Service at a bank (R360, R364, R365, R381) -/

/-- The place of the request that a queue serves next: none ahead of an older one for the same unit; exhausted ones first,
oldest first; then least slack, the oldest on a tie (R360, R373, R381). -/
def nextPacket (same : Packet → Packet → Bool) (l : List Packet) : Option Nat :=
  let may := (List.range l.length).filter fun i => !((l.take i).any fun p => same p (l.getD i default))
  leastBy (fun i => let p := l.getD i default; p.slack * 2 ^ 64 + p.arrived) may

/-- Two requests for one line (R360), and two that have a sector in common (R373). -/
def Packet.sameLine (p q : Packet) : Bool := p.sec / 4 == q.sec / 4
def Packet.sameSector (p q : Packet) : Bool := p.sec < q.sec + q.sectors && q.sec < p.sec + p.sectors

/-- The packets of a queue. -/
def State.packetsAt (s : State) (kind num input : Nat) : List Packet :=
  ((s.fab.queues.find? fun q => q.kind == kind && q.num == num && q.input == input).map PQueue.packets).getD []

/-- A queue loses the packet at a place; a queue without packets is not kept. -/
def State.takePacket (s : State) (kind num input n : Nat) : State :=
  let here (q : PQueue) : Bool := q.kind == kind && q.num == num && q.input == input
  let f (q : PQueue) : PQueue :=
    if !here q then q
    else
      let l := dropAt q.packets n
      { q with packets := l, stamp := if l.any fun p => p.slack == 0 then some s.cc else none }
  { s with fab := { s.fab with queues := (s.fab.queues.map f).filter fun q => !q.packets.isEmpty } }

/-- A line's state after a merged write under a policy (R365). -/
def L2Line.written (x : L2Line) (policy owner : Nat) : L2Line := { x with dirty := x.dirty || policy != 1, owner := owner }

/-- A line as a bank holds it in a husk. -/
def State.lineAt (s : State) (bank h line : Nat) : Option L2Line :=
  s.fab.l2.find? fun x => x.bank == bank && x.husk == h && x.line == line

/-- The sectors of the FILL-aligned block of a sector (R364). -/
def fillBlock (h : Husk) (sec : Nat) : List Nat :=
  let n := fillSectors h.fill
  (List.range n).map fun i => sec / n * n + i

/-- A request's packet to memory: a read of some sectors, or its own write. -/
def Packet.missOf (p : Packet) (bank sec sectors : Nat) (write : Bool) : Packet :=
  { p with sec := sec, sectors := sectors, write := write, bank := if write then none else some bank }

/-- A request is served at its home bank (R364, R365, R368). One that was queued at an old home that no longer holds the line is
served at the new one. -/
def State.serve (s : State) (bank : Nat) (p : Packet) : State :=
  let line := p.sec / 4
  let h := s.huskDef p.husk
  let bank := if (s.lineAt bank p.husk line).isSome then bank else s.homeBank p.husk (64 * p.sec)
  let s := match s.oldLine p.husk line with
    | some x => if x.bank = bank then s else s.moveLine bank x
    | none => s
  let through (s : State) : State := if p.write && h.policy == 1 then s.toMemory bank (p.missOf bank p.sec 1 true) else s
  let block := fillBlock h p.sec
  let fill (s : State) : State := s.toMemory bank (p.missOf bank (block.headD 0) block.length false)
  match s.lineAt bank p.husk line with
  | some x =>
    let hit := x.secs.contains p.sec
    let y := if p.write then x.written h.policy p.owner else x
    let y := if hit then y else { y with secs := (y.secs ++ block).eraseDups }
    let s := { s with fab := { s.fab with l2 := y :: s.fab.l2.filter fun z => z != x } }
    let s := s.count p.owner (if hit then 0x08 else 0x09) 1 p.umode
    through (if hit then s else fill s)
  | none =>
    let s := s.count p.owner 0x09 1 p.umode
    let signed := s.mem.sigs.any fun b => b.bank == bank && b.entries.any fun e => e.line == line
    if h.policy = 2 && !signed && !p.alloc then s.toMemory bank (p.missOf bank p.sec 1 p.write)
    else through (fill (s.allocate bank p.husk line p.owner (p.write && h.policy != 1) (h.policy == 2) block))

/-- The miss entries of a bank in use: its misses that wait on LPDDR6 or a peer (R359, R385). -/
def State.misses (s : State) (bank : Nat) : Nat :=
  sumBy (fun (q : PQueue) => if q.kind = 6 || q.kind = 2 then q.packets.countP fun p => p.bank == some bank else 0) s.fab.queues

/-- L2_REQUEST: a bank serves the next request of its queue, and the reply leaves with the request's slack (R360, R381, R382); with
all 64 of its miss entries waiting it serves none (R359, R385). -/
def execL2Request (bank : Nat) (s : State) : Host.Outcome State Fault Refusal :=
  event <|
    let l := s.packetsAt 1 bank 0
    match (if 64 ≤ s.misses bank then none else nextPacket Packet.sameLine l) with
    | none => s
    | some n =>
      let p := l.getD n default
      let s := (s.takePacket 1 bank 0 n).serve bank p
      { s with fab := s.fab.enqueue 5 (bank / 4) (bank % 4) s.cc { p with arrived := s.cc } }

/-! ### Sweeps and retirement (R368, R369, R270) -/

/-- The signature entries of a husk's lines, and the overflow entries, of its old banks are ORed into the new homes'
(R270, R368 step 3). -/
def State.moveSignatures (s : State) (h : Nat) (old new : List Nat) : State :=
  let merge (bs : List SigBank) (bank : Nat) (f : SigBank → SigBank) : List SigBank :=
    f ((bs.find? fun b => b.bank == bank).getD { bank := bank }) :: bs.filter fun b => b.bank != bank
  let step (bs : List SigBank) (b : SigBank) : List SigBank :=
    let mine := b.entries.filter fun e => s.lineHusk (256 * e.line) == h
    let bs := mine.foldl (fun bs e =>
      merge bs (new.getD (bankIndex new.length (256 * e.line)) 0) fun x => (x.deposit 0 e.line e.even).deposit 1 e.line e.odd) bs
    new.foldl (fun bs n => merge bs n fun x => { x with ovEven := x.ovEven ||| b.ovEven, ovOdd := x.ovOdd ||| b.ovOdd }) bs
  let moved := s.mem.sigs.filter fun b => old.contains b.bank
  { s with mem := { s.mem with sigs := moved.foldl step s.mem.sigs } }

/-- Clean sectors of the remote data cache whose home moves are dropped (R368 step 3, R371). -/
def State.dropMoved (s : State) (old new : List Nat) : State :=
  let home (l : List Nat) (sec : Nat) : Nat := l.getD (bankIndex l.length (64 * sec)) 0
  let gone (r : RdcSector) : Bool := r.dirty == 0 && home old r.sec != home new r.sec
  { s with mem := { s.mem with rdc := s.mem.rdc.filter fun r => !gone r } }

/-- HUSK_SWEEP_COMPLETE: dirty lines have moved, clean ones are dropped, signatures are at the new homes; the old map is
deleted and the shares outside the new set return to husk 0 (R368). -/
def execHuskSweepComplete (husk : Nat) (s : State) : Host.Outcome State Fault Refusal :=
  event <|
    let h := s.huskDef husk
    match (if husk = 0 then none else h.oldBanks) with
    | none => s
    | some old =>
      let lines := s.fab.l2.filter fun x => x.husk == husk && x.bank != s.homeBank husk (256 * x.line)
      let s := lines.foldl (fun s x =>
        if x.dirty then s.moveLine (s.homeBank husk (256 * x.line)) x
        else { s with fab := { s.fab with l2 := s.fab.l2.filter fun y => y != x } }) s
      let s := if h.cls = 1 then s.dropMoved old h.banks else s
      let s := s.moveSignatures husk old h.banks
      let gone := old.filter fun b => !h.banks.contains b
      let s := gone.foldl (fun s b => (s.sharesOf b (.husk husk)).foldl (fun s i => s.setShare b i (.husk 0)) s) s
      { s with fab := { s.fab with husks := s.fab.husks.map fun x => if x.num = husk then { x with oldBanks := none } else x } }

/-- The lines of a share leave it (R367, R369). -/
def State.emptyShare (s : State) (bank share : Nat) : State :=
  (s.fab.l2.filter fun x => x.bank == bank && x.share == share).foldl State.dropLine s

/-- Husk 0 has lost a bank: one share of it comes from another husk at the next quiesce point (R370). -/
def State.husk0Lost (s : State) (bank : Nat) : State :=
  let asked := s.cp.changes.any fun c => match c with
    | .husk0Share b _ => b == bank
    | _ => false
  let other := (List.range 16).find? fun i => match s.shareOwner bank i with
    | .husk h => h != 0
    | .spare | .retired => false
  match other with
  | some i => if asked || !(s.sharesOf bank (.husk 0)).isEmpty then s
    else { s with cp := { s.cp with changes := s.cp.changes ++ [.husk0Share bank i] } }
  | none => s

/-- SHARE_RETIRE (R369): its lines are written back or dropped, it becomes RETIRED, and its husk receives an empty share of
the bank: a SPARE one, or one of husk 0. -/
def execShareRetire (bank share : Nat) (s : State) : Host.Outcome State Fault Refusal :=
  event <|
    let o := s.shareOwner bank share
    if o = .retired || 192 ≤ bank || 16 ≤ share then s
    else
      let s := (s.emptyShare bank share).setShare bank share .retired
      let s := { s with fab := { s.fab with shareErrs := s.fab.shareErrs.filter fun e => e.1 != (bank, share) } }
      let spare := (s.sharesOf bank .spare).head?
      let zero := (s.sharesOf bank (.husk 0)).getLast?
      let s := match o with
        | .husk h => match (if h = 0 then spare else spare.or zero) with
          | some i => (s.emptyShare bank i).setShare bank i (.husk h)
          | none => s
        | _ => s
      (s.husk0Lost bank).record { kind := 0x0B, sev := 1, source := 1, loc := bank / 4 + 256 * bank, synd := share }

/-- A share that Jalti is to retire (R369): an uncorrectable error in a line of it, or 8 corrected errors within 2^30 cc. -/
def State.shareFailing (s : State) : Option (Nat × Nat) :=
  match (s.fab.l2.find? fun x => (List.range 4).any fun i => s.l2Bad (4 * x.line + i)) with
  | some x => some (x.bank, x.share)
  | none => (s.fab.shareErrs.find? fun e => 8 ≤ (e.2.countP fun t => s.cc < t + 2 ^ 30)).map Prod.fst

/-! ### LPDDR6 controllers (R331, R372-R376) -/

/-- The four multipliers of R374. -/
def sketchMul : List Nat := [0x9E3779, 0x7F4A7D, 0xD6E8FB, 0x58476D]

/-- The counters of a page, one a row. -/
def sketchCells (page : Nat) : List Nat := (List.range 4).map fun r => 1024 * r + ((page * sketchMul.getD r 0) % 2 ^ 24) >>> 14

/-- The top-K list after a counted transfer (R375). -/
def topUpdate (l : List (Option (Nat × Nat))) (page est : Nat) : List (Option (Nat × Nat)) :=
  match indexWhere (fun e => e.any fun x => x.1 == page) l with
  | some i => l.set i (some (page, est))
  | none => match indexWhere Option.isNone l with
    | some i => l.set i (some (page, est))
    | none => match leastBy (fun i => ((l.getD i none).map Prod.snd).getD 0) (List.range l.length) with
      | some i => if ((l.getD i none).map Prod.snd).getD 0 < est then l.set i (some (page, est)) else l
      | none => l

/-- One transfer of a page counted by a sketch (R374). -/
def Sketch.transfer (k : Sketch) (owner page : Nat) : Sketch :=
  if !k.en || (k.filter && k.ctx.toNat != owner) then k
  else
    let cells := sketchCells page
    let c := cells.foldl (fun c i => assign c i (min 65535 (lookupD 0 c i + 1))) k.counters
    let est := (cells.map (lookupD 0 c)).foldl min 65535
    let full := cells.any fun i => lookupD 0 c i == 65535
    let c := if full then (c.map fun e => (e.1, e.2 / 2)).filter fun e => e.2 != 0 else c
    let top := if full then k.top.map fun e => e.map fun x => (x.1, x.2 / 2) else k.top
    { k with count := k.count + 1, counters := c, top := topUpdate top page est }

/-- A single wrong bit of a word of a check-bit line is corrected with a record; what its code cannot correct is read again with
the line (R331, R332, R350, log 83). -/
def State.healCheck (s : State) (controller line owner : Nat) : State :=
  let bad := s.fab.checkErrs.filter fun e => e.1 == line
  let s := bad.foldl (fun s e => if 2 ≤ e.2.2.length then s else s.record
    { kind := 0x03, sev := 1, source := 0, context := owner, addr := 1024 * line, loc := 65536 * controller, synd := e.2.2.headD 0 }) s
  { s with fab := { s.fab with checkErrs := s.fab.checkErrs.filter fun e => e.1 != line } }

/-- The check symbols of a sector's 1 KiB of data: a line of the controller's 64 KiB check-bit cache, read when it is not there,
in place of the line used least recently (R331, log 8). -/
def State.useCheck (s : State) (controller sec owner : Nat) : State :=
  let line := sec / 16
  let s := if s.fab.checkErrs.isEmpty then s else s.healCheck controller line owner
  let l := lookupD [] s.fab.checkLines controller
  let l := (line :: l.filter (· != line)).take 1024
  { s with fab := { s.fab with checkLines := assign s.fab.checkLines controller l
                               checkErrs := s.fab.checkErrs.filter fun e => controllerOf (1024 * e.1) != controller || l.contains e.1 } }

/-- LPDDR6_REQUEST: a controller serves the next request of its queue: the transfers are counted, the check symbols are used, and
sectors that are read pass the code (R330, R331, R373, R374, R420). -/
def execLpddr6Request (controller : Nat) (s : State) : Host.Outcome State Fault Refusal :=
  event <|
    let l := s.packetsAt 2 controller 0
    match nextPacket Packet.sameSector l with
    | none => s
    | some n =>
      let p := l.getD n default
      let s := s.takePacket 2 controller 0 n
      let s := s.useCheck controller p.sec p.owner
      let s := if p.write then s else (List.range p.sectors).foldl (fun s i => s.heal (p.sec + i) p.owner) s
      let s := s.count p.owner 0x0A p.sectors p.umode
      let page := bits (64 * p.sec) 39 16
      let count (k : Sketch) : Sketch := (List.range p.sectors).foldl (fun k _ => k.transfer p.owner page) k
      { s with fab := { s.fab with sketches := modAt count s.fab.sketches controller } }

/-- DRAM_PATROL: a controller's patrol reads a sector and corrects it (R330, R331). -/
def execDramPatrol (sector : Nat) (s : State) : Host.Outcome State Fault Refusal :=
  event (if s.isPeer (64 * sector) || 0x3C00000000 ≤ 64 * sector % 2 ^ 40 then s else s.heal sector 0xFFFF)

/-- HOT_CLEAR: the sketch, the list and HOT_COUNT become zero (R376). -/
def execHotClear (controller : Nat) (s : State) : Host.Outcome State Fault Refusal :=
  let clear (k : Sketch) : Sketch := { k with count := 0, counters := [], top := List.replicate 32 none }
  event { s with fab := { s.fab with sketches := modAt clear s.fab.sketches controller } }

/-! ### Routers and arbiters (R377-R382, R384) -/

/-- The stop that a packet goes to: its home bank's for a request, or that of the scratchpad or the pod that it asks for; the
asking cluster's for a reply; none for a line that a peer serves, which leaves through the link. -/
def State.stopOf (s : State) (p : Packet) (reply : Bool) : Option Nat :=
  if reply then some p.src
  else match p.dest with
    | some d => some d
    | none => if s.isPeer (64 * p.sec) && s.remoteHusk.isNone then none else some (s.nearSlice (64 * p.sec) / 4)

/-- The output of a stop towards another, columns first (R377): 0 east, 1 west, 2 south, 3 north, 4 the stop itself. -/
def outputTo (here there : Nat) : Nat :=
  if here % 8 < there % 8 then 0
  else if there % 8 < here % 8 then 1
  else if here / 8 < there / 8 then 2
  else if there / 8 < here / 8 then 3
  else 4

/-- The stop behind an output. -/
def nextStop (here out : Nat) : Nat :=
  match out with
  | 0 => here + 1
  | 1 => here - 1
  | 2 => here + 8
  | 3 => here - 8
  | _ => here

/-- Kinds of the router-input and injection queues of a network. -/
def routerKind (reply : Bool) : Nat := if reply then 4 else 0
def injectKind (reply : Bool) : Nat := if reply then 5 else 3

/-- Whether the place that a packet goes to through an output has room (R377, R381); a reply is always accepted at its stop. -/
def State.roomAt (s : State) (reply : Bool) (stop out : Nat) (p : Packet) : Bool :=
  match out with
  | 4 => reply || p.dest.isSome || decide ((s.packetsAt 1 (s.nearSlice (64 * p.sec)) 0).length < 32)
  | 5 => (s.stopOf p reply).isNone || decide ((s.packetsAt (routerKind reply) stop 4).length < 8)
  | _ => decide ((s.packetsAt (routerKind reply) (nextStop stop out) out).length < 8)

/-- The inputs of an arbiter that have a head for its output and can move it: output 5 is the injection arbiter. -/
def State.arbiterInputs (s : State) (reply : Bool) (stop out : Nat) : List PQueue :=
  s.fab.queues.filter fun q =>
    q.num == stop && q.kind == (if out = 5 then injectKind reply else routerKind reply) &&
      match q.packets.head? with
      | some p => (out == 5 || (s.stopOf p reply).any fun d => outputTo stop d == out) && s.roomAt reply stop out p
      | none => false

/-- The least slack of any packet in a queue (R380). -/
def PQueue.least (q : PQueue) : Nat := q.packets.foldl (fun n p => min n p.slack) 1023

/-- The input that an arbiter grants: the exhausted one with the oldest stamp, otherwise the least slack, the earliest head,
the lowest input (R380). -/
def chooseInput (l : List PQueue) : Option PQueue :=
  match l.filter fun q => q.least == 0 with
  | [] => leastBy (fun q => (q.least * 2 ^ 64 + (q.packets.headD default).arrived) * 256 + q.input) l
  | ex => leastBy (fun q => q.stamp.getD 0 * 256 + q.input) ex

/-- The arbiter of a controller's or a port's edge stop moves the head of the bank or cluster that it chooses into the controller's
queue of 64 requests (R373, R377, R380), or out over the link (R385). -/
def State.edgeGrant (s : State) (num : Nat) : State :=
  let inputs := s.fab.queues.filter fun q => q.kind == 6 && q.num == num
  match (if 64 ≤ (s.packetsAt 2 num 0).length then none else chooseInput inputs) with
  | none => s
  | some q =>
    let p := { (q.packets.headD default) with arrived := s.cc }
    let s := s.takePacket 6 num q.input 0
    if 16 ≤ num then s else { s with fab := s.fab.enqueue 2 num 0 s.cc p }

/-- ARBITER_GRANT: arbiter 12 * stop + output, plus 6 in the reply network, moves the head of the input it chooses (R377, R380).
The numbers from 1,024 up are the arbiters of the edge stops: 1,024 + n of controller n, 1,040 + p of port p (log 42). -/
def execArbiterGrant (arbiter : Nat) (s : State) : Host.Outcome State Fault Refusal :=
  event <|
    if 1024 ≤ arbiter then s.edgeGrant (arbiter - 1024) else
    let stop := arbiter / 12
    let reply := 6 ≤ arbiter % 12
    let out := arbiter % 6
    match chooseInput (s.arbiterInputs reply stop out) with
    | none => s
    | some q =>
      let p := { (q.packets.headD default) with arrived := s.cc }
      let s := s.takePacket q.kind q.num q.input 0
      match out with
      | 4 =>
        if reply then s
        else if p.dest.isSome then { s with fab := s.fab.enqueue 5 stop 4 s.cc p }
        else { s with fab := s.fab.enqueue 1 (s.nearSlice (64 * p.sec)) 0 s.cc p }
      | 5 =>
        if (s.stopOf p reply).isNone then { s with fab := s.fab.enqueue 6 (16 + s.portTo (64 * p.sec)) (192 + stop) s.cc p }
        else { s with fab := s.fab.enqueue (routerKind reply) stop 4 s.cc p }
      | _ => { s with fab := s.fab.enqueue (routerKind reply) (nextStop stop out) out s.cc p }

/-- One cc of waiting (R379). -/
def Packet.wait (p : Packet) : Packet :=
  if p.frac = 3 then { p with frac := 0, slack := p.slack - 1 } else { p with frac := p.frac + 1 }

/-- One cc passes for the packets that wait in the fabric (R379, R380, R420). -/
def State.ageFabric (s : State) : State :=
  let age (q : PQueue) : PQueue :=
    if q.kind = 2 then q
    else
      let l := q.packets.map Packet.wait
      { q with packets := l, stamp := if l.any fun p => p.slack == 0 then q.stamp.or (some s.cc) else none }
  let waiting := (s.fab.queues.filter fun q => q.kind != 2).flatMap PQueue.packets
  let s := waiting.foldl (fun s p => if (s.ctx p.owner).fn = 0 then s.count p.owner 0x0C 1 p.umode else s) s
  { s with fab := { s.fab with queues := s.fab.queues.map age } }

/-- Packets of the fabric in the order of its queues: the queue's place, the packet's place, the packet. -/
def Fabric.packetList (f : Fabric) : List (Nat × Nat × Packet) :=
  (List.range f.queues.length).flatMap fun i =>
    let l := (f.queues.getD i default).packets
    (List.range l.length).map fun j => (i, j, l.getD j default)

/-- SLACK_EXHAUSTION: a packet's slack has reached 0: it counts against its owner, and a class with HARD writes a record at
most once in 65,536 cc (R384). -/
def execSlackExhaustion (packet : Nat) (s : State) : Host.Outcome State Fault Refusal :=
  event <|
    match s.fab.packetList[packet]? with
    | none => s
    | some (i, j, p) =>
      if p.slack ≠ 0 || p.counted || (s.fab.queues.getD i default).kind = 2 then s
      else
        let mark (q : PQueue) : PQueue := { q with packets := modAt (fun x => { x with counted := true }) q.packets j }
        let s := { s with fab := { s.fab with queues := modAt mark s.fab.queues i } }
        let s := s.count p.owner 0x0D 1 p.umode
        let n := min (lookupD 0 (s.ctx p.owner).exhaustions p.cls + 1) (2 ^ 32 - 1)
        let recent := (s.ctx p.owner).hardStamps.any fun e => e.1 == p.cls && s.cc < e.2 + 65536
        if p.hard && !recent then
          (s.modCtx p.owner fun c => { c with exhaustions := assign c.exhaustions p.cls 0, hardStamps := assign c.hardStamps p.cls s.cc }).record
            { kind := 0x0D, sev := 0, source := 7, context := p.owner, synd := n }
        else s.modCtx p.owner fun c => { c with exhaustions := assign c.exhaustions p.cls n }

end Sys2Proof.Machine
end

