-- ==== Sys2Proof/Machine/Frames.lean ====
section
/-! DEFINITION. Frames that the command processor scrubs and gives out, and the stage-2 tables that it writes (10 R303-R305, R312,
R324). -/

namespace Sys2Proof.Machine

/-! ### Frames (R324) -/

/-- Frames of 64 KiB are scrubbed: every cached copy is discarded without write-back, and zeros are written at the home. -/
def State.scrubAll (s : State) (frames : Nat → Bool) : State :=
  let here (sec : Nat) : Bool := frames (sec / 1024)
  { s with
    cores := s.cores.map fun (c : Core) => { c with l1 := c.l1.filter fun x => !here x.sec, icache := c.icache.filter fun e => !here e.1 }
    fab := { s.fab with l2 := s.fab.l2.filter fun x => !here (4 * x.line) }
    mem := { s.mem with
      home := s.mem.home.filter fun e => !frames (e.1 / 65536)
      rdc := s.mem.rdc.filter fun r => !here r.sec
      poison := s.mem.poison.filter fun sec => !here sec
      symErrs := s.mem.symErrs.filter fun e => !here e.1
      l1Errs := s.mem.l1Errs.filter fun e => !here (e.2.1 / 8)
      l2Errs := s.mem.l2Errs.filter fun e => !here (4 * e.1) } }

/-- One frame is scrubbed. -/
def State.scrub (s : State) (frame : Nat) : State := s.scrubAll fun f => f == frame

/-- First frame of those that the command processor gives out (log 12). -/
def frameBase : Nat := 0x3000000000 / 65536

/-- The frames that the command processor would give out next: freed ones first (log 12). -/
def State.offerFrames (s : State) (n : Nat) : List (BitVec 48) :=
  let fresh := (List.range n).map fun i => s.localPa (65536 * (frameBase + s.cp.nextFrame + i)) / 65536
  ((s.cp.freeFrames ++ fresh).take n).map fun f => BitVec.ofNat 48 (65536 * f)

/-- A frame leaves the command processor's lists for a context. -/
def State.takeFrame (s : State) (c frame : Nat) : State :=
  let next := s.localPa (65536 * (frameBase + s.cp.nextFrame)) / 65536
  let cp := { s.cp with
    owned := (c, frame) :: s.cp.owned.filter fun e => e.2 != frame
    freeFrames := s.cp.freeFrames.filter (· != frame)
    nextFrame := if frame = next then s.cp.nextFrame + 1 else s.cp.nextFrame }
  ({ s with cp := cp } : State).modCtx c fun x => { x with framesUsed := x.framesUsed + 1 }

/-! ### Linked devices (R315) -/

/-- Every linked device has dropped its translations and copies of pages of an ASID, before a shootdown here is complete (R315,
log 82). -/
def State.tellLinked (s : State) (asid : BitVec 16) (va len : Nat) : State :=
  { s with fab := { s.fab with toPeers := (s.linked.map fun d => PeerMsg.shootdown d asid va len) ++ s.fab.toPeers } }

/-- Whether two ranges of bytes meet. -/
def meets (a n b m : Nat) : Bool := decide (a < b + m) && decide (b < a + n)

/-! ### Stage-2 tables (R303, R312) -/

/-- The IPA at which stage 2 has no valid entry, met by a stage-1 walk from a level's table or by its output. -/
def missFrom (s : State) (root a : Nat) : Nat → Nat → Nat → Option Nat
  | 0, _, _ => none
  | fuel + 1, level, table =>
    let at_ := table + 8 * tableIndex 1 level a
    match s.xlate2 root at_ with
    | .error .stage2 => some at_
    | .error _ => none
    | .ok pa => match s.readEntry pa with
      | none => none
      | some e =>
        if !bitAt e 0 || badFormat 1 level e then none
        else if bitAt e 1 then missFrom s root a fuel (level + 1) (oaOf e)
        else match s.xlate2 root (leafOut e a) with
          | .error .stage2 => some (leafOut e a)
          | _ => none

/-- The IPA that a virtual address of a context misses in stage 2. -/
def State.missingIpa (s : State) (c va : Nat) : Option Nat :=
  match (s.ctx c).s1root with
  | some root => missFrom s (s.ctx c).s2root va 3 1 root
  | none => none

/-- An 8-byte entry written at a system physical address. -/
def State.writeEntry (s : State) (pa e : Nat) : State := s.writeHomeN pa (bytesOf 8 e)

/-- A stage-2 table entry: V, T and the table's address; and a 64 KiB leaf with W, X and every husk allowed (R304, R305). -/
def tableEntry (pa : Nat) : Nat := pa / 65536 * 65536 + 3
def leafEntry (pa size : Nat) : Nat := pa / 65536 * 65536 + 1 + 4 * size + 2 ^ 5 + 2 ^ 6 + 0xFFFF * 2 ^ 48

/-- The command processor's 64 KiB frame for a table of a context, scrubbed, and scrubbed again with what the context leaves
(R324); the address (log 12). -/
def State.newTable (s : State) (c : Nat) : Nat × State :=
  let f := s.localPa (65536 * (frameBase + s.cp.nextFrame)) / 65536
  (65536 * f, { s.scrub f with cp := { s.cp with nextFrame := s.cp.nextFrame + 1, owned := (c, f) :: s.cp.owned } })

/-- A 64 KiB page of a context's IPAs mapped to a frame in stage 2, with the tables it needs; nothing where a valid leaf stands
(R312). -/
def mapPage (c ipa frame : Nat) : Nat → Nat → Nat → State → State
  | 0, _, _, s => s
  | fuel + 1, level, table, s =>
    let at_ := table + 8 * tableIndex 2 level ipa
    let e := Memory.num s.mem.home at_ 8
    if level = 3 then (if bitAt e 0 then s else s.writeEntry at_ (leafEntry (65536 * frame) 0))
    else if bitAt e 0 then (if bitAt e 1 then mapPage c ipa frame fuel (level + 1) (oaOf e) s else s)
    else
      let (t, s) := s.newTable c
      mapPage c ipa frame fuel (level + 1) t (s.writeEntry at_ (tableEntry t))

/-- A page of a context mapped to a scrubbed frame that becomes the context's (R312, R324). -/
def State.mapFrame (s : State) (c ipa frame : Nat) : State :=
  mapPage c ipa frame 3 1 (s.ctx c).s2root ((s.scrub frame).takeFrame c frame)

/-- What stage 2 lacks of a virtual address, at most its three table entries and its page, mapped to frames that the command
processor has (R279, R312). -/
def mapVa (c va : Nat) : Nat → State → State
  | 0, s => s
  | fuel + 1, s =>
    match s.missingIpa c va, (s.offerFrames 1).head? with
    | some ipa, some f => mapVa c va fuel (s.mapFrame c ipa (f.toNat / 65536))
    | _, _ => s

/-- The virtual addresses of the 64 KiB pages that a region touches. -/
def regionPages (va len : Nat) : List Nat :=
  if len = 0 then [] else (List.range ((va + len - 1) / 65536 - va / 65536 + 1)).map fun i => 65536 * (va / 65536 + i)

/-- The pages of a region mapped in stage 2 as for a STAGE2_FAULT (R279). -/
def State.mapRegion (s : State) (c : Nat) (r : Nat × Nat) : State := (regionPages r.1 r.2).foldl (fun s va => mapVa c va 4 s) s

end Sys2Proof.Machine
end

