-- ==== Sys2Proof/Machine/Launch.lean ====
section
/-! DEFINITION. Launch descriptors and their checks, dependence edges and operating points (09 R274-R281, 01 R20). -/

namespace Sys2Proof.Machine

/-! ### Descriptors (R274, R275) -/

/-- A kernel of an image of a context. -/
def State.kernelOf (s : State) (c image kernel : Nat) : Option Kernel :=
  match s.images[image]? with
  | some x => if x.ctx = c && x.live then x.kernels[kernel]? else none
  | none => none

/-- The kernels that a launch runs, with the most waves that a group of each has: a continuation group has one (R277, R287,
R288). -/
def State.launchKernels (s : State) (l : Launch) : List (Kernel × Nat) :=
  match l.graph with
  | none => ((s.kernelOf l.ctx l.image l.kernel).map fun k => (k, l.waves)).toList
  | some g => (List.range (s.graph g).pods.length).map fun n =>
    (s.podKernel g n, if (s.pod g n).cont then 1 else ((s.podKernel g n).threshold + 31) / 32)

/-- A cap of planes: 0, or 2 to 8 (R275). -/
def capOk (n : Nat) : Bool := n == 0 || (2 ≤ n && n ≤ 8)

/-- The fields of a descriptor (R274, R275). -/
def launchOf (c : Cmd) (ctx : Nat) (b : List Byte) : Launch :=
  let target := fieldAt b 16 8
  let ctl := fieldAt b 24 8
  let grid := fieldAt b 32 8
  let flat := bits ctl 1 0 = 0
  { (default : Launch) with
    ctx := ctx, fn := c.fn, queue := c.queue, tag := c.tag, seq := fieldAt b 0 8, desc := b
    graph := if flat then none else some (bits target 31 0)
    image := if flat then bits target 31 0 else 0
    kernel := if flat then bits target 47 32 else 0
    ilevel := bits ctl 3 2, det := bitAt ctl 4, matrix := bitAt ctl 5, oppt := bits ctl 8 6, prio := bits ctl 11 9
    slackc := bits ctl 14 12, pcapa := bits ctl 19 16, pcapb := bits ctl 23 20, planearg := bits ctl 27 24
    gang := bits ctl 29 28, quantum := if bits ctl 63 32 = 0 || !bitAt ctl 4 then 4096 else bits ctl 63 32
    ngroups := if flat then bits grid 31 0 else 0
    waves := if flat then bits grid 37 32 + 1 else 1
    snode := fieldAt b 50 2, roles := fieldAt b 64 16, rngkey := BitVec.ofNat 64 (fieldAt b 56 8), tstamp := fieldAt b 8 8
    args := (List.range 15).map fun i => BitVec.ofNat 64 (fieldAt b (88 + 8 * i) 8) }

/-- The limits and reserved fields that R274 and R275 state of a descriptor's own bytes. -/
def descFieldsOk (b : List Byte) : Bool :=
  let target := fieldAt b 16 8
  let ctl := fieldAt b 24 8
  let grid := fieldAt b 32 8
  let edges := fieldAt b 40 8
  let nedge := fieldAt b 48 2
  let flat := bits ctl 1 0 = 0
  let quantum := bits ctl 63 32
  target >>> 48 == 0 && decide (bits ctl 1 0 ≤ 1) && !([5, 6].contains (bits ctl 8 6)) && !bitAt ctl 15 && bits ctl 31 30 == 0
    && capOk (bits ctl 19 16) && capOk (bits ctl 23 20) && (quantum == 0 || 256 ≤ quantum)
    && decide (nedge ≤ 64) && edges % 32 == 0 && (nedge != 0 || edges == 0)
    && fieldAt b 52 4 == 0 && fieldAt b 208 48 == 0
    && (if flat then
          bits grid 31 0 != 0 && grid >>> 38 == 0 && fieldAt b 50 2 == 0 && fieldAt b 80 8 == 0
            && (bits grid 37 32 < 32 || bits ctl 29 28 == 3)
        else
          bits target 47 32 == 0 && grid >>> 32 == 0 && fieldAt b 64 16 == 0 && bits ctl 14 9 == 0 && bits ctl 29 28 == 0)

/-- The handles of a launch name a flat kernel, or a live graph of the context with the seed node (R276). -/
def State.handlesOk (s : State) (l : Launch) : Bool :=
  match l.graph with
  | none => (s.kernelOf l.ctx l.image l.kernel).any fun k => !k.node
  | some g => decide (g < s.graphs.length) && (s.graph g).live && (s.graph g).ctx == l.ctx && decide (l.snode < (s.graph g).pods.length)

/-! ### Edges (R279) -/

/-- A producer that is known and not retired beyond the last 4,096 launches of the context (R279). -/
def State.producer (s : State) (c seq : Nat) : Option Nat :=
  let ls := (List.range s.launches.length).filter fun l => (s.launch l).ctx == c
  let same := (ls.drop (ls.length - 4096) ++ (ls.take (ls.length - 4096)).filter fun l => !(s.launch l).completed).filter
    fun l => (s.launch l).seq == seq
  match same.find? fun l => (s.launch l).state != .rejected with
  | some l => some l
  | none => same.head?

/-- An edge and its regions as read in the context, with the launch that its PRODUCER names now; none where they cannot be read or
are malformed. -/
def State.readEdge (s : State) (c va : Nat) : Option Edge :=
  match s.cpRead c va 32 with
  | none => none
  | some b =>
    let n := fieldAt b 16 2
    let list := fieldAt b 8 8
    if fieldAt b 18 14 ≠ 0 ∨ 256 < n ∨ list % 16 ≠ 0 then none
    else match s.cpRead c list (16 * n) with
      | none => none
      | some r =>
        let producer := if fieldAt b 0 8 = 2 ^ 64 - 1 then none else some (fieldAt b 0 8)
        some { producer := producer, known := producer.bind (s.producer c)
               regions := (List.range n).map fun i => (fieldAt r (16 * i) 8, fieldAt r (16 * i + 8) 8) }

/-- The edges of a descriptor; none where one of them fails. -/
def State.readEdges (s : State) (c va : Nat) : Nat → Option (List Edge)
  | 0 => some []
  | n + 1 =>
    match s.readEdge c va, State.readEdges s c (va + 32) n with
    | some e, some l => some (e :: l)
    | _, _ => none

/-- Every page of the edges' regions is mapped in both stages (R279). -/
def State.edgesMapped (s : State) (c : Nat) (l : List Edge) : Bool := l.all fun e => e.regions.all fun r => s.regionMapped c r.1 r.2

/-- The seed pips of a graph launch. -/
def State.readSeeds (s : State) (l : Launch) (b : List Byte) : Option (List (List Byte)) :=
  match l.graph with
  | none => some []
  | some g =>
    let size := (s.podKernel g l.snode).record
    let n := bits (fieldAt b 32 8) 31 0
    (s.cpRead l.ctx (fieldAt b 80 8) (n * size)).map fun d => (List.range n).map fun i => (d.drop (i * size)).take size

/-! ### The checks at enqueue (R276, R277) -/

/-- Cores that share a group's members in the shape of a launch (R19, R289). -/
def gangCores (gang : Nat) : Nat := [4, 2, 4, 8].getD gang 4

/-- Whether one group of a kernel fits an empty partition (R288). -/
def fitsEmpty (l : Launch) (clusters : Nat) (k : Kernel × Nat) : Bool :=
  let m := gangCores l.gang
  let each := (k.2 + m - 1) / m
  decide (each * k.1.regs ≤ if 2 ≤ l.ilevel then 512 else 1024) && decide (k.1.scratch ≤ 0xC0000)
    && decide (0 < clusters) && (l.gang != 3 || 2 ≤ clusters)

/-- What a rejection answers: the status of the first check that fails, REJECT_DESC before the others (R276). -/
def State.launchStatus (s : State) (l : Launch) (b : List Byte) (edges : Option (List Edge)) : Option Nat :=
  let n := (s.ctx l.ctx).clusterMap.length
  let kernels := s.launchKernels l
  if !descFieldsOk b || !s.handlesOk l || edges.isNone || ((s.ctx l.ctx).lastSeq.any fun q => l.seq ≤ q) then some 0x10
  else if l.ilevel = 3 && (l.gang = 3 || n < 2) then some 0x11
  else if l.det && (l.gang ≠ 0 || !kernels.all fun k => k.1.det) then some 0x12
  else if !kernels.all (fitsEmpty l n) then some 0x13
  else none

/-- The integrity level in force: the larger of the request and of every kernel's (R277). -/
def State.effectiveLevel (s : State) (l : Launch) : Nat := (s.launchKernels l).foldl (fun n k => max n k.1.ilevel) l.ilevel

/-- LAUNCH: the descriptor is read once and checked; a rejected launch completes at once, and the others wait for their edges
(R274-R279). The regions of a producer that is already complete are written back now. -/
def execLaunch (c : Cmd) (s : State) : Host.Outcome State Fault Refusal :=
  event <|
    let ctx := s.cmdCtx c
    let add (s : State) (l : Launch) : State := { s with launches := s.launches ++ [{ l with order := s.order, since := s.cc }], order := s.order + 1 }
    match (if c.addr.toNat % 64 = 0 then s.cpRead ctx c.addr.toNat 256 else none) with
    | none =>
      let s := add s { (default : Launch) with ctx := ctx, fn := c.fn, queue := c.queue, tag := c.tag }
      s.endLaunch (s.launches.length - 1) .rejected 0x10
    | some b =>
      let l := launchOf c ctx b
      let l := { l with ilevel := s.effectiveLevel l }
      let edges := s.readEdges ctx (fieldAt b 40 8) (min 64 (fieldAt b 48 2))
      let s := s.cpPost ctx c.addr.toNat 256
      let s := ((edges.getD []).flatMap Edge.regions).foldl (fun s r => s.mapRegion ctx r) s
      let edges := edges.filter (s.edgesMapped ctx)
      let seeds := s.readSeeds l b
      let status := (s.launchStatus l b edges).or (if seeds.isNone then some 0x10 else none)
      let s := s.modCtx ctx fun x => { x with lastSeq := some (max (x.lastSeq.getD 0) l.seq) }
      let s := add s { l with edges := edges.getD [], seeds := seeds.getD [], state := .waiting }
      let n := s.launches.length - 1
      match status with
      | some x => s.endLaunch n .rejected x
      | none =>
        let done := (edges.getD []).flatMap fun e =>
          match e.known with
          | some p => if (s.launch p).state == .complete || (s.launch p).state == .orphans then e.regions else []
          | none => []
        done.foldl (fun s r => s.cleanRegion ctx r) s

/-! ### Waiting (R278, R279) -/

/-- Where an edge stands: satisfied, failed, or still waiting (R278, R279). -/
inductive EdgeState where
  | satisfied | failed | pending
deriving DecidableEq, Repr

def State.edgeState (s : State) (l : Nat) (e : Edge) : EdgeState :=
  match e.producer with
  | none => if e.hashed = e.regions.length then .satisfied else .pending
  | some _ =>
    match e.known with
    | none => .satisfied
    | some p =>
      match (s.launch p).state with
      | .complete | .orphans => .satisfied
      | .aborted | .rejected | .depFailed => .failed
      | .enqueued | .waiting | .settling | .running | .finishing => .pending

/-- An earlier launch of the same graph that has not ended (R278). -/
def State.graphBusy (s : State) (l : Nat) : Bool :=
  (s.launch l).graph.isSome && (List.range s.launches.length).any fun n =>
    n != l && (s.launch n).graph == (s.launch l).graph && !(s.launch n).completed && decide ((s.launch n).order < (s.launch l).order)

/-- Voltage domains of a launch's partition (R280). -/
def State.domainsOf (s : State) (c : Nat) : List Nat := ((s.ctx c).clusterMap.map (· / 12)).eraseDups

/-- A launch counts for a domain (R280). -/
def State.countsFor (s : State) (l d : Nat) : Bool :=
  let x := s.launch l
  let inPartition := (s.domainsOf x.ctx).contains d
  let undispatched := match x.graph with
    | none => decide (x.nextGroup < x.ngroups)
    | some _ => !x.formed.isEmpty
  match x.state with
  | .settling => inPartition
  | .running => (inPartition && undispatched) ||
      s.waves.any fun w => w.launch == l && w.resident && s.physCluster w.ctx w.clid / 12 == d
  | _ => false

/-- The point requested for a domain, if any hint counts (R280). -/
def State.requestedPoint (s : State) (d : Nat) : Option Nat :=
  let hints := (List.range s.launches.length).filterMap fun l =>
    if s.countsFor l d && (s.launch l).oppt != 7 then some (s.launch l).oppt else none
  match hints with
  | [] => none
  | h :: t => some (t.foldl max h)

/-- The point that a domain is to be at: the request, or the point it keeps, under CAP (R280, R422). -/
def State.targetPoint (s : State) (d : Nat) : Nat := min ((s.requestedPoint d).getD (s.jalti.points.getD d 0)) s.jalti.cap

/-- OPERATING_POINT_CHANGE: a domain reaches its point (R280, R422). -/
def execOperatingPointChange (domain : Nat) (s : State) : Host.Outcome State Fault Refusal :=
  event <|
    if s.jalti.points.length ≤ domain then s
    else { s with jalti := { s.jalti with points := s.jalti.points.set domain (s.targetPoint domain) } }

/-- The operating point of a launch is stable: no domain of its partition is below its hint, under CAP (R280). -/
def State.settled (s : State) (l : Nat) : Bool :=
  let x := s.launch l
  x.oppt == 7 || (s.domainsOf x.ctx).all fun d => decide (min x.oppt s.jalti.cap ≤ s.jalti.points.getD d 0)

/-- Entry to RUNNING (R278): the snapshot of a deterministic launch (R106), and the seed pips on their way to SNODE's pod. -/
def State.enterRunning (s : State) (l : Nat) : State :=
  let x := s.launch l
  let seeds := x.seeds.map fun b =>
    ({ wave := 0, tag := 0, graph := x.graph.getD 0, node := x.snode, pips := [{ bytes := b, depth := 0, join := fieldAt b 16 8 }]
       mask := 0, cont := false, seed := true, held := x.det } : EmitReq)
  let s := s.modLaunch l fun y => { y with
    state := .running, snapshot := if y.det then (s.ctx y.ctx).slots else [] }
  { s with emits := s.emits ++ seeds }

/-- The next transition of a launch before RUNNING, if one is due (R278). -/
def State.advanceLaunch (s : State) (l : Nat) : Option State :=
  let x := s.launch l
  if x.tearing then none
  else match x.state with
    | .waiting =>
      let e := x.edges.map (s.edgeState l)
      if e.contains .failed then some (s.endLaunch l .depFailed 0x14)
      else if e.contains .pending || s.graphBusy l then none
      else some (s.modLaunch l fun y => { y with state := .settling })
    | .settling => if s.settled l then some (s.enterRunning l) else none
    | _ => none

end Sys2Proof.Machine
end

