-- ==== Sys2Proof/Machine/Place.lean ====
section
/-! DEFINITION. Placement and dispatch of groups, gangs and continuations (09 R283-R291, 01 R12-R19, R25, R31, R35-R37, R41,
13 R391, 11 R329, R343). -/

namespace Sys2Proof.Machine

/-! ### Free resources of cores and clusters (R288) -/

/-- Waves on a physical core. -/
def State.coreWaves (s : State) (core : Nat) : List Nat := s.wavesWith fun w => w.resident && s.coreOf w == core

/-- Registers of a core's pool in use (R35). -/
def State.poolUsed (s : State) (core : Nat) : Nat := sumBy (fun k => (s.wave k).valloc) (s.coreWaves core)

/-- Registers that waves of a core may hold: 512 when it is mirrored, or for a mirroring wave (R36, R335). -/
def State.poolLimit (s : State) (core : Nat) (mirror : Bool) : Nat := if mirror || (s.core core).mirrored then 512 else 1024

/-- Whether a core is held for another group (R290). -/
def State.heldFor (s : State) (core l grpid : Nat) : Bool := (s.core core).reserved.any fun e => e != (l, grpid)

/-- A member's place: logical cluster, core, quarter and slot. -/
structure Seat where
  clid : Nat
  coreid : Nat
  quarter : Nat
  slot : Nat
deriving DecidableEq, Repr, Inhabited

/-- A group's place. -/
structure Plan where
  seats : List Seat
  clusters : List Nat
  base : Nat
deriving DecidableEq, Repr, Inhabited

/-- Seats already taken in a quarter of a core: those of resident waves and those of the plan so far. -/
def State.slotsTaken (s : State) (c : Nat) (plan : List Seat) (clid coreid quarter : Nat) : List Nat :=
  let core := 4 * s.physCluster c clid + coreid
  ((s.coreWaves core).filterMap fun k => if (s.wave k).quarter = quarter then some (s.wave k).slot else none) ++
    plan.filterMap fun e => if e.clid = clid && e.coreid = coreid && e.quarter = quarter then some e.slot else none

/-- Free wave slots of a core, with the plan's members on it. -/
def State.freeSlots (s : State) (c l grpid : Nat) (plan : List Seat) (core : Nat × Nat) : Nat :=
  let p := 4 * s.physCluster c core.1 + core.2
  if s.heldFor p l grpid then 0
  else 64 - ((s.coreWaves p).length + plan.countP fun e => e.clid == core.1 && e.coreid == core.2)

/-- The seat of a member on a core: the quarter with the fewest waves, ties to the lowest (R289). -/
def State.seatOn (s : State) (c : Nat) (plan : List Seat) (core : Nat × Nat) (quarter : Option Nat) : Seat :=
  let q := quarter.getD ((leastBy (fun q => (s.slotsTaken c plan core.1 core.2 q).length) (List.range 4)).getD 0)
  let taken := s.slotsTaken c plan core.1 core.2 q
  { clid := core.1, coreid := core.2, quarter := q, slot := (firstBelow (fun n => !taken.contains n) 17).getD 16 }

/-- The members' seats, one after another, on the core that `pick` gives for each (R289, R290, R391). -/
def State.seats (s : State) (c : Nat) (pick : List Seat → Nat → Nat × Nat) (quarter : Nat → Option Nat) (n : Nat) : List Seat :=
  (List.range n).foldl (fun plan w => plan ++ [s.seatOn c plan (pick plan w) (quarter w)]) []

/-- The core of a plain group's next member: the most free slots, ties to the lowest (R289). -/
def State.freest (s : State) (c l grpid : Nat) (cores : List (Nat × Nat)) (plan : List Seat) : Nat × Nat :=
  (leastBy (fun core => 64 - s.freeSlots c l grpid plan core) cores).getD (0, 0)

/-- Whether the members fit on their cores: slots, registers, and no reservation of another group (R288). -/
def State.seatsFit (s : State) (c l grpid : Nat) (k : Kernel) (mirror : Bool) (plan : List Seat) : Bool :=
  plan.all fun e =>
    let core := 4 * s.physCluster c e.clid + e.coreid
    let here := plan.countP fun x => x.clid == e.clid && x.coreid == e.coreid
    decide (e.slot < 16) && !s.heldFor core l grpid && decide ((s.coreWaves core).length + here ≤ 64)
      && decide (s.poolUsed core + here * k.regs ≤ s.poolLimit core mirror)

/-- A group that has a wave on the part. -/
def State.groupResident (s : State) (g : Nat) : Bool := (s.group g).live && s.waves.any fun w => w.group == g && w.resident

/-- Registers of a core that are set aside for the gang that holds it with its token (R288, R290). -/
def State.setAside (s : State) (core : Nat) : Nat :=
  match (s.core core).reserved with
  | none => 0
  | some (l, _) =>
    let x := s.launch l
    let m := gangCores x.gang
    (x.waves + m - 1) / m * ((s.kernelOf x.ctx x.image x.kernel).getD default).regs

/-- First fit of a scratchpad window among the windows of the groups on some physical clusters, and the ranges `held` (R288). -/
def State.fitWindow (s : State) (phys : List Nat) (size : Nat) (held : List (Nat × Nat) := []) : Option Nat :=
  let busy := (List.range s.groups.length).filterMap fun g =>
    let x := s.group g
    if s.groupResident g && x.clusters.any fun cl => phys.contains (s.physCluster x.ctx cl) then
      some (x.spbase.toNat, x.spbase.toNat + x.spsize.toNat) else none
  let base := (sortBy Prod.fst (busy ++ held)).foldl (fun (acc : Nat × Bool) e =>
    if acc.2 || acc.1 + size ≤ e.1 then (acc.1, true) else (max acc.1 e.2, false)) (0, false)
  if base.1 + size ≤ 0xC0000 then some base.1 else none

/-- The gangs, other than this one, that hold cores of some physical clusters with their token (R290). -/
def State.holders (s : State) (l grpid : Nat) (phys : List Nat) : List (Nat × Nat) :=
  ((phys.flatMap fun p => (List.range 4).filterMap fun i => (s.core (4 * p + i)).reserved).filter (· != (l, grpid))).eraseDups

/-- The window that a gang's token holds for it on the clusters of its cores; none while no window of its size is free there, and
what becomes free is held for it (R290). -/
def State.gangWindow (s : State) (g : Nat × Nat) : Option (Nat × Nat) :=
  let x := s.launch g.1
  let size := ((s.kernelOf x.ctx x.image x.kernel).getD default).scratch
  let phys := (List.range 48).filter fun p => (List.range 4).any fun i => (s.core (4 * p + i)).reserved == some g
  (s.fitWindow phys size).map fun b => (b, b + size)

/-- The window of a new group: first fit beside the groups there and beside the windows that tokens hold (R288, R290). -/
def State.windowFor (s : State) (l grpid : Nat) (phys : List Nat) (size : Nat) : Option Nat :=
  let held := (s.holders l grpid phys).map s.gangWindow
  if held.any Option.isNone then none else s.fitWindow phys size (held.filterMap id)

/-- Twins on which a plan has a member, as (logical cluster, twin). -/
def Plan.twins (p : Plan) : List (Nat × Nat) := (p.seats.map fun e => (e.clid, e.coreid / 2)).eraseDups

/-- A twin's tiles are free (R25, R288). -/
def State.twinsFree (s : State) (c : Nat) (l : List (Nat × Nat)) : Bool :=
  l.all fun e => let t := s.twin (2 * s.physCluster c e.1 + e.2); t.owner.isNone && t.queue.isEmpty

/-- The twin of the shadow cluster that runs what a leader's twin runs (R244, R289). -/
def shadowTwin (e : Nat × Nat) : Nat × Nat := (e.1 + 1, e.2)

/-- The mode of a cluster's pair admits a launch (R289, R329): IL3 on an even cluster of a CHECKED pair with its context's waves
only; other work on INDEPENDENT pairs. -/
def State.pairAdmits (s : State) (l clid : Nat) : Bool :=
  let x := s.launch l
  let p := s.physCluster x.ctx clid / 2
  let ws := s.pairWaves p
  if x.ilevel = 3 then
    clid % 2 == 0 && (s.pair p).mode == .checked && !(s.pair p).frozen && ws.all fun k => (s.wave k).ctx == x.ctx
  else (s.pair p).mode == .independent

/-- A plan from seats, where everything fits (R288). -/
def State.planOf (s : State) (l grpid : Nat) (k : Kernel) (clusters : List Nat) (seats : List Seat) : Option Plan :=
  let x := s.launch l
  let phys := clusters.map (s.physCluster x.ctx)
  match s.windowFor l grpid (if x.ilevel = 3 then phys ++ phys.map (· + 1) else phys) k.scratch with
  | none => none
  | some base =>
    let p : Plan := { seats := seats, clusters := clusters, base := base }
    if clusters.all (s.pairAdmits l) && s.seatsFit x.ctx l grpid k (2 ≤ x.ilevel) seats
        && (!x.matrix || (s.twinsFree x.ctx p.twins && (x.ilevel ≠ 3 || s.twinsFree x.ctx (p.twins.map shadowTwin)))) then some p
    else none

/-- Logical clusters of a launch's partition. -/
def State.partition (s : State) (c : Nat) : List Nat := List.range (s.ctx c).clusterMap.length

/-- Placement of a plain group of `n` members (R289): the cluster with the most free slots among those where it fits. -/
def State.planPlain (s : State) (l grpid : Nat) (k : Kernel) (n : Nat) : Option Plan :=
  let x := s.launch l
  let plans := (s.partition x.ctx).filterMap fun cl =>
    let cores := (List.range 4).map fun i => (cl, i)
    (s.planOf l grpid k [cl] (s.seats x.ctx (fun plan _ => s.freest x.ctx l grpid cores plan) (fun _ => none) n)).map fun p =>
      (sumBy (s.freeSlots x.ctx l grpid []) cores, p)
  (leastBy (fun e => 4096 - e.1) plans).map Prod.snd

/-- Fixed placement in a deterministic launch (R391). -/
def State.planDet (s : State) (l grpid : Nat) (k : Kernel) (n : Nat) : Option Plan :=
  let x := s.launch l
  let c := (s.partition x.ctx).length
  let cl := if x.ilevel = 3 then 2 * (grpid % (c / 2)) else grpid % c
  s.planOf l grpid k [cl] (s.seats x.ctx (fun _ w => (cl, w % 4)) (fun w => some (w / 4 % 4)) n)

/-- The core sets of a gang's shape, in order of cluster and core (R19, R290). -/
def State.gangSets (s : State) (l : Nat) : List (List (Nat × Nat)) :=
  let x := s.launch l
  let cl := (s.partition x.ctx).filter (s.pairAdmits l)
  let cores (c : Nat) : List (Nat × Nat) := [(c, 0), (c, 1), (c, 2), (c, 3)]
  match x.gang with
  | 1 => cl.flatMap fun c => [[(c, 0), (c, 1)], [(c, 2), (c, 3)]]
  | 2 => cl.map cores
  | _ => (cl.filter fun c => c % 2 == 0 && cl.contains (c + 1)).map fun c => cores c ++ cores (c + 1)

/-- The core set of a gang: the cores that its token holds, or the set with the most free slots (R290). -/
def State.gangSet (s : State) (l grpid : Nat) : Option (List (Nat × Nat)) :=
  let x := s.launch l
  let fixed (core : Nat × Nat) : Bool := (s.core (4 * s.physCluster x.ctx core.1 + core.2)).reserved == some (l, grpid)
  match (s.gangSets l).find? fun set => set.all fixed with
  | some set => some set
  | none => leastBy (fun set => 4096 - sumBy (s.freeSlots x.ctx l grpid []) set) (s.gangSets l)

/-- Placement of a gang on a core set: member w on core w mod m (R290). -/
def State.planGang (s : State) (l grpid : Nat) (k : Kernel) (n : Nat) (set : List (Nat × Nat)) : Option Plan :=
  s.planOf l grpid k ((set.map Prod.fst).eraseDups)
    (s.seats (s.launch l).ctx (fun _ w => set.getD (w % set.length) (0, 0)) (fun _ => none) n)

/-! ### Starting a group -/

/-- The first dispatch of a launch (R268, R397): the regions of its edges are invalidated, and the LAUNCH entry is written. -/
def State.firstDispatch (s : State) (l phys : Nat) : State :=
  let x := s.launch l
  if x.traced then s
  else
    let s := (x.edges.flatMap Edge.regions).foldl (fun s r => s.invalRegion x.ctx r) s
    let s := s.modLaunch l fun y => { y with traced := true }
    s.traceEntry 1 5 x.ctx (bytesOf 1 (s.jalti.points.getD (phys / 12) 0) ++ bytesOf 1 x.ilevel ++ bytesOf 1 (x.pcapa + 16 * x.pcapb)
      ++ bytesOf 1 x.det.toNat ++ bytesOf 1 (s.ctx x.ctx).clusterMap.length ++ zeros 43 ++ x.desc) (some x.tstamp)

/-- S0-S63 at wave start: the arguments, the caps word in Sn for PLANEARG n, zero elsewhere (R281). -/
def startRegs (x : Launch) : List Word :=
  let l := (0 :: x.args) ++ List.replicate 48 0
  if x.planearg = 0 then l else l.set x.planearg (BitVec.ofNat 64 (x.pcapa + 16 * x.pcapb))

/-- Rank of member `w` among the members on its core. -/
def Plan.rank (p : Plan) (w : Nat) : Nat :=
  (p.seats.take w).countP fun e => e.clid == (p.seats.getD w default).clid && e.coreid == (p.seats.getD w default).coreid

/-- A member at its start (R13, R18, R31, R35, R41, R284). -/
def State.startWave (s : State) (l g : Nat) (k : Kernel) (p : Plan) (pips : List Pip) (pc : VAddr) (roles start w : Nat) : Wave :=
  let x := s.launch l
  let e := p.seats.getD w default
  let mine := (pips.drop (32 * w)).take 32
  let flat := pips.isEmpty
  let valid := maskOf fun i => i < mine.length
  { pc := pc, exec := if flat then allLanes else valid
    s := startRegs x, sbank := List.replicate 8 0, v := List.replicate k.regs zeroVReg, p := List.replicate 8 0, valloc := k.regs
    group := g, waveid := w, sgid := BitVec.ofNat 2 (bits roles (2 * w + 1) (2 * w)), ctx := x.ctx, launch := l
    clid := e.clid, coreid := e.coreid, quarter := e.quarter, slot := e.slot
    pipbase := if flat then 0 else
      BitVec.ofNat 32 (e.clid * 2 ^ 22 + e.coreid * 2 ^ 20 + p.base + 32 * p.rank w * k.record)
    pipDepth := mine.map Pip.depth, pipValid := if flat then 0 else valid, rngkey := x.rngkey
    startAt := start, lastIssue := start, eligibleSince := start }

/-- The pips of a member placed in the group's window on its core, on a checked pair on both clusters' (R41, R284, R338). -/
def State.placeBytes (s : State) (c : Nat) (checked : Bool) (k : Kernel) (p : Plan) (pips : List Pip) (w : Nat) : State :=
  let e := p.seats.getD w default
  let mine := (pips.drop (32 * w)).take 32
  let key (i : Nat) : Nat := spKey (s.physCluster c e.clid) e.coreid (p.base + 32 * p.rank w * k.record + i * k.record)
  s.writeSpBoth checked ((List.range mine.length).flatMap fun i =>
    let b := (mine.getD i default).bytes
    (List.range b.length).zip b |>.map fun y => (key i + y.1, y.2))

/-- A group is dispatched at its place (R284, R287-R291): its resources are taken, and its waves are READY at their first
instruction. An IL3 group's first instruction waits for an acorn (R343). -/
def State.startGroup (s : State) (l : Nat) (k : Kernel) (node : Option Nat) (grpid roles n : Nat) (pips : List Pip) (pc : VAddr)
    (start : Nat) (p : Plan) : State :=
  let x := s.launch l
  let phys := p.clusters.map (s.physCluster x.ctx)
  let s := s.firstDispatch l (phys.headD 0)
  let g := s.groups.length
  let twins := if x.matrix then p.twins else []
  let cls := if node.isSome then k.slack else x.slackc
  let new : Group := {
    grpid := BitVec.ofNat 32 grpid, ctx := x.ctx, launch := l, clusters := p.clusters, gang := if node.isSome then 0 else x.gang
    spbase := BitVec.ofNat 20 p.base, spsize := BitVec.ofNat 20 k.scratch
    windows := List.replicate 16 { asid := (s.ctx x.ctx).asid }, twins := twins
    nodeid := BitVec.ofNat 16 (node.getD 0), flat := node.isNone, graph := x.graph.getD 0
    pipcount := if node.isSome then BitVec.ofNat 11 pips.length else 1024
    poolBytes := pips.length * k.record, ilevel := x.ilevel, det := x.det, quantum := BitVec.ofNat 32 x.quantum
    prio := if node.isSome then k.prio else x.prio, slackInit := s.slackInit x.ctx cls, dispatchCc := s.cc
    pcapa := x.pcapa, pcapb := x.pcapb, regs := k.regs }
  let waves := (List.range n).map (s.startWave l g k p pips pc roles start)
  let s := { s with groups := s.groups ++ [new], waves := s.waves ++ waves }
  let s := (List.range n).foldl (fun s w => s.placeBytes x.ctx (x.ilevel == 3) k p pips w) s
  let s := (if x.ilevel = 3 then twins ++ twins.map shadowTwin else twins).foldl (fun s e =>
    s.modTwin (2 * s.physCluster x.ctx e.1 + e.2) fun _ => { Twin.reset with owner := some g }) s
  let s := (((p.seats.map fun e => 4 * s.physCluster x.ctx e.clid + e.coreid)).eraseDups).foldl State.remirror s
  let s := s.modLaunch l fun y => { y with dispatched := y.dispatched + 1 }
  if x.ilevel = 3 then s.modPair (phys.headD 0 / 2) fun q => { q with wanted := some (q.wanted.getD 7) } else s

/-! ### Saved groups (R37, R295) -/

/-- The twins whose tiles a group holds, on a checked pair those of the shadow cluster too (R244). -/
def Group.allTwins (g : Group) : List (Nat × Nat) := if g.ilevel = 3 then g.twins ++ g.twins.map shadowTwin else g.twins

/-- A saved group fits where its logical clusters now are: registers, slots, its window, its tiles and the pair's mode
(R37, R288, R295). -/
def State.groupFits (s : State) (g : Nat) : Bool :=
  let x := s.group g
  let ws := ((s.members g).map s.wave).filter fun w => w.state == .saved
  let phys := x.clusters.map (s.physCluster x.ctx)
  let window (h : Nat) : Bool :=
    let y := s.group h
    let met := (y.clusters.map (s.physCluster y.ctx)).any phys.contains
    !(s.groupResident h && met) || decide (y.spbase.toNat + y.spsize.toNat ≤ x.spbase.toNat)
      || decide (x.spbase.toNat + x.spsize.toNat ≤ y.spbase.toNat) || x.spsize == 0 || y.spsize == 0
  let core (w : Wave) : Nat := s.coreOf w
  !ws.isEmpty && x.clusters.all (fun cl => cl < (s.ctx x.ctx).clusterMap.length) && (List.range s.groups.length).all window
    && s.twinsFree x.ctx x.allTwins && x.clusters.all (s.pairAdmits x.launch)
    && ((ws.map core).eraseDups).all fun c =>
        let here := ws.filter fun w => core w == c
        !s.heldFor c x.launch x.grpid.toNat && decide ((s.coreWaves c).length + here.length ≤ 64)
          && decide (s.poolUsed c + sumBy Wave.valloc here ≤ s.poolLimit c (2 ≤ x.ilevel))

/-- The order of a saved group among the candidates: its class and launch slack at dispatch, and earlier than what has not been
dispatched (R291, R295). -/
def State.savedKey (s : State) (g : Nat) : Nat := (7 - (s.group g).prio) * 2 ^ 80 + (s.group g).slackInit * 2 ^ 64

/-- Saved groups of the contexts that are switched in and not being preempted, in the order of dispatch (R291, R295). -/
def State.restorable (s : State) (c : Nat) : List Nat :=
  let ready (g : Nat) : Bool :=
    let x := s.group g
    x.live && (s.ctx x.ctx).alive && !(s.ctx x.ctx).switchedOut && !(s.ctx x.ctx).preempting
      && (s.ctx x.ctx).clusterMap == (s.ctx c).clusterMap && (s.members g).any fun k => (s.wave k).state == .saved
  sortBy s.savedKey ((List.range s.groups.length).filter ready)

/-! ### Candidates (R291) -/

/-- The launchable pips of a pod whose order has settled: those that became launchable before this lc (R287). -/
def Pod.settled (p : Pod) (lc : Nat) : List Pip := p.launchable.takeWhile fun x => x.ready < lc

/-- What the dispatcher may take. -/
inductive Cand where
  /-- the next group of a flat launch -/
  | flat (l : Nat)
  /-- the next group of a gang launch -/
  | gang (l : Nat)
  /-- a formed group: launch and place in its list -/
  | formed (l n : Nat)
  /-- the head of a continuation pod's launchable list -/
  | cont (l g n : Nat)
deriving DecidableEq, Repr, Inhabited

/-- The kernel of a candidate. -/
def State.candKernel (s : State) : Cand → Kernel
  | .flat l | .gang l => (s.kernelOf (s.launch l).ctx (s.launch l).image (s.launch l).kernel).getD default
  | .formed l n => s.podKernel ((s.launch l).graph.getD 0) (((s.launch l).formed.getD n default).node)
  | .cont _ g n => s.podKernel g n

/-- The order of a candidate: class, launch slack at the start, then enqueue or formation. -/
def State.candKey (s : State) (c : Cand) : Nat :=
  let k := s.candKernel c
  let key (x prio cls order : Nat) : Nat := (7 - prio) * 2 ^ 80 + s.slackInit x cls * 2 ^ 64 + order
  match c with
  | .flat l | .gang l => key (s.launch l).ctx (s.launch l).prio (s.launch l).slackc (s.launch l).order
  | .formed l n => key (s.launch l).ctx k.prio k.slack (((s.launch l).formed.getD n default).order)
  | .cont l g n => key (s.launch l).ctx k.prio k.slack (((s.pod g n).launchable.headD default).order)

/-- A launch that may dispatch: RUNNING, not torn down, its context neither preempted nor switched out, and every restored
wave of the partition has issued (R320). -/
def State.dispatches (s : State) (l : Nat) : Bool :=
  let x := s.launch l
  x.state == .running && !x.tearing && !(s.ctx x.ctx).preempting && !(s.ctx x.ctx).switchedOut
    && !(s.waves.any fun w => w.resident && w.preempted && (s.ctx w.ctx).clusterMap == (s.ctx x.ctx).clusterMap)

/-- Candidates of a launch. -/
def State.candsOf (s : State) (l : Nat) : List Cand :=
  let x := s.launch l
  match x.graph with
  | none => if x.nextGroup < x.ngroups then [if x.gang = 0 then .flat l else .gang l] else []
  | some g =>
    ((List.range x.formed.length).map fun n => Cand.formed l n) ++
      ((List.range (s.graph g).pods.length).filter fun n => !((s.pod g n).settled s.lc).isEmpty).map fun n => Cand.cont l g n

/-- Candidates of the dispatcher of a context's partition, in order (R291); deterministic launches dispatch at epoch ends. -/
def State.candidates (s : State) (c : Nat) : List Cand :=
  let same (x : Nat) : Bool := (s.ctx x).clusterMap.all fun p => (s.ctx c).clusterMap.contains p
  let ls := (List.range s.launches.length).filter fun l =>
    s.dispatches l && !(s.launch l).det && same (s.launch l).ctx && (s.ctx (s.launch l).ctx).clusterMap.length == (s.ctx c).clusterMap.length
  sortBy s.candKey (ls.flatMap s.candsOf)

/-- Members of a formed group (R284). -/
def Formed.waves (f : Formed) : Nat := (f.pips.length + 31) / 32

/-- The run of launchable pips at the head that share a code pointer, at most 32 (R287). -/
def contRun (l : List Pip) : List Pip :=
  match l with
  | [] => []
  | h :: t => h :: (t.take 31).takeWhile fun x => fieldAt x.bytes 0 8 == fieldAt h.bytes 0 8

/-- The place of a candidate other than a gang, where it fits now. -/
def State.candPlan (s : State) (c : Cand) : Option Plan :=
  let k := s.candKernel c
  match c with
  | .flat l => s.planPlain l (s.launch l).nextGroup k (s.launch l).waves
  | .formed l n => let f := (s.launch l).formed.getD n default; s.planPlain l f.grpid k f.waves
  | .cont l _ _ => s.planPlain l (s.launch l).nextGroup k 1
  | .gang _ => none

/-- The state of a gang's admission, made when it first becomes a candidate (R290). -/
def State.gangOf (s : State) (l grpid : Nat) : Gang :=
  ((s.launch l).gangs.find? fun g => g.grpid == grpid).getD
    { grpid := grpid, lfsr := BitVec.ofNat 16 (((s.launch l).seq ^^^ grpid) % 65536 ||| 1), attempts := 0, backingOff := false }

/-- The launches and GRPIDs that hold or await the admission token of a context's partition, in order of request (R290). -/
def State.partitionTokens (s : State) (c : Nat) : List ((Nat × Nat) × Nat) :=
  sortBy Prod.snd (((List.range s.ctxs.length).filter fun x => (s.ctx x).clusterMap == (s.ctx c).clusterMap).flatMap fun x => (s.ctx x).tokens)

/-- Whether a gang's token lets it reserve its set for good (R290). -/
def State.holdsAdmission (s : State) (l grpid : Nat) : Bool :=
  ((s.partitionTokens (s.launch l).ctx).head?.map Prod.fst) == some (l, grpid)

/-- The cores of a gang's set are not yet held although its token lets it hold them. -/
def State.mayFix (s : State) (l grpid : Nat) : Bool :=
  s.holdsAdmission l grpid && !(s.gangOf l grpid).token && (s.gangSet l grpid).isSome

/-- A candidate that the dispatcher can act on now. -/
def State.actionable (s : State) (c : Cand) : Bool :=
  match c with
  | .gang l =>
    let n := (s.launch l).nextGroup
    let g := s.gangOf l n
    !g.backingOff && (!g.token || ((s.gangSet l n).bind (s.planGang l n (s.candKernel c) (s.launch l).waves)).isSome)
  | _ => (s.candPlan c).isSome

/-- A saved group that fits is due before a candidate (R295). -/
def State.savedFirst (s : State) (c : Nat) (x : Cand) : Bool :=
  (s.restorable c).any fun g => s.groupFits g && decide (s.savedKey g ≤ s.candKey x)

/-- The candidate that the dispatcher of a context's partition takes next (R291), unless a saved group is due before it (R295). -/
def State.nextCandidate (s : State) (c : Nat) : Option Cand := ((s.candidates c).find? s.actionable).filter fun x => !s.savedFirst c x

/-- Address of a kernel's first instruction. -/
def State.entryPc (s : State) (l : Nat) (k : Kernel) : VAddr := BitVec.ofNat 56 ((s.imageOf l).base + k.entry)

/-- When a group that a launcher formed at cc `since` issues its first instruction: 90 ns after its formation, and 150 ns after the
launch was enqueued (R278). -/
def Launch.firstIssue (x : Launch) (since : Nat) : Nat := max (since + 135) (x.since + 225)

/-- The next group of a flat launch is dispatched; its first instruction issues 150 ns after the enqueue, or at once (R278). -/
def State.startFlat (s : State) (l : Nat) (k : Kernel) (p : Plan) : State :=
  let x := s.launch l
  (s.startGroup l k none x.nextGroup x.roles x.waves [] (s.entryPc l k) (max s.cc (x.since + 225)) p).modLaunch l fun y => { y with nextGroup := y.nextGroup + 1 }

/-- A formed group is dispatched. -/
def State.startFormed (s : State) (l n : Nat) (k : Kernel) (p : Plan) : State :=
  let f := (s.launch l).formed.getD n default
  let s := s.modLaunch l fun y => { y with formed := dropAt y.formed n }
  s.startGroup l k (some f.node) f.grpid (s.pod ((s.launch l).graph.getD 0) f.node).roles f.waves f.pips (s.entryPc l k)
    ((s.launch l).firstIssue f.since) p

/-- A continuation group is formed and dispatched, after an acquire with LINE of each distinct join word's line at device scope
(R287). A code pointer beyond the 56 bits of an address is outside mapped code: the first fetch raises FETCH_FAULT. -/
def State.startCont (s : State) (l g n : Nat) (k : Kernel) (p : Plan) : State :=
  let run := contRun ((s.pod g n).settled s.lc)
  let grpid := (s.launch l).nextGroup % 2 ^ 32
  let s := s.modPod g n fun x => { x with launchable := x.launchable.drop run.length }
  let s := s.modLaunch l fun y => { y with nextGroup := y.nextGroup + 1 }
  let e := p.seats.headD default
  let core := 4 * s.physCluster (s.launch l).ctx e.clid + e.coreid
  let lines := ((run.map Pip.join).filterMap fun va => (s.vaPa (s.launch l).ctx va).map fun pa => 256 * lineOf pa).eraseDups
  let s := lines.foldl (fun s pa => (s.postEdge 256 (s.launch l).ctx (pa / 64) false).acquireLine core .device pa) s
  let code := fieldAt (run.headD default).bytes 0 8
  let k' := s.waves.length
  let s := s.startGroup l k (some n) grpid (s.pod g n).roles 1 run (BitVec.ofNat 56 code) ((s.launch l).firstIssue s.cc) p
  if code < 2 ^ 56 then s
  else s.postTrap k' { cause := 0x16, mask := (s.wave k').exec, addr := BitVec.ofNat 56 code }

/-- GROUP_DISPATCH: the next candidate of the partition, when it is a plain or a formed group (R289, R291). -/
def execGroupDispatch (ctx : Nat) (s : State) : Host.Outcome State Fault Refusal :=
  event <|
    match s.nextCandidate ctx with
    | some c =>
      match c, s.candPlan c with
      | .flat l, some p => s.startFlat l (s.candKernel c) p
      | .formed l n, some p => s.startFormed l n (s.candKernel c) p
      | _, _ => s
    | none => s

/-- CONTINUATION_DISPATCH: the head run of a continuation pod, when it is the next candidate (R287, R291). -/
def execContinuationDispatch (graph node : Nat) (s : State) : Host.Outcome State Fault Refusal :=
  event <|
    match s.nextCandidate (s.graph graph).ctx with
    | some (.cont l g n) =>
      match (if g = graph ∧ n = node then s.candPlan (.cont l g n) else none) with
      | some p => s.startCont l g n (s.candKernel (.cont l g n)) p
      | none => s
    | _ => s

/-- The next value of a gang's LFSR (R290). -/
def lfsrStep (x : BitVec 16) : BitVec 16 :=
  (x <<< 1) ||| ((BitVec.ofBool (x.getLsbD 15 ^^ x.getLsbD 13 ^^ x.getLsbD 12 ^^ x.getLsbD 10)).setWidth 16)

/-- The back-off after a failed attempt, in cc (R290). -/
def Gang.backoff (g : Gang) : Nat := 64 * (1 + g.lfsr.toNat % 2 ^ min g.attempts 6)

/-- The state of a gang's admission replaced. -/
def State.setGang (s : State) (l : Nat) (g : Gang) : State :=
  s.modLaunch l fun x => { x with gangs := g :: x.gangs.filter fun y => y.grpid != g.grpid }

/-- A gang commits: its token and its reservations end, and its waves dispatch (R290). -/
def State.commitGang (s : State) (l grpid : Nat) (k : Kernel) (p : Plan) : State :=
  let s := { s with cores := s.cores.map fun (c : Core) => if c.reserved = some (l, grpid) then { c with reserved := none } else c }
  let s := s.modCtx (s.launch l).ctx fun c => { c with tokens := c.tokens.filter fun e => e.1 != (l, grpid) }
  (s.modLaunch l fun x => { x with gangs := x.gangs.filter fun y => y.grpid != grpid }).startFlat l k p

/-- A refused attempt: the LFSR steps and the gang backs off; after the 16th it asks for the admission token (R290). -/
def State.refuseGang (s : State) (l : Nat) (g : Gang) : State :=
  let g := { g with attempts := g.attempts + 1, lfsr := lfsrStep g.lfsr, backingOff := true }
  let g := { g with wait := g.backoff }
  let s := s.setGang l g
  if 16 ≤ g.attempts then
    { s.modCtx (s.launch l).ctx fun c =>
      { c with tokens := if c.tokens.any (fun e => e.1 == (l, g.grpid)) then c.tokens else c.tokens ++ [((l, g.grpid), s.order)] }
      with order := s.order + 1 }
  else s

/-- GANG_RESERVE: the launch's next group asks for its core set and commits, or is refused and backs off; with the admission
token it holds the set (R290). -/
def execGangReserve (l grpid : Nat) (s : State) : Host.Outcome State Fault Refusal :=
  event <|
    if s.nextCandidate (s.launch l).ctx ≠ some (.gang l) || (s.launch l).nextGroup ≠ grpid then s
    else
      let k := s.candKernel (.gang l)
      let g := s.gangOf l grpid
      let set := s.gangSet l grpid
      match set.bind (s.planGang l grpid k (s.launch l).waves) with
      | some p => s.commitGang l grpid k p
      | none =>
        if s.mayFix l grpid then
          let s := (set.getD []).foldl (fun s e =>
            s.modCore (4 * s.physCluster (s.launch l).ctx e.1 + e.2) fun c => { c with reserved := some (l, grpid) }) s
          s.setGang l { g with token := true }
        else if g.token then s
        else s.refuseGang l g

/-- GANG_BACKOFF_EXPIRY: a gang's back-off has run out (R290). -/
def execGangBackoffExpiry (l grpid : Nat) (s : State) : Host.Outcome State Fault Refusal :=
  event <|
    if (s.gangOf l grpid).backingOff then s.setGang l { s.gangOf l grpid with backingOff := false } else s

/-! ### Drain (R286) and the end of RUNNING (R278) -/

/-- A graph launch is idle (R286): nothing resident, formed, in flight or blocked. -/
def State.graphIdle (s : State) (l g : Nat) : Bool :=
  (s.launchWaves l).isEmpty && (s.launch l).formed.isEmpty && !(s.emits.any fun r => r.graph == g)
    && !(s.atomics.any fun r => r.join && (s.wave r.wave).launch == l)

/-- Partial groups at drain, from every nonempty ordinary pod in ascending node number (R286). -/
def State.drainGraph (s : State) (l g : Nat) : State :=
  (List.range (s.graph g).pods.length).foldl (fun s n => formDrain l g n (s.pod g n).fifo.length s) s

/-- The drain of an idle graph launch in RUNNING (R286). -/
def State.drainIdle (s : State) (l : Nat) : State :=
  let x := s.launch l
  match x.graph with
  | none => s
  | some g => if x.state == .running && !x.tearing && s.graphIdle l g && !s.frozenCtx x.ctx then s.drainGraph l g else s

/-- The end of an lc (R283-R286): each launcher, by ascending number, serves its pods by ascending pod index, and idle graphs
drain. -/
def State.serveLc (s : State) : State :=
  let pods := (List.range s.graphs.length).flatMap fun g => (List.range (s.graph g).pods.length).map fun n => (g, n)
  let key (e : Nat × Nat) : Nat := (s.pod e.1 e.2).idx % 8 * 4096 + (s.pod e.1 e.2).idx
  let s := (sortBy key pods).foldl (fun s e => s.lcPod e.1 e.2) s
  { (List.range s.launches.length).foldl State.drainIdle s with lcEnd := false }

/-- What a launch in RUNNING does once it can go no further: it goes to FINISHING. A graph does so when it is idle, its ordinary
pods are empty and no launchable pip waits for room (R278, R286). -/
def State.leaveRunning (s : State) (l : Nat) : Option State :=
  let x := s.launch l
  if x.state ≠ .running || x.tearing || s.waves.any (fun w => w.launch == l && !w.effects.isEmpty) then none
  else match x.graph with
    | none => if x.ngroups ≤ x.nextGroup && (s.launchWaves l).isEmpty then some (s.finishLaunch l) else none
    | some g =>
      if s.graphIdle l g && (s.graph g).pods.all (fun p => p.launchable.isEmpty && (p.cont || p.fifo.isEmpty)) then some (s.finishLaunch l)
      else none

/-! ### Dispatch in a deterministic launch (R391) -/

/-- The groups of a deterministic launch that fit at their fixed places, in order (R391). -/
def dispatchDet (l : Nat) : Nat → State → State
  | 0, s => s
  | fuel + 1, s =>
    if !s.dispatches l then s
    else match (s.launch l).graph with
      | none =>
        let k := s.candKernel (.flat l)
        let n := (s.launch l).nextGroup
        if (s.launch l).ngroups ≤ n then s
        else match s.planDet l n k (s.launch l).waves with
          | some p => dispatchDet l fuel (s.startFlat l k p)
          | none => s
      | some _ =>
        match (s.launch l).formed with
        | [] => s
        | f :: _ =>
          let k := s.candKernel (.formed l 0)
          match s.planDet l f.grpid k f.waves with
          | some p => dispatchDet l fuel (s.startFormed l 0 k p)
          | none => s

end Sys2Proof.Machine
end

