-- ==== Sys2Proof/Machine/Sync.lean ====
section
/-! DEFINITION. Groups, barriers and register claims (06 R193-R201). -/

namespace Sys2Proof.Machine

/-! ### Membership (R193, R194) -/

/-- The group that a token names: a live group of the context with that GRPID on that cluster (R193). Where several live groups
share the GRPID there (a detached group keeps it, and so do two launches), it is the one of lowest index (DESIGN CHOICE, log
74). -/
def State.tokenGroup (s : State) (c grpid cluster : Nat) : Option Nat :=
  (List.range s.groups.length).find? fun g =>
    let x := s.group g
    x.live && x.ctx == c && x.grpid.toNat == grpid && x.clusters.contains cluster

/-- The most members a group may have: 64 for a gang spanning two clusters (R193). -/
def Group.capacity (g : Group) : Nat := if g.clusters.length = 2 then 64 else 32

/-- The lowest WAVEID that no member of a group has (R16). -/
def State.freeWaveid (s : State) (g : Nat) : Nat :=
  let used := (s.members g).map fun k => (s.wave k).waveid
  (firstBelow (fun n => !used.contains n) 65).getD 64

/-- A wave counted from the next phase of the group's barriers whose MASK includes a sub-group (R197). A phase that nobody owes an
arrival is complete then, and the next one counts the wave (R196, DEDUCED, log 75). -/
def State.joinBarriers (s : State) (k : Nat) (entries : List Nat) : State :=
  let w := s.wave k
  let s := entries.foldl (fun s e => s.modCtx w.ctx fun c => c.modBarrier e fun b => { b with late := b.late ++ [w.waveid] }) s
  entries.foldl (fun s e => s.completePhase w.ctx e) s

/-- GJOIN to the own group with another sub-group (R193). -/
def State.changeSubgroup (s : State) (k : Nat) (sgid : BitVec 2) : State :=
  let w := s.wave k
  let old := s.barriersOf w w.sgid
  let new := s.barriersOf w sgid
  let s := s.leaveBarriers k (old.filter fun e => !new.contains e) fun s => s.modWave k fun w => { w with sgid := sgid }
  s.joinBarriers k (new.filter fun e => !old.contains e)

/-- GJOIN to another group: it leaves as GLEAVE does and joins, in one step (R193). -/
def State.moveTo (s : State) (k target : Nat) (sgid : BitVec 2) : State :=
  let w := s.wave k
  let id := s.freeWaveid target
  let s := s.leaveBarriers k (s.barriersOf w w.sgid) fun s =>
    (s.modWave k fun w => { w with group := target, waveid := id, sgid := sgid }).dissolve w.group
  s.joinBarriers k (s.barriersOf (s.wave k) sgid)

/-- GJOIN (R193, R204). In a deterministic launch a token with nonzero bits [63:38] raises ILLEGAL_OPERAND before DET_ORDER; the
spec gives no order of the two (DESIGN CHOICE, log 74). -/
def execGjoin (q : Bool) (a : BitVec 8) (sgid : BitVec 2) (s : State) : Host.Outcome State Fault Refusal :=
  issue (.gjoin q a sgid) s fun k s =>
    let w := s.wave k
    let token := (w.readS a.toNat).toNat
    if token >>> 38 ≠ 0 then s.trapExec k 0x04
    else if s.detOf w then s.trapExec k 0x60
    else
      match s.tokenGroup w.ctx (bits token 31 0) (bits token 37 32) with
      | none => s.trapExec k 0x33
      | some g =>
        if g = w.group then
          (if sgid = w.sgid then s else s.changeSubgroup k sgid).done k (.gjoin q a sgid)
        else
          let x := s.group g
          if !x.clusters.contains w.clid || x.capacity ≤ (s.members g).length || x.ilevel ≠ s.ilevelOf w then s.trapExec k 0x33
          else (s.moveTo k g sgid).done k (.gjoin q a sgid)

/-- GLEAVE: the wave becomes the only member of a detached group on its own cluster, no gang (R16, R194). -/
def State.detach (s : State) (k : Nat) : State :=
  let w := s.wave k
  let old := s.group w.group
  let new : Group := { old with
    detached := true, clusters := [w.clid], gang := 0, twins := [], poolBytes := 0, flat := true, openBatch := 0, batches := [], nextBatch := 1 }
  s.leaveBarriers k (s.barriersOf w w.sgid) fun s =>
    let n := s.groups.length
    (({ s with groups := s.groups ++ [new] }).modWave k fun w => { w with group := n }).dissolve w.group

/-- GLEAVE (R194, R204). -/
def execGleave (q : Bool) (s : State) : Host.Outcome State Fault Refusal :=
  issue (.gleave q) s fun k s =>
    if s.detOf (s.wave k) then s.trapExec k 0x60 else (s.detach k).done k (.gleave q)

/-! ### Barriers (R195-R198) -/

/-- A barrier handle (R195). -/
def handleOf (entry gen : Nat) : Word := BitVec.ofNat 64 (entry + 4096 * gen)

/-- The next generation of an entry, 1 to 65,535 (R195). -/
def nextGen (last : Nat) : Nat := if 65535 ≤ last then 1 else last + 1

/-- BOPEN: a handle in Sd, or 0 when the group holds 16 or the table is full (R195). It takes the lowest free entry of the table;
the spec does not say which (DESIGN CHOICE, log 74). -/
def execBopen (q : Bool) (d a : BitVec 8) (mask : BitVec 4) (s : State) : Host.Outcome State Fault Refusal :=
  issue (.bopen q d a mask) s fun k s =>
    let w := s.wave k
    let per := (w.readS a.toNat).toNat
    if per = 0 ∨ 255 < per then s.trapExec k 0x04
    else
      let c := s.ctx w.ctx
      let free := firstBelow (fun e => (c.barrier e).isNone) 4096
      let full := 16 ≤ (c.barriers.countP fun b => b.group == w.group)
      match (if full then none else free) with
      | none => s.doneWith k (.bopen q d a mask) fun w => w.writeS d.toNat 0
      | some e =>
        let gen := nextGen (lookupD 0 c.barrierGens e)
        let m : BitVec 4 := if mask = 0 then 15 else mask
        let b : Barrier := { entry := e, gen := gen, group := w.group, per := per, mask := m }
        let b := { b with expected := per * (s.barrierMembers b).length }
        let s := s.modCtx w.ctx fun c => { c with barriers := c.barriers ++ [b], barrierGens := assign c.barrierGens e gen }
        s.doneWith k (.bopen q d a mask) fun w => w.writeS d.toNat (handleOf e gen)

/-- The barrier that a handle names for a wave, or the cause of R198. -/
def State.openBarrier (s : State) (w : Wave) (h : Word) : Except (BitVec 7) Barrier :=
  match (s.ctx w.ctx).barrier (h.toNat % 4096) with
  | none => .error 0x30
  | some b =>
    if h.toNat >>> 28 ≠ 0 ∨ b.gen ≠ bits h.toNat 27 12 ∨ b.group ≠ w.group then .error 0x30
    else if b.broken then .error 0x31
    else if !b.mask.getLsbD w.sgid.toNat then .error 0x30
    else .ok b

/-- A wave blocks on the current phase of a barrier; in a deterministic launch its quantum ends there (R198, R388). -/
def State.waitPhase (s : State) (k : Nat) (b : Barrier) (i : Option Instr) : State :=
  let s := s.block k (.barrier b.entry b.phase) i
  if s.holdsOf (s.wave k) then s.modWave k fun w => { w with quantumEnded := true } else s

/-- `n` arrivals of a wave at a barrier: held in a deterministic launch (R389), otherwise at once. -/
def State.arriveAt (s : State) (k : Nat) (b : Barrier) (n : Nat) : State :=
  let w := s.wave k
  if s.holdsOf w then s.modWave k fun w => { w with effects := w.effects ++ [.arrive b.entry n] }
  else (s.modCtx w.ctx fun c => c.modBarrier b.entry fun b => b.arrive w.waveid n)

/-- BARA (R198). -/
def execBara (q : Bool) (a : BitVec 8) (s : State) : Host.Outcome State Fault Refusal :=
  issue (.bara q a) s fun k s =>
    let w := s.wave k
    match s.openBarrier w (w.readS a.toNat) with
    | .error c => s.trapExec k c
    | .ok b =>
      if b.late.contains w.waveid || b.per ≤ lookupD 0 b.counts w.waveid then s.waitPhase k b none
      else
        let s := (s.arriveAt k b 1).done k (.bara q a)
        if s.holdsOf w then s else s.completePhase w.ctx b.entry

/-- BARW (R198). -/
def execBarw (q : Bool) (a : BitVec 8) (s : State) : Host.Outcome State Fault Refusal :=
  issue (.barw q a) s fun k s =>
    let w := s.wave k
    match s.openBarrier w (w.readS a.toNat) with
    | .error c => s.trapExec k c
    | .ok b =>
      if b.late.contains w.waveid then s.waitPhase k b none
      else
        let s := (s.arriveAt k b (b.per - lookupD 0 b.counts w.waveid)).waitPhase k b (some (.barw q a))
        if s.holdsOf w then s else s.completePhase w.ctx b.entry

/-! ### Register claims (R199-R201) -/

/-- VCLAIM: ILLEGAL_OPERAND beyond 256 registers; otherwise the wave blocks in the core's claim queue (R199, R200). -/
def execVclaim (q : Bool) (n : BitVec 6) (s : State) : Host.Outcome State Fault Refusal :=
  issue (.vclaim q n) s fun k s =>
    let w := s.wave k
    if 256 < w.valloc + 8 * n.toNat then s.trapExec k 0x04
    else
      let s := s.block k (.claim n.toNat) (some (.vclaim q n))
      let s := if s.holdsOf w then s.modWave k fun w => { w with quantumEnded := true } else s
      s.modCore (s.coreOf w) fun c => { c with claims := c.claims ++ [(k, n.toNat)] }

/-- VRELS: the top 8n registers go back to the pool (R199). -/
def execVrels (q : Bool) (n : BitVec 6) (s : State) : Host.Outcome State Fault Refusal :=
  issue (.vrels q n) s fun k s =>
    let w := s.wave k
    if w.valloc < 8 * n.toNat + 8 then s.trapExec k 0x04
    else
      let low := w.valloc - 8 * n.toNat
      match w.checkRegs ((List.range (8 * n.toNat)).map fun j => .v (low + j)) with
      | some c => s.trapExec k c
      | none => s.doneWith k (.vrels q n) fun w => { w with valloc := low, v := w.v.take low }

end Sys2Proof.Machine
end

