-- ==== Sys2Proof/Machine/Control.lean ====
section
/-! DEFINITION. Branches, execution masks, block signatures, acorns, traps on purpose, wave exit and instruction-cache
invalidation (04 R120-R130, R135-R138). -/

namespace Sys2Proof.Machine

/-- The target of a format-B instruction (R49). -/
def branchTarget (pc : VAddr) (off : BitVec 32) : VAddr := pc + (off.signExtend 56 <<< 3)

/-- A branch retires with its target fixed (R122). -/
def State.branch (s : State) (k : Nat) (i : Instr) (off : BitVec 32) (taken : Bool) : State :=
  let w := s.wave k
  s.retireAt k i w.priv (if taken then branchTarget w.pc off else w.pc + 8)

/-- BRA (R120). -/
def execBra (q : Bool) (off : BitVec 32) (s : State) : Host.Outcome State Fault Refusal :=
  issue (.bra q off) s fun k s => s.branch k (.bra q off) off true

/-- BRC: on the signed value of Sa (R120). -/
def execBrc (q : Bool) (cond : SCond) (a : BitVec 8) (off : BitVec 32) (s : State) : Host.Outcome State Fault Refusal :=
  issue (.brc q cond a off) s fun k s => s.branch k (.brc q cond a off) off (cond.holds ((s.wave k).readS a.toNat))

/-- BRV: on Pa under EXEC (R120). -/
def execBrv (q : Bool) (cond : PCond) (a : BitVec 8) (off : BitVec 32) (s : State) : Host.Outcome State Fault Refusal :=
  issue (.brv q cond a off) s fun k s =>
    s.branch k (.brv q cond a off) off (cond.holds ((s.wave k).readP a.toNat) (s.wave k).exec)

/-- CALL: S62 := PC + 8, then the target; the return address enters the return stack of 8 entries (R120, R121). -/
def execCall (q : Bool) (off : BitVec 32) (s : State) : Host.Outcome State Fault Refusal :=
  issue (.call q off) s fun k s =>
    let back := (s.wave k).pc + 8
    (s.modWave k fun w => { w.writeS 62 (back.setWidth 64) with retStack := (back :: w.retStack).take 8 }).branch k
      (.call q off) off true

/-- RET and JMPI: PC := Sa[55:0], or PC_ALIGN with that address (R121). -/
def State.jumpTo (s : State) (k : Nat) (i : Instr) (a : BitVec 8) (change : Wave → Wave) : State :=
  let target : VAddr := ((s.wave k).readS a.toNat).setWidth 56
  if target.toNat % 8 ≠ 0 then s.trapExec k 0x07 target
  else (s.modWave k change).retireAt k i (s.wave k).priv target

/-- RET: it also pops the return stack (R121). -/
def execRet (q : Bool) (a : BitVec 8) (s : State) : Host.Outcome State Fault Refusal :=
  issue (.ret q a) s fun k s => s.jumpTo k (.ret q a) a fun w => { w with retStack := w.retStack.drop 1 }

/-- JMPI (R121). -/
def execJmpi (q : Bool) (a : BitVec 8) (s : State) : Host.Outcome State Fault Refusal :=
  issue (.jmpi q a) s fun k s => s.jumpTo k (.jmpi q a) a id

/-! ### Execution masks (R123) -/

/-- XMOV EXEC, Pa (R123). -/
def execXmovExecP (q : Bool) (a : BitVec 8) (s : State) : Host.Outcome State Fault Refusal :=
  regOp (.xmovExecP q a) s fun w => { w with exec := w.readP a.toNat }

/-- XAND: Pd := EXEC, and EXEC := EXEC AND Pa, or AND NOT Pa (R123). -/
def execXand (q : Bool) (d a : BitVec 8) (inv : Bool) (s : State) : Host.Outcome State Fault Refusal :=
  regOp (.xand q d a inv) s fun w =>
    let p := w.readP a.toNat
    { w.writeP d.toNat w.exec with exec := w.exec &&& (if inv then ~~~p else p) }

/-- XJOIN: EXEC := Pa; the difference EXEC AND NOT Pa enters the block signature (R123, R124). -/
def execXjoin (q : Bool) (a : BitVec 8) (s : State) : Host.Outcome State Fault Refusal :=
  issue (.xjoin q a) s fun k s =>
    let w := s.wave k
    let p := w.readP a.toNat
    (s.modWave k fun w => { w with exec := p }).retireAt k (.xjoin q a) w.priv (w.pc + 8) (bytesOf 4 (w.exec &&& ~~~p).toNat)

/-- XMOV Pd, EXEC (R123). -/
def execXmovPExec (q : Bool) (d : BitVec 8) (s : State) : Host.Outcome State Fault Refusal :=
  regOp (.xmovPExec q d) s fun w => w.writeP d.toNat w.exec

/-! ### Signatures and acorns (R126, R127) -/

/-- SIGCHK: nothing at IL0; a match clears SIGREG; a mismatch traps with a SIG_FAIL record, or starts the mismatch sequence
at IL3 (R126, R334, R344). -/
def execSigchk (q : Bool) (imm : BitVec 32) (s : State) : Host.Outcome State Fault Refusal :=
  issue (.sigchk q imm) s fun k s =>
    let w := s.wave k
    let level := s.ilevelOf w
    if level = 0 then s.done k (.sigchk q imm)
    else if w.sigreg = imm then s.doneWith k (.sigchk q imm) fun w => { w with sigreg := 0 }
    else if level = 3 then
      s.mismatch (s.pairOf w) k { kind := 0, sev := 0, source := 13, cause := 0x40, synd := w.sigreg.toNat, pc := w.pc.toNat }
    else
      let s := if w.txn.isSome then s else s.record { s.waveRec k 0x08 2 13 with cause := 0x40 }
      s.trapExec k 0x40 (w.sigreg.setWidth 56)

/-- ACORN: a NOP at IL0-IL2; at IL3 the wave waits for the acorn, which retires it (R127). -/
def execAcorn (q : Bool) (id : BitVec 16) (s : State) : Host.Outcome State Fault Refusal :=
  issue (.acorn q id) s fun k s =>
    let w := s.wave k
    if s.checked w then
      let s := s.modWave k fun w => { w with hold := .acorn id.toNat, stalled := some (.acorn q id) }
      s.modPair (s.pairOf w) fun p => { p with wanted := some 0 }
    else s.done k (.acorn q id)

/-! ### Traps on purpose (R128-R130, R302) -/

/-- TRAP: SERVICE with its number at U; in S-mode a call to the command processor, on which the wave blocks (R128, R302). -/
def execTrap (q : Bool) (n : BitVec 16) (s : State) : Host.Outcome State Fault Refusal :=
  issue (.trap q n) s fun k s =>
    match (s.wave k).priv with
    | .u => s.trapExec k 0x08 (n.setWidth 56)
    | .s => s.block k (.service n.toNat) (some (.trap q n))

/-- BKPT: BREAKPOINT with its tag (R129). -/
def execBkpt (q : Bool) (tag : BitVec 8) (s : State) : Host.Outcome State Fault Refusal :=
  issue (.bkpt q tag) s fun k s => s.trapExec k 0x09 (tag.setWidth 56)

/-- TRET: after the returns of R58, back to TPC with the entry mask, the U bank and level U (R130); a misaligned TPC is a
PC_ALIGN raised in S-mode. -/
def execTret (q : Bool) (s : State) : Host.Outcome State Fault Refusal :=
  issue (.tret q) s fun k s =>
    let w := s.wave k
    if !w.pending.isEmpty then s.parkAgain k
    else if w.tpc.toNat % 8 ≠ 0 then s.trapExec k 0x07 w.tpc
    else (s.retireAt k (.tret q) w.priv w.tpc).modWave k fun w => { w.returned with unmarked := [] }

/-! ### Exit, NOP and ICINV (R135-R138) -/

/-- NOP (R135). -/
def execNop (q : Bool) (s : State) : Host.Outcome State Fault Refusal := issue (.nop q) s fun k s => s.done k (.nop q)

/-- EXITW: after the returns of R58 it retires and leaves its group, its registers go back, and the wave is EXITED (R136). -/
def execExitw (q : Bool) (s : State) : Host.Outcome State Fault Refusal :=
  issue (.exitw q) s fun k s =>
    let w := s.wave k
    if !w.pending.isEmpty then s.parkAgain k
    else (s.done k (.exitw q)).leaveBarriers k (s.barriersOf w w.sgid) fun s => s.exited k

/-- ICINV: the wave issues nothing further until the covered cores have acknowledged (R137). -/
def execIcinv (q : Bool) (scope : Scope) (s : State) : Host.Outcome State Fault Refusal :=
  issue (.icinv q scope) s fun k s => (s.done k (.icinv q scope)).modWave k fun w => { w with hold := .icinv scope }

end Sys2Proof.Machine
end

