-- ==== Sys2Proof/Machine/Txn.lean ====
section
/-! DEFINITION. Transactions: begin, commit and abort (06 R188-R192, 08 R264). -/

namespace Sys2Proof.Machine

/-- Whether a wave has stores in its pair's check buffer. -/
def State.hasBuffered (s : State) (k : Nat) : Bool :=
  s.checked (s.wave k) && (s.pair (s.pairOf (s.wave k))).buffer.any fun e => e.wave == k

/-- TXBEGIN: the wave's earlier stores and atomics are performed at their homes first; stores in a check buffer wait for the
acorn that releases them; nested it aborts, and a deterministic launch refuses it (R188, R189, R204). -/
def execTxbegin (q : Bool) (off : BitVec 32) (s : State) : Host.Outcome State Fault Refusal :=
  issue (.txbegin q off) s fun k s =>
    let w := s.wave k
    if w.txn.isSome then s.abortTxn k 8 0
    else if s.detOf w then s.trapExec k 0x63
    else if s.hasBuffered k then
      (s.modWave k fun w => { w with hold := .commit }).modPair (s.pairOf w) fun p => { p with wanted := some 4 }
    else
      let s := s.modWave k fun w => { w with hold := .none }
      let a : Asker := { core := s.coreOf w, ctx := w.ctx, umode := w.priv == .u, cls := 0 }
      let s := ((s.drainAtomics k).releaseCore a .device).2
      let t : Txn := { target := branchTarget w.pc off, exec := w.exec, reads := [], seen := [], lines := [], writes := [] }
      s.doneWith k (.txbegin q off) fun w => { w with txn := some t }

/-- The lines of two transactions conflict: one's write set meets the other's read or write set (R192). -/
def Txn.conflicts (t u : Txn) : List Nat :=
  (t.lines.filter fun l => u.reads.contains l || u.lines.contains l) ++ (t.reads.filter fun l => u.lines.contains l)

/-- A commit that meets the open transaction of a wave which holds the token of a slice both use (R192). -/
def State.tokenConflict (s : State) (k : Nat) (t : Txn) : Bool :=
  (List.range s.waves.length).any fun j =>
    j != k && match (s.wave j).txn with
      | some u =>
        let held := s.tokensOf j
        (t.conflicts u).any fun l => held.contains (s.slice (256 * l))
      | none => false

/-- Validation: every byte read still has its home value (R190). -/
def State.validates (s : State) (t : Txn) : Bool := t.seen.all fun e => Memory.read s.mem.home e.1 == e.2

/-- The commit as one event (R190, R264): the bytes at their homes, a deposit at each line of the write set, and the core's
clean copies of both sets invalidated. -/
def State.commit (s : State) (k : Nat) (t : Txn) : State :=
  let w := s.wave k
  let a : Asker := { core := s.coreOf w, ctx := w.ctx, umode := w.priv == .u, cls := 0 }
  let secs := (t.writes.map fun e => sectorOf e.1).eraseDups
  let s := s.storeAtHome a t.writes
  let s := t.lines.foldl (fun s l => s.depositAt (s.slice (256 * l)) l (sigOf secs)) s
  s.modCore a.core fun c => c.dropClean fun x => t.reads.contains (x.sec / 4) || t.lines.contains (x.sec / 4)

/-- TXEND: 0 outside a transaction; otherwise it waits as R58 does, validates, commits, and returns the attempts with the
token bit in a long write (R188, R190, R192). The bit says that the wave held the token of every home slice of its sets: whether
one slice's token is enough is the model's choice (DESIGN CHOICE, log 85). -/
def execTxend (q : Bool) (d : BitVec 8) (s : State) : Host.Outcome State Fault Refusal :=
  issue (.txend q d) s fun k s =>
    let w := s.wave k
    match w.txn with
    | none => s.doneWith k (.txend q d) fun w => w.long (w.sReg d.toNat) (.s 0)
    | some t =>
      if !w.pending.isEmpty then s.parkAgain k
      else if !s.validates t || s.tokenConflict k t then s.abortTxn k 1 0
      else
        let held := s.tokensOf k
        let slices := s.txnSlices t
        let token := !slices.isEmpty && slices.all held.contains
        let x : Word := BitVec.ofNat 64 (min (w.aborts + 1) 255 + 256 * token.toNat)
        let s := (s.commit k t).releaseTokens k
        s.doneWith k (.txend q d) fun w =>
          { w.long (w.sReg d.toNat) (.s x) with txn := none, aborts := 0, tokenWanted := false }

/-- TXABORT: reason EXPLICIT with code Sa[15:0]; no effect outside a transaction (R188). -/
def execTxabort (q : Bool) (a : BitVec 8) (s : State) : Host.Outcome State Fault Refusal :=
  issue (.txabort q a) s fun k s =>
    if (s.wave k).txn.isSome then s.abortTxn k 4 (((s.wave k).readS a.toNat).setWidth 16) else s.done k (.txabort q a)

end Sys2Proof.Machine
end

