-- ==== Sys2Proof/Machine/Steps.lean ====
section
/-! DEFINITION. Steps of the memory system, of traps and claims, of pods in deadlock and of checked pairs
(02 R57, R58, 04 R137, 06 R180-R182, R191, R200, R201, 07 R239, 08 R250, R257, 10 R299, 11 R340-R345). -/

namespace Sys2Proof.Machine

/-! ### Memory system -/

/-- A PARKED wave whose last return has come goes on, unless a trap or an abort is waiting (R58). -/
def Wave.unpark (w : Wave) (cc : Nat) : Wave :=
  if w.state = .parked && w.pending.isEmpty && w.trap.isNone && w.abort.isNone then
    { w with state := w.home, unmarked := [], eligibleSince := cc }
  else w

/-- LOAD_RETURN: the oldest long write whose data is complete reaches its register (R57, R58). -/
def execLoadReturn (w : Nat) (s : State) : Host.Outcome State Fault Refusal :=
  event <|
    let x := s.wave w
    match indexWhere (fun (l : LongWrite) => l.need == 0) x.pending with
    | none => if x.pending.isEmpty then s.setWave w (x.unpark s.cc) else s
    | some n =>
      s.setWave w (({ x with pending := dropAt x.pending n }.deliver (x.pending.getD n default)).unpark s.cc)

/-- STORE_PERFORMED: an L1 writes a dirty sector back, and its bytes are merged at the home (R249, R250). -/
def execStorePerformed (core sector : Nat) (s : State) : Host.Outcome State Fault Refusal :=
  event <|
    match (s.core core).sector sector with
    | some x => s.cleanSector (idleAsker core x.owner) sector
    | none => s

/-- A request may be performed: none of its wave's earlier requests is for the same sector (R252), and for a JOINDEC none but its
own is earlier at all (R182, R255). -/
def State.atomicReady (s : State) (n : Nat) : Bool :=
  match s.atomics[n]? with
  | none => false
  | some r => !((s.atomics.take n).any fun x =>
    x.wave == r.wave && (sectorOf x.pa == sectorOf r.pa || (r.join && x.tag != r.tag)))

/-- ATOMIC_PERFORMED (R186, R187, R255). -/
def execAtomicPerformed (n : Nat) (s : State) : Host.Outcome State Fault Refusal :=
  event (if s.atomicReady n then s.performNth n else s)

/-- The parts of a fence (R182): release, then acquire. -/
def State.performFence (s : State) (k : Nat) (o : FenceF) (line : Option Nat) : State :=
  let w := s.wave k
  let a : Asker := { core := s.coreOf w, ctx := w.ctx, umode := w.priv == .u, cls := o.slack.toNat }
  let s :=
    if o.kind = .acq then s
    else match line with
      | some pa => s.releaseLine k a o.scope pa
      | none => (s.releaseCore a o.scope).2
  if o.kind = .rel then s
  else match line with
    | some pa => s.acquireLine a.core o.scope pa
    | none => s.acquireAll a.core o.scope

/-- FENCE_COMPLETE: once the wave's atomics are performed (R182). -/
def execFenceComplete (w : Nat) (s : State) : Host.Outcome State Fault Refusal :=
  event <|
    match (s.wave w).hold with
    | .fence o line =>
      if !(s.atomicsOf w).isEmpty then s
      else (s.performFence w o line).modWave w fun x => { x with hold := .none, fencedAt := s.cc }
    | _ => s

/-- WRITEBACK_ACK (R180). -/
def execWritebackAck (w : Nat) (s : State) : Host.Outcome State Fault Refusal :=
  event <|
    if (s.wave w).hold = .writeback then s.modWave w fun x => { x with hold := .none, eligibleSince := s.cc } else s

/-- The physical cores that an ICINV covers (R137); at IL3 the shadow cluster performs scopes 0 to 2 for itself (R140). -/
def State.icinvCores (s : State) (w : Wave) (scope : Scope) : List Nat :=
  match scope with
  | .wave | .group => s.coreOf w :: (if s.checked w then [s.coreOf w + 4] else [])
  | .cluster => (List.range (if s.checked w then 8 else 4)).map fun i => 4 * s.physCluster w.ctx w.clid + i
  | .device | .system => s.partitionCores w.ctx

/-- ICINV_ACK: the covered instruction caches are invalid (R137, R138). -/
def execIcinvAck (w : Nat) (s : State) : Host.Outcome State Fault Refusal :=
  event <|
    match (s.wave w).hold with
    | .icinv scope =>
      let s := (s.icinvCores (s.wave w) scope).foldl (fun s c => s.modCore c fun x => { x with icache := [] }) s
      s.modWave w fun x => { x with hold := .none, eligibleSince := s.cc }
    | _ => s

/-- A signature half of an epoch is cleared (R257). -/
def SigBank.clearHalf (b : SigBank) (epoch : Nat) : SigBank :=
  if epoch % 2 = 0 then { b with entries := b.entries.map fun (e : SigEntry) => { e with even := 0 }, ovEven := 0 }
  else { b with entries := b.entries.map fun (e : SigEntry) => { e with odd := 0 }, ovOdd := 0 }

/-- SIGNATURE_EPOCH_ADVANCE: at every home and L1 together, and in the remote data cache, every 524,288 lc (R257, R371). -/
def execSignatureEpochAdvance (s : State) : Host.Outcome State Fault Refusal :=
  event <|
    let e := s.mem.epoch + 1
    let old (x : L1Sector) : Bool := x.epoch + (if s.isPeer (64 * x.sec) then 3 else 2) ≤ e
    { s with
      epochAt := s.lc + 524288
      mem := { s.mem with epoch := e, sigs := s.mem.sigs.map fun b => b.clearHalf e
                          rdc := dropRdc (fun r => r.epoch + 3 ≤ e) s.mem.rdc }
      cores := s.cores.map fun c => c.dropClean old }

/-! ### Traps and aborts -/

/-- TRAP_ENTRY: the trap that a wave has met is entered once its returns have come (R299, R301). -/
def execTrapEntry (w : Nat) (cause : BitVec 7) (mask : BitVec 32) (addr : BitVec 56) (s : State) :
    Host.Outcome State Fault Refusal :=
  event <|
    match (s.wave w).trap with
    | some t => if t.cause = cause && t.mask == mask && t.addr == addr && (s.wave w).pending.isEmpty then s.enterTrap w t else s
    | none => s

/-- TRANSACTION_ABORT: the abort that a transaction has met, once its wave's returns have come (R191). -/
def execTransactionAbort (w : Nat) (reason : BitVec 4) (code : BitVec 16) (s : State) : Host.Outcome State Fault Refusal :=
  event <|
    if (s.wave w).abort = some (reason, code) && (s.wave w).pending.isEmpty then s.performAbort w reason code else s

/-! ### Claims (R200, R201) -/

/-- The registers that a grant adds: zero at IL3 and in a deterministic launch, otherwise free values (R35, R200, log 1). -/
def State.claimed (s : State) (k n : Nat) : List VReg :=
  let zero := s.checked (s.wave k) || s.detOf (s.wave k)
  (List.range (8 * n)).map fun r => if zero then zeroVReg else vregOf fun l => Config.freeValue (s.free + 32 * r + l)

/-- A claim of n granules is granted, and its VCLAIM retires (R200). -/
def State.grantClaim (s : State) (k n : Nat) : State :=
  let core := s.coreOf (s.wave k)
  let regs := s.claimed k n
  let s := s.modCore core fun c => { c with claims := c.claims.filter fun e => e.1 != k }
  let s := s.modWave k fun w => { w with v := w.v ++ regs, valloc := w.valloc + 8 * n }
  ({ s with free := s.free + 256 * n }).unblock k

/-- A claim fits the pool of its core within the mirroring limit (R36, R200). -/
def State.claimFits (s : State) (k n : Nat) : Bool :=
  let core := s.coreOf (s.wave k)
  decide (s.poolUsed core + s.setAside core + 8 * n ≤ s.poolLimit core (2 ≤ s.ilevelOf (s.wave k)))

/-- CLAIM_GRANT: the head of a core's claim queue; claims of a deterministic launch wait for the epoch end (R200, R389). -/
def execClaimGrant (core : Nat) (s : State) : Host.Outcome State Fault Refusal :=
  event <|
    match (s.core core).claims.head? with
    | some (k, n) => if !s.holdsOf (s.wave k) && s.claimFits k n then s.grantClaim k n else s
    | none => s

/-- A member waits in VCLAIM. -/
def Wave.claiming (w : Wave) : Bool :=
  w.state == .blocked && match w.wait with
    | .claim _ => true
    | _ => false

/-- A member waits at a barrier, in BARA or BARW. -/
def Wave.atBarrier (w : Wave) : Bool :=
  w.state == .blocked && match w.wait with
    | .barrier _ _ => true
    | _ => false

/-- A member waits in BARW. -/
def Wave.inBarw (w : Wave) : Bool :=
  w.atBarrier && w.stalled.any fun i => match i with
    | .barw _ _ => true
    | _ => false

/-- A group is in claim deadlock (R201), while no mismatch sequence of its pair is running (R348). -/
def State.claimDeadlocked (s : State) (g : Nat) : Bool :=
  let ms := s.members g
  (s.group g).live && (ms.any fun k => (s.wave k).claiming) && (ms.all fun k => (s.wave k).claiming || (s.wave k).inBarw)
    && ms.all fun k => !(s.checked (s.wave k) && (s.pair (s.pairOf (s.wave k))).frozen) && !(s.ctx (s.wave k).ctx).preempting

/-- CLAIM_DEADLOCK: every member that waits in VCLAIM traps, and its place in the queue is removed (R201). -/
def execClaimDeadlock (g : Nat) (s : State) : Host.Outcome State Fault Refusal :=
  event <|
    if !s.claimDeadlocked g then s
    else ((s.members g).filter fun k => (s.wave k).claiming).foldl (fun s k =>
      let s := s.modCore (s.coreOf (s.wave k)) fun c => { c with claims := c.claims.filter fun e => e.1 != k }
      s.postTrap k { cause := 0x32, mask := (s.wave k).exec, addr := 0 }) s

/-! ### Pods in deadlock (R239) -/

/-- A wave waits in EMIT or EMITC. -/
def Wave.emitting (w : Wave) : Bool :=
  w.state == .blocked && match w.wait with
    | .emit _ => true
    | _ => false

/-- The members that a barrier's phase still waits for are themselves waiting in EMIT or at a barrier (R239). -/
def State.podDeadlocked (s : State) (l : Nat) : Bool :=
  let x := s.launch l
  let ws := s.wavesWith fun w => w.launch == l && w.resident
  let stuck (k : Nat) : Bool := (s.wave k).emitting || (s.wave k).atBarrier
  x.graph.isSome && x.state == .running && !(s.ctx x.ctx).preempting && s.cp.switching.isNone
    && (ws.any fun k => (s.wave k).emitting) && ws.all stuck && (s.launchWaves l).length == ws.length
    && if x.det then
        match x.formed with
        | [] => true
        | f :: _ => (s.planDet l f.grpid (s.candKernel (.formed l 0)) f.waves).isNone
      else (List.range x.formed.length).all fun n => (s.candPlan (.formed l n)).isNone

/-- Every wave that waits in EMIT or EMITC traps with POD_FULL, with nothing appended (R239). -/
def State.declarePodDeadlock (s : State) (l : Nat) : State :=
  (s.wavesWith fun w => w.launch == l && w.emitting).foldl (fun s k =>
    let tag := match (s.wave k).wait with
      | .emit t => t
      | _ => 0
    let mask := ((s.emits.find? fun r => r.wave == k && r.tag == tag).map EmitReq.mask).getD (s.wave k).exec
    ({ s with emits := s.emits.filter fun r => !(r.wave == k && r.tag == tag && !r.seed) }).postTrap k
      { cause := 0x56, mask := mask, addr := 0 }) s

/-- POD_DEADLOCK (R239); a deterministic launch evaluates the condition at its epoch ends. -/
def execPodDeadlock (l : Nat) (s : State) : Host.Outcome State Fault Refusal :=
  event (if s.podDeadlocked l && !(s.launch l).det then s.declarePodDeadlock l else s)

/-! ### Checked pairs (R340-R345) -/

/-- The check buffer is read for a comparison: what its code cannot correct is a mismatch (R332, R347). -/
def State.readBuffer (s : State) (p : Nat) (go : State → State) : State :=
  let q := s.pair p
  match q.buffer.head? with
  | none => go s
  | some e =>
    if q.bufferErrs.isEmpty then go s
    else if unreadable q.bufferErrs then
      s.mismatch p e.wave { kind := 0, sev := 0, source := 6, synd := ((q.bufferErrs.find? fun e => 2 ≤ e.length).getD []).headD 0 }
    else go ((s.pairCorrected p e.ctx q.bufferErrs).modPair p fun q => { q with bufferErrs := [] })

/-- CHECK_COMPARE: the next store entry of a pair compares (R340, R357). -/
def execCheckCompare (pair : Nat) (s : State) : Host.Outcome State Fault Refusal :=
  event (if (s.pair pair).mode = .checked && !(s.pair pair).frozen then s.readBuffer pair fun s => s.compareNext pair else s)

/-- ACORN_TAKE: the acorn that a pair wants, once its waves have stopped and its queues have drained (R342, R343). -/
def execAcornTake (pair reason : Nat) (s : State) : Host.Outcome State Fault Refusal :=
  event <|
    if s.acornWanted pair = some reason && !(s.pair pair).frozen && s.pairQuiet pair then s.takeAcorn pair reason else s

/-- REEXECUTE: Jalti releases a frozen pair, which resumes at its acorn (R345 step 5). -/
def execReexecute (pair : Nat) (s : State) : Host.Outcome State Fault Refusal :=
  event <|
    if (s.pair pair).mode = .checked && (s.pair pair).frozen then s.modPair pair fun q => { q with frozen := false } else s

end Sys2Proof.Machine
end

