-- ==== Sys2Proof/Machine/Epoch.lean ====
section
/-! DEFINITION. Quantum ends and epoch ends of deterministic launches (13 R388-R395, 01 R44, 07 R238, R239, 11 R348). -/

namespace Sys2Proof.Machine

/-- QUANTUM_END: a wave whose quantum is to end has ended it, and waits for the epoch end (R388). -/
def execQuantumEnd (w : Nat) (s : State) : Host.Outcome State Fault Refusal :=
  event <|
    if (s.wave w).quantumDue then s.modWave w fun x => { x with quantumDue := false, quantumEnded := true } else s

/-! ### Steps 1 and 2: commits and results -/

/-- The waves of a launch in ascending (GRPID, WAVEID), the exited ones too. -/
def State.commitOrder (s : State) (l : Nat) : List Nat :=
  sortBy (fun k => (s.group (s.wave k).group).grpid.toNat * 64 + (s.wave k).waveid) (s.wavesWith fun w => w.launch == l)

/-- The bytes that a store or SPST of the epoch commits replace what a veil kept of them (R390, R393). -/
def Launch.unveil (x : Launch) (pas : List Nat) : Launch :=
  { x with veils := x.veils.map fun (v : Veil) => { v with old := v.old.filter fun e => !pas.contains e.1 } }

/-- The same for scratchpad bytes. -/
def Launch.unveilSp (x : Launch) (keys : List Nat) : Launch :=
  { x with spVeils := x.spVeils.map fun (v : Veil) => { v with old := v.old.filter fun e => !keys.contains e.1 } }

/-- An append tried at an epoch end, under the pod's overflow policy (R238, R389). -/
def State.commitEmit (s : State) (k : Nat) (r : EmitReq) : State :=
  if s.podRoom r.graph r.node r.pips.length then (((s.takeRoom r).postEmit r).append r).resumeEmit r false
  else match (s.podKernel r.graph r.node).overflow with
    | 0 => { s with emits := s.emits ++ [{ r with blocked := true, held := true }] }
    | 1 => s.resumeEmit r true
    | _ => s.postTrap k { cause := 0x56, mask := r.mask, addr := 0 }

/-- One effect of wave `k` commits (R389). -/
def State.commitEffect (s : State) (k : Nat) (e : Effect) : State :=
  let w := s.wave k
  match e with
  | .store cls bytes =>
    let pas := bytes.map Prod.fst
    let a : Asker := { core := s.coreOf w, ctx := w.ctx, umode := true, cls := cls }
    let s := (s.storeAtCore a 2 bytes).markWriters w.launch (s.group w.group).grpid.toNat pas
    s.modLaunch w.launch fun x => x.unveil pas
  | .sp bytes => (s.writeSpBoth (s.checked w) bytes).modLaunch w.launch fun x => x.unveilSp (bytes.map Prod.fst)
  | .atomic r => (s.performAtomic r).modLaunch w.launch fun x => x.unveil ((List.range (atomBytes r.w64)).map (r.pa + ·))
  | .emit r => s.commitEmit k r
  | .arrive entry n => s.modCtx w.ctx fun c => c.modBarrier entry fun b => b.arrive w.waveid n
  | .copy cluster queue seq =>
    { s with order := s.order + 1 }.modCopy (4 * cluster + queue) seq fun c => { c with heldBack := false, turn := s.order + 1 }

/-- The effects of a wave commit in program order; before them, an append of it that found no room is tried again. -/
def State.commitWave (s : State) (k : Nat) : State :=
  let mine (r : EmitReq) : Bool := r.held && !r.seed && r.wave == k
  let again := s.emits.filter mine
  let s := again.foldl (fun s r => s.commitEmit k r) { s with emits := s.emits.filter fun r => !mine r }
  let effects := (s.wave k).effects
  effects.foldl (fun s e => s.commitEffect k e) (s.modWave k fun w => { w with effects := [] })

/-- The seed pips of a deterministic launch enter their pod as far as there is room (R278, R389). -/
def State.commitSeeds (s : State) (g : Nat) : State :=
  let mine (r : EmitReq) : Bool := r.held && r.seed && r.graph == g
  let step (acc : State × Bool) (r : EmitReq) : State × Bool :=
    if !acc.2 && acc.1.podRoom r.graph r.node r.pips.length then ((acc.1.takeRoom r).append r, false)
    else ({ acc.1 with emits := acc.1.emits ++ [r] }, true)
  ((s.emits.filter mine).foldl step ({ s with emits := s.emits.filter fun r => !mine r }, false)).1

/-! ### Steps 3 to 5 -/

/-- Phases whose counts are met complete (R196, R389). -/
def State.completePhases (s : State) (l : Nat) : State :=
  let c := (s.launch l).ctx
  let entries := ((s.ctx c).barriers.filter fun b => (s.group b.group).launch == l).map Barrier.entry
  entries.foldl (fun s e => s.completePhase c e) s

/-- Claims are granted in ascending (GRPID, WAVEID), on each core none behind one that does not fit (R200, R389). -/
def State.grantClaims (s : State) (l : Nat) : State :=
  let waiting := (s.commitOrder l).filterMap fun k =>
    if !(s.wave k).claiming then none
    else match (s.wave k).wait with
      | .claim n => some (k, n)
      | _ => none
  let step (acc : State × List Nat) (e : Nat × Nat) : State × List Nat :=
    let core := acc.1.coreOf (acc.1.wave e.1)
    let ahead := ((acc.1.core core).claims.takeWhile fun c => c.1 != e.1).any fun c => (acc.1.wave c.1).launch != l
    if acc.2.contains core || ahead || !acc.1.claimFits e.1 e.2 then (acc.1, core :: acc.2)
    else (acc.1.grantClaim e.1 e.2, acc.2)
  (waiting.foldl step (s, [])).1

/-- Full groups form from the pods of a launch's graph, in ascending node number (R389). -/
def State.formGroups (s : State) (l g : Nat) : State :=
  (List.range (s.graph g).pods.length).foldl (fun s n => formFull l g n (s.pod g n).fifo.length s) s

/-! ### The epoch end -/

/-- A wave at its quantum end goes on (R44, R389 step 7); one that is still BLOCKED stays. -/
def Wave.nextQuantum (w : Wave) (cc : Nat) : Wave :=
  if !w.quantumEnded || w.state = .blocked then w
  else { w with qidx := w.qidx + 1, quantumCount := 0, quantumDue := false, quantumEnded := false, eligibleSince := cc }

/-- A copy of a launch that its engine could start or complete now. -/
def State.copyDue (s : State) (l : Nat) : Bool :=
  (s.copies.any fun q => q.entries.any fun c => c.launch == l && c.stage == .running) ||
    (List.range s.copies.length).any fun q => (s.nextCopy q).any fun c => c.launch == l && s.mayStart c

/-- Pairs on which a launch has waves. -/
def State.launchPairs (s : State) (l : Nat) : List Nat :=
  ((s.wavesWith fun w => w.launch == l && w.resident).map fun k => s.pairOf (s.wave k)).eraseDups

/-- What an epoch end would still do for a launch without a resident wave. -/
def State.epochWork (s : State) (l : Nat) : Bool :=
  let x := s.launch l
  let room := s.emits.any fun r => r.held && r.seed && x.graph == some r.graph && s.podRoom r.graph r.node r.pips.length
  let held := s.waves.any fun w => w.launch == l && !w.effects.isEmpty
  let place := match x.graph with
    | none => decide (x.nextGroup < x.ngroups) && (s.planDet l x.nextGroup (s.candKernel (.flat l)) x.waves).isSome
    | some g =>
      (match x.formed with
        | [] => false
        | f :: _ => (s.planDet l f.grpid (s.candKernel (.formed l 0)) f.waves).isSome) ||
      (List.range (s.graph g).pods.length).any fun n =>
        !(s.pod g n).cont && (s.podKernel g n).threshold != 0 && decide ((s.podKernel g n).threshold ≤ (s.pod g n).fifo.length)
  room || held || (place && s.dispatches l)

/-- An epoch of a launch ends now (R389): every wave is at a quantum end or has exited, and what earlier epochs started has
started. A checked pair first compares (R341, R348); while waves are saved no epoch ends (R327). -/
def State.epochReady (s : State) (l : Nat) : Bool :=
  let x := s.launch l
  let ws := (s.launchWaves l).map s.wave
  x.det && x.state == .running && !x.tearing && ws.all (fun w => w.resident && w.quantumEnded && w.trap.isNone)
    && !s.copyDue l && (!ws.isEmpty || s.epochWork l)
    && (x.ilevel != 3 || (s.launchPairs l).all fun p => !(s.pair p).frozen && s.pairQuiet p)

/-- EPOCH_END: the seven steps of R389; on checked pairs between two acorns (R341, R348). -/
def execEpochEnd (l : Nat) (s : State) : Host.Outcome State Fault Refusal :=
  event <|
    if !s.epochReady l then s
    else
      let checked := (s.launch l).ilevel = 3
      let s := if checked then (s.launchPairs l).foldl (fun s p => s.takeAcorn p 4) s else s
      let graph := (s.launch l).graph
      let s := match graph with
        | some g => s.commitSeeds g
        | none => s
      let s := (s.commitOrder l).foldl State.commitWave s
      let s := (s.completePhases l).grantClaims l
      let s := s.modLaunch l fun x => { x with veils := x.veils.filter (fun v => !v.waited), spVeils := x.spVeils.filter fun v => !v.waited }
      let s := match graph with
        | some g => s.formGroups l g
        | none => s
      let n := (s.launch l).ngroups + (s.launch l).formed.length
      let s := dispatchDet l n s
      let s := if s.podDeadlocked l then s.declarePodDeadlock l else s
      let s := (s.launchWaves l).foldl (fun s k => s.modWave k fun w => w.nextQuantum s.cc) s
      let s := s.modLaunch l fun x => { x with epoch := x.epoch + 1 }
      if checked then (s.launchPairs l).foldl (fun s p => s.modPair p fun q => { q with wanted := some 4 }) s else s

end Sys2Proof.Machine
end

