-- ==== Sys2Proof/Machine/Fetch.lean ====
section
/-! DEFINITION. Instruction fetch, eligibility of the next instruction, and the choice of the wave that issues
(02 R46, R60, 04 R122, R138, 09 R292, R293, 10 R307, R312). -/

namespace Sys2Proof.Machine

/-! ### The instruction cache (R138, R358) -/

/-- The bytes of a 64-byte block in a core's instruction cache. -/
def Core.block (c : Core) (blk : Nat) : Option (List Byte) := (c.icache.find? fun e => e.1 == blk).map Prod.snd

/-- A block of a core's instruction cache whose parity holds (R332). -/
def State.codeBlock (s : State) (core blk : Nat) : Option (List Byte) :=
  if s.mem.icErrs.contains (core, blk) then none else (s.core core).block blk

/-- A block with a wrong parity is dropped, with a record of its refetch (R332, R350). -/
def State.dropBlock (s : State) (core blk owner : Nat) : State :=
  if s.mem.icErrs.contains (core, blk) then
    ({ (s.modCore core fun c => { c with icache := c.icache.filter fun e => e.1 != blk }) with
        mem := { s.mem with icErrs := s.mem.icErrs.filter fun e => e != (core, blk) } } : State).record
      { kind := 0x03, sev := 1, source := 2, context := owner, addr := 64 * blk, loc := core / 4 + 64 * (core % 4) }
  else s

/-- A block becomes the most recent of its core's instruction cache; of the lines of a set the four most recent stay (R358). -/
def Core.keepBlock (c : Core) (blk : Nat) (data : List Byte) : Core :=
  let l := (blk, data) :: c.icache.filter fun e => e.1 != blk
  let lines := ((l.map fun e => e.1 / 4).filter fun x => x % 64 == blk / 4 % 64).eraseDups
  let gone := lines.drop 4
  { c with icache := l.filter fun e => !gone.contains (e.1 / 4) }

/-- The word at an offset of a block. -/
def blockWord (data : List Byte) (off : Nat) : Word := BitVec.ofNat 64 (fieldAt data (off / 8 * 8) 8)

/-- The system physical address of a wave's next instruction, or why its fetch fails (R122, R307). -/
def State.fetchPage (s : State) (w : Wave) : Except WalkErr TlbEntry :=
  s.page w.ctx (s.coreOf w) .fetch (w.priv = .u) w.pc.toNat

/-- The next instruction of a wave, where it can be fetched and decodes; otherwise a NOP stands for what its fetch raises. -/
def State.peek (s : State) (k : Nat) : Instr :=
  let w := s.wave k
  match s.fetchPage w with
  | .error _ => .nop false
  | .ok e =>
    let pa := e.ppage * 65536 + w.pc.toNat % 65536
    let data := (s.codeBlock (s.coreOf w) (pa / 64)).getD (s.homeSector (pa / 64))
    match decodeWord (blockWord data (pa % 64)) with
    | .ok i => i
    | _ => .nop false

/-- A wave is eligible for its next instruction (R292). -/
def State.eligible (s : State) (k : Nat) : Bool := s.canIssue k (s.peek k)

/-- What a fetch gives: an instruction word, or the state after the condition that the fetch raises. -/
inductive Fetched where
  | word (s : State) (w : Word)
  | raised (s : State)
deriving DecidableEq, Repr

/-- The fetch of wave `k` (R122, R138): a fault raises its cause with the address fetched; a 64-byte block is taken whole. -/
def State.fetch (s : State) (k : Nat) : Fetched :=
  let w := s.wave k
  let core := s.coreOf w
  match s.fetchPage w with
  | .error .badEntry2 => .raised (s.fatalError 10 { kind := 0x11, sev := 3, esc := true, source := 10 })
  | .error .badEntry1 => .raised (s.memError k 0 0 w.exec w.pc.toNat)
  | .error e => .raised (s.raise k { cause := e.cause .fetch, mask := w.exec, addr := w.pc })
  | .ok e =>
    let a : Asker := { core := core, ctx := w.ctx, cls := 0, umode := w.priv == .u }
    let known := (s.core core).tlb.any fun x => x.asid == e.asid && x.vpage == e.vpage
    let s := if known then s else s.postWalk a w.pc.toNat
    let s := s.fillTlb w.ctx core e
    let pa := e.ppage * 65536 + w.pc.toNat % 65536
    let keep (s : State) (data : List Byte) : Fetched :=
      .word (s.modCore core fun c => c.keepBlock (pa / 64) data) (blockWord data (pa % 64))
    match s.codeBlock core (pa / 64) with
    | some data => keep s data
    | none =>
      let s := (s.dropBlock core (pa / 64) w.ctx).countDenials w.ctx (denials [e])
      let (data, bad, s) := s.nearRead a (pa / 64)
      if (bad >>> (pa % 64)) &&& 0xFF = 0 then keep s data
      else .raised (s.memError k (s.memSource core pa) pa w.exec w.pc.toNat)

/-- The meaning of an instruction word of wave `k`: its decode conditions trap (R60), anything else is the instruction. -/
def State.refuseWord (s : State) (k : Nat) (d : Decoded) : State :=
  match d with
  | .ok _ => s
  | .illegalOpcode => s.trapExec k 0x01
  | .reservedField => s.trapExec k 0x02

/-! ### Issue selection (R293) -/

/-- The launch slack of a wave's group (R293). -/
def State.launchSlack (s : State) (w : Wave) : Nat :=
  let g := s.group w.group
  g.slackInit - (s.cc - g.dispatchCc) / 4

/-- The cc in which a queue that an instruction needs last ceased to be full, or the fence before it was complete: a wave whose
next instruction waited for it has become eligible anew (R292, R293). -/
def State.roomSince (s : State) (w : Wave) (i : Instr) : Nat :=
  let queue := match i with
    | .mmaBp _ | .mzero _ _ | .mrd _ | .mwr _ => (s.twin (s.twinOf w)).roomAt
    | .mbatch _ _ => (s.group w.group).roomAt
    | .tcopy o | .tcopyw o | .thash o => (s.copyQueue (s.queueOf w o.queue.toNat)).roomAt
    | .stS _ | .vst _ | .vstx _ => if s.checked w then (s.pair (s.pairOf w)).roomAt else 0
    | _ => 0
  max queue (if i.behindFence then w.fencedAt else 0)

/-- The age of a wave (R293). -/
def State.ageOf (s : State) (k : Nat) : Nat :=
  let w := s.wave k
  s.cc - max (max w.lastIssue w.eligibleSince) (s.roomSince w (s.peek k))

/-- Waves resident in an issue quarter: quarter `q % 4` of core `q / 4`. -/
def State.quarterWaves (s : State) (q : Nat) : List Nat :=
  s.wavesWith fun w => w.resident && s.coreOf w == q / 4 && w.quarter == q % 4

/-- The oldest of some waves, on a tie the lowest quarter slot. -/
def State.oldest (s : State) (l : List Nat) : Option Nat :=
  leastBy (fun k => (2 ^ 40 - s.ageOf k) * 64 + (s.wave k).slot) l

/-- The wave that an issue quarter chooses (R293). -/
def State.choose (s : State) (q : Nat) : Option Nat :=
  let all := s.quarterWaves q
  let l := all.filter s.eligible
  let age (k : Nat) : Nat := s.ageOf k
  match s.oldest (l.filter fun k => 512 ≤ age k) with
  | some k => some k
  | none =>
    let prio (k : Nat) : Nat := (s.group (s.wave k).group).prio
    let top := l.foldl (fun n k => max n (prio k)) 0
    let l := l.filter fun k => prio k == top
    match s.oldest (l.filter fun k => all.length ≤ age k) with
    | some k => some k
    | none =>
      let least := l.foldl (fun n k => min n (s.launchSlack (s.wave k))) 1023
      s.oldest (l.filter fun k => s.launchSlack (s.wave k) == least)

end Sys2Proof.Machine
end

