-- ==== Sys2Proof/Machine/Matrix.lean ====
section
/-! DEFINITION. The matrix queues: issue, k-steps, tile access, batches, operand errors; bit-plane quantisation and tensor-slot
readout (03 R96-R98, R103-R108, 07 R207-R222). -/

namespace Sys2Proof.Machine

/-! ### Bit planes (R96-R98) -/

/-- Weight of plane `i` of `p` planes (R96). -/
def planeWeight (p i : Nat) : Int := if i = 0 then -((2 ^ (p - 1) : Nat) : Int) else ((2 ^ (p - 1 - i) : Nat) : Int)

/-- The 128-bit rows of a plane tile at a key, bit k of row r being bit k of its 16 bytes (R98). -/
def planeRows (read : Nat → Byte) (key : Nat) : List Nat :=
  (List.range 64).map fun r => ofBytes ((List.range 16).map fun j => read (key + 16 * r + j))

/-- The exact sum over 128 products of two elements given by their planes (R96, R99). -/
def planeDot (a b : List Nat) : Int :=
  let pa := a.length
  let pb := b.length
  ((List.range pa).flatMap fun i => (List.range pb).map fun j =>
    planeWeight pa i * planeWeight pb j * (popCount (BitVec.ofNat 128 (a.getD i 0 &&& b.getD j 0)) : Int)).foldl (· + ·) 0

/-- Row `r` of each plane. -/
def rowOf (planes : List (List Nat)) (r : Nat) : List Nat := planes.map fun p => p.getD r 0

/-! ### Twins and batches -/

/-- The head of a twin's queue. -/
def Twin.head (t : Twin) : Option MatEntry := t.queue.head?

/-- The head changed. -/
def Twin.modHead (t : Twin) (f : MatEntry → MatEntry) : Twin := { t with queue := modAt f t.queue 0 }

/-- MPCn changed. -/
def Twin.modMpc (t : Twin) (n : Nat) (f : Mpc → Mpc) : Twin := { t with mpc := modAt f t.mpc n }

/-- Whether an entry is an MMA.BP on a tile. -/
def MatEntry.mmaOn (e : MatEntry) (tile : Nat) : Bool :=
  match e.op with
  | .mma n _ _ _ _ _ _ _ => n == tile
  | .zero _ | .read .. | .write .. => false

/-- The tile of an entry. -/
def MatEntry.tile (e : MatEntry) : Nat :=
  match e.op with
  | .mma n _ _ _ _ _ _ _ => n
  | .zero n => n
  | .read n _ _ _ _ _ _ => n
  | .write n _ _ => n

/-- A preemption has stopped the queue: the operation in progress stops between k-steps, and the entries behind it are saved
with it (R213). -/
def Twin.barred (t : Twin) : Bool := t.stopped

/-- The operation in progress of a barred twin stops between k-steps, and BUSY falls (R26, R213). -/
def Twin.settle (t : Twin) : Twin :=
  match (if t.barred then t.head else none) with
  | some e =>
    if e.started then (t.modHead fun e => { e with started := false, resume := true }).modMpc e.tile fun m => { m with busy := false }
    else t
  | none => t

/-- A twin may work: nothing is suspended or stopped, and its pair is not frozen (R213, R214, R345). -/
def State.twinRuns (s : State) (t : Nat) : Bool :=
  (s.twin t).suspended.isNone && !(s.twin t).barred && !((s.pair (t / 4)).mode == .checked && (s.pair (t / 4)).frozen)

/-- The batches at the front whose entries have all retired are retired (R219). -/
def retireBatches : List (Nat × Nat) → List (Nat × Nat)
  | [] => []
  | (n, c) :: t => if c = 0 then retireBatches t else (n, c) :: t

/-- Waiters on batches that are no longer outstanding go on (R220). -/
def State.wakeBatches (s : State) (g : Nat) : State :=
  let out := (s.group g).batches.map Prod.fst
  (s.wavesWith fun w => w.group == g && w.state == .blocked && match w.wait with
    | .batch n => !out.contains n
    | _ => false).foldl State.unblock s

/-- An entry of batch `n` of a group has retired (R219). -/
def State.entryRetired (s : State) (g n : Nat) : State :=
  if n = 0 then s
  else
    let s := s.modGroup g fun x =>
      if n = x.nextBatch then { x with openBatch := x.openBatch - 1 }
      else
        let left := retireBatches (x.batches.map fun b => if b.1 = n then (b.1, b.2 - 1) else b)
        { x with batches := left, roomAt := if 8 ≤ x.batches.length && left.length < 8 then s.cc else x.roomAt }
    s.wakeBatches g

/-- The twin of the shadow cluster runs what the leader's does (R244): the group is checked, and holds it. -/
def State.shadows (s : State) (t : Nat) (e : MatEntry) : Bool :=
  (s.group e.group).ilevel == 3 && (s.twin (t + 2)).owner == some e.group

/-- The shadow's twin changed beside the leader's, where there is one. -/
def State.modShadow (s : State) (t : Nat) (e : MatEntry) (f : MatOp → Twin → Twin) : State :=
  if s.shadows t e then s.modTwin (t + 2) (f (e.shadowOp.getD e.op)) else s

/-- The head of a twin retires (R26, R208, R215): BUSY falls unless another operation on the tile is queued, the batch counts
down, and a dissolved group's tiles are freed with the last entry. -/
def State.retireHead (s : State) (t : Nat) : State :=
  match (s.twin t).head with
  | none => s
  | some e =>
    let s := s.modTwin t fun x =>
      let q := x.queue.drop 1
      { x.modMpc e.tile (fun m => { m with busy := q.any fun y => y.mmaOn e.tile }) with
        queue := q, roomAt := if 8 ≤ x.queue.length then s.cc else x.roomAt }
    let s := s.modTwin t Twin.settle
    let s := s.entryRetired e.group e.batch
    let free := (s.twin t).queue.isEmpty && match (s.twin t).owner with
      | some g => !(s.group g).live
      | none => false
    if free then s.modTwin t fun _ => Twin.reset else s

/-! ### Operand and accumulator errors (R214, R332, R333) -/

/-- The scratchpad address of a key as the wave's cluster names it (R38). -/
def spAddress (clid key : Nat) : Nat := clid * 2 ^ 22 + key % 2 ^ 22

/-- The words of scratchpad ranges (key, bytes) that hold wrong bits. -/
def State.spErrsIn (s : State) (ranges : List (Nat × Nat)) : List (Nat × List Nat) :=
  s.mem.spErrs.filter fun e => ranges.any fun r => decide (r.1 / 8 ≤ e.1) && decide (e.1 < (r.1 + r.2) / 8)

/-- The MATRIX_ERROR of a suspended operation (R214, R333): TADDR is the address of the failing byte, or bit 63 and the number of
the tile. -/
def matrixTrap (mask : Mask) (addr : Nat) : Trap :=
  { cause := 0x51, mask := mask, addr := BitVec.ofNat 56 addr, tile := decide (2 ^ 63 ≤ addr) }

/-- The head is suspended on an error at an address (R214): a contained record, and MATRIX_ERROR to a member that waits; on a
checked pair the mismatch sequence starts (R344, R432). DESIGN CHOICE (log 79): R214 names the next MWAIT; a member that is
already BLOCKED in one takes the trap at the suspension. -/
def State.suspend (s : State) (t : Nat) (e : MatEntry) (source addr synd : Nat) : State :=
  let w := s.wave e.wave
  if (s.group e.group).ilevel = 3 then
    s.mismatch (t / 4) e.wave { kind := 0, sev := 0, source := source, cause := 0x51
                                addr := if source = 5 then 0 else addr, synd := synd, pc := e.pc.toNat }
  else
    let s := s.record { kind := 0x12, sev := 2, source := source, cause := 0x51, context := w.ctx, launch := s.seqOf w
                        addr := if source = 5 then 0 else addr, loc := t / 2, synd := synd, pc := e.pc.toNat }
    if !(s.group e.group).live then
      -- R215: abandoned at once
      s.retireHead t
    else
      let s := s.modTwin t fun x =>
        { (x.modHead fun e => { e with started := false, resume := true }).modMpc e.tile (fun m => { m with busy := false }) with
          suspended := some (addr, false) }
      let waiting := s.wavesWith fun w => w.group == e.group && w.state == .blocked && match w.wait with
        | .batch _ => true
        | _ => false
      match waiting.head? with
      | none => s
      | some k =>
        (s.modTwin t fun x => { x with suspended := some (addr, true) }).postTrap k (matrixTrap (s.wave k).exec addr)

/-- Errors of a tile's accumulators among some indices. -/
def State.accErrsOf (s : State) (t tile : Nat) (idx : Nat → Bool) : List (Nat × Nat × Nat × List Nat) :=
  s.mem.accErrs.filter fun e => e.1 == t && e.2.1 == tile && idx e.2.2.1

/-- Errors of accumulators forgotten: corrected, or written over. -/
def State.dropAccErrs (s : State) (t tile : Nat) (idx : Nat → Bool) : State :=
  { s with mem := { s.mem with accErrs := s.mem.accErrs.filter fun e => !(e.1 == t && e.2.1 == tile && idx e.2.2.1) } }

/-- A tile's accumulators are read, on a checked pair in both clusters: one wrong bit is corrected with a record, more suspend
the operation (R332, R333). -/
def State.readAcc (s : State) (t : Nat) (e : MatEntry) (idx : Nat → Bool) (go : State → State) : State :=
  let errs := s.accErrsOf t e.tile idx ++ if s.shadows t e then s.accErrsOf (t + 2) e.tile idx else []
  match errs.find? fun x => 2 ≤ x.2.2.2.length with
  | some x => s.suspend t e 5 (2 ^ 63 + e.tile) (x.2.2.2.headD 0)
  | none =>
    let s := errs.foldl (fun s x => s.record
      { kind := 0x03, sev := 1, source := 5, context := (s.wave e.wave).ctx, launch := s.seqOf (s.wave e.wave), loc := x.1 / 2
        synd := x.2.2.2.headD 0 }) s
    go ((s.dropAccErrs t e.tile idx).dropAccErrs (t + 2) e.tile idx)

/-! ### The queue's work (R210, R216-R218) -/

/-- MATRIX_OPERATION_START: an MMA.BP at the head begins; a fresh one zeroes the tile unless it accumulates (R210). -/
def execMatrixOperationStart (t : Nat) (s : State) : Host.Outcome State Fault Refusal :=
  event <|
    match (s.twin t).head with
    | some e =>
      match e.op with
      | .mma tile _ _ _ _ _ acc _ =>
        if e.started || !s.twinRuns t then s
        else
          let s := s.modTwin t fun x => (x.modHead fun e => { e with started := true }).modMpc tile fun m => { m with busy := true }
          if e.resume then s
          else
            let s := s.modTwin t fun x => x.modMpc tile fun m => { m with kstep := 0, ovf := m.ovf && acc }
            let s := s.modShadow t e fun op x => match op with
              | .mma tile _ _ _ _ _ false _ => { x with tiles := x.tiles.set tile [] }
              | _ => x
            if acc then s
            else (s.dropAccErrs t tile fun _ => true).modTwin t fun x => { x with tiles := x.tiles.set tile [] }
      | .zero _ | .read .. | .write .. => s
    | none => s

/-- The keys of the operand planes of k-step `st`: A in the leader, B in both cores of the twin (R98, R208, R210). -/
def planeKeys (t offA offB ks pa pb leader st : Nat) : List Nat × List Nat × List Nat :=
  let at_ (core off i : Nat) : Nat := spKey (t / 2) core (off + 1024 * (i * ks + st))
  ((List.range pa).map (at_ leader offA), (List.range pb).map (at_ (2 * (t % 2)) offB), (List.range pb).map (at_ (2 * (t % 2) + 1) offB))

/-- A tile with the contributions of a k-step added, saturated (R107), and whether one was clamped. -/
def addKstep (tile : List (BitVec 32)) (a b0 b1 : List (List Nat)) : List (BitVec 32) × Bool :=
  let cols := (List.range 128).map fun c => if c < 64 then rowOf b0 c else rowOf b1 (c - 64)
  let sums := (List.range 64).flatMap fun r =>
    let row := rowOf a r
    (List.range 128).map fun c => (tile.getD (128 * r + c) 0).toInt + planeDot row (cols.getD c [])
  (sums.map fun x => BitVec.ofNat 32 (storeInt true true 32 x), sums.any fun x => x < minOf true 32 || maxOf true 32 < x)

/-- The k-step on the shadow's twin, with its own operands and tile (R244). -/
def State.shadowKstep (s : State) (t : Nat) (e : MatEntry) (st : Nat) : State :=
  s.modShadow t e fun op x => match op with
    | .mma tile offA offB ks pa pb _ leader =>
      if ks ≤ st then x
      else
        let (ka, k0, k1) := planeKeys (t + 2) offA offB ks pa pb leader st
        let planes (l : List Nat) : List (List Nat) := l.map (planeRows (s.spShadow e.wave))
        { x with tiles := x.tiles.set tile (addKstep (x.tiles.getD tile []) (planes ka) (planes k0) (planes k1)).1 }
    | .zero _ | .read .. | .write .. => x

/-- MMA_KSTEP: the next k-step of the head, as one event; the last one retires the operation (R210, R211). DESIGN CHOICE (log 79):
of an uncorrectable 8-byte word the failing byte that R214 puts into TADDR is its first one, and of several words the first
listed. -/
def execMmaKstep (t : Nat) (s : State) : Host.Outcome State Fault Refusal :=
  event <|
    match (s.twin t).head with
    | some e =>
      match e.op with
      | .mma tile offA offB ks pa pb _ leader =>
        let st := ((s.twin t).mpc.getD tile {}).kstep.toNat
        if !e.started || !s.twinRuns t then s
        else if ks ≤ st then s.retireHead t
        else
          let (ka, k0, k1) := planeKeys t offA offB ks pa pb leader st
          let own := (ka ++ k0 ++ k1).map fun k => (k, 1024)
          let errs := s.spErrsIn (if s.shadows t e then own ++ own.map fun r => (r.1 + 2 ^ 22, r.2) else own)
          match errs.find? fun x => 2 ≤ x.2.length with
          | some x => s.suspend t e 3 (spAddress (s.wave e.wave).clid (8 * x.1)) (x.2.headD 0)
          | none =>
            let c := (s.wave e.wave).ctx
            let s := errs.foldl (fun s x => s.healSp (8 * x.1) c) s
            s.readAcc t e (fun _ => true) fun s =>
              let planes (l : List Nat) : List (List Nat) := l.map (planeRows (s.spByte e.wave))
              let (acc, ovf) := addKstep ((s.twin t).tiles.getD tile []) (planes ka) (planes k0) (planes k1)
              let s := (s.shadowKstep t e st).modTwin t fun x =>
                { x.modMpc tile (fun m => { m with kstep := BitVec.ofNat 10 (st + 1), ovf := m.ovf || ovf }) with
                  tiles := x.tiles.set tile acc }
              let s := (s.count c 4 1).count c 5 (pa * pb)
              if ks ≤ st + 1 then s.retireHead t else s
      | .zero _ | .read .. | .write .. => s
    | none => s

/-- The image of two rows in four registers (R217). -/
def rowImage (value : Nat → Nat → Nat) : List VReg :=
  (List.range 4).map fun r => vregOf fun l =>
    packElems 32 [value (r / 2) (64 * (r % 2) + 2 * l), value (r / 2) (64 * (r % 2) + 2 * l + 1)]

/-- Column `c` of row `i` in four registers of that layout (R217, R218). -/
def rowElem (data : List VReg) (i c : Nat) : BitVec 32 :=
  BitVec.ofNat 32 (elemOf 32 (laneOf (data.getD (2 * i + c / 64) []) (c % 64 / 2)) (c % 2))

/-- What MRD delivers for a row and a column: raw, or FP32 under its scales (R108, R217). -/
def readValue (tile : List (BitVec 32)) (row : Nat) (scales : VReg) (rowbyte : Nat) (fp32 : Bool) (i c : Nat) : Nat :=
  let acc := tile.getD (128 * (row + i) + c) 0
  let byte (n : Nat) : Nat := elemOf 8 (laneOf scales (n / 8)) (n % 8)
  if fp32 then scaleAcc acc.toInt (byte (rowbyte + i)) (byte c) else acc.toNat

/-- A tile with two rows replaced (R218). -/
def writeRows (tile : List (BitVec 32)) (row : Nat) (data : List VReg) : List (BitVec 32) :=
  (List.range 8192).map fun n =>
    let r := n / 128
    if r = row ∨ r = row + 1 then rowElem data (r - row) (n % 128) else tile.getD n 0

/-- The registers of an MRD's run receive its image, and the shadow's its own (R57, R217, R244). -/
def State.answerRun (s : State) (k tag : Nat) (image shadow : List VReg) : State :=
  (List.range image.length).foldl (fun s i => s.answer k (tag + i) fun l =>
    { l with val := .v (image.getD i []), need := 0
             shadow := if shadow.getD i [] = image.getD i [] then none else some (.v (shadow.getD i [])) }) s

/-- The image that the shadow's MRD gives, the leader's where there is no shadow (R244). -/
def State.shadowImage (s : State) (t : Nat) (e : MatEntry) (image : List VReg) : List VReg :=
  match (if s.shadows t e then e.shadowOp.getD e.op else .zero 0) with
  | .read tile row scales rowbyte fp32 _ _ => rowImage (readValue ((s.twin (t + 2)).tiles.getD tile []) row scales rowbyte fp32)
  | .mma .. | .zero _ | .write .. => image

/-- TILE_ACCESS_COMPLETE: the MZERO, MRD or MWR at the head is performed (R216-R218). -/
def execTileAccessComplete (t : Nat) (s : State) : Host.Outcome State Fault Refusal :=
  event <|
    match (s.twin t).head with
    | some e =>
      if !s.twinRuns t then s
      else
        match e.op with
        | .mma .. => s
        | .zero tile =>
          let s := s.modShadow t e fun _ x => { x with tiles := x.tiles.set tile [] }
          ((s.dropAccErrs t tile fun _ => true).modTwin t fun x =>
            { x.modMpc tile (fun m => { m with kstep := 0, ovf := false }) with tiles := x.tiles.set tile [] }).retireHead t
        | .read tile row scales rowbyte fp32 wave tag =>
          s.readAcc t e (fun n => n / 128 == row || n / 128 == row + 1) fun s =>
            let image := rowImage (readValue ((s.twin t).tiles.getD tile []) row scales rowbyte fp32)
            (s.answerRun wave tag image (s.shadowImage t e image)).retireHead t
        | .write tile row data =>
          let go (s : State) : State :=
            let s := s.modShadow t e fun op x => match op with
              | .write tile row data => { x with tiles := x.tiles.set tile (writeRows (x.tiles.getD tile []) row data) }
              | .mma .. | .zero _ | .read .. => x
            ((s.dropAccErrs t tile fun n => n / 128 == row || n / 128 == row + 1).modTwin t fun x =>
              { x with tiles := x.tiles.set tile (writeRows (x.tiles.getD tile []) row data) }).retireHead t
          if e.resume then go s else s.readAcc t e (fun n => n / 128 == row || n / 128 == row + 1) go
    | none => s

/-! ### The instructions -/

/-- An entry joins the twin's queue; `batched` ones belong to the open batch (R208, R219). -/
def State.enqueueMatrix (s : State) (k : Nat) (op : MatOp) (batched : Bool) : State :=
  let w := s.wave k
  let n := (s.group w.group).nextBatch
  let e : MatEntry := { op := op, group := w.group, batch := if batched then n else 0, wave := k, pc := w.pc }
  let s := if batched then s.modGroup w.group fun g => { g with openBatch := g.openBatch + 1 } else s
  s.modTwin (s.twinOf w) fun t => { t with queue := t.queue ++ [e] }

/-- TILE_OWNER for a group that does not hold the twin's tiles (R207). -/
def State.withTile (s : State) (k : Nat) (go : State → State) : State :=
  if (s.twin (s.twinOf (s.wave k))).owner = some (s.wave k).group then go s else s.trapExec k 0x50

/-- Whether a scratchpad range of the wave's cluster passes R39. -/
def State.rangeAllowed (s : State) (w : Wave) (addr len : Nat) : Bool :=
  let off := bits addr 19 0
  decide (off + len ≤ 0xC0000) && s.spAllowed w addr && s.spAllowed w (addr + len - 1)

/-- A plane count under the launch's cap (R281). -/
def capped (cap n : Nat) : Nat := if cap = 0 then n else min n cap

/-- MMA.BP (R209, R210, R281). -/
def execMmaBp (o : MmaF) (s : State) : Host.Outcome State Fault Refusal :=
  issue (.mmaBp o) s fun k s =>
    let w := s.wave k
    let g := s.group w.group
    let a := (w.readS o.a.toNat).toNat
    let b := (w.readS o.b.toNat).toNat
    let kk := (w.readS o.c.toNat).toNat
    let even := 2 * (w.coreid / 2)
    let bad (x core : Nat) : Bool :=
      x >>> 32 != 0 || x % 1024 != 0 || bits x 27 22 != w.clid || bits x 21 20 != core
    if kk = 0 ∨ kk % 128 ≠ 0 ∨ 65536 < kk ∨ bad a w.coreid ∨ bad b even then s.trapExec k 0x04
    else
      let ks := kk / 128
      let pa := capped g.pcapa o.pa.toNat
      let pb := capped g.pcapb o.pb.toNat
      let odd := b + 2 ^ 20
      if !s.rangeAllowed w a (1024 * pa * ks) || !s.rangeAllowed w b (1024 * pb * ks) || !s.rangeAllowed w odd (1024 * pb * ks) then
        s.trapExec k 0x11
      else
        s.withTile k fun s =>
          let d := o.d.toNat
          let s := s.modTwin (s.twinOf w) fun t => t.modMpc d fun m => { m with busy := true }
          (s.enqueueMatrix k (.mma d (a % 2 ^ 20) (b % 2 ^ 20) ks pa pb o.acc w.coreid) true).done k (.mmaBp o)

/-- MZERO (R216). -/
def execMzero (q : Bool) (d : BitVec 8) (s : State) : Host.Outcome State Fault Refusal :=
  issue (.mzero q d) s fun k s =>
    s.withTile k fun s => (s.enqueueMatrix k (.zero d.toNat) true).done k (.mzero q d)

/-- A row number of MRD and MWR: even, at most 62 (R217). -/
def rowOk (x : Word) : Bool := x.toNat ≤ 62 && x.toNat % 2 == 0

/-- MRD: four long destinations, filled when it reaches the head (R217). -/
def execMrd (o : MrdF) (s : State) : Host.Outcome State Fault Refusal :=
  issue (.mrd o) s fun k s =>
    let w := s.wave k
    let row := w.readS o.b.toNat
    if !rowOk row then s.trapExec k 0x04
    else
      s.withTile k fun s =>
        let tag := s.tag
        let s := s.enqueueMatrix k (.read o.a.toNat row.toNat (w.readV o.c.toNat) o.rowbyte.toNat o.fp32 k tag) false
        ({ s with tag := tag + 4 }).doneWith k (.mrd o) fun w =>
          (List.range 4).foldl (fun x i => x.long (.v (o.d.toNat + i)) (.v (w.readV (o.d.toNat + i))) 1 (tag + i)) w

/-- MWR: its sources are read at issue (R218). -/
def execMwr (o : MwrF) (s : State) : Host.Outcome State Fault Refusal :=
  issue (.mwr o) s fun k s =>
    let w := s.wave k
    let row := w.readS o.b.toNat
    if !rowOk row then s.trapExec k 0x04
    else
      s.withTile k fun s =>
        let data := (List.range 4).map fun i => w.readV (o.a.toNat + i)
        (s.enqueueMatrix k (.write o.d.toNat row.toNat data) true).done k (.mwr o)

/-- MBATCH: the open batch is closed and its number returned; an empty one may retire at once (R219). -/
def execMbatch (q : Bool) (d : BitVec 8) (s : State) : Host.Outcome State Fault Refusal :=
  issue (.mbatch q d) s fun k s =>
    let g := (s.wave k).group
    let n := (s.group g).nextBatch
    let s := s.modGroup g fun x =>
      { x with batches := retireBatches (x.batches ++ [(n, x.openBatch)]), openBatch := 0, nextBatch := if n = 65535 then 1 else n + 1 }
    s.doneWith k (.mbatch q d) fun w => w.long (w.sReg d.toNat) (.s (BitVec.ofNat 64 n))

/-- The twins of a group whose suspension satisfies a predicate on whether it was delivered. -/
def State.suspendedTwins (s : State) (g : Nat) (delivered : Bool) : List Nat :=
  (List.range s.twins.length).filter fun t =>
    (s.twin t).owner == some g && (s.twin t).suspended.any fun x => x.2 == delivered

/-- MWAIT: it delivers a MATRIX_ERROR, or restarts what was delivered, and waits for its batch (R214, R220). DESIGN CHOICE
(log 79): once the error was delivered, any member's next MWAIT restarts the operation; R214 speaks of the one that trapped. -/
def execMwait (q : Bool) (a : BitVec 8) (s : State) : Host.Outcome State Fault Refusal :=
  issue (.mwait q a) s fun k s =>
    let w := s.wave k
    let n := (w.readS a.toNat).toNat
    if n = 0 ∨ 65535 < n then s.trapExec k 0x04
    else
      match (s.suspendedTwins w.group false).head? with
      | some t =>
        let addr := ((s.twin t).suspended.map Prod.fst).getD 0
        (s.modTwin t fun x => { x with suspended := some (addr, true) }).takeTrap k (matrixTrap w.exec addr)
      | none =>
        let s := (s.suspendedTwins w.group true).foldl (fun s t => s.modTwin t fun x => { x with suspended := none }) s
        if (s.group w.group).batches.any fun b => b.1 == n then s.block k (.batch n) (some (.mwait q a))
        else s.done k (.mwait q a)

/-! ### QPLANE and AMAXRD (R221, R222) -/

/-- The byte at place `b` of 128 of plane `i` of P planes of a slab (R221). -/
def slabByte (t : ET) (regs : Nat → VReg) (p i b : Nat) : Byte :=
  let n := t.count
  let bit (e : Nat) : Bool :=
    let x := toSigned t.width (elemOf t.width (laneOf (regs (e / (32 * n))) (e % (32 * n) / n)) (e % n))
    let y := clampTo (minOf true p) (maxOf true p) x
    (wrapTo p y).testBit (p - 1 - i)
  BitVec.ofNat 8 ((List.range 8).foldr (fun j acc => (bit (8 * b + j)).toNat + 2 * acc) 0)

/-- QPLANE (R221). -/
def execQplane (o : QplaneF) (s : State) : Host.Outcome State Fault Refusal :=
  issue (.qplane o) s fun k s =>
    let w := s.wave k
    let x := (w.readS o.b.toNat).toNat
    let ks := bits x 41 32
    let p := o.planes.toNat
    let base := x % 2 ^ 32
    if x >>> 42 ≠ 0 ∨ ks = 0 ∨ 512 < ks ∨ base % 2 ^ 20 % 128 ≠ 0 then s.trapExec k 0x04
    else
      let off (i : Nat) : Nat := base % 2 ^ 20 + 1024 * i * ks
      let allowed (i : Nat) : Bool := decide (off i + 128 ≤ 0xC0000) && s.rangeAllowed w (base - base % 2 ^ 20 + off i) 128
      if !((List.range p).all allowed) then s.trapExec k 0x11
      else
        let bytes := (List.range p).flatMap fun i => (List.range 128).map fun b =>
          (s.spKeyOf w (base - base % 2 ^ 20 + off i + b), slabByte o.et (fun j => w.readV (o.a.toNat + j)) p i b)
        ((s.postSp w o.slack.toNat true (bytes.map Prod.fst)).spStore k bytes).done k (.qplane o)

/-- Floor of the base-2 logarithm of a positive finite FP32 encoding. -/
def log2Code (c : Nat) : Int :=
  if bits c 30 23 = 0 then (c.log2 : Int) - 149 else (bits c 30 23 : Int) - 127

/-- The largest exponent of a target format, by FMT (R105). -/
def emaxOf (fmt : BitVec 2) : Int :=
  match fmt.toNat with
  | 0 => 8 | 1 => 15 | 2 => 2 | _ => 6

/-- The scale word of a slot (R105). -/
def Slot.word (x : Slot) : Word :=
  let valid := (List.range x.count).map fun k => ((x.entries.getD ((x.head + 15 - k) % 16) 0).toNat)
  let amax := valid.foldl Nat.max 0
  let scale : Int :=
    if amax = 0 then 127
    else if 0x7F800000 ≤ amax then 254
    else clampTo 0 254 (127 + log2Code amax - emaxOf x.fmt + x.margin.toNat)
  BitVec.ofNat 64 (amax + 2 ^ 32 * scale.toNat + 2 ^ 40 * x.count + 2 ^ 45 * x.nan.toNat)

/-- AMAXRD: a deterministic launch reads the snapshot of its start (R106, R222). -/
def execAmaxrd (q : Bool) (d : BitVec 8) (slot : BitVec 6) (s : State) : Host.Outcome State Fault Refusal :=
  regOp (.amaxrd q d slot) s fun w =>
    let slots := if s.detOf w then (s.launch w.launch).snapshot else (s.ctx w.ctx).slots
    w.long (w.sReg d.toNat) (.s (slots.getD slot.toNat {}).word)

end Sys2Proof.Machine
end

