-- ==== Sys2Proof/Machine/Preempt.lean ====
section
/-! DEFINITION. Preemption, saved state, restore and the world switch (10 R318-R323, 01 R37, 02 R74, 06 R202, 07 R213, R243,
09 R295). -/

namespace Sys2Proof.Machine

/-! ### The partition (R322, R323) -/

/-- Contexts that are switched in on the partition of a context. -/
def State.partitionCtxs (s : State) (c : Nat) : List Nat :=
  (List.range s.ctxs.length).filter fun x =>
    (s.ctx x).alive && !(s.ctx x).switchedOut && (s.ctx x).clusterMap == (s.ctx c).clusterMap

/-- A twin is told to stop (R213). -/
def State.stopTwin (s : State) (t : Nat) : State := s.modTwin t fun x => ({ x with stopped := true } : Twin).settle

/-- PREEMPTION_REQUEST (R318): dispatch stops, twins stop between k-steps, open transactions abort, and each wave acts by its
state from then on. -/
def execPreemptionRequest (ctx : Nat) (s : State) : Host.Outcome State Fault Refusal :=
  event <|
    if !(s.ctx ctx).alive || (s.ctx ctx).switchedOut || (s.ctx ctx).preempting then s
    else
      let cs := s.partitionCtxs ctx
      let s := cs.foldl (fun s c => s.modCtx c fun x => { x with preempting := true }) s
      let ws := s.wavesWith fun w => w.resident && cs.contains w.ctx
      let s := ws.foldl (fun s k => s.modWave k fun w => { w with sincePreempt := 0 }) s
      let s := ws.foldl (fun s k => if (s.wave k).txn.isSome && (s.wave k).abort.isNone then s.abortTxn k 7 0 else s) s
      let mine (t : Nat) : Bool := (s.twin t).owner.any fun g => cs.contains (s.group g).ctx
      ((List.range s.twins.length).filter mine).foldl State.stopTwin s

/-! ### Saves (R74, R202, R243, R318-R320) -/

/-- A wave stopped at a point: what the point does not mark live is undefined, RNGKEY too, for which a point has no mark (R74, R319,
log 1); `n` numbers the free values. -/
def Wave.liveAt (w : Wave) (p : PreemptPoint) (n : Nat) : Wave :=
  let free (i : Nat) : Word := Config.freeValue (n + i)
  let mark (live : Nat → Bool) (off : Nat) (l : List Word) : List Word :=
    (List.range l.length).map fun i => if live i then l.getD i 0 else free (off + i)
  { w with
    s := mark p.slive.getLsbD 0 w.s
    sbank := mark (fun _ => p.flags.getLsbD 2) 64 w.sbank
    p := (List.range w.p.length).map fun i => if p.plive.getLsbD i then w.p.getD i 0 else (free (72 + i)).setWidth 32
    v := (List.range w.v.length).map fun r => if p.vlive.getLsbD r then w.v.getD r zeroVReg else vregOf fun l => free (128 + 32 * r + l)
    tcause := (free 80).setWidth 7, tmask := (free 81).setWidth 32, taddr := (free 82).setWidth 56, tpc := (free 83).setWidth 56
    entryMask := (free 84).setWidth 32, rngkey := free 85, taddrTile := (free 86).getLsbD 0 }

/-- Free values that a save at a point uses. -/
def savedFree : Nat := 128 + 32 * 256

/-- A blocked wave as it is saved: it waits again, or its instruction is executed again, after the restore (R202, R243). -/
def Wave.unretired (w : Wave) : Wave :=
  let again : Wave := { w with savedState := w.home, wait := .nothing, stalled := none }
  match w.wait with
  | .barrier _ _ | .ticket _ _ => { w with savedState := w.state }
  | .claim _ | .emit _ => if w.quantumEnded then { w with savedState := w.state } else again
  | .nothing | .batch _ | .service _ | .stage2 _ => again

/-- Tile `n` whose contents are undefined. -/
def freeTile (n : Nat) : List (BitVec 32) := (List.range 8192).map fun i => (Config.freeValue (n + i)).setWidth 32

/-- A twin whose tiles and MPC registers no point marked live (R74, log 1). -/
def Twin.undefinedAt (t : Twin) (n : Nat) : Twin :=
  { t with tiles := (List.range 4).map fun i => freeTile (n + 8200 * i)
           mpc := (List.range t.mpc.length).map fun i =>
             { t.mpc.getD i {} with kstep := (Config.freeValue (n + 8200 * i + 8192)).setWidth 10
                                    ovf := (Config.freeValue (n + 8200 * i + 8193)).getLsbD 0 } }

/-- A window register that no point marked live, but for VALID, which a restore clears (R74, R319, log 1). -/
def Window.undefinedAt (n : Nat) : Window :=
  let free (i : Nat) : Word := Config.freeValue (n + i)
  { vbase := (free 0).setWidth 56, limit := (free 1).setWidth 36, pbase := (free 2).setWidth 40, dev := (free 3).setWidth 2
    ghusk := (free 4).setWidth 4, wr := (free 5).getLsbD 0, peer := (free 6).getLsbD 0, asid := (free 7).setWidth 16
    denied := (free 8).getLsbD 0 }

/-- The scratchpad cells of a group's window on its cores. -/
def State.windowBytes (s : State) (g : Group) : List (Nat × Nat × Nat × Byte) :=
  g.clusters.flatMap fun cl => (List.range 4).flatMap fun core =>
    let key := spKey (s.physCluster g.ctx cl) core g.spbase.toNat
    (s.mem.sp.filter fun e => key ≤ e.1 && e.1 < key + g.spsize.toNat).map fun e => (cl, core, e.1 - key, e.2)

/-! ### Shadow storage (R321, R365, R370) -/

/-- The bytes that the save storage of the command processor holds: the shares of the husk of class SHADOW, 48 KiB each (R321,
R359). -/
def State.shadowBytes (s : State) : Nat :=
  match s.fab.husks.find? fun h => h.cls == 2 with
  | none => 0
  | some h => sumBy (fun b => 49152 * (s.sharesOf b (.husk h.num)).length) h.banks

/-- The command processor reserves the husk of class SHADOW at its first save: the lowest unused number, and one share of husk
0 in every bank that has another (R321, R363; DESIGN CHOICE, log 80). -/
def State.reserveShadow (s : State) : State :=
  if s.fab.husks.any fun h => h.cls == 2 then s
  else match ((List.range 64).drop 1).find? fun n => !(s.fab.husks.any fun h => h.num == n) with
    | none => s
    | some num =>
      let h : Husk := { num := num, ctx := 0xFFFF, banks := List.range 192, shares := 1, fill := 2, policy := 0, cls := 2, gen := 1 }
      let s := { s with fab := { s.fab with husks := s.fab.husks ++ [h] } }
      (List.range 192).foldl (fun s b => match s.sharesOf b (.husk 0) with
        | _ :: y :: t => (s.emptyShare b ((y :: t).getLastD 0)).setShare b ((y :: t).getLastD 0) (.husk num)
        | _ => s) s

/-- The bytes of a group's saved state (R319): registers of its waves, tiles, and its scratchpad windows. -/
def State.saveSize (s : State) (g : Group) (waves : List Wave) : Nat :=
  sumBy (fun w => 256 * w.valloc + 1024) waves + 131072 * g.twins.length + 4 * g.clusters.length * g.spsize.toNat

/-- The group state is saved with the group's last wave, and its tiles are free for others (R319); it lies in shadow storage, or
in the context's save region where that is full (R321). -/
def State.saveGroup (s : State) (g : Nat) : State :=
  let x := s.group g
  let ms := (s.members g).map s.wave
  let tiles := ms.any fun w => w.savedFlags.getLsbD 0
  let windows := ms.any fun w => w.savedFlags.getLsbD 1
  let n := s.free
  let twins := x.twins.map fun e =>
    let t := s.twin (2 * s.physCluster x.ctx e.1 + e.2)
    (e.1, e.2, if tiles then t else t.undefinedAt n)
  let bytes := s.windowBytes x
  let s := s.reserveShadow
  let size := s.saveSize x ms
  let used := sumBy (fun e => if e.spilled then 0 else e.size) s.saves
  let save : GroupSave := { group := g, twins := twins, bytes := bytes, size := size, spilled := decide (s.shadowBytes < used + size) }
  let s := x.allTwins.foldl (fun s e => s.modTwin (2 * s.physCluster x.ctx e.1 + e.2) fun _ => Twin.reset) s
  let s := s.modGroup g fun x => { x with windows := (List.range x.windows.length).map fun i =>
    if windows then { x.windows.getD i {} with valid := false } else Window.undefinedAt (n + 40000 + 10 * i) }
  { s with saves := save :: s.saves.filter (fun e => e.group != g), free := n + 41000 }

/-- Wave `k` is saved: at a point only with what is live there, otherwise whole (R318, R319). -/
def State.saveWave (s : State) (k : Nat) (point : Option PreemptPoint) : State :=
  let w := s.wave k
  let core := s.coreOf w
  let s := { s with emits := s.emits.filter fun r => r.seed || r.wave != k || !r.blocked || r.held }
  let w := if w.state = .blocked ∨ w.state = .yielded then w.unretired
    else { w with savedState := if w.state = .parked then .parked else w.home }
  let w := match point with
    | some p => { w.liveAt p s.free with savedFull := false, savedFlags := p.flags }
    | none => { w with savedFull := true, savedFlags := 7 }
  let s := s.setWave k { w with state := .saved, hold := .none, preempted := false, unmarked := [], regErrs := [], shadow := [] }
  let s := { s with free := s.free + savedFree }
  let s := (s.modCore core fun c => { c with claims := c.claims.filter fun e => e.1 != k }).releaseTokens k
  let s := s.remirror core
  if (s.members w.group).any fun j => (s.wave j).resident then s else s.saveGroup w.group

/-- A return that an MRD behind a stopped operation owes, which is saved with its queue (R213). -/
def State.savedReturn (s : State) (k : Nat) (l : LongWrite) : Bool :=
  let t := s.twin (s.twinOf (s.wave k))
  t.barred && t.queue.any fun e => match e.op with
    | .read _ _ _ _ _ wave tag => wave == k && decide (tag ≤ l.tag) && decide (l.tag < tag + 4)
    | .mma .. | .zero _ | .write .. => false

/-- A wave waits for nothing that a save must let complete: returns, fences, acknowledgements, traps (R58, R202); an MRD that the
preemption has stopped is saved (R213). -/
def State.waveSettled (s : State) (k : Nat) : Bool :=
  let w := s.wave k
  w.pending.all (fun l => w.heldReturn l || s.savedReturn k l) && w.trap.isNone && w.abort.isNone &&
    match w.hold with
    | .none | .commit | .commitReady => true
    | .fence _ _ | .writeback | .icinv _ | .txbegin | .acorn _ => false

/-- A wave may be saved: it waits for nothing and no transaction of it is open. -/
def State.drained (s : State) (k : Nat) : Bool := s.waveSettled k && (s.wave k).txn.isNone

/-- A transaction opened since the request, in a wave that has come to where it is saved: it aborts with PREEMPT (R189, R318). -/
def State.txnDue (s : State) (k : Nat) : Bool :=
  let w := s.wave k
  s.waveSettled k && w.txn.isSome && (w.state == .ready || w.state == .handler) && s.mustSave w

/-- A READY wave behind a queue that the request has stopped: it can reach no point, and is saved where it stands. -/
def State.stuckBehind (s : State) (k : Nat) : Bool :=
  let w := s.wave k
  (s.twin (s.twinOf w)).barred && s.queueFull w (s.peek k)

/-- What a save of a wave is to be, if it is due (R318): at a point, or whole. -/
def State.saveDue (s : State) (k : Nat) : Option (Option PreemptPoint) :=
  let w := s.wave k
  if !(s.ctx w.ctx).preempting || w.priv ≠ .u || !s.drained k then none
  else match w.state with
    | .blocked | .yielded | .parked => some none
    | .ready =>
      if w.quantumEnded then some none
      else match s.pointOf w with
        | some p => some (some p)
        | none => if s.stuckBehind k then some none else none
    | _ => none

/-- On a checked pair a wave stops only after an acorn taken there, with the check buffer drained (R320). -/
def State.acornAt (s : State) (k : Nat) : Bool :=
  let w := s.wave k
  !s.checked w || (w.sinceAcorn == 0 && (s.pair (s.pairOf w)).buffer.isEmpty && !(s.pair (s.pairOf w)).frozen)

/-- A save, or first the acorn that it needs. -/
def State.saveOr (s : State) (k : Nat) (point : Option PreemptPoint) : State :=
  if s.acornAt k then s.saveWave k point
  else s.modPair (s.pairOf (s.wave k)) fun q => { q with wanted := some (q.wanted.getD 6) }

/-- PREEMPTION_SAVE (R318, R319, R320, R202, R243). -/
def execPreemptionSave (w : Nat) (s : State) : Host.Outcome State Fault Refusal :=
  event <|
    if s.txnDue w then s.abortTxn w 7 0
    else match s.saveDue w with
      | some p => s.saveOr w p
      | none => s

/-- A full save is due: 16,384 instructions at U and S since the request (R318). -/
def State.fullSaveDue (s : State) (k : Nat) : Bool :=
  let w := s.wave k
  (s.ctx w.ctx).preempting && 16384 ≤ w.sincePreempt && s.drained k && (w.state == .ready || w.state == .handler)

/-- FULL_SAVE: everything is kept (R318, R319). -/
def execFullSave (w : Nat) (s : State) : Host.Outcome State Fault Refusal :=
  event (if s.txnDue w then s.abortTxn w 7 0 else if s.fullSaveDue w then s.saveOr w none else s)

/-! ### Restore (R37, R295, R319-R321) -/

/-- Whether nothing of a partition is on the part any more: every wave saved or exited, its twins barred or idle. -/
def State.partitionSaved (s : State) (c : Nat) : Bool :=
  let cs := s.partitionCtxs c
  !(s.waves.any fun w => w.resident && cs.contains w.ctx)

/-- A wave goes on as it was saved; the phase of a barrier that completed meanwhile releases it (R196, R292). -/
def State.restoreWave (s : State) (k : Nat) : State :=
  let w := s.wave k
  let core := s.coreOf w
  let taken := s.slotsTaken w.ctx [] w.clid w.coreid w.quarter
  let seat := if taken.contains w.slot then s.seatOn w.ctx [] (w.clid, w.coreid) none
    else { clid := w.clid, coreid := w.coreid, quarter := w.quarter, slot := w.slot }
  let runs := (w.savedState == .ready || w.savedState == .handler) && !w.quantumEnded
  let s := s.setWave k { w with
    state := w.savedState, quarter := seat.quarter, slot := seat.slot, preempted := runs, eligibleSince := s.cc, sincePreempt := 0 }
  let s := s.remirror core
  match w.wait with
  | .claim n => s.modCore core fun c => { c with claims := c.claims ++ [(k, n)] }
  | .barrier e phase =>
    match (s.ctx w.ctx).barrier e with
    | some b => if b.broken then s.modWave k fun w => { w with state := w.home, wait := .nothing, stalled := none }
      else if phase < b.phase then s.unblock k else s
    | none => s
  | .ticket q _ => s.wakeTickets q
  | .nothing | .emit _ | .batch _ | .service _ | .stage2 _ => s

/-- A saved group comes back: scratchpad, tiles and queues, then its waves; windows refill at their next use (R213, R319). An
IL3 group's state is loaded into both clusters of its pair, which takes an acorn before it issues (R320, R343). -/
def State.restoreGroup (s : State) (g : Nat) : State :=
  let x := s.group g
  let save := (s.saves.find? fun e => e.group == g).getD default
  let both : Bool := x.ilevel == 3
  let inWindow (k : Nat) : Bool := x.clusters.any fun cl => (List.range (if both then 8 else 4)).any fun core =>
    let key := spKey (s.physCluster x.ctx cl) core x.spbase.toNat
    key ≤ k && k < key + x.spsize.toNat
  let s := { s with mem := { s.mem with sp := s.mem.sp.filter fun e => !inWindow e.1 } }
  let s := s.writeSpBoth both (save.bytes.map fun e => (spKey (s.physCluster x.ctx e.1) e.2.1 (x.spbase.toNat + e.2.2.1), e.2.2.2))
  let s := save.twins.foldl (fun s e =>
    let s := s.modTwin (2 * s.physCluster x.ctx e.1 + e.2.1) fun _ => { e.2.2 with owner := some g, stopped := false }
    if both then s.modTwin (2 * s.physCluster x.ctx e.1 + e.2.1 + 2) fun _ => { e.2.2 with owner := some g, stopped := false, queue := [] }
    else s) s
  let s := { s with saves := s.saves.filter fun e => e.group != g }
  let s := ((s.members g).filter fun k => (s.wave k).state == .saved).foldl State.restoreWave s
  if x.ilevel = 3 then
    s.modPair (s.physCluster x.ctx (x.clusters.headD 0) / 2) fun q => { q with wanted := some (q.wanted.getD 6) }
  else s

/-- PREEMPTION_RESTORE: once everything is saved the request ends, and saved groups resume where they fit; the others wait
(R295, R319-R321). -/
def execPreemptionRestore (ctx : Nat) (s : State) : Host.Outcome State Fault Refusal :=
  event <|
    if (s.ctx ctx).switchedOut || ((s.ctx ctx).preempting && (!s.partitionSaved ctx || s.cp.switching.isSome)) then s
    else
      let s := (s.partitionCtxs ctx).foldl (fun s c => s.modCtx c fun x => { x with preempting := false }) s
      (s.restorable ctx).foldl (fun s g => if s.groupFits g then s.restoreGroup g else s) s

/-! ### The world switch (R323) -/

/-- Contexts of a function. -/
def State.functionCtxs (s : State) (fn : Nat) : List Nat :=
  (List.range s.ctxs.length).filter fun c => (s.ctx c).alive && (s.ctx c).fn == fn

/-- The first part of a world switch: fetching and timers of the outgoing function stop, and its partition is preempted. -/
def State.beginSwitch (s : State) (out into : Nat) : State :=
  let s := { s with cp := { s.cp with switching := some (out, into) } }
  match execPreemptionRequest out s with
  | .next s => s
  | _ => s

/-- The rest: the outgoing contexts leave with all their registers, the incoming ones come back. -/
def State.finishSwitch (s : State) (out into : Nat) : State :=
  let s := (s.functionCtxs (s.ctx out).fn).foldl (fun s c => s.modCtx c fun x => { x with switchedOut := true, preempting := false }) s
  let s := (s.functionCtxs (s.ctx into).fn).foldl (fun s c => s.modCtx c fun x => { x with switchedOut := false, preempting := false }) s
  let s := { s with cp := { s.cp with switching := none } }
  let s := s.modFunc (s.ctx into).fn fun f => { f with since := s.lc }
  match execPreemptionRestore into s with
  | .next s => s
  | _ => s

/-- WORLD_SWITCH (R323): it begins, and ends in a later step once the outgoing partition is saved. -/
def execWorldSwitch (outCtx inCtx : Nat) (s : State) : Host.Outcome State Fault Refusal :=
  event <|
    let ok := (s.ctx outCtx).alive && (s.ctx inCtx).alive && !(s.ctx outCtx).switchedOut && (s.ctx inCtx).switchedOut
    match s.cp.switching with
    | none => if ok && !(s.ctx outCtx).preempting then s.beginSwitch outCtx inCtx else s
    | some e =>
      if e = (outCtx, inCtx) && (s.ctx outCtx).preempting && s.partitionSaved outCtx then s.finishSwitch outCtx inCtx else s

end Sys2Proof.Machine
end

