-- ==== Sys2Proof/Machine/Service.lean ====
section
/-! DEFINITION. The command processor's services to handlers, stage-2 faults and shootdowns, frame pools and scrubbing
(10 R302, R310, R312, R315, R316, R324). -/

namespace Sys2Proof.Machine

/-! ### Answers (R302) -/

/-- The service that a wave waits for. -/
def Wave.serviceOf (w : Wave) : Option Nat :=
  match w.wait with
  | .service n => if w.state = .blocked then some n else none
  | _ => none

/-- The command processor writes S56 and the TRAP retires (R302). -/
def State.answerService (s : State) (k : Nat) (x : Word) : State := (s.modWave k fun w => w.writeS 56 x).unblock k

/-- NULL: service 0 answers 0; a number that names no service answers all ones (R302). -/
def execNull (w : Nat) (s : State) : Host.Outcome State Fault Refusal :=
  event <|
    match (s.wave w).serviceOf with
    | some 0 => s.answerService w 0
    | some n => if 3 < n then s.answerService w (BitVec.allOnes 64) else s
    | none => s

/-! ### Shootdowns (R309, R310) -/

/-- TLB entries of a context in its partition are dropped, and its windows cleared, where predicates say so. -/
def State.dropTranslations (s : State) (c : Nat) (entry : TlbEntry → Bool) (window : Window → Bool) : State :=
  let asid := (s.ctx c).asid
  let s := (s.partitionCores c).foldl (fun s core =>
    s.modCore core fun x => { x with tlb := x.tlb.filter fun e => !(e.asid == asid && entry e) }) s
  { s with groups := s.groups.map fun (g : Group) =>
      if g.ctx = c then { g with windows := g.windows.map fun x => if x.valid && window x then { x with valid := false } else x } else g }

/-- A stage-1 invalidation over virtual bytes, widened to 64 KiB (R302, R310). -/
def State.invalidate1 (s : State) (c base len : Nat) : State :=
  let lo := base / 65536 * 65536
  let hi := (base + len + 65535) / 65536 * 65536
  s.dropTranslations c (fun e => meets (65536 * e.vpage) 65536 lo (hi - lo))
    (fun w => meets w.vbase.toNat (max 1 w.limit.toNat) lo (hi - lo))

/-- TLBI: service 2, complete once the linked devices have dropped the pages too (R302, R310, R315). -/
def execTlbi (w : Nat) (s : State) : Host.Outcome State Fault Refusal :=
  event <|
    let x := s.wave w
    if x.serviceOf ≠ some 2 then s
    else if x.readS 58 = 0 then s.answerService w 1
    else
      let s := s.invalidate1 x.ctx (x.readS 57).toNat (x.readS 58).toNat
      (s.tellLinked (s.ctx x.ctx).asid (x.readS 57).toNat (x.readS 58).toNat).answerService w 0

/-- The IPA of a window's first byte by stage 1; none where the walk fails. -/
def State.windowIpa (s : State) (c : Nat) (w : Window) : Option Nat :=
  match (s.ctx c).s1root with
  | none => none
  | some root => match walkFrom s 1 (s.xlate2 (s.ctx c).s2root) w.vbase.toNat 3 1 root with
    | .ok e => some (leafOut e w.vbase.toNat)
    | .error _ => none

/-- STAGE2_SHOOTDOWN: entries and windows that meet a range of IPAs, and on the linked devices every page of the context
(R310, R315). -/
def execStage2Shootdown (ctx ipa len : Nat) (s : State) : Host.Outcome State Fault Refusal :=
  event <|
    let lo := ipa / 65536 * 65536
    let hi := (ipa + len + 65535) / 65536 * 65536
    (s.dropTranslations ctx (fun e => meets (65536 * e.ipage) 65536 lo (hi - lo))
      (fun w => match s.windowIpa ctx w with
        | some a => meets a (max 1 w.limit.toNat) lo (hi - lo)
        | none => true)).tellLinked (s.ctx ctx).asid 0 (2 ^ 56)

/-! ### Frame pools (R316) -/

/-- The header of a pool: HEAD, TAIL, NSLOT, LOWMARK; none where it cannot be read or NSLOT is not legal. -/
def State.poolHeader (s : State) (c va : Nat) : Option (Nat × Nat × Nat × Nat) :=
  match s.cpRead c va 24 with
  | none => none
  | some b =>
    let n := fieldAt b 16 4
    if va % 64 = 0 && 64 ≤ n && n ≤ 65536 && 2 ^ n.log2 == n then some (fieldAt b 0 8, fieldAt b 8 8, n, fieldAt b 20 4) else none

/-- The stage-2 leaf of an IPA gives writable local memory. -/
def State.frameOf (s : State) (c ipa : Nat) : Option Nat :=
  match s.walk2 (s.ctx c).s2root ipa with
  | .ok e => if bitAt e 5 then some (leafOut e ipa % 2 ^ 42 / 65536) else none
  | .error _ => none

/-- One frame added to a pool: scrubbed, mapped at its IPA, its slot written, TAIL advanced with a release that names its line
(R316, R324). -/
def State.addFrame (s : State) (c va nslot : Nat) (ipa : BitVec 48) : State :=
  let f := (s.frameOf c ipa.toNat).getD (ipa.toNat / 65536)
  match s.cpRead c (va + 8) 8 with
  | some t =>
    let tail := ofBytes t
    let s := s.mapFrame c ipa.toNat f
    let slot := va + 64 + 8 * (tail % nslot)
    let s := s.cpWrite c slot (bytesOf 8 ipa.toNat)
    let s := s.cpWrite c (va + 8) (bytesOf 8 (tail + 1))
    match s.vaPa c (va + 8), s.vaPa c slot with
    | some p, some q => s.depositAt (s.nearSlice p) (lineOf p) (sigOf [sectorOf p, sectorOf q])
    | _, _ => s
  | none => s

/-- A frame that the command processor may add to a context's pool: mapped writable at its IPA, or still to be mapped there. -/
def State.poolable (s : State) (c ipa : Nat) : Bool :=
  ipa % 65536 == 0 && ((s.frameOf c ipa).isSome || (!s.isPeer ipa && match s.walk2 (s.ctx c).s2root ipa with
    | .error .stage2 => true
    | _ => false))

/-- Frames that a refill may add: the ring holds NSLOT - 1 at most, within the quota (R302, R316). -/
def State.refillRoom (s : State) (c : Nat) (h : Nat × Nat × Nat × Nat) : Nat :=
  min (h.2.2.1 - 1 - (h.2.1 - h.1)) ((s.ctx c).quota - (s.ctx c).framesUsed)

/-- A pool refilled with the given frames; how many were added. -/
def State.refillPool (s : State) (c va : Nat) (frames : List (BitVec 48)) : Nat × State :=
  match s.poolHeader c va with
  | none => (0, s)
  | some h =>
    let l := (frames.take (s.refillRoom c h)).takeWhile fun f => s.poolable c f.toNat
    (l.length, l.foldl (fun s f => s.addFrame c va h.2.2.1 f) s)

/-- POOL_REFILL: service 1, with the frames that the command processor takes (R302, R316). -/
def execPoolRefill (w : Nat) (frames : List (BitVec 48)) (s : State) : Host.Outcome State Fault Refusal :=
  event <|
    let x := s.wave w
    if x.serviceOf ≠ some 1 then s
    else
      let (n, s) := s.refillPool x.ctx (x.readS 57).toNat frames
      s.answerService w (BitVec.ofNat 64 n)

/-- A pool is below its low mark (R316). -/
def State.poolLow (s : State) (c : Nat) : Bool :=
  match (s.ctx c).pool with
  | none => false
  | some va => match s.poolHeader c va with
    | some h => decide (h.2.1 - h.1 < h.2.2.2)
    | none => false

/-- POOL_CHECK: HEAD is read, and a ring below LOWMARK is refilled (R316). -/
def execPoolCheck (ctx : Nat) (frames : List (BitVec 48)) (s : State) : Host.Outcome State Fault Refusal :=
  event <|
    let s := s.modCtx ctx fun c => { c with poolDue := false, poolAt := s.lc }
    match (s.ctx ctx).pool with
    | some va => if s.poolLow ctx then (s.refillPool ctx va frames).2 else s
    | none => s

/-- FAIL: service 3 kills the wave with the code in its record (R301, R302). -/
def execFail (w : Nat) (s : State) : Host.Outcome State Fault Refusal :=
  event <|
    let x := s.wave w
    if x.serviceOf = some 3 then s.kill w ((x.readS 57).setWidth 7) else s

/-! ### Stage-2 faults (R312) -/

/-- STAGE2_FAULT_SERVICE: the page is mapped to a scrubbed frame and the instruction issues again; or the command processor
refuses, or has nothing to map, and the cause is delivered (R312, R298). -/
def execStage2FaultService (w : Nat) (frame : Option Nat) (s : State) : Host.Outcome State Fault Refusal :=
  event <|
    let x := s.wave w
    match x.wait with
    | .stage2 t =>
      if x.state ≠ .blocked then s
      else match frame, s.missingIpa x.ctx t.addr.toNat with
        | some f, some ipa => (s.mapFrame x.ctx ipa f).unblock w
        | _, _ =>
          (s.modWave w fun x => { x with state := x.home, wait := .nothing, stalled := none }).takeTrap w t
    | _ => s

end Sys2Proof.Machine
end

