-- ==== Sys2Proof/Machine/Peer.lean ====
section
/-! DEFINITION. Peer requests, peer shootdowns, notices and link ports (10 R313-R315, 08 R257, R269, 12 R386, R387, 14 R416, R417). -/

namespace Sys2Proof.Machine

/-! ### Requests from peers (R313, R314) -/

/-- An answer to a peer: the page's home physical address with the bytes read, or none for PEER_FAULT (R314). -/
def State.peerReply (s : State) (x : Option (Nat × List Byte)) : State :=
  { s with fab := { s.fab with peerReplies := x :: s.fab.peerReplies } }

/-- The local context of a peer's ASID, by the command processor's peer table (R314). -/
def State.peerCtx (s : State) (asid : BitVec 16) : Option Nat :=
  (s.fab.peerTable.find? fun e => e.1 == asid.toNat).map Prod.snd

/-- The physical bytes of a peer's request at this home, each permitted; none for PEER_FAULT (R307, R314). -/
def State.peerBytes (s : State) (c va : Nat) (kind : AccessKind) : Nat → Option (List (Nat × TlbEntry))
  | 0 => some []
  | n + 1 =>
    if 2 ^ 56 ≤ va then none
    else match s.walk c va, State.peerBytes s c (va + 1) kind n with
      | .ok l, some rest =>
        let e := s.entryOf (s.ctx c).asid va l
        if e.peer || (s.permit c kind true e va).isSome then none else some ((e.ppage * 65536 + va % 65536, e) :: rest)
      | _, _ => none

/-- The permission and the bytes that a peer's request asks for. -/
def peerNeeds : PeerAsk → AccessKind × Nat
  | .read n => (.load, n)
  | .write b => (.store, b.length)
  | .atomic _ w64 _ _ _ => (.store, atomBytes w64)
  | .deposit _ | .acquire => (.load, 1)

/-- What a peer's request does at the line's home, exactly as a local request (R254, R256, R269, R314): the new state and the bytes
of the answer; none where a byte cannot be read. -/
def State.performPeer (s : State) (pas : List Nat) (ask : PeerAsk) : Option (List Byte) × State :=
  let pa := pas.headD 0
  let old := pas.map (Memory.read s.mem.home)
  match ask with
  | .read _ => if pas.any s.byteBad then (none, s) else (some old, s)
  | .write b => (some [], s.writeHome (pas.zip b))
  | .atomic op w64 ret data cmp =>
    let n := ofBytes old
    let new := if op = .cas then (if n = cmp then data else n) else op.apply w64 n data
    if pas.any s.byteBad then (none, s)
    else (some (if ret then old else []), s.writeHome (pas.zip (bytesOf (atomBytes w64) new)))
  | .deposit x => (some [], s.depositAt (s.slice pa) (lineOf pa) x)
  | .acquire => (some (bytesOf 64 (((s.signatureAt (s.slice pa :: s.oldSlices pa) (lineOf pa)).getD (BitVec.allOnes 512)).toNat)), s)

/-- PEER_REQUEST: the home walks both stages for the local context and performs the access at the line's home, or answers
PEER_FAULT with nothing performed (R269, R314); the request enters the fabric with the slack of its header (R378). -/
def execPeerRequest (asid : BitVec 16) (va : BitVec 56) (call : PeerCall) (s : State) : Host.Outcome State Fault Refusal :=
  event <|
    let (kind, n) := peerNeeds call.ask
    match ((s.peerCtx asid).bind fun c => (s.peerBytes c va.toNat kind n).map fun l => (c, l)) with
    | none => s.peerReply none
    | some (c, l) =>
      let s := l.foldl (fun s e => s.noteFrame c e.2) s
      let pas := l.map Prod.fst
      let s := ((pas.map sectorOf).eraseDups).foldl (fun s sec =>
        ((s.postEdge call.head.slack.toNat c sec (kind != .load) call.head).heal sec c).healL2 sec c) s
      let (answer, s) := s.performPeer pas call.ask
      s.peerReply (answer.map fun b => (pas.headD 0 / 65536 * 65536, b))

/-- PEER_SHOOTDOWN: at the request of a home, TLB entries, windows and remote data cache copies of the pages go (R315). -/
def execPeerShootdown (asid : BitVec 16) (va : BitVec 56) (len : Nat) (s : State) : Host.Outcome State Fault Refusal :=
  event <|
    let lo := va.toNat / 65536 * 65536
    let hi := (va.toNat + len + 65535) / 65536 * 65536
    let cs := (List.range s.ctxs.length).filter fun c => (s.ctx c).alive && (s.ctx c).asid == asid
    let pages := s.cores.flatMap fun c => (c.tlb.filter fun e => e.asid == asid && e.peer && meets (65536 * e.vpage) 65536 lo (hi - lo)).map TlbEntry.ppage
    let windows := s.groups.flatMap fun g => if !cs.contains g.ctx then [] else
      (g.windows.filter fun w => w.valid && w.peer && meets w.vbase.toNat (max 1 w.limit.toNat) lo (hi - lo)).flatMap fun w =>
        (List.range ((w.limit.toNat + 65535) / 65536 + 1)).map fun i => w.pa (65536 * i) / 65536
    let gone := pages ++ windows
    let s := cs.foldl (fun s c => s.invalidate1 c lo (hi - lo)) s
    let s := { s with fab := { s.fab with peerEpoch := s.fab.peerEpoch + 1 } }
    ((s.mem.rdc.filter fun r => gone.contains (r.sec / 1024)).map RdcSector.sec).foldl State.rdcDrop s

/-! ### Links -/

/-- PEER_FATAL_NOTICE: from now on the peer's requests end with PEER_FAULT, and it leaves the routes at the next quiesce
point (R417). -/
def execPeerFatalNotice (dev : BitVec 2) (s : State) : Host.Outcome State Fault Refusal :=
  event <|
    if s.fab.deadPeers.contains dev then s
    else
      let s := { s with fab := { s.fab with deadPeers := dev :: s.fab.deadPeers }
                        cp := { s.cp with changes := s.cp.changes ++ [QuiesceChange.routes] } }
      s.linkRecord 2

/-- The routes with a port's bit set for a device. -/
def Fabric.addRoute (f : Fabric) (dev : BitVec 2) (port : Nat) : Fabric :=
  { f with routes := modAt (fun r => r ||| (1#3 <<< port)) f.routes dev.toNat }

/-- Boot stage 5 is complete once no port is still training (R415). -/
def State.portsDone (s : State) : State :=
  if s.cp.stage = 4 && !(s.fab.ports.any fun (p : Port) => p.state == 1) then { s with cp := { s.cp with stage := 5 } } else s

/-- LINK_TRAINING: 8 good lanes, or 4, bring the port up; a far end with the own number does not come up; otherwise the port
stays down; a retraining port enters LINK_ROUTE at the following quiesce point. The ends align their epochs (R386, R416, R257). -/
def execLinkTraining (port goodLanes : Nat) (peer : BitVec 2) (s : State) : Host.Outcome State Fault Refusal :=
  event <|
    if 3 ≤ port then s
    else
      let old := s.fab.ports.getD port {}
      let again := s.cp.stage == 5
      let retrains : BitVec 16 := if again && old.retrains != 0xFFFF then old.retrains + 1 else old.retrains
      let width : Nat := if 8 ≤ goodLanes then 8 else if 4 ≤ goodLanes then 4 else 0
      if width = 0 ∨ peer = s.fab.dev then
        let p : Port := { old with state := 0, width := 0, peer := if width = 0 then old.peer else peer, retrains := retrains }
        (({ s with fab := { s.fab with ports := s.fab.ports.set port p } } : State).linkRecord 0).portsDone
      else
        let p : Port := { state := 2, width := BitVec.ofNat 4 width, peer := peer, retrains := retrains }
        let s := { s with epochAt := s.lc + 524288 }
        let fab := { s.fab with ports := s.fab.ports.set port p }
        if again then { s with fab := fab, cp := { s.cp with changes := s.cp.changes ++ [QuiesceChange.routes] } }
        else ({ s with fab := fab.addRoute peer port } : State).portsDone

/-- LINK_LOSS_OF_LOCK: the port is failed at once; its route goes at the next quiesce point (R416, R387). -/
def execLinkLossOfLock (port : Nat) (s : State) : Host.Outcome State Fault Refusal :=
  event <|
    if 3 ≤ port then s
    else
      let p := s.fab.ports.getD port {}
      let s := { s with fab := { s.fab with ports := s.fab.ports.set port { p with state := 3, width := 0 } }
                        cp := { s.cp with changes := s.cp.changes ++ [QuiesceChange.routes] } }
      s.portsDone

end Sys2Proof.Machine
end

