-- ==== Sys2Proof/Machine/Commands.lean ====
section
/-! DEFINITION. The management commands of the submission queues (14 R409, R420, 12 R361-R368, 09 R282, 03 R103, 10 R303, R316,
R322, R324). -/

namespace Sys2Proof

/-- Argument `n` of a command. -/
def Cmd.arg (c : Cmd) (n : Nat) : Nat := (c.args.getD n 0).toNat

end Sys2Proof

namespace Sys2Proof.Machine

/-- Launches of a context that have been enqueued and have not ended. -/
def State.openLaunches (s : State) (c : Nat) : List Nat :=
  (List.range s.launches.length).filter fun l => (s.launch l).ctx == c && !(s.launch l).completed

/-! ### HUSK_DEFINE (R361-R368) -/

/-- The fields of a definition record (R361). -/
structure HuskRec where
  banks : List Nat
  near : Nat
  nbank : Nat
  shares : Nat
  fill : Nat
  policy : Nat
  cls : Nat
  husk : Nat
  gen : Nat
  spare : Nat
deriving DecidableEq, Repr

def huskRecord (b : List Byte) : HuskRec :=
  { banks := (List.range 192).filter fun i => bitAt (fieldAt b 0 24) i, near := fieldAt b 24 8, nbank := fieldAt b 32 1
    shares := fieldAt b 33 1, fill := fieldAt b 34 1, policy := fieldAt b 35 1, cls := fieldAt b 36 1, husk := fieldAt b 37 1
    gen := fieldAt b 40 8, spare := fieldAt b 48 16 }

/-- A field outside its range, or a reserved field that is not zero (R361). -/
def State.huskFieldsBad (s : State) (r : HuskRec) : Bool :=
  r.near >>> 48 != 0 || r.spare != 0 || !(1 ≤ r.shares && r.shares ≤ 15) || 2 < r.fill || 2 < r.policy || 2 < r.cls || 63 < r.husk
    || (if r.banks.isEmpty then !(1 ≤ r.nbank && r.nbank ≤ 192) else r.nbank != 0)
    || (r.husk != 0 && match (s.fab.husks.find? fun h => h.num == r.husk) with
        | some h => h.cls != r.cls
        | none => true)

/-- Mesh distance of two clusters (R377). -/
def meshDistance (a b : Nat) : Nat :=
  let d (x y : Nat) : Nat := (x - y) + (y - x)
  d (a % 8) (b % 8) + d (a / 8) (b / 8)

/-- The banks of a record, ascending: those named, or NBANK by distance from the NEAR clusters (R362). -/
def State.huskBanksOf (s : State) (c : Nat) (r : HuskRec) : List Nat :=
  if !r.banks.isEmpty then r.banks
  else
    let near := ((List.range 48).filter fun i => bitAt r.near i && decide (i < (s.ctx c).clusterMap.length)).map (s.physCluster c)
    let dist (b : Nat) : Nat := (near.map fun p => meshDistance p (b / 4)).foldl min 64
    sortBy id (((sortBy (fun b => dist b * 256 + b) (List.range 192))).take r.nbank)

/-- A bank can give a husk its shares and leave husk 0 one (R361). -/
def State.bankHasShares (s : State) (husk shares bank : Nat) : Bool :=
  let own := if husk = 0 then 0 else (s.sharesOf bank (.husk husk)).length
  decide (shares ≤ own) || decide (shares - own < (s.sharesOf bank (.husk 0)).length)

/-- The shares that the context's husks would have stay within its quota, where one is set (R361, log 34). -/
def State.quotaAllows (s : State) (c : Nat) (r : HuskRec) (banks : List Nat) : Bool :=
  let others := (s.fab.husks.filter fun h => h.ctx == c && h.num != r.husk).map fun h => h.shares * h.banks.length
  (s.ctx c).shareQuota.all fun q => others.foldl (· + ·) 0 + r.shares * banks.length ≤ q

/-- The STATUS of a record: of several the lowest (R361, log 34). -/
def State.huskStatus (s : State) (c : Nat) (r : HuskRec) (banks : List Nat) : Nat :=
  let def_ := s.huskDef r.husk
  if s.huskFieldsBad r then 1
  else if !banks.all (s.bankHasShares r.husk r.shares) || !s.quotaAllows c r banks then 2
  else if r.husk ≠ 0 && def_.oldBanks.isSome then 3
  else if (r.husk ≠ 0 && def_.ctx ≠ c) || r.cls = 2 || (r.cls = 1 && (r.policy = 2 || (s.remoteHusk.any fun h => h != r.husk))) then 4
  else if r.husk = 0 && s.fab.husks.length ≥ 63 then 5
  else 0

/-- A husk has `n` shares of a bank: what it lacks comes empty from husk 0, what it has too many goes back empty (R367). -/
def State.fitShares (s : State) (husk n bank : Nat) : State :=
  let own := s.sharesOf bank (.husk husk)
  let free := s.sharesOf bank (.husk 0)
  let more := free.take (n - own.length)
  let less := own.drop n
  let s := more.foldl (fun s i => (s.emptyShare bank i).setShare bank i (.husk husk)) s
  less.foldl (fun s i => (s.emptyShare bank i).setShare bank i (.husk 0)) s

/-- A change to write-through writes the husk's dirty lines back (R367). -/
def State.cleanHusk (s : State) (husk : Nat) : State :=
  let lines := s.fab.l2.filter fun x => x.husk == husk && (x.dirty || s.isPeer (256 * x.line))
  let s := lines.foldl State.writeBackLine s
  let s := if s.remoteHusk = some husk then (s.mem.rdc.map RdcSector.sec).foldl State.rdcWriteBack s else s
  { s with fab := { s.fab with l2 := s.fab.l2.map fun x => if x.husk = husk then { x with dirty := false } else x } }

/-- An accepted definition (R361, R367, R368): its number and generation. -/
def State.defineHusk (s : State) (c : Nat) (r : HuskRec) (banks : List Nat) : Nat × Nat × State :=
  let num := if r.husk ≠ 0 then r.husk else
    ((firstBelow (fun n => !(s.fab.husks.any fun h => h.num == n + 1)) 63).getD 0) + 1
  let old := s.fab.husks.find? fun h => h.num == num
  let gen := ((old.map Husk.gen).getD 0) + 1
  let s := banks.foldl (fun s b => s.fitShares num r.shares b) s
  let s := if r.policy = 1 && (old.any fun h => h.policy == 0) then s.cleanHusk num else s
  let moved := match old with
    | some h => if h.banks = banks then none else some h.banks
    | none => none
  let new : Husk := { num := num, ctx := c, banks := banks, shares := r.shares, fill := r.fill, policy := r.policy, cls := r.cls
                      gen := gen, oldBanks := moved }
  (num, gen, { s with fab := { s.fab with husks := new :: s.fab.husks.filter fun h => h.num != num } })

/-- HUSK_DEFINE: STATUS, HUSK and GEN are written back; a record that is not accepted changes nothing (R361, R409). -/
def execHuskDefine (c : Cmd) (s : State) : Host.Outcome State Fault Refusal :=
  event <|
    let ctx := s.cmdCtx c
    match s.cpRead ctx c.addr.toNat 64 with
    | none => s.reply c 2 0x22
    | some b =>
      let r := huskRecord b
      let banks := s.huskBanksOf ctx r
      let status := s.huskStatus ctx r banks
      if status ≠ 0 then (s.cpWrite ctx (c.addr.toNat + 38) (bytesOf 2 status)).reply c 2 0x20
      else
        let (num, gen, s) := s.defineHusk ctx r banks
        let s := s.cpWrite ctx (c.addr.toNat + 37) (bytesOf 1 num ++ bytesOf 2 0 ++ bytesOf 8 gen)
        s.reply c 2 0x20

/-! ### Graphs (R236, R282, R409) -/

/-- The node entries of a graph descriptor. -/
structure NodeRec where
  kernel : Nat
  cont : Nat
  ancestors : Nat
  roles : Nat
  spare : Nat
deriving DecidableEq, Repr

def nodeRecord (b : List Byte) : NodeRec :=
  { kernel := fieldAt b 0 2, cont := fieldAt b 2 1, ancestors := fieldAt b 8 8, roles := fieldAt b 16 16
    spare := fieldAt b 3 5 + fieldAt b 40 8 }

/-- Node `j` is an ancestor of node `i`; bit i of its own entry is ignored. -/
def isAncestor (l : List NodeRec) (i j : Nat) : Bool :=
  i != j && (l[i]?).any fun n => bitAt n.ancestors j

/-- ANCESTORS describes a strict partial order of the nodes (R282). -/
def ancestorsOk (l : List NodeRec) : Bool :=
  let ns := List.range l.length
  ns.all fun i => ((l[i]?).any fun n => n.ancestors >>> l.length == 0) && ns.all fun j =>
    !(isAncestor l i j) || (!(isAncestor l j i) && ns.all fun k => !(isAncestor l j k) || isAncestor l i k)

/-- A node's kernel and pod meet R282. -/
def nodeOk (n : NodeRec) (k : Kernel) (depth : Nat) : Bool :=
  k.node && n.cont ≤ 1 && n.spare == 0 && k.depthLimit == depth && (n.cont == 0 || k.record == 32)
    && decide ((k.threshold + 31) / 32 * 32 * k.record ≤ k.scratch)

/-- The descriptor's nodes with their kernels, where R282 accepts it. -/
def State.graphNodes (s : State) (c va : Nat) (head : List Byte) : Option (List (NodeRec × Kernel)) :=
  let n := fieldAt head 4 1
  let size := fieldAt head 16 8
  if n = 0 ∨ 64 < n ∨ fieldAt head 5 3 ≠ 0 ∨ fieldAt head 24 40 ≠ 0 ∨ fieldAt head 8 8 % 65536 ≠ 0
      ∨ size % 65536 ≠ 0 ∨ size < 65536 ∨ 2 ^ 32 < size then none
  else match s.cpRead c (va + 64) (48 * n) with
    | none => none
    | some b =>
      let nodes := (List.range n).map fun i => nodeRecord ((b.drop (48 * i)).take 48)
      let pairs := nodes.filterMap fun x => (s.kernelOf c (fieldAt head 0 4) x.kernel).map fun k => (x, k)
      let depth := ((pairs.head?).map fun e => e.2.depthLimit).getD 0
      if pairs.length = n && ancestorsOk nodes && pairs.all fun e => nodeOk e.1 e.2 depth then some pairs else none

/-- Free indices of a context's pod table. -/
def State.freePods (s : State) (c : Nat) : List Nat :=
  let used := (s.graphs.filter fun g => g.ctx == c && g.live).flatMap fun g => g.pods.map Pod.idx
  (List.range 4096).filter fun i => !used.contains i

/-- The next generation of a pod-table index: 1 to 65,535. -/
def nextPodGen (last : Nat) : Nat := if 65535 ≤ last then 1 else last + 1

/-- GRAPH_CREATE: the pods are made, their handles written into the nodes' entries, and the graph handle returned
(R236, R282). -/
def execGraphCreate (c : Cmd) (s : State) : Host.Outcome State Fault Refusal :=
  event <|
    let ctx := s.cmdCtx c
    match s.cpRead ctx c.addr.toNat 64 with
    | none => s.reply c 3 0x22
    | some head =>
      match s.graphNodes ctx c.addr.toNat head with
      | none => s.reply c 3 0x22
      | some nodes =>
        let free := (s.freePods ctx).take nodes.length
        if free.length < nodes.length then s.reply c 3 0x22
        else
          let g := s.graphs.length
          let gens := free.map fun i => nextPodGen (lookupD 0 (s.ctx ctx).podGens i)
          let pods := (List.range nodes.length).filterMap fun i => (nodes[i]?).map fun e =>
            ({ idx := free.getD i 0, kernel := e.1.kernel, cont := e.1.cont == 1, ancestors := BitVec.ofNat 64 e.1.ancestors
               roles := e.1.roles, gen := gens.getD i 0 } : Pod)
          let s := s.modCtx ctx fun x => { x with podGens := (free.zip gens).foldl (fun t e => assign t e.1 e.2) x.podGens }
          let new : Graph := { ctx := ctx, image := fieldAt head 0 4, poolSize := fieldAt head 16 8, pods := pods }
          let s := { s with graphs := s.graphs ++ [new] }
          let s := (List.range pods.length).foldl (fun s i =>
            let p := pods.getD i default
            s.cpWrite ctx (c.addr.toNat + 64 + 48 * i + 32) (bytesOf 8 (p.idx + 2 ^ 12 * p.gen + 2 ^ 32 * g))) s
          s.reply c 3 0x20 g

/-- GRAPH_DESTROY (R409). -/
def execGraphDestroy (c : Cmd) (s : State) : Host.Outcome State Fault Refusal :=
  event <|
    let g := c.arg 0
    if s.graphs.length ≤ g || !(s.graph g).live || (s.graph g).ctx ≠ s.cmdCtx c then s.reply c 4 0x22
    else if s.launches.any fun l => l.graph == some g && !l.completed then s.reply c 4 0x24
    else (s.modGraph g fun x => { x with live := false }).reply c 4 0x20

/-! ### Trace mark, counters and slots (R397, R409, R420, R134, R103) -/

/-- TRACE_MARK: a MARK entry with the host's timestamp and value (R397). -/
def execTraceMark (c : Cmd) (s : State) : Host.Outcome State Fault Refusal :=
  event ((s.traceEntry 6 1 (s.cmdCtx c) (bytesOf 8 (c.arg 0) ++ bytesOf 8 (c.arg 1))).reply c 5 0x20)

/-- PERF_CONFIG: eight configurations of 16 bits; reserved bits stay 0 (R420). -/
def execPerfConfig (c : Cmd) (s : State) : Host.Outcome State Fault Refusal :=
  event <|
    let x := c.arg 0 + 2 ^ 64 * c.arg 1
    let cfg (n : Nat) : BitVec 16 := BitVec.ofNat 16 (bits x (16 * n + 10) (16 * n))
    let set (l : List Perf) : List Perf := (List.range 8).map fun n => { l.getD n {} with cfg := cfg n }
    (s.modCtx (s.cmdCtx c) fun y => { y with perf := set y.perf }).reply c 6 0x20

/-- PERF_READ: PERF0-PERF7 with their overflow bits, which ARG0 bit 0 clears (R134, R409). -/
def execPerfRead (c : Cmd) (s : State) : Host.Outcome State Fault Refusal :=
  event <|
    let ctx := s.cmdCtx c
    let words := (List.range 8).flatMap fun n =>
      let p := (s.ctx ctx).perf.getD n {}
      bytesOf 8 (p.count.toNat + 2 ^ 48 * p.overflow.toNat)
    match s.vaRange ctx c.addr.toNat 64 with
    | none => s.reply c 7 0x22
    | some _ =>
      let s := s.cpWrite ctx c.addr.toNat words
      let s := if bitAt (c.arg 0) 0 then
          s.modCtx ctx fun x => { x with perf := x.perf.map fun (p : Perf) => { p with overflow := false } }
        else s
      s.reply c 7 0x20

/-- SLOT_CONFIG: FMT and MARGIN, and on demand the entries and NAN cleared; BUSY while a launch of the context is open
(R103, R409). DESIGN CHOICE (log 77): clearing the entries sets HEAD to 0 as well, which the spec does not say. -/
def execSlotConfig (c : Cmd) (s : State) : Host.Outcome State Fault Refusal :=
  event <|
    let ctx := s.cmdCtx c
    let x := c.arg 0
    let set (y : Slot) : Slot :=
      let y := if bitAt x 12 then { y with count := 0, head := 0, nan := false, entries := [] } else y
      { y with fmt := BitVec.ofNat 2 (bits x 7 6), margin := BitVec.ofNat 4 (bits x 11 8) }
    if !(s.openLaunches ctx).isEmpty then s.reply c 8 0x24
    else if x >>> 13 ≠ 0 then s.reply c 8 0x22
    else (s.modCtx ctx fun y => { y with slots := putAt {} y.slots (bits x 5 0) (set (y.slots.getD (bits x 5 0) {})) }).reply c 8 0x20

/-! ### Pools and roots (R303, R310, R316, R409) -/

/-- POOL_SET: the context's pool and quota; the ring is checked at once (R316). -/
def execPoolSet (c : Cmd) (frames : List (BitVec 48)) (s : State) : Host.Outcome State Fault Refusal :=
  event <|
    let ctx := s.cmdCtx c
    match s.poolHeader ctx c.addr.toNat with
    | none => s.reply c 9 0x22
    | some _ =>
      let s := s.modCtx ctx fun x => { x with pool := some c.addr.toNat, quota := c.arg 0 }
      let s := if s.poolLow ctx then (s.refillPool ctx c.addr.toNat frames).2 else s
      s.reply c 9 0x20

/-- S1ROOT_SET: the stage-1 root, with a stage-1 shootdown of the context; BUSY while a launch of it is open (R303, R409). -/
def execS1rootSet (c : Cmd) (s : State) : Host.Outcome State Fault Refusal :=
  event <|
    let ctx := s.cmdCtx c
    let root := c.arg 0
    if !(s.openLaunches ctx).isEmpty then s.reply c 0x0A 0x24
    else if root % 2 ^ 17 ≠ 0 ∨ 2 ^ 48 ≤ root then s.reply c 0x0A 0x22
    else
      let s := s.modCtx ctx fun x => { x with s1root := some root }
      let s := s.dropTranslations ctx (fun _ => true) fun _ => true
      (s.tellLinked (s.ctx ctx).asid 0 (2 ^ 56)).reply c 0x0A 0x20

/-! ### Contexts and functions (R322, R324, R409, R418) -/

/-- Pairs named by a mask of 24 bits. -/
def pairsOf (mask : Nat) : List Nat := (List.range 24).filter (bitAt mask)

/-- The clusters of some pairs, in ascending order (log 12). -/
def clustersOf (pairs : List Nat) : List Nat := pairs.flatMap fun p => [2 * p, 2 * p + 1]

/-- The lowest 2 GiB block of local memory below the command processor's frames that no context has and that none of the device's
own rings reaches (log 12). -/
def State.freeBlock (s : State) : Option Nat :=
  let taken (b : Nat) : Bool := s.ctxs.any fun x => x.alive && x.block == some b
  let own (b : Nat) : Bool :=
    meets (2 ^ 31 * b) (2 ^ 31) s.trace.base.toNat (2 ^ s.trace.log2) || meets (2 ^ 31 * b) (2 ^ 31) s.cp.dumpBase.toNat (2 ^ 30)
      || meets (2 ^ 31 * b) (2 ^ 31) s.rel.base.toNat (64 * s.rel.size.toNat)
  firstBelow (fun b => !taken b && !own b) 96

/-- The frames of a 2 GiB block of local memory. -/
def State.inBlock (s : State) (b frame : Nat) : Bool := !s.isPeer (65536 * frame) && 65536 * frame % 2 ^ 40 / 2 ^ 31 == b

/-- The stage-2 tables of a new context: a 2 GiB leaf that maps the context's own block, which is scrubbed, to itself; what else
it touches is mapped on demand (R303-R305, R312, R324, log 12). -/
def State.buildStage2 (s : State) (root : Nat) (block : Option Nat) : State :=
  let table := root + 65536
  let base := s.localPa 0
  let s := s.writeEntry (root + 8 * tableIndex 2 1 base) (tableEntry table)
  match block with
  | none => s
  | some b =>
    (List.range 4).foldl (fun s i =>
      s.writeEntry (table + 8 * tableIndex 2 2 (base + 2 ^ 31 * b + i * 2 ^ 29)) (leafEntry (base + 2 ^ 31 * b) 3)) (s.scrubAll (s.inBlock b))

/-- A queue pair changed. -/
def State.modQueue (s : State) (fn queue : Nat) (f : Queue → Queue) : State :=
  s.modFunc fn fun x => { x with queues := modAt f x.queues queue }

/-- Whether a new context of a function may have a partition (R322, R409). -/
def State.partitionOk (s : State) (fn : Nat) (pairs : List Nat) : Bool :=
  !pairs.isEmpty && (fn == 0 || pairs == (s.func fn).pairs)

/-- CTX_CREATE: the lowest free number; its queues are bound, its ASID assigned and its stage-2 tables built (R409). -/
def execCtxCreate (c : Cmd) (asid : BitVec 16) (s2root : Nat) (s : State) : Host.Outcome State Fault Refusal :=
  event <|
    let fn := bits (c.arg 0) 3 0
    let queues := (List.range 8).filter fun q => bitAt (c.arg 0) (8 + q)
    let pairs := pairsOf (c.arg 1)
    let free := firstBelow (fun n => (s.ctxs[n]?).all fun x => !x.alive) 256
    let bound := queues.any fun q => ((s.func fn).queues.getD q {}).bound
    match free with
    | none => s.reply c 0x40 0x22
    | some n =>
      if c.arg 1 >>> 24 ≠ 0 ∨ bits (c.arg 0) 7 4 ≠ 0 ∨ c.arg 0 >>> 16 ≠ 0 ∨ bound ∨ !s.partitionOk fn pairs then s.reply c 0x40 0x22
      else
        let out := (s.func fn).slice ≠ 0 && s.ctxs.any fun x => x.alive && !x.switchedOut && x.fn != fn && x.clusterMap == clustersOf pairs
        let new : Context := {
          fn := fn, asid := asid, s2root := s2root, clusterMap := clustersOf pairs, slacktab := slackDefaults
          perf := List.replicate 8 {}, slots := List.replicate 64 {}, huskMap := List.replicate 16 0, switchedOut := out
          block := s.freeBlock }
        let dead : Context := { alive := false }
        let s := { s with ctxs := putAt dead s.ctxs n new, fab := { s.fab with peerTable := assign s.fab.peerTable asid.toNat n } }
        let s := ((s.scrub (s2root / 65536)).scrub (s2root / 65536 + 1)).buildStage2 s2root new.block
        let s := queues.foldl (fun s q => s.modQueue fn q fun x => { x with ctx := n, bound := true }) s
        s.reply c 0x40 0x20 n

/-- A launch of a context that is destroyed ends ABORTED where it stands (R418). -/
def State.destroyLaunch (s : State) (l : Nat) : State :=
  let s := (s.launchWaves l).foldl State.killSilently s
  let s := { s with emits := s.emits.filter fun r => (s.wave r.wave).launch != l && !(r.seed && (s.launch l).graph == some r.graph) }
  s.endLaunch l .aborted 2

/-- A context is destroyed: its launches end ABORTED, what it holds goes, its mappings go here and on every linked device, and its
frames, those of its stage-2 tables with them, are scrubbed (R324, R418). -/
def State.destroyContext (s : State) (c : Nat) : State :=
  let asid := (s.ctx c).asid
  let s := (s.openLaunches c).foldl State.destroyLaunch s
  let s := (s.tellLinked asid 0 (2 ^ 56))
  let s := { s with
    saves := s.saves.filter fun e => (s.group e.group).ctx != c
    copies := s.copies.map fun (q : CopyQueue) => { q with entries := q.entries.filter fun x => x.ctx != c }
    atomics := s.atomics.filter fun r => r.ctx != c
    joined := s.joined.filter fun e => e.1 != c
    graphs := s.graphs.map fun (g : Graph) => if g.ctx = c then { g with live := false } else g
    images := s.images.map fun (x : Image) => if x.ctx = c then { x with live := false } else x
    fab := { s.fab with peerTable := s.fab.peerTable.filter fun e => e.2 != c }
    cores := s.cores.map fun (x : Core) => { x with tlb := x.tlb.filter fun e => e.asid != asid } }
  let frames := (s.cp.owned.filter fun e => e.1 == c).map Prod.snd
  let s2 := (s.ctx c).s2root / 65536
  let block := (s.ctx c).block
  let s := s.scrubAll fun f => frames.contains f || f == s2 || f == s2 + 1 || block.any fun b => s.inBlock b f
  let s := { s with cp := { s.cp with owned := s.cp.owned.filter (fun e => e.1 != c), freeFrames := s.cp.freeFrames ++ frames } }
  let unbind (q : Queue) : Queue := if q.bound && q.ctx == c then { q with bound := false, ctx := 0 } else q
  let s := { s with cp := { s.cp with funcs := s.cp.funcs.map fun (f : Func) => { f with queues := f.queues.map unbind } } }
  s.modCtx c fun x => { x with alive := false, pool := none, barriers := [], tokens := [], block := none }

/-- CTX_DESTROY (R409, R418). -/
def execCtxDestroy (c : Cmd) (s : State) : Host.Outcome State Fault Refusal :=
  event <|
    let n := c.arg 0
    if s.ctxs.length ≤ n || !(s.ctx n).alive then s.reply c 0x41 0x22
    else (s.destroyContext n).reply c 0x41 0x20

/-- VF_ASSIGN: a spatial partition, or a share of a time-sliced one; a context that the function already has there waits for its
slice while another function has the partition (R322, R409, log 12). -/
def execVfAssign (c : Cmd) (s : State) : Host.Outcome State Fault Refusal :=
  event <|
    let fn := c.arg 0
    let sliced := bitAt (c.arg 1) 0
    let pairs := pairsOf (c.arg 2)
    let others := (List.range 16).filter fun f => f != fn && f != 0 && !(s.func f).pairs.isEmpty
    let meet (f : Nat) : Bool := (s.func f).pairs.any pairs.contains
    let same (f : Nat) : Bool := (s.func f).slice != 0 && (s.func f).pairs == pairs
    let clash := others.any fun f => meet f && !(sliced && same f)
    let slice := c.arg 3
    if fn = 0 ∨ 16 ≤ fn ∨ 1 < c.arg 1 ∨ c.arg 2 >>> 24 ≠ 0 ∨ pairs = [] ∨ clash
        ∨ (if sliced then slice < 100 || 100000 < slice || 15 ≤ others.countP same else slice != 0) then s.reply c 0x42 0x22
    else
      let waits (x : Context) : Bool := sliced && x.alive && x.fn == fn && s.ctxs.any fun y =>
        y.alive && !y.switchedOut && y.fn != fn && y.clusterMap == x.clusterMap
      let s := { s with ctxs := s.ctxs.map fun (x : Context) => if waits x then { x with switchedOut := true } else x }
      (s.modFunc fn fun f => { f with pairs := pairs, slice := slice, since := s.lc }).reply c 0x42 0x20

end Sys2Proof.Machine
end

