-- ==== Sys2Proof/Machine/VecInt.lean ====
section
/-! DEFINITION. Vector forms and integer arithmetic (05 R142-R147). -/

namespace Sys2Proof

open Machine

/-- An exact integer result finished into an element by R77. -/
def VOp.finish (o : VOp) (i : Int) : Nat := storeInt o.et.isSigned o.sat o.et.width i

/-- The exact integer function `f` of two elements, finished by R77. -/
def VOp.int2 (o : VOp) (f : Int → Int → Int) (x y : Nat) : Nat := o.finish (f (elemInt o.et x) (elemInt o.et y))

/-- VDIV's element (R78): all ones for a zero divisor, otherwise truncated toward zero and finished. -/
def VOp.quotient (o : VOp) (x y : Nat) : Nat := if y = 0 then 2 ^ o.et.width - 1 else o.int2 Int.tdiv x y

/-- VREM's element (R78). -/
def VOp.remainder (o : VOp) (x y : Nat) : Nat := if y = 0 then x else o.int2 Int.tmod x y

/-- One element function applied to Va. -/
def VOp.map1 (o : VOp) (f : Nat → Nat) (w : Wave) : VReg :=
  vregOf fun l => mapElems o.et.width f (laneOf (w.readV o.a.toNat) l)

/-- One element function applied to Va and the b operand. -/
def VOp.map2 (o : VOp) (f : Nat → Nat → Nat) (w : Wave) : VReg :=
  vregOf fun l => zipElems o.et.width f (laneOf (w.readV o.a.toNat) l) (laneOf (w.bsrc o.et o.b) l)

/-- One element function applied to Va, the b operand and Vc. -/
def VOp.map3 (o : VOp) (f : Nat → Nat → Nat → Nat) (w : Wave) : VReg :=
  vregOf fun l => zipElems3 o.et.width f (laneOf (w.readV o.a.toNat) l) (laneOf (w.bsrc o.et o.b) l)
    (laneOf (w.readV o.c.toNat) l)

/-- A bitwise function of whole lanes of Va and the b operand. -/
def VOp.bitwise (o : VOp) (f : Word → Word → Word) (w : Wave) : VReg :=
  vregOf fun l => f (laneOf (w.readV o.a.toNat) l) (laneOf (w.bsrc o.et o.b) l)

end Sys2Proof

namespace Sys2Proof.Machine

/-- A short lane-wise result: `f` gives the lanes, and the active ones are written (R56, R57, R142). -/
def vecOp (i : Instr) (o : VOp) (f : Wave → VReg) (s : State) : Host.Outcome State Fault Refusal :=
  regOp i s fun w => w.writeLanes (w.governing o.pn o.pi) o.d.toNat (f w)

/-- A long lane-wise result (R57): the register receives the active lanes at a switch point. -/
def vecLong (i : Instr) (o : VOp) (f : Wave → VReg) (s : State) : Host.Outcome State Fault Refusal :=
  regOp i s fun w =>
    w.long (.v o.d.toNat) (.v (mergeLanes (w.governing o.pn o.pi) (f w) (w.readV o.d.toNat)))

/-- A quotient of magnitudes rounded by RM (R89). -/
def roundDiv (rm : RM) (i : Int) (n : Nat) : Int :=
  let q := i.natAbs / n
  let m := if roundsUp rm (i < 0) q (i.natAbs % n) n 0 then q + 1 else q
  if i < 0 then -(m : Int) else m

/-- An element rotated right (R147). -/
def rotElem (w x k : Nat) : Nat := ((x >>> k) ||| (x <<< (w - k))) % 2 ^ w

/-- Integer minimum or maximum by the type's signedness. -/
def intMinMax (t : ET) (isMax : Bool) (x y : Nat) : Nat := if (elemInt t x ≤ elemInt t y) != isMax then x else y

/-- VADD: x + y, finished by R77 (R146). -/
def execVadd (o : VOp) (s : State) : Host.Outcome State Fault Refusal :=
  vecOp (.vadd o) o (o.map2 (o.int2 fun x y => x + y)) s

/-- VSUB: x − y, finished by R77 (R146). -/
def execVsub (o : VOp) (s : State) : Host.Outcome State Fault Refusal :=
  vecOp (.vsub o) o (o.map2 (o.int2 fun x y => x - y)) s

/-- VMUL: x × y, finished by R77 (R146). -/
def execVmul (o : VOp) (s : State) : Host.Outcome State Fault Refusal :=
  vecOp (.vmul o) o (o.map2 (o.int2 fun x y => x * y)) s

/-- VMULH: the high half of the product, floor(x × y / 2^w) (R146). -/
def execVmulh (o : VOp) (s : State) : Host.Outcome State Fault Refusal :=
  vecOp (.vmulh o) o (o.map2 (o.int2 fun x y => x * y / (2 ^ o.et.width : Nat))) s

/-- VMAD: x × y + z with one finish (R146). -/
def execVmad (o : VOp) (s : State) : Host.Outcome State Fault Refusal :=
  vecOp (.vmad o) o (o.map3 fun x y z => o.finish (elemInt o.et x * elemInt o.et y + elemInt o.et z)) s

/-- VMIN (R146). -/
def execVmin (o : VOp) (s : State) : Host.Outcome State Fault Refusal :=
  vecOp (.vmin o) o (o.map2 (intMinMax o.et false)) s

/-- VMAX (R146). -/
def execVmax (o : VOp) (s : State) : Host.Outcome State Fault Refusal :=
  vecOp (.vmax o) o (o.map2 (intMinMax o.et true)) s

/-- VABS: the absolute value, finished by R77 (R146). -/
def execVabs (o : VOp) (s : State) : Host.Outcome State Fault Refusal :=
  vecOp (.vabs o) o (o.map1 fun x => o.finish (elemInt o.et x).natAbs) s

/-- VNEG: −x, finished by R77 (R146). -/
def execVneg (o : VOp) (s : State) : Host.Outcome State Fault Refusal :=
  vecOp (.vneg o) o (o.map1 fun x => o.finish (-elemInt o.et x)) s

/-- VABSD: abs(x − y) as an unsigned element (R146). -/
def execVabsd (o : VOp) (s : State) : Host.Outcome State Fault Refusal :=
  vecOp (.vabsd o) o (o.map2 fun x y => (elemInt o.et x - elemInt o.et y).natAbs) s

/-- VAVG: (x + y) / 2 rounded by RM (R146). -/
def execVavg (o : VOp) (s : State) : Host.Outcome State Fault Refusal :=
  vecOp (.vavg o) o (o.map2 (o.int2 fun x y => roundDiv o.rm (x + y) 2)) s

/-- VDIV: the quotient of R78, a long write (R146). -/
def execVdiv (o : VOp) (s : State) : Host.Outcome State Fault Refusal :=
  vecLong (.vdiv o) o (o.map2 o.quotient) s

/-- VREM: the remainder of R78, a long write (R146). -/
def execVrem (o : VOp) (s : State) : Host.Outcome State Fault Refusal :=
  vecLong (.vrem o) o (o.map2 o.remainder) s

/-- VAND (R147). -/
def execVand (o : VOp) (s : State) : Host.Outcome State Fault Refusal :=
  vecOp (.vand o) o (o.bitwise fun x y => x &&& y) s

/-- VOR (R147). -/
def execVor (o : VOp) (s : State) : Host.Outcome State Fault Refusal :=
  vecOp (.vor o) o (o.bitwise fun x y => x ||| y) s

/-- VXOR (R147). -/
def execVxor (o : VOp) (s : State) : Host.Outcome State Fault Refusal :=
  vecOp (.vxor o) o (o.bitwise fun x y => x ^^^ y) s

/-- VANDN: x AND NOT y (R147). -/
def execVandn (o : VOp) (s : State) : Host.Outcome State Fault Refusal :=
  vecOp (.vandn o) o (o.bitwise fun x y => x &&& ~~~y) s

/-- VNOT (R147). -/
def execVnot (o : VOp) (s : State) : Host.Outcome State Fault Refusal :=
  vecOp (.vnot o) o (fun w => vregOf fun l => ~~~laneOf (w.readV o.a.toNat) l) s

/-- VSHL: x << (y mod w) (R147, R79). -/
def execVshl (o : VOp) (s : State) : Host.Outcome State Fault Refusal :=
  vecOp (.vshl o) o (o.map2 fun x y => x <<< (y % o.et.width)) s

/-- VSHR: x >> (y mod w), zero fill (R147, R79). -/
def execVshr (o : VOp) (s : State) : Host.Outcome State Fault Refusal :=
  vecOp (.vshr o) o (o.map2 fun x y => x >>> (y % o.et.width)) s

/-- VSAR: x >> (y mod w), sign fill for every ET (R147, R79). -/
def execVsar (o : VOp) (s : State) : Host.Outcome State Fault Refusal :=
  vecOp (.vsar o) o (o.map2 fun x y => wrapTo o.et.width (toSigned o.et.width x >>> (y % o.et.width))) s

/-- VROT: x rotated right by y mod w (R147, R79). -/
def execVrot (o : VOp) (s : State) : Host.Outcome State Fault Refusal :=
  vecOp (.vrot o) o (o.map2 fun x y => rotElem o.et.width x (y % o.et.width)) s

/-- VCLZ: leading zeros within w bits (R147). -/
def execVclz (o : VOp) (s : State) : Host.Outcome State Fault Refusal :=
  vecOp (.vclz o) o (o.map1 (leadZeros o.et.width)) s

/-- VPOPC: number of 1 bits (R147). -/
def execVpopc (o : VOp) (s : State) : Host.Outcome State Fault Refusal :=
  vecOp (.vpopc o) o (o.map1 fun x => popCount (BitVec.ofNat 64 x)) s

end Sys2Proof.Machine
end

