-- ==== Sys2Proof/Machine/Cross.lean ====
section
/-! DEFINITION. Cross-lane and workload instructions (03 R109-R111, 05 R157-R165). -/

namespace Sys2Proof

/-! ### Reductions (R109-R111, R161) -/

/-- One combining step on two elements (R161). -/
def RedOp.step (op : RedOp) (t : ET) (rm : RM) (sat : Bool) (x y : Nat) : Nat :=
  match op with
  | .add =>
    if t.isFloat then t.fmt.addC rm sat x y else storeInt t.isSigned sat t.width (elemInt t x + elemInt t y)
  | .min => if t.isFloat then t.fmt.minMax false x y else if elemInt t x ≤ elemInt t y then x else y
  | .max => if t.isFloat then t.fmt.minMax true x y else if elemInt t x ≤ elemInt t y then y else x
  | .and => x &&& y
  | .or => x ||| y
  | .xor => x ^^^ y

/-- +infinity of a format, or its largest finite value where it has none (R111, R161). -/
def Fmt.top (f : Fmt) : Nat := f.infCode.getD f.maxFinite

/-- The identity of an operator (R111). -/
def RedOp.identity (op : RedOp) (t : ET) : Nat :=
  match op with
  | .add => if t.isFloat then t.fmt.code true 0 else 0
  | .min => if t.isFloat then t.fmt.top else wrapTo t.width (maxOf t.isSigned t.width)
  | .max => if t.isFloat then t.fmt.code true t.fmt.top else wrapTo t.width (minOf t.isSigned t.width)
  | .and => 2 ^ t.width - 1
  | .or | .xor => 0

/-- The distances of a butterfly and of a scan (R109, R110). -/
def distances : List Nat := [1, 2, 4, 8, 16]

/-- The butterfly of R109 on whole lanes. -/
def butterfly (w : Nat) (f : Nat → Nat → Nat) (v : VReg) : VReg :=
  distances.foldl (fun v d => vregOf fun l =>
    let low := if l.testBit d.log2 then l - d else l
    zipElems w f (laneOf v low) (laneOf v (low + d))) v

/-- The inclusive scan of R110 on whole lanes. -/
def scan (w : Nat) (f : Nat → Nat → Nat) (v : VReg) : VReg :=
  distances.foldl (fun v d => vregOf fun l =>
    if d ≤ l then zipElems w f (laneOf v (l - d)) (laneOf v l) else laneOf v l) v

/-- NaNs of a floating type in their canonical form (R83). -/
def ET.canonical (t : ET) (v : VReg) : VReg :=
  if t.isFloat then v.map (mapElems t.width fun c => if t.fmt.isNaN c then t.fmt.nan else c) else v

end Sys2Proof

namespace Sys2Proof.Machine

/-! ### Movers (R157-R160) -/

/-- The nearest active lane at or below one (R157). -/
def fallThrough (g : Mask) : Nat → Option Nat
  | 0 => if g.getLsbD 0 then some 0 else none
  | l + 1 => if g.getLsbD (l + 1) then some (l + 1) else fallThrough g l

/-- The sub-element that an address names under a governing mask, or the identity (R157). -/
def resolveElem (t : ET) (g : Mask) (src : VReg) (identity : Nat) (a : Nat) : Nat :=
  match fallThrough g (a % (lanes * t.count) / t.count) with
  | some l => elemOf t.width (laneOf src l) (a % t.count)
  | none => identity

/-- A cross-lane mover: `addr l j` is the source address of sub-element j of lane l, none for the identity (R157, R158). -/
def moveLanes (o : VOp) (w : Wave) (addr : Nat → Nat → Option Nat) : VReg :=
  let g := w.governing o.pn o.pi
  let identity := (w.readS o.c.toNat).toNat % 2 ^ o.et.width
  vregOf fun l => packElems o.et.width ((List.range o.et.count).map fun j =>
    match addr l j with
    | some a => resolveElem o.et g (w.readV o.a.toNat) identity a
    | none => identity)

/-- Address j of lane l of VXREAD, in register b or its run (R159). -/
def xreadAddr (o : VOp) (w : Wave) (l j : Nat) : Nat :=
  match o.b with
  | .v b =>
    if o.et.count ≤ 4 then elemOf o.et.width (laneOf (w.readV b.toNat) l) j
    else elemOf 16 (laneOf (w.readV (b.toNat + j / 4)) l) (j % 4)
  | .s _ | .imm _ => 0

/-- The signed shift of VXSHF (R158, R159). -/
def shiftAmount (o : VOp) (w : Wave) : Int :=
  match o.b with
  | .s b => (w.readS b.toNat).toInt
  | .imm i => i.toInt
  | .v _ => 0

/-- The lane mask of VXBFLY (R158). -/
def butterflyMask (o : VOp) : Nat :=
  match o.b with
  | .imm i => i.toNat
  | .v _ | .s _ => 0

/-- VXREAD: any sub-element of Va by address, a long write (R157-R159). -/
def execVxread (o : VOp) (s : State) : Host.Outcome State Fault Refusal :=
  vecLong (.vxread o) o (fun w => moveLanes o w fun l j => some (xreadAddr o w l j)) s

/-- VXSHF: the sub-element of lane l − shift, a long write (R158). -/
def execVxshf (o : VOp) (s : State) : Host.Outcome State Fault Refusal :=
  vecLong (.vxshf o) o (fun w => moveLanes o w fun l j =>
    let from_ : Int := (l : Int) - shiftAmount o w
    if 0 ≤ from_ ∧ from_ ≤ 31 then some (o.et.count * from_.toNat + j) else none) s

/-- VXBFLY: the sub-element of lane l XOR m, a long write (R158). -/
def execVxbfly (o : VOp) (s : State) : Host.Outcome State Fault Refusal :=
  vecLong (.vxbfly o) o (fun w => moveLanes o w fun l j => some (o.et.count * (l ^^^ butterflyMask o) + j)) s

/-- VBALLOT: Pa AND the governing mask, zero-extended (R160). -/
def execVballot (o : VBallotF) (s : State) : Host.Outcome State Fault Refusal :=
  regOp (.vballot o) s fun w =>
    w.writeS o.d.toNat ((w.readP o.a.toNat &&& w.governing o.pn o.pi).setWidth 64)

/-! ### Reductions and scans (R161) -/

/-- Va with the identity in the lanes that are not active (R111). -/
def withIdentity (op : RedOp) (o : VOp) (w : Wave) : VReg :=
  mergeLanes (w.governing o.pn o.pi) (w.readV o.a.toNat)
    (List.replicate lanes (broadcast o.et.width (BitVec.ofNat 64 (op.identity o.et))))

/-- VXRED: the butterfly's value in every active lane, a long write (R161). -/
def execVxred (op : RedOp) (o : VOp) (s : State) : Host.Outcome State Fault Refusal :=
  vecLong (.vxred op o) o (fun w => butterfly o.et.width (op.step o.et o.rm o.sat) (withIdentity op o w)) s

/-- VXSCAN: the scan, exclusive when X[0] = 1, a long write (R83, R110, R161). -/
def execVxscan (op : RedOp) (o : VOp) (s : State) : Host.Outcome State Fault Refusal :=
  vecLong (.vxscan op o) o (fun w =>
    let v := o.et.canonical (scan o.et.width (op.step o.et o.rm o.sat) (withIdentity op o w))
    if o.x then vregOf fun l =>
      if l = 0 then broadcast o.et.width (BitVec.ofNat 64 (op.identity o.et)) else laneOf v (l - 1)
    else v) s

/-! ### Add-compare-select and depthwise taps (R162, R163) -/

/-- The first register of the pair that the b operand names. -/
def pairB (o : VOp) : Nat :=
  match o.b with
  | .v b => b.toNat
  | .s _ | .imm _ => 0

/-- The two candidate metrics of an element, clamped (R162). -/
def acsMetric (o : VOp) (w : Wave) (cand l j : Nat) : Int :=
  clampTo (minOf true o.et.width) (maxOf true o.et.width)
    (toSigned o.et.width (elemOf o.et.width (laneOf (w.readV (o.a.toNat + cand)) l) j)
      + toSigned o.et.width (elemOf o.et.width (laneOf (w.readV (pairB o + cand)) l) j))

/-- Whether candidate 1 survives; a tie keeps candidate 0 (R162). -/
def acsTake (o : VOp) (w : Wave) (l j : Nat) : Bool :=
  if o.x then acsMetric o w 1 l j < acsMetric o w 0 l j else acsMetric o w 0 l j < acsMetric o w 1 l j

/-- VACS: survivor metric in Vd and decision in Vc (R162). -/
def execVacs (o : VOp) (s : State) : Host.Outcome State Fault Refusal :=
  regOp (.vacs o) s fun w =>
    let g := w.governing o.pn o.pi
    let each (f : Nat → Nat → Nat) : VReg :=
      vregOf fun l => packElems o.et.width ((List.range o.et.count).map (f l))
    let d := each fun l j => wrapTo o.et.width (acsMetric o w (acsTake o w l j).toNat l j)
    let c := each fun l j => (acsTake o w l j).toNat
    (w.writeLanes g o.d.toNat d).writeLanes g o.c.toNat c

/-- Accumulator k of a lane with its tap added, finished to 32 bits (R163). -/
def dwcElem (o : VOp) (w : Wave) (tap l k : Nat) : Nat :=
  let channel := k + 4 * o.x.toNat
  let elem (v : VReg) (l : Nat) : Int := toSigned o.et.width (elemOf o.et.width (laneOf v l) channel)
  storeInt true o.sat 32 (toSigned 32 (elemOf 32 (laneOf (w.readV (o.d.toNat + k / 2)) l) (k % 2))
    + elem (w.readV o.a.toNat) l * elem (w.readV (pairB o)) tap)

/-- VDWC: one tap added to four channel accumulators of each active lane; a tap above 31 is an ILLEGAL_OPERAND (R163). -/
def execVdwc (o : VOp) (s : State) : Host.Outcome State Fault Refusal :=
  issue (.vdwc o) s fun k s =>
    let w := s.wave k
    let tap := (w.readS o.c.toNat).toNat
    if 31 < tap then s.trapExec k 0x04
    else
      let g := w.governing o.pn o.pi
      let half (n : Nat) : VReg := vregOf fun l => packElems 32 [dwcElem o w tap l (2 * n), dwcElem o w tap l (2 * n + 1)]
      s.doneWith k (.vdwc o) fun w => (w.writeLanes g o.d.toNat (half 0)).writeLanes g (o.d.toNat + 1) (half 1)

/-! ### Window pooling (R164, R165) -/

/-- The window descriptor of Sb (R164). -/
structure Pool where
  kw : Nat
  kh : Nat
  sw : Nat
  dil : Nat
  padl : Nat
  ncolm : Nat
  rows : Nat
deriving DecidableEq, Repr

/-- The descriptor's fields, or none where they are illegal (R164). -/
def poolOf (x : Word) : Option Pool :=
  let n := x.toNat
  let p : Pool := { kw := bits n 2 0, kh := bits n 5 3, sw := bits n 8 6, dil := bits n 11 9, padl := bits n 16 12
                    ncolm := bits n 21 17, rows := bits n 28 22 }
  if p.kw = 0 ∨ p.kh = 0 ∨ p.sw = 0 ∨ p.dil = 0 ∨ bits n 63 29 ≠ 0 then none else some p

/-- The real positions of lane l's window, as row and lane (R165). -/
def Pool.positions (p : Pool) (l : Nat) : List (Nat × Nat) :=
  (List.range p.kh).flatMap fun r => (List.range p.kw).filterMap fun i =>
    let col : Int := ((l * p.sw + i * p.dil : Nat) : Int) - (p.padl : Int)
    if col < 0 ∨ (p.ncolm : Int) < col ∨ !p.rows.testBit r then none else some (r, col.toNat)

/-- VWMAX's element: the maximum of the real positions, or the identity (R111, R165). -/
def poolMax (t : ET) : List Nat → Nat
  | [] => RedOp.max.identity t
  | x :: l => l.foldl (RedOp.max.step t .rn false) (RedOp.max.step t .rn false x x)

/-- VWAVG's element: the exact mean of the real positions over `n`, rounded once (R165). DESIGN CHOICE (log 78): of a floating ET
without any real position the sum of nothing is +0, a sign that R165 does not settle. -/
def poolMean (t : ET) (n : Nat) (l : List Nat) : Nat :=
  if n = 0 ∨ l.isEmpty then 0
  else if t.isFloat then
    t.fmt.round .rn false 0 ((l.foldl (fun (a : FX) x => a.add .rn (t.fmt.decode x)) (FX.zero true)).div (.ofInt n))
  else wrapTo t.width (roundDiv .rn (l.foldl (fun a x => a + elemInt t x) 0) n)

/-- A pooling instruction: the descriptor's and the run's checks, then `f` on the real positions of each element (R164). -/
def pooling (i : Instr) (o : VOp) (f : Pool → List Nat → Nat) (s : State) : Host.Outcome State Fault Refusal :=
  issue i s fun k s =>
    let w := s.wave k
    match poolOf (w.readS (pairB o)) with
    | none => s.trapExec k 0x04
    | some p =>
      let run : Opnd := .run o.a.toNat p.kh 1
      if run.illegal then s.trapExec k 0x04
      else
        match w.checkRegs (w.regsOf run) with
        | some cause => s.trapExec k cause
        | none =>
          s.doneWith k i fun w => w.writeLanes (w.governing o.pn o.pi) o.d.toNat (vregOf fun l =>
            let at_ := p.positions l
            packElems o.et.width ((List.range o.et.count).map fun j =>
              f p (at_.map fun e => elemOf o.et.width (laneOf (w.readV (o.a.toNat + e.1)) e.2) j)))

/-- VWMAX (R164, R165). -/
def execVwmax (o : VOp) (s : State) : Host.Outcome State Fault Refusal :=
  pooling (.vwmax o) o (fun _ l => poolMax o.et l) s

/-- VWAVG: padding counts in the divisor when X[0] = 1 (R164, R165). -/
def execVwavg (o : VOp) (s : State) : Host.Outcome State Fault Refusal :=
  pooling (.vwavg o) o (fun p l => poolMean o.et (if o.x then p.kw * p.kh else l.length) l) s

end Sys2Proof.Machine
end

