-- ==== Sys2Proof/Machine/HostIo.lean ====
section
/-! DEFINITION. The host's accesses: the aperture, register writes, doorbells, queue enables and image loading
(14 R403-R407, R411, 11 R351, R356, 12 R376, 13 R396, 02 R71-R75). -/

namespace Sys2Proof

/-- A Jalti mailbox command. -/
def Instr.isMail : Instr → Bool
  | .pairStatus _ | .pairReturn _ _ | .inject _ | .wdogSet _ | .wdogKick _ => true
  | _ => false

/-- Argument word `n`, 1 to 7, of a mailbox command. -/
def Mail.arg (m : Mail) (n : Nat) : Nat := (m.words.getD (n - 1) 0).toNat

end Sys2Proof

namespace Sys2Proof.Machine

/-! ### The aperture (R406) -/

/-- The physical address of an aperture byte, where the access is allowed (R406). -/
def State.aperturePa (s : State) (fn off : Nat) (store : Bool) : Option Nat :=
  let f := s.func fn
  let c := s.ctx f.apctx.toNat
  if !f.apen || s.ctxs.length ≤ f.apctx.toNat || !c.alive || c.fn ≠ fn then none
  else
    let ipa := f.apbase.toNat + off
    match s.walk2 c.s2root ipa with
    | .ok e => if store && !bitAt e 5 then none else some (leafOut e ipa % 2 ^ 42)
    | .error _ => none

/-- The addresses of the bytes of an access, where all are allowed. -/
def State.apertureRange (s : State) (fn off : Nat) (store : Bool) : Nat → Option (List Nat)
  | 0 => some []
  | n + 1 =>
    match s.aperturePa fn off store, State.apertureRange s fn (off + 1) store n with
    | some p, some l => some (p :: l)
    | _, _ => none

/-- A byte of an aperture access meets an uncorrectable stage-2 entry, which is uncontained (R354). -/
def State.apertureFatal (s : State) (fn off n : Nat) : Bool :=
  let f := s.func fn
  let c := s.ctx f.apctx.toNat
  f.apen && decide (f.apctx.toNat < s.ctxs.length) && c.alive && c.fn == fn &&
    (List.range n).any fun i => match s.walk2 c.s2root (f.apbase.toNat + off + i) with
      | .error e => e == .badEntry2
      | .ok _ => false

/-- An answer to the host: the bytes read, or none for Unsupported Request. -/
def State.hostReply (s : State) (x : Option (List Byte)) : State := { s with cp := { s.cp with hostReplies := x :: s.cp.hostReplies } }

/-- APERTURE_ACCESS: performed at the homes with no deposit, or refused with an informational link record; an uncorrectable
sector is not delivered (R333, R406). -/
def execApertureAccess (fn off : Nat) (ask : PeerAsk) (s : State) : Host.Outcome State Fault Refusal :=
  event <|
    let n := match ask with
      | .read n => n
      | .write b => b.length
      | .atomic _ _ _ _ _ | .deposit _ | .acquire => 0
    if 16 ≤ fn ∨ 2 ^ 34 < off + n then s
    else if s.apertureFatal fn off n then s.fatalError 10 { kind := 0x11, sev := 3, esc := true, source := 10 }
    else match ask with
      | .read _ =>
        match s.apertureRange fn off false n with
        | none => (s.linkRecord 0).hostReply none
        | some l =>
          let c := (s.func fn).apctx.toNat
          let s := ((l.map sectorOf).eraseDups).foldl (fun s sec => ((s.postEdge 256 c sec false).heal sec c).healL2 sec c) s
          if l.any s.byteBad then s.hostReply none else s.hostReply (some (l.map (Memory.read s.mem.home)))
      | .write b =>
        match s.apertureRange fn off true n with
        | none => s.linkRecord 0
        | some l =>
          let c := (s.func fn).apctx.toNat
          ((l.map sectorOf).eraseDups).foldl (fun s sec => s.postEdge 256 c sec true) (s.writeHome (l.zip b))
      | .atomic _ _ _ _ _ | .deposit _ | .acquire => s

/-! ### Queue registers (R407, R411) -/

/-- A doorbell: TAIL takes the value; more than N ahead of HEAD sets ERR (R411). -/
def Queue.doorbell (q : Queue) (tail : BitVec 32) : Queue :=
  { q with sqTail := tail, err := q.err || decide (q.size < (tail - q.sqHead).toNat) }

/-- SQ_CFG written: its fields, and ENABLE as R411 says. -/
def Queue.configure (q : Queue) (v : Word) : Queue :=
  let p : Queue := { q with log2n := v.extractLsb' 0 4, ien := v.getLsbD 22, vec := v.extractLsb' 23 5, err := q.err && !v.getLsbD 21 }
  if !v.getLsbD 20 then { p with enable := false }
  else if q.enable then p
  else if q.cqTail = q.sqHead then
    { p with enable := true, sqTail := 0, sqHead := 0, cqHead := 0, cqTail := 0
             err := p.err || decide (p.log2n.toNat < 6 ∨ 12 < p.log2n.toNat) }
  else { p with enable := false }

/-- SQ_DOORBELL (R411). -/
def execSqDoorbell (fn queue : Nat) (tail : BitVec 32) (s : State) : Host.Outcome State Fault Refusal :=
  event (s.modQueue fn queue fun q => q.doorbell tail)

/-- QUEUE_ENABLE: a write of SQ_CFG (R407, R411). -/
def execQueueEnable (fn queue : Nat) (value : Word) (s : State) : Host.Outcome State Fault Refusal :=
  event (s.modQueue fn queue fun q => q.configure value)

/-- A write to the register at offset `off` of a queue (R407). -/
def Queue.write (q : Queue) (off : Nat) (v : Word) : Queue :=
  match off with
  | 0x00 => { q with sqBase := v >>> 12 <<< 12 }
  | 0x08 => q.configure v
  | 0x10 => q.doorbell (v.setWidth 32)
  | 0x20 => { q with cqBase := v >>> 12 <<< 12 }
  | 0x28 => { q with cqHead := v.setWidth 32 }
  | _ => q

/-! ### The other register blocks (R404) -/

/-- What the module would supply at a reset that the device asks for itself: as it is now, with every step passing (log 12). -/
def State.bootInput (s : State) : BootInput :=
  { dev := s.fab.dev, step := s.cp.stepping, spares := s.cp.spares, injection := s.cp.injection, traceLog2 := s.trace.log2
    traceBase := s.trace.base, dumpBase := s.cp.dumpBase, jaltiOk := true, memoryOk := true, cpOk := true, stage4Ok := true }

/-- The identity and control block (R405): a reset asked for here is the next step. -/
def State.writeControl (s : State) (fn off : Nat) (v : Word) : State :=
  match off with
  | 0x10 => if fn = 0 && v.getLsbD 0 then { s with agenda := .warmReset s.bootInput :: s.agenda } else s
  | 0x28 =>
    let t := bits v.toNat 7 0
    let p := bits v.toNat 17 8
    if fn ≠ 0 then s
    else { s with jalti := { s.jalti with
      tlim := if 85 ≤ t ∧ t ≤ 115 then t else s.jalti.tlim
      plim := if 150 ≤ p ∧ p ≤ 420 then p else s.jalti.plim } }
  | 0x30 => s.modFunc fn fun f => { f with apbase := BitVec.ofNat 64 (bits v.toNat 47 34 * 2 ^ 34) }
  | 0x38 => s.modFunc fn fun f => { f with apctx := v.setWidth 8, apen := v.getLsbD 8 }
  | _ => s

/-- The reliability block (R351). -/
def Rel.write (r : Rel) (off : Nat) (v : Word) : Rel :=
  match off with
  | 0x00 => { r with base := v.setWidth 40 }
  | 0x08 => { r with size := v.setWidth 17 }
  | 0x18 => { r with tail := v.setWidth 32 }
  | 0x20 => { r with enable := v.getLsbD 0, ovf := r.ovf && !v.getLsbD 1, irq := v.getLsbD 2 }
  | _ => r

/-- The trace block (R396). -/
def Trace.write (t : Trace) (off : Nat) (v : Word) : Trace :=
  match off with
  | 0x18 => { t with window := v }
  | 0x20 => { t with frozen := v.getLsbD 0, short := t.short && !v.getLsbD 1 }
  | _ => t

/-- HOT_CTL of a controller (R376). -/
def Sketch.write (k : Sketch) (v : Word) : Sketch :=
  let k : Sketch := { k with en := v.getLsbD 0, filter := v.getLsbD 2, ctx := v.extractLsb' 8 8 }
  if v.getLsbD 1 then { k with count := 0, counters := [], top := List.replicate 32 none } else k

/-- The response of Jalti (R356). -/
def State.mailReply (s : State) (m : Mail) (status : Nat) (words : List Nat := []) : State :=
  let first := BitVec.ofNat 64 (status + 65536 * m.tag.toNat)
  let rest : List Word := (List.range 7).map fun i => BitVec.ofNat 64 (words.getD i 0)
  { s with jalti := { s.jalti with response := first :: rest } }

/-- Word 0 of the command area submits the command, unless one is in progress; what the self test of PAIR_RETURN finds is
a free value (R356, log 1). -/
def State.submitMail (s : State) (v : Word) : State :=
  if s.agenda.any Instr.isMail then s
  else
    let words : List Word := s.jalti.command.set 0 v
    let m : Mail := { tag := v.extractLsb' 16 16, words := words.drop 1 }
    let s := { s with jalti := { s.jalti with command := words } }
    let submit (i : Instr) : State := { s with agenda := s.agenda ++ [i] }
    match (v.setWidth 16).toNat with
    | 1 => submit (.pairStatus m)
    | 2 => { submit (.pairReturn m ((Config.freeValue s.free).getLsbD 0)) with free := s.free + 1 }
    | 3 => submit (.inject m)
    | 4 => submit (.wdogSet m)
    | 5 => submit (.wdogKick m)
    | _ => s.mailReply m 1

/-- The mailbox block: the command area lies first (R356). -/
def State.writeMailbox (s : State) (off : Nat) (v : Word) : State :=
  if off % 8 ≠ 0 ∨ 0x40 ≤ off then s
  else if off = 0 then s.submitMail v
  else { s with jalti := { s.jalti with command := s.jalti.command.set (off / 8) v } }

/-- REGISTER_WRITE: an 8-byte register of BAR 0 takes the value by its access codes (R7, R403-R407). A virtual function has
the identity block and the queue block only; every other offset ignores writes. -/
def execRegisterWrite (fn offset : Nat) (value : Word) (s : State) : Host.Outcome State Fault Refusal :=
  event <|
    let off := offset % 0x10000
    if 16 ≤ fn then s
    else match offset / 0x10000 with
      | 0 => s.writeControl fn off value
      | 1 => if off / 0x40 < 8 then s.modQueue fn (off / 0x40) fun q => q.write (off % 0x40) value else s
      | 2 => if fn = 0 then { s with rel := s.rel.write off value } else s
      | 3 => if fn = 0 then s.writeMailbox off value else s
      | 4 => if fn = 0 && off % 0x200 == 0 then
          { s with fab := { s.fab with sketches := modAt (fun k => k.write value) s.fab.sketches (off / 0x200) } }
        else s
      | 5 => if fn = 0 then { s with trace := s.trace.write off value } else s
      | _ => s

/-! ### Code images (R71-R75) -/

/-- A section of an image (R72). -/
structure Section where
  type : Nat
  align : Nat
  file : Nat
  img : Nat
  size : Nat
deriving DecidableEq, Repr, Inhabited

def sectionAt (b : List Byte) (off : Nat) : Section :=
  { type := fieldAt b off 4, align := fieldAt b (off + 4) 4, file := fieldAt b (off + 8) 8, img := fieldAt b (off + 16) 8
    size := fieldAt b (off + 24) 8 }

/-- The section table. -/
def sectionsOf (b : List Byte) : List Section := (List.range (fieldAt b 6 2)).map fun i => sectionAt b (fieldAt b 8 8 + 32 * i)

/-- Types 1 to 3 are mapped. -/
def Section.mapped (x : Section) : Bool := x.type ≤ 3

/-- Two sections overlap, in the file or in the image (R72). -/
def Section.overlaps (x y : Section) : Bool :=
  x.size != 0 && y.size != 0 &&
    ((x.file != 0 && y.file != 0 && meets x.file x.size y.file y.size) || (x.mapped && y.mapped && meets x.img x.size y.img y.size))

/-- A section that a loader accepts by itself. -/
def Section.ok (x : Section) (b : List Byte) : Bool :=
  1 ≤ x.type && x.type ≤ 6 && (x.type != 1 || x.img % 65536 == 0) && (x.align == 0 || x.img % x.align == 0)
    && (x.file == 0 || x.file + x.size ≤ b.length) && (x.file != 0 || x.type == 3 || x.size == 0)
    && (if x.mapped then x.img + x.size ≤ fieldAt b 16 8 else x.img == 0)

/-- No two sections overlap. -/
def disjointSections : List Section → Bool
  | [] => true
  | h :: t => t.all (fun y => !h.overlaps y) && disjointSections t

/-- The header and the section table are as R71 and R72 say. -/
def iciOk (b : List Byte) : Bool :=
  let n := fieldAt b 6 2
  b.take 4 == [0x49, 0x43, 0x49, 0x01] && fieldAt b 4 2 == 1 && 1 ≤ n && n ≤ 16 && fieldAt b 8 8 + 32 * n ≤ b.length
    && fieldAt b 28 4 ≤ 1 && fieldAt b 32 32 == 0 && (sectionsOf b).all (fun x => x.ok b) && disjointSections (sectionsOf b)

/-- The first section of a type, and its bytes in the file. -/
def sectionOf (b : List Byte) (type : Nat) : Section := ((sectionsOf b).find? fun x => x.type == type).getD default
def sectionBytes (b : List Byte) (type : Nat) : List Byte := (b.drop (sectionOf b type).file).take (sectionOf b type).size

/-- A kernel descriptor; its entry counts from the image base (R73). -/
def kernelRecord (text : Nat) (d : List Byte) : Kernel :=
  { entry := text + fieldAt d 0 4, codeSize := fieldAt d 4 4, regs := fieldAt d 8 2, sregs := fieldAt d 10 1, ilevel := fieldAt d 11 1
    scratch := fieldAt d 12 4, record := fieldAt d 16 2, threshold := fieldAt d 18 2, timer := fieldAt d 20 4, prio := fieldAt d 24 1
    slack := fieldAt d 25 1, overflow := fieldAt d 26 1, depthLimit := fieldAt d 27 1, det := bitAt (fieldAt d 28 1) 0
    node := bitAt (fieldAt d 28 1) 1 }

/-- A descriptor within the limits of R70 and R73. -/
def kernelOk (d : List Byte) : Bool :=
  let k := kernelRecord 0 d
  8 ≤ k.regs && k.regs ≤ 256 && k.regs % 8 == 0 && k.sregs ≤ 15 && k.ilevel ≤ 3 && k.scratch ≤ 786432 && k.scratch % 4096 == 0
    && fieldAt d 28 1 ≤ 3 && fieldAt d 29 3 == 0
    && (if k.node then
          16 ≤ k.record && k.record ≤ 256 && k.record % 16 == 0 && 32 ≤ k.threshold && k.threshold ≤ 1024 && k.timer < 2 ^ 24
            && k.prio ≤ 7 && k.slack ≤ 7 && k.overflow ≤ 2 && 1 ≤ k.depthLimit && k.depthLimit ≤ 63
        else k.record == 0 && k.depthLimit == 0)

/-- A preemption point; its address is in the mapped image (R74). -/
def pointRecord (text : Nat) (d : List Byte) : PreemptPoint :=
  { addr := BitVec.ofNat 56 (text + fieldAt d 0 4), plive := BitVec.ofNat 8 (fieldAt d 4 1), flags := BitVec.ofNat 8 (fieldAt d 5 1)
    slive := BitVec.ofNat 64 (fieldAt d 8 8), vlive := BitVec.ofNat 256 (fieldAt d 16 32) }

/-- The image that a file gives at a base. -/
def imageOfFile (ctx base : Nat) (b : List Byte) : Image :=
  let text := (sectionOf b 1).img
  { ctx := ctx, base := base
    kernels := (chunks 64 (fieldAt b 24 4) (sectionBytes b 4)).map (kernelRecord text)
    points := (chunks 48 (sectionBytes b 5).length (sectionBytes b 5)).map (pointRecord (base + text))
    acorns := (chunks 16 (sectionBytes b 6).length (sectionBytes b 6)).map fun d => (text + fieldAt d 0 4, fieldAt d 4 2, fieldAt d 6 2) }

/-- The bytes of a mapped section: those in the file, or zeros. -/
def Section.image (x : Section) (b : List Byte) : List Byte := if x.file = 0 then zeros x.size else (b.drop x.file).take x.size

/-- ICI_LOAD: a well-formed image whose pages the context maps is written section by section at one base, and takes the next
image handle; any other is rejected and changes nothing (R71-R75, 02 R70). -/
def execIciLoad (ctx : Nat) (base : Word) (file : List Byte) (s : State) : Host.Outcome State Fault Refusal :=
  event <|
    let mapped := (sectionsOf file).filter Section.mapped
    let place (x : Section) : Option (List (Nat × Byte)) := (s.vaRange ctx (base.toNat + x.img) x.size).map fun l => l.zip (x.image file)
    let kernels := chunks 64 (fieldAt file 24 4) (sectionBytes file 4)
    if !iciOk file || s.ctxs.length ≤ ctx || !(s.ctx ctx).alive || !(mapped.all fun x => (place x).isSome)
        || kernels.length ≠ fieldAt file 24 4 || !kernels.all kernelOk then s
    else
      let s := s.writeHome (mapped.flatMap fun x => (place x).getD [])
      { s with images := s.images ++ [imageOfFile ctx base.toNat file] }

end Sys2Proof.Machine
end

