-- ==== Sys2Proof/Machine/Mailbox.lean ====
section
/-! DEFINITION. Jalti's mailbox commands, mode changes of pairs, the watchdog, and heat (11 R329, R356, R357, 14 R422, R423). -/

namespace Sys2Proof.Machine

/-! ### Mailbox commands (R356, R357) -/

/-- The code of a mode in PAIR_STATUS (R356). -/
def PairMode.code : PairMode → Nat
  | .independent => 0 | .checked => 1 | .offline => 2

/-- PAIR_STATUS. -/
def execPairStatus (m : Mail) (s : State) : Host.Outcome State Fault Refusal :=
  event <|
    let p := s.pair (m.arg 1)
    if 24 ≤ m.arg 1 then s.mailReply m 2 else s.mailReply m 0 [p.mode.code, p.mismatches, p.rollbacks, p.offlines]

/-- PAIR_RETURN: the self test of an OFFLINE pair; one that passes makes it INDEPENDENT. -/
def execPairReturn (m : Mail) (pass : Bool) (s : State) : Host.Outcome State Fault Refusal :=
  event <|
    if 24 ≤ m.arg 1 then s.mailReply m 2
    else if (s.pair (m.arg 1)).mode ≠ .offline then s.mailReply m 3
    else if pass then (s.modPair (m.arg 1) fun p => { p with mode := .independent }).mailReply m 0 [0]
    else s.mailReply m 0 [1]

/-- INJECT: arms one fault of a pair in place of one armed before (R357). -/
def execInject (m : Mail) (s : State) : Host.Outcome State Fault Refusal :=
  event <|
    let w := m.arg 4
    let lane := bits w 4 0
    let bit := bits w 13 8
    if !s.cp.injection then s.mailReply m 3
    else if 24 ≤ m.arg 1 ∨ 1 < m.arg 2 ∨ m.arg 3 = 0 ∨ 65535 < m.arg 3 ∨ w ≠ lane + 256 * bit then s.mailReply m 2
    else (s.modPair (m.arg 1) fun p => { p with inject := some { cluster := m.arg 2, n := m.arg 3, lane := lane, bit := bit } }).mailReply m 0

/-- WDOG_SET: the period in ms, 0 for off (R356). -/
def execWdogSet (m : Mail) (s : State) : Host.Outcome State Fault Refusal :=
  event <|
    if 1000 < m.arg 1 then s.mailReply m 2
    else ({ s with jalti := { s.jalti with wdogPeriod := m.arg 1, wdogMissed := 0 } } : State).mailReply m 0

/-- WDOG_KICK. -/
def execWdogKick (m : Mail) (s : State) : Host.Outcome State Fault Refusal :=
  event (({ s with jalti := { s.jalti with wdogMissed := 0 } } : State).mailReply m 0)

/-! ### The watchdog (R357) -/

/-- The WATCHDOG record of a severity. -/
def watchdogRec (sev : Nat) : Rec := { kind := 0x10, sev := sev, source := 9 }

/-- WATCHDOG_EXPIRY: a period without a kick, or 10 ms without a heartbeat; the second miss, and a lost heartbeat, are fatal. -/
def execWatchdogExpiry (heartbeatLost : Bool) (s : State) : Host.Outcome State Fault Refusal :=
  event <|
    if s.jalti.wdogPeriod = 0 then s
    else if heartbeatLost || s.jalti.wdogMissed != 0 then (s.record (watchdogRec 3)).fatalError 9 { kind := 0x11, sev := 3, source := 9 }
    else (({ s with jalti := { s.jalti with wdogMissed := 1 } } : State).record (watchdogRec 2)).message 0 17

/-! ### Heat and power (R422, R423) -/

/-- CAP lowered by one point, not below 0.8 GHz; a change sends vector 20 (R422). -/
def State.lowerCap (s : State) : State :=
  if s.jalti.cap = 0 then s else ({ s with jalti := { s.jalti with cap := s.jalti.cap - 1 } } : State).message 0 20

/-- CAP raised by one point; at the highest point neither cause holds it down any more (R405, R422). -/
def State.raiseCap (s : State) : State :=
  if 4 ≤ s.jalti.cap then s
  else
    let top := s.jalti.cap = 3
    ({ s with jalti := { s.jalti with
      cap := s.jalti.cap + 1, tcapped := s.jalti.tcapped && !top, pcapped := s.jalti.pcapped && !top } } : State).message 0 20

/-- THERMAL_CAP_ADJUST: one interval of a cause has passed (R422); a cause raises CAP only while the other permits. -/
def execThermalCapAdjust (cause : CapCause) (s : State) : Host.Outcome State Fault Refusal :=
  event <|
    match cause with
    | .hot => ({ s with jalti := { s.jalti with tHolds := true, tcapped := s.jalti.tcapped || s.jalti.cap != 0 } } : State).lowerCap
    | .overPower => ({ s with jalti := { s.jalti with pHolds := true, pcapped := s.jalti.pcapped || s.jalti.cap != 0 } } : State).lowerCap
    | .cool =>
      let s := { s with jalti := { s.jalti with tHolds := false } }
      if s.jalti.pHolds then s else s.raiseCap
    | .underPower =>
      let s := { s with jalti := { s.jalti with pHolds := false } }
      if s.jalti.tHolds then s else s.raiseCap

/-- THERMAL_FATAL: at 125 °C or above, or above 440 W (R423). -/
def execThermalFatal (tj : Int) (watts : Nat) (s : State) : Host.Outcome State Fault Refusal :=
  event <|
    let s := { s with jalti := { s.jalti with tj := tj } }
    if 125 ≤ tj ∨ 440 < watts then s.fatalError 9 { kind := 0x11, sev := 3, source := 9 } else s

/-! ### Mode requests (R329) -/

/-- A mode request can be granted: no wave resident to enter CHECKED, no IL3 group to leave it. -/
def State.mayChange (s : State) (pair : Nat) (checked : Bool) : Bool :=
  let ws := s.pairWaves pair
  match (s.pair pair).mode with
  | .independent => checked && ws.isEmpty
  | .checked => !checked && !(ws.any fun k => s.checked (s.wave k))
  | .offline => false

/-- MODE_REQUEST: a pair between INDEPENDENT and CHECKED; an armed injection waits on (R329, R357). -/
def execModeRequest (pair : Nat) (checked : Bool) (s : State) : Host.Outcome State Fault Refusal :=
  event <|
    if 24 ≤ pair || !s.mayChange pair checked then s
    else s.modPair pair fun p => { p with
      mode := if checked then .checked else .independent
      buffer := [], bufferErrs := [], acornErrs := [], snapshot := none, acornId := 0xFFFF, retry := 0, wanted := none, frozen := false
      inject := p.inject.map fun (j : Inject) => if checked then { j with counting := false } else j }

end Sys2Proof.Machine
end

