-- ==== Sys2Proof/Machine/Mem.lean ====
section
/-! DEFINITION. Loads, stores, scratchpad access, windows, cache maintenance and fences (06 R170-R183, 07 R170). -/

namespace Sys2Proof.Machine

/-- Lane and virtual address of the lanes of an access. -/
def State.vasOf (s : State) (k : Nat) (bk : Bool) (a : BitVec 8) (n : Nat) (offs : List (Nat × Word)) : List (Nat × Nat) :=
  (s.reach k 0 false bk a n offs).2.map fun r => (r.lane, r.va)

/-! ### Loads and stores (R174) -/

/-- A vector load: the active lanes' values in a long write (R174). -/
def State.vectorLoad (s : State) (k : Nat) (i : Instr) (o : MemF) (contiguous : Bool) : State :=
  let w := s.wave k
  let n := o.size.bytes
  let offs := offsetsOf o w contiguous (lanesOf (w.governing o.pn o.pi))
  s.access k o.slack.toNat .load o.bk o.a n 1 offs none fun s lanes =>
    s.load k o.slack.toNat o.hint.toNat (contiguous && blockEvent n lanes) lanes (s.vasOf k o.bk o.a n offs) none fun s bytes =>
      s.doneWith k i fun w =>
        let value (l : Nat) : Word := match lanes.find? (fun e => e.1 == l) with
          | some e => laneValue o.size bytes e.2
          | none => laneOf (w.readV o.d.toNat) l
        w.long (.v o.d.toNat) (.v (vregOf value))

/-- A vector store: the low bytes of the active lanes (R174). -/
def State.vectorStore (s : State) (k : Nat) (i : Instr) (o : MemF) (contiguous : Bool) : State :=
  let w := s.wave k
  let n := o.size.bytes
  let offs := offsetsOf o w contiguous (lanesOf (w.governing o.pn o.pi))
  s.access k o.slack.toNat .store o.bk o.a n 1 offs none fun s lanes =>
    let va := ((s.vasOf k o.bk o.a n offs).head?.map Prod.snd).getD 0
    s.store k o.slack.toNat o.hint (contiguous && blockEvent n lanes) false n lanes va
      (storeBytes n lanes (laneOf (w.readV o.d.toNat))) fun s => s.done k i

/-- The one access of an instruction that acts once per wave, as lane 0. -/
def waveOffset (o : MemF) (w : Wave) : List (Nat × Word) := offsetsOf o w false [0]

/-- LD.S (R174). -/
def execLdS (o : MemF) (s : State) : Host.Outcome State Fault Refusal :=
  issue (.ldS o) s fun k s =>
    let w := s.wave k
    let n := o.size.bytes
    s.access k o.slack.toNat .load o.bk o.a n 1 (waveOffset o w) (some w.exec) fun s lanes =>
      s.load k o.slack.toNat o.hint.toNat false lanes (s.vasOf k o.bk o.a n (waveOffset o w)) (some w.exec) fun s bytes =>
        s.doneWith k (.ldS o) fun w => w.long (w.sReg o.d.toNat) (.s (laneValue o.size bytes (lanes.flatMap Prod.snd)))

/-- ST.S (R174). -/
def execStS (o : MemF) (s : State) : Host.Outcome State Fault Refusal :=
  issue (.stS o) s fun k s =>
    let w := s.wave k
    let n := o.size.bytes
    s.access k o.slack.toNat .store o.bk o.a n 1 (waveOffset o w) (some w.exec) fun s lanes =>
      let va := ((s.vasOf k o.bk o.a n (waveOffset o w)).head?.map Prod.snd).getD 0
      s.store k o.slack.toNat o.hint false true n lanes va (storeBytes n lanes fun _ => w.readS o.d.toNat) fun s =>
        s.done k (.stS o)

/-- VLD (R174). -/
def execVld (o : MemF) (s : State) : Host.Outcome State Fault Refusal :=
  issue (.vld o) s fun k s => s.vectorLoad k (.vld o) o true

/-- VST (R174). -/
def execVst (o : MemF) (s : State) : Host.Outcome State Fault Refusal :=
  issue (.vst o) s fun k s => s.vectorStore k (.vst o) o true

/-- VLDX: a gather (R174). -/
def execVldx (o : MemF) (s : State) : Host.Outcome State Fault Refusal :=
  issue (.vldx o) s fun k s => s.vectorLoad k (.vldx o) o false

/-- VSTX: a scatter (R174). -/
def execVstx (o : MemF) (s : State) : Host.Outcome State Fault Refusal :=
  issue (.vstx o) s fun k s => s.vectorStore k (.vstx o) o false

/-! ### Scratchpad (R177) -/

/-- The scratchpad addresses of the active lanes: contiguous with IK = 1, gathered with IK = 0 (R177). -/
def spAddrs (o : MemF) (w : Wave) : List (Nat × Nat) :=
  (offsetsOf o w o.ik (lanesOf (w.governing o.pn o.pi))).map fun e => (e.1, (w.readS o.a.toNat + e.2).toNat)

/-- SPLD (R177). -/
def execSpld (o : MemF) (s : State) : Host.Outcome State Fault Refusal :=
  issue (.spld o) s fun k s =>
    let addrs := spAddrs o (s.wave k)
    s.spAccess k o.slack.toNat o.size.bytes false addrs fun s lanes =>
      let keys := lanes.flatMap Prod.snd
      let bad := keys.filter s.spBad
      if !bad.isEmpty then s.spError k lanes bad addrs
      else
        let s := ((keys.map (· / 8)).eraseDups).foldl (fun s word => s.healSp (8 * word) (s.wave k).ctx) s
        s.doneWith k (.spld o) fun w =>
          let value (l : Nat) : Word := match lanes.find? (fun e => e.1 == l) with
            | some e => o.size.extend (ofBytes (e.2.map (s.spByte k)))
            | none => laneOf (w.readV o.d.toNat) l
          w.long (.v o.d.toNat) (.v (vregOf value))

/-- SPST (R177). -/
def execSpst (o : MemF) (s : State) : Host.Outcome State Fault Refusal :=
  issue (.spst o) s fun k s =>
    let w := s.wave k
    s.spAccess k o.slack.toNat o.size.bytes true (spAddrs o w) fun s lanes =>
      (s.spStore k (storeBytes o.size.bytes lanes (laneOf (w.readV o.d.toNat)))).done k (.spst o)

/-! ### Acquire loads and release stores (R183) -/

/-- LDA: the home's value, or a dirty byte of the own L1, then the acquire of the line of its first byte (R183, R269). -/
def execLda (o : MemF) (s : State) : Host.Outcome State Fault Refusal :=
  issue (.lda o) s fun k s =>
    let w := s.wave k
    let n := o.size.bytes
    s.access k o.slack.toNat .load o.bk o.a n 1 (waveOffset o w) (some w.exec) fun s lanes =>
      let pas := lanes.flatMap Prod.snd
      let s := s.drainAtomics k
      let s := if o.scope = .system then ((pas.filter s.isPeer).map sectorOf).eraseDups.foldl State.rdcDrop s else s
      s.load k o.slack.toNat 2 false lanes (s.vasOf k o.bk o.a n (waveOffset o w)) (some w.exec) fun s bytes =>
        let s := s.acquireLine (s.coreOf w) o.scope (pas.headD 0)
        s.doneWith k (.lda o) fun w => w.long (w.sReg o.d.toNat) (.s (laneValue o.size bytes pas))

/-- STREL: the release with the line of its first byte, then the store at the home (R183, R269); in a deterministic launch
the store is held as any other (R204). -/
def execStrel (o : MemF) (s : State) : Host.Outcome State Fault Refusal :=
  issue (.strel o) s fun k s =>
    let w := s.wave k
    let n := o.size.bytes
    s.access k o.slack.toNat .store o.bk o.a n 1 (waveOffset o w) (some w.exec) fun s lanes =>
      let pas := lanes.flatMap Prod.snd
      let a : Asker := { core := s.coreOf w, ctx := w.ctx, umode := w.priv == .u, cls := o.slack.toNat }
      let bytes := storeBytes n lanes fun _ => w.readS o.d.toNat
      let s := (s.drainAtomics k).releaseLine k a o.scope (pas.headD 0)
      let s :=
        if s.holdsOf w then s.modWave k fun w => { w with effects := w.effects ++ [.store o.slack.toNat bytes] }
        else
          let s := if s.detOf w then s.markWriters w.launch (s.group w.group).grpid.toNat pas else s
          let s := s.storeAtCore a 2 bytes
          if o.scope = .system then ((pas.filter s.isPeer).map sectorOf).eraseDups.foldl State.rdcWriteBack s else s
      s.done k (.strel o)

/-! ### Fences and cache maintenance (R180-R182) -/

/-- The offset of a FENCE's line, or of a CLEAN's or INVAL's sector. -/
def dispOffset (disp : BitVec 12) (unit : Nat) : List (Nat × Word) := [(0, disp.signExtend 64 * BitVec.ofNat 64 unit)]

/-- FENCE: it retires at once, and its memory effects complete later, before the wave's next memory or engine instruction
(R181, R182). -/
def execFence (o : FenceF) (s : State) : Host.Outcome State Fault Refusal :=
  issue (.fence o) s fun k s =>
    let finish (s : State) (line : Option Nat) : State :=
      (s.done k (.fence o)).modWave k fun w => { w with hold := .fence o line }
    if o.line then
      s.access k o.slack.toNat .load o.bk o.a 1 1 (dispOffset o.disp 256) (some (s.wave k).exec) fun s lanes =>
        finish s (lanes.flatMap Prod.snd).head?
    else finish s none

/-- The address of a single-sector CLEAN or INVAL, where it translates (R180). -/
def State.sectorTarget (s : State) (k : Nat) (o : CacheF) : State × Option Nat :=
  let w := s.wave k
  let (s, reqs) := s.reach k o.slack.toNat false o.bk o.a 1 (dispOffset o.disp 64)
  let r := s.resolve w .load 1 reqs
  let s := s.postWalks w o.slack.toNat reqs
  if r.faults.isEmpty then (s.keepPages w r.pages, (r.lanes.flatMap Prod.snd).head?.map sectorOf) else (s, none)

/-- CLEAN and INVAL act on the sectors that `pick` takes from the core's L1 for the form ALL; scope 4 also acts on the remote
data cache (R180). The wave then waits for the acknowledgements. -/
def State.maintain (s : State) (k : Nat) (i : Instr) (o : CacheF) (pick : Core → List Nat)
    (atCore : State → Asker → Nat → State) (atRdc : State → Nat → State) : State :=
  let w := s.wave k
  let a : Asker := { core := s.coreOf w, ctx := w.ctx, umode := w.priv == .u, cls := o.slack.toNat }
  let (s, secs) := if o.all then (s, pick (s.core a.core)) else
    let (s, t) := s.sectorTarget k o
    (s, t.toList)
  let s := secs.foldl (fun s sec => atCore s a sec) s
  let s := if o.scope = .system then secs.foldl atRdc s else s
  (s.done k i).modWave k fun w => { w with hold := .writeback }

/-- CLEAN (R180). -/
def execClean (o : CacheF) (s : State) : Host.Outcome State Fault Refusal :=
  issue (.clean o) s fun k s => s.maintain k (.clean o) o Core.dirtySectors State.cleanSector State.rdcWriteBack

/-- INVAL (R180). -/
def execInval (o : CacheF) (s : State) : Host.Outcome State Fault Refusal :=
  issue (.inval o) s fun k s =>
    s.maintain k (.inval o) o (fun c => c.l1.map L1Sector.sec) State.invalSector State.rdcDrop

/-! ### WMAP (R179) -/

/-- What WMAP's translation fails with, in the order of R179. -/
def State.wmapError (s : State) (w : Wave) (wr : Bool) (va : Nat) : Except (BitVec 7) Leaves :=
  if 2 ^ 56 ≤ va then .error 0x10
  else
    match s.walk w.ctx va with
    | .error e => .error (e.cause .load)
    | .ok l =>
      if s.isPeer l.pa then (if s.peerUp (devOf l.pa) (some l.pa) then .ok l else .error 0x19)
      else if w.priv = .u && !bitAt l.e1 7 then .error 0x13
      else if wr && !bitAt l.e1 5 then .error 0x13
      else if wr && !bitAt l.e2 5 then .error 0x18
      else .ok l

/-- The window that WMAP writes (R28, R179). -/
def windowFor (l : Leaves) (va : VAddr) (want : Word) (wr peer : Bool) (asid : BitVec 16) : Window :=
  { vbase := va, pbase := BitVec.ofNat 40 l.pa, dev := BitVec.ofNat 2 (devOf l.pa)
    limit := BitVec.ofNat 36 (min (min want.toNat (l.reach va.toNat)) (2 ^ 35))
    ghusk := BitVec.ofNat 4 (bits l.e1 11 8), valid := true, wr := wr, peer := peer, asid := asid, denied := !peer && l.denies }

/-- WMAP (R179). -/
def execWmap (o : WmapF) (s : State) : Host.Outcome State Fault Refusal :=
  issue (.wmap o) s fun k s =>
    let w := s.wave k
    let va := w.readS o.a.toNat
    let s := if 2 ^ 56 ≤ va.toNat then s
      else s.postWalk { core := s.coreOf w, ctx := w.ctx, cls := o.slack.toNat, umode := w.priv == .u } va.toNat
    match s.wmapError w o.wr va.toNat with
    | .error c =>
      let t : Trap := { cause := c, mask := w.exec, addr := va.setWidth 56 }
      if c = 0x41 then
        (match s.walk w.ctx va.toNat with
          | .error .badEntry2 => s.fatalError 10 { kind := 0x11, sev := 3, esc := true, source := 10 }
          | .error _ | .ok _ => s.memError k 0 0 t.mask va.toNat)
      else s.raise k t
    | .ok l =>
      let asid := (s.ctx w.ctx).asid
      let s := s.keepPages w [s.entryOf asid va.toNat l]
      let x := windowFor l (va.setWidth 56) (w.readS o.b.toNat) o.wr (s.isPeer l.pa) asid
      (s.modGroup w.group fun g => { g with windows := putAt {} g.windows o.d.toNat x }).done k (.wmap o)

end Sys2Proof.Machine
end

