-- ==== Sys2Proof/Machine/Secure.lean ====
section
/-! DEFINITION. DOE, the SPDM responder and IDE (14 R413, R414, 13 R400). What a response holds beside what the spec states is
`Config.spdmBody` (log 10). -/

namespace Sys2Proof.Machine

/-- The response of request `code`, by `body`; its serial number makes every response one of its own. -/
def State.respond (s : State) (code session : Nat) (body : List Byte) : State :=
  let r := Config.spdmBody code session s.sec.serial ++ body
  { s with sec := { s.sec with responses := r :: s.sec.responses, transcript := s.sec.transcript ++ r, serial := s.sec.serial + 1 } }

/-- A request that cannot be served is answered with an error, code 0x7F. -/
def State.spdmError (s : State) : State := s.respond 0x7F 0 []

/-- A request that needs the phase `n` of the connection (log 10). -/
def State.inPhase (s : State) (n : Nat) (go : State) : State := if n ≤ s.sec.phase then go else s.spdmError

def State.setPhase (s : State) (n : Nat) : State := { s with sec := { s.sec with phase := n } }

/-- GET_VERSION begins a connection. -/
def execGetVersion (s : State) : Host.Outcome State Fault Refusal :=
  event (({ s.setPhase 1 with sec := { s.sec with phase := 1, transcript := [] } } : State).respond 0x84 0 [])

/-- GET_CAPABILITIES. -/
def execGetCapabilities (s : State) : Host.Outcome State Fault Refusal :=
  event (s.inPhase 1 ((s.setPhase 2).respond 0xE1 0 []))

/-- NEGOTIATE_ALGORITHMS: bit 0 of `base` offers ECDSA on P-521, bit 0 of `hash` SHA-512. -/
def execNegotiateAlgorithms (base hash : BitVec 8) (s : State) : Host.Outcome State Fault Refusal :=
  event (s.inPhase 2 (if base.getLsbD 0 && hash.getLsbD 0 then (s.setPhase 3).respond 0xE3 0 [] else s.spdmError))

/-- GET_DIGESTS: the digest of the chain in slot 0, the only slot that is not empty (R413). -/
def execGetDigests (s : State) : Host.Outcome State Fault Refusal :=
  event (s.inPhase 3 (s.respond 0x81 0 (Sha.sha512 Config.certificateChain)))

/-- GET_CERTIFICATE: the chain of slot 0; the other slots are empty (R413). -/
def execGetCertificate (slot : BitVec 4) (s : State) : Host.Outcome State Fault Refusal :=
  event (s.inPhase 3 (if slot = 0 then s.respond 0x82 0 Config.certificateChain else s.spdmError))

/-- A response whose last bytes sign the transcript up to it with the identity key (R400, R413). -/
def State.respondSigned (s : State) (code : Nat) (body : List Byte) : State :=
  let all := s.sec.transcript ++ Config.spdmBody code 0 s.sec.serial ++ body
  s.respond code 0 (body ++ Config.deviceSignature (Sha.sha512 all))

/-- CHALLENGE. -/
def execChallenge (slot : BitVec 4) (s : State) : Host.Outcome State Fault Refusal :=
  event (s.inPhase 3 (if slot = 0 then s.respondSigned 0x83 [] else s.spdmError))

/-- LINK_ROUTE (R386). -/
def Fabric.linkRoute (f : Fabric) : Nat :=
  (f.routes.getD 0 0).toNat + 8 * (f.routes.getD 1 0).toNat + 64 * (f.routes.getD 2 0).toNat + 512 * (f.routes.getD 3 0).toNat
    + 4096 * f.dev.toNat

/-- A measurement block (R400). -/
def State.measurement (s : State) (index : Nat) : Option (List Byte) :=
  match index with
  | 1 => some Config.jaltiDigest
  | 2 => some Config.cpDigest
  | 3 => some (Config.measureConfig s.cp.spares s.cp.injection s.trace.log2 s.trace.window s.fab.dev.toNat s.fab.linkRoute)
  | 4 => some (bytesOf 8 s.trace.tseq ++ s.trace.chain)
  | _ => none

/-- GET_MEASUREMENTS: one block, or with index 0xFF all of them and with 0 their number, signed with the transcript and the
requester's nonce (R400, log 10). -/
def execGetMeasurements (index : BitVec 8) (nonce : List Byte) (s : State) : Host.Outcome State Fault Refusal :=
  event <|
    let s1 : State := { s with sec := { s.sec with transcript := s.sec.transcript ++ nonce } }
    let all := [1, 2, 3, 4].flatMap fun n => (s.measurement n).getD []
    s.inPhase 3 (
      if index = 0xFF then s1.respondSigned 0x60 all
      else if index = 0 then s1.respondSigned 0x60 (bytesOf 1 4)
      else match s.measurement index.toNat with
        | some b => s1.respondSigned 0x60 b
        | none => s.spdmError)

/-! ### Sessions (R413: at most 4) -/

/-- KEY_EXCHANGE opens a session whose handshake FINISH ends. -/
def execKeyExchange (slot : BitVec 4) (s : State) : Host.Outcome State Fault Refusal :=
  event (s.inPhase 3 (
    if slot ≠ 0 ∨ 4 ≤ s.sec.sessions.length then s.spdmError
    else
      let id := s.sec.nextSession
      ({ s with sec := { s.sec with
        sessions := s.sec.sessions ++ [{ id := id, established := false }], nextSession := id + 1 } } : State).respondSigned 0xE4 []))

/-- A session of the responder, in the given state of its handshake. -/
def State.session (s : State) (id : Nat) (established : Bool) : Bool := s.sec.sessions.any fun x => x.id == id && x.established == established

/-- FINISH establishes a session. -/
def execFinish (session : Nat) (s : State) : Host.Outcome State Fault Refusal :=
  event <|
    if !s.session session false then s.spdmError
    else
      let set (x : Session) : Session := if x.id = session then { x with established := true } else x
      ({ s with sec := { s.sec with sessions := s.sec.sessions.map set } } : State).respond 0xE5 session []

/-- HEARTBEAT in an established session. -/
def execHeartbeat (session : Nat) (s : State) : Host.Outcome State Fault Refusal :=
  event (if s.session session true then s.respond 0xE8 session [] else s.spdmError)

/-- END_SESSION. -/
def execEndSession (session : Nat) (s : State) : Host.Outcome State Fault Refusal :=
  event <|
    if !s.session session true then s.spdmError
    else ({ s with sec := { s.sec with sessions := s.sec.sessions.filter fun x => x.id != session } } : State).respond 0xEC session []

/-! ### IDE (R414) -/

/-- A stream carries traffic: both key sets programmed, enabled, and not insecure (R414). -/
def Stream.carries (x : Stream) : Bool := x.keys.contains 0 && x.keys.contains 1 && x.enabled && !x.insecure

/-- A stream: 0 the link stream, 1 to 4 the selective ones (log 10). -/
def State.stream (s : State) (n : Nat) : Stream := (s.sec.streams.find? fun x => x.num == n).getD { num := n, keys := [], enabled := false, insecure := false }

def State.setStream (s : State) (x : Stream) : State :=
  { s with sec := { s.sec with streams := x :: s.sec.streams.filter fun y => y.num != x.num } }

/-- IDE_KM: inside a secured session only, a key set is programmed, and the stream enabled or disabled; a disabled stream
leaves the insecure state (R414, log 10). -/
def execIdeKm (session stream keySet : Nat) (enable : Bool) (s : State) : Host.Outcome State Fault Refusal :=
  event <|
    if !s.session session true || 5 ≤ stream || 2 ≤ keySet then s.spdmError
    else
      let x := s.stream stream
      (s.setStream { x with keys := if x.keys.contains keySet then x.keys else x.keys ++ [keySet], enabled := enable,
                             insecure := x.insecure && enable }).respond 0 session []

/-- IDE_INTEGRITY_FAILURE: the packet is dropped, and the stream is insecure (R414). -/
def execIdeIntegrityFailure (stream : Nat) (s : State) : Host.Outcome State Fault Refusal :=
  event (if (s.stream stream).carries then (s.setStream { s.stream stream with insecure := true }).linkRecord 2 else s)

/-- DOE_DISCOVERY: the protocols are discovery, CMA/SPDM and secured CMA/SPDM, of PCI-SIG's types 0, 1 and 2 (R413, log 10). -/
def execDoeDiscovery (index : BitVec 8) (s : State) : Host.Outcome State Fault Refusal :=
  event <|
    let n := index.toNat
    let r : List Byte := if n < 3 then bytesOf 2 1 ++ bytesOf 1 n ++ bytesOf 1 (if n = 2 then 0 else n + 1) else bytesOf 4 0xFFFF
    { s with sec := { s.sec with responses := r :: s.sec.responses } }

end Sys2Proof.Machine
end

