-- ==== Sys2Proof/Machine/Reset.lean ====
section
/-! DEFINITION. Boot, resets and quiesce points (14 R415, R416, R418, 12 R359, R370, R372, R386, R387, 09 R295, 11 R329, R347,
08 R270, 10 R324). -/

namespace Sys2Proof.Machine

/-! ### Boot (R415) -/

/-- The share map at boot: the last SPARES shares of every bank are SPARE (R359, log 12). -/
def bootShares (spares : Nat) : List ((Nat × Nat) × Share) :=
  (List.range 192).flatMap fun b => (List.range (min spares 2)).map fun i => ((b, 15 - i), Share.spare)

/-- LOG2 of the trace ring: 28 to 34, and 30 where the configuration sets none (R396). -/
def bootLog2 (n : Nat) : Nat := if 28 ≤ n ∧ n ≤ 34 then n else 30

/-- A boot stage that stops boot: the stage completed before it, and its ERRCODE (R415). -/
def State.bootStops (s : State) (stage code : Nat) : State := { s with cp := { s.cp with stage := stage, errcode := code, ready := false } }

/-- Boot from stage 3: the command processor's image, then its regions, the share map and READY; the ports begin to train
(R415, R416). -/
def State.bootCp (s : State) (b : BootInput) : State :=
  if !b.cpOk then s.bootStops 2 3
  else if !b.stage4Ok then s.bootStops 3 4
  else
    { s with
      cp := { s.cp with stage := 4, errcode := 0, ready := true, dumpBase := b.dumpBase, spares := min b.spares 2, injection := b.injection }
      trace := { s.trace with base := b.traceBase, log2 := bootLog2 b.traceLog2 }
      fab := { s.fab with
        shareMap := bootShares b.spares
        ports := s.fab.ports.map fun (p : Port) => { p with state := 1, width := 0 } } }

/-- What no reset of the device touches: time to come, the host's memory and what it has been sent, and the model's counters. -/
def State.outside (s t : State) : State :=
  { t with agenda := s.agenda, free := s.free
           mem := { t.mem with host := s.mem.host }
           cp := { t.cp with msix := s.cp.msix, hostReplies := s.cp.hostReplies } }

/-- COLD_RESET: from stage 1, with the straps and the configuration that the module supplies (R386, R415, R418). -/
def execColdReset (b : BootInput) (s : State) : Host.Outcome State Fault Refusal :=
  event <|
    let t := s.outside State.reset
    let t := { t with fab := { t.fab with dev := b.dev }, cp := { t.cp with stepping := b.step } }
    if !b.jaltiOk then t.bootStops 0 1
    else if !b.memoryOk then t.bootStops 1 2
    else t.bootCp b

/-! ### The warm reset (R418) -/

/-- The local addresses that a warm reset keeps: the trace ring and the dump region (R418, R405, R396). -/
def State.keptRegion (s : State) (pa : Nat) : Bool :=
  let a := pa % 2 ^ 40
  !s.isPeer pa && ((s.trace.base.toNat ≤ a && a < s.trace.base.toNat + 2 ^ s.trace.log2)
    || (s.cp.dumpBase.toNat ≤ a && a < s.cp.dumpBase.toNat + 2 ^ 30))

/-- A pair after a warm reset: OFFLINE stays, and the counts since cold reset (R329, R356, R418). -/
def Pair.warm (p : Pair) : Pair :=
  { mode := if p.mode = .offline then .offline else .independent, mismatches := p.mismatches, rollbacks := p.rollbacks, offlines := p.offlines }

/-- The state that a warm reset leaves before boot resumes: every context, queue and launch is gone, and every frame but the
kept regions is scrubbed (R324, R418, log 12). -/
def State.warm (s : State) : State :=
  let t := s.outside State.reset
  { t with
    mem := { t.mem with
      home := s.mem.home.filter fun e => s.isPeer e.1 || s.keptRegion e.1
      symErrs := s.mem.symErrs.filter fun e => s.keptRegion (64 * e.1)
      poison := s.mem.poison.filter fun x => s.keptRegion (64 * x) }
    cp := { t.cp with
      stepping := s.cp.stepping, dumpValid := s.cp.dumpValid, dumpPartial := s.cp.dumpPartial, dumpSeq := s.cp.dumpSeq
      dump := s.cp.dump, dumpBase := s.cp.dumpBase }
    jalti := { t.jalti with pairs := s.jalti.pairs.map Pair.warm, tj := s.jalti.tj }
    rel := { t.rel with rseq := s.rel.rseq, dropped := s.rel.dropped }
    trace := { t.trace with
      base := s.trace.base, log2 := s.trace.log2, head := s.trace.head, tseq := s.trace.tseq, chain := s.trace.chain
      newest := s.trace.newest, stamps := s.trace.stamps }
    fab := { t.fab with
      dev := s.fab.dev, ports := s.fab.ports.map fun (p : Port) => ({ retrains := p.retrains } : Port) } }

/-- WARM_RESET: boot resumes at stage 3 (R415, R418). The kept regions stay where they are. -/
def execWarmReset (b : BootInput) (s : State) : Host.Outcome State Fault Refusal :=
  event (s.warm.bootCp { b with traceBase := s.trace.base, dumpBase := s.cp.dumpBase, traceLog2 := s.trace.log2 })

/-- VF_FUNCTION_LEVEL_RESET: the function's contexts end, its queues are reset, and its frames are scrubbed (R324, R418). -/
def execVfFunctionLevelReset (fn : Nat) (s : State) : Host.Outcome State Fault Refusal :=
  event <|
    if fn = 0 ∨ 16 ≤ fn then s
    else
      let s := (s.functionCtxs fn).foldl State.destroyContext s
      s.modFunc fn fun f => { Func.reset with pairs := f.pairs, slice := f.slice }

/-! ### Quiesce points (R295) -/

/-- A context's partition is at a quiesce point: its waves are EXITED or SAVED, and its copy and matrix queues are empty
(R295). -/
def State.quiescent (s : State) (c : Nat) : Bool :=
  let map := (s.ctx c).clusterMap
  !(s.waves.any fun w => w.ctx == c && w.resident)
    && !(map.any fun p => (List.range 4).any fun q => (s.copyQueue (4 * p + q)).entries.any fun x => x.ctx == c)
    && !(map.any fun p => (List.range 2).any fun t => !(s.twin (2 * p + t)).queue.isEmpty)

/-- Every context is at a quiesce point. -/
def State.allQuiescent (s : State) : Bool := (List.range s.ctxs.length).all fun c => !(s.ctx c).alive || s.quiescent c

/-- The caches of some physical clusters are written back and dropped (log 12). -/
def State.flushClusters (s : State) (c : Nat) (clusters : List Nat) : State :=
  (clusters.flatMap fun p => [4 * p, 4 * p + 1, 4 * p + 2, 4 * p + 3]).foldl (fun s core =>
    let s := (s.core core).dirtySectors.foldl (fun s sec => s.cleanSector (idleAsker core c) sec) s
    s.modCore core fun x => { x.dropClean (fun _ => true) with icache := [], tlb := [] }) s

/-- Pairs of clusters of a map, each a physical pair in order, none twice (R40, R295). -/
def mapOk : List Nat → Bool
  | [] => true
  | [_] => false
  | a :: b :: t => a % 2 == 0 && b == a + 1 && decide (b < 48) && !t.contains a && mapOk t

/-- A context's cluster map replaced: the old clusters' caches are emptied first. -/
def State.remap (s : State) (c : Nat) (map : List Nat) : State :=
  (s.flushClusters c (s.ctx c).clusterMap).modCtx c fun x => { x with clusterMap := map }

/-- A map without a pair: work of the context that has not ended stands on its first other pair instead (R347, log 12). -/
def State.withoutPair (s : State) (c pair : Nat) : List Nat :=
  let map := (s.ctx c).clusterMap
  let rest := map.filter fun p => p / 2 != pair
  if (s.openLaunches c).isEmpty || rest.isEmpty then rest
  else map.map fun p => if p / 2 = pair then (rest.headD 0) / 2 * 2 + p % 2 else p

/-- LINK_ROUTE by the ports that are up and lead to a peer that is not dead (R386, R387, R417). -/
def Fabric.reroute (f : Fabric) : Fabric :=
  let up (port : Nat) : Bool := (f.ports.getD port {}).state == 2 && !f.deadPeers.contains (f.ports.getD port {}).peer
  let base : Fabric := { f with routes := List.replicate 4 0 }
  let g := (List.range 3).foldl (fun (g : Fabric) p => if up p then g.addRoute (f.ports.getD p {}).peer p else g) base
  { g with ports := f.ports.map fun (p : Port) => if p.state = 3 then { p with state := 1 } else p }

/-- The addresses of the 64 KiB stage-2 leaves under a table that give a frame. -/
def State.leavesOf (s : State) (frame : Nat) : Nat → Nat → Nat → List Nat
  | 0, _, _ => []
  | fuel + 1, level, table =>
    (List.range (if level = 1 then 64 else 8192)).flatMap fun i =>
      let pa := table + 8 * i
      match s.readEntry pa with
      | none => []
      | some e =>
        if !bitAt e 0 || badFormat 2 level e then []
        else if bitAt e 1 then State.leavesOf s frame fuel (level + 1) (oaOf e)
        else if level = 3 && bits e 4 2 = 0 && oaOf e / 65536 = frame then [pa] else []

/-- Every copy of a frame is written back and invalidated (R270). -/
def State.flushFrame (s : State) (frame : Nat) : State :=
  let secs := (List.range 1024).map fun i => 1024 * frame + i
  let cores := List.range s.cores.length
  let s := secs.foldl (fun s sec => (cores.foldl (fun s core =>
    (s.cleanSector (idleAsker core 0) sec).modCore core fun x => x.dropClean fun y => y.sec == sec) s).rdcWriteBack sec) s
  secs.foldl State.rdcDrop s

/-- What the signatures hold of a frame's lines moves to the lines of another (R270). -/
def State.carrySignatures (s : State) (old new : Nat) : State :=
  let here (e : SigEntry) : Bool := e.line / 256 == old
  let mine := s.mem.sigs.flatMap fun b => b.entries.filter here
  let rest := s.mem.sigs.map fun (b : SigBank) => { b with entries := b.entries.filter fun e => !here e }
  let add (bs : List SigBank) (e : SigEntry) : List SigBank :=
    let line := 256 * new + e.line % 256
    let bank := s.slice (256 * line)
    let b := (bs.find? fun b => b.bank == bank).getD { bank := bank }
    ((b.deposit 0 line e.even).deposit 1 line e.odd) :: bs.filter fun b => b.bank != bank
  { s with mem := { s.mem with sigs := mine.foldl add rest } }

/-- A page moves to another frame (R270, R324): copies go home, the bytes and the signatures follow, leaves and translations
change, and the old frame is scrubbed. -/
def State.movePage (s : State) (old new : Nat) : State :=
  let cs := (List.range s.ctxs.length).filter fun c => (s.ctx c).alive
  let slots (c : Nat) : List Nat := s.leavesOf old 3 1 (s.ctx c).s2root
  let s := s.flushFrame old
  let s := s.writeHomeN (65536 * new) (s.readHomeN (65536 * old) 65536)
  let move (s : State) (pa : Nat) : State :=
    let e := ((s.readEntry pa).getD 0)
    s.writeHomeN pa (bytesOf 8 (e - oaOf e + 65536 * new))
  let s := cs.foldl (fun s c => (slots c).foldl move s) s
  let s := cs.foldl (fun s c => s.dropTranslations c (fun e => e.ppage == old) fun _ => true) s
  let s := { s with cp := { s.cp with
    frameHusk := assign s.cp.frameHusk new (s.huskOf (65536 * old))
    owned := s.cp.owned.map fun (e : Nat × Nat) => if e.2 = old then (e.1, new) else e } }
  (s.carrySignatures old new).scrub old

/-- A deferred change may be applied now (R295). -/
def State.changeDue (s : State) : QuiesceChange → Bool
  | .clusterMap c _ => s.quiescent c
  | .removePair p => (List.range s.ctxs.length).all fun c =>
      !(s.ctx c).alive || !((s.ctx c).clusterMap.any fun x => x / 2 == p) || s.quiescent c
  | .routes => s.allQuiescent
  | .husk0Share _ _ => s.allQuiescent
  | .movePage _ _ => s.allQuiescent
  | .huskMap c _ _ => s.quiescent c

/-- A husk map may give a guest index a husk: one that is defined, not of class SHADOW, and that lets no two contexts reach one
frame through different husks (R365, R366). -/
def State.mapAllows (s : State) (c g husk : Nat) : Bool :=
  let old := (s.ctx c).huskMap.getD g 0
  (husk == 0 || s.fab.husks.any fun h => h.num == husk && h.cls != 2)
    && !(s.cp.frameHusk.any fun f => f.2 == old && s.cp.owned.any fun e => e.2 == f.1 && e.1 != c)

/-- A context's husk map changes: the lines of both husks are written back and invalidated first, and the context's frames take
the new husk as they are next used (R366). -/
def State.mapHusk (s : State) (c g husk : Nat) : State :=
  let old := (s.ctx c).huskMap.getD g 0
  if !s.mapAllows c g husk || (s.ctx c).huskMap.length ≤ g || old = husk then s
  else
    let s := (s.fab.l2.filter fun x => x.husk == old || x.husk == husk).foldl State.dropLine s
    let s := { s with cp := { s.cp with frameHusk := s.cp.frameHusk.filter fun f => f.2 != old } }
    s.modCtx c fun x => { x with huskMap := x.huskMap.set g husk }

/-- A deferred change is applied (R270, R295, R347, R366, R370, R387). -/
def State.applyChange (s : State) : QuiesceChange → State
  | .clusterMap c map =>
    if (s.ctx c).alive && map.length == (s.ctx c).clusterMap.length && mapOk map then s.remap c map else s
  | .removePair p =>
    (List.range s.ctxs.length).foldl (fun s c =>
      if (s.ctx c).alive && (s.ctx c).clusterMap.any fun x => x / 2 == p then s.remap c (s.withoutPair c p) else s) s
  | .routes => { s with fab := s.fab.reroute }
  | .husk0Share bank share =>
    match s.shareOwner bank share with
    | .husk h => if h ≠ 0 && (s.sharesOf bank (.husk 0)).isEmpty then (s.emptyShare bank share).setShare bank share (.husk 0) else s
    | .spare | .retired => s
  | .huskMap c g husk => if (s.ctx c).alive then s.mapHusk c g husk else s
  | .movePage old new => if old = new || s.isPeer (65536 * old) || s.isPeer (65536 * new) then s else s.movePage old new

/-- QUIESCE_POINT: of the changes asked for and of those deferred, each whose partition is at rest is applied, and the others
stay deferred (R295). -/
def execQuiescePoint (changes : List QuiesceChange) (s : State) : Host.Outcome State Fault Refusal :=
  event <|
    let all := s.cp.changes ++ changes
    let s := { s with cp := { s.cp with changes := [] } }
    all.foldl (fun s x => if s.changeDue x then s.applyChange x else { s with cp := { s.cp with changes := s.cp.changes ++ [x] } }) s

end Sys2Proof.Machine
end

