-- ==== Sys2Proof/Machine/Scalar.lean ====
section
/-! DEFINITION. Scalar arithmetic and logic (04 R114-R119). -/

namespace Sys2Proof.Machine

/-- The quotient of R78 at 64 bits: all ones for a zero divisor, otherwise truncated toward zero. -/
def quotient (x y : Word) : Word := if y = 0 then BitVec.allOnes 64 else x.sdiv y
def quotientU (x y : Word) : Word := if y = 0 then BitVec.allOnes 64 else x / y

/-- The remainder of R78: the dividend for a zero divisor, otherwise with the dividend's sign. -/
def remainder (x y : Word) : Word := if y = 0 then x else x.srem y
def remainderU (x y : Word) : Word := if y = 0 then x else x % y

/-- Bits [127:64] of the signed and of the unsigned product (R116). -/
def mulHigh (x y : Word) : Word := BitVec.ofInt 64 ((x.toInt * y.toInt) / 2 ^ 64)
def mulHighU (x y : Word) : Word := BitVec.ofNat 64 ((x.toNat * y.toNat) / 2 ^ 64)

/-- The length of SBFX and SBFI, clamped to 64 - pos (R117). -/
def fieldLength (pos : BitVec 6) (y : Word) : Nat := min y.toNat (64 - pos.toNat)

/-- Mask of `n` low bits. -/
def lowMask (n : Nat) : Word := BitVec.ofNat 64 (2 ^ n - 1)

/-- The bits [pos + length - 1 : pos] of a word (R117). -/
def extractField (x : Word) (pos length : Nat) : Word := (x >>> pos) &&& lowMask length

/-- A word with that field replaced by the low bits of another (R117). -/
def insertField (d x : Word) (pos length : Nat) : Word :=
  (d &&& ~~~(lowMask length <<< pos)) ||| ((x &&& lowMask length) <<< pos)

/-- A truth value as a word. -/
def ofBool (b : Bool) : Word := if b then 1 else 0

/-- A short scalar result of two operands (R114). -/
def scalar2 (i : Instr) (o : SBin) (f : Word → Word → Word) (s : State) : Host.Outcome State Fault Refusal :=
  regOp i s fun w => w.writeS o.d.toNat (f (w.readS o.a.toNat) (w.ssrc o.b))

/-- A long scalar result of two operands (R57, R116). -/
def scalar2Long (i : Instr) (o : SBin) (f : Word → Word → Word) (s : State) : Host.Outcome State Fault Refusal :=
  regOp i s fun w => w.long (w.sReg o.d.toNat) (.s (f (w.readS o.a.toNat) (w.ssrc o.b)))

/-- A short scalar result of one operand (R117). -/
def scalar1 (i : Instr) (d a : BitVec 8) (f : Word → Word) (s : State) : Host.Outcome State Fault Refusal :=
  regOp i s fun w => w.writeS d.toNat (f (w.readS a.toNat))

/-! ### Major 0x10 (R115) -/

/-- SADD: x + y (R115). -/
def execSadd (o : SBin) (s : State) : Host.Outcome State Fault Refusal := scalar2 (.sadd o) o (fun x y => x + y) s

/-- SSUB: x − y (R115). -/
def execSsub (o : SBin) (s : State) : Host.Outcome State Fault Refusal := scalar2 (.ssub o) o (fun x y => x - y) s

/-- SAND: x AND y (R115). -/
def execSand (o : SBin) (s : State) : Host.Outcome State Fault Refusal := scalar2 (.sand o) o (fun x y => x &&& y) s

/-- SOR: x OR y (R115). -/
def execSor (o : SBin) (s : State) : Host.Outcome State Fault Refusal := scalar2 (.sor o) o (fun x y => x ||| y) s

/-- SXOR: x XOR y (R115). -/
def execSxor (o : SBin) (s : State) : Host.Outcome State Fault Refusal := scalar2 (.sxor o) o (fun x y => x ^^^ y) s

/-- SANDN: x AND NOT y (R115). -/
def execSandn (o : SBin) (s : State) : Host.Outcome State Fault Refusal := scalar2 (.sandn o) o (fun x y => x &&& ~~~y) s

/-- SSHL: x << (y mod 64) (R115). -/
def execSshl (o : SBin) (s : State) : Host.Outcome State Fault Refusal := scalar2 (.sshl o) o (fun x y => x <<< (y.toNat % 64)) s

/-- SSHR: x >> (y mod 64), zero fill (R115). -/
def execSshr (o : SBin) (s : State) : Host.Outcome State Fault Refusal := scalar2 (.sshr o) o (fun x y => x >>> (y.toNat % 64)) s

/-- SSAR: x >> (y mod 64), sign fill (R115). -/
def execSsar (o : SBin) (s : State) : Host.Outcome State Fault Refusal := scalar2 (.ssar o) o (fun x y => x.sshiftRight (y.toNat % 64)) s

/-- SROT: x rotated right by (y mod 64) (R115). -/
def execSrot (o : SBin) (s : State) : Host.Outcome State Fault Refusal := scalar2 (.srot o) o (fun x y => x.rotateRight (y.toNat % 64)) s

/-- SMIN: signed minimum (R115). -/
def execSmin (o : SBin) (s : State) : Host.Outcome State Fault Refusal := scalar2 (.smin o) o (fun x y => if x.sle y then x else y) s

/-- SMAX: signed maximum (R115). -/
def execSmax (o : SBin) (s : State) : Host.Outcome State Fault Refusal := scalar2 (.smax o) o (fun x y => if x.sle y then y else x) s

/-- SMINU: unsigned minimum (R115). -/
def execSminu (o : SBin) (s : State) : Host.Outcome State Fault Refusal := scalar2 (.sminu o) o (fun x y => if x ≤ y then x else y) s

/-- SMAXU: unsigned maximum (R115). -/
def execSmaxu (o : SBin) (s : State) : Host.Outcome State Fault Refusal := scalar2 (.smaxu o) o (fun x y => if x ≤ y then y else x) s

/-- SSLT: 1 if x is less than y, signed (R115). -/
def execSslt (o : SBin) (s : State) : Host.Outcome State Fault Refusal := scalar2 (.sslt o) o (fun x y => ofBool (x.slt y)) s

/-- SSLTU: 1 if x is less than y, unsigned (R115). -/
def execSsltu (o : SBin) (s : State) : Host.Outcome State Fault Refusal := scalar2 (.ssltu o) o (fun x y => ofBool (decide (x < y))) s

/-- SSEQ: 1 if x = y (R115). -/
def execSseq (o : SBin) (s : State) : Host.Outcome State Fault Refusal := scalar2 (.sseq o) o (fun x y => ofBool (x == y)) s

/-! ### Major 0x11 (R116) -/

/-- SMUL: low 64 bits of the product (R116). -/
def execSmul (o : SBin) (s : State) : Host.Outcome State Fault Refusal := scalar2 (.smul o) o (fun x y => x * y) s

/-- SMULH: high half of the signed product (R116). -/
def execSmulh (o : SBin) (s : State) : Host.Outcome State Fault Refusal := scalar2 (.smulh o) o (fun x y => mulHigh x y) s

/-- SMULHU: high half of the unsigned product (R116). -/
def execSmulhu (o : SBin) (s : State) : Host.Outcome State Fault Refusal := scalar2 (.smulhu o) o (fun x y => mulHighU x y) s

/-- SDIV: signed quotient, a long write (R57, R78, R116). -/
def execSdiv (o : SBin) (s : State) : Host.Outcome State Fault Refusal := scalar2Long (.sdiv o) o (fun x y => quotient x y) s

/-- SDIVU: unsigned quotient, a long write (R57, R78, R116). -/
def execSdivu (o : SBin) (s : State) : Host.Outcome State Fault Refusal := scalar2Long (.sdivu o) o (fun x y => quotientU x y) s

/-- SREM: signed remainder, a long write (R57, R78, R116). -/
def execSrem (o : SBin) (s : State) : Host.Outcome State Fault Refusal := scalar2Long (.srem o) o (fun x y => remainder x y) s

/-- SREMU: unsigned remainder, a long write (R57, R78, R116). -/
def execSremu (o : SBin) (s : State) : Host.Outcome State Fault Refusal := scalar2Long (.sremu o) o (fun x y => remainderU x y) s

/-- SMAD: (x × y + Sc) mod 2^64 (R116). -/
def execSmad (o : STern) (s : State) : Host.Outcome State Fault Refusal :=
  regOp (.smad o) s fun w => w.writeS o.d.toNat (w.readS o.a.toNat * w.ssrc o.b + w.readS o.c.toNat)

/-! ### Major 0x12 (R117) -/

/-- SCLZ: leading zeros; 64 for zero (R117). -/
def execSclz (o : SUn) (s : State) : Host.Outcome State Fault Refusal := scalar1 (.sclz o) o.d o.a (fun x => BitVec.ofNat 64 (leadZeros 64 x.toNat)) s

/-- SCTZ: trailing zeros; 64 for zero (R117). -/
def execSctz (o : SUn) (s : State) : Host.Outcome State Fault Refusal := scalar1 (.sctz o) o.d o.a (fun x => BitVec.ofNat 64 (trailZeros x)) s

/-- SPOPC: number of 1 bits (R117). -/
def execSpopc (o : SUn) (s : State) : Host.Outcome State Fault Refusal := scalar1 (.spopc o) o.d o.a (fun x => BitVec.ofNat 64 (popCount x)) s

/-- SBREV: bit order reversed (R117). -/
def execSbrev (o : SUn) (s : State) : Host.Outcome State Fault Refusal := scalar1 (.sbrev o) o.d o.a (fun x => reverseBits x) s

/-- SSEXT: x[width−1:0] sign-extended (R117). -/
def execSsext (o : SWid) (s : State) : Host.Outcome State Fault Refusal :=
  scalar1 (.ssext o) o.d o.a (fun x => (x <<< (64 - o.width.toNat)).sshiftRight (64 - o.width.toNat)) s

/-- SZEXT: x[width−1:0] zero-extended (R117). -/
def execSzext (o : SWid) (s : State) : Host.Outcome State Fault Refusal :=
  scalar1 (.szext o) o.d o.a (fun x => x &&& lowMask o.width.toNat) s

/-- SBFX: x[pos+length−1 : pos] zero-extended (R117). -/
def execSbfx (o : SBf) (s : State) : Host.Outcome State Fault Refusal :=
  regOp (.sbfx o) s fun w =>
    w.writeS o.d.toNat (extractField (w.readS o.a.toNat) o.pos.toNat (fieldLength o.pos (w.readS o.b.toNat)))

/-- SBFI: Sd with bits [pos+length−1 : pos] replaced by x[length−1:0] (R117). -/
def execSbfi (o : SBf) (s : State) : Host.Outcome State Fault Refusal :=
  regOp (.sbfi o) s fun w =>
    w.writeS o.d.toNat
      (insertField (w.readS o.d.toNat) (w.readS o.a.toNat) o.pos.toNat (fieldLength o.pos (w.readS o.b.toNat)))

/-! ### Majors 0x13, 0x14 and 0x18 to 0x1F (R118, R119) -/

/-- SSEL: (Sc ≠ 0) ? Sa : Sb (R118). -/
def execSsel (o : SSelF) (s : State) : Host.Outcome State Fault Refusal :=
  regOp (.ssel o) s fun w =>
    w.writeS o.d.toNat (if w.readS o.c.toNat ≠ 0 then w.readS o.a.toNat else w.readS o.b.toNat)

/-- SLEA: Sa + (Sb << shift) (R118). -/
def execSlea (o : SLeaF) (s : State) : Host.Outcome State Fault Refusal :=
  regOp (.slea o) s fun w => w.writeS o.d.toNat (w.readS o.a.toNat + w.readS o.b.toNat <<< o.shift.toNat)


/-- SADDI: Sa + i (R119). -/
def execSaddi (o : SImm) (s : State) : Host.Outcome State Fault Refusal :=
  scalar1 (.saddi o) o.d o.a (fun x => x + sext64 o.imm) s

/-- SANDI: Sa AND i (R119). -/
def execSandi (o : SImm) (s : State) : Host.Outcome State Fault Refusal :=
  scalar1 (.sandi o) o.d o.a (fun x => x &&& sext64 o.imm) s

/-- SORI: Sa OR i (R119). -/
def execSori (o : SImm) (s : State) : Host.Outcome State Fault Refusal :=
  scalar1 (.sori o) o.d o.a (fun x => x ||| sext64 o.imm) s

/-- SXORI: Sa XOR i (R119). -/
def execSxori (o : SImm) (s : State) : Host.Outcome State Fault Refusal :=
  scalar1 (.sxori o) o.d o.a (fun x => x ^^^ sext64 o.imm) s

/-- SMOVI: i (R119). -/
def execSmovi (o : SImm) (s : State) : Host.Outcome State Fault Refusal :=
  scalar1 (.smovi o) o.d o.a (fun _ => sext64 o.imm) s

/-- SMOVHI: (imm36 << 28) OR (Sa AND 0xFFF_FFFF), imm36 raw (R119). -/
def execSmovhi (o : SImm) (s : State) : Host.Outcome State Fault Refusal :=
  scalar1 (.smovhi o) o.d o.a (fun x => (o.imm.setWidth 64 <<< 28) ||| (x &&& 0xFFFFFFF)) s

/-- SSLTI: 1 if Sa is less than i, signed (R119). -/
def execSslti (o : SImm) (s : State) : Host.Outcome State Fault Refusal :=
  scalar1 (.sslti o) o.d o.a (fun x => ofBool (x.slt (sext64 o.imm))) s

/-- SADDPC: PC + i, with PC the address of the SADDPC (R119). -/
def execSaddpc (o : SImm) (s : State) : Host.Outcome State Fault Refusal :=
  regOp (.saddpc o) s fun w => w.writeS o.d.toNat (w.pc.setWidth 64 + sext64 o.imm)

end Sys2Proof.Machine
end

