-- ==== Sys2Proof/Machine/System.lean ====
section
/-! DEFINITION. Special registers and counters (01 R26-R28, R31-R34, 02 R55, 04 R131-R134, R141). -/

namespace Sys2Proof.Machine

/-- MPCn as a word (R26). -/
def Mpc.word (m : Mpc) : Word := BitVec.ofNat 64 (m.kstep.toNat + 2 ^ 16 * m.busy.toNat + 2 ^ 17 * m.ovf.toNat)

/-- An SWR to MPCn (R26, R27): OVF is cleared by a 1; KSTEP is written only while BUSY is 0. -/
def Mpc.write (m : Mpc) (x : Word) : Mpc :=
  { m with kstep := if m.busy then m.kstep else x.setWidth 10, ovf := m.ovf && !x.getLsbD 17 }

/-- WINn.LO, WINn.MID and WINn.HI, as parts 0, 1 and 2 (R28). -/
def Window.word (w : Window) (part : Nat) : Word :=
  match part with
  | 0 => w.vbase.setWidth 64
  | 1 => BitVec.ofNat 64 (w.pbase.toNat + 2 ^ 40 * w.dev.toNat)
  | _ => BitVec.ofNat 64 (w.limit.toNat + 2 ^ 36 * w.ghusk.toNat + 2 ^ 40 * w.valid.toNat + 2 ^ 41 * w.wr.toNat
      + 2 ^ 42 * w.peer.toNat + 2 ^ 48 * w.asid.toNat)

/-- Whether a wave's group holds the tiles of its twin, and so its MPC registers (R25, R26). -/
def State.ownsTwin (s : State) (w : Wave) : Bool := (s.twin (s.twinOf w)).owner == some w.group

/-- The value of MPCn for a wave; zero where its group holds no tiles on its twin (log 31). -/
def State.mpcOf (s : State) (w : Wave) (n : Nat) : Mpc :=
  if s.ownsTwin w then (s.twin (s.twinOf w)).mpc.getD n {} else {}

/-- Whether a counter reads 0: at U in a deterministic launch (R141). -/
def State.perfHidden (s : State) (w : Wave) : Bool := s.detOf w && w.priv == .u

/-- PERFn of a wave's context. -/
def State.perfOf (s : State) (w : Wave) (n : Nat) : Perf := (s.ctx w.ctx).perf.getD n {}

/-- Members of a wave's group as GRPSIZE counts them: in a deterministic launch those of the epoch's start (R31, R141). -/
def State.groupSize (s : State) (w : Wave) : Nat :=
  if s.detOf w then
    (s.wavesWith fun x => x.group == w.group && (x.state != .exited || x.exitEpoch == some (s.launch w.launch).epoch)).length
  else (s.members w.group).length

/-- The value of a special register that is one value for the wave (R31, R55, R131); SIGREG reads zero at IL0 (R43). -/
def State.readSpecial (s : State) (w : Wave) (n : Nat) : Word :=
  let g := s.group w.group
  let c := s.ctx w.ctx
  let nat := BitVec.ofNat 64
  match n with
  | 0x01 => nat w.waveid
  | 0x02 => g.grpid.setWidth 64
  | 0x03 => nat (s.groupSize w)
  | 0x04 => w.sgid.setWidth 64
  | 0x05 => nat w.clid
  | 0x06 => nat w.coreid
  | 0x07 => g.nodeid.setWidth 64
  | 0x08 => g.pipcount.setWidth 64
  | 0x09 => w.pipbase.setWidth 64
  | 0x0A => nat (w.pipDepth.foldl max 0)
  | 0x0B => nat w.valloc
  | 0x0C => g.spbase.setWidth 64
  | 0x0D => g.spsize.setWidth 64
  | 0x10 => g.quantum.setWidth 64
  | 0x11 => w.qidx.setWidth 64
  | 0x12 => if g.ilevel = 0 then 0 else w.sigreg.setWidth 64
  | 0x13 => nat g.ilevel
  | 0x14 => w.rngkey
  | 0x20 => c.tvec.setWidth 64
  | 0x21 => w.tcause.setWidth 64
  | 0x22 => w.tmask.setWidth 64
  | 0x23 => w.taddr.setWidth 64 ||| (if w.taddrTile then 1#64 <<< 63 else 0)
  | 0x24 => w.tpc.setWidth 64
  | n =>
    if 0x18 ≤ n ∧ n ≤ 0x1F then (c.slacktab.getD (n - 0x18) 0).setWidth 64
    else if 0x28 ≤ n ∧ n ≤ 0x2F then
      if s.perfHidden w then 0 else (s.perfOf w (n - 0x28)).count.setWidth 64
    else if 0x30 ≤ n ∧ n ≤ 0x33 then (s.mpcOf w (n - 0x30)).word
    else if 0x40 ≤ n ∧ n < 0x70 then (g.windows.getD ((n - 0x40) / 3) {}).word ((n - 0x40) % 3)
    else 0

/-- SRD: a scalar destination, or every active lane of a vector one; LANEID is the lane's number (R31, R32, R131). -/
def execSrd (o : SrdF) (s : State) : Host.Outcome State Fault Refusal :=
  regOp (.srd o) s fun w =>
    if !o.vec then w.writeS o.d.toNat (s.readSpecial w o.sr.toNat)
    else w.writeLanes w.exec o.d.toNat (vregOf fun l =>
      if o.sr = 0 then BitVec.ofNat 64 l else s.readSpecial w o.sr.toNat)

/-- The effect of an SWR that is allowed: the low bits of the value, at the wave, its context or its group (R132). -/
def State.writeSpecial (s : State) (k : Nat) (n : Nat) (x : Word) : State :=
  let w := s.wave k
  match n with
  | 0x12 => s.modWave k fun w => { w with sigreg := x.setWidth 32 }
  | 0x14 => s.modWave k fun w => { w with rngkey := x }
  | 0x20 => s.modCtx w.ctx fun c => { c with tvec := x.setWidth 56 }
  | 0x24 => s.modWave k fun w => { w with tpc := x.setWidth 56 }
  | n =>
    if 0x18 ≤ n ∧ n ≤ 0x1F then
      s.modCtx w.ctx fun c => { c with slacktab := putAt 0 c.slacktab (n - 0x18) (x.setWidth 16 &&& 0x83FF) }
    else if 0x28 ≤ n ∧ n ≤ 0x2F then
      s.modCtx w.ctx fun c => { c with perf := modAt (fun p => p.write s.cc (x.setWidth 48)) c.perf (n - 0x28) }
    else if 0x30 ≤ n ∧ n ≤ 0x33 ∧ s.ownsTwin w then
      s.modTwin (s.twinOf w) fun t => { t with mpc := modAt (fun m => m.write x) t.mpc (n - 0x30) }
    else s

/-- SWR: TVEC and TPC must be aligned (R132). -/
def execSwr (o : SwrF) (s : State) : Host.Outcome State Fault Refusal :=
  issue (.swr o) s fun k s =>
    let x := (s.wave k).readS o.a.toNat
    if (o.sr = 0x20 ∨ o.sr = 0x24) ∧ x.toNat % 8 ≠ 0 then s.trapExec k 0x04
    else (s.writeSpecial k o.sr.toNat x).done k (.swr o)

/-- PERFRD: the count and the overflow bit in a long write; mod[0] also clears the bit (R134). -/
def execPerfrd (o : PerfrdF) (s : State) : Host.Outcome State Fault Refusal :=
  issue (.perfrd o) s fun k s =>
    let w := s.wave k
    let p := s.perfOf w o.n.toNat
    let x : Word := if s.perfHidden w then 0 else p.count.setWidth 64 ||| (if p.overflow then BitVec.ofNat 64 (2 ^ 48) else 0)
    let s := if !o.clr then s else
      s.modCtx w.ctx fun c => { c with perf := modAt (fun p => { p with overflow := false }) c.perf o.n.toNat }
    s.doneWith k (.perfrd o) fun w => w.long (w.sReg o.d.toNat) (.s x)

end Sys2Proof.Machine
end

