-- ==== Sys2Proof/Machine/VecConvert.lean ====
section
/-! DEFINITION. Vector compare, select, pack, move, conversion, quantisation and random numbers (05 R151-R156). -/

namespace Sys2Proof

/-- One converted element (R85-R87, R154): `r` holds the 16 random bits of stochastic rounding. -/
def convert (dst src : ET) (rm : RM) (sat : Bool) (r : Nat) (x : Nat) : Nat :=
  let v := if src.isFloat then src.fmt.decode x else .ofInt (elemInt src x)
  if dst.isFloat then dst.fmt.round rm sat r v
  else if src.isFloat then
    wrapTo dst.width (v.toInt rm r (minOf dst.isSigned dst.width) (maxOf dst.isSigned dst.width))
  else storeInt dst.isSigned sat dst.width (elemInt src x)

/-- One quantised element, of scale byte `e` (R102). -/
def quantise (narrow wide : ET) (rm : RM) (sat : Bool) (e r : Nat) (x : Nat) : Nat :=
  let v := scaleBy e false (wide.fmt.decode x)
  if narrow.isFloat then narrow.fmt.round rm sat r v else wrapTo 8 (v.toInt rm r (-128) 127)

/-- One dequantised element (R102). -/
def dequantise (narrow wide : ET) (rm : RM) (sat : Bool) (e r : Nat) (x : Nat) : Nat :=
  let v := if narrow.isFloat then narrow.fmt.decode x else .ofInt (elemInt narrow x)
  wide.fmt.round rm sat r (scaleBy e true v)

/-- The scale byte of the element `j` of lane `l` of a narrow register (R101). -/
def scaleByte (narrow : ET) (scales : VReg) (bs l j : Nat) : Nat :=
  elemOf 8 (laneOf scales ((l * narrow.count + j) / 32)) bs

/-- A uniform value n × 2^(-k) in a format (R94). -/
def uniformCode (f : Fmt) (n k : Nat) : Nat :=
  f.round .rn false 0 (if n = 0 then .zero false else .val false n 1 (-(k : Int)))

/-- The sub-elements of a lane of VRND from its block (R94). -/
def randomLane (t : ET) (uniform : Bool) (block : Nat) : Word :=
  if !uniform then BitVec.ofNat 64 block
  else
    packElems t.width ((List.range t.count).map fun j =>
      let raw := elemOf t.width (BitVec.ofNat 64 block) j
      match t with
      | .f16x4 => uniformCode .fp16 (raw >>> 5) 11
      | .bf16x4 => uniformCode .bf16 (raw >>> 8) 8
      | _ => uniformCode .fp32 (raw >>> 8) 24)

end Sys2Proof

namespace Sys2Proof.Machine

/-! ### Compare and select (R151-R153) -/

/-- The lanes of VCMP whose sub-elements all, or with X[0] any, meet the condition (R151). -/
def compareMask (c : VCond) (o : VOp) (w : Wave) : Mask :=
  maskOf fun l =>
    let x := laneOf (w.readV o.a.toNat) l
    let y := laneOf (w.bsrc o.et o.b) l
    let test (j : Nat) : Bool := c.holds o.et (elemOf o.et.width x j) (elemOf o.et.width y j)
    if o.x then (List.range o.et.count).any test else (List.range o.et.count).all test

/-- VCMP: bit l of Pd for each active lane (R151). -/
def execVcmp (c : VCond) (o : VOp) (s : State) : Host.Outcome State Fault Refusal :=
  regOp (.vcmp c o) s fun w =>
    let g := w.governing o.pn o.pi
    w.writeP o.d.toNat ((compareMask c o w &&& g) ||| (w.readP o.d.toNat &&& ~~~g))

/-- VCMPM: all ones or zero in each sub-element (R151). -/
def execVcmpm (c : VCond) (o : VOp) (s : State) : Host.Outcome State Fault Refusal :=
  vecOp (.vcmpm c o) o (o.map2 fun x y => if c.holds o.et x y then 2 ^ o.et.width - 1 else 0) s

/-- VSEL: the lane of Va where Pc is 1, else that of the b operand (R152). -/
def execVsel (o : VOp) (s : State) : Host.Outcome State Fault Refusal :=
  vecOp (.vsel o) o (fun w => mergeLanes (w.readP o.c.toNat) (w.readV o.a.toNat) (w.bsrc o.et o.b)) s

/-- VSELM: (Va AND Vc) OR (b AND NOT Vc) (R152). -/
def execVselm (o : VOp) (s : State) : Host.Outcome State Fault Refusal :=
  vecOp (.vselm o) o (fun w => vregOf fun l =>
    let m := laneOf (w.readV o.c.toNat) l
    (laneOf (w.readV o.a.toNat) l &&& m) ||| (laneOf (w.bsrc o.et o.b) l &&& ~~~m)) s

/-- VPACK: source elements of 2w bits, read as signed, of Va and then of Vb (R152). -/
def execVpack (o : VOp) (s : State) : Host.Outcome State Fault Refusal :=
  vecOp (.vpack o) o (fun w => vregOf fun l =>
    let half := elemsOf (2 * o.et.width)
    packElems o.et.width ((half (laneOf (w.readV o.a.toNat) l) ++ half (laneOf (w.bsrc o.et o.b) l)).map fun x =>
      o.finish (toSigned (2 * o.et.width) x))) s

/-- The source elements of width w/2 from number `first` on, widened: X[0] = 1 zero-extends (R152). -/
def unpackLane (o : VOp) (first : Nat) (x : Word) : Word :=
  packElems o.et.width ((List.range o.et.count).map fun j =>
    let e := elemOf (o.et.width / 2) x (first + j)
    if o.x then e else wrapTo o.et.width (toSigned (o.et.width / 2) e))

/-- VUNPKL (R152). -/
def execVunpkl (o : VOp) (s : State) : Host.Outcome State Fault Refusal :=
  vecOp (.vunpkl o) o (fun w => vregOf fun l => unpackLane o 0 (laneOf (w.readV o.a.toNat) l)) s

/-- VUNPKH (R152). -/
def execVunpkh (o : VOp) (s : State) : Host.Outcome State Fault Refusal :=
  vecOp (.vunpkh o) o (fun w => vregOf fun l => unpackLane o o.et.count (laneOf (w.readV o.a.toNat) l)) s

/-- VMOV: the b operand (R152). -/
def execVmov (o : VOp) (s : State) : Host.Outcome State Fault Refusal :=
  vecOp (.vmov o) o (fun w => w.bsrc o.et o.b) s

/-- VMOVI: sext(imm36) in every active lane (R153). -/
def execVmovi (o : VMoviF) (s : State) : Host.Outcome State Fault Refusal :=
  regOp (.vmovi o) s fun w =>
    w.writeLanes (w.governing o.pn o.pi) o.d.toNat (List.replicate lanes (sext64 o.imm))

/-! ### Conversion (R154, R155) -/

/-- The random bits of destination sub-element `t` of a lane under RM 4, at the position in S55 (R91). -/
def State.roundBits (s : State) (w : Wave) (rm : RM) (l t : Nat) : Nat :=
  if rm = .rs then stochasticBits w.rngkey (s.threadOf w l) (w.readS 55) t else 0

/-- The source sub-element of destination sub-element `j` of a lane: narrowing takes Va and then Vb, widening a half of Va
(R154). -/
def VCvtSource (o : VCvtF) (a b : Word) (j : Nat) : Nat :=
  let n := o.src.count
  if o.dst.count = 2 * n then (if j < n then elemOf o.src.width a j else elemOf o.src.width b (j - n))
  else if n = 2 * o.dst.count then elemOf o.src.width a (j + o.dst.count * o.x.toNat)
  else elemOf o.src.width a j

/-- VCVT (R154). -/
def execVcvt (o : VCvtF) (s : State) : Host.Outcome State Fault Refusal :=
  regOp (.vcvt o) s fun w =>
    w.writeLanes (w.governing o.pn o.pi) o.d.toNat (vregOf fun l =>
      packElems o.dst.width ((List.range o.dst.count).map fun j =>
        convert o.dst o.src o.rm o.sat (s.roundBits w o.rm l j)
          (VCvtSource o (laneOf (w.readV o.a.toNat) l) (laneOf (w.readV o.b.toNat) l) j)))

/-- VQNT: g wide registers into one narrow one (R101, R102, R155). -/
def execVqnt (o : VQntF) (s : State) : Host.Outcome State Fault Refusal :=
  regOp (.vqnt o) s fun w =>
    w.writeLanes (w.governing o.pn o.pi) o.d.toNat (vregOf fun l =>
      packElems o.narrow.width ((List.range o.narrow.count).map fun j =>
        quantise o.narrow o.wide o.rm o.sat (scaleByte o.narrow (w.readV o.b.toNat) o.bs.toNat l j)
          (s.roundBits w o.rm l j)
          (elemOf o.wide.width (laneOf (w.readV (o.a.toNat + j / o.wide.count)) l) (j % o.wide.count))))

/-- VDQNT: one narrow register into g wide ones (R101, R102, R155). -/
def execVdqnt (o : VQntF) (s : State) : Host.Outcome State Fault Refusal :=
  regOp (.vdqnt o) s fun w =>
    (List.range o.ratio).foldl (fun x i =>
      x.writeLanes (w.governing o.pn o.pi) (o.d.toNat + i) (vregOf fun l =>
        packElems o.wide.width ((List.range o.wide.count).map fun k =>
          let j := i * o.wide.count + k
          dequantise o.narrow o.wide o.rm o.sat (scaleByte o.narrow (w.readV o.b.toNat) o.bs.toNat l j)
            (s.roundBits w o.rm l j) (elemOf o.narrow.width (laneOf (w.readV o.a.toNat) l) j)))) w

/-! ### Random numbers (R156) -/

/-- VRND: each lane draws its own domain-0 stream at the position in Sa (R93, R94, R156). -/
def State.vrnd (s : State) (o : VOp) (uniform : Bool) (w : Wave) : VReg :=
  vregOf fun l => randomLane o.et uniform (streamBlock 0 w.rngkey (s.threadOf w l) (w.readS o.a.toNat))

/-- VRND on an integer ET: raw bits (R156). -/
def execVrndRaw (o : VOp) (s : State) : Host.Outcome State Fault Refusal := vecOp (.vrndRaw o) o (s.vrnd o false) s

/-- VRND on a floating ET: uniform in [0, 1) (R156). -/
def execVrndUniform (o : VOp) (s : State) : Host.Outcome State Fault Refusal :=
  vecOp (.vrndUniform o) o (s.vrnd o true) s

end Sys2Proof.Machine
end

