-- ==== Sys2Proof/Machine/Special.lean ====
section
/-! DEFINITION. The special functions of major 0x33 (05 R149, R150; log 9).
R149 bounds each FP32 result and leaves its bits open: the result is `Config.specialFn` wherever that lies within the
bound of the exact value, and otherwise the exact value rounded to nearest. -/

namespace Sys2Proof.Special

open Sys2Proof

/-- The nine functions, by fn code (R149). -/
inductive Fn where
  | rcp | rsq | sqrt | exp2 | log2 | sin | cos | tanh | sigm
deriving DecidableEq, Repr

/-- fn code (R149). -/
def Fn.code : Fn → Nat
  | .rcp => 0 | .rsq => 1 | .sqrt => 2 | .exp2 => 3 | .log2 => 4 | .sin => 5 | .cos => 6 | .tanh => 7 | .sigm => 8

/-! ### Fixed-point references: a number `n` stands for n / 2^112 -/

/-- Fraction bits of the references. -/
abbrev P : Nat := 112

/-- 1, ln 2, pi and log2 e. -/
def one : Nat := 2 ^ P
def ln2 : Nat := 0xb17217f7d1cf79abc9e3b39803f2
def piFix : Nat := 0x3243f6a8885a308d313198a2e0370
def log2e : Nat := 0x171547652b82fe1777d0ffda0d23a

/-- Integer square root, from bit `k - 1` down. -/
def isqrt (n : Nat) : Nat → Nat → Nat
  | 0, r => r
  | k + 1, r => isqrt n k (if (r + 2 ^ k) * (r + 2 ^ k) ≤ n then r + 2 ^ k else r)

/-- The rest of the exponential series from term `n` on, with `fuel` terms. -/
def expSeries (t : Nat) : Nat → Nat → Nat → Nat
  | 0, _, _ => 0
  | fuel + 1, n, term => term + expSeries t fuel (n + 1) (((term * t) >>> P) / n)

/-- 2^f for a fraction f. -/
def exp2Frac (f : Nat) : Nat := expSeries ((f * ln2) >>> P) 40 1 one

/-- 2^z for z ≥ 0. -/
def exp2Fix (z : Nat) : Nat := exp2Frac (z % one) <<< (z >>> P)

/-- Fraction bits of log2 m for m in [1, 2), bit by bit. -/
def log2Bits : Nat → Nat → Nat → Nat
  | 0, _, _ => 0
  | fuel + 1, m, w =>
    let q := (m * m) >>> P
    if 2 * one ≤ q then w + log2Bits fuel (q / 2) (w / 2) else log2Bits fuel q (w / 2)

/-- The rest of the sine series. -/
def sinSeries (t2 : Nat) : Nat → Nat → Int → Int
  | 0, _, _ => 0
  | fuel + 1, n, term => term + sinSeries t2 fuel (n + 2) (-(term * t2 / (one : Int)) / ((n + 1) * (n + 2) : Nat))

/-- sin(pi q) for q ≥ 0. -/
def sinPi (q : Nat) : Int :=
  let q := q % (2 * one)
  let (neg, q) := if one ≤ q then (true, q - one) else (false, q)
  let q := if one / 2 < q then one - q else q
  let t := (q * piFix) >>> P
  let s := sinSeries ((t * t) >>> P) 24 1 t
  if neg then -s else s

/-- A positive value as a fixed-point number. -/
def toFix (n : Nat) (e : Int) : Nat :=
  match e with
  | .ofNat k => n <<< (P + k)
  | .negSucc k => (n <<< P) >>> (k + 1)

/-! ### Acceptance -/

/-- `m * 2^e`. -/
structure Dy where
  m : Int
  e : Int
deriving DecidableEq, Repr

/-- Sum. -/
def Dy.add (a b : Dy) : Dy :=
  let e := min a.e b.e
  { m := a.m * 2 ^ (a.e - e).toNat + b.m * 2 ^ (b.e - e).toNat, e := e }

/-- Whether a number is at most zero. -/
def Dy.le (a b : Dy) : Bool := (a.add { b with m := -b.m }).m ≤ 0

/-- Absolute difference. -/
def Dy.dist (a b : Dy) : Dy := let d := a.add { b with m := -b.m }; { d with m := d.m.natAbs }

/-- The greater of two. -/
def Dy.max (a b : Dy) : Dy := if a.le b then b else a

/-- `k` units in the last place of FP32 at a value. -/
def Dy.ulps (k : Nat) (a : Dy) : Dy :=
  if a.m = 0 then { m := k, e := -149 } else { m := k, e := Max.max ((a.m.natAbs.log2 : Int) + a.e - 23) (-149) }

/-- A reference value of a function and the bound R149 allows around it. -/
structure Ref where
  value : Dy
  bound : Dy
deriving DecidableEq, Repr

/-- The reference and bound of a function at (-1)^neg * n * 2^e, for operands that are neither special nor exact. -/
def reference (f : Fn) (neg : Bool) (n : Nat) (e : Int) : Ref :=
  let x := toFix n e
  let sgn (s : Bool) (m : Int) : Int := if s then -m else m
  let abs (m : Int) (k : Int) : Dy := { m := m, e := k }
  match f with
  | .rcp =>
    let v : Dy := { m := sgn neg (2 ^ (2 * P) / n : Nat), e := -e - 2 * P }
    { value := v, bound := v.ulps 1 }
  | .rsq =>
    let odd := e % 2 != 0
    let n' := if odd then 2 * n else n
    let e' := if odd then e - 1 else e
    let v : Dy := { m := isqrt (2 ^ (2 * P) / n') (P + 1) 0, e := -(e' / 2) - P }
    { value := v, bound := v.ulps 1 }
  | .sqrt => { value := abs 0 0, bound := abs 0 0 }
  | .exp2 =>
    -- 2^x = 2^k * 2^f with f in [0, 1)
    let whole := x >>> P
    let frac := x % one
    let v : Dy := if neg
      then (if frac = 0 then { m := one, e := -(whole : Int) - P } else { m := exp2Frac (one - frac), e := -(whole : Int) - 1 - P })
      else { m := exp2Frac frac, e := (whole : Int) - P }
    { value := v, bound := v.ulps 2 }
  | .log2 =>
    let k : Int := e + n.log2
    let m := n <<< (P - n.log2)
    let v : Dy := { m := k * (one : Int) + (log2Bits 90 m (one / 2) : Int), e := -(P : Int) }
    let near := (Dy.le (abs 1 (-1)) (abs n e)) && (Dy.le (abs n e) (abs 2 0))
    { value := v, bound := if near then abs 1 (-22) else v.ulps 2 }
  | .sin => { value := { m := sgn neg (sinPi x), e := -(P : Int) }, bound := abs 1 (-22) }
  | .cos => { value := { m := sinPi (x + one / 2), e := -(P : Int) }, bound := abs 1 (-22) }
  | .tanh =>
    let v : Nat := if 32 * one ≤ x then one else
      let y := exp2Fix ((2 * x * log2e) >>> P)
      ((y - one) <<< P) / (y + one)
    let d : Dy := { m := sgn neg v, e := -(P : Int) }
    { value := d, bound := (d.ulps 2).max (abs 1 (-23)) }
  | .sigm =>
    let v : Nat := if 64 * one ≤ x then (if neg then 0 else one) else
      let y := exp2Fix ((x * log2e) >>> P)
      if neg then (one <<< P) / (y + one) else (y <<< P) / (y + one)
    let d : Dy := { m := v, e := -(P : Int) }
    { value := d, bound := (d.ulps 2).max (abs 1 (-24)) }

/-- Margin for the truncation of the references: 2^-56 of the unit of the bound. -/
def Ref.accepts (r : Ref) (c : Nat) : Bool :=
  match Fmt.fp32.decode c with
  | .zero _ => (r.value.dist { m := 0, e := 0 }).le (r.bound.add { m := 1, e := r.bound.e - 56 })
  | .val neg n _ e =>
    (r.value.dist { m := if neg then -(n : Int) else n, e := e }).le (r.bound.add { m := 1, e := r.bound.e - 56 })
  | _ => false

/-- The reference rounded to nearest. -/
def Ref.rounded (r : Ref) (zeroNeg : Bool) : Nat :=
  Fmt.fp32.round .rn false 0 (if r.value.m = 0 then .zero zeroNeg else .val (r.value.m < 0) r.value.m.natAbs 1 r.value.e)

/-- The result of a function whose operand is neither special nor an exact case. -/
def bounded (f : Fn) (x : Nat) (neg : Bool) (n : Nat) (e : Int) : Nat :=
  let r := reference f neg n e
  let c := (Config.specialFn f.code (BitVec.ofNat 32 x)).toNat
  if r.accepts c then c else r.rounded neg

/-- Square root, correctly rounded: the root with a sticky bit below it. -/
def sqrtExact (n : Nat) (e : Int) : Nat :=
  let odd := e % 2 != 0
  let n' := (if odd then 2 * n else n) <<< 100
  let e' := (if odd then e - 1 else e) - 100
  let s := isqrt n' 64 0
  Fmt.fp32.round .rn false 0 (.val false (2 * s + (if s * s = n' then 0 else 1)) 1 (e' / 2 - 1))

/-- Whether n is a power of two. -/
def pow2 (n : Nat) : Bool := n != 0 && n == 2 ^ n.log2

/-- FP32 constants. -/
def f32One : Nat := 0x3F800000
def f32Half : Nat := 0x3F000000
def f32Inf : Nat := 0x7F800000
def f32Nan : Nat := 0x7FC00000
def f32Neg (c : Nat) : Nat := c + 0x80000000

/-- A value as an integer, when it is one. -/
def asInt (n : Nat) (e : Int) : Option Nat :=
  match e with
  | .ofNat k => some (n <<< k)
  | .negSucc k => if n % 2 ^ (k + 1) = 0 then some (n >>> (k + 1)) else none

/-- A special function on an FP32 encoding (R149, R150). -/
def fp32 (f : Fn) (x : Nat) : Nat :=
  match Fmt.fp32.decode x with
  | .nan => f32Nan
  | .inf neg =>
    match f with
    | .rcp => if neg then f32Neg 0 else 0
    | .rsq => if neg then f32Nan else 0
    | .sqrt => if neg then f32Nan else f32Inf
    | .exp2 => if neg then 0 else f32Inf
    | .log2 => if neg then f32Nan else f32Inf
    | .sin | .cos => f32Nan
    | .tanh => if neg then f32Neg f32One else f32One
    | .sigm => if neg then 0 else f32One
  | .zero neg =>
    match f with
    | .rcp | .rsq => if neg then f32Neg f32Inf else f32Inf
    | .sqrt | .sin | .tanh => if neg then f32Neg 0 else 0
    | .exp2 | .cos => f32One
    | .log2 => f32Neg f32Inf
    | .sigm => f32Half
  | .val neg n _ e =>
    let r := fun (v : FX) => Fmt.fp32.round .rn false 0 v
    match f with
    | .rcp => if pow2 n then r (.val neg 1 1 (-(e + n.log2))) else bounded f x neg n e
    | .rsq =>
      if neg then f32Nan
      else if pow2 n && (e + n.log2) % 2 == 0 then r (.val false 1 1 (-((e + n.log2) / 2)))
      else bounded f x neg n e
    | .sqrt => if neg then f32Nan else sqrtExact n e
    | .exp2 =>
      -- beyond these magnitudes the exact value rounds to infinity or to +0
      if 8 ≤ e + n.log2 then (if neg then 0 else f32Inf)
      else match asInt n e with
        | some k => r (.val false 1 1 (if neg then -(k : Int) else k))
        | none => bounded f x neg n e
    | .log2 =>
      if neg then f32Nan
      else if pow2 n then r (.ofInt (e + n.log2))
      else bounded f x neg n e
    | .sin =>
      match asInt n e with
      | some _ => if neg then f32Neg 0 else 0
      | none =>
        match asInt n (e + 1) with
        | some k => if (k % 4 == 3) != neg then f32Neg f32One else f32One
        | none => bounded f x neg n e
    | .cos =>
      match asInt n e with
      | some k => if k % 2 = 0 then f32One else f32Neg f32One
      | none =>
        match asInt n (e + 1) with
        | some _ => 0
        | none => bounded f x neg n e
    | .tanh => bounded f x neg n e
    | .sigm => bounded f x neg n e

/-- A special function on an element of a floating type: widened exactly to FP32 and rounded once back (R149). -/
def apply (f : Fn) (t : Fmt) (x : Nat) : Nat :=
  if t = .fp32 then fp32 f x
  else t.round .rn false 0 (Fmt.fp32.decode (fp32 f (Fmt.fp32.round .rn false 0 (t.decode x))))

end Sys2Proof.Special
end

