-- ==== Sys2Proof/Machine/VecFloat.lean ====
section
/-! DEFINITION. Vector floating arithmetic and special functions (05 R148-R150). -/

namespace Sys2Proof

/-- x × y − z with one rounding (R148). -/
def Fmt.fmsC (f : Fmt) (rm : RM) (sat : Bool) (a b c : Nat) : Nat :=
  f.round rm sat 0 (((f.decode a).mul (f.decode b)).add rm (f.decode c).neg)

end Sys2Proof

namespace Sys2Proof.Machine

/-- VFADD (R148). -/
def execVfadd (o : VOp) (s : State) : Host.Outcome State Fault Refusal :=
  vecOp (.vfadd o) o (o.map2 (Fmt.addC o.et.fmt o.rm o.sat)) s

/-- VFSUB (R148). -/
def execVfsub (o : VOp) (s : State) : Host.Outcome State Fault Refusal :=
  vecOp (.vfsub o) o (o.map2 (Fmt.subC o.et.fmt o.rm o.sat)) s

/-- VFMUL (R148). -/
def execVfmul (o : VOp) (s : State) : Host.Outcome State Fault Refusal :=
  vecOp (.vfmul o) o (o.map2 (Fmt.mulC o.et.fmt o.rm o.sat)) s

/-- VFMA: x × y + z rounded once (R148). -/
def execVfma (o : VOp) (s : State) : Host.Outcome State Fault Refusal :=
  vecOp (.vfma o) o (o.map3 (Fmt.fmaC o.et.fmt o.rm o.sat)) s

/-- VFMS: x × y − z rounded once (R148). -/
def execVfms (o : VOp) (s : State) : Host.Outcome State Fault Refusal :=
  vecOp (.vfms o) o (o.map3 (Fmt.fmsC o.et.fmt o.rm o.sat)) s

/-- VFMIN: minimumNumber (R84, R148). -/
def execVfmin (o : VOp) (s : State) : Host.Outcome State Fault Refusal :=
  vecOp (.vfmin o) o (o.map2 (o.et.fmt.minMax false)) s

/-- VFMAX: maximumNumber (R84, R148). -/
def execVfmax (o : VOp) (s : State) : Host.Outcome State Fault Refusal :=
  vecOp (.vfmax o) o (o.map2 (o.et.fmt.minMax true)) s

/-- VFABS: the sign bit cleared (R148). -/
def execVfabs (o : VOp) (s : State) : Host.Outcome State Fault Refusal :=
  vecOp (.vfabs o) o (o.map1 o.et.fmt.mag) s

/-- VFNEG: the sign bit inverted (R148). -/
def execVfneg (o : VOp) (s : State) : Host.Outcome State Fault Refusal :=
  vecOp (.vfneg o) o (o.map1 fun x => x ^^^ 2 ^ (o.et.width - 1)) s

/-- VFDIV: x / y correctly rounded, a long write (R148). -/
def execVfdiv (o : VOp) (s : State) : Host.Outcome State Fault Refusal :=
  vecLong (.vfdiv o) o (o.map2 (Fmt.divC o.et.fmt o.rm o.sat)) s

/-- VRCP: the special function, a long write (R149, R150). -/
def execVrcp (o : VOp) (s : State) : Host.Outcome State Fault Refusal :=
  vecLong (.vrcp o) o (o.map1 (Special.apply .rcp o.et.fmt)) s

/-- VRSQ: the special function, a long write (R149, R150). -/
def execVrsq (o : VOp) (s : State) : Host.Outcome State Fault Refusal :=
  vecLong (.vrsq o) o (o.map1 (Special.apply .rsq o.et.fmt)) s

/-- VSQRT: the special function, a long write (R149, R150). -/
def execVsqrt (o : VOp) (s : State) : Host.Outcome State Fault Refusal :=
  vecLong (.vsqrt o) o (o.map1 (Special.apply .sqrt o.et.fmt)) s

/-- VEXP2: the special function, a long write (R149, R150). -/
def execVexp2 (o : VOp) (s : State) : Host.Outcome State Fault Refusal :=
  vecLong (.vexp2 o) o (o.map1 (Special.apply .exp2 o.et.fmt)) s

/-- VLOG2: the special function, a long write (R149, R150). -/
def execVlog2 (o : VOp) (s : State) : Host.Outcome State Fault Refusal :=
  vecLong (.vlog2 o) o (o.map1 (Special.apply .log2 o.et.fmt)) s

/-- VSIN: the special function, a long write (R149, R150). -/
def execVsin (o : VOp) (s : State) : Host.Outcome State Fault Refusal :=
  vecLong (.vsin o) o (o.map1 (Special.apply .sin o.et.fmt)) s

/-- VCOS: the special function, a long write (R149, R150). -/
def execVcos (o : VOp) (s : State) : Host.Outcome State Fault Refusal :=
  vecLong (.vcos o) o (o.map1 (Special.apply .cos o.et.fmt)) s

/-- VTANH: the special function, a long write (R149, R150). -/
def execVtanh (o : VOp) (s : State) : Host.Outcome State Fault Refusal :=
  vecLong (.vtanh o) o (o.map1 (Special.apply .tanh o.et.fmt)) s

/-- VSIGM: the special function, a long write (R149, R150). -/
def execVsigm (o : VOp) (s : State) : Host.Outcome State Fault Refusal :=
  vecLong (.vsigm o) o (o.map1 (Special.apply .sigm o.et.fmt)) s

end Sys2Proof.Machine
end

