-- ==== Sys2Proof/Machine/Dispatch.lean ====
section
/-! DEFINITION. One arm per instruction: a direct call of its meaning. -/

namespace Sys2Proof.Machine

def exec (i : Instr) (s : State) : Host.Outcome State Fault Refusal :=
  match i with
  | .nop q => Sys2Proof.Machine.execNop q s
  | .bkpt q tag => Sys2Proof.Machine.execBkpt q tag s
  | .exitw q => Sys2Proof.Machine.execExitw q s
  | .tret q => Sys2Proof.Machine.execTret q s
  | .trap q n => Sys2Proof.Machine.execTrap q n s
  | .srd o => Sys2Proof.Machine.execSrd o s
  | .swr o => Sys2Proof.Machine.execSwr o s
  | .perfrd o => Sys2Proof.Machine.execPerfrd o s
  | .bra q off => Sys2Proof.Machine.execBra q off s
  | .brc q cond a off => Sys2Proof.Machine.execBrc q cond a off s
  | .brv q cond a off => Sys2Proof.Machine.execBrv q cond a off s
  | .call q off => Sys2Proof.Machine.execCall q off s
  | .ret q a => Sys2Proof.Machine.execRet q a s
  | .jmpi q a => Sys2Proof.Machine.execJmpi q a s
  | .xmovExecP q a => Sys2Proof.Machine.execXmovExecP q a s
  | .xand q d a inv => Sys2Proof.Machine.execXand q d a inv s
  | .xjoin q a => Sys2Proof.Machine.execXjoin q a s
  | .xmovPExec q d => Sys2Proof.Machine.execXmovPExec q d s
  | .sigchk q imm => Sys2Proof.Machine.execSigchk q imm s
  | .acorn q id => Sys2Proof.Machine.execAcorn q id s
  | .icinv q scope => Sys2Proof.Machine.execIcinv q scope s
  | .sadd o => Sys2Proof.Machine.execSadd o s
  | .ssub o => Sys2Proof.Machine.execSsub o s
  | .sand o => Sys2Proof.Machine.execSand o s
  | .sor o => Sys2Proof.Machine.execSor o s
  | .sxor o => Sys2Proof.Machine.execSxor o s
  | .sandn o => Sys2Proof.Machine.execSandn o s
  | .sshl o => Sys2Proof.Machine.execSshl o s
  | .sshr o => Sys2Proof.Machine.execSshr o s
  | .ssar o => Sys2Proof.Machine.execSsar o s
  | .srot o => Sys2Proof.Machine.execSrot o s
  | .smin o => Sys2Proof.Machine.execSmin o s
  | .smax o => Sys2Proof.Machine.execSmax o s
  | .sminu o => Sys2Proof.Machine.execSminu o s
  | .smaxu o => Sys2Proof.Machine.execSmaxu o s
  | .sslt o => Sys2Proof.Machine.execSslt o s
  | .ssltu o => Sys2Proof.Machine.execSsltu o s
  | .sseq o => Sys2Proof.Machine.execSseq o s
  | .smul o => Sys2Proof.Machine.execSmul o s
  | .smulh o => Sys2Proof.Machine.execSmulh o s
  | .smulhu o => Sys2Proof.Machine.execSmulhu o s
  | .sdiv o => Sys2Proof.Machine.execSdiv o s
  | .sdivu o => Sys2Proof.Machine.execSdivu o s
  | .srem o => Sys2Proof.Machine.execSrem o s
  | .sremu o => Sys2Proof.Machine.execSremu o s
  | .smad o => Sys2Proof.Machine.execSmad o s
  | .sclz o => Sys2Proof.Machine.execSclz o s
  | .sctz o => Sys2Proof.Machine.execSctz o s
  | .spopc o => Sys2Proof.Machine.execSpopc o s
  | .sbrev o => Sys2Proof.Machine.execSbrev o s
  | .ssext o => Sys2Proof.Machine.execSsext o s
  | .szext o => Sys2Proof.Machine.execSzext o s
  | .sbfx o => Sys2Proof.Machine.execSbfx o s
  | .sbfi o => Sys2Proof.Machine.execSbfi o s
  | .ssel o => Sys2Proof.Machine.execSsel o s
  | .slea o => Sys2Proof.Machine.execSlea o s
  | .saddi o => Sys2Proof.Machine.execSaddi o s
  | .sandi o => Sys2Proof.Machine.execSandi o s
  | .sori o => Sys2Proof.Machine.execSori o s
  | .sxori o => Sys2Proof.Machine.execSxori o s
  | .smovi o => Sys2Proof.Machine.execSmovi o s
  | .smovhi o => Sys2Proof.Machine.execSmovhi o s
  | .sslti o => Sys2Proof.Machine.execSslti o s
  | .saddpc o => Sys2Proof.Machine.execSaddpc o s
  | .vadd o => Sys2Proof.Machine.execVadd o s
  | .vsub o => Sys2Proof.Machine.execVsub o s
  | .vmul o => Sys2Proof.Machine.execVmul o s
  | .vmulh o => Sys2Proof.Machine.execVmulh o s
  | .vmad o => Sys2Proof.Machine.execVmad o s
  | .vmin o => Sys2Proof.Machine.execVmin o s
  | .vmax o => Sys2Proof.Machine.execVmax o s
  | .vabs o => Sys2Proof.Machine.execVabs o s
  | .vneg o => Sys2Proof.Machine.execVneg o s
  | .vabsd o => Sys2Proof.Machine.execVabsd o s
  | .vavg o => Sys2Proof.Machine.execVavg o s
  | .vdiv o => Sys2Proof.Machine.execVdiv o s
  | .vrem o => Sys2Proof.Machine.execVrem o s
  | .vand o => Sys2Proof.Machine.execVand o s
  | .vor o => Sys2Proof.Machine.execVor o s
  | .vxor o => Sys2Proof.Machine.execVxor o s
  | .vandn o => Sys2Proof.Machine.execVandn o s
  | .vnot o => Sys2Proof.Machine.execVnot o s
  | .vshl o => Sys2Proof.Machine.execVshl o s
  | .vshr o => Sys2Proof.Machine.execVshr o s
  | .vsar o => Sys2Proof.Machine.execVsar o s
  | .vrot o => Sys2Proof.Machine.execVrot o s
  | .vclz o => Sys2Proof.Machine.execVclz o s
  | .vpopc o => Sys2Proof.Machine.execVpopc o s
  | .vfadd o => Sys2Proof.Machine.execVfadd o s
  | .vfsub o => Sys2Proof.Machine.execVfsub o s
  | .vfmul o => Sys2Proof.Machine.execVfmul o s
  | .vfma o => Sys2Proof.Machine.execVfma o s
  | .vfms o => Sys2Proof.Machine.execVfms o s
  | .vfmin o => Sys2Proof.Machine.execVfmin o s
  | .vfmax o => Sys2Proof.Machine.execVfmax o s
  | .vfabs o => Sys2Proof.Machine.execVfabs o s
  | .vfneg o => Sys2Proof.Machine.execVfneg o s
  | .vfdiv o => Sys2Proof.Machine.execVfdiv o s
  | .vrcp o => Sys2Proof.Machine.execVrcp o s
  | .vrsq o => Sys2Proof.Machine.execVrsq o s
  | .vsqrt o => Sys2Proof.Machine.execVsqrt o s
  | .vexp2 o => Sys2Proof.Machine.execVexp2 o s
  | .vlog2 o => Sys2Proof.Machine.execVlog2 o s
  | .vsin o => Sys2Proof.Machine.execVsin o s
  | .vcos o => Sys2Proof.Machine.execVcos o s
  | .vtanh o => Sys2Proof.Machine.execVtanh o s
  | .vsigm o => Sys2Proof.Machine.execVsigm o s
  | .vcmp cond o => Sys2Proof.Machine.execVcmp cond o s
  | .vcmpm cond o => Sys2Proof.Machine.execVcmpm cond o s
  | .vsel o => Sys2Proof.Machine.execVsel o s
  | .vselm o => Sys2Proof.Machine.execVselm o s
  | .vpack o => Sys2Proof.Machine.execVpack o s
  | .vunpkl o => Sys2Proof.Machine.execVunpkl o s
  | .vunpkh o => Sys2Proof.Machine.execVunpkh o s
  | .vmov o => Sys2Proof.Machine.execVmov o s
  | .vmovi o => Sys2Proof.Machine.execVmovi o s
  | .vcvt o => Sys2Proof.Machine.execVcvt o s
  | .vqnt o => Sys2Proof.Machine.execVqnt o s
  | .vdqnt o => Sys2Proof.Machine.execVdqnt o s
  | .vrndRaw o => Sys2Proof.Machine.execVrndRaw o s
  | .vrndUniform o => Sys2Proof.Machine.execVrndUniform o s
  | .vxread o => Sys2Proof.Machine.execVxread o s
  | .vxshf o => Sys2Proof.Machine.execVxshf o s
  | .vxbfly o => Sys2Proof.Machine.execVxbfly o s
  | .vballot o => Sys2Proof.Machine.execVballot o s
  | .vxred op o => Sys2Proof.Machine.execVxred op o s
  | .vxscan op o => Sys2Proof.Machine.execVxscan op o s
  | .vacs o => Sys2Proof.Machine.execVacs o s
  | .vdwc o => Sys2Proof.Machine.execVdwc o s
  | .vwmax o => Sys2Proof.Machine.execVwmax o s
  | .vwavg o => Sys2Proof.Machine.execVwavg o s
  | .ldS o => Sys2Proof.Machine.execLdS o s
  | .stS o => Sys2Proof.Machine.execStS o s
  | .vld o => Sys2Proof.Machine.execVld o s
  | .vst o => Sys2Proof.Machine.execVst o s
  | .vldx o => Sys2Proof.Machine.execVldx o s
  | .vstx o => Sys2Proof.Machine.execVstx o s
  | .spld o => Sys2Proof.Machine.execSpld o s
  | .spst o => Sys2Proof.Machine.execSpst o s
  | .lda o => Sys2Proof.Machine.execLda o s
  | .strel o => Sys2Proof.Machine.execStrel o s
  | .fence o => Sys2Proof.Machine.execFence o s
  | .clean o => Sys2Proof.Machine.execClean o s
  | .inval o => Sys2Proof.Machine.execInval o s
  | .wmap o => Sys2Proof.Machine.execWmap o s
  | .vatom o => Sys2Proof.Machine.execVatom o s
  | .satom o => Sys2Proof.Machine.execSatom o s
  | .txbegin q off => Sys2Proof.Machine.execTxbegin q off s
  | .txend q d => Sys2Proof.Machine.execTxend q d s
  | .txabort q a => Sys2Proof.Machine.execTxabort q a s
  | .gjoin q a sgid => Sys2Proof.Machine.execGjoin q a sgid s
  | .gleave q => Sys2Proof.Machine.execGleave q s
  | .bopen q d a mask => Sys2Proof.Machine.execBopen q d a mask s
  | .bara q a => Sys2Proof.Machine.execBara q a s
  | .barw q a => Sys2Proof.Machine.execBarw q a s
  | .vclaim q n => Sys2Proof.Machine.execVclaim q n s
  | .vrels q n => Sys2Proof.Machine.execVrels q n s
  | .mmaBp o => Sys2Proof.Machine.execMmaBp o s
  | .mzero q d => Sys2Proof.Machine.execMzero q d s
  | .mrd o => Sys2Proof.Machine.execMrd o s
  | .mwr o => Sys2Proof.Machine.execMwr o s
  | .mbatch q d => Sys2Proof.Machine.execMbatch q d s
  | .mwait q a => Sys2Proof.Machine.execMwait q a s
  | .qplane o => Sys2Proof.Machine.execQplane o s
  | .amaxrd q d slot => Sys2Proof.Machine.execAmaxrd q d slot s
  | .tcopy o => Sys2Proof.Machine.execTcopy o s
  | .tcopyw o => Sys2Proof.Machine.execTcopyw o s
  | .thash o => Sys2Proof.Machine.execThash o s
  | .cfence q mask => Sys2Proof.Machine.execCfence q mask s
  | .cwait q a => Sys2Proof.Machine.execCwait q a s
  | .cyield q a off => Sys2Proof.Machine.execCyield q a off s
  | .emit o => Sys2Proof.Machine.execEmit o s
  | .emitc o => Sys2Proof.Machine.execEmitc o s
  | .joindec o => Sys2Proof.Machine.execJoindec o s
  | .piprd o => Sys2Proof.Machine.execPiprd o s
  | .loadReturn w => Sys2Proof.Machine.execLoadReturn w s
  | .atomicPerformed n => Sys2Proof.Machine.execAtomicPerformed n s
  | .fenceComplete w => Sys2Proof.Machine.execFenceComplete w s
  | .writebackAck w => Sys2Proof.Machine.execWritebackAck w s
  | .icinvAck w => Sys2Proof.Machine.execIcinvAck w s
  | .trapEntry w cause mask addr => Sys2Proof.Machine.execTrapEntry w cause mask addr s
  | .launchTeardown l => Sys2Proof.Machine.execLaunchTeardown l s
  | .transactionAbort w reason code => Sys2Proof.Machine.execTransactionAbort w reason code s
  | .claimGrant core => Sys2Proof.Machine.execClaimGrant core s
  | .claimDeadlock g => Sys2Proof.Machine.execClaimDeadlock g s
  | .matrixOperationStart twin => Sys2Proof.Machine.execMatrixOperationStart twin s
  | .mmaKstep twin => Sys2Proof.Machine.execMmaKstep twin s
  | .tileAccessComplete twin => Sys2Proof.Machine.execTileAccessComplete twin s
  | .copyStart cluster queue => Sys2Proof.Machine.execCopyStart cluster queue s
  | .copyComplete cluster queue => Sys2Proof.Machine.execCopyComplete cluster queue s
  | .podAppend n => Sys2Proof.Machine.execPodAppend n s
  | .coalescingTimerExpiry graph node => Sys2Proof.Machine.execCoalescingTimerExpiry graph node s
  | .podDeadlock l => Sys2Proof.Machine.execPodDeadlock l s
  | .continuationDispatch graph node => Sys2Proof.Machine.execContinuationDispatch graph node s
  | .groupDispatch ctx => Sys2Proof.Machine.execGroupDispatch ctx s
  | .gangReserve l grpid => Sys2Proof.Machine.execGangReserve l grpid s
  | .gangBackoffExpiry l grpid => Sys2Proof.Machine.execGangBackoffExpiry l grpid s
  | .launch c => Sys2Proof.Machine.execLaunch c s
  | .edgeHash l edge region => Sys2Proof.Machine.execEdgeHash l edge region s
  | .operatingPointChange domain => Sys2Proof.Machine.execOperatingPointChange domain s
  | .launchCompletion l => Sys2Proof.Machine.execLaunchCompletion l s
  | .quantumEnd w => Sys2Proof.Machine.execQuantumEnd w s
  | .epochEnd l => Sys2Proof.Machine.execEpochEnd l s
  | .checkCompare pair => Sys2Proof.Machine.execCheckCompare pair s
  | .acornTake pair reason => Sys2Proof.Machine.execAcornTake pair reason s
  | .reexecute pair => Sys2Proof.Machine.execReexecute pair s
  | .l2Request bank => Sys2Proof.Machine.execL2Request bank s
  | .huskSweepComplete husk => Sys2Proof.Machine.execHuskSweepComplete husk s
  | .shareRetire bank share => Sys2Proof.Machine.execShareRetire bank share s
  | .preemptionSave w => Sys2Proof.Machine.execPreemptionSave w s
  | .fullSave w => Sys2Proof.Machine.execFullSave w s
  | .preemptionRestore ctx => Sys2Proof.Machine.execPreemptionRestore ctx s
  | .worldSwitch outCtx inCtx => Sys2Proof.Machine.execWorldSwitch outCtx inCtx s
  | .stage2FaultService w frame => Sys2Proof.Machine.execStage2FaultService w frame s
  | .null w => Sys2Proof.Machine.execNull w s
  | .poolRefill w frames => Sys2Proof.Machine.execPoolRefill w frames s
  | .tlbi w => Sys2Proof.Machine.execTlbi w s
  | .fail w => Sys2Proof.Machine.execFail w s
  | .poolCheck ctx frames => Sys2Proof.Machine.execPoolCheck ctx frames s
  | .huskDefine c => Sys2Proof.Machine.execHuskDefine c s
  | .graphCreate c => Sys2Proof.Machine.execGraphCreate c s
  | .graphDestroy c => Sys2Proof.Machine.execGraphDestroy c s
  | .traceMark c => Sys2Proof.Machine.execTraceMark c s
  | .perfConfig c => Sys2Proof.Machine.execPerfConfig c s
  | .perfRead c => Sys2Proof.Machine.execPerfRead c s
  | .slotConfig c => Sys2Proof.Machine.execSlotConfig c s
  | .poolSet c frames => Sys2Proof.Machine.execPoolSet c frames s
  | .s1rootSet c => Sys2Proof.Machine.execS1rootSet c s
  | .ctxCreate c asid s2root => Sys2Proof.Machine.execCtxCreate c asid s2root s
  | .ctxDestroy c => Sys2Proof.Machine.execCtxDestroy c s
  | .vfAssign c => Sys2Proof.Machine.execVfAssign c s
  | .pairStatus m => Sys2Proof.Machine.execPairStatus m s
  | .pairReturn m pass => Sys2Proof.Machine.execPairReturn m pass s
  | .inject m => Sys2Proof.Machine.execInject m s
  | .wdogSet m => Sys2Proof.Machine.execWdogSet m s
  | .wdogKick m => Sys2Proof.Machine.execWdogKick m s
  | .warmReset b => Sys2Proof.Machine.execWarmReset b s
  | .quiescePoint changes => Sys2Proof.Machine.execQuiescePoint changes s
  | .modeRequest pair checked => Sys2Proof.Machine.execModeRequest pair checked s
  | .lpddr6Request controller => Sys2Proof.Machine.execLpddr6Request controller s
  | .arbiterGrant arbiter => Sys2Proof.Machine.execArbiterGrant arbiter s
  | .slackExhaustion packet => Sys2Proof.Machine.execSlackExhaustion packet s
  | .storePerformed core sector => Sys2Proof.Machine.execStorePerformed core sector s
  | .preemptionRequest ctx => Sys2Proof.Machine.execPreemptionRequest ctx s
  | .signatureEpochAdvance => Sys2Proof.Machine.execSignatureEpochAdvance s
  | .apertureAccess fn off ask => Sys2Proof.Machine.execApertureAccess fn off ask s
  | .sqDoorbell fn queue tail => Sys2Proof.Machine.execSqDoorbell fn queue tail s
  | .queueEnable fn queue value => Sys2Proof.Machine.execQueueEnable fn queue value s
  | .registerWrite fn offset value => Sys2Proof.Machine.execRegisterWrite fn offset value s
  | .iciLoad ctx base file => Sys2Proof.Machine.execIciLoad ctx base file s
  | .coldReset b => Sys2Proof.Machine.execColdReset b s
  | .vfFunctionLevelReset fn => Sys2Proof.Machine.execVfFunctionLevelReset fn s
  | .peerRequest asid va call => Sys2Proof.Machine.execPeerRequest asid va call s
  | .peerShootdown asid va len => Sys2Proof.Machine.execPeerShootdown asid va len s
  | .peerFatalNotice dev => Sys2Proof.Machine.execPeerFatalNotice dev s
  | .linkTraining port goodLanes peer => Sys2Proof.Machine.execLinkTraining port goodLanes peer s
  | .linkLossOfLock port => Sys2Proof.Machine.execLinkLossOfLock port s
  | .watchdogExpiry heartbeatLost => Sys2Proof.Machine.execWatchdogExpiry heartbeatLost s
  | .thermalCapAdjust cause => Sys2Proof.Machine.execThermalCapAdjust cause s
  | .thermalFatal tj watts => Sys2Proof.Machine.execThermalFatal tj watts s
  | .hotClear controller => Sys2Proof.Machine.execHotClear controller s
  | .dramPatrol sector => Sys2Proof.Machine.execDramPatrol sector s
  | .stage2Shootdown ctx ipa len => Sys2Proof.Machine.execStage2Shootdown ctx ipa len s
  | .getVersion => Sys2Proof.Machine.execGetVersion s
  | .getCapabilities => Sys2Proof.Machine.execGetCapabilities s
  | .negotiateAlgorithms base hash => Sys2Proof.Machine.execNegotiateAlgorithms base hash s
  | .getDigests => Sys2Proof.Machine.execGetDigests s
  | .getCertificate slot => Sys2Proof.Machine.execGetCertificate slot s
  | .challenge slot => Sys2Proof.Machine.execChallenge slot s
  | .getMeasurements index nonce => Sys2Proof.Machine.execGetMeasurements index nonce s
  | .keyExchange slot => Sys2Proof.Machine.execKeyExchange slot s
  | .finish session => Sys2Proof.Machine.execFinish session s
  | .heartbeat session => Sys2Proof.Machine.execHeartbeat session s
  | .endSession session => Sys2Proof.Machine.execEndSession session s
  | .ideKm session stream keySet enable => Sys2Proof.Machine.execIdeKm session stream keySet enable s
  | .ideIntegrityFailure stream => Sys2Proof.Machine.execIdeIntegrityFailure stream s
  | .doeDiscovery index => Sys2Proof.Machine.execDoeDiscovery index s

end Sys2Proof.Machine
end

