-- ==== Sys2Proof/Machine/Registers.lean ====
section
/-! DEFINITION. What a host read of BAR 0 returns: the registers of every block, and 0 at every other offset
(14 R404, R405, R407, R416, 11 R351, R356, 12 R376, R386, 13 R396). A read changes nothing. -/

namespace Sys2Proof.Machine

/-- A register put together from fields: lowest bit and value. -/
def pack (l : List (Nat × Nat)) : Word := BitVec.ofNat 64 (l.foldl (fun x e => x + e.2 * 2 ^ e.1) 0)

/-- The identity and control block (R405). -/
def State.readControl (s : State) (fn off : Nat) : Word :=
  let f := s.func fn
  let j := s.jalti
  let pf (x : Word) : Word := if fn = 0 then x else 0
  match off with
  | 0x00 => pack [(0, 9), (16, s.cp.stepping.toNat), (24, fn)]
  | 0x08 => pack [(0, s.cp.stage), (8, s.cp.errcode), (16, s.cp.ready.toNat)]
  | 0x18 => BitVec.ofNat 64 s.fab.linkRoute
  | 0x20 => pack [(0, (BitVec.ofInt 8 j.tj).toNat), (8, j.cap), (11, j.tcapped.toNat), (12, j.pcapped.toNat)]
  | 0x28 => pf (pack [(0, j.tlim), (8, j.plim)])
  | 0x30 => f.apbase
  | 0x38 => pack [(0, f.apctx.toNat), (8, f.apen.toNat)]
  | 0x40 => pf (pack [(0, s.cp.dumpValid.toNat), (1, s.cp.dumpPartial.toNat), (32, s.cp.dumpSeq.toNat)])
  | 0x48 => s.cp.dumpBase.setWidth 64
  | _ => 0

/-- A queue's registers (R407). -/
def Queue.read (q : Queue) (off : Nat) : Word :=
  match off with
  | 0x00 => q.sqBase
  | 0x08 => pack [(0, q.log2n.toNat), (12, if q.bound then q.ctx else 0), (20, q.enable.toNat), (21, q.err.toNat), (22, q.ien.toNat),
      (23, q.vec.toNat)]
  | 0x10 => q.sqTail.setWidth 64
  | 0x18 => q.sqHead.setWidth 64
  | 0x20 => q.cqBase
  | 0x28 => q.cqHead.setWidth 64
  | 0x30 => q.cqTail.setWidth 64
  | _ => 0

/-- The reliability block (R351). -/
def Rel.read (r : Rel) (off : Nat) : Word :=
  match off with
  | 0x00 => r.base.setWidth 64
  | 0x08 => r.size.setWidth 64
  | 0x10 => r.head.setWidth 64
  | 0x18 => r.tail.setWidth 64
  | 0x20 => pack [(0, r.enable.toNat), (1, r.ovf.toNat), (2, r.irq.toNat), (32, min r.dropped (2 ^ 32 - 1))]
  | _ => 0

/-- The mailbox: the command area, then the response area (R356). -/
def Jalti.read (j : Jalti) (off : Nat) : Word :=
  if off % 8 ≠ 0 then 0
  else if off < 0x40 then j.command.getD (off / 8) 0
  else if off < 0x80 then j.response.getD (off / 8 - 8) 0
  else 0

/-- A controller's sketch registers (R376); CLEAR reads 0. -/
def Sketch.read (k : Sketch) (off : Nat) : Word :=
  if off = 0 then pack [(0, k.en.toNat), (2, k.filter.toNat), (8, k.ctx.toNat)]
  else if off = 8 then k.count.setWidth 64
  else if 0x10 ≤ off ∧ off < 0x110 ∧ off % 8 = 0 then
    match k.top.getD (off / 8 - 2) none with
    | some (page, n) => pack [(0, page), (24, 1), (32, n)]
    | none => 0
  else 0

/-- The trace block (R396). -/
def Trace.read (t : Trace) (off : Nat) : Word :=
  match off with
  | 0x00 => t.base.setWidth 64
  | 0x08 => BitVec.ofNat 64 t.log2
  | 0x10 => BitVec.ofNat 64 t.head
  | 0x18 => t.window
  | 0x20 => pack [(0, t.frozen.toNat), (1, t.short.toNat), (32, min t.lostent (2 ^ 32 - 1))]
  | _ => 0

/-- The link block (R386, R416). -/
def Fabric.read (f : Fabric) (off : Nat) : Word :=
  if off = 0 then BitVec.ofNat 64 f.linkRoute
  else match f.ports[off / 8 - 1]? with
    | some p =>
      if off % 8 = 0 then pack [(0, p.state.toNat), (2, p.width.toNat), (6, p.peer.toNat), (8, p.retrains.toNat)] else 0
    | none => 0

/-- An 8-byte read of BAR 0 of a function (R404): a virtual function has the identity block and the queue block only. -/
def State.readBar0 (s : State) (fn offset : Nat) : Word :=
  let off := offset % 0x10000
  match offset / 0x10000 with
  | 0 => s.readControl fn off
  | 1 => if off / 0x40 < 8 then ((s.func fn).queues.getD (off / 0x40) default).read (off % 0x40) else 0
  | 2 => if fn = 0 then s.rel.read off else 0
  | 3 => if fn = 0 then s.jalti.read off else 0
  | 4 => if fn = 0 then ((s.fab.sketches[off / 0x200]?).map fun k => k.read (off % 0x200)).getD 0 else 0
  | 5 => if fn = 0 then s.trace.read off else 0
  | 6 => if fn = 0 then s.fab.read off else 0
  | _ => 0

end Sys2Proof.Machine
end

