-- ==== Sys2Proof/Machine/Schedule.lean ====
section
/-! DEFINITION. What the device does of its own accord between instructions: the command processor's fetch from the
submission queues (14 R408-R411), and the order in which the model serialises the steps of its units (log 6). -/

namespace Sys2Proof

/-- A step, command or reset, and no instruction word. -/
def Instr.isEvent (i : Instr) : Bool := (encode i).isNone

/-- What the device accepts after a fatal error (R355, R418). -/
def Instr.isReset : Instr → Bool
  | .coldReset _ | .warmReset _ => true
  | .registerWrite fn offset value => fn == 0 && offset == 0x10 && value.getLsbD 0
  | _ => false

end Sys2Proof

namespace Sys2Proof.Machine

/-! ### The submission queues (R408-R411) -/

/-- The command processor fetches from a queue (R323, R407, R410, R411). -/
def State.fetches (s : State) (fn queue : Nat) : Bool :=
  let q := (s.func fn).queues.getD queue default
  let frozen := s.cp.switching.any fun e => (s.ctx e.1).fn == fn
  let out := q.bound && (s.ctx q.ctx).switchedOut
  s.cp.ready && !s.cp.fatal && q.enable && !q.err && q.sqTail != q.sqHead && decide ((q.sqHead - q.cqHead).toNat < q.size)
    && !frozen && !out

/-- The 64-byte entry as a command. -/
def cmdOf (fn queue : Nat) (b : List Byte) : Cmd :=
  { fn := fn, queue := queue, tag := BitVec.ofNat 32 (fieldAt b 4 4), addr := BitVec.ofNat 64 (fieldAt b 8 8)
    args := (List.range 6).map fun i => BitVec.ofNat 64 (fieldAt b (16 + 8 * i) 8) }

/-- The lowest context number that is free (R409). -/
def State.freeCtx (s : State) : Nat := (firstBelow (fun n => (s.ctxs[n]?).all fun x => !x.alive) 256).getD 256

/-- Where the command processor builds the stage-2 tables of a context (log 12). -/
def State.rootFor (s : State) (n : Nat) : Nat := s.localPa (0x3A00000000 + n * 0x20000)

/-- The step that an OPC names, with what the command processor supplies (R409). -/
def State.command (s : State) (opc : Nat) (c : Cmd) : Option Instr :=
  match opc with
  | 0x01 => some (.launch c)
  | 0x02 => some (.huskDefine c)
  | 0x03 => some (.graphCreate c)
  | 0x04 => some (.graphDestroy c)
  | 0x05 => some (.traceMark c)
  | 0x06 => some (.perfConfig c)
  | 0x07 => some (.perfRead c)
  | 0x08 => some (.slotConfig c)
  | 0x09 => some (.poolSet c (s.offerFrames 64))
  | 0x0A => some (.s1rootSet c)
  | 0x40 => some (.ctxCreate c (BitVec.ofNat 16 s.cp.nextAsid) (s.rootFor s.freeCtx))
  | 0x41 => some (.ctxDestroy c)
  | 0x42 => some (.vfAssign c)
  | _ => none

/-- A LAUNCH that is rejected with REJECT_DESC before its descriptor is checked; its SEQ is the descriptor's where that can be
read in a bound context (R276, R408). -/
def State.rejectLaunch (s : State) (c : Cmd) (bound : Bool) : State :=
  let ctx := s.cmdCtx c
  let seq := if bound && c.addr.toNat % 64 == 0 then (s.cpRead ctx c.addr.toNat 256).map fun b => fieldAt b 0 8 else none
  let s := match seq with
    | some n => s.modCtx ctx fun x => { x with lastSeq := some (max (x.lastSeq.getD 0) n) }
    | none => s
  let l : Launch := { (default : Launch) with
    ctx := ctx, fn := c.fn, queue := c.queue, tag := c.tag, seq := seq.getD 0, order := s.order }
  let s := { s with launches := s.launches ++ [l], order := s.order + 1 }
  s.endLaunch (s.launches.length - 1) .rejected 0x10

/-- The next entry of a queue is fetched; its command is the next step, or is refused here (R408, R409). -/
def State.fetchCommand (s : State) (fn queue : Nat) : State :=
  let q := (s.func fn).queues.getD queue default
  let b := s.readHostN (q.sqBase.toNat + 64 * (q.sqHead.toNat % q.size)) 64
  let opc := fieldAt b 0 1
  let c := cmdOf fn queue b
  let cmd := s.command opc c
  let s := s.modQueue fn queue fun q => { q with sqHead := q.sqHead + 1 }
  match cmd with
  | none => s.reply c opc 0x21
  | some i =>
    if 0x40 ≤ opc && fn != 0 then s.reply c opc 0x21
    else if fieldAt b 1 3 ≠ 0 then (if opc = 1 then s.rejectLaunch c q.bound else s.reply c opc 0x22)
    else if opc < 0x40 && !q.bound then (if opc = 1 then s.rejectLaunch c false else s.reply c opc 0x23)
    else
      let s := if opc = 0x40 then { s with cp := { s.cp with nextAsid := s.cp.nextAsid + 1 } } else s
      { s with agenda := i :: s.agenda }

/-- The first queue that has an entry to fetch. -/
def State.fetchDue (s : State) : Option (Nat × Nat) :=
  ((List.range 16).flatMap fun f => (List.range 8).map fun q => (f, q)).find? fun e => s.fetches e.1 e.2

/-! ### Steps that the units may take -/

/-- Steps of waves whose outstanding matter has come back: traps, returns, aborts, fences, acknowledgements. -/
def State.waveSteps (s : State) (k : Nat) : List Instr :=
  let w := s.wave k
  let trap := w.trap.map fun (t : Trap) => Instr.trapEntry k t.cause t.mask t.addr
  let back := if w.state = .parked || w.pending.any fun l => l.need == 0 then some (Instr.loadReturn k) else none
  let abort := w.abort.map fun (a : BitVec 4 × BitVec 16) => Instr.transactionAbort k a.1 a.2
  let hold := match w.hold with
    | .fence _ _ => some (Instr.fenceComplete k)
    | .writeback => some (Instr.writebackAck k)
    | .icinv _ => some (Instr.icinvAck k)
    | .none | .txbegin | .acorn _ | .commit | .commitReady => none
  let service := match w.wait with
    | .service 1 => some (Instr.poolRefill k (s.offerFrames 64))
    | .service 2 => some (Instr.tlbi k)
    | .service 3 => some (Instr.fail k)
    | .service _ => some (Instr.null k)
    | .stage2 _ => some (Instr.stage2FaultService k none)
    | .nothing | .claim _ | .barrier _ _ | .emit _ | .batch _ | .ticket _ _ => none
  let quantum := if w.quantumDue then some (Instr.quantumEnd k) else none
  [trap, back, abort, hold, service, quantum].filterMap id

/-- Steps of the memory system and of the engines. -/
def State.engineSteps (s : State) : List Instr :=
  ((List.range s.atomics.length).map Instr.atomicPerformed)
    ++ ((List.range s.twins.length).filter fun t => !(s.twin t).queue.isEmpty).flatMap
        (fun t => [Instr.matrixOperationStart t, .mmaKstep t, .tileAccessComplete t])
    ++ ((List.range s.copies.length).filter fun q => !(s.copyQueue q).entries.isEmpty).flatMap
        (fun q => [Instr.copyComplete (q / 4) (q % 4), .copyStart (q / 4) (q % 4)])
    ++ (((List.range s.cores.length).filter fun c => !(s.core c).claims.isEmpty).map Instr.claimGrant)
    ++ ((List.range s.emits.length).map Instr.podAppend)

/-- Steps of checked pairs (R340-R345). -/
def State.pairSteps (s : State) : List Instr :=
  ((List.range s.jalti.pairs.length).filter fun p => (s.pair p).mode == .checked).flatMap fun p =>
    [some (Instr.checkCompare p), (s.acornWanted p).map (Instr.acornTake p), some (Instr.reexecute p)].filterMap id

/-- Steps of launches: teardown, edges, completion, epochs (R278, R279, R301, R389). -/
def State.launchSteps (s : State) : List Instr :=
  ((List.range s.launches.length).filter fun l => !(s.launch l).completed).flatMap fun l =>
    let x := s.launch l
    let edges := if x.state = .waiting then
      (List.range x.edges.length).map fun e => Instr.edgeHash l e (x.edges.getD e { producer := none, regions := [] }).hashed else []
    [Instr.launchTeardown l, .launchCompletion l, .epochEnd l] ++ edges

/-- The dispatch that a context's partition is to make next (R290, R291). -/
def State.dispatchStep (s : State) (c : Nat) : Option Instr :=
  if !(s.ctx c).alive then none
  else match s.nextCandidate c with
    | some (.gang l) => some (.gangReserve l (s.launch l).nextGroup)
    | some (.cont _ g n) => some (.continuationDispatch g n)
    | some (.flat _) | some (.formed _ _) => some (.groupDispatch c)
    | none => none

/-- A launch waits with something to dispatch at level IL3, or at another (R329). -/
def State.waitsAt (s : State) (c : Nat) (checked : Bool) : Bool :=
  (List.range s.launches.length).any fun l =>
    (s.launch l).ctx == c && s.dispatches l && !(s.candsOf l).isEmpty && ((s.launch l).ilevel == 3) == checked

/-- The mode that the command processor requests of a pair (R329, log 12): CHECKED for an empty pair when IL3 work waits and
no empty pair of the partition is CHECKED, INDEPENDENT for an empty pair when only other work waits. -/
def State.modeStep (s : State) (c : Nat) : Option Instr :=
  let pairs := ((s.ctx c).clusterMap.map (· / 2)).eraseDups
  let empty (m : PairMode) : Option Nat := pairs.find? fun p => (s.pair p).mode == m && (s.pairWaves p).isEmpty
  if !(s.ctx c).alive then none
  else if s.waitsAt c true then
    (if (empty .checked).isSome then none else (empty .independent).map fun p => Instr.modeRequest p true)
  else if s.waitsAt c false then (empty .checked).map fun p => Instr.modeRequest p false
  else none

/-- A function has a launch that has not ended, or an entry to fetch. -/
def State.hasWork (s : State) (fn : Nat) : Bool :=
  (s.launches.any fun x => x.fn == fn && !x.completed)
    || (s.func fn).queues.any fun q => q.bound && q.enable && !q.err && q.sqTail != q.sqHead

/-- The world switches that a time-sliced partition is to make: from a function that has the partition to the next in turn that
has work, at the end of the slice (R322, R323, log 69). -/
def State.sliceSteps (s : State) : List Instr :=
  if s.cp.switching.isSome then []
  else (List.range 16).flatMap fun f =>
    let x := s.func f
    let ended := decide (x.since + 500 * x.slice ≤ s.lc)
    match s.functionCtxs f with
    | [] => []
    | out :: _ =>
      if x.slice = 0 || (s.ctx out).switchedOut || !ended then []
      else
        let turn := (List.range 15).map fun i => (f + 1 + i) % 16
        let next := turn.find? fun g =>
          (s.func g).slice != 0 && (s.func g).pairs == x.pairs && s.hasWork g && (s.functionCtxs g).any fun c => (s.ctx c).switchedOut
        match next.map s.functionCtxs with
        | some (into :: _) => [Instr.worldSwitch out into]
        | _ => []

/-- A millisecond has passed since the pool of a context with a launch in RUNNING was checked (R316). -/
def State.poolOverdue (s : State) (c : Nat) : Bool :=
  (s.ctx c).pool.isSome && decide ((s.ctx c).poolAt + 500000 ≤ s.lc) && s.launches.any fun l => l.ctx == c && l.state == .running

/-- Steps of preemption, the world switch and quiesce points (R295, R318-R323). -/
def State.preemptSteps (s : State) : List Instr :=
  let cs := (List.range s.ctxs.length).filter fun c => (s.ctx c).alive
  let waves := s.wavesWith fun w => w.resident && (s.ctx w.ctx).preempting
  waves.flatMap (fun k => [Instr.preemptionSave k, .fullSave k])
    ++ (match s.cp.switching with
        | some e => [Instr.worldSwitch e.1 e.2]
        | none => s.sliceSteps)
    ++ (if s.cp.changes.any s.changeDue then [Instr.quiescePoint []] else [])
    ++ (cs.filter fun c => (s.ctx c).preempting || s.waves.any fun w => w.ctx == c && w.state == .saved).map Instr.preemptionRestore
    ++ (cs.filter fun c => (s.ctx c).poolDue || s.poolOverdue c).map fun c => Instr.poolCheck c (s.offerFrames 64)

/-- Steps of the L2, the fabric and the controllers. -/
def State.fabricSteps (s : State) : List Instr :=
  let queues := s.fab.queues.filter fun q => !q.packets.isEmpty
  let stops := ((queues.filter fun q => q.kind != 1 && q.kind != 2 && q.kind != 6).map PQueue.num).eraseDups
  ((s.shareFailing.map fun e => Instr.shareRetire e.1 e.2).toList)
    ++ (((List.range s.fab.packetList.length).filter fun n =>
        (s.fab.packetList[n]?).any fun e => e.2.2.slack == 0 && !e.2.2.counted).map Instr.slackExhaustion)
    ++ ((queues.filter fun q => q.kind == 2).map fun q => Instr.lpddr6Request q.num)
    ++ ((queues.filter fun q => q.kind == 1).map fun q => Instr.l2Request q.num)
    ++ (stops.flatMap fun n => (List.range 12).map fun o => Instr.arbiterGrant (12 * n + o))
    ++ (((queues.filter fun q => q.kind == 6).map PQueue.num).eraseDups.map fun n => Instr.arbiterGrant (1024 + n))
    ++ ((s.fab.husks.filter fun h => h.oldBanks.isSome).map fun h => Instr.huskSweepComplete h.num)

/-- Back-offs and coalescing timers that have run out, and deadlocks that have lasted (R201, R239, R283, R290). -/
def State.timerSteps (s : State) : List Instr :=
  ((List.range s.launches.length).flatMap fun l =>
      ((s.launch l).gangs.filter fun g => g.backingOff && g.wait == 0).map fun g => Instr.gangBackoffExpiry l g.grpid)
    ++ (if s.epochAt ≤ s.lc then [Instr.signatureEpochAdvance] else [])
    ++ ((List.range s.groups.length).filter fun g => 4096 ≤ (s.group g).stuck).map Instr.claimDeadlock
    ++ ((List.range s.launches.length).filter fun l => 4096 ≤ (s.launch l).stuck).map Instr.podDeadlock

/-! ### The order -/

/-- The state after the first step of a list that changes it. -/
def firstChange (s : State) : List Instr → Option State
  | [] => none
  | i :: t =>
    match exec i s with
    | .next s' => if s' = s then firstChange s t else some s'
    | _ => firstChange s t

/-- Transitions of launches that no step of its own stands for (R278). -/
def State.launchMoves (s : State) : Option State :=
  ((List.range s.launches.length).filter fun l => !(s.launch l).completed).findSome? fun l =>
    (s.advanceLaunch l).orElse fun _ => s.leaveRunning l

/-- A domain whose operating point is to change (R280, R422). -/
def State.pointSteps (s : State) : List Instr :=
  ((List.range s.jalti.points.length).filter fun d => s.jalti.points.getD d 0 != s.targetPoint d).map Instr.operatingPointChange

/-- The unit steps of a cc, in the order in which the model tries them (log 6). -/
def State.unitSteps (s : State) : List Instr :=
  let waves := s.wavesWith Wave.resident
  waves.flatMap s.waveSteps ++ s.timerSteps ++ s.engineSteps ++ s.pairSteps ++ s.launchSteps ++ s.pointSteps

/-- Those that place work, save it, or serve the memories. -/
def State.placeSteps (s : State) : List Instr :=
  let cs := List.range s.ctxs.length
  cs.filterMap s.dispatchStep ++ cs.filterMap s.modeStep ++ s.preemptSteps ++ s.fabricSteps

/-- SOURCE of an error in state of no single context (R349): the command processor, a launcher, the fabric, Jalti. -/
def DeviceErr.source : DeviceErr → Nat
  | .huskMap | .cpMemory => 10
  | .podHeader => 12
  | .packetHeader => 7
  | .lockstep => 9

/-- One step of a unit, the first of the order that changes anything; none where nothing is to be done (log 6). An error in state
of no single context is escalated to uncontained before anything else (R354, log 76), and the launchers act first for an lc that
has ended. -/
def State.auto (s : State) : Option State :=
  match s.mem.deviceErrs with
  | e :: _ => some (s.fatalError e.source { kind := 0x11, sev := 3, esc := true, source := e.source })
  | [] =>
  if s.lcEnd then some s.serveLc else
  match firstChange s s.unitSteps with
  | some s => some s
  | none => match s.launchMoves with
    | some s => some s
    | none => match firstChange s s.placeSteps with
      | some s => some s
      | none => match s.fetchDue with
        | some e => some (s.fetchCommand e.1 e.2)
        | none => none

/-- The waves of a group's cores, with their VALLOC. -/
def State.coreMarks (s : State) (g : Nat) : List (Nat × Nat) :=
  let cores := ((s.members g).map fun k => s.coreOf (s.wave k)).eraseDups
  cores.flatMap fun c => (s.coreWaves c).map fun k => (k, (s.wave k).valloc)

/-- One more cc of a claim deadlock; it counts anew after a VRELS, an EXITW or a grant on the group's cores (R201). -/
def State.watchGroup (s : State) (g : Nat) : Group :=
  let x := s.group g
  if s.claimDeadlocked g then
    let now := s.coreMarks g
    { x with stuck := (if x.marks.all now.contains then x.stuck else 0) + 1, marks := now }
  else if x.stuck = 0 && x.marks.isEmpty then x else { x with stuck := 0, marks := [] }

/-- One more lc of a pod deadlock; it counts anew once bytes of the pool have been freed (R239). -/
def State.watchLaunch (s : State) (l : Nat) : Launch :=
  let x := s.launch l
  if s.podDeadlocked l && !x.det then
    let used := (s.graph (x.graph.getD 0)).poolUsed
    { x with stuck := (if x.stuckPool ≤ used then x.stuck else 0) + s.lcEnd.toNat, stuckPool := used }
  else if x.stuck = 0 && x.stuckPool = 0 then x else { x with stuck := 0, stuckPool := 0 }

/-- The deadlocks of groups and launches are watched (R201, R239). -/
def State.watch (s : State) : State :=
  { s with groups := (List.range s.groups.length).map s.watchGroup, launches := (List.range s.launches.length).map s.watchLaunch }

/-- The clock of the cc in MHz: that of the fastest voltage domain (R1, R6, R280, log 6). -/
def State.clock (s : State) : Nat := [800, 1100, 1300, 1500, 1700].getD (s.jalti.points.foldl max 0) 1700

/-- One cc less of every back-off (R290), and what a cc is of the launcher clock's 2 ns, whatever the operating point (R273). -/
def State.tick (s : State) : State :=
  let back (l : Launch) : Launch :=
    if l.gangs.isEmpty then l else { l with gangs := l.gangs.map fun (g : Gang) => { g with wait := g.wait - 1 } }
  let s := { s with launches := s.launches.map back }
  let part := s.lcPart + 500
  if part < s.clock then { s with lcPart := part } else { s with lcPart := part - s.clock, lc := s.lc + 1, lcEnd := true }

/-- The end of a cc: packets age, timers and deadlocks go on, and the cc counts for contexts with a wave resident, or PARKED (R6, R379, R420). -/
def State.nextCc (s : State) : State :=
  let cs := ((s.waves.filter Wave.resident).map Wave.ctx).eraseDups
  let s1 := cs.foldl (fun s c => s.count c 0x01 1 (s.waves.any fun w => w.resident && w.ctx == c && w.priv == .u)) s
  let s2 := (s.waves.filter fun w => w.state == .parked).foldl (fun s w => s.count w.ctx 0x06 1 (w.priv == .u)) s1
  { s2.ageFabric.tick.watch with cc := s.cc + 1, turn := 0 }

/-- The next issue quarter, from `q` on, that has a wave to issue, with the wave (R293). -/
def State.nextIssue (s : State) (q : Nat) : Option (Nat × Nat) :=
  (List.range (768 - q)).findSome? fun i => (s.choose (q + i)).map fun k => (q + i, k)

/-! ### A word placed where it is fetched next (log 5) -/

/-- An issue quarter with no wave, the first one. -/
def State.freeQuarter (s : State) : Nat := (firstBelow (fun q => (s.quarterWaves q).isEmpty) 768).getD 0

/-- The frame that holds a placed word. -/
def State.placedFrame (s : State) : Nat := s.localPa 0x2FFFFF0000 / 65536

/-- A page of a context that U-mode may fetch, load and store, as a TLB holds it. -/
def placedPage (asid : BitVec 16) (frame : Nat) : TlbEntry :=
  { asid := asid, vpage := 1, ppage := frame, ipage := frame, w1 := true, w2 := true, x1 := true, x2 := true, u := true
    ghusk := 0, allowed := true, peer := false }

/-- The device with one word of code in a page, one wave of a new context standing before it in an issue quarter with no other
wave, and that quarter next to issue (log 5). -/
def State.placeWord (s : State) (w : Word) : State :=
  let q := s.freeQuarter
  let frame := s.placedFrame
  let c := s.ctxs.length
  let ctx : Context := {
    asid := 0xFFFF, clusterMap := List.range 48, slacktab := slackDefaults, perf := List.replicate 8 {}
    slots := List.replicate 64 {}, huskMap := List.replicate 16 0 }
  let launch : Launch := { (default : Launch) with ctx := c, state := .running, ngroups := 1, nextGroup := 1, dispatched := 1 }
  let group : Group := { ctx := c, launch := s.launches.length, clusters := [q / 16], windows := List.replicate 16 {} }
  let wave : Wave := {
    pc := 0x10000, s := List.replicate 64 0, sbank := List.replicate 8 0, v := List.replicate 256 zeroVReg, p := List.replicate 8 0
    valloc := 256, group := s.groups.length, ctx := c, launch := s.launches.length, clid := q / 16, coreid := q / 4 % 4, quarter := q % 4 }
  let s := s.writeHomeN (65536 * frame) (bytesOf 8 w.toNat)
  let s := s.modCore (q / 4) fun x => { x with
    tlb := placedPage 0xFFFF frame :: x.tlb, icache := x.icache.filter fun e => e.1 / 1024 != frame }
  { s with
    ctxs := s.ctxs ++ [ctx], launches := s.launches ++ [launch], groups := s.groups ++ [group], waves := s.waves ++ [wave]
    agenda := [], turn := q + 1, cp := { s.cp with fatal := false } }

end Sys2Proof.Machine
end

