-- ==== Sys2Proof/Machine/Step.lean ====
section
/-! DEFINITION. One step of the device (log 6): the next step of the agenda; or what a unit does of its own accord; or the
instruction of the wave that the next issue quarter chooses; or the end of the cc. -/

namespace Sys2Proof.Machine

/-- The step of the agenda that comes first: only steps, commands and resets stand there, and after a fatal error only
resets count (R355). -/
def stepAgenda (i : Instr) (s : State) : Host.Outcome State Fault Refusal :=
  if i.isEvent && (!s.cp.fatal || i.isReset) then exec i s else .next s

/-- Wave `k` fetches, decodes and executes its next instruction (R46, R60, R122). -/
def stepWave (k : Nat) (s : State) : Host.Outcome State Fault Refusal :=
  match s.fetch k with
  | .raised s => .next s
  | .word s w =>
    match decodeWord w with
    | .ok i => exec i s
    | d => .next (s.refuseWord k d)

/-- One step (log 6): the units act until none has anything to do, then each issue quarter issues, and the cc ends. After a
fatal error the device is halted (R355). -/
def step (s : State) : Host.Outcome State Fault Refusal :=
  match s.agenda with
  | i :: t => stepAgenda i { s with agenda := t, cur := none }
  | [] =>
    if s.cp.fatal then .next s
    else if s.turn = 0 then
      match ({ s with cur := none } : State).auto with
      | some t => .next t
      | none => .next { s with cur := none, turn := 1 }
    else match s.nextIssue (s.turn - 1) with
      | some (q, k) => stepWave k { s with turn := q + 2, cur := some k }
      | none => .next s.nextCc

/-- `s` with an instruction word where `step` fetches its next instruction (log 5). -/
def State.withFetchWord (s : State) (_nbits w : Nat) : State := s.placeWord (BitVec.ofNat 64 w)

end Sys2Proof.Machine
end

