-- ==== Sys2Proof/Safety.lean ====
section
/-! DEFINITION. What counts as a safe run, in the terms that claims use: an instruction that may issue, an instruction that
has retired and what it left alone, the canonical form of the byte stores, and the states that steps lead to. -/

namespace Sys2Proof.Safety

open Sys2Proof.Machine

/-! ### An instruction that runs -/

/-- Wave `k` issues `i` and nothing comes before the instruction's own effect: the wave is eligible (R292), no decode condition
holds (R60), no register that it names holds an error (R333) and on a checked pair none differs in the shadow (R340), an open
transaction supports it (R189), and it is no commit point of a checked pair, which first waits for an acorn (R341). -/
structure Issues (s : State) (k : Nat) (i : Instr) : Prop where
  cur : s.cur = some k
  lt : k < s.waves.length
  can : s.canIssue k i = true
  decode : (s.wave k).decodeCheck i = none
  errs : (s.wave k).errsOf i = []
  shadow : (s.wave k).shadow = []
  txn : ((s.wave k).txn.isSome && i.unsupported) = false
  commit : (s.checked (s.wave k) && i.commitPoint ((s.wave k).priv == .s) (s.wave k).txn.isSome) = false

/-- A wave without what every retirement may change besides the instruction's results: the PC, the block signature, the counts
of retired instructions, the unmarked set, whether the wave waits at a switch point, and the notes of its last issue. -/
def plain (w : Wave) : Wave :=
  { w with pc := 0, sigreg := 0, sinceAcorn := 0, sincePreempt := 0, quantumCount := 0, quantumDue := false, unmarked := []
           state := .ready, lastIssue := 0, preempted := false }

/-- A context without its performance counters. -/
def uncounted (c : Context) : Context := { c with perf := [] }

/-- `t` is `s` but for wave `k`, the performance counters and the messages of their overflow. -/
structure SameOutside (k : Nat) (s t : State) : Prop where
  rest : ({ t with waves := s.waves, ctxs := s.ctxs, cp := { t.cp with msix := s.cp.msix } } : State) = s
  ctxs : t.ctxs.map uncounted = s.ctxs.map uncounted
  waves : ∀ j, j ≠ k → t.wave j = s.wave j

/-- From `s` to `t` wave `k` has retired `i` and goes on at `next`; its registers are those of `w`, and everything else is as
it was. At a switch point with returns outstanding the wave is PARKED, and without any the unmarked set is empty (R58); at IL1
and above a retirement in U-mode enters the block signature with `extra` (R124). -/
structure Retires (s t : State) (k : Nat) (i : Instr) (next : VAddr) (w : Wave) (extra : List Byte := []) : Prop where
  outside : SameOutside k s t
  regs : plain (t.wave k) = plain w
  pc : (t.wave k).pc = next
  state : (t.wave k).state = if i.marker && !w.pending.isEmpty then .parked else w.state
  unmarked : (t.wave k).unmarked = if i.marker && w.pending.isEmpty then [] else w.unmarked
  sig : (t.wave k).sigreg =
    if 1 ≤ (s.group (s.wave k).group).ilevel ∧ (s.wave k).priv = .u then foldedSig i extra w.sigreg else w.sigreg

/-- An instruction completes with a result on the wave's own registers: the next state is that of its retirement, and its
registers are those of `w`. -/
def Completes (i : Instr) (s : State) (k : Nat) (w : Wave) : Prop :=
  ∃ t, exec i s = .next t ∧ Retires s t k i ((s.wave k).pc + 8) w

/-! ### Instructions that act beyond the wave's registers -/

/-- The state in which the own effect of an instruction of wave `k` runs: the issue is noted. -/
def issued (s : State) (k : Nat) : State := s.modWave k fun w => { w with lastIssue := s.cc, preempted := false }

/-- Instruction `i` of wave `k` completes: its own effect leaves `u`, and from there the wave retires it and goes on behind it. -/
def Runs (i : Instr) (s : State) (k : Nat) (u : State) : Prop :=
  ∃ t, exec i s = .next t ∧ Retires u t k i ((u.wave k).pc + 8) (u.wave k)

/-- A context, a launch and a core without what memory traffic may change in them. -/
def quietCtx (c : Context) : Context := { c with perf := [], huskDenials := 0 }
def quietLaunch (l : Launch) : Launch := { l with tearing := false, writers := [] }
def quietCore (c : Core) : Core := { c with l1 := [], tlb := [] }

/-- `t` is `s` but for what memory traffic may change: homes, caches and translations with their errors and signatures, the
queues of the fabric, records, trace, counters and messages. Waves, groups, scratchpads and host memory stay. -/
structure MemorySide (s t : State) : Prop where
  rest : ({ t with mem := s.mem, cores := s.cores, ctxs := s.ctxs, launches := s.launches, rel := s.rel, trace := s.trace
                   fab := { t.fab with queues := s.fab.queues, shareErrs := s.fab.shareErrs }
                   cp := { t.cp with msix := s.cp.msix, frameHusk := s.cp.frameHusk } } : State) = s
  sp : t.mem.sp = s.mem.sp
  host : t.mem.host = s.mem.host
  ctxs : t.ctxs.map quietCtx = s.ctxs.map quietCtx
  launches : t.launches.map quietLaunch = s.launches.map quietLaunch
  cores : t.cores.map quietCore = s.cores.map quietCore

/-! ### Runs -/

/-- Homes, scratchpads and host memory have their canonical form, so that equal memories are equal data. -/
def MemCanonical (s : State) : Prop :=
  Memory.wf s.mem.home = true ∧ Memory.wf s.mem.sp = true ∧ Memory.wf s.mem.host = true

/-- `t` follows from `s` by steps of the machine. -/
inductive Leads (s : State) : State → Prop where
  | refl : Leads s s
  | step (t u : State) (h : Leads s t) (n : step t = .next u) : Leads s u

end Sys2Proof.Safety
end

