-- ==== Sys2Proof/Rules/Vector.lean ====
section
/-! DEFINITION. The results that the spec's tables give the vector instructions, lane by lane and sub-element by sub-element, as
relations that statements use beside the machine's own functions (05 R142-R165, 03 R76-R94, R101, R102, R109-R111). -/

namespace Sys2Proof.Rules

open Sys2Proof.Machine

/-! ### Elements -/

/-- Sub-element `j` of lane `l` of vector register `n` (R23). -/
def elemV (t : ET) (w : Wave) (n l j : Nat) : Nat := elemOf t.width (laneOf (w.readV n) l) j

/-- Sub-element `j` of lane `l` of the b operand (R143): the register's, the low bits of Sb, or the immediate sign-extended. -/
def elemB (t : ET) (w : Wave) (b : BSrc) (l j : Nat) : Nat :=
  match b with
  | .v r => elemV t w r.toNat l j
  | .s r => (w.readS r.toNat).toNat % 2 ^ t.width
  | .imm i => (i.toInt % 2 ^ t.width).toNat

/-- `e` holds an exact integer result finished by R77: wrapped, or clamped to the range of the type under SAT. -/
def finished (o : VOp) (i : Int) (e : Nat) : Prop :=
  (e : Int) = (if o.sat then max (minOf o.et.isSigned o.et.width) (min (maxOf o.et.isSigned o.et.width) i) else i) % 2 ^ o.et.width

/-- What a rule asks of the lanes that an instruction writes: the governing mask's fields, the destinations, and for
destination `n` and lane `l` the lane's value. -/
structure VecRule where
  pn : Bool
  pi : BitVec 3
  dst : List Nat
  lane : Nat → Nat → Word → Prop

/-- The wave with the lanes of each destination written. -/
def VecRule.write (r : VecRule) (w : Wave) (v : Nat → VReg) : Wave :=
  (List.range r.dst.length).foldl (fun x n => x.writeLanes (w.governing r.pn r.pi) (r.dst.getD n 0) (v n)) w

/-- Registers whose lanes the rule accepts. -/
def VecRule.accepts (r : VecRule) (v : Nat → VReg) : Prop :=
  ∀ n, n < r.dst.length → ∀ l, l < lanes → r.lane n l (laneOf (v n) l)

/-- A rule on each sub-element of one destination. -/
def each (o : VOp) (p : Nat → Nat → Nat → Prop) : VecRule :=
  { pn := o.pn, pi := o.pi, dst := [o.d.toNat], lane := fun _ l r => ∀ j, j < o.et.count → p l j (elemOf o.et.width r j) }

/-- x of Va, y of the b operand and z of Vc, as bits (R145). -/
def bits1 (o : VOp) (w : Wave) (f : Nat → Nat → Prop) : VecRule := each o fun l j e => f (elemV o.et w o.a.toNat l j) e
def bits2 (o : VOp) (w : Wave) (f : Nat → Nat → Nat → Prop) : VecRule :=
  each o fun l j e => f (elemV o.et w o.a.toNat l j) (elemB o.et w o.b l j) e
def bits3 (o : VOp) (w : Wave) (f : Nat → Nat → Nat → Nat → Prop) : VecRule :=
  each o fun l j e => f (elemV o.et w o.a.toNat l j) (elemB o.et w o.b l j) (elemV o.et w o.c.toNat l j) e

/-- The same, read as integers of the type (R76). -/
def int1 (o : VOp) (w : Wave) (f : Int → Nat → Prop) : VecRule := bits1 o w fun x e => f (elemInt o.et x) e
def int2 (o : VOp) (w : Wave) (f : Int → Int → Nat → Prop) : VecRule :=
  bits2 o w fun x y e => f (elemInt o.et x) (elemInt o.et y) e
def int3 (o : VOp) (w : Wave) (f : Int → Int → Int → Nat → Prop) : VecRule :=
  bits3 o w fun x y z e => f (elemInt o.et x) (elemInt o.et y) (elemInt o.et z) e

/-- `m` is i / 2 rounded by RM (R89): a half goes to the even integer, toward zero, down or up. -/
def halved (rm : RM) (i m : Int) : Prop :=
  match rm with
  | .rn => 2 * m = i ∨ (i % 2 ≠ 0 ∧ (2 * m = i + 1 ∨ 2 * m = i - 1) ∧ m % 2 = 0)
  | .rz => m = i.tdiv 2
  | .rd => m = i / 2
  | .ru => m = -((-i) / 2)
  | .rs => False

/-- The exact value of an element in a floating format. -/
def val (o : VOp) (x : Nat) : FX := o.et.fmt.decode x

/-- `e` is an exact value rounded once to the format by RM, with R85's result on overflow (R82). -/
def rounded (o : VOp) (v : FX) (e : Nat) : Prop := e = o.et.fmt.round o.rm o.sat 0 v % 2 ^ o.et.width

/-! ### The element that a reduction or a scan gives (R109-R111, R161) -/

/-- An active lane's sub-element, or the operator's identity in an inactive lane (R111). -/
def contributes (op : RedOp) (o : VOp) (w : Wave) (j l : Nat) : Nat :=
  if (w.governing o.pn o.pi).getLsbD l then elemV o.et w o.a.toNat l j else op.identity o.et % 2 ^ o.et.width

/-- One combining step, as an element (R161). -/
def combine (op : RedOp) (o : VOp) (x y : Nat) : Nat := op.step o.et o.rm o.sat x y % 2 ^ o.et.width

/-- The butterfly of R109: the value of the 2^k lanes from `base` on, the lower half first. -/
def tree (f : Nat → Nat → Nat) (x : Nat → Nat) : Nat → Nat → Nat
  | 0, base => x base
  | k + 1, base => f (tree f x k base) (tree f x k (base + 2 ^ k))

/-- The stages of R110: stage k combines the lane 2^k below, where there is one. -/
def staged (f : Nat → Nat → Nat) (x : Nat → Nat) : Nat → Nat → Nat
  | 0, l => x l
  | k + 1, l => if 2 ^ k ≤ l then f (staged f x k (l - 2 ^ k)) (staged f x k l) else staged f x k l

/-! ### Cross-lane sources (R157-R159) -/

/-- The greatest active lane at or below one. -/
def reached (g : Mask) (l m : Nat) : Prop := m ≤ l ∧ g.getLsbD m = true ∧ ∀ x, m < x → x ≤ l → g.getLsbD x = false

/-- The element that an address resolves to (R157): of the lane reached, or the identity where no lane at or below is active. -/
def resolves (o : VOp) (w : Wave) (a e : Nat) : Prop :=
  let g := w.governing o.pn o.pi
  let l := a % (32 * o.et.count) / o.et.count
  (∀ m, reached g l m → e = elemV o.et w o.a.toNat m (a % o.et.count)) ∧
    ((∀ x, x ≤ l → g.getLsbD x = false) → e = (w.readS o.c.toNat).toNat % 2 ^ o.et.width)

/-- The element of the identity operand (R157). -/
def isIdentity (o : VOp) (w : Wave) (e : Nat) : Prop := e = (w.readS o.c.toNat).toNat % 2 ^ o.et.width

/-! ### The short vector instructions -/

/-- What a short vector instruction writes to vector registers (R142-R165). -/
def vectorShort (s : State) (w : Wave) : Instr → Option VecRule
  -- major 0x30 (R146)
  | .vadd o => some (int2 o w fun x y e => finished o (x + y) e)
  | .vsub o => some (int2 o w fun x y e => finished o (x - y) e)
  | .vmul o => some (int2 o w fun x y e => finished o (x * y) e)
  | .vmulh o => some (int2 o w fun x y e => (e : Int) = x * y / 2 ^ o.et.width % 2 ^ o.et.width)
  | .vmad o => some (int3 o w fun x y z e => finished o (x * y + z) e)
  | .vmin o => some (int2 o w fun x y e => (e : Int) = min x y % 2 ^ o.et.width)
  | .vmax o => some (int2 o w fun x y e => (e : Int) = max x y % 2 ^ o.et.width)
  | .vabs o => some (int1 o w fun x e => finished o x.natAbs e)
  | .vneg o => some (int1 o w fun x e => finished o (-x) e)
  | .vabsd o => some (int2 o w fun x y e => e = (x - y).natAbs)
  | .vavg o => some (int2 o w fun x y e => ∃ m : Int, halved o.rm (x + y) m ∧ (e : Int) = m % 2 ^ o.et.width)
  -- major 0x31 (R147)
  | .vand o => some (bits2 o w fun x y e => e = x &&& y)
  | .vor o => some (bits2 o w fun x y e => e = x ||| y)
  | .vxor o => some (bits2 o w fun x y e => e = x ^^^ y)
  | .vandn o => some (bits2 o w fun x y e => ∀ n, n < o.et.width → e.testBit n = (x.testBit n && !y.testBit n))
  | .vnot o => some (bits1 o w fun x e => e + x = 2 ^ o.et.width - 1)
  | .vshl o => some (bits2 o w fun x y e => e = x * 2 ^ (y % o.et.width) % 2 ^ o.et.width)
  | .vshr o => some (bits2 o w fun x y e => e = x / 2 ^ (y % o.et.width))
  | .vsar o => some (bits2 o w fun x y e => (e : Int) = toSigned o.et.width x / 2 ^ (y % o.et.width) % 2 ^ o.et.width)
  | .vrot o => some (bits2 o w fun x y e => ∀ n, n < o.et.width → e.testBit n = x.testBit ((n + y) % o.et.width))
  | .vclz o => some (bits1 o w fun x e => if x = 0 then e = o.et.width else
      e < o.et.width ∧ 2 ^ (o.et.width - 1) ≤ x * 2 ^ e ∧ x * 2 ^ e < 2 ^ o.et.width)
  | .vpopc o => some (bits1 o w fun x e => e = ((List.range o.et.width).filter x.testBit).length)
  -- major 0x32 (R148)
  | .vfadd o => some (bits2 o w fun x y e => rounded o ((val o x).add o.rm (val o y)) e)
  | .vfsub o => some (bits2 o w fun x y e => rounded o ((val o x).add o.rm (val o y).neg) e)
  | .vfmul o => some (bits2 o w fun x y e => rounded o ((val o x).mul (val o y)) e)
  | .vfma o => some (bits3 o w fun x y z e => rounded o (((val o x).mul (val o y)).add o.rm (val o z)) e)
  | .vfms o => some (bits3 o w fun x y z e => rounded o (((val o x).mul (val o y)).add o.rm (val o z).neg) e)
  | .vfmin o => some (bits2 o w fun x y e => e = o.et.fmt.minMax false x y % 2 ^ o.et.width)
  | .vfmax o => some (bits2 o w fun x y e => e = o.et.fmt.minMax true x y % 2 ^ o.et.width)
  | .vfabs o => some (bits1 o w fun x e => e = x % 2 ^ (o.et.width - 1))
  | .vfneg o => some (bits1 o w fun x e => e = x ^^^ 2 ^ (o.et.width - 1))
  -- majors 0x34 to 0x36 and 0x40 (R151-R153)
  | .vcmpm c o => some (bits2 o w fun x y e => if c.holds o.et x y then e = 2 ^ o.et.width - 1 else e = 0)
  | .vsel o => some (each o fun l j e =>
      e = if (w.readP o.c.toNat).getLsbD l then elemV o.et w o.a.toNat l j else elemB o.et w o.b l j)
  | .vselm o => some (bits3 o w fun x y z e => ∀ n, n < o.et.width → e.testBit n = if z.testBit n then x.testBit n else y.testBit n)
  | .vpack o => some (each o fun l j e =>
      let n := o.et.count
      let half (v : Word) (i : Nat) : Int := toSigned (2 * o.et.width) (elemOf (2 * o.et.width) v i)
      finished o (if j < n / 2 then half (laneOf (w.readV o.a.toNat) l) j else half (laneOf (w.bsrc o.et o.b) l) (j - n / 2)) e)
  | .vunpkl o => some (each o fun l j e =>
      let x := elemOf (o.et.width / 2) (laneOf (w.readV o.a.toNat) l) j
      (e : Int) = (if o.x then (x : Int) else toSigned (o.et.width / 2) x) % 2 ^ o.et.width)
  | .vunpkh o => some (each o fun l j e =>
      let x := elemOf (o.et.width / 2) (laneOf (w.readV o.a.toNat) l) (o.et.count + j)
      (e : Int) = (if o.x then (x : Int) else toSigned (o.et.width / 2) x) % 2 ^ o.et.width)
  | .vmov o => some (each o fun l j e => e = elemB o.et w o.b l j)
  | .vmovi o => some { pn := o.pn, pi := o.pi, dst := [o.d.toNat], lane := fun _ _ r => r.toInt = o.imm.toInt }
  -- majors 0x37 to 0x39 (R154-R156)
  | .vcvt o => some
      { pn := o.pn, pi := o.pi, dst := [o.d.toNat]
        lane := fun _ l r => ∀ j, j < o.dst.count → elemOf o.dst.width r j =
          convert o.dst o.src o.rm o.sat (s.roundBits w o.rm l j)
            (if o.dst.count = 2 * o.src.count ∧ o.src.count ≤ j then elemV o.src w o.b.toNat l (j - o.src.count)
             else elemV o.src w o.a.toNat l (if o.src.count = 2 * o.dst.count ∧ o.x then j + o.dst.count else j)) % 2 ^ o.dst.width }
  | .vqnt o => some
      { pn := o.pn, pi := o.pi, dst := [o.d.toNat]
        lane := fun _ l r => ∀ j, j < o.narrow.count → elemOf o.narrow.width r j =
          quantise o.narrow o.wide o.rm o.sat (scaleByte o.narrow (w.readV o.b.toNat) o.bs.toNat l j) (s.roundBits w o.rm l j)
            (elemV o.wide w (o.a.toNat + j / o.wide.count) l (j % o.wide.count)) % 2 ^ o.narrow.width }
  | .vdqnt o => some
      { pn := o.pn, pi := o.pi, dst := (List.range o.ratio).map fun n => o.d.toNat + n
        lane := fun n l r => ∀ i, i < o.wide.count → elemOf o.wide.width r i =
          let j := n * o.wide.count + i
          dequantise o.narrow o.wide o.rm o.sat (scaleByte o.narrow (w.readV o.b.toNat) o.bs.toNat l j) (s.roundBits w o.rm l j)
            (elemV o.narrow w o.a.toNat l j) % 2 ^ o.wide.width }
  | .vrndRaw o => some
      { pn := o.pn, pi := o.pi, dst := [o.d.toNat]
        lane := fun _ l r => r = BitVec.ofNat 64 (streamBlock 0 w.rngkey (s.threadOf w l) (w.readS o.a.toNat)) }
  | .vrndUniform o => some
      { pn := o.pn, pi := o.pi, dst := [o.d.toNat]
        lane := fun _ l r => r = randomLane o.et true (streamBlock 0 w.rngkey (s.threadOf w l) (w.readS o.a.toNat)) }
  -- majors 0x3B to 0x3D (R162-R165)
  | .vacs o =>
      let m (n l j : Nat) : Int := max (minOf true o.et.width) (min (maxOf true o.et.width)
        (toSigned o.et.width (elemV o.et w (o.a.toNat + n) l j) + toSigned o.et.width (elemV o.et w (pairB o + n) l j)))
      let take (l j : Nat) : Bool := if o.x then m 1 l j < m 0 l j else m 0 l j < m 1 l j
      some { pn := o.pn, pi := o.pi, dst := [o.d.toNat, o.c.toNat]
             lane := fun n l r => ∀ j, j < o.et.count → (elemOf o.et.width r j : Int) =
               if n = 0 then (if take l j then m 1 l j else m 0 l j) % 2 ^ o.et.width else if take l j then 1 else 0 }
  | .vdwc o =>
      let tap := (w.readS o.c.toNat).toNat
      if 31 < tap then none else
      some { pn := o.pn, pi := o.pi, dst := [o.d.toNat, o.d.toNat + 1]
             lane := fun n l r => ∀ i, i < 2 →
               let channel := 2 * n + i + (if o.x then 4 else 0)
               let exact := toSigned 32 (elemOf 32 (laneOf (w.readV (o.d.toNat + n)) l) i)
                 + toSigned o.et.width (elemV o.et w o.a.toNat l channel) * toSigned o.et.width (elemV o.et w (pairB o) tap channel)
               (elemOf 32 r i : Int) = (if o.sat then max (-2147483648) (min 2147483647 exact) else exact) % 2 ^ 32 }
  | .vwmax o => pooled o w fun _ l e => e = poolMax o.et l % 2 ^ o.et.width
  | .vwavg o => pooled o w fun p l e => e = poolMean o.et (if o.x then p.kw * p.kh else l.length) l % 2 ^ o.et.width
  | _ => none
where
  /-- The real positions of a window in reading order (R165), where the descriptor and its rows are legal (R164). -/
  pooled (o : VOp) (w : Wave) (f : Pool → List Nat → Nat → Prop) : Option VecRule :=
    match poolOf (w.readS (pairB o)) with
    | none => none
    | some p =>
      if 256 < o.a.toNat + p.kh ∨ (w.checkRegs ((List.range p.kh).map fun r => .v (o.a.toNat + r))).isSome then none
      else some (each o fun l j e => f p
        (((List.range p.kh).flatMap fun r => ((List.range p.kw).filter fun i =>
            decide (p.padl ≤ l * p.sw + i * p.dil ∧ l * p.sw + i * p.dil - p.padl ≤ p.ncolm) && p.rows.testBit r).map fun i =>
          elemV o.et w (o.a.toNat + r) (l * p.sw + i * p.dil - p.padl) j)) e)

/-! ### The long vector instructions -/

/-- What a long vector instruction puts into its outstanding register (R57). -/
def vectorLong (w : Wave) : Instr → Option VecRule
  | .vdiv o => some (bits2 o w fun x y e =>
      if y = 0 then e = 2 ^ o.et.width - 1 else finished o ((elemInt o.et x).tdiv (elemInt o.et y)) e)
  | .vrem o => some (bits2 o w fun x y e =>
      if y = 0 then e = x else (e : Int) = (elemInt o.et x).tmod (elemInt o.et y) % 2 ^ o.et.width)
  | .vfdiv o => some (bits2 o w fun x y e => rounded o ((val o x).div (val o y)) e)
  | .vrcp o => some (bits1 o w fun x e => e = Special.apply .rcp o.et.fmt x % 2 ^ o.et.width)
  | .vrsq o => some (bits1 o w fun x e => e = Special.apply .rsq o.et.fmt x % 2 ^ o.et.width)
  | .vsqrt o => some (bits1 o w fun x e => e = Special.apply .sqrt o.et.fmt x % 2 ^ o.et.width)
  | .vexp2 o => some (bits1 o w fun x e => e = Special.apply .exp2 o.et.fmt x % 2 ^ o.et.width)
  | .vlog2 o => some (bits1 o w fun x e => e = Special.apply .log2 o.et.fmt x % 2 ^ o.et.width)
  | .vsin o => some (bits1 o w fun x e => e = Special.apply .sin o.et.fmt x % 2 ^ o.et.width)
  | .vcos o => some (bits1 o w fun x e => e = Special.apply .cos o.et.fmt x % 2 ^ o.et.width)
  | .vtanh o => some (bits1 o w fun x e => e = Special.apply .tanh o.et.fmt x % 2 ^ o.et.width)
  | .vsigm o => some (bits1 o w fun x e => e = Special.apply .sigm o.et.fmt x % 2 ^ o.et.width)
  | .vxread o => some (each o fun l j e => resolves o w
      (match o.b with
        | .v b => if o.et.count ≤ 4 then elemV o.et w b.toNat l j else elemOf 16 (laneOf (w.readV (b.toNat + j / 4)) l) (j % 4)
        | .s _ | .imm _ => 0) e)
  | .vxshf o =>
      let by_ : Int := match o.b with
        | .s b => (w.readS b.toNat).toInt
        | .imm i => i.toInt
        | .v _ => 0
      some (each o fun l j e =>
        if 0 ≤ (l : Int) - by_ ∧ (l : Int) - by_ ≤ 31 then resolves o w (o.et.count * ((l : Int) - by_).toNat + j) e
        else isIdentity o w e)
  | .vxbfly o =>
      let m := match o.b with
        | .imm i => i.toNat
        | .v _ | .s _ => 0
      some (each o fun l j e => resolves o w (o.et.count * (l ^^^ m) + j) e)
  | .vxred op o => some (each o fun _ j e => e = tree (combine op o) (contributes op o w j) 5 0)
  | .vxscan op o => some (each o fun l j e => e =
      if o.x then (if l = 0 then op.identity o.et % 2 ^ o.et.width else staged (combine op o) (contributes op o w j) 5 (l - 1))
      else staged (combine op o) (contributes op o w j) 5 l)
  | _ => none

/-! ### Predicates and scalars from lanes (R151, R160) -/

/-- The predicate that VCMP writes: bit l in each active lane says whether all its sub-elements, or with X[0] = 1 any of them,
meet the condition; the other bits stay (R151). -/
def compared (c : VCond) (o : VOp) (w : Wave) (p : Mask) : Prop :=
  let meets (l j : Nat) : Prop := c.holds o.et (elemV o.et w o.a.toNat l j) (elemB o.et w o.b l j) = true
  ∀ l, l < 32 →
    if (w.governing o.pn o.pi).getLsbD l then
      (p.getLsbD l = true ↔ if o.x then ∃ j, j < o.et.count ∧ meets l j else ∀ j, j < o.et.count → meets l j)
    else p.getLsbD l = (w.readP o.d.toNat).getLsbD l

end Sys2Proof.Rules
end

