-- ==== Sys2Proof/Rules/Control.lean ====
section
/-! DEFINITION. What the spec gives masks, branches, special registers, exceptions and the exit of a wave, as relations that
statements use beside the machine's own functions (02 R49, R60, 04 R120-R141, 10 R298-R301). -/

namespace Sys2Proof.Rules

open Sys2Proof.Machine Sys2Proof.Safety

/-! ### Masks and branches -/

/-- What an instruction that only moves masks, predicates or the NOPs' nothing leaves in the wave's registers. -/
def maskRule (w : Wave) : Instr → Option (Wave → Prop)
  | .vcmp c o => some fun x => ∃ p, compared c o w p ∧ x = w.writeP o.d.toNat p
  | .vballot o => some fun x => ∃ r : Word, x = w.writeS o.d.toNat r ∧
      ∀ n, r.getLsbD n = ((w.readP o.a.toNat).getLsbD n && (w.governing o.pn o.pi).getLsbD n)
  | .xmovExecP _ a => some fun x => x = { w with exec := w.readP a.toNat }
  | .xmovPExec _ d => some fun x => x = w.writeP d.toNat w.exec
  | .xand _ d a inv => some fun x => ∃ m : Mask, x = { w.writeP d.toNat w.exec with exec := m } ∧
      ∀ l, l < 32 → m.getLsbD l = (w.exec.getLsbD l && ((w.readP a.toNat).getLsbD l != inv))
  | .nop _ => some fun x => x = w
  | _ => none

/-- The target of a format-B instruction: PC + 8 × sext(off), in 56 bits (R49). -/
def target (pc : VAddr) (off : BitVec 32) : VAddr := BitVec.ofInt 56 (pc.toNat + 8 * off.toInt)

/-- The scalar conditions of R120, on the signed value of Sa. -/
def scalarMeets (c : SCond) (x : Int) : Prop :=
  match c with
  | .eqz => x = 0
  | .nez => x ≠ 0
  | .ltz => x < 0
  | .gez => 0 ≤ x
  | .gtz => 0 < x
  | .lez => x ≤ 0

/-- The predicate conditions of R120: some, every, no and not every active lane of EXEC has its bit set in Pa. -/
def lanesMeet (c : PCond) (p exec : Mask) : Prop :=
  match c with
  | .any => ∃ l, exec.getLsbD l = true ∧ p.getLsbD l = true
  | .all => ∀ l, exec.getLsbD l = true → p.getLsbD l = true
  | .none => ∀ l, exec.getLsbD l = true → p.getLsbD l = false
  | .nall => ∃ l, exec.getLsbD l = true ∧ p.getLsbD l = false

/-- Where a branch goes and what it leaves in the wave (R49, R120, R121). -/
def branchRule (w : Wave) : Instr → Option (VAddr → Wave → Prop)
  | .bra _ off => some fun next x => next = target w.pc off ∧ x = w
  | .brc _ c a off => some fun next x => x = w ∧
      (scalarMeets c (w.readS a.toNat).toInt → next = target w.pc off) ∧ (¬scalarMeets c (w.readS a.toNat).toInt → next = w.pc + 8)
  | .brv _ c a off => some fun next x => x = w ∧
      (lanesMeet c (w.readP a.toNat) w.exec → next = target w.pc off) ∧ (¬lanesMeet c (w.readP a.toNat) w.exec → next = w.pc + 8)
  | .call _ off => some fun next x => next = target w.pc off ∧
      x = { w.writeS 62 ((w.pc + 8).setWidth 64) with retStack := ((w.pc + 8) :: w.retStack).take 8 }
  | .ret _ a => if (w.readS a.toNat).toNat % 8 ≠ 0 then none else some fun next x =>
      next = (w.readS a.toNat).setWidth 56 ∧ x = { w with retStack := w.retStack.drop 1 }
  | .jmpi _ a => if (w.readS a.toNat).toNat % 8 ≠ 0 then none else some fun next x => next = (w.readS a.toNat).setWidth 56 ∧ x = w
  | _ => none

/-! ### Special registers (R31, R131) -/

/-- The special registers that hold one value for the wave, its group or its context, by number. GRPSIZE counts the members of the
group, in a deterministic launch those of the epoch's start (R141); bit 63 of TADDR marks a tile's address (R333). -/
def specialRule (s : State) (w : Wave) : Nat → Option Word
  | 0x01 => some (BitVec.ofNat 64 w.waveid)
  | 0x02 => some ((s.group w.group).grpid.setWidth 64)
  | 0x03 => some (BitVec.ofNat 64 ((List.range s.waves.length).countP fun k => (s.wave k).group == w.group &&
      ((s.wave k).state != .exited || s.detOf w && (s.wave k).exitEpoch == some (s.launch w.launch).epoch)))
  | 0x04 => some (w.sgid.setWidth 64)
  | 0x05 => some (BitVec.ofNat 64 w.clid)
  | 0x06 => some (BitVec.ofNat 64 w.coreid)
  | 0x07 => some ((s.group w.group).nodeid.setWidth 64)
  | 0x08 => some ((s.group w.group).pipcount.setWidth 64)
  | 0x09 => some (w.pipbase.setWidth 64)
  | 0x0B => some (BitVec.ofNat 64 w.valloc)
  | 0x0C => some ((s.group w.group).spbase.setWidth 64)
  | 0x0D => some ((s.group w.group).spsize.setWidth 64)
  | 0x10 => some ((s.group w.group).quantum.setWidth 64)
  | 0x11 => some (w.qidx.setWidth 64)
  | 0x12 => some (if (s.group w.group).ilevel = 0 then 0 else w.sigreg.setWidth 64)
  | 0x13 => some (BitVec.ofNat 64 (s.group w.group).ilevel)
  | 0x14 => some w.rngkey
  | 0x20 => some ((s.ctx w.ctx).tvec.setWidth 64)
  | 0x21 => some (w.tcause.setWidth 64)
  | 0x22 => some (w.tmask.setWidth 64)
  | 0x23 => some (BitVec.ofNat 64 (w.taddr.toNat + 2 ^ 63 * w.taddrTile.toNat))
  | 0x24 => some (w.tpc.setWidth 64)
  | _ => none

/-! ### Exceptions (R128-R130, R298-R301) -/

/-- A wave that has entered its context's handler (R299): the mask and the PC are saved, the cause registers written, and it
executes at S with every lane active; it becomes eligible anew (R293). -/
def entered (cc : Nat) (w : Wave) (tvec : VAddr) (cause : BitVec 7) (mask : Mask) (addr : VAddr) (tile : Bool := false) : Wave :=
  { w with
    entryMask := w.exec, tcause := cause, tmask := mask, taddr := addr, taddrTile := tile, tpc := w.pc
    priv := .s, exec := BitVec.allOnes 32, pc := tvec, state := .handler
    unmarked := [], trap := none, wait := .nothing, hold := .none, stalled := none, eligibleSince := cc }

/-- Wave `k` may enter its handler at once: it executes at U outside a transaction, nothing is outstanding, and its context has
a handler (R299, R301). -/
structure MayEnter (s : State) (k : Nat) : Prop where
  user : (s.wave k).priv = .u
  txn : (s.wave k).txn = none
  pending : (s.wave k).pending = []
  handler : (s.ctx (s.wave k).ctx).tvec ≠ 0

/-- The conditions that the control and group instructions raise by their operands: cause and TADDR (R121, R128, R129, R132,
R193, R195, R199). -/
def operandTrap (w : Wave) : Instr → Option (BitVec 7 × VAddr)
  | .bkpt _ tag => some (9, tag.setWidth 56)
  | .trap _ n => some (8, n.setWidth 56)
  | .ret _ a | .jmpi _ a =>
    if (w.readS a.toNat).toNat % 8 = 0 then none else some (7, (w.readS a.toNat).setWidth 56)
  | .bopen _ _ a _ => if (w.readS a.toNat).toNat = 0 ∨ 255 < (w.readS a.toNat).toNat then some (4, 0) else none
  | .vclaim _ n => if 256 < w.valloc + 8 * n.toNat then some (4, 0) else none
  | .vrels _ n => if w.valloc < 8 * n.toNat + 8 then some (4, 0) else none
  | .gjoin _ a _ => if 2 ^ 38 ≤ (w.readS a.toNat).toNat then some (4, 0) else none
  | _ => none

end Sys2Proof.Rules
end

