-- ==== Sys2Proof/Rules/Memory.lean ====
section
/-! DEFINITION. The bytes of memory as a core meets them, and what an access may do besides its own effect, in the terms that
statements about loads, stores and scratchpad accesses use (06 R170-R178, 08 R247-R252, 12 R371). -/

namespace Sys2Proof.Rules

open Sys2Proof.Machine Sys2Proof.Safety

/-! ### Bytes -/

/-- The sector of the remote data cache that holds a peer's byte (R269, R371). -/
def remoteAt (s : State) (pa : Nat) : Option RdcSector :=
  if s.isPeer (64 * sectorOf pa) && s.remoteHusk.isSome then s.mem.rdc.find? (fun r => r.sec == sectorOf pa) else none

/-- The byte that stands at the home of scopes 1 to 3: a dirty byte of the remote data cache, or the home's own (R269, R371).
Loads, evictions and write-backs leave it as it is. -/
def nearByte (s : State) (pa : Nat) : Byte :=
  match remoteAt s pa with
  | some r => if r.dirty.getLsbD (pa % 64) then r.data.getD (pa % 64) 0 else Memory.read s.mem.home pa
  | none => Memory.read s.mem.home pa

/-- The byte that the home of scopes 1 to 3 serves: any byte of a filled sector of the remote data cache, which may be older than
the owning device's (R269, R371). -/
def servedByte (s : State) (pa : Nat) : Byte :=
  match remoteAt s pa with
  | some r => if r.filled || r.dirty.getLsbD (pa % 64) then r.data.getD (pa % 64) 0 else Memory.read s.mem.home pa
  | none => Memory.read s.mem.home pa

/-- A core's own dirty byte (R249). -/
def ownByte (s : State) (core pa : Nat) : Option Byte :=
  ((s.core core).sector (sectorOf pa)).bind fun x => if x.dirty.getLsbD (pa % 64) then some (x.data.getD (pa % 64) 0) else none

/-- The byte that a core's program order has put at an address: the core's own dirty byte, or else the home's (R249, R252).
Loads, evictions and write-backs leave it as it is. -/
def byteAt (s : State) (core pa : Nat) : Byte := (ownByte s core pa).getD (nearByte s pa)

/-- The byte that a cached load finds: any valid byte of a sector of the L1, which may be older than the home's (R171, R249). -/
def cachedByte (s : State) (core pa : Nat) : Byte :=
  match (s.core core).sector (sectorOf pa) with
  | some x => if x.valid.getLsbD (pa % 64) then x.data.getD (pa % 64) 0 else servedByte s pa
  | none => servedByte s pa

/-- The last byte that a list gives an address. -/
def lastByte (l : List (Nat × Byte)) (pa : Nat) : Option Byte := (l.reverse.find? fun e => e.1 == pa).map Prod.snd

/-- Scratchpad bytes that a wave writes: on a checked pair in both clusters, the shadow's being the odd one (R338). -/
def onClusters (s : State) (w : Wave) (l : List (Nat × Byte)) : List (Nat × Byte) :=
  if s.checked w then l ++ l.map fun e => (e.1 + 2 ^ 22, e.2) else l

/-- What a load finds at an address (R171, R249): the core's own dirty byte, where it has one; otherwise the byte that the home
serves, or the core's program order where the access drives a sector out of the remote data cache, or without hint 2 the byte
that its L1 holds. -/
def Found (s : State) (core hint pa : Nat) (b : Byte) : Prop :=
  b = byteAt s core pa ∨ ownByte s core pa = none ∧ (b = servedByte s pa ∨ hint ≠ 2 ∧ b = cachedByte s core pa)

/-- `x` is the value of an access of a size whose bytes a core finds at the addresses `pas`, lowest first (R170, R174). -/
def LoadedAs (s : State) (core hint : Nat) (z : Size) (pas : List Nat) (x : Word) : Prop :=
  ∃ b : Nat → Byte, (∀ p ∈ pas, Found s core hint p (b p)) ∧ x = z.extend (ofBytes (pas.map b))

/-! ### Caches in order -/

/-- A core's L1 holds a sector at most once, with 64 bytes (R249, R358). -/
def L1Wf (c : Core) : Prop := (c.l1.map L1Sector.sec).Nodup ∧ ∀ x ∈ c.l1, x.data.length = 64

/-- The remote data cache holds a sector at most once, with 64 bytes: peers' sectors alone, and none without a REMOTE husk
(R371). -/
def RdcWf (s : State) : Prop :=
  (s.mem.rdc.map RdcSector.sec).Nodup ∧
    ∀ r ∈ s.mem.rdc, r.data.length = 64 ∧ s.isPeer (64 * r.sec) = true ∧ s.remoteHusk.isSome = true

/-- Every cache of sectors is in order. -/
def CachesWf (s : State) : Prop := (∀ c ∈ s.cores, L1Wf c) ∧ RdcWf s

/-- No error is present in a memory, an L1 or an L2. -/
structure Clean (s : State) : Prop where
  sym : s.mem.symErrs = []
  poison : s.mem.poison = []
  l1 : s.mem.l1Errs = []
  l2 : s.mem.l2Errs = []

/-- What memory traffic of a core that stores the bytes `l` leaves: those bytes as they were last given, every other byte as
it was, the other cores' caches alone, and each home byte as it was, as this core's program order had or has it, or as the remote
data cache held it. -/
structure Traffic (s t : State) (core : Nat) (l : List (Nat × Byte)) : Prop where
  side : MemorySide s t
  bytes : ∀ pa, byteAt t core pa = (lastByte l pa).getD (byteAt s core pa)
  others : ∀ c, c ≠ core → (t.core c).l1 = (s.core c).l1
  homes : ∀ pa, Memory.read t.mem.home pa = Memory.read s.mem.home pa ∨ Memory.read t.mem.home pa = byteAt s core pa
    ∨ Memory.read t.mem.home pa = byteAt t core pa ∨ Memory.read t.mem.home pa = nearByte s pa

/-! ### Accesses -/

/-- Wave `k`'s memory is plain: no transaction is open, its launch is neither deterministic nor at IL3, it has no atomic
outstanding, nothing stands over memory for it, and no error is present; its core is one of the part, and the caches and homes
are in order. -/
structure Calm (s : State) (k : Nat) : Prop where
  txn : (s.wave k).txn = none
  det : s.detOf (s.wave k) = false
  level : s.ilevelOf (s.wave k) ≠ 3
  atomics : s.atomics = []
  overlay : s.overlay k = []
  veils : ∀ l ∈ s.launches, l.veils = []
  clean : Clean s
  core : s.coreOf (s.wave k) < s.cores.length
  caches : L1Wf (s.core (s.coreOf (s.wave k))) ∧ RdcWf s
  home : Memory.wf s.mem.home = true

/-- The lanes' accesses: at a base register, or through a window as it stands (R29, R170). -/
def requests (s : State) (w : Wave) (store bk : Bool) (a : BitVec 8) (n : Nat) (offs : List (Nat × Word)) : List LaneReq :=
  if bk then offs.map fun e => plainLane e.1 (w.readS a.toNat + e.2).toNat n
  else offs.map fun e => (s.window w a.toNat).lane store e.1 e.2.toNat n

/-- The access meets no fault and no window refill, and each of its lanes reaches the bytes that `lanes` names (R29, R178). -/
structure Reaches (s : State) (k : Nat) (kind : AccessKind) (bk : Bool) (a : BitVec 8) (n align : Nat) (offs : List (Nat × Word))
    (lanes : List (Nat × List Nat)) : Prop where
  standing : bk = true ∨ (s.window (s.wave k) a.toNat).wantsRefill (offs.map fun e => e.2.toNat) = false
  fatal : (s.resolve (s.wave k) kind align (requests s (s.wave k) (kind == .store) bk a n offs)).fatal = false
  faults : (s.resolve (s.wave k) kind align (requests s (s.wave k) (kind == .store) bk a n offs)).faults = []
  lanes : (s.resolve (s.wave k) kind align (requests s (s.wave k) (kind == .store) bk a n offs)).lanes = lanes

/-- The access of a vector memory instruction: contiguous with VLD and VST, by the lanes of Vb with VLDX and VSTX (R174). -/
def vectorOffsets (o : MemF) (w : Wave) (contiguous : Bool) : List (Nat × Word) :=
  offsetsOf o w contiguous (lanesOf (w.governing o.pn o.pi))

end Sys2Proof.Rules
end

