-- ==== Sys2Proof/Rules/Order.lean ====
section
/-! DEFINITION. What the spec gives scratchpad accesses, releases and acquires, atomics and transactions, in the terms that
statements use (01 R38, R39, 06 R177-R192, 08 R253-R264). -/

namespace Sys2Proof.Rules

open Sys2Proof.Machine Sys2Proof.Safety

/-! ### Lanes that fault (R178) -/

/-- The trap of an access in which the lanes of `faults` fault, each with its cause and address: the lowest lane's cause and
address, and every lane with that cause. -/
def laneTrap (faults : List (Nat × BitVec 7 × Nat)) (t : Trap) : Prop :=
  ∃ e ∈ faults, (∀ x ∈ faults, e.1 ≤ x.1) ∧ t.cause = e.2.1 ∧ t.addr = BitVec.ofNat 56 e.2.2
    ∧ ∀ l, l < 32 → (t.mask.getLsbD l = true ↔ ∃ x ∈ faults, x.1 = l ∧ x.2.1 = e.2.1)

/-! ### Scratchpad -/

/-- The scratchpad bytes of a lane's access of `n` bytes at an address (R38, R177). -/
def spKeys (s : State) (w : Wave) (n addr : Nat) : List Nat := (List.range n).map fun j => s.spKeyOf w ((addr + j) % 2 ^ 64)

/-- Every byte of the wave's scratchpad access may be accessed (R39). -/
def SpReaches (s : State) (w : Wave) (o : MemF) : Prop :=
  ∀ e ∈ spAddrs o w, ∀ j, j < o.size.bytes → s.spAllowed w ((e.2 + j) % 2 ^ 64) = true

/-! ### Releases and acquires -/

/-- The slices whose signatures an acquire of a line reads (R256, R269, R270). -/
def acquireSlices (s : State) (scope : Scope) (pa : Nat) : List Nat :=
  if scope = .system ∧ s.isPeer pa = true then [s.slice pa] else s.nearSlice pa :: s.oldSlices pa

/-- A core has acquired a line: no clean byte in its L1 matches the line's signature, and none is left when that is saturated
(R182, R249, R256). -/
def Acquired (t : State) (core : Nat) (scope : Scope) (pa : Nat) : Prop :=
  ∀ y ∈ (t.core core).l1, y.filled = true ∨ y.clean ≠ 0 →
    ∃ x, t.signatureAt (acquireSlices t scope pa) (lineOf pa) = some x ∧ sigMatch x y.sec = false

/-- A core holds no dirty byte (R182). -/
def Released (t : State) (core : Nat) : Prop := ∀ y ∈ (t.core core).l1, y.dirty = 0

/-- A line's signatures hold a deposit (R254, R256). -/
def Deposited (t : State) (scope : Scope) (pa : Nat) (x : BitVec 512) : Prop :=
  ∀ sl ∈ t.depositSlices pa scope, t.signatureIn sl (lineOf pa) &&& x = x

/-- A core of the part whose caches and homes are in order and without errors. -/
structure Sound (s : State) (core : Nat) : Prop where
  clean : Clean s
  inPart : core < s.cores.length
  l1 : L1Wf (s.core core)
  rdc : RdcWf s
  home : Memory.wf s.mem.home = true

/-! ### Atomics -/

/-- The requests of an atomic instruction (R187): one for each distinct address, with the lanes that name it in ascending
order, each with its data and compare value. -/
structure Requested (reqs : List AtomReq) (r : AtomReq) (lanes : List (Nat × List Nat)) (data : Nat → Nat × Nat) : Prop where
  distinct : (reqs.map AtomReq.pa).Nodup
  every : ∀ e ∈ lanes, ∃ x ∈ reqs, x.pa = e.2.headD 0
  lanes : ∀ x ∈ reqs, x.lanes = (lanes.filter fun e => e.2.headD 0 == x.pa).map fun e => (e.1, data e.1)
  fields : ∀ x ∈ reqs, { x with va := 0, pa := 0, lanes := [] } = { r with va := 0, pa := 0, lanes := [] }

/-- The new memory value of an operation on the old value `o`, the data `v` and the compare value `c`, of `w` bits (R185). -/
def atomRule (op : AtomOp) (w o v c x : Nat) : Prop :=
  match op with
  | .add => x = (o + v) % 2 ^ w
  | .min => x < 2 ^ w ∧ toSigned w x = min (toSigned w o) (toSigned w v)
  | .max => x < 2 ^ w ∧ toSigned w x = max (toSigned w o) (toSigned w v)
  | .minu => x = min o v
  | .maxu => x = max o v
  | .and => ∀ n, x.testBit n = (o.testBit n && v.testBit n)
  | .or => ∀ n, x.testBit n = (o.testBit n || v.testBit n)
  | .xor => ∀ n, x.testBit n = (o.testBit n != v.testBit n)
  | .swap => x = v
  | .cas => x = if o = c then v else o
  | .fadd => x = Fmt.addC .fp32 .rn false o v

/-- Lanes applied one after another in ascending order: each receives the value that the one before it left. -/
def oneByOne (f : Nat → Nat → Nat) (old : Nat) : List Nat → Nat × List Nat
  | [] => (old, [])
  | v :: t => ((oneByOne f (f old v) t).1, old :: (oneByOne f (f old v) t).2)

/-! ### Transactions -/

/-- Wave `k`'s transaction has aborted (R191): back at its target under its mask, with the reason, the attempts and the code in
S61; nothing of it reached memory. -/
structure Aborted (s t : State) (k : Nat) (x : Txn) (reason : BitVec 4) (code : BitVec 16) : Prop where
  pc : (t.wave k).pc = x.target
  exec : (t.wave k).exec = x.exec
  txn : (t.wave k).txn = none
  count : (t.wave k).aborts = (s.wave k).aborts + 1
  reason : ((t.wave k).readS 61).toNat % 16 = reason.toNat
  attempts : ((t.wave k).readS 61).toNat / 16 % 16 = min ((s.wave k).aborts + 1) 15
  code : ((t.wave k).readS 61).toNat / 65536 = code.toNat
  state : (t.wave k).state = (s.wave k).home
  home : t.mem.home = s.mem.home
  cores : t.cores = s.cores

end Sys2Proof.Rules
end

