-- ==== Sys2Proof/Rules/Engines.lean ====
section
/-! DEFINITION. What the spec gives bit-plane operands, tensor slots, copies and pods, in the terms that statements use
(03 R96-R98, R103-R108, 07 R207-R245). -/

namespace Sys2Proof.Rules

open Sys2Proof.Machine Sys2Proof.Safety

/-! ### Bit planes (R96, R98) -/

/-- The signed value of an element whose bits, from plane 0 down, are `b 0` to `b (p - 1)` (R96). -/
def planeValue (p : Nat) (b : Nat → Bool) : Int :=
  ((List.range p).map fun i => (if b i then (if i = 0 then -(2 ^ (p - 1)) else 2 ^ (p - 1 - i)) else 0 : Int)).sum

/-- Bit `k` of row `r` of plane `i` of k-step `st` of an operand of `ks` k-steps at an offset of a core's scratchpad (R98). -/
def planeBit (s : State) (cluster core off ks i st r k : Nat) : Bool :=
  (s.readSp (spKey cluster core (off + 1024 * (i * ks + st)) + 16 * r + k / 8)).getLsbD (k % 8)

/-- Element (r, k) of the A operand, read by the leader (R208, R210). -/
def aValue (s : State) (tw leader offA ks pa st r k : Nat) : Int :=
  planeValue pa fun i => planeBit s (tw / 2) leader offA ks i st r k

/-- Element (k, c) of the B operand, read in the core of its column (R208, R210). -/
def bValue (s : State) (tw offB ks pb st k c : Nat) : Int :=
  planeValue pb fun i => planeBit s (tw / 2) (2 * (tw % 2) + c / 64) offB ks i st (c % 64) k

/-- The contribution of a k-step to the accumulator of row r and column c (R210). -/
def contribution (s : State) (tw leader offA offB ks pa pb st r c : Nat) : Int :=
  ((List.range 128).map fun k => aValue s tw leader offA ks pa st r k * bValue s tw offB ks pb st k c).sum

/-- The range of an accumulator (R107). -/
def clamped (x : Int) : Int := max (-(2 ^ 31)) (min (2 ^ 31 - 1) x)

/-- An accumulator of a twin's tile. -/
def accumulator (s : State) (tw tile r c : Nat) : BitVec 32 := ((s.twin tw).tiles.getD tile []).getD (128 * r + c) 0

/-- A twin may work on its head: nothing is suspended, stopped or frozen, and no error is present in a scratchpad or an accumulator
(R213, R214, R345). -/
structure TwinReady (s : State) (tw : Nat) : Prop where
  inPart : tw < s.twins.length
  tiles : (s.twin tw).tiles.length = 4
  mpc : (s.twin tw).mpc.length = 4
  runs : s.twinRuns tw = true
  stopped : (s.twin tw).stopped = false
  spErrs : s.mem.spErrs = []
  accErrs : s.mem.accErrs = []
  owner : ∀ g, (s.twin tw).owner = some g → (s.group g).live = true

/-- Every byte of a scratchpad range may be accessed by a wave (R39). -/
def RangeOk (s : State) (w : Wave) (addr len : Nat) : Prop := ∀ j, j < len → s.spAllowed w (addr + j) = true

/-- The 128 bytes of plane `i` of a QPLANE lie in the core's scratchpad and may be accessed (R39, R221). -/
def PlaneFits (s : State) (w : Wave) (base ks i : Nat) : Prop :=
  base % 2 ^ 20 + 1024 * i * ks < 2 ^ 20 ∧ RangeOk s w (base + 1024 * i * ks) 128

/-! ### Appends (R238, R245) -/

/-- What an EMIT or EMITC of at least one record does with its request: with room it completes, the records on the way to the pod
and its bytes taken from the pool; without room the wave waits, Pd says so, or POD_FULL; in a deterministic launch the wave waits
for the epoch end. -/
def Appends (s : State) (k : Nat) (i : Instr) (d : BitVec 8) (r : EmitReq) : Prop :=
  let w := s.wave k
  let bytes := r.pips.length * (s.podKernel r.graph r.node).record
  let room := (s.graph r.graph).poolUsed + bytes ≤ (s.graph r.graph).poolSize
  let waits (x : Wave) : Wave :=
    { x with state := .blocked, wait := .emit s.tag, stalled := some i, unmarked := .p d.toNat :: x.unmarked }
  (s.holdsOf w = true → exec i s = .next { (issued s k).modWave k fun x =>
      { waits x with effects := x.effects ++ [.emit r], quantumEnded := true } with tag := s.tag + 1 })
  ∧ (s.holdsOf w = false →
    (room → ∃ u : State, u = { (issued s k).modGraph r.graph (fun x => { x with poolUsed := x.poolUsed + bytes }) with
          emits := s.emits ++ [r], tag := s.tag + 1, fab := { s.fab with queues := u.fab.queues } }
        ∧ Runs i s k (u.modWave k fun x => x.long (.p d.toNat) (.p (w.readP d.toNat)) 1 s.tag))
    ∧ (¬room → (s.podKernel r.graph r.node).overflow = 0 → ∃ u : State,
        u = { (issued s k).modWave k waits with
          emits := s.emits ++ [{ r with blocked := true }], tag := s.tag + 1, fab := { s.fab with queues := u.fab.queues } }
        ∧ exec i s = .next u)
    ∧ (¬room → (s.podKernel r.graph r.node).overflow = 1 →
        Completes i s k (w.long (.p d.toNat) (.p (w.readP d.toNat ||| r.mask))))
    ∧ (¬room → 1 < (s.podKernel r.graph r.node).overflow → MayEnter s k → exec i s = .next ((issued s k).setWave k
        (entered s.cc ((issued s k).wave k) (s.ctx w.ctx).tvec 0x56 r.mask 0))))

/-! ### Tensor slots (R105) -/

/-- The scale word that AMAXRD gives: in a deterministic launch that of its start (R106, R222). -/
def scaleWord (s : State) (w : Wave) (slot : BitVec 6) : Word :=
  ((if s.detOf w then (s.launch w.launch).snapshot else (s.ctx w.ctx).slots).getD slot.toNat {}).word

/-- The floor of the base-2 logarithm of a positive finite FP32 encoding. -/
def fp32Log2 (c : Nat) (e : Int) : Prop :=
  ∃ n m : Nat, 2 ^ n ≤ m ∧ m < 2 ^ (n + 1) ∧
    if c / 2 ^ 23 % 256 = 0 then m = c ∧ e = n - 149 else m = 2 ^ 23 + c % 2 ^ 23 ∧ e = n + (c / 2 ^ 23 % 256 : Nat) - 150

/-- The largest exponent of a target format: E4M3, E5M2, E2M1 and i8 (R105). -/
def slotEmax (fmt : BitVec 2) : Int := if fmt = 0 then 8 else if fmt = 1 then 15 else if fmt = 2 then 2 else 6

end Sys2Proof.Rules
end

