-- ==== Sys2Proof/Rules/Device.lean ====
section
/-! DEFINITION. What the spec gives the command processor, Jalti, the fabric, the links and the host, in the terms that statements
use (04 R137, 10 R302, R310, 09 R290, 13 R396-R399, 14 R407, R408). -/

namespace Sys2Proof.Rules

open Sys2Proof.Machine Sys2Proof.Safety

/-! ### Waves -/

/-- The physical cores whose instruction caches an ICINV of a scope covers (R137), at IL3 with the shadow cluster's (R140). -/
def icinvCovers (s : State) (w : Wave) (scope : Scope) (core : Nat) : Prop :=
  match scope with
  | .wave | .group => core = s.coreOf w ∨ s.checked w = true ∧ core = s.coreOf w + 4
  | .cluster => core / 4 = s.physCluster w.ctx w.clid ∨ s.checked w = true ∧ core / 4 = s.physCluster w.ctx w.clid + 1
  | .device | .system => core / 4 ∈ (s.ctx w.ctx).clusterMap

/-- Wave `k`'s TRAP has been answered with `x` in its S56, and the wave goes on behind it (R302). -/
structure Answered (s t : State) (k : Nat) (x : Word) : Prop where
  value : (t.wave k).readS 56 = x
  others : ∀ n, n ≠ 56 → (t.wave k).readS n = (s.wave k).readS n
  v : (t.wave k).v = (s.wave k).v
  p : (t.wave k).p = (s.wave k).p
  pc : (t.wave k).pc = (s.wave k).pc + 8
  wait : (t.wave k).wait = .nothing
  runs : (t.wave k).state ≠ .blocked

/-- The registers of wave `k`, all of them, are as they were. -/
structure KeptWhole (s t : State) (k : Nat) : Prop where
  scalars : (t.wave k).s = (s.wave k).s
  sbank : (t.wave k).sbank = (s.wave k).sbank
  v : (t.wave k).v = (s.wave k).v
  p : (t.wave k).p = (s.wave k).p
  exec : (t.wave k).exec = (s.wave k).exec
  pc : (t.wave k).pc = (s.wave k).pc
  priv : (t.wave k).priv = (s.wave k).priv
  tcause : (t.wave k).tcause = (s.wave k).tcause
  tmask : (t.wave k).tmask = (s.wave k).tmask
  taddr : (t.wave k).taddr = (s.wave k).taddr
  taddrTile : (t.wave k).taddrTile = (s.wave k).taddrTile
  tpc : (t.wave k).tpc = (s.wave k).tpc
  valloc : (t.wave k).valloc = (s.wave k).valloc

/-- The members of a dispatched group as they start (R13, R18, R281, R284): READY at U before their first instruction, with their
registers zero but for the launch's arguments and the caps word. -/
def Starts (t : State) (first : Nat) (x : Launch) (g n regs : Nat) (pc : VAddr) (active : Nat → Nat → Bool) : Prop :=
  ∀ m, m < n →
    let w := t.wave (first + m)
    w.state = .ready ∧ w.priv = .u ∧ w.waveid = m ∧ w.group = g ∧ w.ctx = x.ctx ∧ w.pc = pc ∧ w.valloc = regs
    ∧ (∀ l, l < 32 → w.exec.getLsbD l = active m l) ∧ (∀ r, w.readV r = zeroVReg) ∧ (∀ r, r ≠ 0 → w.readP r = 0)
    ∧ (x.args.length = 15 → x.planearg ≤ 15 → ∀ r, 1 ≤ r → w.readS r =
        if x.planearg = r then BitVec.ofNat 64 (x.pcapa + 16 * x.pcapb) else if r ≤ 15 then x.args.getD (r - 1) 0 else 0)

/-! ### Translations that a shootdown drops (R309, R310) -/

/-- The cores of a context's partition hold exactly their translations of it that do not satisfy `gone`; no window of its groups
that satisfies `window` is valid. -/
structure Dropped (s t : State) (c : Nat) (gone : TlbEntry → Prop) (window : Window → Prop) : Prop where
  tlb : ∀ core, core / 4 ∈ (s.ctx c).clusterMap → core < s.cores.length → ∀ e,
    e ∈ (t.core core).tlb ↔ e ∈ (s.core core).tlb ∧ ¬(e.asid = (s.ctx c).asid ∧ gone e)
  others : ∀ core, core / 4 ∉ (s.ctx c).clusterMap → (t.core core).tlb = (s.core core).tlb
  windows : ∀ g, (s.group g).ctx = c → ∀ i, window ((s.group g).windows.getD i {}) → ((t.group g).windows.getD i {}).valid = false
  kept : ∀ g, (s.group g).ctx ≠ c → t.group g = s.group g

/-- A range of bytes widened to 64 KiB pages meets another range. -/
def pagesMeet (a n base len : Nat) : Prop :=
  base / 65536 * 65536 < a + n ∧ a < (base + len + 65535) / 65536 * 65536

/-! ### Fetches (R138) -/

/-- What a fetch may change: the fetching core's instruction cache and translations, and what memory traffic may change but for
bytes. -/
structure FetchSide (s t : State) : Prop where
  side : MemorySide s { t with cores := s.cores }
  homes : ∀ pa, Memory.read t.mem.home pa = Memory.read s.mem.home pa ∨ Memory.read t.mem.home pa = nearByte s pa
  near : ∀ pa, nearByte t pa = nearByte s pa
  cores : (t.cores.map fun c => ({ c with icache := [], tlb := [] } : Core)) = s.cores.map fun c => ({ c with icache := [], tlb := [] } : Core)

/-! ### Quiesce points (R295) -/

/-- Context `c`'s partition is at rest: its waves are EXITED or SAVED, its copies are done, and the matrix queues of its twins are empty. -/
def AtRest (s : State) (c : Nat) : Prop :=
  (∀ w ∈ s.waves, w.ctx = c → w.state = .exited ∨ w.state = .saved)
  ∧ ∀ p ∈ (s.ctx c).clusterMap, (∀ q, q < 4 → ∀ x ∈ (s.copyQueue (4 * p + q)).entries, x.ctx ≠ c)
    ∧ ∀ h, h < 2 → (s.twin (2 * p + h)).queue = []

/-- A change may be applied: what it touches is at rest. -/
def DueAt (s : State) : QuiesceChange → Prop
  | .clusterMap c _ | .huskMap c _ _ => AtRest s c
  | .removePair p => ∀ c, c < s.ctxs.length → (s.ctx c).alive = true → (∃ x ∈ (s.ctx c).clusterMap, x / 2 = p) → AtRest s c
  | .routes | .husk0Share _ _ | .movePage _ _ => ∀ c, c < s.ctxs.length → (s.ctx c).alive = true → AtRest s c

/-- Logical clusters 2k and 2k + 1 form one physical pair, none twice (R40, R295). -/
def WholePairs (map : List Nat) : Prop :=
  map.Nodup ∧ map.length % 2 = 0
  ∧ ∀ k, 2 * k + 1 < map.length → map.getD (2 * k) 0 % 2 = 0 ∧ map.getD (2 * k) 0 < 48 ∧ map.getD (2 * k + 1) 0 = map.getD (2 * k) 0 + 1

/-! ### Peers (R314) -/

/-- This home maps an address for its context `c`, on this device, and permits the access. -/
def PeerMapped (s : State) (c va : Nat) (kind : AccessKind) : Prop :=
  va < 2 ^ 56 ∧ ∃ l, s.walk c va = .ok l ∧ (s.entryOf (s.ctx c).asid va l).peer = false
    ∧ s.permit c kind true (s.entryOf (s.ctx c).asid va l) va = none

/-! ### SPDM (R413) -/

/-- A response of the given code ends with `body`, is what the responder sent last, and enters the transcript. -/
def Responds (s t : State) (code session : Nat) (body : List Byte) : Prop :=
  let r := Config.spdmBody code session s.sec.serial ++ body
  t.sec.responses = r :: s.sec.responses ∧ t.sec.serial = s.sec.serial + 1
  ∧ (t.sec.transcript = s.sec.transcript ++ r ∨ code = 0x84 ∧ t.sec.transcript = r)
  ∧ ({ t with sec := s.sec } : State) = s

/-- A response that ends with the identity key's signature over the transcript, the requester's nonce and what it says. -/
def Signs (s t : State) (code : Nat) (nonce body : List Byte) : Prop :=
  let head := Config.spdmBody code 0 s.sec.serial ++ body
  let said := s.sec.transcript ++ nonce ++ head
  t.sec.responses = (head ++ Config.deviceSignature (Sha.sha512 said)) :: s.sec.responses
  ∧ t.sec.transcript = said ++ Config.deviceSignature (Sha.sha512 said) ∧ ({ t with sec := s.sec } : State) = s

/-- A request that is answered with the error response and changes nothing else. -/
def Refuses (i : Instr) (s : State) : Prop :=
  ∃ t, exec i s = .next t ∧ Responds s t 0x7F 0 [] ∧ t.sec.phase = s.sec.phase ∧ t.sec.sessions = s.sec.sessions ∧ t.sec.streams = s.sec.streams

/-! ### Entries that the device writes for the host -/

/-- A completion entry (R408). -/
def completionEntry (tag : BitVec 32) (status opc phase seq detail : Nat) : List Byte :=
  bytesOf 4 tag.toNat ++ bytesOf 2 status ++ bytesOf 1 opc ++ bytesOf 1 phase ++ bytesOf 8 seq ++ bytesOf 8 detail ++ zeros 8

/-- A trace entry with its header, padded to whole units (R397). -/
def traceBytes (tseq type units context : Nat) (body : List Byte) : List Byte :=
  let e := bytesOf 8 tseq ++ bytesOf 1 type ++ bytesOf 1 units ++ bytesOf 2 context ++ zeros 4 ++ body
  e ++ zeros (64 * units - e.length)

/-- Feedback of the gangs' 16-bit Fibonacci LFSR (R290): x^16 + x^14 + x^13 + x^11 + 1. -/
def lfsrNext (x y : BitVec 16) : Prop :=
  y.getLsbD 0 = ((x.getLsbD 15 != x.getLsbD 13) != (x.getLsbD 12 != x.getLsbD 10))
  ∧ ∀ n, n < 15 → y.getLsbD (n + 1) = x.getLsbD n

end Sys2Proof.Rules
end

