-- ==== Sys2Proof/Rules/Scalar.lean ====
section
/-! DEFINITION. The results that the spec's tables give the scalar instructions, as relations on numbers that statements use
beside the machine's own functions (04 R114-R119, 03 R78). -/

namespace Sys2Proof.Rules

open Sys2Proof.Machine

/-- What an instruction requires of its 64-bit result, from the wave before it. -/
abbrev ScalarRel := Wave → Word → Prop

/-- A result of two operands: x is Sa, y is Sb or the immediate (R114). -/
def binary (o : SBin) (f : Word → Word → Word → Prop) : Option (Nat × ScalarRel) :=
  some (o.d.toNat, fun w r => f (w.readS o.a.toNat) (w.ssrc o.b) r)

/-- A result of one operand. -/
def unary (d a : BitVec 8) (f : Word → Word → Prop) : Option (Nat × ScalarRel) :=
  some (d.toNat, fun w r => f (w.readS a.toNat) r)

/-- `r` is 1 where `p` holds and 0 where not. -/
def truth (p : Prop) (r : Word) : Prop := (p → r = 1) ∧ (¬p → r = 0)

/-- Sd and the value that a short scalar instruction writes there (R115-R119). -/
def scalarShort : Instr → Option (Nat × ScalarRel)
  | .sadd o => binary o fun x y r => r.toNat = (x.toNat + y.toNat) % 2 ^ 64
  | .ssub o => binary o fun x y r => (r.toNat + y.toNat) % 2 ^ 64 = x.toNat
  | .sand o => binary o fun x y r => ∀ n, r.getLsbD n = (x.getLsbD n && y.getLsbD n)
  | .sor o => binary o fun x y r => ∀ n, r.getLsbD n = (x.getLsbD n || y.getLsbD n)
  | .sxor o => binary o fun x y r => ∀ n, r.getLsbD n = (x.getLsbD n != y.getLsbD n)
  | .sandn o => binary o fun x y r => ∀ n, r.getLsbD n = (x.getLsbD n && !y.getLsbD n)
  | .sshl o => binary o fun x y r => r.toNat = x.toNat * 2 ^ (y.toNat % 64) % 2 ^ 64
  | .sshr o => binary o fun x y r => r.toNat = x.toNat / 2 ^ (y.toNat % 64)
  | .ssar o => binary o fun x y r => r.toInt = x.toInt / 2 ^ (y.toNat % 64)
  | .srot o => binary o fun x y r => ∀ n, n < 64 → r.getLsbD n = x.getLsbD ((n + y.toNat) % 64)
  | .smin o => binary o fun x y r => r.toInt = min x.toInt y.toInt
  | .smax o => binary o fun x y r => r.toInt = max x.toInt y.toInt
  | .sminu o => binary o fun x y r => r.toNat = min x.toNat y.toNat
  | .smaxu o => binary o fun x y r => r.toNat = max x.toNat y.toNat
  | .sslt o => binary o fun x y r => truth (x.toInt < y.toInt) r
  | .ssltu o => binary o fun x y r => truth (x.toNat < y.toNat) r
  | .sseq o => binary o fun x y r => truth (x = y) r
  | .smul o => binary o fun x y r => r.toNat = x.toNat * y.toNat % 2 ^ 64
  | .smulh o => binary o fun x y r => r.toInt = x.toInt * y.toInt / 2 ^ 64
  | .smulhu o => binary o fun x y r => r.toNat = x.toNat * y.toNat / 2 ^ 64
  | .smad o => some (o.d.toNat, fun w r =>
      r.toNat = ((w.readS o.a.toNat).toNat * (w.ssrc o.b).toNat + (w.readS o.c.toNat).toNat) % 2 ^ 64)
  | .sclz o => unary o.d o.a fun x r =>
      if x = 0 then r = 64 else r.toNat < 64 ∧ 2 ^ 63 ≤ x.toNat * 2 ^ r.toNat ∧ x.toNat * 2 ^ r.toNat < 2 ^ 64
  | .sctz o => unary o.d o.a fun x r =>
      if x = 0 then r = 64 else r.toNat < 64 ∧ x.getLsbD r.toNat = true ∧ ∀ n, n < r.toNat → x.getLsbD n = false
  | .spopc o => unary o.d o.a fun x r => r.toNat = ((List.range 64).filter x.getLsbD).length
  | .sbrev o => unary o.d o.a fun x r => ∀ n, n < 64 → r.getLsbD n = x.getLsbD (63 - n)
  | .ssext o => unary o.d o.a fun x r => ∀ n, n < 64 → r.getLsbD n = x.getLsbD (min n (o.width.toNat - 1))
  | .szext o => unary o.d o.a fun x r => r.toNat = x.toNat % 2 ^ o.width.toNat
  | .sbfx o => some (o.d.toNat, fun w r =>
      r.toNat = (w.readS o.a.toNat).toNat / 2 ^ o.pos.toNat % 2 ^ min (w.readS o.b.toNat).toNat (64 - o.pos.toNat))
  | .sbfi o => some (o.d.toNat, fun w r => ∀ n, n < 64 → r.getLsbD n =
      if o.pos.toNat ≤ n ∧ n < o.pos.toNat + (w.readS o.b.toNat).toNat then (w.readS o.a.toNat).getLsbD (n - o.pos.toNat)
      else (w.readS o.d.toNat).getLsbD n)
  | .ssel o => some (o.d.toNat, fun w r =>
      (w.readS o.c.toNat ≠ 0 → r = w.readS o.a.toNat) ∧ (w.readS o.c.toNat = 0 → r = w.readS o.b.toNat))
  | .slea o => some (o.d.toNat, fun w r =>
      r.toNat = ((w.readS o.a.toNat).toNat + (w.readS o.b.toNat).toNat * 2 ^ o.shift.toNat) % 2 ^ 64)
  | .saddi o => unary o.d o.a fun x r => r.toNat = (x.toNat + (o.imm.signExtend 64).toNat) % 2 ^ 64
  | .sandi o => unary o.d o.a fun x r => ∀ n, r.getLsbD n = (x.getLsbD n && (o.imm.signExtend 64).getLsbD n)
  | .sori o => unary o.d o.a fun x r => ∀ n, r.getLsbD n = (x.getLsbD n || (o.imm.signExtend 64).getLsbD n)
  | .sxori o => unary o.d o.a fun x r => ∀ n, r.getLsbD n = (x.getLsbD n != (o.imm.signExtend 64).getLsbD n)
  | .smovi o => some (o.d.toNat, fun _ r => r.toInt = o.imm.toInt)
  | .smovhi o => unary o.d o.a fun x r => r.toNat = o.imm.toNat * 2 ^ 28 + x.toNat % 2 ^ 28
  | .sslti o => unary o.d o.a fun x r => truth (x.toInt < o.imm.toInt) r
  | .saddpc o => some (o.d.toNat, fun w r => r.toNat = (w.pc.toNat + (o.imm.signExtend 64).toNat) % 2 ^ 64)
  | _ => none

/-- Sd and the value of a long scalar instruction (R78, R116): a zero divisor gives a quotient of all ones and the dividend as
remainder. -/
def scalarLong : Instr → Option (Nat × ScalarRel)
  | .sdiv o => binary o fun x y r => if y = 0 then r = BitVec.allOnes 64 else r = BitVec.ofInt 64 (x.toInt.tdiv y.toInt)
  | .sdivu o => binary o fun x y r => if y = 0 then r = BitVec.allOnes 64 else r.toNat = x.toNat / y.toNat
  | .srem o => binary o fun x y r => if y = 0 then r = x else r.toInt = x.toInt.tmod y.toInt
  | .sremu o => binary o fun x y r => if y = 0 then r = x else r.toNat = x.toNat % y.toNat
  | _ => none

end Sys2Proof.Rules
end

