-- ==== Sys2Proof/Certificates/Slice0/Obligations.lean ====
section
/-! DEFINITION. The statements about this machine, from the rules of the spec. -/

open Sys2Proof Sys2Proof.Machine Sys2Proof.Safety Sys2Proof.Rules

/-! ### Registers, results and control flow -/

/-- R21-R23, R56: S0 and P0 read as constants and discard writes; S56-S63 name the S bank in S-mode, so that neither level touches
the other's; a register that is written reads back and every other keeps its value; a vector register written under a mask takes
the new lanes where the mask has a 1 and keeps the others. -/
def Obligations.RegisterFiles : Prop :=
  (∀ (w : Wave) (n m : Nat) (x : Word) (p : Mask),
      w.readS 0 = 0 ∧ w.writeS 0 x = w ∧ w.readP 0 = 0xFFFFFFFF ∧ w.writeP 0 p = w
      ∧ (n ≠ 0 → (w.writeS n x).readS n = x) ∧ (m ≠ n → (w.writeS n x).readS m = w.readS m)
      ∧ (n ≠ 0 → (w.writeP n p).readP n = p) ∧ (m ≠ n → (w.writeP n p).readP m = w.readP m)
      ∧ (w.priv = .s → 56 ≤ n → (w.writeS n x).s = w.s) ∧ (w.priv = .u ∨ n < 56 → (w.writeS n x).sbank = w.sbank)
      ∧ (w.writeS n x).p = w.p ∧ (w.writeS n x).v = w.v ∧ (w.writeP n p).s = w.s ∧ (w.writeP n p).v = w.v)
  ∧ (∀ (w : Wave) (g : Mask) (n m : Nat) (x : VReg) (l : Nat), l < 32 →
      laneOf ((w.writeLanes g n x).readV n) l = (if g.getLsbD l then laneOf x l else laneOf (w.readV n) l)
      ∧ (m ≠ n → (w.writeLanes g n x).readV m = w.readV m)
      ∧ ∀ (pn : Bool) (pi : BitVec 3), (w.governing pn pi).getLsbD l =
          (w.exec.getLsbD l && ((w.readP pi.toNat).getLsbD l != pn)))

/-- R60, R299: the decode conditions that a word which decodes may still meet are PRIVILEGE, ILLEGAL_OPERAND, VREG_RANGE and
UNMARKED_HAZARD, the first that applies; an instruction that meets one enters the handler with that cause, whatever instruction it
is, and has no other effect. -/
def Obligations.DecodeConditions : Prop :=
  (∀ (w : Wave) (i : Instr),
      let named := (operands i).flatMap w.regsOf
      let privilege := w.priv = .u ∧ i.privileged = true
      let operand := i.illegalWord = true ∨ ∃ o ∈ operands i, o.illegal = true
      let range := ∃ n, Reg.v n ∈ named ∧ w.valloc ≤ n
      let hazard := ∃ r ∈ named, r ∈ w.unmarked
      (privilege → w.decodeCheck i = some 0x03)
      ∧ (¬privilege → operand → w.decodeCheck i = some 0x04)
      ∧ (¬privilege → ¬operand → range → w.decodeCheck i = some 0x05)
      ∧ (¬privilege → ¬operand → ¬range → hazard → w.decodeCheck i = some 0x06)
      ∧ (¬privilege → ¬operand → ¬range → ¬hazard → w.decodeCheck i = none))
  ∧ (∀ (s : State) (k : Nat) (i : Instr) (cause : BitVec 7), s.cur = some k → k < s.waves.length → s.canIssue k i = true → (encode i).isSome →
      (s.wave k).decodeCheck i = some cause → MayEnter s k →
      exec i s = .next ((issued s k).setWave k
        (entered s.cc ((issued s k).wave k) (s.ctx (s.wave k).ctx).tvec cause (s.wave k).exec 0)))

/-- R57, R78, R114-R119: every scalar instruction with a short result completes with the value of the spec's tables in Sd; SDIV, SDIVU,
SREM and SREMU complete with a long write of the quotient or remainder, where a zero divisor gives all ones or the dividend. Nothing
else of the wave or of the machine changes but what every retirement changes. -/
def Obligations.ScalarResults : Prop :=
  (∀ (s : State) (k : Nat) (i : Instr) (d : Nat) (rel : ScalarRel), scalarShort i = some (d, rel) → wellFormed i = true → Issues s k i →
      ∃ r, rel (s.wave k) r ∧ Completes i s k ((s.wave k).writeS d r))
  ∧ (∀ (s : State) (k : Nat) (i : Instr) (d : Nat) (rel : ScalarRel), scalarLong i = some (d, rel) → Issues s k i →
      ∃ r, rel (s.wave k) r ∧ Completes i s k ((s.wave k).long ((s.wave k).sReg d) (.s r)))

/-- R57, R76-R94, R109-R111, R142-R165: every vector instruction completes with the spec's value in each sub-element of each active lane
of its destinations, short results at once and long ones in a long write that carries the old contents of the inactive lanes; every
other register keeps its contents. -/
def Obligations.VectorResults : Prop :=
  (∀ (s : State) (k : Nat) (i : Instr) (r : VecRule), vectorShort s (s.wave k) i = some r → wellFormed i = true → Issues s k i →
      ∃ v, r.accepts v ∧ Completes i s k (r.write (s.wave k) v))
  ∧ (∀ (s : State) (k : Nat) (i : Instr) (r : VecRule), vectorLong (s.wave k) i = some r → wellFormed i = true → Issues s k i →
      ∃ v : VReg, r.accepts (fun _ => v) ∧ Completes i s k ((s.wave k).long (.v (r.dst.headD 0))
        (.v (mergeLanes ((s.wave k).governing r.pn r.pi) v ((s.wave k).readV (r.dst.headD 0))))))

/-- R49, R120, R121, R123, R124, R135, R155, R160: VCMP, VBALLOT, the XMOVs, XAND and NOP complete with the spec's masks and predicates;
XJOIN completes with EXEC := Pa and enters the difference EXEC AND NOT Pa in the block signature, behind its word; the branches, CALL,
RET and JMPI retire at their target, or at the next word where the condition fails; CALL leaves its return address in S62. -/
def Obligations.ControlResults : Prop :=
  ((∀ (s : State) (k : Nat) (i : Instr) (rule : Wave → Prop), maskRule (s.wave k) i = some rule → Issues s k i →
        ∃ w, rule w ∧ Completes i s k w)
    ∧ (∀ (s : State) (k : Nat) (q : Bool) (a : BitVec 8), Issues s k (.xjoin q a) →
        ∃ t, exec (.xjoin q a) s = .next t ∧
          Retires s t k (.xjoin q a) ((s.wave k).pc + 8) { s.wave k with exec := (s.wave k).readP a.toNat }
            (bytesOf 4 ((s.wave k).exec &&& ~~~(s.wave k).readP a.toNat).toNat)))
  ∧ (∀ (s : State) (k : Nat) (i : Instr) (rule : VAddr → Wave → Prop), branchRule (s.wave k) i = some rule → Issues s k i →
      ∃ next w t, rule next w ∧ exec i s = .next t ∧ Retires s t k i next w)

/-! ### Special registers, signatures and the system instructions -/

/-- R26, R31, R34, R131, R132, R134: SRD completes with the special register in Sd, or in each active lane of Vd with the lane's own number
for LANEID, and what the special registers of a wave, its group and its context hold, by number; SWR completes with its special
register written, where the value does not have to be aligned or is; what software writes reads back as its own bits, and the rest
as before. -/
def Obligations.SpecialRegisters : Prop :=
  ((∀ (s : State) (k : Nat) (o : SrdF), Issues s k (.srd o) →
        (o.vec = false → Completes (.srd o) s k ((s.wave k).writeS o.d.toNat (s.readSpecial (s.wave k) o.sr.toNat)))
        ∧ (o.vec = true → ∃ v : VReg, (∀ l, l < lanes → laneOf v l =
              if o.sr = 0 then BitVec.ofNat 64 l else s.readSpecial (s.wave k) o.sr.toNat)
            ∧ Completes (.srd o) s k ((s.wave k).writeLanes (s.wave k).exec o.d.toNat v)))
    ∧ (∀ (s : State) (w : Wave) (n : Nat) (x : Word), specialRule s w n = some x → s.readSpecial w n = x))
  ∧ ((∀ (s : State) (k : Nat) (o : SwrF), Issues s k (.swr o) →
        (o.sr ≠ 0x20 ∧ o.sr ≠ 0x24 ∨ ((s.wave k).readS o.a.toNat).toNat % 8 = 0) →
        Runs (.swr o) s k ((issued s k).writeSpecial k o.sr.toNat ((s.wave k).readS o.a.toNat)))
    ∧ (∀ (s : State) (k n : Nat) (x : Word), k < s.waves.length → (s.wave k).ctx < s.ctxs.length →
        let w := s.wave k
        let t := s.writeSpecial k n x
        let r := t.readSpecial (t.wave k) n
        (n = 0x12 → s.ilevelOf w ≠ 0 → r.toNat = x.toNat % 2 ^ 32)
        ∧ (n = 0x14 → r = x)
        ∧ (n = 0x20 ∨ n = 0x24 → r.toNat = x.toNat % 2 ^ 56)
        ∧ (0x18 ≤ n ∧ n ≤ 0x1F → ∀ m, r.getLsbD m = (x.getLsbD m && (decide (m < 10) || decide (m = 15))))
        ∧ (0x28 ≤ n ∧ n ≤ 0x2F → s.perfHidden w = false → (s.ctx w.ctx).perf.length = 8 →
            r.toNat = (x.toNat + (if (s.perfOf w (n - 0x28)).stamp = s.cc then (s.perfOf w (n - 0x28)).fresh else 0)) % 2 ^ 48)
        ∧ (0x30 ≤ n ∧ n ≤ 0x33 → s.ownsTwin w = true → s.twinOf w < s.twins.length → (s.twin (s.twinOf w)).mpc.length = 4 →
            r.toNat % 2 ^ 10 = (if (s.mpcOf w (n - 0x30)).busy then (s.mpcOf w (n - 0x30)).kstep.toNat else x.toNat % 2 ^ 10)
            ∧ r.getLsbD 16 = (s.mpcOf w (n - 0x30)).busy
            ∧ r.getLsbD 17 = ((s.mpcOf w (n - 0x30)).ovf && !x.getLsbD 17))))

/-- R126, R127, R134, R137, R395: PERFRD completes with a long write of the counter and its overflow bit, 0 for a U-mode wave of a
deterministic launch, and with CLR it clears the overflow bit and nothing else; SIGCHK completes at IL0 with no effect and
elsewhere, where SIGREG matches, with SIGREG 0; ACORN completes with no effect below IL3 and there waits for the snapshot that its
pair now wants; ICINV completes and holds the wave until the covered caches have acknowledged. -/
def Obligations.SystemResults : Prop :=
  (∀ (s : State) (k : Nat) (o : PerfrdF), Issues s k (.perfrd o) →
      ∃ u x, Runs (.perfrd o) s k u
        ∧ u = ((if o.clr then (issued s k).modCtx (s.wave k).ctx (fun c =>
              { c with perf := modAt (fun p => { p with overflow := false }) c.perf o.n.toNat }) else issued s k).modWave k
            fun w => w.long (w.sReg o.d.toNat) (.s x))
        ∧ x.toNat = (if s.detOf (s.wave k) = true ∧ (s.wave k).priv = .u then 0 else
            (s.perfOf (s.wave k) o.n.toNat).count.toNat + 2 ^ 48 * (s.perfOf (s.wave k) o.n.toNat).overflow.toNat))
  ∧ (∀ (s : State) (k : Nat) (q : Bool) (imm : BitVec 32) (id : BitVec 16) (scope : Scope),
      (Issues s k (.sigchk q imm) →
        (s.ilevelOf (s.wave k) = 0 → Completes (.sigchk q imm) s k (s.wave k))
        ∧ (s.ilevelOf (s.wave k) ≠ 0 → (s.wave k).sigreg = imm → Completes (.sigchk q imm) s k { s.wave k with sigreg := 0 }))
      ∧ (Issues s k (.acorn q id) →
        (s.ilevelOf (s.wave k) ≠ 3 → Completes (.acorn q id) s k (s.wave k))
        ∧ (s.ilevelOf (s.wave k) = 3 → exec (.acorn q id) s = .next (((issued s k).modWave k fun w =>
            { w with hold := .acorn id.toNat, stalled := some (.acorn q id) }).modPair (s.pairOf (s.wave k)) fun p =>
              { p with wanted := some 0 })))
      ∧ (Issues s k (.icinv q scope) → Completes (.icinv q scope) s k { s.wave k with hold := .icinv scope }))

/-! ### Exceptions -/

/-- R121, R128, R129, R189, R193, R195, R199, R298-R301: a condition is taken as a trap at once, or once the outstanding returns have
come; it kills the wave in S-mode and where the context has no handler; inside a transaction it aborts with reason FAULT and its cause
as the code. A control or group instruction that raises a condition by its operands enters the handler with its cause and address,
and has no other effect. -/
def Obligations.TrapEntry : Prop :=
  (∀ (s : State) (k : Nat) (c : Trap), k < s.waves.length →
      (MayEnter s k → s.takeTrap k c = s.setWave k (entered s.cc (s.wave k) (s.ctx (s.wave k).ctx).tvec c.cause c.mask c.addr c.tile))
      ∧ (MayEnter s k → (s.wave k).trap = some c → exec (.trapEntry k c.cause c.mask c.addr) s =
          .next (s.setWave k (entered s.cc (s.wave k) (s.ctx (s.wave k).ctx).tvec c.cause c.mask c.addr c.tile)))
      ∧ ((s.wave k).txn = none → (s.wave k).pending ≠ [] → s.takeTrap k c = s.modWave k fun w =>
          { w with state := .parked, wait := .nothing, stalled := none, trap := some c })
      ∧ ((s.wave k).txn = none → (s.wave k).pending = [] → ((s.wave k).priv = .s ∨ (s.ctx (s.wave k).ctx).tvec = 0) →
          ((s.takeTrap k c).wave k).state = .exited
          ∧ ((s.launch (s.wave k).launch).state = .running → (s.wave k).launch < s.launches.length →
              ((s.takeTrap k c).launch (s.wave k).launch).tearing = true))
      ∧ (∀ x, (s.wave k).txn = some x → (s.wave k).pending = [] → Aborted s (s.takeTrap k c) k x 6 (c.cause.setWidth 16)))
  ∧ (∀ (s : State) (k : Nat) (i : Instr) (cause : BitVec 7) (addr : VAddr), operandTrap (s.wave k) i = some (cause, addr) →
      Issues s k i → MayEnter s k →
      exec i s = .next ((issued s k).setWave k
        (entered s.cc ((issued s k).wave k) (s.ctx (s.wave k).ctx).tvec cause (s.wave k).exec addr)))

/-- R16, R128, R130, R136, R194, R215, R302: TRAP in S-mode calls the command processor, and the wave is BLOCKED until it answers; TRET
retires to TPC at U, with the mask of the entry and the U bank; EXITW ends its wave: it is EXITED, with nothing outstanding, no member
of its group and in no claim queue; with returns outstanding either parks and issues again; a group dissolves with its last member:
its barriers are gone, and its tiles are freed where their queue is empty; a group with members stays as it is. -/
def Obligations.ServiceReturnAndExit : Prop :=
  ((∀ (s : State) (k : Nat) (q : Bool) (n : BitVec 16), Issues s k (.trap q n) → (s.wave k).priv = .s →
        exec (.trap q n) s = .next ((issued s k).modWave k fun w =>
          { w with state := .blocked, wait := .service n.toNat, stalled := some (.trap q n) }))
    ∧ (∀ (s : State) (k : Nat) (q : Bool), Issues s k (.tret q) →
        ((s.wave k).pending = [] → (s.wave k).tpc.toNat % 8 = 0 →
          ∃ t, exec (.tret q) s = .next t ∧ Retires s t k (.tret q) (s.wave k).tpc
            { s.wave k with exec := (s.wave k).entryMask, priv := .u, state := .ready, unmarked := [] })
        ∧ ((s.wave k).pending ≠ [] → exec (.tret q) s = .next ((issued s k).modWave k fun w => { w with state := .parked }))))
  ∧ ((∀ (s : State) (k : Nat) (q : Bool), Issues s k (.exitw q) →
        ((s.wave k).pending = [] → ∃ t, exec (.exitw q) s = .next t ∧ (t.wave k).state = .exited ∧ (t.wave k).pending = []
            ∧ k ∉ t.members (s.wave k).group ∧ (∀ e ∈ (t.core (s.coreOf (s.wave k))).claims, e.1 ≠ k)
            ∧ ((∀ x ∈ s.copies, ∀ c ∈ x.entries, c.stage ≠ .stopped) → t.mem = { s.mem with tokens := t.mem.tokens }))
        ∧ ((s.wave k).pending ≠ [] → exec (.exitw q) s = .next ((issued s k).modWave k fun w => { w with state := .parked })))
    ∧ (∀ (s : State) (g : Nat), g < s.groups.length → (s.group g).live = true →
        (s.members g = [] → ((s.dissolve g).group g).live = false
          ∧ (∀ b ∈ ((s.dissolve g).ctx (s.group g).ctx).barriers, b.group ≠ g)
          ∧ ∀ t ∈ (s.dissolve g).twins, t.owner = some g → t.queue ≠ [])
        ∧ (s.members g ≠ [] → s.dissolve g = s)))

/-! ### Loads, stores and scratchpads -/

/-- R28, R51, R64, R170, R179: the address of a format-M access is base + index x scale + displacement x size, and for a contiguous access
lane x size more, modulo 2^64; an atomic scales its index by the access size. WMAP completes with its window written whole: the base,
the physical address and device of its page, the limit that both pages and 2^35 allow, the write bit asked for, the granted husk and
the ASID. -/
def Obligations.AddressesAndWindows : Prop :=
  (∀ (o : MemF) (a : AtomF) (index base : Word) (pos : Nat),
      ((base + o.offset index pos).toNat : Int) =
          (base.toNat + index.toNat * 2 ^ o.scale.toNat + o.disp.toInt * o.size.bytes + pos * o.size.bytes) % 2 ^ 64
      ∧ ((base + a.offset index).toNat : Int) = (base.toNat + index.toNat * atomBytes a.w64 + a.disp.toInt * atomBytes a.w64) % 2 ^ 64)
  ∧ (∀ (s : State) (k : Nat) (o : WmapF) (l : Leaves), Issues s k (.wmap o) →
      s.wmapError (s.wave k) o.wr ((s.wave k).readS o.a.toNat).toNat = .ok l →
      ∃ (u : State) (x : Window), MemorySide (issued s k) u ∧ u.mem = s.mem
        ∧ Runs (.wmap o) s k (u.modGroup (s.wave k).group fun g => { g with windows := putAt {} g.windows o.d.toNat x })
        ∧ x.valid = true ∧ x.vbase = ((s.wave k).readS o.a.toNat).setWidth 56 ∧ x.pbase.toNat = l.pa % 2 ^ 40 ∧ x.dev.toNat = devOf l.pa
        ∧ x.limit.toNat = min (min ((s.wave k).readS o.b.toNat).toNat (l.reach ((s.wave k).readS o.a.toNat).toNat)) (2 ^ 35)
        ∧ x.wr = o.wr ∧ x.peer = s.isPeer l.pa ∧ x.ghusk.toNat = bits l.e1 11 8 ∧ x.asid = (s.ctx (s.wave k).ctx).asid)

/-- R171, R174, R249: VLD, VLDX and LD.S complete with a long write of the bytes that the core finds, each active lane's or the
wave's, extended by the access size; inactive lanes keep their contents, and no byte of memory changes. -/
def Obligations.Loads : Prop :=
  (∀ (s : State) (k : Nat) (i : Instr) (o : MemF) (contiguous : Bool) (lanes : List (Nat × List Nat)),
      i = .vld o ∧ contiguous = true ∨ i = .vldx o ∧ contiguous = false → Issues s k i → Calm s k →
      Reaches s k .load o.bk o.a o.size.bytes 1 (vectorOffsets o (s.wave k) contiguous) lanes →
      ∃ u v, Traffic (issued s k) u (s.coreOf (s.wave k)) [] ∧ Runs i s k (u.modWave k fun w => w.long (.v o.d.toNat) (.v v))
        ∧ (∀ e ∈ lanes, LoadedAs s (s.coreOf (s.wave k)) o.hint.toNat o.size e.2 (laneOf v e.1))
        ∧ ∀ l, l < 32 → (∀ e ∈ lanes, e.1 ≠ l) → laneOf v l = laneOf ((s.wave k).readV o.d.toNat) l)
  ∧ (∀ (s : State) (k : Nat) (o : MemF) (pas : List Nat), Issues s k (.ldS o) → Calm s k →
      Reaches s k .load o.bk o.a o.size.bytes 1 (waveOffset o (s.wave k)) [(0, pas)] →
      ∃ u x, Traffic (issued s k) u (s.coreOf (s.wave k)) []
        ∧ Runs (.ldS o) s k (u.modWave k fun w => w.long (w.sReg o.d.toNat) (.s x))
        ∧ LoadedAs s (s.coreOf (s.wave k)) o.hint.toNat o.size pas x)

/-- R174, R175, R250: VST, VSTX and ST.S complete with the low bytes of their data at the addresses they reach, the highest
lane's bytes where lanes meet, and every other byte of memory as it was. -/
def Obligations.Stores : Prop :=
  ∀ (s : State) (k : Nat) (i : Instr) (o : MemF) (offs : List (Nat × Word)) (value : Nat → Word) (lanes : List (Nat × List Nat)),
    (i = .vst o ∧ offs = vectorOffsets o (s.wave k) true ∧ value = laneOf ((s.wave k).readV o.d.toNat)
      ∨ i = .vstx o ∧ offs = vectorOffsets o (s.wave k) false ∧ value = laneOf ((s.wave k).readV o.d.toNat)
      ∨ i = .stS o ∧ offs = waveOffset o (s.wave k) ∧ value = fun _ => (s.wave k).readS o.d.toNat) →
    Issues s k i → Calm s k → Reaches s k .store o.bk o.a o.size.bytes 1 offs lanes →
    ∃ u, Traffic (issued s k) u (s.coreOf (s.wave k)) (storeBytes o.size.bytes lanes value) ∧ Runs i s k u

/-- R178, R189, R204, R299, R339, R389: a store of a transaction joins its buffered bytes and lines; a U-mode store of a deterministic
launch waits for the end of its quantum, and a store of a checked pair in the check buffer; none of them changes memory or an L1. A
vector load or store of which lanes fault enters the handler with the lowest lane's cause and address and every lane of that cause in
TMASK, writes no register and performs no lane. -/
def Obligations.StoresThatWait : Prop :=
  (∀ (s : State) (k : Nat) (i : Instr) (o : MemF) (offs : List (Nat × Word)) (value : Nat → Word) (lanes : List (Nat × List Nat)),
      (i = .vst o ∧ offs = vectorOffsets o (s.wave k) true ∧ value = laneOf ((s.wave k).readV o.d.toNat)
        ∨ i = .vstx o ∧ offs = vectorOffsets o (s.wave k) false ∧ value = laneOf ((s.wave k).readV o.d.toNat)
        ∨ i = .stS o ∧ offs = waveOffset o (s.wave k) ∧ value = fun _ => (s.wave k).readS o.d.toNat) →
      Issues s k i → Reaches s k .store o.bk o.a o.size.bytes 1 offs lanes →
      let bytes := storeBytes o.size.bytes lanes value
      ∃ u, MemorySide (issued s k) u ∧ u.mem = s.mem ∧ (∀ c, (u.core c).l1 = (s.core c).l1)
        ∧ (∀ t, (s.wave k).txn = some t → s.ilevelOf (s.wave k) ≠ 3 → (∀ e ∈ bytes, s.isPeer e.1 = false) →
            ∀ lines : List Nat, lines.Nodup → (∀ l, l ∈ lines ↔ l ∈ t.lines ∨ ∃ e ∈ bytes, lineOf e.1 = l) → lines.length ≤ 16 → t.lines.Nodup →
            ∃ x : Txn, (∀ l, l ∈ x.lines ↔ l ∈ lines) ∧ x = { t with lines := x.lines, writes := t.writes ++ bytes }
              ∧ Runs i s k (u.modWave k fun w => { w with txn := some x }))
        ∧ ((s.wave k).txn = none → s.holdsOf (s.wave k) = true → s.ilevelOf (s.wave k) ≠ 3 →
            Runs i s k (u.modWave k fun w => { w with effects := w.effects ++ [.store o.slack.toNat bytes] }))
        ∧ ((s.wave k).txn = none → s.detOf (s.wave k) = false → s.ilevelOf (s.wave k) = 3 →
            ∃ e : CheckEntry, e.wave = k ∧ e.pc = (s.wave k).pc ∧ e.bytes = bytes ∧ e.compared = false ∧ e.cls = o.slack.toNat
              ∧ Runs i s k (u.modPair (s.pairOf (s.wave k)) fun p => { p with buffer := p.buffer ++ [e] })))
  ∧ (∀ (s : State) (k : Nat) (i : Instr) (o : MemF) (offs : List (Nat × Word)) (kind : AccessKind),
      (i = .vld o ∧ kind = .load ∧ offs = vectorOffsets o (s.wave k) true ∨ i = .vldx o ∧ kind = .load ∧ offs = vectorOffsets o (s.wave k) false
        ∨ i = .vst o ∧ kind = .store ∧ offs = vectorOffsets o (s.wave k) true
        ∨ i = .vstx o ∧ kind = .store ∧ offs = vectorOffsets o (s.wave k) false) →
      Issues s k i → MayEnter s k → (o.bk = true ∨ (s.window (s.wave k) o.a.toNat).wantsRefill (offs.map fun e => e.2.toNat) = false) →
      let r := s.resolve (s.wave k) kind 1 (requests s (s.wave k) (kind == .store) o.bk o.a o.size.bytes offs)
      r.fatal = false → r.faults ≠ [] → (∀ e ∈ r.faults, e.2.1 ≠ 0x41 ∧ e.2.1 ≠ 0x18 ∧ e.2.1 ≠ 0x15) →
      ∃ t u, laneTrap r.faults t ∧ MemorySide (issued s k) u ∧ u.mem = s.mem ∧ u.cores = s.cores ∧ exec i s = .next (u.setWave k
        (entered s.cc ((issued s k).wave k) (s.ctx (s.wave k).ctx).tvec t.cause t.mask t.addr)))

/-- R38, R39, R175, R177: SPLD completes with a long write of each active lane's scratchpad bytes, extended by the access size; SPST
completes with the low bytes of each active lane at its address, every other scratchpad byte as it was, and in a deterministic
launch the bytes wait for the end of the quantum; lanes that leave what the wave may access raise SP_RANGE. -/
def Obligations.ScratchpadAccess : Prop :=
  (∀ (s : State) (k : Nat) (o : MemF), Issues s k (.spld o) → (s.wave k).effects = [] → s.mem.spErrs = [] → SpReaches s (s.wave k) o →
      (∀ l ∈ s.launches, l.spVeils = []) →
      ∃ u v, MemorySide (issued s k) u ∧ u.mem = s.mem ∧ u.cores = s.cores ∧ Runs (.spld o) s k (u.modWave k fun w => w.long (.v o.d.toNat) (.v v))
        ∧ (∀ e ∈ spAddrs o (s.wave k), laneOf v e.1 = o.size.extend (ofBytes ((spKeys s (s.wave k) o.size.bytes e.2).map s.readSp)))
        ∧ ∀ l, l < 32 → (∀ e ∈ spAddrs o (s.wave k), e.1 ≠ l) → laneOf v l = laneOf ((s.wave k).readV o.d.toNat) l)
  ∧ (∀ (s : State) (k : Nat) (o : MemF), Issues s k (.spst o) → Memory.wf s.mem.sp = true →
      SpReaches s (s.wave k) o →
      let bytes := storeBytes o.size.bytes ((spAddrs o (s.wave k)).map fun e => (e.1, spKeys s (s.wave k) o.size.bytes e.2))
        (laneOf ((s.wave k).readV o.d.toNat))
      let v := if s.detOf (s.wave k) then (issued s k).modWave k fun w => w.overtake true (bytes.map Prod.fst) else issued s k
      (s.holdsOf (s.wave k) = false → ∃ u : State,
          u = { v with mem := { s.mem with sp := u.mem.sp, spErrs := u.mem.spErrs }, fab := { s.fab with queues := u.fab.queues }
                       jalti := if s.checked (s.wave k) then { s.jalti with pairs := u.jalti.pairs } else s.jalti }
        ∧ (∀ j, { u.pair j with snapshot := none } = { s.pair j with snapshot := none })
        ∧ Runs (.spst o) s k u ∧ ∀ key, u.readSp key = (lastByte (onClusters s (s.wave k) bytes) key).getD (s.readSp key))
      ∧ (s.holdsOf (s.wave k) = true → ∃ u : State, u = { issued s k with fab := { s.fab with queues := u.fab.queues } }
        ∧ Runs (.spst o) s k (u.modWave k fun w => { w with effects := w.effects ++ [.sp bytes] })))
  ∧ (∀ (s : State) (k : Nat) (i : Instr) (o : MemF), i = .spld o ∨ i = .spst o → Issues s k i → MayEnter s k → ¬SpReaches s (s.wave k) o →
      ∃ (t : Trap) (e : Nat × Nat), e ∈ spAddrs o (s.wave k) ∧ t.cause = 0x11 ∧ t.addr = BitVec.ofNat 56 e.2 ∧ t.mask.getLsbD e.1 = true
        ∧ (∀ l, l < 32 → (t.mask.getLsbD l = true ↔ ∃ x ∈ spAddrs o (s.wave k), x.1 = l ∧ ∃ j, j < o.size.bytes
            ∧ s.spAllowed (s.wave k) ((x.2 + j) % 2 ^ 64) = false))
        ∧ (∀ l, l < e.1 → t.mask.getLsbD l = false)
        ∧ exec i s = .next ((issued s k).setWave k
          (entered s.cc ((issued s k).wave k) (s.ctx (s.wave k).ctx).tvec t.cause t.mask t.addr)))

/-! ### Releases, acquires and fences -/

/-- R182, R183, R254, R255: LDA completes with a long write of the home's value, or of the own core's dirty bytes, and its core has
acquired the line: no stale clean byte of it is left that the line's signature names. STREL completes with its bytes at the home,
after every dirty byte of its core has gone there and the line's signature has taken the deposit of those sectors and of the wave's
atomic set, which is cleared. -/
def Obligations.AcquireAndRelease : Prop :=
  (∀ (s : State) (k : Nat) (o : MemF) (pas : List Nat), Issues s k (.lda o) → Calm s k →
      Reaches s k .load o.bk o.a o.size.bytes 1 (waveOffset o (s.wave k)) [(0, pas)] →
      ∃ u x, Traffic (issued s k) u (s.coreOf (s.wave k)) []
        ∧ Acquired u (s.coreOf (s.wave k)) o.scope (pas.headD 0) ∧ u.mem.sigs = s.mem.sigs
        ∧ LoadedAs (if o.scope = .system then ((pas.filter s.isPeer).map sectorOf).eraseDups.foldl State.rdcDrop (issued s k) else issued s k)
            (s.coreOf (s.wave k)) 2 o.size pas x
        ∧ Runs (.lda o) s k (u.modWave k fun w => w.long (w.sReg o.d.toNat) (.s x)))
  ∧ (∀ (s : State) (k : Nat) (o : MemF) (pas : List Nat), Issues s k (.strel o) → Calm s k →
      Reaches s k .store o.bk o.a o.size.bytes 1 (waveOffset o (s.wave k)) [(0, pas)] →
      let bytes := storeBytes o.size.bytes [(0, pas)] fun _ => (s.wave k).readS o.d.toNat
      let core := s.coreOf (s.wave k)
      ∃ u, MemorySide ((issued s k).modWave k fun w => { w with atomicSet := 0 }) u ∧ Runs (.strel o) s k u ∧ Released u core
        ∧ Deposited u o.scope (pas.headD 0) (sigOf (s.core core).dirtySectors ||| (s.wave k).atomicSet)
        ∧ (∀ pa, byteAt u core pa = (lastByte bytes pa).getD (byteAt s core pa))
        ∧ (o.scope = .system → ∀ e ∈ bytes, Memory.read u.mem.home e.1 = byteAt u core e.1))

/-- R180-R182: FENCE completes at once and holds the wave's memory and engine instructions behind it; the fence itself completes once the
wave's atomics are performed: a release leaves no dirty byte in the core's L1 and makes the deposit of a named line, and an acquire
leaves no clean byte there that the line's signature, or the whole fence, invalidates. CLEAN and INVAL complete and hold the wave
until their write-backs are acknowledged: CLEAN leaves the named sector, or every sector, of the core's L1 without dirty bytes, and
INVAL leaves no such sector there; no byte is lost. -/
def Obligations.FencesAndCaches : Prop :=
  (∀ (s : State) (k : Nat) (o : FenceF),
      (Issues s k (.fence o) → o.line = false → Completes (.fence o) s k { s.wave k with hold := .fence o none })
      ∧ (∀ pa, Issues s k (.fence o) → o.line = true → Reaches s k .load o.bk o.a 1 1 (dispOffset o.disp 256) [(0, [pa])] →
          ∃ u, MemorySide (issued s k) u ∧ u.mem = s.mem ∧ Runs (.fence o) s k (u.modWave k fun w => { w with hold := .fence o (some pa) }))
      ∧ (∀ line, k < s.waves.length → (s.wave k).hold = .fence o line → s.atomicsOf k = [] → Sound s (s.coreOf (s.wave k)) →
          let core := s.coreOf (s.wave k)
          ∃ t, exec (.fenceComplete k) s = .next t
            ∧ MemorySide (s.modWave k fun w => { w with hold := .none, fencedAt := s.cc, atomicSet := (t.wave k).atomicSet }) t
            ∧ (o.kind ≠ .acq → Released t core)
            ∧ (∀ pa, byteAt t core pa = byteAt s core pa)
            ∧ (∀ pa, line = some pa → o.kind ≠ .acq → (t.wave k).atomicSet = 0
                ∧ Deposited t o.scope pa (sigOf (s.core core).dirtySectors ||| (s.wave k).atomicSet))
            ∧ ((line = none ∨ o.kind = .acq) → (t.wave k).atomicSet = (s.wave k).atomicSet)
            ∧ (∀ pa, line = some pa → o.kind ≠ .rel → Acquired t core o.scope pa)
            ∧ (line = none → o.kind ≠ .rel → ∀ y ∈ (t.core core).l1, y.filled = false ∧ y.clean = 0)))
  ∧ (∀ (s : State) (k : Nat) (i : Instr) (o : CacheF) (inval : Bool), (i = .clean o ∧ inval = false ∨ i = .inval o ∧ inval = true) →
      Issues s k i → Calm s k →
      let core := s.coreOf (s.wave k)
      (∀ named : Nat → Prop, (o.all = true ∧ (named = fun _ => True)
          ∨ o.all = false ∧ ∃ pa, Reaches s k .load o.bk o.a 1 1 (dispOffset o.disp 64) [(0, [pa])] ∧ named = fun sec => sec = sectorOf pa) →
        ∃ u, Traffic (issued s k) u core [] ∧ Runs i s k (u.modWave k fun w => { w with hold := .writeback })
          ∧ ∀ y ∈ (u.core core).l1, named y.sec → inval = false ∧ y.dirty = 0)
      ∧ (o.all = false → (o.bk = true ∨ (s.window (s.wave k) o.a.toNat).valid = true) →
          (s.resolve (s.wave k) .load 1 (requests s (s.wave k) false o.bk o.a 1 (dispOffset o.disp 64))).faults ≠ [] →
          ∃ u, MemorySide (issued s k) u ∧ u.mem = s.mem ∧ Runs i s k (u.modWave k fun w => { w with hold := .writeback })))

/-! ### Atomics and transactions -/

/-- R184, R186, R187: VATOM and SATOM complete with one request for each distinct address, which carries the lanes that name it;
with RET the old values come in a long write, one return for each request. -/
def Obligations.AtomicRequests : Prop :=
  ∀ (s : State) (k : Nat) (i : Instr) (o : AtomF) (offs : List (Nat × Word)) (data : Nat → Nat × Nat) (dst : Reg) (before : RegVal)
    (lanes : List (Nat × List Nat)),
    (i = .vatom o
        ∧ offs = ((lanesOf ((s.wave k).governing o.pn o.pi)).map fun l => (l, o.offset (laneOf ((s.wave k).readV o.b.toNat) l)))
        ∧ data = (fun l => if o.op = .cas then ((laneOf ((s.wave k).readV (o.d.toNat + 1)) l).toNat, (laneOf ((s.wave k).readV o.d.toNat) l).toNat)
            else ((laneOf ((s.wave k).readV o.d.toNat) l).toNat, 0))
        ∧ dst = .v o.d.toNat ∧ before = .v ((s.wave k).readV o.d.toNat)
      ∨ i = .satom o ∧ offs = [(0, o.offset ((s.wave k).readS o.b.toNat))]
        ∧ data = (fun _ => if o.op = .cas then (((s.wave k).readS (o.d.toNat + 1)).toNat, ((s.wave k).readS o.d.toNat).toNat)
            else (((s.wave k).readS o.d.toNat).toNat, 0))
        ∧ dst = (s.wave k).sReg o.d.toNat ∧ before = .s ((s.wave k).readS o.d.toNat)) →
    Issues s k i → Clean s → s.detOf (s.wave k) = false →
    Reaches s k .store o.bk o.a (atomBytes o.w64) (atomBytes o.w64) offs lanes →
    ∃ u reqs, MemorySide (issued s k) u ∧ u.mem = s.mem
      ∧ Requested reqs { (default : AtomReq) with wave := k, tag := s.tag, ctx := (s.wave k).ctx, op := o.op, w64 := o.w64, ret := o.ret
                                                  scope := o.scope, slack := o.slack.toNat } lanes data
      ∧ Runs i s k (({ u with tag := s.tag + 1, atomics := s.atomics ++ reqs } : State).modWave k fun w =>
          if o.ret then w.long dst before reqs.length s.tag else w)

/-- R185, R186, R255: a request for one lane, performed at its home: the old value is what the own core last wrote there, or the
home's; the home takes the new value, the lane receives the old one, and the sector joins the wave's atomic set. -/
def Obligations.AtomicEffects : Prop :=
  ∀ (s : State) (n : Nat) (r : AtomReq) (lane v c : Nat), s.atomics[n]? = some r → s.atomicReady n = true → r.lanes = [(lane, v, c)] →
    r.join = false → r.wave < s.waves.length → s.detOf (s.wave r.wave) = false → Sound s (s.coreOf (s.wave r.wave)) →
    s.isPeer r.pa = false → r.pa % atomBytes r.w64 = 0 →
    let core := s.coreOf (s.wave r.wave)
    let w := 8 * atomBytes r.w64
    let cells := (List.range (atomBytes r.w64)).map (r.pa + ·)
    ∃ t new, exec (.atomicPerformed n) s = .next t ∧ t.atomics = dropAt s.atomics n
      ∧ atomRule r.op w (ofBytes (cells.map (byteAt s core))) (v % 2 ^ w) (c % 2 ^ w) new
      ∧ Memory.num t.mem.home r.pa (atomBytes r.w64) = new
      ∧ (∀ pa, pa ∉ cells → byteAt t core pa = byteAt s core pa)
      ∧ (t.core core).sector (sectorOf r.pa) = none
      ∧ (t.wave r.wave).atomicSet = (s.wave r.wave).atomicSet ||| sectorSig (sectorOf r.pa)
      ∧ (r.ret = true → (t.wave r.wave).pending = (s.wave r.wave).pending.map fun l =>
          if l.tag = r.tag && l.need ≠ 0 then l.fill [(lane, ofBytes (cells.map (byteAt s core)))] else l)

/-- R112, R187: for every operation but FADD and CAS, the lanes of one address combined into one request leave the memory value and
return the values that the lanes would, applied one after another in ascending order. -/
def Obligations.CombinedAtomics : Prop :=
  ∀ (op : AtomOp) (w64 : Bool) (old : Nat) (vs : List Nat), op ≠ .fadd → op ≠ .cas → old < 2 ^ (8 * atomBytes w64) →
    (∀ v ∈ vs, v < 2 ^ (8 * atomBytes w64)) → op.combine w64 old vs = oneByOne (op.apply w64) old vs

/-- R188-R192: TXBEGIN, TXEND and TXABORT complete as the spec says inside and outside a transaction: the begin performs what the wave has
stored and records target and mask; the commit puts the buffered bytes at their homes as one event and returns the attempts; a commit
that does not validate, a nested begin and TXABORT abort. An instruction that transactions do not support aborts with reason
UNSUPPORTED, whatever instruction it is, and has no other effect. -/
def Obligations.Transactions : Prop :=
  (∀ (s : State) (k : Nat) (q : Bool) (off : BitVec 32) (d a : BitVec 8),
      (Issues s k (.txbegin q off) → Calm s k →
        ∃ u, Traffic (issued s k) u (s.coreOf (s.wave k)) [] ∧ Released u (s.coreOf (s.wave k))
          ∧ Runs (.txbegin q off) s k (u.modWave k fun w => { w with
              hold := .none
              txn := some { target := target (s.wave k).pc off, exec := (s.wave k).exec, reads := [], seen := [], lines := [], writes := [] } }))
      ∧ (Issues s k (.txend q d) → (s.wave k).txn = none → Completes (.txend q d) s k ((s.wave k).long ((s.wave k).sReg d.toNat) (.s 0)))
      ∧ (Issues s k (.txabort q a) → (s.wave k).txn = none → Completes (.txabort q a) s k (s.wave k))
      ∧ (∀ x, (s.wave k).txn = some x → (s.wave k).pending = [] →
        (Issues s k (.txend q d) → Clean s → Memory.wf s.mem.home = true → (∀ e ∈ x.writes, s.isPeer e.1 = false) →
          (∀ e ∈ x.seen, Memory.read s.mem.home e.1 = e.2) → s.tokenConflict k x = false →
          ∃ u word, MemorySide (issued s k) u ∧ (∀ pa, Memory.read u.mem.home pa = (lastByte x.writes pa).getD (Memory.read s.mem.home pa))
            ∧ word.toNat % 256 = min ((s.wave k).aborts + 1) 255 ∧ word.toNat / 256 ≤ 1 ∧ (s.mem.tokens = [] → word.toNat < 256)
            ∧ Runs (.txend q d) s k (u.modWave k fun w =>
                { w.long (w.sReg d.toNat) (.s word) with txn := none, aborts := 0, tokenWanted := false }))
        ∧ (Issues s k (.txend q d) → (∃ e ∈ x.seen, Memory.read s.mem.home e.1 ≠ e.2) →
          ∃ t, exec (.txend q d) s = .next t ∧ Aborted s t k x 1 0)
        ∧ (Issues s k (.txabort q a) → ∃ t, exec (.txabort q a) s = .next t ∧ Aborted s t k x 4 (((s.wave k).readS a.toNat).setWidth 16))
        ∧ (Issues s k (.txbegin q off) → ∃ t, exec (.txbegin q off) s = .next t ∧ Aborted s t k x 8 0)
        ∧ (∀ reason code, k < s.waves.length → (s.wave k).abort = some (reason, code) →
          ∃ t, exec (.transactionAbort k reason code) s = .next t ∧ Aborted s t k x reason code)))
  ∧ (∀ (s : State) (k : Nat) (i : Instr) (x : Txn), s.cur = some k → k < s.waves.length → s.canIssue k i = true → (encode i).isSome →
      (s.wave k).decodeCheck i = none → (s.wave k).errsOf i = [] → (s.wave k).shadow = [] → i.unsupported = true → (s.wave k).txn = some x → (s.wave k).pending = [] →
      ∃ t, exec i s = .next t ∧ Aborted s t k x 5 0)

/-! ### Groups, barriers and claims -/

/-- R16, R193, R194, R204: GLEAVE puts its wave into a detached group of its own with the old group's GRPID, scratchpad window and
window registers; GJOIN moves it to the group that its token names, with the lowest WAVEID free there and the given SGID, or
changes its SGID alone; a token that R193 refuses raises GROUP_TOKEN, and a deterministic launch refuses both. -/
def Obligations.GroupMoves : Prop :=
  ∀ (s : State) (k : Nat) (q : Bool) (a : BitVec 8) (sgid : BitVec 2),
    (Issues s k (.gleave q) → s.detOf (s.wave k) = false → ∃ t, exec (.gleave q) s = .next t
      ∧ (t.wave k).group = s.groups.length ∧ (t.wave k).waveid = (s.wave k).waveid ∧ (t.wave k).sgid = (s.wave k).sgid
      ∧ (t.wave k).pc = (s.wave k).pc + 8 ∧ (t.group s.groups.length).detached = true
      ∧ (t.group s.groups.length).grpid = (s.group (s.wave k).group).grpid
      ∧ (t.group s.groups.length).spbase = (s.group (s.wave k).group).spbase
      ∧ (t.group s.groups.length).spsize = (s.group (s.wave k).group).spsize
      ∧ (t.group s.groups.length).windows = (s.group (s.wave k).group).windows ∧ (t.group s.groups.length).twins = []
      ∧ ((∀ b ∈ (s.ctx (s.wave k).ctx).barriers, b.group ≠ s.groups.length) →
          ∀ b ∈ (t.ctx (s.wave k).ctx).barriers, b.group ≠ s.groups.length))
    ∧ (Issues s k (.gjoin q a sgid) → s.detOf (s.wave k) = false → ∀ grpid cluster : Nat, grpid < 2 ^ 32 → cluster < 64 →
      (s.wave k).readS a.toNat = BitVec.ofNat 64 (grpid + 2 ^ 32 * cluster) →
      (s.tokenGroup (s.wave k).ctx grpid cluster = some (s.wave k).group → sgid = (s.wave k).sgid →
        Completes (.gjoin q a sgid) s k (s.wave k))
      ∧ (s.tokenGroup (s.wave k).ctx grpid cluster = some (s.wave k).group →
        ∃ t, exec (.gjoin q a sgid) s = .next t ∧ (t.wave k).group = (s.wave k).group ∧ (t.wave k).waveid = (s.wave k).waveid
          ∧ (t.wave k).sgid = sgid ∧ (t.wave k).pc = (s.wave k).pc + 8)
      ∧ (∀ g, s.tokenGroup (s.wave k).ctx grpid cluster = some g → g ≠ (s.wave k).group →
        ((s.group g).clusters.contains (s.wave k).clid = true ∧ (s.members g).length < (s.group g).capacity
            ∧ (s.group g).ilevel = s.ilevelOf (s.wave k) →
          ∃ t, exec (.gjoin q a sgid) s = .next t ∧ (t.wave k).group = g ∧ (t.wave k).sgid = sgid ∧ (t.wave k).pc = (s.wave k).pc + 8
            ∧ (∀ j ∈ s.members g, (s.wave j).waveid ≠ (t.wave k).waveid)
            ∧ ∀ m, m < (t.wave k).waveid → ∃ j ∈ s.members g, (s.wave j).waveid = m)
        ∧ (¬((s.group g).clusters.contains (s.wave k).clid = true ∧ (s.members g).length < (s.group g).capacity
            ∧ (s.group g).ilevel = s.ilevelOf (s.wave k)) → MayEnter s k →
          exec (.gjoin q a sgid) s = .next ((issued s k).setWave k
            (entered s.cc ((issued s k).wave k) (s.ctx (s.wave k).ctx).tvec 0x33 (s.wave k).exec 0))))
      ∧ (s.tokenGroup (s.wave k).ctx grpid cluster = none → MayEnter s k →
        exec (.gjoin q a sgid) s = .next ((issued s k).setWave k
          (entered s.cc ((issued s k).wave k) (s.ctx (s.wave k).ctx).tvec 0x33 (s.wave k).exec 0))))
    ∧ (∀ i, i = .gleave q ∨ i = .gjoin q a sgid ∧ ((s.wave k).readS a.toNat).toNat < 2 ^ 38 → Issues s k i → s.detOf (s.wave k) = true →
      MayEnter s k → exec i s = .next ((issued s k).setWave k
        (entered s.cc ((issued s k).wave k) (s.ctx (s.wave k).ctx).tvec 0x60 (s.wave k).exec 0)))

/-- R195-R198: BOPEN opens a barrier of the group and returns its handle, or 0 where the group holds 16 or the table is full. BARA arrives
once and goes on, or waits where its member owes nothing more in this phase; BARW arrives for all that its member owes and waits for
the phase; the arrival that makes ARRIVED equal to EXPECTED begins the next phase. A handle names a barrier of the wave's group by
entry and generation, and of a broken one every use traps; a member that leaves takes its arrivals and what it owes with it. -/
def Obligations.Barriers : Prop :=
  (∀ (s : State) (k : Nat) (q : Bool) (d a : BitVec 8) (mask : BitVec 4), (s.wave k).ctx < s.ctxs.length →
      let w := s.wave k
      let c := s.ctx w.ctx
      (Issues s k (.bopen q d a mask) → 1 ≤ (w.readS a.toNat).toNat → (w.readS a.toNat).toNat ≤ 255 →
        (16 ≤ (c.barriers.countP fun b => b.group == w.group) ∨ (∀ e, e < 4096 → (c.barrier e).isSome = true) →
          Completes (.bopen q d a mask) s k (w.writeS d.toNat 0))
        ∧ ((c.barriers.countP fun b => b.group == w.group) < 16 → (∃ e, e < 4096 ∧ c.barrier e = none) →
          ∃ b : Barrier, b.entry < 4096 ∧ c.barrier b.entry = none ∧ 1 ≤ b.gen ∧ b.gen ≤ 65535
            ∧ b.group = w.group ∧ b.per = (w.readS a.toNat).toNat ∧ b.mask = (if mask = 0 then 15 else mask) ∧ b.phase = 0 ∧ b.arrived = 0
            ∧ b.expected = b.per * ((s.members w.group).filter fun j => b.mask.getLsbD (s.wave j).sgid.toNat).length
            ∧ b.counts = [] ∧ b.late = [] ∧ b.broken = false
            ∧ Runs (.bopen q d a mask) s k (((issued s k).modCtx w.ctx fun c =>
                { c with barriers := c.barriers ++ [b], barrierGens := assign c.barrierGens b.entry b.gen }).modWave k fun w =>
                  w.writeS d.toNat (BitVec.ofNat 64 (b.entry + 4096 * b.gen)))))
      ∧ (∀ b, s.openBarrier w (w.readS a.toNat) = .ok b → s.detOf w = false →
        (Issues s k (.bara q a) → w.waveid ∉ b.late → lookupD 0 b.counts w.waveid < b.per → b.arrived + 1 ≠ b.expected →
          Runs (.bara q a) s k ((issued s k).modCtx w.ctx fun c => c.modBarrier b.entry fun b => b.arrive w.waveid 1))
        ∧ (Issues s k (.bara q a) → w.waveid ∉ b.late → lookupD 0 b.counts w.waveid < b.per → b.arrived + 1 = b.expected →
          ∃ t, exec (.bara q a) s = .next t ∧ (t.wave k).pc = w.pc + 8
            ∧ (∃ b', (t.ctx w.ctx).barrier b.entry = some b' ∧ b'.phase = b.phase + 1 ∧ b'.arrived = 0)
            ∧ ∀ j, (t.wave j).state = .blocked → (s.wave j).ctx = w.ctx → (t.wave j).wait ≠ .barrier b.entry b.phase)
        ∧ (Issues s k (.bara q a) → (w.waveid ∈ b.late ∨ b.per ≤ lookupD 0 b.counts w.waveid) →
          exec (.bara q a) s = .next ((issued s k).modWave k fun w =>
            { w with state := .blocked, wait := .barrier b.entry b.phase, stalled := none }))
        ∧ (Issues s k (.barw q a) → w.waveid ∉ b.late → b.arrived + (b.per - lookupD 0 b.counts w.waveid) ≠ b.expected →
          exec (.barw q a) s = .next (((issued s k).modCtx w.ctx fun c => c.modBarrier b.entry fun x =>
              x.arrive w.waveid (b.per - lookupD 0 b.counts w.waveid)).modWave k fun w =>
            { w with state := .blocked, wait := .barrier b.entry b.phase, stalled := some (.barw q a) }))
        ∧ (Issues s k (.barw q a) → w.waveid ∉ b.late → b.arrived + (b.per - lookupD 0 b.counts w.waveid) = b.expected →
          ∃ t, exec (.barw q a) s = .next t ∧ (t.wave k).pc = w.pc + 8 ∧ (t.wave k).wait = .nothing ∧ (t.wave k).state ≠ .blocked
            ∧ ∃ b', (t.ctx w.ctx).barrier b.entry = some b' ∧ b'.phase = b.phase + 1 ∧ b'.arrived = 0)
        ∧ (Issues s k (.barw q a) → w.waveid ∈ b.late → exec (.barw q a) s = .next ((issued s k).modWave k fun w =>
            { w with state := .blocked, wait := .barrier b.entry b.phase, stalled := none })))
      ∧ (∀ i cause, i = .bara q a ∨ i = .barw q a → s.openBarrier w (w.readS a.toNat) = .error cause → Issues s k i → MayEnter s k →
        exec i s = .next ((issued s k).setWave k (entered s.cc ((issued s k).wave k) c.tvec cause w.exec 0))))
  ∧ (∀ (s : State) (w : Wave) (h : Word) (b : Barrier) (id n : Nat),
      ((s.ctx w.ctx).barrier (h.toNat % 4096) = none → s.openBarrier w h = .error 0x30)
      ∧ ((s.ctx w.ctx).barrier (h.toNat % 4096) = some b →
        (2 ^ 28 ≤ h.toNat ∨ b.gen ≠ h.toNat / 4096 % 65536 ∨ b.group ≠ w.group → s.openBarrier w h = .error 0x30)
        ∧ (h.toNat < 2 ^ 28 → b.gen = h.toNat / 4096 % 65536 → b.group = w.group → b.broken = true → s.openBarrier w h = .error 0x31)
        ∧ (h.toNat < 2 ^ 28 → b.gen = h.toNat / 4096 % 65536 → b.group = w.group → b.broken = false →
            s.openBarrier w h = if b.mask.getLsbD w.sgid.toNat then .ok b else .error 0x30))
      ∧ ((b.advance n).phase = b.phase + 1 ∧ (b.advance n).arrived = 0 ∧ (b.advance n).expected = b.per * n
        ∧ (b.advance n).counts = [] ∧ (b.advance n).late = [])
      ∧ ((b.arrive id n).arrived = b.arrived + n ∧ lookupD 0 (b.arrive id n).counts id = lookupD 0 b.counts id + n
        ∧ ∀ m, m ≠ id → lookupD 0 (b.arrive id n).counts m = lookupD 0 b.counts m)
      ∧ (id ∉ b.late → (b.leave id).expected = b.expected - b.per ∧ (b.leave id).arrived = b.arrived - lookupD 0 b.counts id
        ∧ lookupD 0 (b.leave id).counts id = 0)
      ∧ (id ∈ b.late → (b.leave id).expected = b.expected ∧ (b.leave id).arrived = b.arrived ∧ id ∉ (b.leave id).late))

/-- R199-R201: VCLAIM waits in its core's claim queue; the head of the queue is granted its registers where they fit, zero at IL3 and
in a deterministic launch, and its VCLAIM retires; VRELS completes with the top registers given back; in a claim deadlock every
member that waits in VCLAIM traps. -/
def Obligations.RegisterClaims : Prop :=
  ∀ (s : State) (k : Nat) (q : Bool) (n : BitVec 6),
    (Issues s k (.vclaim q n) → (s.wave k).valloc + 8 * n.toNat ≤ 256 → s.coreOf (s.wave k) < s.cores.length →
      ∃ t, exec (.vclaim q n) s = .next t ∧ (t.wave k).state = .blocked ∧ (t.wave k).wait = .claim n.toNat
        ∧ (t.wave k).stalled = some (.vclaim q n) ∧ (t.wave k).valloc = (s.wave k).valloc ∧ (t.wave k).v = (s.wave k).v
        ∧ (t.core (s.coreOf (s.wave k))).claims = (s.core (s.coreOf (s.wave k))).claims ++ [(k, n.toNat)])
    ∧ (Issues s k (.vrels q n) → 8 * n.toNat + 8 ≤ (s.wave k).valloc →
      ((∀ m, (s.wave k).valloc - 8 * n.toNat ≤ m → m < (s.wave k).valloc → Reg.v m ∉ (s.wave k).unmarked) →
        Completes (.vrels q n) s k { s.wave k with
          valloc := (s.wave k).valloc - 8 * n.toNat, v := (s.wave k).v.take ((s.wave k).valloc - 8 * n.toNat) })
      ∧ ((∃ m, (s.wave k).valloc - 8 * n.toNat ≤ m ∧ m < (s.wave k).valloc ∧ Reg.v m ∈ (s.wave k).unmarked) → MayEnter s k →
        exec (.vrels q n) s = .next ((issued s k).setWave k
          (entered s.cc ((issued s k).wave k) (s.ctx (s.wave k).ctx).tvec 0x06 (s.wave k).exec 0))))
    ∧ (∀ core m rest i, (s.core core).claims = (k, m) :: rest → k < s.waves.length → s.holdsOf (s.wave k) = false →
      s.poolUsed core + s.setAside core + 8 * m ≤ s.poolLimit core (2 ≤ s.ilevelOf (s.wave k)) → s.coreOf (s.wave k) = core → core < s.cores.length →
      (s.wave k).stalled = some i →
      ∃ t regs, exec (.claimGrant core) s = .next t ∧ (t.core core).claims = rest.filter (fun e => e.1 != k)
        ∧ (t.wave k).valloc = (s.wave k).valloc + 8 * m ∧ (t.wave k).v = (s.wave k).v ++ regs ∧ regs.length = 8 * m
        ∧ ((s.checked (s.wave k) || s.detOf (s.wave k)) = true → ∀ r ∈ regs, r = zeroVReg)
        ∧ (t.wave k).wait = .nothing ∧ (t.wave k).state ≠ .blocked ∧ (t.wave k).pc = (s.wave k).pc + 8)
    ∧ (∀ g, s.claimDeadlocked g = true → ∃ t, exec (.claimDeadlock g) s = .next t ∧ ∀ j ∈ s.members g, j < s.waves.length →
      ((s.wave j).claiming = true → (t.wave j).state = .parked
        ∧ (t.wave j).trap = some { cause := 0x32, mask := (s.wave j).exec, addr := 0 } ∧ (t.wave j).valloc = (s.wave j).valloc)
      ∧ ((s.wave j).claiming = false → t.wave j = s.wave j))

/-! ### Matrix engines -/

/-- R207-R209, R216-R218, R281: MMA.BP, MZERO, MRD and MWR complete by joining their twin's queue with their operands as they stand,
MRD with four long writes; operands that R209, R217 and R218 refuse raise ILLEGAL_OPERAND, SP_RANGE or TILE_OWNER. R219-R222: MBATCH,
MWAIT on a batch that is not outstanding, QPLANE within its ranges and AMAXRD complete too. -/
def Obligations.MatrixIssue : Prop :=
  ∀ (s : State) (k : Nat),
    let w := s.wave k
    let tw := s.twinOf w
    let owns := (s.twin tw).owner = some w.group
    (∀ o : MmaF, Issues s k (.mmaBp o) →
      let a := (w.readS o.a.toNat).toNat
      let b := (w.readS o.b.toNat).toNat
      let kk := (w.readS o.c.toNat).toNat
      let pa := if (s.group w.group).pcapa = 0 then o.pa.toNat else min o.pa.toNat (s.group w.group).pcapa
      let pb := if (s.group w.group).pcapb = 0 then o.pb.toNat else min o.pb.toNat (s.group w.group).pcapb
      let legal := 0 < kk ∧ kk ≤ 65536 ∧ kk % 128 = 0 ∧ a < 2 ^ 32 ∧ b < 2 ^ 32 ∧ a % 1024 = 0 ∧ b % 1024 = 0
        ∧ a / 2 ^ 22 % 64 = w.clid ∧ b / 2 ^ 22 % 64 = w.clid ∧ a / 2 ^ 20 % 4 = w.coreid ∧ b / 2 ^ 20 % 4 = 2 * (w.coreid / 2)
      (legal → 0 < pa → 0 < pb → RangeOk s w a (1024 * pa * (kk / 128)) → RangeOk s w b (1024 * pb * (kk / 128)) →
        RangeOk s w (b + 2 ^ 20) (1024 * pb * (kk / 128)) → owns →
        Runs (.mmaBp o) s k (((issued s k).modTwin tw fun t => t.modMpc o.d.toNat fun m => { m with busy := true }).enqueueMatrix k
          (.mma o.d.toNat (a % 2 ^ 20) (b % 2 ^ 20) (kk / 128) pa pb o.acc w.coreid) true))
      ∧ (¬legal → MayEnter s k → exec (.mmaBp o) s = .next ((issued s k).setWave k
          (entered s.cc ((issued s k).wave k) (s.ctx w.ctx).tvec 0x04 w.exec 0)))
      ∧ (legal → 0 < pa → 0 < pb → ¬(RangeOk s w a (1024 * pa * (kk / 128)) ∧ RangeOk s w b (1024 * pb * (kk / 128))
          ∧ RangeOk s w (b + 2 ^ 20) (1024 * pb * (kk / 128))) → MayEnter s k → exec (.mmaBp o) s = .next ((issued s k).setWave k
          (entered s.cc ((issued s k).wave k) (s.ctx w.ctx).tvec 0x11 w.exec 0))))
    ∧ (∀ q d, Issues s k (.mzero q d) → owns → Runs (.mzero q d) s k ((issued s k).enqueueMatrix k (.zero d.toNat) true))
    ∧ (∀ o : MrdF, Issues s k (.mrd o) → owns → (w.readS o.b.toNat).toNat ≤ 62 → (w.readS o.b.toNat).toNat % 2 = 0 →
      Runs (.mrd o) s k (({ (issued s k).enqueueMatrix k (.read o.a.toNat (w.readS o.b.toNat).toNat (w.readV o.c.toNat) o.rowbyte.toNat
          o.fp32 k s.tag) false with tag := s.tag + 4 } : State).modWave k fun x =>
        (List.range 4).foldl (fun y i => y.long (.v (o.d.toNat + i)) (.v (w.readV (o.d.toNat + i))) 1 (s.tag + i)) x))
    ∧ (∀ o : MwrF, Issues s k (.mwr o) → owns → (w.readS o.b.toNat).toNat ≤ 62 → (w.readS o.b.toNat).toNat % 2 = 0 →
      Runs (.mwr o) s k ((issued s k).enqueueMatrix k (.write o.d.toNat (w.readS o.b.toNat).toNat
        ((List.range 4).map fun i => w.readV (o.a.toNat + i))) true))
    ∧ (∀ i, (∃ q d, i = .mzero q d)
        ∨ (∃ o : MrdF, i = .mrd o ∧ (w.readS o.b.toNat).toNat ≤ 62 ∧ (w.readS o.b.toNat).toNat % 2 = 0)
        ∨ (∃ o : MwrF, i = .mwr o ∧ (w.readS o.b.toNat).toNat ≤ 62 ∧ (w.readS o.b.toNat).toNat % 2 = 0) →
      Issues s k i → ¬owns → MayEnter s k → exec i s = .next ((issued s k).setWave k
        (entered s.cc ((issued s k).wave k) (s.ctx w.ctx).tvec 0x50 w.exec 0)))
    ∧ (∀ i, (∃ o : MrdF, i = .mrd o ∧ (62 < (w.readS o.b.toNat).toNat ∨ (w.readS o.b.toNat).toNat % 2 = 1))
        ∨ (∃ o : MwrF, i = .mwr o ∧ (62 < (w.readS o.b.toNat).toNat ∨ (w.readS o.b.toNat).toNat % 2 = 1)) →
      Issues s k i → MayEnter s k → exec i s = .next ((issued s k).setWave k
        (entered s.cc ((issued s k).wave k) (s.ctx w.ctx).tvec 0x04 w.exec 0)))
    ∧ (∀ op batched, tw < s.twins.length → w.group < s.groups.length →
      let t := s.enqueueMatrix k op batched
      (t.twin tw).queue = (s.twin tw).queue ++
          [{ op := op, group := w.group, batch := if batched then (s.group w.group).nextBatch else 0, wave := k, pc := w.pc }]
        ∧ (t.group w.group).openBatch = (s.group w.group).openBatch + batched.toNat
        ∧ (t.twin tw).tiles = (s.twin tw).tiles ∧ ∀ j, j ≠ tw → t.twin j = s.twin j)
    ∧ (∀ q d, Issues s k (.mbatch q d) → ∃ t, exec (.mbatch q d) s = .next t ∧ (t.wave k).pc = w.pc + 8 ∧ (t.group w.group).openBatch = 0
        ∧ (t.wave k).pending = w.pending ++ [{ dst := w.sReg d.toNat, val := .s (BitVec.ofNat 64 (s.group w.group).nextBatch)
                                               need := 0, tag := 0 }])
    ∧ (∀ q a, Issues s k (.mwait q a) → 1 ≤ (w.readS a.toNat).toNat → (w.readS a.toNat).toNat ≤ 65535 →
      (∀ t, (s.twin t).owner = some w.group → (s.twin t).suspended = none) →
      (∀ b ∈ (s.group w.group).batches, b.1 ≠ (w.readS a.toNat).toNat) → Completes (.mwait q a) s k w)
    ∧ (∀ o : QplaneF, Issues s k (.qplane o) → 1 ≤ (w.readS o.b.toNat).toNat / 2 ^ 32 → (w.readS o.b.toNat).toNat / 2 ^ 32 ≤ 512 →
      (w.readS o.b.toNat).toNat % 128 = 0 →
      (∀ i, i < o.planes.toNat → PlaneFits s w ((w.readS o.b.toNat).toNat % 2 ^ 32) ((w.readS o.b.toNat).toNat / 2 ^ 32) i) →
      ∃ t, exec (.qplane o) s = .next t ∧ (t.wave k).pc = w.pc + 8)
    ∧ (∀ q d slot, Issues s k (.amaxrd q d slot) → ∃ t, exec (.amaxrd q d slot) s = .next t ∧ (t.wave k).pc = w.pc + 8
        ∧ (t.wave k).pending = w.pending ++ [{ dst := w.sReg d.toNat, val := .s (scaleWord s w slot), need := 0, tag := 0 }])

/-- R214, R219-R222: MBATCH completes with the open batch closed and its number in a long write; MWAIT completes where its batch is not
outstanding, restarting what a MATRIX_ERROR stopped, and otherwise waits; QPLANE completes with the bit planes of its slab in the
scratchpad, of both clusters of a checked pair, or held to the end of the quantum, and raises ILLEGAL_OPERAND or SP_RANGE; AMAXRD completes with a long write of the slot's scale word, in a deterministic launch that of the launch's start. -/
def Obligations.BatchesAndSlots : Prop :=
  ∀ (s : State) (k : Nat) (q : Bool) (d a : BitVec 8) (slot : BitVec 6),
    let w := s.wave k
    let g := s.group w.group
    let n := (w.readS a.toNat).toNat
    (Issues s k (.mbatch q d) → Runs (.mbatch q d) s k (((issued s k).modGroup w.group fun x =>
        { x with batches := retireBatches (g.batches ++ [(g.nextBatch, g.openBatch)]), openBatch := 0
                 nextBatch := if g.nextBatch = 65535 then 1 else g.nextBatch + 1 }).modWave k fun w =>
          w.long (w.sReg d.toNat) (.s (BitVec.ofNat 64 g.nextBatch))))
    ∧ (Issues s k (.mwait q a) → 1 ≤ n → n ≤ 65535 → s.suspendedTwins w.group false = [] → s.suspendedTwins w.group true = [] →
      ((∀ b ∈ g.batches, b.1 ≠ n) → Completes (.mwait q a) s k w)
      ∧ ((∃ b ∈ g.batches, b.1 = n) → exec (.mwait q a) s = .next ((issued s k).modWave k fun w =>
          { w with state := .blocked, wait := .batch n, stalled := some (.mwait q a) })))
    ∧ (Issues s k (.mwait q a) → 1 ≤ n → n ≤ 65535 → s.suspendedTwins w.group false = [] →
      ∃ u, u = { issued s k with twins := u.twins }
        ∧ (∀ t, u.twin t = if t ∈ s.suspendedTwins w.group true then { s.twin t with suspended := none } else s.twin t)
        ∧ ((∀ b ∈ g.batches, b.1 ≠ n) → Runs (.mwait q a) s k u)
        ∧ ((∃ b ∈ g.batches, b.1 = n) → exec (.mwait q a) s = .next (u.modWave k fun w =>
            { w with state := .blocked, wait := .batch n, stalled := some (.mwait q a) })))
    ∧ (Issues s k (.mwait q a) → 1 ≤ n → n ≤ 65535 → MayEnter s k → ∀ t addr, (s.suspendedTwins w.group false).head? = some t →
      (s.twin t).suspended = some (addr, false) → exec (.mwait q a) s = .next (((issued s k).modTwin t fun x =>
        { x with suspended := some (addr, true) }).setWave k
          (entered s.cc ((issued s k).wave k) (s.ctx w.ctx).tvec 0x51 w.exec (BitVec.ofNat 56 addr) (decide (2 ^ 63 ≤ addr)))))
    ∧ (Issues s k (.mwait q a) → (n = 0 ∨ 65535 < n) → MayEnter s k → exec (.mwait q a) s = .next ((issued s k).setWave k
        (entered s.cc ((issued s k).wave k) (s.ctx w.ctx).tvec 0x04 w.exec 0)))
    ∧ (∀ o : QplaneF, Issues s k (.qplane o) → Memory.wf s.mem.sp = true →
      let x := (w.readS o.b.toNat).toNat
      let ks := x / 2 ^ 32
      let base := x % 2 ^ 32
      let bytes := (List.range o.planes.toNat).flatMap fun i => (List.range 128).map fun b =>
        (s.spKeyOf w (base + 1024 * i * ks + b), slabByte o.et (fun j => w.readV (o.a.toNat + j)) o.planes.toNat i b)
      let legal := 1 ≤ ks ∧ ks ≤ 512 ∧ base % 128 = 0
      let fits := ∀ i, i < o.planes.toNat → PlaneFits s w base ks i
      let v := if s.detOf w then (issued s k).modWave k fun w => w.overtake true (bytes.map Prod.fst) else issued s k
      (legal → fits → s.holdsOf w = false → ∃ u : State,
          u = { v with mem := { s.mem with sp := u.mem.sp, spErrs := u.mem.spErrs }, fab := { s.fab with queues := u.fab.queues }
                       jalti := if s.checked w then { s.jalti with pairs := u.jalti.pairs } else s.jalti }
        ∧ (∀ j, { u.pair j with snapshot := none } = { s.pair j with snapshot := none })
        ∧ Runs (.qplane o) s k u ∧ ∀ key, u.readSp key = (lastByte (onClusters s w bytes) key).getD (s.readSp key))
      ∧ (legal → fits → s.holdsOf w = true → ∃ u : State, u = { issued s k with fab := { s.fab with queues := u.fab.queues } }
        ∧ Runs (.qplane o) s k (u.modWave k fun w => { w with effects := w.effects ++ [.sp bytes] }))
      ∧ (¬legal → MayEnter s k → exec (.qplane o) s = .next ((issued s k).setWave k
          (entered s.cc ((issued s k).wave k) (s.ctx w.ctx).tvec 0x04 w.exec 0)))
      ∧ (legal → ¬fits → MayEnter s k → exec (.qplane o) s = .next ((issued s k).setWave k
          (entered s.cc ((issued s k).wave k) (s.ctx w.ctx).tvec 0x11 w.exec 0))))
    ∧ (Issues s k (.amaxrd q d slot) → Completes (.amaxrd q d slot) s k (w.long (w.sReg d.toNat) (.s (scaleWord s w slot))))

/-- R105, R221: bit j of byte b of plane i of a slab of P planes is bit P - 1 - i of element 8b + j, clamped to P bits; a slot's scale
word holds the maximum of its valid entries, the derived exponent, the count and the NaN flag. -/
def Obligations.SlabsAndScales : Prop :=
  (∀ (t : ET) (regs : Nat → VReg) (p i b j : Nat), t = .i8x8 ∨ t = .i16x4 ∨ t = .i32x2 → 2 ≤ p → p ≤ 8 → i < p → b < 128 → j < 8 →
      let e := 8 * b + j
      let n := t.count
      let x := toSigned t.width (elemOf t.width (laneOf (regs (e / (32 * n))) (e % (32 * n) / n)) (e % n))
      (slabByte t regs p i b).getLsbD j =
        decide ((max (-(2 ^ (p - 1) : Int)) (min (2 ^ (p - 1) - 1 : Int) x) % 2 ^ p) / 2 ^ (p - 1 - i) % 2 = 1))
  ∧ (∀ x : Slot, x.count ≤ 16 → (∀ e ∈ x.entries, e.toNat ≤ 0x7F800000) →
      let valid := (List.range x.count).map fun k => (x.entries.getD ((x.head + 15 - k) % 16) 0).toNat
      let amax : Nat := x.word.toNat % 2 ^ 32
      let scale : Nat := x.word.toNat / 2 ^ 32 % 256
      (∀ e ∈ valid, e ≤ amax) ∧ (amax = 0 ∨ amax ∈ valid) ∧ (amax = 0 → scale = 127) ∧ (amax = 0x7F800000 → scale = 254)
      ∧ (0 < amax → amax < 0x7F800000 → ∃ l, fp32Log2 amax l
          ∧ (scale : Int) = max 0 (min 254 (127 + l - slotEmax x.fmt + x.margin.toNat)))
      ∧ x.word.toNat / 2 ^ 40 % 32 = x.count ∧ x.word.toNat / 2 ^ 45 = x.nan.toNat)

/-- R96, R98, R107, R210: a k-step of an MMA.BP adds to each accumulator of its tile the exact sum of the 128 products of its row of A
and its column of B, saturated to 32 bits, and counts as completed; the last one retires the operation. No other tile changes; on a
checked pair the shadow's twin does the same with its own operands (R244). -/
def Obligations.MatrixProducts : Prop :=
  ∀ (s : State) (tw tile offA offB ks pa pb leader r c : Nat) (acc : Bool) (e : MatEntry), TwinReady s tw →
    (s.twin tw).head = some e → e.op = .mma tile offA offB ks pa pb acc leader → e.started = true → (s.wave e.wave).effects = [] →
    (∀ l ∈ s.launches, l.spVeils = []) → tile < 4 → r < 64 → c < 128 →
    let st := ((s.twin tw).mpc.getD tile {}).kstep.toNat
    st < ks → st < 1023 →
    ∃ t, exec (.mmaKstep tw) s = .next t
      ∧ (accumulator t tw tile r c).toInt =
          clamped ((accumulator s tw tile r c).toInt + contribution s tw leader offA offB ks pa pb st r c)
      ∧ ((t.twin tw).mpc.getD tile {}).kstep.toNat = st + 1
      ∧ (st + 1 < ks → (t.twin tw).queue = (s.twin tw).queue) ∧ (st + 1 = ks → (t.twin tw).queue = (s.twin tw).queue.drop 1)
      ∧ (∀ j, j ≠ tile → (t.twin tw).tiles.getD j [] = (s.twin tw).tiles.getD j [])
      ∧ (s.shadows tw e = true → e.shadowOp = none → (s.twin (tw + 2)).tiles.length = 4 →
          (accumulator t (tw + 2) tile r c).toInt =
            clamped ((accumulator s (tw + 2) tile r c).toInt + contribution s (tw + 2) leader offA offB ks pa pb st r c))
      ∧ ∀ j, j ≠ tw → (j ≠ tw + 2 ∨ s.shadows tw e = false) → t.twin j = s.twin j

/-- R26, R107, R108, R210, R216-R218: an MMA.BP at the head of its queue starts at k-step 0 with its accumulators 0 unless it
accumulates, and a resumed one where it stopped; MZERO zeroes its tile, KSTEP and OVF; MRD returns two rows in the spec's layout, raw
or under their scales; MWR replaces two rows. Each of the last three retires. -/
def Obligations.TileAccess : Prop :=
  ∀ (s : State) (tw : Nat) (e : MatEntry), TwinReady s tw → (s.twin tw).head = some e →
    (∀ tile offA offB ks pa pb acc leader, e.op = .mma tile offA offB ks pa pb acc leader → e.started = false → tile < 4 →
      ∃ t, exec (.matrixOperationStart tw) s = .next t ∧ (∃ x, (t.twin tw).head = some x ∧ x.started = true ∧ x.op = e.op)
        ∧ ((t.twin tw).mpc.getD tile {}).busy = true
        ∧ (e.resume = true → (t.twin tw).tiles = (s.twin tw).tiles
            ∧ ((t.twin tw).mpc.getD tile {}).kstep = ((s.twin tw).mpc.getD tile {}).kstep)
        ∧ (e.resume = false → ((t.twin tw).mpc.getD tile {}).kstep = 0 ∧ ∀ r c, r < 64 → c < 128 →
            accumulator t tw tile r c = if acc then accumulator s tw tile r c else 0))
    ∧ (∀ tile, e.op = .zero tile → tile < 4 → ∃ t, exec (.tileAccessComplete tw) s = .next t
        ∧ (t.twin tw).queue = (s.twin tw).queue.drop 1 ∧ (∀ r c, accumulator t tw tile r c = 0)
        ∧ ((t.twin tw).mpc.getD tile {}).kstep = 0 ∧ ((t.twin tw).mpc.getD tile {}).ovf = false)
    ∧ (∀ tile row scales rowbyte fp32 wave tag, e.op = .read tile row scales rowbyte fp32 wave tag → wave < s.waves.length →
        ∃ t, exec (.tileAccessComplete tw) s = .next t ∧ (t.twin tw).queue = (s.twin tw).queue.drop 1
          ∧ (t.twin tw).tiles = (s.twin tw).tiles
          ∧ ∀ (n : Nat) (l : LongWrite), (s.wave wave).pending[n]? = some l → l.need ≠ 0 → ∀ j, j < 4 → l.tag = tag + j →
              ∃ x : LongWrite, (t.wave wave).pending[n]? = some x ∧ x.dst = l.dst ∧ x.need = 0 ∧ ∃ v, x.val = .v v ∧ ∀ lane sub, lane < 32 → sub < 2 →
                let r := row + j / 2
                let c := 64 * (j % 2) + 2 * lane + sub
                elemOf 32 (laneOf v lane) sub = (if fp32 then
                  scaleAcc (accumulator s tw tile r c).toInt (elemOf 8 (laneOf scales ((rowbyte + j / 2) / 8)) ((rowbyte + j / 2) % 8))
                    (elemOf 8 (laneOf scales (c / 8)) (c % 8)) % 2 ^ 32
                  else (accumulator s tw tile r c).toNat))
    ∧ (∀ tile row data, e.op = .write tile row data → tile < 4 → row ≤ 62 → ∃ t, exec (.tileAccessComplete tw) s = .next t
        ∧ (t.twin tw).queue = (s.twin tw).queue.drop 1 ∧ (t.twin tw).mpc.map (fun m => (m.kstep, m.ovf)) =
            (s.twin tw).mpc.map (fun m => (m.kstep, m.ovf))
        ∧ ∀ r c, r < 64 → c < 128 → (accumulator t tw tile r c).toNat =
            if r = row ∨ r = row + 1 then elemOf 32 (laneOf (data.getD (2 * (r - row) + c / 64) []) (c % 64 / 2)) (c % 2)
            else (accumulator s tw tile r c).toNat)

/-! ### Copy engines -/

/-- R223-R226, R244, R389: TCOPY, TCOPYW and THASH complete with the copy that their descriptor asks for at the end of their queue and
its ticket in Sd; a misaligned or invalid descriptor raises ILLEGAL_OPERAND or COPY_DESC, and a scratchpad range that R39 refuses
SP_RANGE, and nothing enters the queue. In a deterministic launch the copy waits for the epoch end. -/
def Obligations.CopyIssue : Prop :=
  ∀ (s : State) (k : Nat) (i : Instr) (o : CopyF) (mode : CopyKind) (pas : List Nat),
    (i = .tcopy o ∧ mode = .plain ∨ i = .tcopyw o ∧ mode = .window ∨ i = .thash o ∧ mode = .hash) → Issues s k i →
    let w := s.wave k
    let q := s.queueOf w o.queue.toNat
    let base : Copy := { (default : Copy) with
      wave := k, group := w.group, ctx := w.ctx, launch := w.launch, slack := o.slack.toNat, smode := w.priv == .s }
    ((w.readS o.a.toNat).toNat % 64 ≠ 0 → MayEnter s k → exec i s = .next ((issued s k).setWave k
        (entered s.cc ((issued s k).wave k) (s.ctx w.ctx).tvec 0x04 w.exec 0)))
    ∧ ((w.readS o.a.toNat).toNat % 64 = 0 → s.detOrder w pas = false → Clean s → RdcWf s → Memory.wf s.mem.home = true →
      Reaches s k .load true o.a 256 1 [(0, 0)] [(0, pas)] → ∃ b : List Byte, b.length = pas.length
        ∧ (∀ n, n < pas.length → b.getD n 0 = servedByte s (pas.getD n 0) ∨ b.getD n 0 = nearByte s (pas.getD n 0)) ∧
      (∀ c, copyOf b mode base = some c → (∀ r ∈ c.spRanges, s.spRangeOk w r = true) →
        ∃ (u : State) (e : Copy), Traffic (issued s k) u (s.coreOf w) [] ∧ e.seq = (s.copyQueue q).next
          ∧ e.heldBack = (s.detOf w || s.checked w)
          ∧ e.after = ((s.copyQueue q).joins.filter fun x => (s.copiesIn x.1).any fun y => y.seq == x.2)
          ∧ { e with seq := c.seq, heldBack := c.heldBack, after := c.after } = c
          ∧ Runs i s k ((u.modCopyQueue q fun x => { x with next := (x.next + 1) % 2 ^ 32, entries := x.entries ++ [e], joins := e.after }).modWave k
              fun x => ({ x with effects := if s.detOf w then x.effects ++ [.copy (q / 4) (q % 4) e.seq] else x.effects } : Wave).writeS o.d.toNat
                (BitVec.ofNat 64 (e.seq + 2 ^ 32 * o.queue.toNat + 2 ^ 34 * w.clid))))
      ∧ (copyOf b mode base = none → MayEnter s k → ∃ u, Traffic (issued s k) u (s.coreOf w) [] ∧ exec i s = .next (u.setWave k
          (entered s.cc (u.wave k) (s.ctx w.ctx).tvec 0x52 w.exec 0)))
      ∧ (∀ c, copyOf b mode base = some c → (∃ r ∈ c.spRanges, s.spRangeOk w r = false) → MayEnter s k →
        ∃ u, Traffic (issued s k) u (s.coreOf w) [] ∧ exec i s = .next (u.setWave k
          (entered s.cc (u.wave k) (s.ctx w.ctx).tvec 0x11 w.exec 0))))

/-- R232-R235: CFENCE completes with every copy then outstanding in the named queues put ahead of their later copies; CWAIT and CYIELD
complete, CYIELD at its continuation PC, where no copy at or before the ticket is outstanding, and otherwise wait, in a handler BLOCKED
(R15); a stopped copy of the context makes them trap with COPY_FAULT, once, and then starts again; a copy of the epoch ends the quantum
(R388), and on a checked pair a held one asks for an acorn (R244); a ticket of another cluster raises ILLEGAL_OPERAND. -/
def Obligations.CopyWaits : Prop :=
  ∀ (s : State) (k : Nat) (q : Bool) (a : BitVec 8) (off : BitVec 13) (mask : BitVec 4),
    let w := s.wave k
    let tk := (w.readS a.toNat).toNat
    let cq := s.queueOf w (tk / 2 ^ 32 % 4)
    let ahead := s.copiesUpTo cq (tk % 2 ^ 32)
    let i := Instr.cwait q a
    let j := Instr.cyield q a off
    let next := target w.pc (off.signExtend 32)
    let waited (v : Veil) : Veil := if v.wave = k ∧ v.queue = cq ∧ seqBefore v.seq (tk % 2 ^ 32) = true then { v with waited := true } else v
    let waits (l : Instr) (x : Wave) : Wave :=
      if l = j then { x with state := if w.priv = .u then .yielded else .blocked, wait := .ticket cq (tk % 2 ^ 32), stalled := some j
                             yieldPc := next, yieldTicket := w.readS a.toNat }
      else { x with state := .blocked, wait := .ticket cq (tk % 2 ^ 32), stalled := some i }
    (Issues s k (.cfence q mask) → 4 * s.physCluster w.ctx w.clid + 4 ≤ s.copies.length →
      ∃ u, Runs (.cfence q mask) s k u ∧ u = { issued s k with copies := u.copies } ∧ ∀ m,
        (u.copyQueue m).entries = (s.copyQueue m).entries ∧ (u.copyQueue m).next = (s.copyQueue m).next
        ∧ ((∃ n, n < 4 ∧ mask.getLsbD n = true ∧ m = s.queueOf w n) → ∀ e, e ∈ (u.copyQueue m).joins ↔ e ∈ (s.copyQueue m).joins
            ∨ ∃ n, n < 4 ∧ mask.getLsbD n = true ∧ ∃ c ∈ s.copiesIn (s.queueOf w n), e = (s.queueOf w n, c.seq))
        ∧ ((∀ n, n < 4 → mask.getLsbD n = true → m ≠ s.queueOf w n) → (u.copyQueue m).joins = (s.copyQueue m).joins))
    ∧ (tk < 2 ^ 40 → tk / 2 ^ 34 = w.clid → s.detOf w = false → ahead = [] →
      (Issues s k i → Completes i s k w) ∧ (Issues s k j → ∃ t, exec j s = .next t ∧ Retires s t k j next w))
    ∧ (tk < 2 ^ 40 → tk / 2 ^ 34 = w.clid → s.detOf w = true → ahead = [] →
      let u := (issued s k).modLaunch w.launch fun l => { l with veils := l.veils.map waited, spVeils := l.spVeils.map waited }
      (Issues s k i → Runs i s k u) ∧ (Issues s k j → ∃ t, exec j s = .next t ∧ Retires u t k j next (u.wave k)))
    ∧ (tk < 2 ^ 40 → tk / 2 ^ 34 = w.clid → ahead ≠ [] → (∀ c ∈ ahead, c.stage ≠ .stopped ∧ c.heldBack = false) →
      ∀ l, l = i ∨ l = j → Issues s k l → exec l s = .next ((issued s k).modWave k (waits l)))
    ∧ (tk < 2 ^ 40 → tk / 2 ^ 34 = w.clid → s.detOf w = true → (∃ c ∈ ahead, c.heldBack = true ∧ c.launch = w.launch) →
      ∀ l, l = i ∨ l = j → Issues s k l → exec l s = .next ((issued s k).modWave k fun x => { x with quantumEnded := true }))
    ∧ (tk < 2 ^ 40 → tk / 2 ^ 34 = w.clid → s.checked w = true → s.detOf w = false → (∃ c ∈ ahead, c.heldBack = true) →
      (∀ c ∈ ahead, c.stage ≠ .stopped) → ∀ l, l = i ∨ l = j → Issues s k l →
      exec l s = .next (((issued s k).modWave k (waits l)).modPair (s.pairOf w) fun p => { p with wanted := some (p.wanted.getD 5) }))
    ∧ (tk < 2 ^ 40 → tk / 2 ^ 34 = w.clid → s.detOf w = false → s.stoppedCopy w.ctx cq (tk % 2 ^ 32) = none →
      ∀ c ∈ ahead, c.stage = .stopped → c.ctx = w.ctx → cq < s.copies.length → ∀ l, l = i ∨ l = j → Issues s k l →
      ∃ t, exec l s = .next t ∧ t.wave k = (waits l ((issued s k).wave k))
        ∧ ∃ x ∈ (t.copyQueue cq).entries, x.seq = c.seq ∧ x.stage = .queued ∧ x.fault = none ∧ x.done = c.done)
    ∧ (∀ (l : Instr) (c : Copy), l = i ∨ l = j → Issues s k l → MayEnter s k → tk < 2 ^ 40 → tk / 2 ^ 34 = w.clid →
      (s.detOf w = false ∨ ∀ x ∈ ahead, x.heldBack = false) → s.stoppedCopy w.ctx cq (tk % 2 ^ 32) = some c →
      exec l s = .next (((issued s k).modCopy cq c.seq fun c => { c with delivered := true }).setWave k
        (entered s.cc ((issued s k).wave k) (s.ctx w.ctx).tvec (c.trap w.exec).cause w.exec (c.trap w.exec).addr)))
    ∧ (∀ l, l = i ∨ l = j → Issues s k l → MayEnter s k → (2 ^ 40 ≤ tk ∨ tk / 2 ^ 34 % 64 ≠ w.clid) →
      exec l s = .next ((issued s k).setWave k (entered s.cc ((issued s k).wave k) (s.ctx w.ctx).tvec 0x04 w.exec 0)))

/-- R104, R226, R227, R231-R235, R244: the next copy of a queue starts once what CFENCE puts ahead of it is complete; a plain copy
between scratchpad bytes that do not overlap moves every element, on a checked pair in both clusters, and nothing else; a copy that
meets a fault stops there and stays in the queue; a completed copy leaves the queue, pushes its slot, and the waves that waited for
nothing else go on, those of a CYIELD at their continuation. -/
def Obligations.CopySteps : Prop :=
  ∀ (s : State) (cluster queue : Nat) (c : Copy),
    let q := 4 * cluster + queue
    q < s.copies.length →
    let both := s.checked (s.wave c.wave) = true
    let src (n : Nat) := s.copyKeys c (addrPlus c.src (offsetAt c.ext c.sstride n)) c.esize
    let dst (n : Nat) := s.copyKeys c (addrPlus c.dst (offsetAt c.ext c.dstride n)) c.esize
    (s.nextCopy q = some c → s.mayStart c = true → c.kind = .plain → c.srcSp = true → c.dstSp = true → c.done = 0 →
      s.mem.spErrs = [] → Memory.wf s.mem.sp = true → (∀ l ∈ s.launches, l.spVeils = []) →
      (∀ n m x, n < c.total → m < c.total → x ∈ src n → x ∉ dst m ∧ (both → ∀ y ∈ dst m, x ≠ y + 2 ^ 22)) →
      (both → ∀ n m x y, n < c.total → m < c.total → x ∈ dst n → y ∈ dst m → x ≠ y + 2 ^ 22) →
      (∀ n m x y, n < c.total → m < c.total → x < c.esize → y < c.esize → (dst n).getD x 0 = (dst m).getD y 0 → n = m ∧ x = y) →
      ∃ t, exec (.copyStart cluster queue) s = .next t
        ∧ (∃ d ∈ (t.copyQueue q).entries, d.stage = .running ∧ d.seq = c.seq ∧ d.done = c.total)
        ∧ (∀ n x, n < c.total → x < c.esize → t.readSp ((dst n).getD x 0) = s.readSp ((src n).getD x 0)
            ∧ (both → t.readSp ((dst n).getD x 0 + 2 ^ 22) = s.readSp ((src n).getD x 0)))
        ∧ (∀ key, (∀ n, n < c.total → key ∉ dst n ∧ (both → ∀ y ∈ dst n, key ≠ y + 2 ^ 22)) → t.readSp key = s.readSp key)
        ∧ t.mem.home = s.mem.home)
    ∧ (s.nextCopy q = some c → s.mayStart c = true → ∀ u d cause va, s.performCopy c q = (u, d, some (some cause, va)) → cause ≠ 0 →
        (u.group d.group).live = true → (u.copyQueue q).entries = (s.copyQueue q).entries → d.seq = c.seq →
        ∃ t x, exec (.copyStart cluster queue) s = .next t ∧ x ∈ (t.copyQueue q).entries ∧ x.seq = c.seq ∧ x.stage = .stopped
          ∧ x.fault = some (cause, va) ∧ x.done = d.done)
    ∧ (s.nextCopy q = none ∨ s.nextCopy q = some c ∧ s.mayStart c = false → exec (.copyStart cluster queue) s = .next s)
    ∧ ((s.copyQueue q).entries.find? (fun x => x.stage == .running) = some c → ∃ t, exec (.copyComplete cluster queue) s = .next t
        ∧ (t.copyQueue q).entries.map Copy.seq = ((s.copyQueue q).entries.map Copy.seq).filter (fun n => n != c.seq)
        ∧ (∀ n, c.slot = some n → s.detOf (s.wave c.wave) = false → c.ctx < s.ctxs.length →
            let x := (s.ctx c.ctx).slots.getD n {}
            let y := (t.ctx c.ctx).slots.getD n {}
            y.entries.getD x.head 0 = BitVec.ofNat 32 c.amax ∧ y.head = (x.head + 1) % 16 ∧ y.count = min (x.count + 1) 16
              ∧ y.nan = (x.nan || c.nan))
        ∧ (∀ j seq l, j < s.waves.length → (s.wave j).state = .blocked ∨ (s.wave j).state = .yielded → (s.wave j).wait = .ticket q seq →
            (s.wave j).stalled = some l → (∀ y ∈ s.copiesIn q, y.seq ≠ c.seq → seqBefore y.seq seq = false) →
            (t.wave j).wait = .nothing ∧ (t.wave j).state ≠ .blocked ∧ (t.wave j).state ≠ .yielded
              ∧ (t.wave j).pc = if (s.wave j).state = .yielded ∨ l.isCyield = true then (s.wave j).yieldPc else (s.wave j).pc + 8))

/-! ### Pods -/

/-- R236-R238, R240, R242, R245: EMIT and EMITC complete with their records on the way to the pod, its bytes taken from the pool and
the answer owed to Pd; without room the pod's overflow policy decides, and in a deterministic launch they wait for the epoch end
(`Appends`); with no active lane they complete with no effect; a handle, a record, an address or a depth that R236, R237 and R240
refuse traps. PIPRD completes with a long write of the pips' depths or indices. -/
def Obligations.PodIssue : Prop :=
  ∀ (s : State) (k : Nat),
    let w := s.wave k
    let room (g n m : Nat) := (s.graph g).poolUsed + m * (s.podKernel g n).record ≤ (s.graph g).poolSize
    let traps (i : Instr) (cause : BitVec 7) (mask : Mask) := exec i s = .next ((issued s k).setWave k
      (entered s.cc ((issued s k).wave k) (s.ctx w.ctx).tvec cause mask 0))
    (∀ (o : EmitF) (g n : Nat), Issues s k (.emit o) → s.podOf w (w.readS o.a.toNat) = some (g, n) → (s.pod g n).cont = false →
      16 * (o.size.toNat + 1) = (s.podKernel g n).record →
      let lanes := lanesOf (w.governing o.pn o.pi)
      let depth (l : Nat) := w.depthOf l + s.deeper w g n
      let r : EmitReq := { wave := k, tag := s.tag, graph := g, node := n, mask := w.governing o.pn o.pi, cont := false, slack := o.slack.toNat
                           pips := lanes.map fun l =>
                             ({ bytes := recordOf w o.b.toNat (2 * (o.size.toNat + 1)) l, depth := depth l } : Pip) }
      ((∀ l ∈ lanes, depth l ≤ (s.podKernel g n).depthLimit) →
        (lanes = [] → Completes (.emit o) s k w)
        ∧ (s.holdsOf w = false → room g n lanes.length → ∃ t, exec (.emit o) s = .next t ∧ (t.wave k).pc = w.pc + 8
            ∧ (lanes ≠ [] → t.emits = s.emits ++ [r]))
        ∧ (lanes ≠ [] → Appends s k (.emit o) o.d r))
      ∧ ((∃ l ∈ lanes, (s.podKernel g n).depthLimit < depth l) → MayEnter s k →
        ∃ m : Mask, traps (.emit o) 0x57 m ∧ ∀ l, m.getLsbD l = true ↔ l ∈ lanes ∧ (s.podKernel g n).depthLimit < depth l))
    ∧ (∀ (o : EmitcF) (g n : Nat), Issues s k (.emitc o) → s.podOf w (w.readS o.a.toNat) = some (g, n) → (s.pod g n).cont = true →
      (s.podKernel g n).record = 32 →
      let lanes := lanesOf (w.governing o.pn o.pi)
      let word (l i : Nat) := (laneOf (w.readV (o.b.toNat + i)) l).toNat
      let r : EmitReq := { wave := k, tag := s.tag, graph := g, node := n, mask := w.governing o.pn o.pi, cont := true, slack := o.slack.toNat
                           pips := lanes.map fun l =>
                             ({ bytes := recordOf w o.b.toNat 4 l, depth := w.depthOf l, join := word l 2 } : Pip) }
      ((∀ l ∈ lanes, word l 0 % 8 = 0 ∧ word l 2 % 8 = 0) →
        (lanes = [] → Completes (.emitc o) s k w)
        ∧ (s.holdsOf w = false → room g n lanes.length → ∃ t, exec (.emitc o) s = .next t ∧ (t.wave k).pc = w.pc + 8
            ∧ (lanes ≠ [] → t.emits = s.emits ++ [r]))
        ∧ (lanes ≠ [] → Appends s k (.emitc o) o.d r))
      ∧ ((∃ l ∈ lanes, word l 0 % 8 ≠ 0 ∨ word l 2 % 8 ≠ 0) → MayEnter s k → traps (.emitc o) 0x04 w.exec))
    ∧ (∀ (i : Instr) (h : Word), (∃ o : EmitF, i = .emit o ∧ h = w.readS o.a.toNat) ∨ (∃ o : EmitcF, i = .emitc o ∧ h = w.readS o.a.toNat) →
      Issues s k i → MayEnter s k → s.podOf w h = none → traps i 0x54 w.exec)
    ∧ (∀ (i : Instr) (g n : Nat), (∃ o : EmitF, i = .emit o ∧ s.podOf w (w.readS o.a.toNat) = some (g, n)
          ∧ ((s.pod g n).cont = true ∨ 16 * (o.size.toNat + 1) ≠ (s.podKernel g n).record))
        ∨ (∃ o : EmitcF, i = .emitc o ∧ s.podOf w (w.readS o.a.toNat) = some (g, n)
          ∧ ((s.pod g n).cont = false ∨ (s.podKernel g n).record ≠ 32)) →
      Issues s k i → MayEnter s k → traps i 0x55 w.exec)
    ∧ (∀ o : PiprdF, Issues s k (.piprd o) → ∃ v : VReg,
      (∀ l, l < 32 → laneOf v l = if (w.governing o.pn o.pi).getLsbD l
        then BitVec.ofNat 64 (if o.idx then 32 * w.waveid + l else w.pipDepth.getD l 0) else laneOf (w.readV o.d.toNat) l)
      ∧ Completes (.piprd o) s k (w.long (.v o.d.toNat) (.v v)))

/-- R240, R241, R255: JOINDEC completes with one device-scope request for each distinct join word and its new values owed to Vd; a
request performed at its home takes one from the word for each of its lanes, returns each lane the value it left, deposits the core's
dirty sectors with the wave's atomic set at the line of each join word, and at 0 makes the pips that wait on the word launchable. -/
def Obligations.Joins : Prop :=
  (∀ (s : State) (k : Nat) (o : JoindecF) (lanes : List (Nat × List Nat)), Issues s k (.joindec o) → Clean s → s.detOf (s.wave k) = false →
    Reaches s k .store true 0 8 8
      ((lanesOf ((s.wave k).governing o.pn o.pi)).map fun l => (l, laneOf ((s.wave k).readV o.a.toNat) l)) lanes →
    ∃ u reqs, MemorySide (issued s k) u ∧ u.mem = s.mem
      ∧ Requested reqs { (default : AtomReq) with
          wave := k, tag := s.tag, ctx := (s.wave k).ctx, op := .add, w64 := true, ret := true, scope := .device, join := true
          slack := o.slack.toNat } lanes (fun _ => (0, 0))
      ∧ Runs (.joindec o) s k (({ u with tag := s.tag + 1, atomics := s.atomics ++ reqs } : State).modWave k fun w =>
          w.long (.v o.d.toNat) (.v (w.readV o.d.toNat)) reqs.length s.tag))
  ∧ (∀ (s : State) (k : Nat) (o : JoindecF), Issues s k (.joindec o) → s.detOf (s.wave k) = true → MayEnter s k →
    exec (.joindec o) s = .next ((issued s k).setWave k (entered s.cc ((issued s k).wave k) (s.ctx (s.wave k).ctx).tvec 0x61 (s.wave k).exec 0)))
  ∧ (∀ (s : State) (n : Nat) (r : AtomReq), s.atomics[n]? = some r → s.atomicReady n = true → r.join = true → r.w64 = true →
    r.wave < s.waves.length → s.detOf (s.wave r.wave) = false → Sound s (s.coreOf (s.wave r.wave)) → s.isPeer r.pa = false → r.pa % 8 = 0 →
    let core := s.coreOf (s.wave r.wave)
    let cells := (List.range 8).map (r.pa + ·)
    let old : Int := toSigned 64 (ofBytes (cells.map (byteAt s core)))
    ∃ t, exec (.atomicPerformed n) s = .next t ∧ t.atomics = dropAt s.atomics n
      ∧ (Memory.num t.mem.home r.pa 8 : Int) = (old - r.lanes.length) % 2 ^ 64
      ∧ (∀ pa, pa ∉ cells → byteAt t core pa = byteAt s core pa) ∧ Released t core
      ∧ (let w := s.wave r.wave
        let further := w.joinSet.1 == r.tag
        (t.wave r.wave).atomicSet = (if further then w.atomicSet else 0) ||| sectorSig (sectorOf r.pa)
          ∧ Deposited t .device r.pa (sigOf (s.core core).dirtySectors ||| (if further then w.joinSet.2 else w.atomicSet)))
      ∧ (1 ≤ old → old ≤ r.lanes.length → ∀ (g m : Nat) (x : Pip), g < s.graphs.length → (s.graph g).ctx = r.ctx → (s.graph g).live = true →
          m < (s.graph g).pods.length → (s.pod g m).cont = true → x ∈ (s.pod g m).fifo → x.join = r.va →
          (∀ y ∈ (t.pod g m).fifo, y.join ≠ r.va) ∧ { x with order := s.order, ready := s.lc } ∈ (t.pod g m).launchable)
      ∧ (1 ≤ old → (r.lanes.length : Int) < old → t.graphs = s.graphs))

/-- R237-R239, R283, R286: a request with its turn reaches its pod, whose count grows by its records, and its wave's Pd takes the answer
or the waiting wave goes on; when a pod's timer ends, one group forms of all its pips; when the members that a graph launch still waits
for wait in EMIT or at barriers and no group of it can be placed, every wave that waits in EMIT or EMITC traps with POD_FULL for its
active lanes, and nothing is appended. -/
def Obligations.PodSteps : Prop :=
  ((∀ (s : State) (n : Nat) (r : EmitReq), s.emits[n]? = some r → s.mayAppend n = true → r.wave < s.waves.length →
      r.graph < s.graphs.length → r.node < (s.graph r.graph).pods.length → (s.pod r.graph r.node).cont = false → s.appendPair r = none →
      let p := s.pod r.graph r.node
      let k := s.podKernel r.graph r.node
      ∃ t, exec (.podAppend n) s = .next t ∧ t.emits = dropAt s.emits n
        ∧ (t.pod r.graph r.node).fifo = p.fifo ++ r.pips.map (fun x => { x with place := s.order, born := s.lc })
        ∧ (r.seed = false → r.blocked = false → (t.graph r.graph).poolUsed = (s.graph r.graph).poolUsed
            ∧ ∀ (m : Nat) (l : LongWrite) (p : Mask), (s.wave r.wave).pending[m]? = some l → l.tag = r.tag → l.need ≠ 0 → l.val = .p p →
                ∃ x : LongWrite, (t.wave r.wave).pending[m]? = some x ∧ x.dst = l.dst ∧ x.need = 0 ∧ x.val = .p (p &&& ~~~r.mask))
        ∧ (r.seed = true ∨ r.blocked = true → (t.graph r.graph).poolUsed =
            (s.graph r.graph).poolUsed + r.pips.length * k.record)
        ∧ (r.seed = false → r.blocked = true → ∀ (o : EmitF), (s.wave r.wave).stalled = some (.emit o) →
            (t.wave r.wave).wait = .nothing ∧ (t.wave r.wave).pc = (s.wave r.wave).pc + 8
            ∧ (t.wave r.wave).pending = (s.wave r.wave).pending ++
                [{ dst := .p o.d.toNat, val := .p ((s.wave r.wave).readP o.d.toNat &&& ~~~r.mask), need := 0, tag := 0 }]))
    ∧ (∀ (s : State) (g n l : Nat), g < s.graphs.length → n < (s.graph g).pods.length → s.servedFor g n = some l →
      let p := s.pod g n
      let k := s.podKernel g n
      let c := p.fifo.length
      let m := if k.threshold ≠ 0 ∧ k.threshold ≤ c then k.threshold else c
      let forms (t : State) := ∃ f : Formed, (t.launch l).formed = (s.launch l).formed ++ [f] ∧ f.node = n ∧ f.pips = p.fifo.take m
        ∧ f.grpid = (s.launch l).nextGroup % 2 ^ 32 ∧ (t.launch l).nextGroup = (s.launch l).nextGroup + 1
        ∧ (t.pod g n).fifo = p.fifo.drop m
      let rests (t : State) := (t.launch l).formed = (s.launch l).formed ∧ (t.pod g n).fifo = p.fifo
      let ends := ∃ x, p.timer = some x ∧ x ≤ 1
      (p.timer ≠ none → ∃ t, exec (.coalescingTimerExpiry g n) s = .next t ∧ (c ≠ 0 → forms t)
          ∧ (c ≠ 0 → m = c → (t.pod g n).timer = none))
      ∧ (ends ∧ c ≠ 0 ∨ k.threshold ≠ 0 ∧ k.threshold ≤ c → forms (s.lcPod g n))
      ∧ (¬ends → (k.threshold = 0 ∨ c < k.threshold) → rests (s.lcPod g n))))
  ∧ (∀ (s : State) (l : Nat), s.podDeadlocked l = true → (s.launch l).det = false → ∃ t, exec (.podDeadlock l) s = .next t
      ∧ t.graphs = s.graphs
      ∧ ∀ k, k < s.waves.length → (s.wave k).launch = l → ∀ tag, (s.wave k).state = .blocked → (s.wave k).wait = .emit tag →
        (t.wave k).state = .parked ∧ ∃ m, (t.wave k).trap = some { cause := 0x56, mask := m, addr := 0 }
          ∧ (∀ r, s.emits.find? (fun r => r.wave == k && r.tag == tag) = some r → m = r.mask))

/-! ### Answers of the memories and of the part -/

/-- R57, R58, R137, R138, R180, R388: LOAD_RETURN gives the oldest complete long write to its register and to no other, and a PARKED
wave goes on with its last one, its unmarked set empty; an acknowledged CLEAN or INVAL, and an ICINV once the caches that it covers
are empty, let their wave issue again; a wave that has ended its quantum issues nothing more. -/
def Obligations.WaveReturns : Prop :=
  ∀ (s : State) (k : Nat), k < s.waves.length →
    let w := s.wave k
    (∀ (n : Nat) (l : LongWrite), w.pending[n]? = some l → l.need = 0 → (∀ m y, m < n → w.pending[m]? = some y → y.need ≠ 0) →
      ∃ x : Wave, exec (.loadReturn k) s = .next (s.setWave k x) ∧ x.pending = dropAt w.pending n ∧ x.pc = w.pc ∧ x.exec = w.exec
        ∧ (∀ r v, l.dst = .s r → l.val = .s v → r ≠ 0 →
            x.s.getD r 0 = v ∧ (∀ j, j ≠ r → x.s.getD j 0 = w.s.getD j 0) ∧ x.sbank = w.sbank ∧ x.v = w.v ∧ x.p = w.p)
        ∧ (∀ r v, l.dst = .sb r → l.val = .s v →
            x.sbank.getD (r - 56) 0 = v ∧ (∀ j, j ≠ r - 56 → x.sbank.getD j 0 = w.sbank.getD j 0) ∧ x.s = w.s ∧ x.v = w.v ∧ x.p = w.p)
        ∧ (∀ r v, l.dst = .v r → l.val = .v v →
            x.readV r = v ∧ (∀ j, j ≠ r → x.readV j = w.readV j) ∧ x.s = w.s ∧ x.sbank = w.sbank ∧ x.p = w.p)
        ∧ (∀ r v, l.dst = .p r → l.val = .p v → r ≠ 0 →
            x.readP r = v ∧ (∀ j, j ≠ r → x.readP j = w.readP j) ∧ x.s = w.s ∧ x.sbank = w.sbank ∧ x.v = w.v)
        ∧ (w.state = .parked ∧ dropAt w.pending n = [] ∧ w.trap = none ∧ w.abort = none → x.state = w.home ∧ x.unmarked = [])
        ∧ (¬(w.state = .parked ∧ dropAt w.pending n = [] ∧ w.trap = none ∧ w.abort = none) →
            x.state = w.state ∧ x.unmarked = w.unmarked))
    ∧ (w.hold = .writeback → exec (.writebackAck k) s = .next (s.modWave k fun w => { w with hold := .none, eligibleSince := s.cc }))
    ∧ (∀ scope, w.hold = .icinv scope → ∃ t, exec (.icinvAck k) s = .next t
        ∧ t.waves = (s.modWave k fun w => { w with hold := .none, eligibleSince := s.cc }).waves
        ∧ (∀ core, icinvCovers s w scope core → core < s.cores.length → t.core core = { s.core core with icache := [] })
        ∧ ∀ core, ¬icinvCovers s w scope core → t.core core = s.core core)
    ∧ (w.quantumDue = true →
        exec (.quantumEnd k) s = .next (s.modWave k fun w => { w with quantumDue := false, quantumEnded := true }))
    ∧ (w.quantumEnded = true → ∀ i, s.canIssue k i = false)

/-- R249, R250, R257, R330, R331: STORE_PERFORMED merges a sector's dirty bytes at their home and leaves the sector clean, with every
byte of the core's program order as it was; SIGNATURE_EPOCH_ADVANCE clears the half of every signature that held the epoch before
last and invalidates the clean bytes filled two or more epochs earlier, or three or more for a peer's sector, and falls due again 524,288 lc later; a patrol that reads a
sector which the code corrects leaves it good, with a DRAM_CORR record. -/
def Obligations.HomesAdvance : Prop :=
  (∀ (s : State) (core sec : Nat) (x : L1Sector), Sound s core → (s.core core).sector sec = some x →
    ∃ t, exec (.storePerformed core sec) s = .next t ∧ MemorySide s t
      ∧ (∀ pa, byteAt t core pa = byteAt s core pa) ∧ (∀ c, c ≠ core → (t.core c).l1 = (s.core c).l1)
      ∧ (∀ n, n < 64 → x.dirty.getLsbD n = true → nearByte t (64 * sec + n) = x.data.getD n 0)
      ∧ ∀ y ∈ (t.core core).l1, y.sec = sec → y.dirty = 0)
  ∧ (∀ s : State, ∃ t, exec .signatureEpochAdvance s = .next t ∧ t.mem.epoch = s.mem.epoch + 1 ∧ t.mem.home = s.mem.home
      ∧ t.waves = s.waves ∧ t.epochAt = s.lc + 524288
      ∧ (∀ x : RdcSector, x ∈ t.mem.rdc ↔ ∃ y ∈ s.mem.rdc, let aged := y.epoch + 3 ≤ s.mem.epoch + 1
          (¬aged ∧ x = y) ∨ (aged ∧ y.dirty ≠ 0 ∧ x = { y with filled := false }))
      ∧ t.mem.sigs = s.mem.sigs.map (fun b =>
          if (s.mem.epoch + 1) % 2 = 0 then { b with entries := b.entries.map fun e => { e with even := 0 }, ovEven := 0 }
          else { b with entries := b.entries.map fun e => { e with odd := 0 }, ovOdd := 0 })
      ∧ ∀ (c : Nat) (x : L1Sector), x ∈ (t.core c).l1 ↔ ∃ y ∈ (s.core c).l1,
          let aged := y.epoch + (if s.isPeer (64 * y.sec) then 3 else 2) ≤ s.mem.epoch + 1
          (¬aged ∧ x = y) ∨ (aged ∧ y.dirty ≠ 0 ∧ x = { y with filled := false, clean := 0 }))
  ∧ (∀ (s : State) (sec : Nat) (p : List (Nat × BitVec 8)), s.isPeer (64 * sec) = false → 64 * sec % 2 ^ 40 < 0x3C00000000 →
      lookupD [] s.mem.symErrs sec ≠ [] → rsDecode (lookupD [] s.mem.symErrs sec) = .corrects p →
      residual (lookupD [] s.mem.symErrs sec) p = [] →
      exec (.dramPatrol sec) s = .next (({ s with mem := { s.mem with symErrs := s.mem.symErrs.filter fun e => e.1 != sec } } : State).record
        { kind := 0x01, sev := 1, source := 0, context := 0xFFFF, addr := 64 * sec
          loc := 256 * channelOf (64 * sec) + 65536 * controllerOf (64 * sec), synd := rsSynd p }))
  ∧ (∀ (s : State) (sec : Nat), lookupD [] s.mem.symErrs sec = [] → exec (.dramPatrol sec) s = .next s)

/-- R329, R332, R340, R342, R343, R345, R357: the next store of a checked pair compares, and passes where no injection counts to it, while
one that fires starts the mismatch sequence, and so does a word of the buffer that cannot be read; an acorn that is due releases the check buffer, takes the snapshot and restarts the counts;
a frozen pair resumes at Jalti's decision; Jalti changes a pair's mode where R329 allows the request, and not otherwise. -/
def Obligations.CheckedPairs : Prop :=
  ∀ (s : State) (p : Nat), p < s.jalti.pairs.length →
    let q := s.pair p
    (∀ n e, q.mode = .checked → q.frozen = false → q.buffer[n]? = some e → e.compared = false →
        (∀ m y, m < n → q.buffer[m]? = some y → y.compared = true) → q.acornErrs = [] →
      (unreadable q.bufferErrs = true → ∃ t, exec (.checkCompare p) s = .next t ∧ (t.pair p).mismatches = q.mismatches + 1
        ∧ (t.pair p).buffer = [] ∧ (t.pair p).bufferErrs = [] ∧ (t.pair p).frozen = true)
      ∧ (q.bufferErrs = [] → (∀ j, q.inject = some j → j.counting = false ∨ 1 < j.n ∨ j.fires e = false) → ∃ t, exec (.checkCompare p) s = .next t
        ∧ (t.pair p).buffer = q.buffer.set n { e with compared := true } ∧ t = s.modPair p fun _ => t.pair p)
      ∧ (q.bufferErrs = [] → ∀ j, q.inject = some j → j.counting = true → j.n ≤ 1 → j.fires e = true → ∃ t, exec (.checkCompare p) s = .next t
        ∧ (t.pair p).mismatches = q.mismatches + 1 ∧ (t.pair p).buffer = [] ∧ (t.pair p).inject = none ∧ (t.pair p).frozen = true
        ∧ (q.retry = 0 → (t.pair p).mode = .checked ∧ (t.pair p).rollbacks = q.rollbacks + 1)
        ∧ (q.retry ≠ 0 → (t.pair p).mode = .offline ∧ (t.pair p).offlines = q.offlines + 1)))
    ∧ (∀ reason, s.acornWanted p = some reason → q.frozen = false → s.pairQuiet p = true → ∃ t, exec (.acornTake p reason) s = .next t
        ∧ (t.pair p).buffer = [] ∧ (t.pair p).wanted = none ∧ (t.pair p).retry = 0 ∧ (t.pair p).snapshot.isSome = true
        ∧ (t.pair p).mode = .checked ∧ (∀ k ∈ s.pairWaves p, (t.wave k).sinceAcorn = 0)
        ∧ ∀ k ∈ s.pairWaves p, ∀ id, (s.wave k).hold = .acorn id → (s.wave k).txn = none → (t.wave k).hold = .none ∧ (t.wave k).pc = (s.wave k).pc + 8)
    ∧ (q.mode = .checked → q.frozen = true → exec (.reexecute p) s = .next (s.modPair p fun q => { q with frozen := false }))
    ∧ (p < 24 →
      (q.mode = .independent → s.pairWaves p = [] → ∃ t, exec (.modeRequest p true) s = .next t ∧ t = (s.modPair p fun _ => t.pair p)
        ∧ (t.pair p).mode = .checked ∧ (t.pair p).buffer = [] ∧ (t.pair p).frozen = false)
      ∧ (q.mode = .checked → (∀ k ∈ s.pairWaves p, s.ilevelOf (s.wave k) ≠ 3) → ∃ t, exec (.modeRequest p false) s = .next t
        ∧ t = (s.modPair p fun _ => t.pair p) ∧ (t.pair p).mode = .independent)
      ∧ (∀ b, q.mode = .offline → exec (.modeRequest p b) s = .next s)
      ∧ (q.mode = .independent → s.pairWaves p ≠ [] → exec (.modeRequest p true) s = .next s)
      ∧ (q.mode = .checked → (∃ k ∈ s.pairWaves p, s.ilevelOf (s.wave k) = 3) → exec (.modeRequest p false) s = .next s))

/-! ### Launches and placement -/

/-- R106, R274-R280, R301, R325, R397, R398: LAUNCH maps the regions of its edges in stage 2 and adds a launch that is WAITING, with the
descriptor's fields, where every check passes, and one that ends REJECTED otherwise; a host edge's regions are hashed one after another, each into its trace entry; a voltage domain goes to the
largest hint that counts for it, or stays, under CAP; a FINISHING launch with nothing outstanding ends COMPLETE, or with its orphans
counted COMPLETE_ORPHANS, unless an error in what it writes back is charged to its context; a launch that is torn down has every wave of it
EXITED, and ends ABORTED once the copies that it has issued are performed. -/
def Obligations.LaunchStates : Prop :=
  (∀ (s : State) (c : Cmd),
    let ctx := s.cmdCtx c
    let n := s.launches.length
    (c.addr.toNat % 64 ≠ 0 ∨ s.cpRead ctx c.addr.toNat 256 = none → ∃ t, exec (.launch c) s = .next t ∧ t.launches.length = n + 1
        ∧ (t.launch n).state = .rejected ∧ (t.launch n).status = 0x10 ∧ (t.launch n).completed = true)
    ∧ (∀ b, c.addr.toNat % 64 = 0 → s.cpRead ctx c.addr.toNat 256 = some b →
        let l := { launchOf c ctx b with ilevel := s.effectiveLevel (launchOf c ctx b) }
        let named := s.readEdges ctx (fieldAt b 40 8) (min 64 (fieldAt b 48 2))
        let v := ((named.getD []).flatMap Edge.regions).foldl (fun s r => s.mapRegion ctx r) (s.cpPost ctx c.addr.toNat 256)
        let edges := named.filter (v.edgesMapped ctx)
        let seeds := v.readSeeds l b
        (∀ x, v.launchStatus l b edges = some x ∨ v.launchStatus l b edges = none ∧ seeds = none ∧ x = 0x10 → ∃ t, exec (.launch c) s = .next t ∧ t.launches.length = n + 1
          ∧ (t.launch n).state = .rejected ∧ (t.launch n).status = x ∧ (t.launch n).completed = true)
        ∧ (∀ es ss, v.launchStatus l b edges = none → edges = some es → seeds = some ss → ∃ t, exec (.launch c) s = .next t
          ∧ t.launches.length = n + 1
          ∧ t.launch n = { l with edges := es, seeds := ss, state := .waiting, order := s.order, since := s.cc } ∧ t.order = s.order + 1
          ∧ (ctx < s.ctxs.length → (t.ctx ctx).lastSeq = some (max ((s.ctx ctx).lastSeq.getD 0) l.seq))
          ∧ t.waves = s.waves ∧ ∀ m, m < n → (t.launch m).state = (s.launch m).state)))
  ∧ (∀ (s : State) (l edge region va len : Nat) (e : Edge), l < s.launches.length → (s.launch l).state = .waiting →
      (s.launch l).edges[edge]? = some e → e.producer = none → e.hashed = region → e.regions[region]? = some (va, len) →
      let pas := (List.range len).map fun i => s.vaPa (s.launch l).ctx (va + i)
      exec (.edgeHash l edge region) s = .next ((s.traceEntry 3 2 (s.launch l).ctx
          (bytesOf 8 (s.launch l).seq ++ bytesOf 1 0 ++ bytesOf 1 edge ++ bytesOf 2 region ++ bytesOf 1 (if none ∈ pas then 1 else 0) ++ zeros 3
            ++ bytesOf 8 va ++ bytesOf 8 len ++ zeros 16 ++ Sha.sha512 (pas.filterMap fun p => p.map (Memory.read s.mem.home)))).modLaunch l fun x =>
        { x with edges := x.edges.set edge { e with hashed := region + 1 } }))
  ∧ (∀ (s : State) (d : Nat), d < s.jalti.points.length →
      let counts (l : Nat) : Prop := l < s.launches.length ∧ s.countsFor l d = true ∧ (s.launch l).oppt ≠ 7
      ∃ p, exec (.operatingPointChange d) s = .next { s with jalti := { s.jalti with points := s.jalti.points.set d p } }
        ∧ p ≤ s.jalti.cap ∧ (∀ l, counts l → min (s.launch l).oppt s.jalti.cap ≤ p)
        ∧ ((∃ l, counts l) → ∃ l, counts l ∧ p = min (s.launch l).oppt s.jalti.cap)
        ∧ ((∀ l, ¬counts l) → p = min (s.jalti.points.getD d 0) s.jalti.cap))
  ∧ (∀ (s : State) (l : Nat), l < s.launches.length →
      let x := s.launch l
      let busy : Prop := (∃ q ∈ s.copies, ∃ c ∈ q.entries, c.launch = l) ∨ (∃ r ∈ s.atomics, (s.wave r.wave).launch = l)
        ∨ (∃ p ∈ s.jalti.pairs, ∃ e ∈ p.buffer, (s.wave e.wave).launch = l)
      (x.state = .finishing → x.tearing = false → ¬busy → ∃ t, exec (.launchCompletion l) s = .next t
        ∧ (Clean s → (t.launch l).completed = true)
        ∧ ((t.launch l).completed = x.completed ∧ (t.launch l).state = .finishing ∧ (t.launch l).tearing = true
          ∨ (t.launch l).completed = true ∧ (t.launch l).state = (if x.orphanCount = 0 then .complete else .orphans)
            ∧ (t.launch l).status = (if x.orphanCount = 0 then 0 else 1)))
      ∧ (x.state ≠ .finishing ∨ busy → exec (.launchCompletion l) s = .next s)
      ∧ (x.tearing = true → ∃ t, exec (.launchTeardown l) s = .next t
        ∧ (∀ k, k < s.waves.length → (s.wave k).launch = l → (s.wave k).state ≠ .exited → (t.wave k).state = .exited)
        ∧ ((∀ q ∈ s.copies, ∀ c ∈ q.entries, c.launch = l → c.heldBack = true) →
            (t.launch l).state = .aborted ∧ (t.launch l).status = 2 ∧ (t.launch l).completed = true)
        ∧ ((∃ q ∈ s.copies, ∃ c ∈ q.entries, c.launch = l ∧ c.heldBack = false ∧ c.stage ≠ .stopped) →
            (t.launch l).state = x.state ∧ (t.launch l).completed = x.completed ∧ (t.launch l).tearing = true))
      ∧ (x.tearing = false → exec (.launchTeardown l) s = .next s))

/-- R28, R268, R278, R284, R287, R289-R291, R295: the dispatcher starts the next candidate of its partition at the place that it has: a flat
launch's next group in ascending GRPID, a formed group with its pips in its lanes, a continuation of pips whose order has settled at
their code pointer, with FETCH_FAULT where that is no address; and none while a saved group that fits comes before them all. A gang whose
set grants commits; one that is refused steps its LFSR and backs off, and after 16 attempts asks for the admission token, with which it
holds its set. -/
def Obligations.Placement : Prop :=
  (∀ (s : State) (c : Nat) (p : Plan),
    let g := s.groups.length
    let first := s.waves.length
    (∀ l, l < s.launches.length → s.nextCandidate c = some (.flat l) → s.candPlan (.flat l) = some p →
      let x := s.launch l
      let k := s.candKernel (.flat l)
      ∃ t, exec (.groupDispatch c) s = .next t ∧ t.groups.length = g + 1 ∧ t.waves.length = first + x.waves
        ∧ (t.group g).grpid = BitVec.ofNat 32 x.nextGroup ∧ (t.group g).clusters = p.clusters ∧ (t.group g).ilevel = x.ilevel
        ∧ (t.group g).spbase = BitVec.ofNat 20 p.base ∧ (t.group g).spsize = BitVec.ofNat 20 k.scratch
        ∧ (t.group g).windows = List.replicate 16 { asid := (s.ctx x.ctx).asid }
        ∧ Starts t first x g x.waves k.regs (BitVec.ofNat 56 ((s.imageOf l).base + k.entry)) (fun _ _ => true)
        ∧ (t.launch l).nextGroup = x.nextGroup + 1 ∧ (t.launch l).dispatched = x.dispatched + 1
        ∧ (∀ m, m < x.waves → (t.wave (first + m)).startAt = max s.cc (x.since + 225))
        ∧ ∀ j, j < first → t.wave j = s.wave j)
    ∧ (∀ l n f, l < s.launches.length → s.nextCandidate c = some (.formed l n) → s.candPlan (.formed l n) = some p →
      (s.launch l).formed[n]? = some f → f.pips ≠ [] →
      let x := s.launch l
      let k := s.candKernel (.formed l n)
      let waves := (f.pips.length + 31) / 32
      ∃ t, exec (.groupDispatch c) s = .next t ∧ t.groups.length = g + 1 ∧ t.waves.length = first + waves
        ∧ (t.group g).grpid = BitVec.ofNat 32 f.grpid ∧ (t.group g).nodeid = BitVec.ofNat 16 f.node
        ∧ (t.group g).pipcount = BitVec.ofNat 11 f.pips.length
        ∧ Starts t first x g waves k.regs (BitVec.ofNat 56 ((s.imageOf l).base + k.entry)) (fun m l => decide (32 * m + l < f.pips.length))
        ∧ (∀ m, m < waves → (t.wave (first + m)).startAt = max (f.since + 135) (x.since + 225))
        ∧ (t.launch l).formed = dropAt x.formed n ∧ ∀ j, j < first → t.wave j = s.wave j)
    ∧ (∀ l gr n h rest, l < s.launches.length → gr < s.graphs.length → n < (s.graph gr).pods.length →
      s.nextCandidate (s.graph gr).ctx = some (.cont l gr n) → s.candPlan (.cont l gr n) = some p →
      (s.pod gr n).launchable = h :: rest →
      ∃ t m, exec (.continuationDispatch gr n) s = .next t ∧ t.groups.length = g + 1 ∧ t.waves.length = first + 1
        ∧ 1 ≤ m ∧ m ≤ 32 ∧ (t.pod gr n).launchable = (h :: rest).drop m
        ∧ (∀ x ∈ (h :: rest).take m, fieldAt x.bytes 0 8 = fieldAt h.bytes 0 8)
        ∧ (∀ x ∈ (h :: rest).take m, x.ready < s.lc)
        ∧ (m < 32 → ∀ x, (h :: rest)[m]? = some x → fieldAt x.bytes 0 8 ≠ fieldAt h.bytes 0 8 ∨ s.lc ≤ x.ready)
        ∧ (t.wave first).pc = BitVec.ofNat 56 (fieldAt h.bytes 0 8)
        ∧ (fieldAt h.bytes 0 8 < 2 ^ 56 → (t.wave first).state = .ready ∧ (t.wave first).trap = none)
        ∧ (2 ^ 56 ≤ fieldAt h.bytes 0 8 →
          (t.wave first).trap = some { cause := 0x16, mask := (t.wave first).exec, addr := BitVec.ofNat 56 (fieldAt h.bytes 0 8) })
        ∧ (t.group g).grpid = BitVec.ofNat 32 ((s.launch l).nextGroup % 2 ^ 32) ∧ (t.launch l).nextGroup = (s.launch l).nextGroup + 1)
    ∧ ((∃ g ∈ s.restorable c, s.groupFits g = true ∧ ∀ x ∈ s.candidates c, s.savedKey g ≤ s.candKey x) →
      exec (.groupDispatch c) s = .next s))
  ∧ (∀ (s : State) (l grpid : Nat), l < s.launches.length → (s.launch l).nextGroup = grpid →
      s.nextCandidate (s.launch l).ctx = some (.gang l) →
      let k := s.candKernel (.gang l)
      let plan := (s.gangSet l grpid).bind (s.planGang l grpid k (s.launch l).waves)
      (∀ p, plan = some p → ∃ t, exec (.gangReserve l grpid) s = .next t ∧ t.groups.length = s.groups.length + 1
        ∧ (t.group s.groups.length).grpid = BitVec.ofNat 32 grpid ∧ (t.group s.groups.length).clusters = p.clusters
        ∧ t.waves.length = s.waves.length + (s.launch l).waves ∧ (t.launch l).nextGroup = grpid + 1
        ∧ (∀ core, (t.core core).reserved ≠ some (l, grpid)) ∧ (l, grpid) ∉ (t.ctx (s.launch l).ctx).tokens.map Prod.fst)
      ∧ (∀ set, s.gangSet l grpid = some set → plan = none → s.mayFix l grpid = true → ∃ t, exec (.gangReserve l grpid) s = .next t
        ∧ (t.gangOf l grpid).token = true ∧ t.waves = s.waves ∧ ∀ e ∈ set, 4 * s.physCluster (s.launch l).ctx e.1 + e.2 < s.cores.length →
          (t.core (4 * s.physCluster (s.launch l).ctx e.1 + e.2)).reserved = some (l, grpid))
      ∧ (plan = none → s.mayFix l grpid = false → (s.gangOf l grpid).token = false → ∃ t, exec (.gangReserve l grpid) s = .next t
        ∧ (t.gangOf l grpid).attempts = (s.gangOf l grpid).attempts + 1
        ∧ lfsrNext (s.gangOf l grpid).lfsr (t.gangOf l grpid).lfsr ∧ (t.gangOf l grpid).backingOff = true
        ∧ (t.gangOf l grpid).wait = 64 * (1 + (t.gangOf l grpid).lfsr.toNat % 2 ^ min ((s.gangOf l grpid).attempts + 1) 6)
        ∧ (15 ≤ (s.gangOf l grpid).attempts → (s.launch l).ctx < s.ctxs.length → (l, grpid) ∈ (t.ctx (s.launch l).ctx).tokens.map Prod.fst)
        ∧ t.waves = s.waves ∧ t.groups = s.groups))
  ∧ (∀ (s : State) (l grpid : Nat), l < s.launches.length → (s.gangOf l grpid).backingOff = true →
      ∃ t, exec (.gangBackoffExpiry l grpid) s = .next t ∧ t.gangOf l grpid = { s.gangOf l grpid with backingOff := false })

/-- R44, R388, R389: an epoch ends once every wave of the deterministic launch has ended its quantum: no wave of the launch has an
effect left, the waves that can go on begin their next quantum with QIDX one higher, and the epoch is counted. -/
def Obligations.EpochEnds : Prop :=
  ∀ (s : State) (l : Nat),
    (s.epochReady l = true → ∃ t, exec (.epochEnd l) s = .next t ∧ (t.launch l).epoch = (s.launch l).epoch + 1
      ∧ (∀ k, k < t.waves.length → (t.wave k).launch = l → (t.wave k).effects = [])
      ∧ (∀ k, k < t.waves.length → (t.wave k).launch = l → (t.wave k).state ≠ .exited → (t.wave k).state ≠ .blocked →
          (t.wave k).quantumEnded = false)
      ∧ ∀ k, k < s.waves.length → (s.wave k).launch = l → (s.wave k).state = .ready → (s.wave k).effects = [] →
          (s.wave k).wait = .nothing → (s.wave k).stalled = none → (∀ r ∈ s.emits, r.wave ≠ k) → (s.launch l).ilevel ≠ 3 →
          (t.wave k).qidx = (s.wave k).qidx + 1 ∧ (t.wave k).quantumCount = 0 ∧ (t.wave k).pc = (s.wave k).pc)
    ∧ (s.epochReady l = false → exec (.epochEnd l) s = .next s)

/-! ### Preemption and services -/

/-- R74, R189, R318, R319, R323: a preemption request stops the partition's dispatch and aborts its open transactions; a wave at a point
is SAVED with its marked registers as they were, any other save keeps all of them; after the restore a saved group's waves go on in
their saved states with their registers; a world switch begins with the preemption of the outgoing partition and ends, once that is
saved, with the outgoing function's contexts out and the incoming one's in. -/
def Obligations.Preemption : Prop :=
  (∀ (s : State) (c : Nat), c < s.ctxs.length → (s.ctx c).alive = true → (s.ctx c).switchedOut = false → (s.ctx c).preempting = false →
      ∃ t, exec (.preemptionRequest c) s = .next t ∧ (t.ctx c).preempting = true
        ∧ (∀ l, (s.launch l).ctx = c → t.dispatches l = false)
        ∧ ∀ k x, k < s.waves.length → (s.wave k).ctx = c → (s.wave k).resident = true → (s.wave k).txn = some x → (s.wave k).abort = none →
          (s.wave k).pending = [] → (t.wave k).txn = none ∧ (t.wave k).pc = x.target ∧ (t.wave k).exec = x.exec
            ∧ ((t.wave k).readS 61).toNat % 16 = 7)
  ∧ (∀ (s : State) (k : Nat), k < s.waves.length → (s.ctx (s.wave k).ctx).preempting = true → s.drained k = true →
      s.acornAt k = true →
      (∀ p, (s.wave k).state = .ready → (s.wave k).priv = .u → (s.wave k).quantumEnded = false → s.pointOf (s.wave k) = some p →
        ∃ t, exec (.preemptionSave k) s = .next t ∧ (t.wave k).state = .saved ∧ (t.wave k).savedState = .ready
          ∧ (t.wave k).pc = (s.wave k).pc ∧ (t.wave k).valloc = (s.wave k).valloc
          ∧ (∀ r, p.slive.getLsbD r = true → (t.wave k).s.getD r 0 = (s.wave k).s.getD r 0)
          ∧ (∀ r, p.vlive.getLsbD r = true → (t.wave k).readV r = (s.wave k).readV r)
          ∧ (∀ r, p.plive.getLsbD r = true → (t.wave k).p.getD r 0 = (s.wave k).p.getD r 0)
          ∧ (p.flags.getLsbD 2 = true → (t.wave k).sbank = (s.wave k).sbank))
      ∧ (16384 ≤ (s.wave k).sincePreempt → (s.wave k).state = .ready ∨ (s.wave k).state = .handler →
        ∃ t, exec (.fullSave k) s = .next t ∧ (t.wave k).state = .saved ∧ (t.wave k).savedState = (s.wave k).home ∧ KeptWhole s t k))
  ∧ (∀ (s : State) (c g : Nat), c < s.ctxs.length → (s.ctx c).alive = true → (s.ctx c).switchedOut = false → s.cp.switching = none → s.partitionSaved c = true →
      let u := (s.partitionCtxs c).foldl (fun s c => s.modCtx c fun x => { x with preempting := false }) s
      u.restorable c = [g] → u.groupFits g = true → ∃ t, exec (.preemptionRestore c) s = .next t ∧ (t.ctx c).preempting = false
        ∧ ∀ k ∈ s.members g, (s.wave k).state = .saved → (s.wave k).wait = .nothing →
          (t.wave k).state = (s.wave k).savedState ∧ KeptWhole s t k)
  ∧ (∀ (s : State) (out into : Nat), out < s.ctxs.length → into < s.ctxs.length → (s.ctx out).fn ≠ (s.ctx into).fn →
      (s.ctx out).alive = true → (s.ctx into).alive = true →
      (s.cp.switching = none → (s.ctx out).switchedOut = false → (s.ctx into).switchedOut = true → (s.ctx out).preempting = false →
        ∃ t, exec (.worldSwitch out into) s = .next t ∧ t.cp.switching = some (out, into) ∧ (t.ctx out).preempting = true)
      ∧ (s.cp.switching = some (out, into) → (s.ctx out).preempting = true → s.partitionSaved out = true →
        ∃ t, exec (.worldSwitch out into) s = .next t ∧ t.cp.switching = none ∧ (t.ctx out).switchedOut = true
          ∧ (t.ctx into).switchedOut = false))

/-- R301, R302, R310, R312, R315, R316: the command processor answers an S-mode TRAP in S56 and the wave goes on: 0 for NULL, all ones for a
number without a service, the number of frames added for POOL_REFILL, 0 or, for no length, 1 for TLBI, which drops the stage-1
translations of the range, and a stage-2 shootdown those of a range of IPAs; FAIL kills the wave with its code; a STAGE2_FAULT whose
page is mapped lets the instruction issue again, and one that is refused is delivered to the handler; a stage-2 shootdown tells every
linked device; a check of a frame pool completes and restarts its clock: of a ring that is not low, or of none, it does nothing else, and
into one that is low it adds a frame that the command processor offers, within the ring's room and the quota. -/
def Obligations.Services : Prop :=
  (∀ (s : State) (k : Nat), k < s.waves.length → (s.wave k).state = .blocked →
      let w := s.wave k
      (∀ n i, w.wait = .service n → w.stalled = some i →
        (n = 0 → ∃ t, exec (.null k) s = .next t ∧ Answered s t k 0)
        ∧ (3 < n → ∃ t, exec (.null k) s = .next t ∧ Answered s t k (BitVec.allOnes 64))
        ∧ (∀ frames, n = 1 → s.poolHeader w.ctx (w.readS 57).toNat = none → ∃ t, exec (.poolRefill k frames) s = .next t ∧ Answered s t k 0)
        ∧ (∀ frames h, n = 1 → s.poolHeader w.ctx (w.readS 57).toNat = some h →
            (∀ f ∈ frames, s.poolable w.ctx f.toNat = true) →
            ∃ t, exec (.poolRefill k frames) s = .next t
              ∧ Answered s t k (BitVec.ofNat 64 (min (min (h.2.2.1 - 1 - (h.2.1 - h.1)) ((s.ctx w.ctx).quota - (s.ctx w.ctx).framesUsed)) frames.length)))
        ∧ (n = 2 → w.readS 58 = 0 → ∃ t, exec (.tlbi k) s = .next t ∧ Answered s t k 1)
        ∧ (n = 2 → w.readS 58 ≠ 0 → ∃ t, exec (.tlbi k) s = .next t ∧ Answered s t k 0
            ∧ Dropped s t w.ctx (fun e => pagesMeet (65536 * e.vpage) 65536 (w.readS 57).toNat (w.readS 58).toNat)
                (fun x => pagesMeet x.vbase.toNat (max 1 x.limit.toNat) (w.readS 57).toNat (w.readS 58).toNat)))
      ∧ (w.wait = .service 3 → exec (.fail k) s = .next (s.kill k ((w.readS 57).setWidth 7))
          ∧ ((s.kill k ((w.readS 57).setWidth 7)).wave k).state = .exited)
      ∧ (∀ x, w.wait = .stage2 x → w.stalled = none →
        (∀ f ipa, s.missingIpa w.ctx x.addr.toNat = some ipa → ∃ t, exec (.stage2FaultService k (some f)) s = .next t
          ∧ (t.wave k).state = w.home ∧ (t.wave k).wait = .nothing ∧ KeptWhole s t k)
        ∧ (MayEnter s k → exec (.stage2FaultService k none) s = .next (s.setWave k
            (entered s.cc w (s.ctx w.ctx).tvec x.cause x.mask x.addr x.tile)))))
  ∧ ((∀ (s : State) (c ipa len : Nat), ∃ t, exec (.stage2Shootdown c ipa len) s = .next t
        ∧ Dropped s t c (fun e => pagesMeet (65536 * e.ipage) 65536 ipa len)
            (fun x => x.valid = true ∧ ∀ a, s.windowIpa c x = some a → pagesMeet a (max 1 x.limit.toNat) ipa len)
        ∧ t.fab.toPeers = (s.linked.map fun d => PeerMsg.shootdown d (s.ctx c).asid 0 (2 ^ 56)) ++ s.fab.toPeers)
    ∧ (∀ (s : State) (c : Nat) (frames : List (BitVec 48)),
        (∃ t, exec (.poolCheck c frames) s = .next t ∧ t.waves = s.waves ∧ t.launches = s.launches ∧ t.mem.sp = s.mem.sp
          ∧ (c < s.ctxs.length → (t.ctx c).poolDue = false ∧ (t.ctx c).poolAt = s.lc))
        ∧ ((s.ctx c).pool = none ∨ s.poolLow c = false →
          exec (.poolCheck c frames) s = .next (s.modCtx c fun x => { x with poolDue := false, poolAt := s.lc }))
        ∧ (∀ va h f, (s.ctx c).pool = some va → s.poolHeader c va = some h → h.2.1 - h.1 < h.2.2.2 → frames = [f] →
            s.poolable c f.toNat = true → h.2.1 - h.1 + 1 < h.2.2.1 → (s.ctx c).framesUsed < (s.ctx c).quota → c < s.ctxs.length →
            ∃ t, exec (.poolCheck c frames) s = .next t ∧ (t.ctx c).framesUsed = (s.ctx c).framesUsed + 1
              ∧ (∀ n, s.frameOf c f.toNat = some n → (c, n) ∈ t.cp.owned)
              ∧ (s.frameOf c f.toNat = none → (c, f.toNat / 65536) ∈ t.cp.owned))))

/-! ### Records, trace entries and completions -/

/-- R349, R351, R352, R396, R397, R399, R408, R410: a record enters the ring at HEAD where the ring is enabled, legal and not full, and
is dropped and counted otherwise, taking a number either way; a trace entry enters the ring whole and is folded into the chain, or is
counted as lost while the ring is frozen; a completion entry is written at the queue's tail with the phase of its pass. -/
def Obligations.HostRecords : Prop :=
  (∀ (s : State) (r : Rec), Memory.wf s.mem.home = true →
      let q := s.rel
      let t := s.record r
      let slot := s.localPa (q.base.toNat / 4096 * 4096 + 64 * (q.head.toNat % q.size.toNat))
      let takes : Prop := q.enable = true ∧ (∃ n, 6 ≤ n ∧ n ≤ 16 ∧ q.size.toNat = 2 ^ n) ∧ (q.head - q.tail).toNat < q.size.toNat
      t.rel.rseq = q.rseq + 1 ∧ t.waves = s.waves ∧ t.launches = s.launches ∧ t.mem.sp = s.mem.sp ∧ t.mem.host = s.mem.host
      ∧ (takes → t.rel.head = q.head + 1 ∧ t.rel.pendingLost = 0 ∧ t.rel.ovf = q.ovf ∧ t.rel.dropped = q.dropped
          ∧ (r.sev < 2 → r.kind ≠ 0x09 → Memory.readN t.mem.home slot 64 = r.bytes q.rseq q.pendingLost
              ∧ ∀ a, (a < slot ∨ slot + 64 ≤ a) → Memory.read t.mem.home a = Memory.read s.mem.home a))
      ∧ (¬takes → t.rel.head = q.head ∧ t.rel.ovf = true ∧ t.rel.dropped = min (q.dropped + 1) (2 ^ 32 - 1)
          ∧ t.rel.pendingLost = min (q.pendingLost + 1) 65535 ∧ (r.sev < 2 → r.kind ≠ 0x09 → t.mem.home = s.mem.home)))
  ∧ (∀ (r : Rec) (n lost : Nat), let b := r.bytes n lost
      b.length = 64 ∧ fieldAt b 0 8 = n % 2 ^ 64 ∧ fieldAt b 8 1 = r.kind % 256
      ∧ fieldAt b 9 1 = (r.sev + (if r.esc then 4 else 0) + (if r.poison then 8 else 0)) % 256 ∧ fieldAt b 10 1 = r.cause % 256
      ∧ fieldAt b 11 1 = r.source % 256 ∧ fieldAt b 12 2 = r.context % 65536 ∧ fieldAt b 14 2 = lost % 65536
      ∧ fieldAt b 16 8 = r.launch % 2 ^ 64 ∧ fieldAt b 24 8 = r.addr % 2 ^ 64 ∧ fieldAt b 32 8 = r.vaddr % 2 ^ 64
      ∧ fieldAt b 40 4 = r.loc % 2 ^ 32 ∧ fieldAt b 44 4 = r.synd % 2 ^ 32 ∧ fieldAt b 48 2 = r.acornId % 65536
      ∧ fieldAt b 50 1 = r.retry % 256 ∧ fieldAt b 51 1 = r.syndw % 256 ∧ fieldAt b 52 4 = 0 ∧ fieldAt b 56 8 = r.pc % 2 ^ 64)
  ∧ (∀ (s : State) (type units context : Nat) (body : List Byte) (stamp : Option Nat), Memory.wf s.mem.home = true → 1 ≤ units →
      body.length + 16 ≤ 64 * units → units ≤ 2 ^ (s.trace.log2 - 6) →
      let x := s.trace
      let t := s.traceEntry type units context body stamp
      let ring := 2 ^ (x.log2 - 6)
      let entry := traceBytes x.tseq type units context body
      (x.frozen = true → t = { s with trace := { x with lostent := min (x.lostent + 1) (2 ^ 32 - 1) } })
      ∧ (x.frozen = false → t.trace.tseq = x.tseq + 1 ∧ t.trace.chain = Sha.sha512 (x.chain ++ entry) ∧ t.trace.lostent = x.lostent
          ∧ (x.head % ring + units ≤ ring → t.trace.head = x.head + units)
          ∧ (ring < x.head % ring + units → t.trace.head % ring = units % ring ∧ x.head + units < t.trace.head)
          ∧ Memory.readN t.mem.home (s.localPa x.base.toNat + 64 * ((t.trace.head - units) % ring)) (64 * units) = entry))
  ∧ (∀ (s : State) (fn queue : Nat) (tag : BitVec 32) (status opc seq detail : Nat), Memory.wf s.mem.host = true →
      fn < s.cp.funcs.length → queue < (s.func fn).queues.length →
      let q := (s.func fn).queues.getD queue default
      let t := s.complete fn queue tag status opc seq detail
      let at_ := q.cqBase.toNat + 32 * (q.cqTail.toNat % 2 ^ q.log2n.toNat)
      Memory.readN t.mem.host at_ 32 = completionEntry tag status opc (1 - q.cqTail.toNat / 2 ^ q.log2n.toNat % 2) seq detail
      ∧ (∀ a, (a < at_ ∨ at_ + 32 ≤ a) → Memory.read t.mem.host a = Memory.read s.mem.host a)
      ∧ (t.func fn).queues.getD queue default = { q with cqTail := q.cqTail + 1 } ∧ t.mem.home = s.mem.home
      ∧ t.cp.msix = (if q.ien ∧ q.vec.toNat < (if fn = 0 then 16 else 8) then (fn, q.vec.toNat) :: s.cp.msix else s.cp.msix))
  ∧ State.reset.trace.chain = zeros 64

/-! ### Commands -/

/-- R103, R236, R282, R303, R316, R361, R397, R409, R420: each management command that is accepted has its effect and completes OK, and
each that is not completes with BUSY or BAD_ARG and has none. -/
def Obligations.Commands : Prop :=
  ∀ (s : State) (c : Cmd), s.cmdCtx c < s.ctxs.length →
    let x := s.cmdCtx c
    exec (.traceMark c) s = .next ((s.traceEntry 6 1 x (bytesOf 8 (c.arg 0) ++ bytesOf 8 (c.arg 1))).reply c 5 0x20)
    ∧ (∃ t : State, exec (.perfConfig c) s = .next (t.reply c 6 0x20) ∧ t = s.modCtx x (fun _ => t.ctx x) ∧ (t.ctx x).perf.length = 8
        ∧ ∀ n, n < 8 → ((t.ctx x).perf.getD n {}).count = ((s.ctx x).perf.getD n {}).count
          ∧ ((t.ctx x).perf.getD n {}).cfg.toNat = (c.arg (n / 4) / 2 ^ (16 * (n % 4))) % 2 ^ 11)
    ∧ (s.vaRange x c.addr.toNat 64 = none → exec (.perfRead c) s = .next (s.reply c 7 0x22))
    ∧ (∀ pas, s.vaRange x c.addr.toNat 64 = some pas → ∃ t : State, exec (.perfRead c) s = .next (t.reply c 7 0x20)
        ∧ t.mem.home = Memory.writeAll s.mem.home (pas.zip ((List.range 8).flatMap fun n =>
            bytesOf 8 (((s.ctx x).perf.getD n {}).count.toNat + 2 ^ 48 * ((s.ctx x).perf.getD n {}).overflow.toNat)))
        ∧ (∀ n, ((t.ctx x).perf.getD n {}).count = ((s.ctx x).perf.getD n {}).count)
        ∧ (∀ n, n < (s.ctx x).perf.length → ((t.ctx x).perf.getD n {}).overflow = (((s.ctx x).perf.getD n {}).overflow && !(bitAt (c.arg 0) 0))))
    ∧ (s.openLaunches x ≠ [] → exec (.slotConfig c) s = .next (s.reply c 8 0x24) ∧ exec (.s1rootSet c) s = .next (s.reply c 0x0A 0x24))
    ∧ (s.openLaunches x = [] → c.arg 0 < 2 ^ 13 → ∃ t : State, exec (.slotConfig c) s = .next (t.reply c 8 0x20) ∧ t = s.modCtx x (fun _ => t.ctx x)
        ∧ (let n := c.arg 0 % 64
           let a := (s.ctx x).slots.getD n {}
           let b := (t.ctx x).slots.getD n {}
           b.fmt.toNat = c.arg 0 / 2 ^ 6 % 4 ∧ b.margin.toNat = c.arg 0 / 2 ^ 8 % 16
           ∧ (bitAt (c.arg 0) 12 = true → b.count = 0 ∧ b.nan = false ∧ b.entries = [])
           ∧ (bitAt (c.arg 0) 12 = false → b.count = a.count ∧ b.nan = a.nan ∧ b.entries = a.entries ∧ b.head = a.head)
           ∧ ∀ m, m ≠ n → (t.ctx x).slots.getD m {} = (s.ctx x).slots.getD m {}))
    ∧ (s.openLaunches x = [] → c.arg 0 % 2 ^ 17 = 0 → c.arg 0 < 2 ^ 48 → ∃ t : State, exec (.s1rootSet c) s = .next (t.reply c 0x0A 0x20)
        ∧ (t.ctx x).s1root = some (c.arg 0) ∧ Dropped s t x (fun _ => True) (fun _ => True))
    ∧ (s.openLaunches x = [] → c.arg 0 % 2 ^ 17 ≠ 0 ∨ 2 ^ 48 ≤ c.arg 0 → exec (.s1rootSet c) s = .next (s.reply c 0x0A 0x22))
    ∧ (s.poolHeader x c.addr.toNat = none → ∀ frames, exec (.poolSet c frames) s = .next (s.reply c 9 0x22))
    ∧ (∀ h frames, s.poolHeader x c.addr.toNat = some h → h.2.2.2 ≤ h.2.1 - h.1 → exec (.poolSet c frames) s = .next
        ((s.modCtx x fun y => { y with pool := some c.addr.toNat, quota := c.arg 0 }).reply c 9 0x20))
    ∧ (let g := c.arg 0
       (s.graphs.length ≤ g ∨ (s.graph g).live = false ∨ (s.graph g).ctx ≠ x → exec (.graphDestroy c) s = .next (s.reply c 4 0x22))
       ∧ (g < s.graphs.length → (s.graph g).live = true → (s.graph g).ctx = x →
         ((∃ l ∈ s.launches, l.graph = some g ∧ l.completed = false) → exec (.graphDestroy c) s = .next (s.reply c 4 0x24))
         ∧ ((∀ l ∈ s.launches, l.graph = some g → l.completed = true) →
           exec (.graphDestroy c) s = .next ((s.modGraph g fun y => { y with live := false }).reply c 4 0x20))))
    ∧ (s.cpRead x c.addr.toNat 64 = none → exec (.graphCreate c) s = .next (s.reply c 3 0x22) ∧ exec (.huskDefine c) s = .next (s.reply c 2 0x22))
    ∧ (∀ b nodes, s.cpRead x c.addr.toNat 64 = some b → s.graphNodes x c.addr.toNat b = some nodes → nodes.length ≤ (s.freePods x).length →
        ∃ t : State, exec (.graphCreate c) s = .next (t.reply c 3 0x20 s.graphs.length) ∧ t.graphs.length = s.graphs.length + 1
          ∧ (t.graph s.graphs.length).ctx = x ∧ (t.graph s.graphs.length).live = true ∧ (t.graph s.graphs.length).poolUsed = 0
          ∧ (t.graph s.graphs.length).poolSize = fieldAt b 16 8 ∧ (t.graph s.graphs.length).pods.length = nodes.length
          ∧ (∀ n, n < nodes.length → (t.pod s.graphs.length n).fifo = [] ∧ (t.pod s.graphs.length n).timer = none
              ∧ 1 ≤ (t.pod s.graphs.length n).gen ∧ (t.pod s.graphs.length n).idx < 4096)
          ∧ ((t.graph s.graphs.length).pods.map Pod.idx).Nodup)
    ∧ (∀ b, s.cpRead x c.addr.toNat 64 = some b →
        let r := huskRecord b
        let banks := s.huskBanksOf x r
        (s.huskStatus x r banks ≠ 0 → exec (.huskDefine c) s = .next
          ((s.cpWrite x (c.addr.toNat + 38) (bytesOf 2 (s.huskStatus x r banks))).reply c 2 0x20))
        ∧ (s.huskStatus x r banks = 0 → ∃ (t : State) (h : Husk), exec (.huskDefine c) s = .next (t.reply c 2 0x20) ∧ t.fab.husks.head? = some h
          ∧ h.ctx = x ∧ h.banks = banks ∧ h.shares = r.shares ∧ h.fill = r.fill ∧ h.policy = r.policy ∧ h.cls = r.cls
          ∧ (r.husk ≠ 0 → h.num = r.husk) ∧ (r.husk = 0 → 1 ≤ h.num ∧ ∀ y ∈ s.fab.husks, y.num ≠ h.num)
          ∧ ∀ y ∈ s.fab.husks, y.num ≠ h.num → y ∈ t.fab.husks))

/-- R322, R324, R409, R418: CTX_CREATE makes the lowest free context with its queues bound and returns its number; CTX_DESTROY ends a
context, with its launches ABORTED and its waves EXITED; VF_ASSIGN gives a virtual function its pairs and slice; a function-level reset
ends the function's contexts and resets its registers; what is refused completes with BAD_ARG. -/
def Obligations.Contexts : Prop :=
  ∀ (s : State) (c : Cmd),
    (∀ (asid : BitVec 16) (root : Nat),
      let fn := bits (c.arg 0) 3 0
      let pairs := pairsOf (c.arg 1)
      let ok := c.arg 1 < 2 ^ 24 ∧ bits (c.arg 0) 7 4 = 0 ∧ c.arg 0 < 2 ^ 16 ∧ s.partitionOk fn pairs = true
        ∧ ∀ q, q < 8 → bitAt (c.arg 0) (8 + q) = true → ((s.func fn).queues.getD q {}).bound = false
      (∀ n, n < 256 → n ≤ s.ctxs.length → (∀ m, m < n → (s.ctx m).alive = true ∧ m < s.ctxs.length) → ((s.ctx n).alive = false ∨ n = s.ctxs.length) →
        ok → ∃ t : State, exec (.ctxCreate c asid root) s = .next (t.reply c 0x40 0x20 n)
          ∧ (t.ctx n).alive = true ∧ (t.ctx n).fn = fn ∧ (t.ctx n).asid = asid ∧ (t.ctx n).s2root = root ∧ (t.ctx n).s1root = none
          ∧ (t.ctx n).clusterMap = clustersOf pairs ∧ (t.ctx n).tvec = 0 ∧ (t.ctx n).slacktab = [1023, 512, 256, 128, 64, 32, 16, 8]
          ∧ (∀ q, q < 8 → fn < s.cp.funcs.length → q < (s.func fn).queues.length → bitAt (c.arg 0) (8 + q) = true →
              ((t.func fn).queues.getD q {}).bound = true ∧ ((t.func fn).queues.getD q {}).ctx = n))
      ∧ (¬ok ∨ (256 ≤ s.ctxs.length ∧ ∀ m, m < 256 → (s.ctx m).alive = true) →
          exec (.ctxCreate c asid root) s = .next (s.reply c 0x40 0x22)))
    ∧ (let n := c.arg 0
       (s.ctxs.length ≤ n ∨ (s.ctx n).alive = false → exec (.ctxDestroy c) s = .next (s.reply c 0x41 0x22))
       ∧ (n < s.ctxs.length → (s.ctx n).alive = true → ∃ t : State, exec (.ctxDestroy c) s = .next (t.reply c 0x41 0x20)
         ∧ (t.ctx n).alive = false
         ∧ (∀ d ∈ s.linked, PeerMsg.shootdown d (s.ctx n).asid 0 (2 ^ 56) ∈ t.fab.toPeers)
         ∧ (∀ l, l < s.launches.length → (s.launch l).ctx = n → (s.launch l).completed = false →
             (t.launch l).state = .aborted ∧ (t.launch l).completed = true)
         ∧ (∀ k l, k < s.waves.length → (s.wave k).launch = l → l < s.launches.length → (s.launch l).ctx = n → (s.launch l).completed = false →
             (t.wave k).state = .exited)
         ∧ (∀ g, (s.graph g).ctx = n → g < s.graphs.length → (t.graph g).live = false)
         ∧ ∀ f ∈ t.cp.funcs, ∀ q ∈ f.queues, q.bound = true → q.ctx ≠ n))
    ∧ (let fn := c.arg 0
       let pairs := pairsOf (c.arg 2)
       (fn = 0 ∨ 16 ≤ fn ∨ 1 < c.arg 1 ∨ 2 ^ 24 ≤ c.arg 2 ∨ pairs = [] → exec (.vfAssign c) s = .next (s.reply c 0x42 0x22))
       ∧ (1 ≤ fn → fn < 16 → fn < s.cp.funcs.length → c.arg 2 < 2 ^ 24 → pairs ≠ [] →
         (∀ f, 1 ≤ f → f < 16 → f ≠ fn → ∀ p ∈ (s.func f).pairs, p ∉ pairs) →
         (c.arg 1 = 0 ∧ c.arg 3 = 0 ∨ c.arg 1 = 1 ∧ 100 ≤ c.arg 3 ∧ c.arg 3 ≤ 100000) →
         ∃ t : State, exec (.vfAssign c) s = .next (t.reply c 0x42 0x20) ∧ (t.func fn).pairs = pairs ∧ (t.func fn).slice = c.arg 3
           ∧ ∀ f, f ≠ fn → t.func f = s.func f))
    ∧ (∀ fn, (fn = 0 ∨ 16 ≤ fn → exec (.vfFunctionLevelReset fn) s = .next s)
       ∧ (1 ≤ fn → fn < 16 → fn < s.cp.funcs.length → ∃ t, exec (.vfFunctionLevelReset fn) s = .next t
         ∧ t.func fn = { Func.reset with pairs := (s.func fn).pairs, slice := (s.func fn).slice }
         ∧ ∀ n, n < s.ctxs.length → (s.ctx n).fn = fn → (t.ctx n).alive = false))

/-! ### Jalti -/

/-- R356, R357, R422, R423: the mailbox commands answer with their status, tag and results, and an argument outside its range answers
BAD_ARG with no effect; a missed kick is recorded and the second, or a lost heartbeat, is fatal; heat and power lower CAP by one point
to no less than 0.8 GHz and raise it while the other permits, with vector 20 at each change; 125 °C and 440 W are fatal. -/
def Obligations.Mailbox : Prop :=
  (∀ (s : State) (m : Mail),
    let p := m.arg 1
    let status (t : State) (n : Nat) : Prop := t.jalti.response.getD 0 0 = BitVec.ofNat 64 (n + 65536 * m.tag.toNat)
    let word (t : State) (n v : Nat) : Prop := t.jalti.response.getD n 0 = BitVec.ofNat 64 v
    let same (t u : State) : Prop := ({ t with jalti := { t.jalti with response := u.jalti.response } } : State) = u
    (24 ≤ p → ∀ pass, ∃ t, exec (.pairStatus m) s = .next t ∧ exec (.pairReturn m pass) s = .next t ∧ same t s ∧ status t 2)
    ∧ (p < 24 → ∃ t, exec (.pairStatus m) s = .next t ∧ same t s ∧ status t 0
        ∧ word t 1 (match (s.pair p).mode with | .independent => 0 | .checked => 1 | .offline => 2)
        ∧ word t 2 (s.pair p).mismatches ∧ word t 3 (s.pair p).rollbacks ∧ word t 4 (s.pair p).offlines)
    ∧ (p < 24 → (s.pair p).mode ≠ .offline → ∀ pass, ∃ t, exec (.pairReturn m pass) s = .next t ∧ same t s ∧ status t 3)
    ∧ (p < 24 → (s.pair p).mode = .offline → (∃ t, exec (.pairReturn m false) s = .next t ∧ same t s ∧ status t 0 ∧ word t 1 1)
        ∧ ∃ t, exec (.pairReturn m true) s = .next t ∧ same t (s.modPair p fun q => { q with mode := .independent }) ∧ status t 0 ∧ word t 1 0)
    ∧ (s.cp.injection = false → ∃ t, exec (.inject m) s = .next t ∧ same t s ∧ status t 3)
    ∧ (s.cp.injection = true →
      let ok := p < 24 ∧ m.arg 2 ≤ 1 ∧ 1 ≤ m.arg 3 ∧ m.arg 3 ≤ 65535 ∧ m.arg 4 % 256 < 32 ∧ m.arg 4 < 64 * 256
      (ok → ∃ t, exec (.inject m) s = .next t ∧ status t 0 ∧ same t (s.modPair p fun q => { q with
          inject := some { cluster := m.arg 2, n := m.arg 3, lane := m.arg 4 % 256, bit := m.arg 4 / 256 } }))
      ∧ (¬ok → ∃ t, exec (.inject m) s = .next t ∧ same t s ∧ status t 2))
    ∧ (m.arg 1 ≤ 1000 → ∃ t, exec (.wdogSet m) s = .next t ∧ status t 0
        ∧ same t { s with jalti := { s.jalti with wdogPeriod := m.arg 1, wdogMissed := 0 } })
    ∧ (1000 < m.arg 1 → ∃ t, exec (.wdogSet m) s = .next t ∧ same t s ∧ status t 2)
    ∧ (∃ t, exec (.wdogKick m) s = .next t ∧ status t 0 ∧ same t { s with jalti := { s.jalti with wdogMissed := 0 } }))
  ∧ (∀ s : State,
    (s.jalti.wdogPeriod = 0 → ∀ b, exec (.watchdogExpiry b) s = .next s)
    ∧ (s.jalti.wdogPeriod ≠ 0 → s.jalti.wdogMissed = 0 → exec (.watchdogExpiry false) s = .next
        ((({ s with jalti := { s.jalti with wdogMissed := 1 } } : State).record { kind := 0x10, sev := 2, source := 9 }).message 0 17))
    ∧ (s.jalti.wdogPeriod ≠ 0 → s.cp.fatal = false → ∀ b, b = true ∨ s.jalti.wdogMissed ≠ 0 →
        ∃ t, exec (.watchdogExpiry b) s = .next t ∧ t.cp.fatal = true ∧ t.cp.dumpValid = true)
    ∧ (∀ cause, cause = .hot ∨ cause = .overPower → ∃ t, exec (.thermalCapAdjust cause) s = .next t ∧ t.jalti.cap = s.jalti.cap - 1
        ∧ t.cp.msix = (if s.jalti.cap = 0 then s.cp.msix else (0, 20) :: s.cp.msix) ∧ t.jalti.points = s.jalti.points
        ∧ (cause = .hot → s.jalti.cap ≠ 0 → t.jalti.tcapped = true) ∧ (cause = .overPower → s.jalti.cap ≠ 0 → t.jalti.pcapped = true))
    ∧ (∀ cause, (cause = .cool ∧ s.jalti.pHolds = false ∨ cause = .underPower ∧ s.jalti.tHolds = false) → s.jalti.cap < 4 →
        ∃ t, exec (.thermalCapAdjust cause) s = .next t ∧ t.jalti.cap = s.jalti.cap + 1 ∧ t.cp.msix = (0, 20) :: s.cp.msix)
    ∧ (∀ cause, (cause = .cool ∧ s.jalti.pHolds = true ∨ cause = .underPower ∧ s.jalti.tHolds = true) ∨
        (cause = .cool ∨ cause = .underPower) ∧ 4 ≤ s.jalti.cap →
        ∃ t, exec (.thermalCapAdjust cause) s = .next t ∧ t.jalti.cap = s.jalti.cap ∧ t.cp.msix = s.cp.msix)
    ∧ (∀ (tj : Int) (watts : Nat), tj < 125 → watts ≤ 440 →
        exec (.thermalFatal tj watts) s = .next { s with jalti := { s.jalti with tj := tj } })
    ∧ (∀ (tj : Int) (watts : Nat), (125 ≤ tj ∨ 440 < watts) → s.cp.fatal = false →
        ∃ t, exec (.thermalFatal tj watts) s = .next t ∧ t.cp.fatal = true ∧ t.cp.dumpValid = true
          ∧ t = ({ s with jalti := { s.jalti with tj := tj } } : State).fatalError 9 { kind := 0x11, sev := 3, source := 9 }))

/-! ### L2, memory and fabric -/

/-- R359, R360, R364, R365, R368, R369, R370, R373, R374, R376, R377, R380, R382, R384: a bank and a controller take the request of least
slack, the oldest on a tie, never one ahead of an older one to the same line or sector, and the bank's reply leaves for its asker; a bank
with 64 misses waiting takes none, and an edge arbiter moves nothing to a controller that holds 64; a controller counts its transfers; an
arbiter grants one head and moves it; an exhaustion counts once; HOT_CLEAR, the end of a sweep and the retirement of a share do what R376,
R368 and R369 say, and a bank that husk 0 loses is to get a share back. The edge arbiters' numbers are the model's (log 42). -/
def Obligations.FabricSteps : Prop :=
  (∀ (s : State) (n b : Nat) (kind : Nat) (p : Packet), (kind = 1 ∨ kind = 2) → (s.packetsAt kind b 0)[n]? = some p →
      let same (x y : Packet) : Prop :=
        if kind = 1 then x.sec / 4 = y.sec / 4 else x.sec < y.sec + y.sectors ∧ y.sec < x.sec + x.sectors
      let blocked (m : Nat) (x : Packet) : Prop := ∃ (j : Nat) (y : Packet), j < m ∧ (s.packetsAt kind b 0)[j]? = some y ∧ same x y
      (∀ (m : Nat) (x : Packet), (s.packetsAt kind b 0)[m]? = some x → x.arrived < 2 ^ 64) →
      (∀ a ∈ s.fab.queues, ∀ c ∈ s.fab.queues, a.kind = c.kind → a.num = c.num → a.input = c.input → a = c) →
      ¬blocked n p → (∀ (m : Nat) (x : Packet), (s.packetsAt kind b 0)[m]? = some x → ¬blocked m x → m ≠ n →
        p.slack < x.slack ∨ p.slack = x.slack ∧ (p.arrived < x.arrived ∨ p.arrived = x.arrived ∧ n < m)) →
      (kind = 1 → Clean s → s.misses b < 64 → ∃ t, exec (.l2Request b) s = .next t ∧ t.packetsAt 1 b 0 = dropAt (s.packetsAt 1 b 0) n
        ∧ t.packetsAt 5 (b / 4) (b % 4) = s.packetsAt 5 (b / 4) (b % 4) ++ [{ p with arrived := s.cc }] ∧ (s.mem.rdc = [] → t.mem.home = s.mem.home))
      ∧ (kind = 2 → Clean s → s.fab.checkErrs = [] → ∃ t, exec (.lpddr6Request b) s = .next t ∧ t.packetsAt 2 b 0 = dropAt (s.packetsAt 2 b 0) n
        ∧ t.mem = s.mem
        ∧ ∀ k, s.fab.sketches[b]? = some k → ∃ k', t.fab.sketches[b]? = some k' ∧ k'.count = if k.en ∧ (k.filter = false ∨ k.ctx.toNat = p.owner)
            then k.count + BitVec.ofNat 48 p.sectors else k.count))
  ∧ (∀ (s : State) (b : Nat), s.packetsAt 1 b 0 = [] ∨ 64 ≤ s.misses b → exec (.l2Request b) s = .next s)
  ∧ (∀ (s : State) (b : Nat), s.packetsAt 2 b 0 = [] → exec (.lpddr6Request b) s = .next s)
  ∧ (∀ (s : State) (n : Nat), 64 ≤ (s.packetsAt 2 n 0).length → exec (.arbiterGrant (1024 + n)) s = .next s)
  ∧ (∀ (s : State) (n : Nat) (q : PQueue) (p : Packet) (rest : List Packet), (s.packetsAt 2 n 0).length < 64 →
      chooseInput (s.fab.queues.filter fun q => q.kind == 6 && q.num == n) = some q → q.packets = p :: rest →
      (∀ a ∈ s.fab.queues, ∀ c ∈ s.fab.queues, a.kind = c.kind → a.num = c.num → a.input = c.input → a = c) →
      ∃ t, exec (.arbiterGrant (1024 + n)) s = .next t ∧ t.packetsAt 6 n q.input = rest ∧ t.mem = s.mem ∧ t.waves = s.waves
        ∧ t.packetsAt 2 n 0 = s.packetsAt 2 n 0 ++ (if n < 16 then [{ p with arrived := s.cc }] else []))
  ∧ (∀ (s : State) (stop out : Nat) (reply : Bool) (q : PQueue), stop < 48 → out < 4 → chooseInput (s.arbiterInputs reply stop out) = some q →
      (∀ a ∈ s.fab.queues, ∀ c ∈ s.fab.queues, a.kind = c.kind → a.num = c.num → a.input = c.input → a = c) →
      ∃ t p, exec (.arbiterGrant (12 * stop + out + if reply then 6 else 0)) s = .next t ∧ q.packets.head? = some p
        ∧ t.packetsAt q.kind q.num q.input = q.packets.drop 1
        ∧ { p with arrived := s.cc } ∈ t.packetsAt (if reply then 4 else 0) (nextStop stop out) out ∧ t.mem = s.mem ∧ t.waves = s.waves)
  ∧ (∀ (l : List PQueue) (q : PQueue), chooseInput l = some q → q ∈ l
      ∧ ((∃ x ∈ l, x.least = 0) → q.least = 0 ∧ ∀ x ∈ l, x.least = 0 → x.input < 256 → q.input < 256 → q.stamp.getD 0 ≤ x.stamp.getD 0
          ∧ (q.stamp.getD 0 = x.stamp.getD 0 → q.input ≤ x.input))
      ∧ ((∀ x ∈ l, x.least ≠ 0) → (∀ x ∈ l, x.input < 256 ∧ (x.packets.headD default).arrived < 2 ^ 64) → ∀ x ∈ l, q.least ≤ x.least
          ∧ (q.least = x.least → (q.packets.headD default).arrived ≤ (x.packets.headD default).arrived)))
  ∧ (∀ (s : State) (n i j : Nat) (p : Packet), s.fab.packetList[n]? = some (i, j, p) → p.slack = 0 → p.counted = false →
      (s.fab.queues.getD i default).kind ≠ 2 → ∃ t, exec (.slackExhaustion n) s = .next t
        ∧ (∃ x, ((t.fab.queues.getD i default).packets)[j]? = some x ∧ x = { p with counted := true })
        ∧ (p.hard = true → (∀ e ∈ (s.ctx p.owner).hardStamps, e.1 = p.cls → e.2 + 65536 ≤ s.cc) → t.rel.rseq = s.rel.rseq + 1
            ∧ (p.owner < s.ctxs.length → lookupD 0 (t.ctx p.owner).exhaustions p.cls = 0))
        ∧ (p.hard = false → t.rel = s.rel ∧ (p.owner < s.ctxs.length → lookupD 0 (t.ctx p.owner).exhaustions p.cls =
            min (lookupD 0 (s.ctx p.owner).exhaustions p.cls + 1) (2 ^ 32 - 1))))
  ∧ (∀ (s : State) (c : Nat), ∃ t, exec (.hotClear c) s = .next t ∧ t = { s with fab := { s.fab with sketches := t.fab.sketches } }
      ∧ (∀ k, s.fab.sketches[c]? = some k →
          t.fab.sketches[c]? = some { k with count := 0, counters := [], top := List.replicate 32 none })
      ∧ ∀ d, d ≠ c → t.fab.sketches[d]? = s.fab.sketches[d]?)
  ∧ (∀ (s : State) (h : Nat) (old : List Nat), h ≠ 0 → (s.huskDef h).oldBanks = some old → (s.huskDef h).num = h → Clean s →
      ∃ t, exec (.huskSweepComplete h) s = .next t ∧ (t.huskDef h).oldBanks = none ∧ (t.huskDef h).banks = (s.huskDef h).banks
        ∧ (s.mem.rdc = [] → t.mem.home = s.mem.home)
        ∧ ∀ b i, b ∈ old → b ∉ (s.huskDef h).banks → i < 16 → s.shareOwner b i = .husk h → t.shareOwner b i = .husk 0)
  ∧ (∀ (s : State) (b i : Nat), b < 192 → i < 16 → s.shareOwner b i ≠ .retired → ∃ t, exec (.shareRetire b i) s = .next t
      ∧ t.shareOwner b i = .retired ∧ (∀ x ∈ t.fab.l2, ¬(x.bank = b ∧ x.share = i))
      ∧ ∀ h, s.shareOwner b i = .husk h → h ≠ 0 → (∃ j, j ≠ i ∧ j < 16 ∧ (s.shareOwner b j = .spare ∨ s.shareOwner b j = .husk 0)) →
          ∃ j, j ≠ i ∧ j < 16 ∧ t.shareOwner b j = .husk h ∧ (s.shareOwner b j = .spare ∨ s.shareOwner b j = .husk 0)
      ∧ ((∀ j, j < 16 → t.shareOwner b j ≠ .husk 0) → (∃ j h, j < 16 ∧ t.shareOwner b j = .husk h) →
          ∃ j, QuiesceChange.husk0Share b j ∈ t.cp.changes))

/-! ### The host -/

/-- R333, R403-R407, R411: an aperture access that the context's stage 2 allows reads or writes the homes, and one that it refuses
leaves a link record and, for a read, Unsupported Request; a doorbell sets TAIL, with ERR where it runs more than N ahead; SQ_CFG enables
a queue with its counts zero only where every fetched entry has completed; a register takes a write by its access codes. -/
def Obligations.HostAccesses : Prop :=
  (∀ (s : State) (fn off : Nat), fn < 16 →
    (∀ n, off + n ≤ 2 ^ 34 →
      (s.apertureRange fn off false n = none → s.apertureFatal fn off n = false → exec (.apertureAccess fn off (.read n)) s = .next ((s.linkRecord 0).hostReply none))
      ∧ (∀ pas, s.apertureRange fn off false n = some pas → Clean s →
          ∃ t, exec (.apertureAccess fn off (.read n)) s = .next t ∧ t.mem = s.mem ∧ t.waves = s.waves ∧ t.cores = s.cores
            ∧ t.cp.hostReplies = some (pas.map (Memory.read s.mem.home)) :: s.cp.hostReplies)
      ∧ (s.apertureFatal fn off n = true → s.cp.fatal = false →
          ∃ t, exec (.apertureAccess fn off (.read n)) s = .next t ∧ t.cp.fatal = true ∧ t.cp.dumpValid = true))
    ∧ (∀ b, off + b.length ≤ 2 ^ 34 →
      (s.apertureRange fn off true b.length = none → s.apertureFatal fn off b.length = false → exec (.apertureAccess fn off (.write b)) s = .next (s.linkRecord 0))
      ∧ (∀ pas, s.apertureRange fn off true b.length = some pas →
          ∃ t, exec (.apertureAccess fn off (.write b)) s = .next t ∧ t.mem.home = Memory.writeAll s.mem.home (pas.zip b)
            ∧ t.cores = s.cores ∧ t.mem.sigs = s.mem.sigs)))
  ∧ (∀ (s : State) (fn n off : Nat) (store : Bool), (s.func fn).apen = false ∨ (s.ctx (s.func fn).apctx.toNat).fn ≠ fn
        ∨ (s.ctx (s.func fn).apctx.toNat).alive = false → s.apertureRange fn off store (n + 1) = none)
  ∧ (∀ (s : State) (fn queue : Nat), fn < s.cp.funcs.length → queue < (s.func fn).queues.length →
    let q := (s.func fn).queues.getD queue default
    (∀ tail : BitVec 32, ∃ t x, exec (.sqDoorbell fn queue tail) s = .next t ∧ (t.func fn).queues.getD queue default = x
        ∧ x = { q with sqTail := tail, err := x.err }
        ∧ x.err = (q.err || decide (2 ^ q.log2n.toNat < (tail - q.sqHead).toNat)))
    ∧ (∀ v : Word, ∃ t x, exec (.queueEnable fn queue v) s = .next t
        ∧ (queue < 8 → fn < 16 → exec (.registerWrite fn (0x10000 + 0x40 * queue + 8) v) s = .next t)
        ∧ (t.func fn).queues.getD queue default = x
        ∧ x.ctx = q.ctx ∧ x.bound = q.bound ∧ x.sqBase = q.sqBase ∧ x.cqBase = q.cqBase
        ∧ x.log2n = v.extractLsb' 0 4 ∧ x.ien = v.getLsbD 22 ∧ x.vec = v.extractLsb' 23 5
        ∧ (v.getLsbD 20 = true → q.enable = false → q.cqTail = q.sqHead →
            x.enable = true ∧ x.sqTail = 0 ∧ x.sqHead = 0 ∧ x.cqHead = 0 ∧ x.cqTail = 0
            ∧ x.err = ((q.err && !v.getLsbD 21) || !(decide (6 ≤ x.log2n.toNat ∧ x.log2n.toNat ≤ 12))))
        ∧ (¬(v.getLsbD 20 = true ∧ q.enable = false ∧ q.cqTail = q.sqHead) →
            x.enable = (v.getLsbD 20 && q.enable) ∧ x.err = (q.err && !v.getLsbD 21)
            ∧ x.sqTail = q.sqTail ∧ x.sqHead = q.sqHead ∧ x.cqHead = q.cqHead ∧ x.cqTail = q.cqTail)))

/-- R351, R376, R396, R404, R405, R407: the registers of the identity, queue, reliability, controller and trace blocks keep what R351,
R376, R396, R405 and R407 let software write and read it back; reserved bits read zero, and a virtual function reaches none of the last three. -/
def Obligations.RegisterBlocks : Prop :=
  (∀ (s : State) (v : Word), ∃ t, exec (.registerWrite 0 0x20000 v) s = .next t ∧ t = { s with rel := { s.rel with base := v.setWidth 40 } }
      ∧ t.readBar0 0 0x20000 = (v.setWidth 40).setWidth 64)
  ∧ (∀ (s : State) (v : Word), ∃ t, exec (.registerWrite 0 0x20008 v) s = .next t ∧ t = { s with rel := { s.rel with size := v.setWidth 17 } }
      ∧ t.readBar0 0 0x20008 = (v.setWidth 17).setWidth 64)
  ∧ (∀ (s : State) (v : Word), exec (.registerWrite 0 0x20010 v) s = .next s)
  ∧ (∀ (s : State) (v : Word), exec (.registerWrite 0 0x20018 v) s = .next { s with rel := { s.rel with tail := v.setWidth 32 } })
  ∧ (∀ (s : State) (v : Word), exec (.registerWrite 0 0x20020 v) s = .next
      { s with rel := { s.rel with enable := v.getLsbD 0, irq := v.getLsbD 2, ovf := if v.getLsbD 1 then false else s.rel.ovf } })
  ∧ (∀ (s : State) (c : Nat) (v : Word) (k : Sketch), c < 16 → s.fab.sketches[c]? = some k →
      ∃ t k', exec (.registerWrite 0 (0x40000 + 0x200 * c) v) s = .next t ∧ t.fab.sketches[c]? = some k'
        ∧ k'.en = v.getLsbD 0 ∧ k'.filter = v.getLsbD 2 ∧ k'.ctx = v.extractLsb' 8 8
        ∧ (v.getLsbD 1 = true → k'.count = 0 ∧ k'.counters = [] ∧ k'.top = List.replicate 32 none)
        ∧ (v.getLsbD 1 = false → k'.count = k.count ∧ k'.counters = k.counters ∧ k'.top = k.top)
        ∧ (∀ d, d ≠ c → t.fab.sketches[d]? = s.fab.sketches[d]?))
  ∧ (∀ (s : State) (v : Word), ∃ t, exec (.registerWrite 0 0x50018 v) s = .next t ∧ t = { s with trace := { s.trace with window := v } }
      ∧ t.readBar0 0 0x50018 = v)
  ∧ (∀ (s : State) (v : Word), exec (.registerWrite 0 0x50020 v) s = .next
      { s with trace := { s.trace with frozen := v.getLsbD 0, short := if v.getLsbD 1 then false else s.trace.short } })
  ∧ (∀ (s : State) (fn : Nat) (v : Word), fn < 16 → fn < s.cp.funcs.length →
      (∃ t, exec (.registerWrite fn 0x30 v) s = .next t
        ∧ t.readBar0 fn 0x30 = v &&& 0x0000FFFC00000000)
      ∧ (∃ t, exec (.registerWrite fn 0x38 v) s = .next t ∧ t.readBar0 fn 0x38 = v &&& 0x1FF))
  ∧ (∀ (s : State) (v : Word), ∃ t, exec (.registerWrite 0 0x28 v) s = .next t
      ∧ t.jalti.tlim = (if 85 ≤ v.toNat % 256 ∧ v.toNat % 256 ≤ 115 then v.toNat % 256 else s.jalti.tlim)
      ∧ t.jalti.plim = (if 150 ≤ v.toNat / 256 % 1024 ∧ v.toNat / 256 % 1024 ≤ 420 then v.toNat / 256 % 1024 else s.jalti.plim))
  ∧ (∀ (s : State) (fn q : Nat) (v : Word), fn < 16 → fn < s.cp.funcs.length → q < 8 → q < (s.func fn).queues.length →
      let at_ (off : Nat) : Nat := 0x10000 + 0x40 * q + off
      (∀ off, off = 0x00 ∨ off = 0x20 → ∃ t, exec (.registerWrite fn (at_ off) v) s = .next t
        ∧ t.readBar0 fn (at_ off) = v &&& 0xFFFFFFFFFFFFF000)
      ∧ (∃ t, exec (.registerWrite fn (at_ 0x28) v) s = .next t ∧ t.readBar0 fn (at_ 0x28) = v &&& 0xFFFFFFFF)
      ∧ ∀ off, off = 0x18 ∨ off = 0x30 ∨ off = 0x38 → exec (.registerWrite fn (at_ off) v) s = .next s)
  ∧ (∀ (s : State) (fn offset : Nat) (v : Word), 1 ≤ fn → 2 ≤ offset / 0x10000 →
      exec (.registerWrite fn offset v) s = .next s ∧ s.readBar0 fn offset = 0)

/-- R71-R73: a well-formed image whose pages its context maps is written section by section at its base and becomes the next image
handle; any other changes nothing. -/
def Obligations.ImageLoads : Prop :=
  ∀ (s : State) (c : Nat) (base : Word) (file : List Byte),
    let mapped := (sectionsOf file).filter Section.mapped
    let kernels := chunks 64 (fieldAt file 24 4) (sectionBytes file 4)
    let ok := iciOk file = true ∧ c < s.ctxs.length ∧ (s.ctx c).alive = true ∧ kernels.length = fieldAt file 24 4
      ∧ (∀ d ∈ kernels, kernelOk d = true)
      ∧ ∀ x ∈ mapped, (s.vaRange c (base.toNat + x.img) x.size).isSome = true
    (¬ok → exec (.iciLoad c base file) s = .next s)
    ∧ (ok → ∃ t im, exec (.iciLoad c base file) s = .next t ∧ t.images = s.images ++ [im] ∧ im.live = true ∧ im.ctx = c ∧ im.base = base.toNat
        ∧ im.kernels.length = fieldAt file 24 4 ∧ t.waves = s.waves
        ∧ t.mem.home = Memory.writeAll s.mem.home (mapped.flatMap fun x =>
            ((s.vaRange c (base.toNat + x.img) x.size).getD []).zip (if x.file = 0 then zeros x.size else (file.drop x.file).take x.size)))

/-! ### Boot, resets and quiesce points -/

/-- R324, R329, R359, R386, R396, R399, R405, R415, R418: a cold reset boots from stage 1 with memory zero, a warm reset from stage 3
with the kept regions and counts, and each failed stage leaves BOOT_STATUS with its code; every context, wave and launch is gone; the
share map, the device number and the ring's size are as the module gives them; a write of DEV_RESET.WARM makes the warm reset the next
step; a function-level reset ends the function's contexts and resets its queues, and the physical function has none. -/
def Obligations.Resets : Prop :=
  (∀ (s : State) (b : BootInput) (cold : Bool),
    let first := if cold = true ∧ b.jaltiOk = false then 1 else if cold = true ∧ b.memoryOk = false then 2 else 3
    ∃ t, exec (if cold then .coldReset b else .warmReset b) s = .next t
      ∧ t.waves = [] ∧ t.groups = [] ∧ t.ctxs = [] ∧ t.launches = [] ∧ t.graphs = [] ∧ t.images = [] ∧ t.cp.fatal = false
      ∧ t.mem.host = s.mem.host ∧ t.agenda = s.agenda
      ∧ (∀ fn, (t.func fn).apen = false ∧ ∀ q ∈ (t.func fn).queues, q.enable = false ∧ q.err = false ∧ q.bound = false)
      ∧ (first = 3 → b.cpOk = true → b.stage4Ok = true →
          t.readBar0 0 8 = 0x10004 ∧ t.cp.injection = b.injection
          ∧ (∀ n i, n < 192 → i < 16 → t.shareOwner n i = if 16 ≤ i + min b.spares 2 then .spare else .husk 0)
          ∧ ∀ p ∈ t.fab.ports, p.state = 1 ∧ p.width = 0)
      ∧ (first = 3 → b.cpOk = true → b.stage4Ok = false → t.readBar0 0 8 = 3 + 256 * 4)
      ∧ (first = 3 → b.cpOk = false → t.readBar0 0 8 = 2 + 256 * 3)
      ∧ (first < 3 → t.readBar0 0 8 = BitVec.ofNat 64 (first - 1 + 256 * first))
      ∧ (cold = true → (∀ pa, Memory.read t.mem.home pa = 0) ∧ t.fab.dev = b.dev ∧ t.cp.stepping = b.step
          ∧ (t.readBar0 0 0) = BitVec.ofNat 64 (9 + 65536 * b.step.toNat) ∧ t.rel = State.reset.rel ∧ t.jalti = State.reset.jalti
          ∧ (first = 3 → b.cpOk = true → b.stage4Ok = true → t.cp.dumpBase = b.dumpBase ∧ t.trace.base = b.traceBase
            ∧ (28 ≤ b.traceLog2 → b.traceLog2 ≤ 34 → t.trace.log2 = b.traceLog2)))
      ∧ (cold = false → t.fab.dev = s.fab.dev ∧ t.rel.rseq = s.rel.rseq ∧ t.rel.dropped = s.rel.dropped
          ∧ t.trace.head = s.trace.head ∧ t.trace.tseq = s.trace.tseq ∧ t.trace.chain = s.trace.chain ∧ t.trace.base = s.trace.base
          ∧ t.cp.dumpValid = s.cp.dumpValid ∧ t.cp.dumpSeq = s.cp.dumpSeq ∧ t.cp.dumpBase = s.cp.dumpBase
          ∧ (∀ p, (t.pair p).mode = (if (s.pair p).mode = .offline then .offline else .independent)
              ∧ (t.pair p).mismatches = (s.pair p).mismatches ∧ (t.pair p).rollbacks = (s.pair p).rollbacks
              ∧ (t.pair p).offlines = (s.pair p).offlines)
          ∧ ∀ pa, s.isPeer pa = false → Memory.read t.mem.home pa =
              if (s.trace.base.toNat ≤ pa % 2 ^ 40 ∧ pa % 2 ^ 40 < s.trace.base.toNat + 2 ^ s.trace.log2)
                ∨ (s.cp.dumpBase.toNat ≤ pa % 2 ^ 40 ∧ pa % 2 ^ 40 < s.cp.dumpBase.toNat + 2 ^ 30)
              then Memory.read s.mem.home pa else 0))
  ∧ (∀ (s : State) (v : Word), exec (.registerWrite 0 0x10 v) s =
      .next (if v.getLsbD 0 then { s with agenda := .warmReset s.bootInput :: s.agenda } else s))
  ∧ (∀ (s : State) (fn : Nat) (v : Word), fn ≠ 0 → fn < 16 → exec (.registerWrite fn 0x10 v) s = .next s)
  ∧ (∀ (s : State) (fn : Nat), (fn = 0 ∨ 16 ≤ fn) → exec (.vfFunctionLevelReset fn) s = .next s)
  ∧ (∀ (s : State) (fn : Nat), 1 ≤ fn → fn < 16 → fn < s.cp.funcs.length → ∃ t, exec (.vfFunctionLevelReset fn) s = .next t
      ∧ t.func fn = { Func.reset with pairs := (s.func fn).pairs, slice := (s.func fn).slice }
      ∧ ∀ c, c < s.ctxs.length → (s.ctx c).alive = true →
          ((s.ctx c).fn = fn → (t.ctx c).alive = false)
          ∧ ((s.ctx c).fn = fn → (∀ d, d < s.ctxs.length → (s.ctx d).alive = true → (s.ctx d).fn = fn → d = c) →
            (∀ l, l < s.launches.length → (s.launch l).ctx = c → (s.launch l).completed = false →
                (t.launch l).state = .aborted ∧ (t.launch l).completed = true)
            ∧ ∀ f, (c, f) ∈ s.cp.owned → ∀ i, i < 65536 → Memory.read t.mem.home (65536 * f + i) = 0)
          ∧ ((s.ctx c).fn ≠ fn → (t.ctx c).alive = true))

/-- R295, R347, R359, R366, R370, R387, R270, R324: a change waits while its partition, or for routes, shares and pages any context, is not at
rest, and is applied when it is: a map or a lost pair changes the context's clusters, routes are the ports that are up, husk 0
receives a share in a bank where it has none, a guest husk is mapped to another with no line of either left, and a page's bytes move to a frame of the same husk while the old frame is scrubbed. -/
def Obligations.QuiescePoints : Prop :=
  ∀ s : State, s.cp.changes = [] →
    (exec (.quiescePoint []) s = .next s)
    ∧ (∀ x, ¬DueAt s x → exec (.quiescePoint [x]) s = .next { s with cp := { s.cp with changes := [x] } })
    ∧ (∀ c map, DueAt s (.clusterMap c map) →
        ((s.ctx c).alive = true → c < s.ctxs.length → map.length = (s.ctx c).clusterMap.length → WholePairs map →
          ∃ t, exec (.quiescePoint [.clusterMap c map]) s = .next t ∧ quietCtx (t.ctx c) = quietCtx { s.ctx c with clusterMap := map }
            ∧ (CachesWf s → ∀ core, core / 4 ∈ (s.ctx c).clusterMap → (t.core core).l1 = [] ∧ (t.core core).tlb = [] ∧ (t.core core).icache = []))
        ∧ (((s.ctx c).alive = false ∨ map.length ≠ (s.ctx c).clusterMap.length) → exec (.quiescePoint [.clusterMap c map]) s = .next s))
    ∧ (∀ p, DueAt s (.removePair p) → ∃ t, exec (.quiescePoint [.removePair p]) s = .next t
        ∧ ∀ c, c < s.ctxs.length → (s.ctx c).alive = true →
            ∀ x ∈ (t.ctx c).clusterMap, x / 2 ≠ p)
    ∧ (DueAt s .routes → s.fab.ports.length = 3 → ∃ t, exec (.quiescePoint [.routes]) s = .next t
        ∧ (∀ d port : Nat, d < 4 → port < 3 → ((t.fab.routes.getD d 0).getLsbD port = true ↔
            (s.fab.ports.getD port {}).state = 2 ∧ (s.fab.ports.getD port {}).peer.toNat = d ∧ BitVec.ofNat 2 d ∉ s.fab.deadPeers))
        ∧ (∀ port : Nat, port < 3 → (t.fab.ports.getD port {}).state =
            if (s.fab.ports.getD port {}).state = 3 then 1 else (s.fab.ports.getD port {}).state)
        ∧ t.readBar0 0 0x60000 = BitVec.ofNat 64 t.fab.linkRoute)
    ∧ (∀ b i, DueAt s (.husk0Share b i) → ∀ h, s.shareOwner b i = .husk h → h ≠ 0 → (∀ j, j < 16 → s.shareOwner b j ≠ .husk 0) →
        ∃ t, exec (.quiescePoint [.husk0Share b i]) s = .next t ∧ t.shareOwner b i = .husk 0
          ∧ (∀ x ∈ t.fab.l2, ¬(x.bank = b ∧ x.share = i)) ∧ ∀ a j, (a, j) ≠ (b, i) → t.shareOwner a j = s.shareOwner a j)
    ∧ (∀ c g husk, DueAt s (.huskMap c g husk) → (s.mapAllows c g husk = false ∨ (s.ctx c).alive = false) →
        exec (.quiescePoint [.huskMap c g husk]) s = .next s)
    ∧ (∀ c g husk, DueAt s (.huskMap c g husk) → (s.ctx c).alive = true → c < s.ctxs.length → g < (s.ctx c).huskMap.length →
        (s.ctx c).huskMap.getD g 0 ≠ husk → s.mapAllows c g husk = true →
        ∃ t, exec (.quiescePoint [.huskMap c g husk]) s = .next t ∧ (t.ctx c).huskMap = (s.ctx c).huskMap.set g husk
          ∧ (∀ x ∈ t.fab.l2, x.husk ≠ husk ∧ x.husk ≠ (s.ctx c).huskMap.getD g 0)
          ∧ ∀ f ∈ t.cp.frameHusk, f.2 ≠ (s.ctx c).huskMap.getD g 0)
    ∧ (∀ old new, DueAt s (.movePage old new) → old ≠ new → s.isPeer (65536 * old) = false → s.isPeer (65536 * new) = false →
        ∃ t, exec (.quiescePoint [.movePage old new]) s = .next t
          ∧ (∀ i, i < 65536 → Memory.read t.mem.home (65536 * old + i) = 0)
          ∧ t.huskOf (65536 * new) = s.huskOf (65536 * old)
          ∧ (∀ core, core < s.cores.length → ∀ x ∈ (t.core core).l1, x.sec / 1024 ≠ old) ∧ (∀ r ∈ t.mem.rdc, r.sec / 1024 ≠ old)
          ∧ ((∀ core, core < s.cores.length → (s.core core).l1 = []) → s.mem.rdc = [] →
              (∀ c, c < s.ctxs.length → (s.ctx c).alive = true → ∀ pa ∈ s.leavesOf old 3 1 (s.ctx c).s2root,
                pa / 65536 ≠ new ∧ (pa + 7) / 65536 ≠ new) →
              ∀ i, i < 65536 → Memory.read t.mem.home (65536 * new + i) = Memory.read s.mem.home (65536 * old + i)))

/-! ### Peers and links -/

/-- R257, R269, R314, R315, R355, R386, R416, R417: a peer's read, write, atomic, deposit or acquire is performed at this home for the
context of its ASID and answered with the page's address, or answered with PEER_FAULT; a peer's shootdown drops this device's copies; a
fatal error here tells every linked device; a dead peer leaves a record and, at the next quiesce point, the routes; a port comes up with 8
or 4 lanes, and the signature epoch with it, stays down, or fails when it loses lock. -/
def Obligations.Links : Prop :=
  (∀ (s : State) (asid : BitVec 16) (va : BitVec 56) (head : PeerHead) (ask : PeerAsk),
    let kind : AccessKind := match ask with | .read _ | .deposit _ | .acquire => .load | .write _ | .atomic _ _ _ _ _ => .store
    let n : Nat := match ask with | .read n => n | .write b => b.length | .atomic _ w64 _ _ _ => if w64 then 8 else 4 | .deposit _ | .acquire => 1
    ((∀ e ∈ s.fab.peerTable, e.1 ≠ asid.toNat) → exec (.peerRequest asid va ⟨head, ask⟩) s = .next (s.peerReply none))
    ∧ (∀ c, s.peerCtx asid = some c → (∃ i, i < n ∧ ¬PeerMapped s c (va.toNat + i) kind) →
        exec (.peerRequest asid va ⟨head, ask⟩) s = .next (s.peerReply none))
    ∧ (∀ c (pa : Nat → Nat), s.peerCtx asid = some c → Clean s → 0 < n →
        (∀ i, i < n → PeerMapped s c (va.toNat + i) kind ∧ ∃ l, s.walk c (va.toNat + i) = .ok l
          ∧ pa i = (s.entryOf (s.ctx c).asid (va.toNat + i) l).ppage * 65536 + (va.toNat + i) % 65536) →
        ∃ t answer, exec (.peerRequest asid va ⟨head, ask⟩) s = .next t ∧ t.cores = s.cores ∧ t.mem.sp = s.mem.sp ∧ t.waves = s.waves
          ∧ t.fab.peerReplies = some (pa 0 / 65536 * 65536, answer) :: s.fab.peerReplies
          ∧ (∀ m, ask = .read m → answer = ((List.range m).map fun i => Memory.read s.mem.home (pa i)) ∧ t.mem.home = s.mem.home)
          ∧ (∀ b, ask = .write b → answer = [] ∧ t.mem.home = Memory.writeAll s.mem.home (((List.range b.length).map pa).zip b))
          ∧ (∀ op w64 ret data cmp, ask = .atomic op w64 ret data cmp →
              let old := (List.range n).map fun i => Memory.read s.mem.home (pa i)
              let x := ofBytes old
              answer = (if ret then old else [])
              ∧ t.mem.home = Memory.writeAll s.mem.home (((List.range n).map pa).zip (bytesOf n
                  (if op = .cas then (if x = cmp then data else x) else op.apply w64 x data))))
          ∧ (∀ x, ask = .deposit x → answer = [] ∧ t.mem.home = s.mem.home
              ∧ t.mem.sigs = (s.depositAt (t.slice (pa 0)) (lineOf (pa 0)) x).mem.sigs)
          ∧ (ask = .acquire → t.mem.home = s.mem.home ∧ t.mem.sigs = s.mem.sigs
              ∧ ∀ x, t.signatureAt (t.slice (pa 0) :: t.oldSlices (pa 0)) (lineOf (pa 0)) = some x → answer = bytesOf 64 x.toNat)))
  ∧ (∀ (s : State) (source : Nat) (r : Rec), s.cp.fatal = false → (s.fatalError source r).cp.fatal = true
      ∧ (s.fatalError source r).fab.toPeers = s.linked.map PeerMsg.fatal ++ s.fab.toPeers)
  ∧ (∀ (s : State) (asid : BitVec 16) (va : BitVec 56) (len : Nat), ∃ t, exec (.peerShootdown asid va len) s = .next t
      ∧ (∀ c, c < s.ctxs.length → (s.ctx c).alive = true → (s.ctx c).asid = asid →
          ∀ core, core / 4 ∈ (s.ctx c).clusterMap → ∀ e ∈ (t.core core).tlb, e.asid = asid → ¬pagesMeet (65536 * e.vpage) 65536 va.toNat len)
      ∧ (∀ core, ∀ e ∈ (s.core core).tlb, core < s.cores.length → e.asid = asid → e.peer = true → pagesMeet (65536 * e.vpage) 65536 va.toNat len →
          ∀ r ∈ t.mem.rdc, r.sec / 1024 ≠ e.ppage)
      ∧ t.fab.peerEpoch = s.fab.peerEpoch + 1
      ∧ t.waves = s.waves ∧ t.launches = s.launches)
  ∧ (∀ (s : State) (dev : BitVec 2), (dev ∈ s.fab.deadPeers → exec (.peerFatalNotice dev) s = .next s)
      ∧ (dev ∉ s.fab.deadPeers → exec (.peerFatalNotice dev) s = .next (({ s with
          fab := { s.fab with deadPeers := dev :: s.fab.deadPeers }, cp := { s.cp with changes := s.cp.changes ++ [.routes] } } : State).linkRecord 2)))
  ∧ (∀ (s : State) (port lanes : Nat) (peer : BitVec 2), 3 ≤ port →
      exec (.linkTraining port lanes peer) s = .next s ∧ exec (.linkLossOfLock port) s = .next s)
  ∧ (∀ (s : State) (port lanes : Nat) (peer : BitVec 2), port < 3 → s.fab.ports.length = 3 → ∃ t x,
      exec (.linkTraining port lanes peer) s = .next t ∧ t.fab.ports.getD port {} = x
      ∧ (lanes < 4 ∨ peer = s.fab.dev → x.state = 0 ∧ x.width = 0 ∧ t.rel.rseq = s.rel.rseq + 1 ∧ t.fab.routes = s.fab.routes)
      ∧ (4 ≤ lanes → peer ≠ s.fab.dev → x.state = 2 ∧ x.width = (if 8 ≤ lanes then 8 else 4) ∧ x.peer = peer ∧ t.rel = s.rel ∧ t.epochAt = s.lc + 524288
          ∧ (s.cp.stage ≠ 5 → x.retrains = (s.fab.ports.getD port {}).retrains ∧ (s.fab.routes.length = 4 →
              (t.fab.routes.getD peer.toNat 0).getLsbD port = true))
          ∧ (s.cp.stage = 5 → t.fab.routes = s.fab.routes ∧ t.cp.changes = s.cp.changes ++ [.routes]
              ∧ x.retrains = (if (s.fab.ports.getD port {}).retrains = 0xFFFF then 0xFFFF else (s.fab.ports.getD port {}).retrains + 1)))
      ∧ (s.cp.stage = 4 → (t.cp.stage = 5 ↔ ∀ p ∈ t.fab.ports, p.state ≠ 1)))
  ∧ (∀ (s : State) (port : Nat), port < 3 → s.fab.ports.length = 3 → ∃ t, exec (.linkLossOfLock port) s = .next t
      ∧ (t.fab.ports.getD port {}).state = 3 ∧ t.fab.routes = s.fab.routes ∧ t.cp.changes = s.cp.changes ++ [.routes])

/-! ### The secure channel -/

/-- R400, R413, R414: an SPDM request is answered in its turn, and out of turn with an error; digests and certificates come from slot 0
alone; CHALLENGE, KEY_EXCHANGE and GET_MEASUREMENTS sign the transcript; at most 4 sessions are open; HEARTBEAT, END_SESSION and IDE_KM
need an established one; a stream carries traffic once both key sets are programmed and it is enabled; an integrity failure makes it
insecure and leaves a record. The phases of a connection and the form of an error are the model's (log 10). -/
def Obligations.SecureChannel : Prop :=
  (∀ s : State,
    let phase (t : State) (n : Nat) : Prop := t.sec.phase = n ∧ t.sec.sessions = s.sec.sessions
    (∃ t, exec .getVersion s = .next t ∧ phase t 1 ∧ Responds s t 0x84 0 [])
    ∧ (1 ≤ s.sec.phase → ∃ t, exec .getCapabilities s = .next t ∧ phase t 2 ∧ Responds s t 0xE1 0 [])
    ∧ (∀ b h : BitVec 8, 2 ≤ s.sec.phase → b.getLsbD 0 = true → h.getLsbD 0 = true →
        ∃ t, exec (.negotiateAlgorithms b h) s = .next t ∧ phase t 3 ∧ Responds s t 0xE3 0 [])
    ∧ (∀ b h : BitVec 8, (b.getLsbD 0 = false ∨ h.getLsbD 0 = false) → Refuses (.negotiateAlgorithms b h) s)
    ∧ (s.sec.phase < 1 → Refuses .getCapabilities s)
    ∧ (s.sec.phase < 2 → ∀ b h, Refuses (.negotiateAlgorithms b h) s)
    ∧ (s.sec.phase < 3 → Refuses .getDigests s ∧ ∀ slot index nonce, Refuses (.getCertificate slot) s ∧ Refuses (.challenge slot) s
        ∧ Refuses (.keyExchange slot) s ∧ Refuses (.getMeasurements index nonce) s)
    ∧ (∀ slot : BitVec 4, slot ≠ 0 → Refuses (.getCertificate slot) s ∧ Refuses (.challenge slot) s ∧ Refuses (.keyExchange slot) s)
    ∧ (3 ≤ s.sec.phase →
        (∃ t, exec .getDigests s = .next t ∧ phase t s.sec.phase ∧ Responds s t 0x81 0 (Sha.sha512 Config.certificateChain))
        ∧ (∃ t, exec (.getCertificate 0) s = .next t ∧ phase t s.sec.phase ∧ Responds s t 0x82 0 Config.certificateChain)
        ∧ (∃ t, exec (.challenge 0) s = .next t ∧ phase t s.sec.phase ∧ Signs s t 0x83 [] [])
        ∧ (∀ (index : BitVec 8) nonce b, s.measurement index.toNat = some b →
            ∃ t, exec (.getMeasurements index nonce) s = .next t ∧ phase t s.sec.phase ∧ Signs s t 0x60 nonce b)
        ∧ (4 ≤ s.sec.sessions.length → Refuses (.keyExchange 0) s)
        ∧ (s.sec.sessions.length < 4 → ∃ t, exec (.keyExchange 0) s = .next t ∧ Signs s t 0xE4 [] []
            ∧ t.sec.sessions = s.sec.sessions ++ [{ id := s.sec.nextSession, established := false }] ∧ t.sec.nextSession = s.sec.nextSession + 1))
    ∧ s.measurement 1 = some Config.jaltiDigest ∧ s.measurement 2 = some Config.cpDigest
    ∧ s.measurement 4 = some (bytesOf 8 s.trace.tseq ++ s.trace.chain))
  ∧ (∀ (s : State) (id : Nat),
    let waiting := ({ id := id, established := false } : Session) ∈ s.sec.sessions
    let open_ := ({ id := id, established := true } : Session) ∈ s.sec.sessions
    (¬waiting → Refuses (.finish id) s)
    ∧ (waiting → ∃ t, exec (.finish id) s = .next t ∧ Responds s t 0xE5 id [] ∧ ({ id := id, established := true } : Session) ∈ t.sec.sessions
        ∧ ∀ x, x.id ≠ id → (x ∈ t.sec.sessions ↔ x ∈ s.sec.sessions))
    ∧ (¬open_ → Refuses (.heartbeat id) s ∧ Refuses (.endSession id) s ∧ ∀ n k e, Refuses (.ideKm id n k e) s)
    ∧ (open_ → (∃ t, exec (.heartbeat id) s = .next t ∧ Responds s t 0xE8 id [] ∧ t.sec.sessions = s.sec.sessions)
        ∧ (∃ t, exec (.endSession id) s = .next t ∧ Responds s t 0xEC id [] ∧ ∀ x, x ∈ t.sec.sessions ↔ x ∈ s.sec.sessions ∧ x.id ≠ id)
        ∧ (∀ n k e, (5 ≤ n ∨ 2 ≤ k) → Refuses (.ideKm id n k e) s)
        ∧ ∀ n k e, n < 5 → k < 2 → ∃ t, exec (.ideKm id n k e) s = .next t ∧ Responds s t 0 id []
            ∧ (∀ j, j ∈ (t.stream n).keys ↔ j ∈ (s.stream n).keys ∨ j = k) ∧ (t.stream n).enabled = e
            ∧ (t.stream n).insecure = ((s.stream n).insecure && e) ∧ ∀ m, m ≠ n → t.stream m = s.stream m))
  ∧ (∀ (s : State) (n : Nat),
    let x := s.stream n
    (x.carries = true ↔ 0 ∈ x.keys ∧ 1 ∈ x.keys ∧ x.enabled = true ∧ x.insecure = false)
    ∧ (x.carries = false → exec (.ideIntegrityFailure n) s = .next s)
    ∧ (x.carries = true → ∃ t, exec (.ideIntegrityFailure n) s = .next t ∧ (t.stream n).carries = false ∧ (t.stream n).insecure = true
        ∧ t.rel.rseq = s.rel.rseq + 1 ∧ ∀ m, m ≠ n → t.stream m = s.stream m))
  ∧ (∀ (s : State) (index : BitVec 8), ∃ t r, exec (.doeDiscovery index) s = .next t ∧ t.sec.responses = r :: s.sec.responses
      ∧ t = { s with sec := { s.sec with responses := r :: s.sec.responses } } ∧ r.length = 4 ∧ r[1]? = some (if index.toNat < 3 then 0 else 0xFF)
      ∧ (index.toNat < 3 → r.take 3 = [1, 0, index] ∧ r[3]? = some (if index = 2 then 0 else index + 1)))

/-! ### Steps -/

/-- R46, R60, R122, R138, R273, R292, R293, R300, R355, R418 (log 6): a step runs the instruction that the fetched word decodes to, in the
state that the fetch leaves, and a word that does not decode enters the handler with ILLEGAL_OPCODE or RESERVED_FIELD; a step of the
agenda comes first, then the units, then each issue quarter, then the end of the cc, which is its part of an lc of 2 ns; a fetch takes the 8 bytes at the wave's PC, whole
from one block, or raises the cause of R122; after a fatal error the device takes no step of its own and no event but a reset. -/
def Obligations.StepRunsDecoded : Prop :=
  (∀ (s : State) (i : Instr) (rest : List Instr), s.agenda = i :: rest → i.isEvent = true → (s.cp.fatal = false ∨ i.isReset = true) →
    step s = exec i { s with agenda := rest, cur := none })
  ∧ (∀ s : State, s.cp.fatal = true → (s.agenda = [] → step s = .next s)
    ∧ (∀ i rest, s.agenda = i :: rest → i.isReset = false → step s = .next { s with agenda := rest, cur := none })
    ∧ (∀ k i, s.canIssue k i = false))
  ∧ (∀ s : State, s.agenda = [] → s.cp.fatal = false →
    (s.turn = 0 → (∀ t, ({ s with cur := none } : State).auto = some t → step s = .next t)
      ∧ (({ s with cur := none } : State).auto = none → step s = .next { s with cur := none, turn := 1 }))
    ∧ (∀ n q k, s.turn = n + 1 → s.nextIssue n = some (q, k) →
        let u : State := { s with turn := q + 2, cur := some k }
        (∀ t w i, u.fetch k = .word t w → decodeWord w = .ok i → step s = exec i t)
        ∧ (∀ t w, u.fetch k = .word t w → decodeWord w = .illegalOpcode → step s = .next (t.trapExec k 1))
        ∧ (∀ t w, u.fetch k = .word t w → decodeWord w = .reservedField → step s = .next (t.trapExec k 2))
        ∧ (∀ t, u.fetch k = .raised t → step s = .next t))
    ∧ (∀ n, s.turn = n + 1 → s.nextIssue n = none →
        ∃ t, step s = .next t ∧ t.cc = s.cc + 1 ∧ t.turn = 0 ∧ t.waves = s.waves ∧ t.mem = s.mem ∧ t.cores = s.cores
          ∧ (s.lcPart + 500 < s.clock → t.lc = s.lc ∧ t.lcPart = s.lcPart + 500)
          ∧ (s.clock ≤ s.lcPart + 500 → t.lc = s.lc + 1 ∧ t.lcPart = s.lcPart + 500 - s.clock ∧ t.lcEnd = true)
          ∧ ∀ g, g < s.groups.length → (t.group g) = { s.group g with stuck := (t.group g).stuck, marks := (t.group g).marks }
            ∧ (s.claimDeadlocked g = false → (t.group g).stuck = 0)
            ∧ (s.claimDeadlocked g = true → 1 ≤ (t.group g).stuck ∧ (t.group g).stuck ≤ (s.group g).stuck + 1)))
  ∧ (∀ (s : State) (k : Nat),
    let w := s.wave k
    let core := s.coreOf w
    (∀ e, s.fetchPage w = .ok e → Clean s → s.mem.icErrs = [] → RdcWf s → Memory.wf s.mem.home = true →
      let pa := e.ppage * 65536 + w.pc.toNat % 65536
      let block := ((s.core core).block (pa / 64)).getD ((List.range 64).map fun j => servedByte s (64 * (pa / 64) + j))
      ∃ t, s.fetch k = .word t (BitVec.ofNat 64 (fieldAt block (pa % 64 / 8 * 8) 8)) ∧ FetchSide s t)
    ∧ (∀ x, s.fetchPage w = .error x → x = .pageFault ∨ x = .permission ∨ x = .fetchFault →
        s.fetch k = .raised (s.raise k { cause := 0x16, mask := w.exec, addr := w.pc }))
    ∧ (s.fetchPage w = .error .format → s.fetch k = .raised (s.raise k { cause := 0x17, mask := w.exec, addr := w.pc }))
    ∧ (s.fetchPage w = .error .stage2 → s.fetch k = .raised (s.raise k { cause := 0x18, mask := w.exec, addr := w.pc })))

/-- R292, R293: a quarter issues one instruction of one of its eligible waves a cc, whenever it has any: a wave of age 512 or more, the
oldest first; then the highest priority class, in it a wave of age N or more, the oldest first; then the least launch slack; then the
oldest; on a tie the lowest slot. -/
def Obligations.IssueOrder : Prop :=
  ∀ (s : State) (n : Nat), (∀ g, (s.group g).slackInit ≤ 1023) →
    let inQuarter (q j : Nat) : Prop := j < s.waves.length ∧ (s.wave j).resident = true ∧ s.coreOf (s.wave j) = q / 4 ∧ (s.wave j).quarter = q % 4
    let waited (j : Nat) : Nat := s.roomSince (s.wave j) (s.peek j)
    let age (j : Nat) : Nat := s.cc - max (max (s.wave j).lastIssue (s.wave j).eligibleSince) (waited j)
    let prio (j : Nat) : Nat := (s.group (s.wave j).group).prio
    let slack (j : Nat) : Nat := (s.group (s.wave j).group).slackInit - (s.cc - (s.group (s.wave j).group).dispatchCc) / 4
    (∀ q k, s.nextIssue n = some (q, k) → n ≤ q ∧ q < 768 ∧ inQuarter q k ∧ s.eligible k = true
      ∧ (∀ r j, n ≤ r → r < q → inQuarter r j → s.eligible j = false)
      ∧ ∀ j, inQuarter q j → s.eligible j = true → age j ≤ 2 ^ 40 → age k ≤ 2 ^ 40 →
        (s.wave j).slot < 64 → (s.wave k).slot < 64 →
        let count := (s.quarterWaves q).length
        (512 ≤ age j → age j ≤ age k)
        ∧ (age k < 512 → prio j ≤ prio k)
        ∧ (age k < 512 → prio j = prio k → count ≤ age j → age j ≤ age k)
        ∧ (age k < 512 → age k < count → prio j = prio k → slack k ≤ slack j ∧ (slack j = slack k → age j ≤ age k))
        ∧ (age j = age k → (512 ≤ age k ∨ prio j = prio k ∧ (count ≤ age k ∨ slack j = slack k)) →
            (s.wave k).slot ≤ (s.wave j).slot))
    ∧ (s.nextIssue n = none → ∀ q j, n ≤ q → q < 768 → inQuarter q j → s.eligible j = false)

/-- R63 and the encodings that the spec prints: words that decode to the instructions beside them, and words that do not decode. -/
def Obligations.DecodeWords : Prop :=
  decodeWord 0x1000301020000000 = .ok (.sadd ⟨false, 3, 1, .r 2⟩)
  ∧ decodeWord 0x1C00500FFFFFFFFE = .ok (.smovi ⟨false, 5, 0, -2⟩)
  ∧ decodeWord 0x1D00505012345678 = .ok (.smovhi ⟨false, 5, 5, 0x12345678⟩)
  ∧ decodeWord 0x07010050FFFFFFFD = .ok (.brc false .nez 5 (-3))
  ∧ decodeWord 0x0802001000000005 = .ok (.brv false .none 1 5)
  ∧ decodeWord 0x0200000000000002 = .ok (.trap false 2)
  ∧ decodeWord 0x0402B39000000000 = .ok (.swr ⟨false, 0x2B, 57⟩)
  ∧ decodeWord 0x8500703000000000 = .ok (.perfrd ⟨true, 7, 3, false⟩)
  ∧ decodeWord 0x3020A0B030000182 = .ok (.vadd ⟨false, false, 2, 10, 11, .s 3, 0, .i16x4, .rn, true, false⟩)
  ∧ decodeWord 0x3200405060403008 = .ok (.vfma ⟨false, false, 0, 4, 5, .v 6, 4, .f32x2, .rn, false, false⟩)
  ∧ decodeWord 0xBA01415000010008 = .ok (.vxred .add ⟨true, false, 0, 20, 21, .v 0, 0, .f32x2, .rn, false, false⟩)
  ∧ decodeWord 0x370060405000A008 = .ok (.vcvt ⟨false, false, 0, 6, 4, 5, .bf16x4, .f32x2, .rn, false, false⟩)
  ∧ decodeWord 0xE2B08020700B3002 = .ok (.vld ⟨true, true, 3, 8, 2, 7, 0, .wave, 0, .b64, 3, false, true, 2⟩)
  ∧ decodeWord 0x6400700030015FFE = .ok (.vldx ⟨false, false, 0, 7, 0, 3, 0, .wave, 0, .i16, 1, false, false, -2⟩)
  ∧ decodeWord 0x6800503000C83001 = .ok (.lda ⟨false, false, 0, 5, 3, 0, 0, .device, 0, .b64, 0, false, true, 1⟩)
  ∧ decodeWord 0x6D00401020C30000 = .ok (.vatom ⟨false, false, 0, 4, 1, 2, 0, .device, 0, .add, true, true, false, 0⟩)
  ∧ decodeWord 0x70000000FFFFFFFC = .ok (.txbegin false (-4))
  ∧ decodeWord 0x7400000000001007 = .ok (.vrels false 7)
  ∧ decodeWord 0x7800104050604184 = .ok (.mmaBp ⟨false, 1, 4, 5, 6, 2, 4, 8, true⟩)
  ∧ decodeWord 0xF900802030C10180 = .ok (.mrd ⟨true, 8, 2, 3, 12, 0, 128, true⟩)
  ∧ decodeWord 0x7B00A0B000006002 = .ok (.tcopy ⟨false, 10, 11, 3, 2⟩)
  ∧ decodeWord 0x7B0000A000050006 = .ok (.cyield false 10 6)
  ∧ decodeWord 0x7C00207100002003 = .ok (.emit ⟨false, false, 0, 2, 7, 16, 1, 3⟩)
  ∧ decodeWord 0 = .illegalOpcode
  ∧ decodeWord 0x1000301020001001 = .reservedField

/-- R44-R64: decoding and encoding agree: every well-formed instruction of the table has a word, and that word decodes to it and to
nothing else; a word that decodes is the word of its instruction, which is well formed. -/
def Obligations.DecodeEncode : Prop :=
  (∀ i : Instr, wellFormed i = true → ∀ w, encode i = some w → decodeWord w = .ok i)
  ∧ (∀ w i, decodeWord w = .ok i → wellFormed i = true ∧ encode i = some w)
  ∧ ∀ i j : Instr, wellFormed i = true → wellFormed j = true → encode i ≠ none → encode i = encode j → i = j

/-! ### The state after reset, and what every step keeps -/

/-- R7, R329, R351, R356, R359, R380, R386, R396, R405, R407, R416: the values that the spec gives for reset, and a machine in which nothing runs;
the values that the model chose stand in log 3 and in no clause here. -/
def Obligations.ResetValues : Prop :=
  let s := State.reset
  MemCanonical s ∧ CachesWf s ∧ Clean s ∧ (∀ pa, Memory.read s.mem.home pa = 0)
  ∧ s.waves = [] ∧ s.launches = [] ∧ s.ctxs = [] ∧ s.agenda = [] ∧ s.cp.fatal = false ∧ s.cc = 0
  ∧ (∀ p, p < 24 → (s.pair p).mode = .independent ∧ (s.pair p).mismatches = 0 ∧ (s.pair p).rollbacks = 0 ∧ (s.pair p).offlines = 0)
  ∧ s.readBar0 0 0x08 = 0 ∧ s.readBar0 0 0x28 = 110 + 256 * 420
  ∧ s.readBar0 0 0x20 &&& 0xFFFFFFFFFFFFFF00 = 4 * 256
  ∧ (∀ fn, fn < 16 → s.readBar0 fn 0x30 = 0 ∧ s.readBar0 fn 0x38 = 0 ∧ s.readBar0 fn 0 &&& 0xFFFFFFFFFF00FFFF = BitVec.ofNat 64 (9 + 2 ^ 24 * fn))
  ∧ s.readBar0 0 0x40 = 0 ∧ s.rel.rseq = 1 ∧ s.readBar0 0 0x20020 = 0 ∧ s.trace.tseq = 0 ∧ s.readBar0 0 0x50010 = 0
  ∧ (∀ n, n < 3 → s.readBar0 0 (0x60008 + 8 * n) = 0)
  ∧ (∀ fn q, fn < 16 → q < 8 → s.readBar0 fn (0x10000 + 0x40 * q + 8) = 6 ∧ s.readBar0 fn (0x10000 + 0x40 * q + 0x10) = 0
      ∧ s.readBar0 fn (0x10000 + 0x40 * q + 0x18) = 0)

/-- Every step keeps the canonical form of the byte stores, so that equal memories stay equal data (log 2). -/
def Obligations.StepKeepsMemory : Prop :=
  ∀ s t : State, MemCanonical s → step s = .next t → MemCanonical t
end

