-- ==== Sys2Proof/Laws/Memory.lean ====
section
/-! SUPPORT. Byte stores: reading after writing, and that every operation keeps the canonical form. -/

namespace Sys2Proof.Machine

/-! ### The canonical form -/

theorem Memory.wfFrom_mono {lo lo' : Nat} (h : lo ≤ lo') : ∀ {m : Memory}, wfFrom lo' m = true → wfFrom lo m = true
  | [], _ => rfl
  | (k, b) :: t, w => by
    simp only [wfFrom, Bool.and_eq_true, decide_eq_true_eq] at w ⊢
    exact ⟨⟨Nat.le_trans h w.1.1, w.1.2⟩, w.2⟩

theorem Memory.wfFrom_cell {lo a : Nat} (b : Byte) {t : Memory} (ha : lo ≤ a) (ht : wfFrom (a + 1) t = true) :
    wfFrom lo (Memory.cell a b t) = true := by
  unfold Memory.cell
  split
  · exact wfFrom_mono (Nat.le_succ_of_le ha) ht
  · rename_i hb
    simpa [wfFrom, ha, ht] using hb

theorem Memory.wfFrom_write {lo a : Nat} (b : Byte) (ha : lo ≤ a) :
    ∀ {m : Memory}, wfFrom lo m = true → wfFrom lo (m.write a b) = true
  | [], _ => wfFrom_cell b ha rfl
  | (k, x) :: t, w => by
    have w' := w
    simp only [wfFrom, Bool.and_eq_true, decide_eq_true_eq] at w
    obtain ⟨⟨hk, hx⟩, ht⟩ := w
    unfold Memory.write
    split
    · rename_i e; subst e; exact wfFrom_cell b ha ht
    · split
      · rename_i hne hlt
        refine wfFrom_cell b ha ?_
        simp only [wfFrom, Bool.and_eq_true, decide_eq_true_eq]
        exact ⟨⟨hlt, hx⟩, ht⟩
      · simp only [wfFrom, Bool.and_eq_true, decide_eq_true_eq]
        exact ⟨⟨hk, hx⟩, wfFrom_write b (by omega) ht⟩

/-- A write keeps the canonical form. -/
theorem Memory.wf_write {m : Memory} (a : Nat) (b : Byte) (h : m.wf = true) : (m.write a b).wf = true :=
  wfFrom_write b (Nat.zero_le a) h

theorem Memory.wf_writeN {m : Memory} (a : Nat) (l : List Byte) (h : m.wf = true) : (m.writeN a l).wf = true := by
  induction l generalizing m a with
  | nil => exact h
  | cons b t ih => exact ih _ (wf_write a b h)

theorem Memory.wf_writeAll {m : Memory} (l : List (Nat × Byte)) (h : m.wf = true) : (m.writeAll l).wf = true := by
  unfold Memory.writeAll
  induction l generalizing m with
  | nil => exact h
  | cons e t ih => exact ih (wf_write e.1 e.2 h)

theorem Memory.wfFrom_filter (p : Host.Cell → Bool) {lo : Nat} : ∀ {m : Memory}, wfFrom lo m = true → wfFrom lo (m.filter p) = true
  | [], _ => rfl
  | (k, b) :: t, w => by
    simp only [wfFrom, Bool.and_eq_true, decide_eq_true_eq] at w
    have ih := wfFrom_filter p w.2
    by_cases hp : p (k, b)
    · simp [hp, wfFrom, w.1.1, ih]
      simpa using w.1.2
    · simpa [hp] using wfFrom_mono (by omega) ih

/-- Dropping cells, as a reset scrubs frames, keeps the canonical form. -/
theorem Memory.wf_filter (p : Host.Cell → Bool) {m : Memory} (h : m.wf = true) : Memory.wf (m.filter p) = true :=
  wfFrom_filter p h

/-! ### Reading -/

/-- Below the lowest address of a canonical store every byte reads 0. -/
theorem Memory.read_below {m : Memory} {lo a : Nat} (h : wfFrom lo m = true) (ha : a < lo) : m.read a = 0 := by
  cases m with
  | nil => rfl
  | cons c t =>
    obtain ⟨k, b⟩ := c
    simp only [wfFrom, Bool.and_eq_true, decide_eq_true_eq] at h
    have : ¬ k = a := by omega
    have : a < k := by omega
    simp [Memory.read, *]

theorem Memory.read_cell (a : Nat) (b : Byte) (t : Memory) (j : Nat) (ht : wfFrom (a + 1) t = true) :
    (Memory.cell a b t).read j = if j = a then b else t.read j := by
  unfold Memory.cell
  split
  · rename_i hb
    split
    · rename_i e; subst e; rw [hb]; exact read_below ht (by omega)
    · rfl
  · by_cases e : a = j
    · simp [Memory.read, e]
    · have e' : ¬ j = a := fun h => e h.symm
      simp only [Memory.read, e, e', if_false]
      split
      · exact (read_below ht (by omega)).symm
      · rfl

theorem Memory.read_write_from {lo : Nat} (a : Nat) (b : Byte) (j : Nat) :
    ∀ {m : Memory}, wfFrom lo m = true → (m.write a b).read j = if j = a then b else m.read j
  | [], _ => read_cell a b [] j rfl
  | (k, x) :: t, w => by
    have w' := w
    simp only [wfFrom, Bool.and_eq_true, decide_eq_true_eq] at w
    unfold Memory.write
    split
    · rename_i e; subst e
      rw [read_cell k b t j w.2]
      by_cases e : j = k
      · simp [e]
      · have : ¬ k = j := fun h => e h.symm
        simp only [e, if_false, Memory.read, this]
        split
        · exact read_below w.2 (by omega)
        · rfl
    · split
      · rename_i hne hlt
        refine read_cell a b _ j ?_
        simp only [wfFrom, Bool.and_eq_true, decide_eq_true_eq]
        exact ⟨⟨by omega, w.1.2⟩, w.2⟩
      · rename_i hne hle
        have ih := read_write_from a b j w.2
        by_cases e : k = j
        · have : ¬ j = a := by omega
          simp [Memory.read, e, this]
        · simp only [Memory.read, e, if_false, ih]
          by_cases e2 : j < k
          · have : ¬ j = a := by omega
            simp [e2, this]
          · simp [e2]

/-- The law of a byte store: the byte written is read back, and every other byte is as before. -/
theorem Memory.read_write {m : Memory} (a : Nat) (b : Byte) (j : Nat) (h : m.wf = true) :
    (m.write a b).read j = if j = a then b else m.read j := read_write_from a b j h

theorem Memory.read_writeN_of_lt {m : Memory} (a : Nat) (l : List Byte) (j : Nat) (h : m.wf = true) (hj : j < a) :
    (m.writeN a l).read j = m.read j := by
  induction l generalizing m a with
  | nil => rfl
  | cons b t ih =>
    have : ¬ j = a := by omega
    rw [Memory.writeN, ih _ (wf_write a b h) (by omega), read_write _ _ _ h, if_neg this]

/-- Consecutive bytes written from `a` upward are read back; every other byte is as before. -/
theorem Memory.read_writeN {m : Memory} (a : Nat) (l : List Byte) (j : Nat) (h : m.wf = true) :
    (m.writeN a l).read j = if a ≤ j ∧ j < a + l.length then l.getD (j - a) 0 else m.read j := by
  induction l generalizing m a with
  | nil => rw [Memory.writeN, if_neg (by simp)]
  | cons b t ih =>
    rw [Memory.writeN, ih _ (wf_write a b h), read_write _ _ _ h]
    by_cases e : j = a
    · subst e; rw [if_neg (by omega), if_pos rfl, if_pos (by simp)]; simp
    · by_cases h1 : a + 1 ≤ j ∧ j < a + 1 + t.length
      · have h2 : a ≤ j ∧ j < a + (b :: t).length := by simp only [List.length_cons]; omega
        rw [if_pos h1, if_pos h2, show j - a = (j - (a + 1)) + 1 from by omega]
        simp
      · have h2 : ¬ (a ≤ j ∧ j < a + (b :: t).length) := by simp only [List.length_cons]; omega
        rw [if_neg h1, if_neg h2, if_neg e]

/-- Separate bytes written in order: an address that none of them names is as before. -/
theorem Memory.read_writeAll_of_notMem {m : Memory} (l : List (Nat × Byte)) (j : Nat) (h : m.wf = true)
    (hj : ∀ e ∈ l, e.1 ≠ j) : (m.writeAll l).read j = m.read j := by
  unfold Memory.writeAll
  induction l generalizing m with
  | nil => rfl
  | cons e t ih =>
    have hne : ¬ j = e.1 := fun x => hj e (by simp) x.symm
    rw [List.foldl_cons, ih (wf_write _ _ h) fun x hx => hj x (by simp [hx]), read_write _ _ _ h, if_neg hne]

/-! ### Equal stores are equal data -/

theorem Memory.ext_from {lo : Nat} : ∀ {m n : Memory}, wfFrom lo m = true → wfFrom lo n = true → (∀ a, m.read a = n.read a) → m = n
  | [], [], _, _, _ => rfl
  | [], (k, b) :: t, _, hn, h => by
    simp only [wfFrom, Bool.and_eq_true, bne_iff_ne] at hn
    have := h k; simp [Memory.read] at this; exact absurd this.symm hn.1.2
  | (k, b) :: t, [], hm, _, h => by
    simp only [wfFrom, Bool.and_eq_true, bne_iff_ne] at hm
    have := h k; simp [Memory.read] at this; exact absurd this hm.1.2
  | (k, b) :: t, (k', b') :: t', hm, hn, h => by
    simp only [wfFrom, Bool.and_eq_true, bne_iff_ne, decide_eq_true_eq] at hm hn
    have hk : k = k' := by
      rcases Nat.lt_trichotomy k k' with l | e | l
      · have := h k
        have ne : ¬ k' = k := by omega
        simp [Memory.read, ne, l] at this; exact absurd this hm.1.2
      · exact e
      · have := h k'
        have ne : ¬ k = k' := by omega
        simp [Memory.read, ne, l] at this; exact absurd this.symm hn.1.2
    subst hk
    have hb : b = b' := by have := h k; simpa [Memory.read] using this
    subst hb
    have ht : t = t' := by
      refine ext_from hm.2 hn.2 fun a => ?_
      have := h a
      by_cases e : k = a
      · subst e; rw [read_below hm.2 (by omega), read_below hn.2 (by omega)]
      · simp only [Memory.read, e, if_false] at this
        by_cases l : a < k
        · rw [read_below hm.2 (by omega), read_below hn.2 (by omega)]
        · simpa [l] using this
    rw [ht]

/-- Two canonical stores that read the same everywhere are the same list. -/
theorem Memory.ext {m n : Memory} (hm : m.wf = true) (hn : n.wf = true) (h : ∀ a, m.read a = n.read a) : m = n :=
  ext_from hm hn h

end Sys2Proof.Machine
end

