-- ==== Sys2Proof/Laws/Lists.lean ====
section
/-! SUPPORT. Lists with a default: reading after a change of one entry, and what the length becomes. -/

namespace Sys2Proof

variable {α : Type}

@[simp] theorem length_modAt (f : α → α) (l : List α) (n : Nat) : (modAt f l n).length = l.length := by
  induction l generalizing n with
  | nil => rfl
  | cons h t ih => cases n <;> simp [modAt, ih]

theorem getD_modAt_ne (f : α → α) (l : List α) {n j : Nat} (d : α) (h : j ≠ n) : (modAt f l n).getD j d = l.getD j d := by
  induction l generalizing n j with
  | nil => rfl
  | cons x t ih => cases n <;> cases j <;> simp_all [modAt]

theorem getD_modAt_self (f : α → α) (l : List α) {n : Nat} (d : α) (h : n < l.length) :
    (modAt f l n).getD n d = f (l.getD n d) := by
  induction l generalizing n with
  | nil => simp at h
  | cons x t ih => cases n <;> simp_all [modAt]

theorem modAt_oob (f : α → α) (l : List α) {n : Nat} (h : l.length ≤ n) : modAt f l n = l := by
  induction l generalizing n with
  | nil => rfl
  | cons x t ih => cases n <;> simp_all [modAt]

theorem modAt_eq_set (f : α → α) (l : List α) {n : Nat} (d : α) (h : n < l.length) : modAt f l n = l.set n (f (l.getD n d)) := by
  induction l generalizing n with
  | nil => rfl
  | cons x t ih => cases n <;> simp_all [modAt]

theorem map_modAt {β : Type} (g : α → β) (f : α → α) (l : List α) (n : Nat) (h : ∀ x, g (f x) = g x) :
    (modAt f l n).map g = l.map g := by
  induction l generalizing n with
  | nil => rfl
  | cons x t ih => cases n <;> simp_all [modAt]

theorem getD_set_self (l : List α) {n : Nat} (x d : α) (h : n < l.length) : (l.set n x).getD n d = x := by
  simp [h]

theorem getD_set_ne (l : List α) {n j : Nat} (x d : α) (h : j ≠ n) : (l.set n x).getD j d = l.getD j d := by
  simp [List.getD_eq_getElem?_getD, List.getElem?_set_ne (Ne.symm h)]

@[simp] theorem getD_putAt_self (d : α) (l : List α) (n : Nat) (x : α) : (putAt d l n x).getD n d = x := by
  induction l generalizing n with
  | nil => induction n with
    | zero => rfl
    | succ n ih => simpa [putAt] using ih
  | cons h t ih => cases n <;> simp_all [putAt]

theorem getD_putAt_ne (d : α) (l : List α) {n j : Nat} (x : α) (h : j ≠ n) : (putAt d l n x).getD j d = l.getD j d := by
  induction l generalizing n j with
  | nil =>
    induction n generalizing j with
    | zero => cases j <;> simp_all [putAt]
    | succ n ih =>
      cases j with
      | zero => simp [putAt]
      | succ j => simpa [putAt] using ih (j := j) (by omega)
  | cons y t ih => cases n <;> cases j <;> simp_all [putAt]

theorem length_putAt (d : α) (l : List α) (n : Nat) (x : α) (h : n < l.length) : (putAt d l n x).length = l.length := by
  induction l generalizing n with
  | nil => simp at h
  | cons y t ih => cases n <;> simp_all [putAt]

/-- Reading with another default inside the list. -/
theorem getD_putAt_self' (d e : α) (l : List α) (n : Nat) (x : α) : (putAt d l n x).getD n e = x := by
  induction l generalizing n with
  | nil => induction n with
    | zero => rfl
    | succ n ih => simpa [putAt] using ih
  | cons h t ih => cases n <;> simp_all [putAt]

theorem getD_map' {β : Type} (f : α → β) (l : List α) (d : α) (n : Nat) : (l.map f).getD n (f d) = f (l.getD n d) := by
  induction l generalizing n with
  | nil => rfl
  | cons x t ih => cases n <;> simp_all

theorem nodup_eraseDups [DecidableEq α] (l : List α) : l.eraseDups.Nodup := by
  have gen : ∀ (n : Nat) (l : List α), l.length ≤ n → l.eraseDups.Nodup := by
    intro n
    induction n with
    | zero => intro l h; cases l with
      | nil => simp
      | cons a t => simp at h
    | succ n ih =>
      intro l h
      cases l with
      | nil => simp
      | cons a t =>
        rw [List.eraseDups_cons, List.nodup_cons]
        refine ⟨by simp [List.mem_eraseDups], ih _ ?_⟩
        exact Nat.le_trans (List.length_filter_le _ _) (by simpa using h)
  exact gen _ l (Nat.le_refl _)

end Sys2Proof
end

