-- ==== Sys2Proof/Laws/State.lean ====
section
/-! SUPPORT. One lemma per field per update of the state: what an update gives its own field, and that it leaves every other
field alone. -/

namespace Sys2Proof.Machine

variable (s : State)

/-! ### setWave -/

@[simp] theorem State.setWave_waves (k : Nat) (w : Wave) : (s.setWave k w).waves = s.waves.set k w := rfl
@[simp] theorem State.setWave_groups (k : Nat) (w : Wave) : (s.setWave k w).groups = s.groups := rfl
@[simp] theorem State.setWave_ctxs (k : Nat) (w : Wave) : (s.setWave k w).ctxs = s.ctxs := rfl
@[simp] theorem State.setWave_launches (k : Nat) (w : Wave) : (s.setWave k w).launches = s.launches := rfl
@[simp] theorem State.setWave_graphs (k : Nat) (w : Wave) : (s.setWave k w).graphs = s.graphs := rfl
@[simp] theorem State.setWave_images (k : Nat) (w : Wave) : (s.setWave k w).images = s.images := rfl
@[simp] theorem State.setWave_cores (k : Nat) (w : Wave) : (s.setWave k w).cores = s.cores := rfl
@[simp] theorem State.setWave_twins (k : Nat) (w : Wave) : (s.setWave k w).twins = s.twins := rfl
@[simp] theorem State.setWave_copies (k : Nat) (w : Wave) : (s.setWave k w).copies = s.copies := rfl
@[simp] theorem State.setWave_saves (k : Nat) (w : Wave) : (s.setWave k w).saves = s.saves := rfl
@[simp] theorem State.setWave_mem (k : Nat) (w : Wave) : (s.setWave k w).mem = s.mem := rfl
@[simp] theorem State.setWave_atomics (k : Nat) (w : Wave) : (s.setWave k w).atomics = s.atomics := rfl
@[simp] theorem State.setWave_emits (k : Nat) (w : Wave) : (s.setWave k w).emits = s.emits := rfl
@[simp] theorem State.setWave_joined (k : Nat) (w : Wave) : (s.setWave k w).joined = s.joined := rfl
@[simp] theorem State.setWave_cp (k : Nat) (w : Wave) : (s.setWave k w).cp = s.cp := rfl
@[simp] theorem State.setWave_jalti (k : Nat) (w : Wave) : (s.setWave k w).jalti = s.jalti := rfl
@[simp] theorem State.setWave_rel (k : Nat) (w : Wave) : (s.setWave k w).rel = s.rel := rfl
@[simp] theorem State.setWave_trace (k : Nat) (w : Wave) : (s.setWave k w).trace = s.trace := rfl
@[simp] theorem State.setWave_fab (k : Nat) (w : Wave) : (s.setWave k w).fab = s.fab := rfl
@[simp] theorem State.setWave_sec (k : Nat) (w : Wave) : (s.setWave k w).sec = s.sec := rfl
@[simp] theorem State.setWave_cc (k : Nat) (w : Wave) : (s.setWave k w).cc = s.cc := rfl
@[simp] theorem State.setWave_lc (k : Nat) (w : Wave) : (s.setWave k w).lc = s.lc := rfl
@[simp] theorem State.setWave_lcPart (k : Nat) (w : Wave) : (s.setWave k w).lcPart = s.lcPart := rfl
@[simp] theorem State.setWave_lcEnd (k : Nat) (w : Wave) : (s.setWave k w).lcEnd = s.lcEnd := rfl
@[simp] theorem State.setWave_epochAt (k : Nat) (w : Wave) : (s.setWave k w).epochAt = s.epochAt := rfl
@[simp] theorem State.setWave_tag (k : Nat) (w : Wave) : (s.setWave k w).tag = s.tag := rfl
@[simp] theorem State.setWave_order (k : Nat) (w : Wave) : (s.setWave k w).order = s.order := rfl
@[simp] theorem State.setWave_agenda (k : Nat) (w : Wave) : (s.setWave k w).agenda = s.agenda := rfl
@[simp] theorem State.setWave_cur (k : Nat) (w : Wave) : (s.setWave k w).cur = s.cur := rfl
@[simp] theorem State.setWave_turn (k : Nat) (w : Wave) : (s.setWave k w).turn = s.turn := rfl
@[simp] theorem State.setWave_free (k : Nat) (w : Wave) : (s.setWave k w).free = s.free := rfl

/-! ### modWave -/

@[simp] theorem State.modWave_waves (k : Nat) (f : Wave → Wave) : (s.modWave k f).waves = modAt f s.waves k := rfl
@[simp] theorem State.modWave_groups (k : Nat) (f : Wave → Wave) : (s.modWave k f).groups = s.groups := rfl
@[simp] theorem State.modWave_ctxs (k : Nat) (f : Wave → Wave) : (s.modWave k f).ctxs = s.ctxs := rfl
@[simp] theorem State.modWave_launches (k : Nat) (f : Wave → Wave) : (s.modWave k f).launches = s.launches := rfl
@[simp] theorem State.modWave_graphs (k : Nat) (f : Wave → Wave) : (s.modWave k f).graphs = s.graphs := rfl
@[simp] theorem State.modWave_images (k : Nat) (f : Wave → Wave) : (s.modWave k f).images = s.images := rfl
@[simp] theorem State.modWave_cores (k : Nat) (f : Wave → Wave) : (s.modWave k f).cores = s.cores := rfl
@[simp] theorem State.modWave_twins (k : Nat) (f : Wave → Wave) : (s.modWave k f).twins = s.twins := rfl
@[simp] theorem State.modWave_copies (k : Nat) (f : Wave → Wave) : (s.modWave k f).copies = s.copies := rfl
@[simp] theorem State.modWave_saves (k : Nat) (f : Wave → Wave) : (s.modWave k f).saves = s.saves := rfl
@[simp] theorem State.modWave_mem (k : Nat) (f : Wave → Wave) : (s.modWave k f).mem = s.mem := rfl
@[simp] theorem State.modWave_atomics (k : Nat) (f : Wave → Wave) : (s.modWave k f).atomics = s.atomics := rfl
@[simp] theorem State.modWave_emits (k : Nat) (f : Wave → Wave) : (s.modWave k f).emits = s.emits := rfl
@[simp] theorem State.modWave_joined (k : Nat) (f : Wave → Wave) : (s.modWave k f).joined = s.joined := rfl
@[simp] theorem State.modWave_cp (k : Nat) (f : Wave → Wave) : (s.modWave k f).cp = s.cp := rfl
@[simp] theorem State.modWave_jalti (k : Nat) (f : Wave → Wave) : (s.modWave k f).jalti = s.jalti := rfl
@[simp] theorem State.modWave_rel (k : Nat) (f : Wave → Wave) : (s.modWave k f).rel = s.rel := rfl
@[simp] theorem State.modWave_trace (k : Nat) (f : Wave → Wave) : (s.modWave k f).trace = s.trace := rfl
@[simp] theorem State.modWave_fab (k : Nat) (f : Wave → Wave) : (s.modWave k f).fab = s.fab := rfl
@[simp] theorem State.modWave_sec (k : Nat) (f : Wave → Wave) : (s.modWave k f).sec = s.sec := rfl
@[simp] theorem State.modWave_cc (k : Nat) (f : Wave → Wave) : (s.modWave k f).cc = s.cc := rfl
@[simp] theorem State.modWave_lc (k : Nat) (f : Wave → Wave) : (s.modWave k f).lc = s.lc := rfl
@[simp] theorem State.modWave_lcPart (k : Nat) (f : Wave → Wave) : (s.modWave k f).lcPart = s.lcPart := rfl
@[simp] theorem State.modWave_lcEnd (k : Nat) (f : Wave → Wave) : (s.modWave k f).lcEnd = s.lcEnd := rfl
@[simp] theorem State.modWave_epochAt (k : Nat) (f : Wave → Wave) : (s.modWave k f).epochAt = s.epochAt := rfl
@[simp] theorem State.modWave_tag (k : Nat) (f : Wave → Wave) : (s.modWave k f).tag = s.tag := rfl
@[simp] theorem State.modWave_order (k : Nat) (f : Wave → Wave) : (s.modWave k f).order = s.order := rfl
@[simp] theorem State.modWave_agenda (k : Nat) (f : Wave → Wave) : (s.modWave k f).agenda = s.agenda := rfl
@[simp] theorem State.modWave_cur (k : Nat) (f : Wave → Wave) : (s.modWave k f).cur = s.cur := rfl
@[simp] theorem State.modWave_turn (k : Nat) (f : Wave → Wave) : (s.modWave k f).turn = s.turn := rfl
@[simp] theorem State.modWave_free (k : Nat) (f : Wave → Wave) : (s.modWave k f).free = s.free := rfl

/-! ### modGroup -/

@[simp] theorem State.modGroup_waves (k : Nat) (f : Group → Group) : (s.modGroup k f).waves = s.waves := rfl
@[simp] theorem State.modGroup_groups (k : Nat) (f : Group → Group) : (s.modGroup k f).groups = modAt f s.groups k := rfl
@[simp] theorem State.modGroup_ctxs (k : Nat) (f : Group → Group) : (s.modGroup k f).ctxs = s.ctxs := rfl
@[simp] theorem State.modGroup_launches (k : Nat) (f : Group → Group) : (s.modGroup k f).launches = s.launches := rfl
@[simp] theorem State.modGroup_graphs (k : Nat) (f : Group → Group) : (s.modGroup k f).graphs = s.graphs := rfl
@[simp] theorem State.modGroup_images (k : Nat) (f : Group → Group) : (s.modGroup k f).images = s.images := rfl
@[simp] theorem State.modGroup_cores (k : Nat) (f : Group → Group) : (s.modGroup k f).cores = s.cores := rfl
@[simp] theorem State.modGroup_twins (k : Nat) (f : Group → Group) : (s.modGroup k f).twins = s.twins := rfl
@[simp] theorem State.modGroup_copies (k : Nat) (f : Group → Group) : (s.modGroup k f).copies = s.copies := rfl
@[simp] theorem State.modGroup_saves (k : Nat) (f : Group → Group) : (s.modGroup k f).saves = s.saves := rfl
@[simp] theorem State.modGroup_mem (k : Nat) (f : Group → Group) : (s.modGroup k f).mem = s.mem := rfl
@[simp] theorem State.modGroup_atomics (k : Nat) (f : Group → Group) : (s.modGroup k f).atomics = s.atomics := rfl
@[simp] theorem State.modGroup_emits (k : Nat) (f : Group → Group) : (s.modGroup k f).emits = s.emits := rfl
@[simp] theorem State.modGroup_joined (k : Nat) (f : Group → Group) : (s.modGroup k f).joined = s.joined := rfl
@[simp] theorem State.modGroup_cp (k : Nat) (f : Group → Group) : (s.modGroup k f).cp = s.cp := rfl
@[simp] theorem State.modGroup_jalti (k : Nat) (f : Group → Group) : (s.modGroup k f).jalti = s.jalti := rfl
@[simp] theorem State.modGroup_rel (k : Nat) (f : Group → Group) : (s.modGroup k f).rel = s.rel := rfl
@[simp] theorem State.modGroup_trace (k : Nat) (f : Group → Group) : (s.modGroup k f).trace = s.trace := rfl
@[simp] theorem State.modGroup_fab (k : Nat) (f : Group → Group) : (s.modGroup k f).fab = s.fab := rfl
@[simp] theorem State.modGroup_sec (k : Nat) (f : Group → Group) : (s.modGroup k f).sec = s.sec := rfl
@[simp] theorem State.modGroup_cc (k : Nat) (f : Group → Group) : (s.modGroup k f).cc = s.cc := rfl
@[simp] theorem State.modGroup_lc (k : Nat) (f : Group → Group) : (s.modGroup k f).lc = s.lc := rfl
@[simp] theorem State.modGroup_lcPart (k : Nat) (f : Group → Group) : (s.modGroup k f).lcPart = s.lcPart := rfl
@[simp] theorem State.modGroup_lcEnd (k : Nat) (f : Group → Group) : (s.modGroup k f).lcEnd = s.lcEnd := rfl
@[simp] theorem State.modGroup_epochAt (k : Nat) (f : Group → Group) : (s.modGroup k f).epochAt = s.epochAt := rfl
@[simp] theorem State.modGroup_tag (k : Nat) (f : Group → Group) : (s.modGroup k f).tag = s.tag := rfl
@[simp] theorem State.modGroup_order (k : Nat) (f : Group → Group) : (s.modGroup k f).order = s.order := rfl
@[simp] theorem State.modGroup_agenda (k : Nat) (f : Group → Group) : (s.modGroup k f).agenda = s.agenda := rfl
@[simp] theorem State.modGroup_cur (k : Nat) (f : Group → Group) : (s.modGroup k f).cur = s.cur := rfl
@[simp] theorem State.modGroup_turn (k : Nat) (f : Group → Group) : (s.modGroup k f).turn = s.turn := rfl
@[simp] theorem State.modGroup_free (k : Nat) (f : Group → Group) : (s.modGroup k f).free = s.free := rfl

/-! ### modCtx -/

@[simp] theorem State.modCtx_waves (k : Nat) (f : Context → Context) : (s.modCtx k f).waves = s.waves := rfl
@[simp] theorem State.modCtx_groups (k : Nat) (f : Context → Context) : (s.modCtx k f).groups = s.groups := rfl
@[simp] theorem State.modCtx_ctxs (k : Nat) (f : Context → Context) : (s.modCtx k f).ctxs = modAt f s.ctxs k := rfl
@[simp] theorem State.modCtx_launches (k : Nat) (f : Context → Context) : (s.modCtx k f).launches = s.launches := rfl
@[simp] theorem State.modCtx_graphs (k : Nat) (f : Context → Context) : (s.modCtx k f).graphs = s.graphs := rfl
@[simp] theorem State.modCtx_images (k : Nat) (f : Context → Context) : (s.modCtx k f).images = s.images := rfl
@[simp] theorem State.modCtx_cores (k : Nat) (f : Context → Context) : (s.modCtx k f).cores = s.cores := rfl
@[simp] theorem State.modCtx_twins (k : Nat) (f : Context → Context) : (s.modCtx k f).twins = s.twins := rfl
@[simp] theorem State.modCtx_copies (k : Nat) (f : Context → Context) : (s.modCtx k f).copies = s.copies := rfl
@[simp] theorem State.modCtx_saves (k : Nat) (f : Context → Context) : (s.modCtx k f).saves = s.saves := rfl
@[simp] theorem State.modCtx_mem (k : Nat) (f : Context → Context) : (s.modCtx k f).mem = s.mem := rfl
@[simp] theorem State.modCtx_atomics (k : Nat) (f : Context → Context) : (s.modCtx k f).atomics = s.atomics := rfl
@[simp] theorem State.modCtx_emits (k : Nat) (f : Context → Context) : (s.modCtx k f).emits = s.emits := rfl
@[simp] theorem State.modCtx_joined (k : Nat) (f : Context → Context) : (s.modCtx k f).joined = s.joined := rfl
@[simp] theorem State.modCtx_cp (k : Nat) (f : Context → Context) : (s.modCtx k f).cp = s.cp := rfl
@[simp] theorem State.modCtx_jalti (k : Nat) (f : Context → Context) : (s.modCtx k f).jalti = s.jalti := rfl
@[simp] theorem State.modCtx_rel (k : Nat) (f : Context → Context) : (s.modCtx k f).rel = s.rel := rfl
@[simp] theorem State.modCtx_trace (k : Nat) (f : Context → Context) : (s.modCtx k f).trace = s.trace := rfl
@[simp] theorem State.modCtx_fab (k : Nat) (f : Context → Context) : (s.modCtx k f).fab = s.fab := rfl
@[simp] theorem State.modCtx_sec (k : Nat) (f : Context → Context) : (s.modCtx k f).sec = s.sec := rfl
@[simp] theorem State.modCtx_cc (k : Nat) (f : Context → Context) : (s.modCtx k f).cc = s.cc := rfl
@[simp] theorem State.modCtx_lc (k : Nat) (f : Context → Context) : (s.modCtx k f).lc = s.lc := rfl
@[simp] theorem State.modCtx_lcPart (k : Nat) (f : Context → Context) : (s.modCtx k f).lcPart = s.lcPart := rfl
@[simp] theorem State.modCtx_lcEnd (k : Nat) (f : Context → Context) : (s.modCtx k f).lcEnd = s.lcEnd := rfl
@[simp] theorem State.modCtx_epochAt (k : Nat) (f : Context → Context) : (s.modCtx k f).epochAt = s.epochAt := rfl
@[simp] theorem State.modCtx_tag (k : Nat) (f : Context → Context) : (s.modCtx k f).tag = s.tag := rfl
@[simp] theorem State.modCtx_order (k : Nat) (f : Context → Context) : (s.modCtx k f).order = s.order := rfl
@[simp] theorem State.modCtx_agenda (k : Nat) (f : Context → Context) : (s.modCtx k f).agenda = s.agenda := rfl
@[simp] theorem State.modCtx_cur (k : Nat) (f : Context → Context) : (s.modCtx k f).cur = s.cur := rfl
@[simp] theorem State.modCtx_turn (k : Nat) (f : Context → Context) : (s.modCtx k f).turn = s.turn := rfl
@[simp] theorem State.modCtx_free (k : Nat) (f : Context → Context) : (s.modCtx k f).free = s.free := rfl

/-! ### modLaunch -/

@[simp] theorem State.modLaunch_waves (k : Nat) (f : Launch → Launch) : (s.modLaunch k f).waves = s.waves := rfl
@[simp] theorem State.modLaunch_groups (k : Nat) (f : Launch → Launch) : (s.modLaunch k f).groups = s.groups := rfl
@[simp] theorem State.modLaunch_ctxs (k : Nat) (f : Launch → Launch) : (s.modLaunch k f).ctxs = s.ctxs := rfl
@[simp] theorem State.modLaunch_launches (k : Nat) (f : Launch → Launch) : (s.modLaunch k f).launches = modAt f s.launches k := rfl
@[simp] theorem State.modLaunch_graphs (k : Nat) (f : Launch → Launch) : (s.modLaunch k f).graphs = s.graphs := rfl
@[simp] theorem State.modLaunch_images (k : Nat) (f : Launch → Launch) : (s.modLaunch k f).images = s.images := rfl
@[simp] theorem State.modLaunch_cores (k : Nat) (f : Launch → Launch) : (s.modLaunch k f).cores = s.cores := rfl
@[simp] theorem State.modLaunch_twins (k : Nat) (f : Launch → Launch) : (s.modLaunch k f).twins = s.twins := rfl
@[simp] theorem State.modLaunch_copies (k : Nat) (f : Launch → Launch) : (s.modLaunch k f).copies = s.copies := rfl
@[simp] theorem State.modLaunch_saves (k : Nat) (f : Launch → Launch) : (s.modLaunch k f).saves = s.saves := rfl
@[simp] theorem State.modLaunch_mem (k : Nat) (f : Launch → Launch) : (s.modLaunch k f).mem = s.mem := rfl
@[simp] theorem State.modLaunch_atomics (k : Nat) (f : Launch → Launch) : (s.modLaunch k f).atomics = s.atomics := rfl
@[simp] theorem State.modLaunch_emits (k : Nat) (f : Launch → Launch) : (s.modLaunch k f).emits = s.emits := rfl
@[simp] theorem State.modLaunch_joined (k : Nat) (f : Launch → Launch) : (s.modLaunch k f).joined = s.joined := rfl
@[simp] theorem State.modLaunch_cp (k : Nat) (f : Launch → Launch) : (s.modLaunch k f).cp = s.cp := rfl
@[simp] theorem State.modLaunch_jalti (k : Nat) (f : Launch → Launch) : (s.modLaunch k f).jalti = s.jalti := rfl
@[simp] theorem State.modLaunch_rel (k : Nat) (f : Launch → Launch) : (s.modLaunch k f).rel = s.rel := rfl
@[simp] theorem State.modLaunch_trace (k : Nat) (f : Launch → Launch) : (s.modLaunch k f).trace = s.trace := rfl
@[simp] theorem State.modLaunch_fab (k : Nat) (f : Launch → Launch) : (s.modLaunch k f).fab = s.fab := rfl
@[simp] theorem State.modLaunch_sec (k : Nat) (f : Launch → Launch) : (s.modLaunch k f).sec = s.sec := rfl
@[simp] theorem State.modLaunch_cc (k : Nat) (f : Launch → Launch) : (s.modLaunch k f).cc = s.cc := rfl
@[simp] theorem State.modLaunch_lc (k : Nat) (f : Launch → Launch) : (s.modLaunch k f).lc = s.lc := rfl
@[simp] theorem State.modLaunch_lcPart (k : Nat) (f : Launch → Launch) : (s.modLaunch k f).lcPart = s.lcPart := rfl
@[simp] theorem State.modLaunch_lcEnd (k : Nat) (f : Launch → Launch) : (s.modLaunch k f).lcEnd = s.lcEnd := rfl
@[simp] theorem State.modLaunch_epochAt (k : Nat) (f : Launch → Launch) : (s.modLaunch k f).epochAt = s.epochAt := rfl
@[simp] theorem State.modLaunch_tag (k : Nat) (f : Launch → Launch) : (s.modLaunch k f).tag = s.tag := rfl
@[simp] theorem State.modLaunch_order (k : Nat) (f : Launch → Launch) : (s.modLaunch k f).order = s.order := rfl
@[simp] theorem State.modLaunch_agenda (k : Nat) (f : Launch → Launch) : (s.modLaunch k f).agenda = s.agenda := rfl
@[simp] theorem State.modLaunch_cur (k : Nat) (f : Launch → Launch) : (s.modLaunch k f).cur = s.cur := rfl
@[simp] theorem State.modLaunch_turn (k : Nat) (f : Launch → Launch) : (s.modLaunch k f).turn = s.turn := rfl
@[simp] theorem State.modLaunch_free (k : Nat) (f : Launch → Launch) : (s.modLaunch k f).free = s.free := rfl

/-! ### modGraph -/

@[simp] theorem State.modGraph_waves (k : Nat) (f : Graph → Graph) : (s.modGraph k f).waves = s.waves := rfl
@[simp] theorem State.modGraph_groups (k : Nat) (f : Graph → Graph) : (s.modGraph k f).groups = s.groups := rfl
@[simp] theorem State.modGraph_ctxs (k : Nat) (f : Graph → Graph) : (s.modGraph k f).ctxs = s.ctxs := rfl
@[simp] theorem State.modGraph_launches (k : Nat) (f : Graph → Graph) : (s.modGraph k f).launches = s.launches := rfl
@[simp] theorem State.modGraph_graphs (k : Nat) (f : Graph → Graph) : (s.modGraph k f).graphs = modAt f s.graphs k := rfl
@[simp] theorem State.modGraph_images (k : Nat) (f : Graph → Graph) : (s.modGraph k f).images = s.images := rfl
@[simp] theorem State.modGraph_cores (k : Nat) (f : Graph → Graph) : (s.modGraph k f).cores = s.cores := rfl
@[simp] theorem State.modGraph_twins (k : Nat) (f : Graph → Graph) : (s.modGraph k f).twins = s.twins := rfl
@[simp] theorem State.modGraph_copies (k : Nat) (f : Graph → Graph) : (s.modGraph k f).copies = s.copies := rfl
@[simp] theorem State.modGraph_saves (k : Nat) (f : Graph → Graph) : (s.modGraph k f).saves = s.saves := rfl
@[simp] theorem State.modGraph_mem (k : Nat) (f : Graph → Graph) : (s.modGraph k f).mem = s.mem := rfl
@[simp] theorem State.modGraph_atomics (k : Nat) (f : Graph → Graph) : (s.modGraph k f).atomics = s.atomics := rfl
@[simp] theorem State.modGraph_emits (k : Nat) (f : Graph → Graph) : (s.modGraph k f).emits = s.emits := rfl
@[simp] theorem State.modGraph_joined (k : Nat) (f : Graph → Graph) : (s.modGraph k f).joined = s.joined := rfl
@[simp] theorem State.modGraph_cp (k : Nat) (f : Graph → Graph) : (s.modGraph k f).cp = s.cp := rfl
@[simp] theorem State.modGraph_jalti (k : Nat) (f : Graph → Graph) : (s.modGraph k f).jalti = s.jalti := rfl
@[simp] theorem State.modGraph_rel (k : Nat) (f : Graph → Graph) : (s.modGraph k f).rel = s.rel := rfl
@[simp] theorem State.modGraph_trace (k : Nat) (f : Graph → Graph) : (s.modGraph k f).trace = s.trace := rfl
@[simp] theorem State.modGraph_fab (k : Nat) (f : Graph → Graph) : (s.modGraph k f).fab = s.fab := rfl
@[simp] theorem State.modGraph_sec (k : Nat) (f : Graph → Graph) : (s.modGraph k f).sec = s.sec := rfl
@[simp] theorem State.modGraph_cc (k : Nat) (f : Graph → Graph) : (s.modGraph k f).cc = s.cc := rfl
@[simp] theorem State.modGraph_lc (k : Nat) (f : Graph → Graph) : (s.modGraph k f).lc = s.lc := rfl
@[simp] theorem State.modGraph_lcPart (k : Nat) (f : Graph → Graph) : (s.modGraph k f).lcPart = s.lcPart := rfl
@[simp] theorem State.modGraph_lcEnd (k : Nat) (f : Graph → Graph) : (s.modGraph k f).lcEnd = s.lcEnd := rfl
@[simp] theorem State.modGraph_epochAt (k : Nat) (f : Graph → Graph) : (s.modGraph k f).epochAt = s.epochAt := rfl
@[simp] theorem State.modGraph_tag (k : Nat) (f : Graph → Graph) : (s.modGraph k f).tag = s.tag := rfl
@[simp] theorem State.modGraph_order (k : Nat) (f : Graph → Graph) : (s.modGraph k f).order = s.order := rfl
@[simp] theorem State.modGraph_agenda (k : Nat) (f : Graph → Graph) : (s.modGraph k f).agenda = s.agenda := rfl
@[simp] theorem State.modGraph_cur (k : Nat) (f : Graph → Graph) : (s.modGraph k f).cur = s.cur := rfl
@[simp] theorem State.modGraph_turn (k : Nat) (f : Graph → Graph) : (s.modGraph k f).turn = s.turn := rfl
@[simp] theorem State.modGraph_free (k : Nat) (f : Graph → Graph) : (s.modGraph k f).free = s.free := rfl

/-! ### modCore -/

@[simp] theorem State.modCore_waves (k : Nat) (f : Core → Core) : (s.modCore k f).waves = s.waves := rfl
@[simp] theorem State.modCore_groups (k : Nat) (f : Core → Core) : (s.modCore k f).groups = s.groups := rfl
@[simp] theorem State.modCore_ctxs (k : Nat) (f : Core → Core) : (s.modCore k f).ctxs = s.ctxs := rfl
@[simp] theorem State.modCore_launches (k : Nat) (f : Core → Core) : (s.modCore k f).launches = s.launches := rfl
@[simp] theorem State.modCore_graphs (k : Nat) (f : Core → Core) : (s.modCore k f).graphs = s.graphs := rfl
@[simp] theorem State.modCore_images (k : Nat) (f : Core → Core) : (s.modCore k f).images = s.images := rfl
@[simp] theorem State.modCore_cores (k : Nat) (f : Core → Core) : (s.modCore k f).cores = modAt f s.cores k := rfl
@[simp] theorem State.modCore_twins (k : Nat) (f : Core → Core) : (s.modCore k f).twins = s.twins := rfl
@[simp] theorem State.modCore_copies (k : Nat) (f : Core → Core) : (s.modCore k f).copies = s.copies := rfl
@[simp] theorem State.modCore_saves (k : Nat) (f : Core → Core) : (s.modCore k f).saves = s.saves := rfl
@[simp] theorem State.modCore_mem (k : Nat) (f : Core → Core) : (s.modCore k f).mem = s.mem := rfl
@[simp] theorem State.modCore_atomics (k : Nat) (f : Core → Core) : (s.modCore k f).atomics = s.atomics := rfl
@[simp] theorem State.modCore_emits (k : Nat) (f : Core → Core) : (s.modCore k f).emits = s.emits := rfl
@[simp] theorem State.modCore_joined (k : Nat) (f : Core → Core) : (s.modCore k f).joined = s.joined := rfl
@[simp] theorem State.modCore_cp (k : Nat) (f : Core → Core) : (s.modCore k f).cp = s.cp := rfl
@[simp] theorem State.modCore_jalti (k : Nat) (f : Core → Core) : (s.modCore k f).jalti = s.jalti := rfl
@[simp] theorem State.modCore_rel (k : Nat) (f : Core → Core) : (s.modCore k f).rel = s.rel := rfl
@[simp] theorem State.modCore_trace (k : Nat) (f : Core → Core) : (s.modCore k f).trace = s.trace := rfl
@[simp] theorem State.modCore_fab (k : Nat) (f : Core → Core) : (s.modCore k f).fab = s.fab := rfl
@[simp] theorem State.modCore_sec (k : Nat) (f : Core → Core) : (s.modCore k f).sec = s.sec := rfl
@[simp] theorem State.modCore_cc (k : Nat) (f : Core → Core) : (s.modCore k f).cc = s.cc := rfl
@[simp] theorem State.modCore_lc (k : Nat) (f : Core → Core) : (s.modCore k f).lc = s.lc := rfl
@[simp] theorem State.modCore_lcPart (k : Nat) (f : Core → Core) : (s.modCore k f).lcPart = s.lcPart := rfl
@[simp] theorem State.modCore_lcEnd (k : Nat) (f : Core → Core) : (s.modCore k f).lcEnd = s.lcEnd := rfl
@[simp] theorem State.modCore_epochAt (k : Nat) (f : Core → Core) : (s.modCore k f).epochAt = s.epochAt := rfl
@[simp] theorem State.modCore_tag (k : Nat) (f : Core → Core) : (s.modCore k f).tag = s.tag := rfl
@[simp] theorem State.modCore_order (k : Nat) (f : Core → Core) : (s.modCore k f).order = s.order := rfl
@[simp] theorem State.modCore_agenda (k : Nat) (f : Core → Core) : (s.modCore k f).agenda = s.agenda := rfl
@[simp] theorem State.modCore_cur (k : Nat) (f : Core → Core) : (s.modCore k f).cur = s.cur := rfl
@[simp] theorem State.modCore_turn (k : Nat) (f : Core → Core) : (s.modCore k f).turn = s.turn := rfl
@[simp] theorem State.modCore_free (k : Nat) (f : Core → Core) : (s.modCore k f).free = s.free := rfl

/-! ### modTwin -/

@[simp] theorem State.modTwin_waves (k : Nat) (f : Twin → Twin) : (s.modTwin k f).waves = s.waves := rfl
@[simp] theorem State.modTwin_groups (k : Nat) (f : Twin → Twin) : (s.modTwin k f).groups = s.groups := rfl
@[simp] theorem State.modTwin_ctxs (k : Nat) (f : Twin → Twin) : (s.modTwin k f).ctxs = s.ctxs := rfl
@[simp] theorem State.modTwin_launches (k : Nat) (f : Twin → Twin) : (s.modTwin k f).launches = s.launches := rfl
@[simp] theorem State.modTwin_graphs (k : Nat) (f : Twin → Twin) : (s.modTwin k f).graphs = s.graphs := rfl
@[simp] theorem State.modTwin_images (k : Nat) (f : Twin → Twin) : (s.modTwin k f).images = s.images := rfl
@[simp] theorem State.modTwin_cores (k : Nat) (f : Twin → Twin) : (s.modTwin k f).cores = s.cores := rfl
@[simp] theorem State.modTwin_twins (k : Nat) (f : Twin → Twin) : (s.modTwin k f).twins = modAt f s.twins k := rfl
@[simp] theorem State.modTwin_copies (k : Nat) (f : Twin → Twin) : (s.modTwin k f).copies = s.copies := rfl
@[simp] theorem State.modTwin_saves (k : Nat) (f : Twin → Twin) : (s.modTwin k f).saves = s.saves := rfl
@[simp] theorem State.modTwin_mem (k : Nat) (f : Twin → Twin) : (s.modTwin k f).mem = s.mem := rfl
@[simp] theorem State.modTwin_atomics (k : Nat) (f : Twin → Twin) : (s.modTwin k f).atomics = s.atomics := rfl
@[simp] theorem State.modTwin_emits (k : Nat) (f : Twin → Twin) : (s.modTwin k f).emits = s.emits := rfl
@[simp] theorem State.modTwin_joined (k : Nat) (f : Twin → Twin) : (s.modTwin k f).joined = s.joined := rfl
@[simp] theorem State.modTwin_cp (k : Nat) (f : Twin → Twin) : (s.modTwin k f).cp = s.cp := rfl
@[simp] theorem State.modTwin_jalti (k : Nat) (f : Twin → Twin) : (s.modTwin k f).jalti = s.jalti := rfl
@[simp] theorem State.modTwin_rel (k : Nat) (f : Twin → Twin) : (s.modTwin k f).rel = s.rel := rfl
@[simp] theorem State.modTwin_trace (k : Nat) (f : Twin → Twin) : (s.modTwin k f).trace = s.trace := rfl
@[simp] theorem State.modTwin_fab (k : Nat) (f : Twin → Twin) : (s.modTwin k f).fab = s.fab := rfl
@[simp] theorem State.modTwin_sec (k : Nat) (f : Twin → Twin) : (s.modTwin k f).sec = s.sec := rfl
@[simp] theorem State.modTwin_cc (k : Nat) (f : Twin → Twin) : (s.modTwin k f).cc = s.cc := rfl
@[simp] theorem State.modTwin_lc (k : Nat) (f : Twin → Twin) : (s.modTwin k f).lc = s.lc := rfl
@[simp] theorem State.modTwin_lcPart (k : Nat) (f : Twin → Twin) : (s.modTwin k f).lcPart = s.lcPart := rfl
@[simp] theorem State.modTwin_lcEnd (k : Nat) (f : Twin → Twin) : (s.modTwin k f).lcEnd = s.lcEnd := rfl
@[simp] theorem State.modTwin_epochAt (k : Nat) (f : Twin → Twin) : (s.modTwin k f).epochAt = s.epochAt := rfl
@[simp] theorem State.modTwin_tag (k : Nat) (f : Twin → Twin) : (s.modTwin k f).tag = s.tag := rfl
@[simp] theorem State.modTwin_order (k : Nat) (f : Twin → Twin) : (s.modTwin k f).order = s.order := rfl
@[simp] theorem State.modTwin_agenda (k : Nat) (f : Twin → Twin) : (s.modTwin k f).agenda = s.agenda := rfl
@[simp] theorem State.modTwin_cur (k : Nat) (f : Twin → Twin) : (s.modTwin k f).cur = s.cur := rfl
@[simp] theorem State.modTwin_turn (k : Nat) (f : Twin → Twin) : (s.modTwin k f).turn = s.turn := rfl
@[simp] theorem State.modTwin_free (k : Nat) (f : Twin → Twin) : (s.modTwin k f).free = s.free := rfl

/-! ### modCopyQueue -/

@[simp] theorem State.modCopyQueue_waves (k : Nat) (f : CopyQueue → CopyQueue) : (s.modCopyQueue k f).waves = s.waves := rfl
@[simp] theorem State.modCopyQueue_groups (k : Nat) (f : CopyQueue → CopyQueue) : (s.modCopyQueue k f).groups = s.groups := rfl
@[simp] theorem State.modCopyQueue_ctxs (k : Nat) (f : CopyQueue → CopyQueue) : (s.modCopyQueue k f).ctxs = s.ctxs := rfl
@[simp] theorem State.modCopyQueue_launches (k : Nat) (f : CopyQueue → CopyQueue) : (s.modCopyQueue k f).launches = s.launches := rfl
@[simp] theorem State.modCopyQueue_graphs (k : Nat) (f : CopyQueue → CopyQueue) : (s.modCopyQueue k f).graphs = s.graphs := rfl
@[simp] theorem State.modCopyQueue_images (k : Nat) (f : CopyQueue → CopyQueue) : (s.modCopyQueue k f).images = s.images := rfl
@[simp] theorem State.modCopyQueue_cores (k : Nat) (f : CopyQueue → CopyQueue) : (s.modCopyQueue k f).cores = s.cores := rfl
@[simp] theorem State.modCopyQueue_twins (k : Nat) (f : CopyQueue → CopyQueue) : (s.modCopyQueue k f).twins = s.twins := rfl
@[simp] theorem State.modCopyQueue_copies (k : Nat) (f : CopyQueue → CopyQueue) : (s.modCopyQueue k f).copies = modAt f s.copies k := rfl
@[simp] theorem State.modCopyQueue_saves (k : Nat) (f : CopyQueue → CopyQueue) : (s.modCopyQueue k f).saves = s.saves := rfl
@[simp] theorem State.modCopyQueue_mem (k : Nat) (f : CopyQueue → CopyQueue) : (s.modCopyQueue k f).mem = s.mem := rfl
@[simp] theorem State.modCopyQueue_atomics (k : Nat) (f : CopyQueue → CopyQueue) : (s.modCopyQueue k f).atomics = s.atomics := rfl
@[simp] theorem State.modCopyQueue_emits (k : Nat) (f : CopyQueue → CopyQueue) : (s.modCopyQueue k f).emits = s.emits := rfl
@[simp] theorem State.modCopyQueue_joined (k : Nat) (f : CopyQueue → CopyQueue) : (s.modCopyQueue k f).joined = s.joined := rfl
@[simp] theorem State.modCopyQueue_cp (k : Nat) (f : CopyQueue → CopyQueue) : (s.modCopyQueue k f).cp = s.cp := rfl
@[simp] theorem State.modCopyQueue_jalti (k : Nat) (f : CopyQueue → CopyQueue) : (s.modCopyQueue k f).jalti = s.jalti := rfl
@[simp] theorem State.modCopyQueue_rel (k : Nat) (f : CopyQueue → CopyQueue) : (s.modCopyQueue k f).rel = s.rel := rfl
@[simp] theorem State.modCopyQueue_trace (k : Nat) (f : CopyQueue → CopyQueue) : (s.modCopyQueue k f).trace = s.trace := rfl
@[simp] theorem State.modCopyQueue_fab (k : Nat) (f : CopyQueue → CopyQueue) : (s.modCopyQueue k f).fab = s.fab := rfl
@[simp] theorem State.modCopyQueue_sec (k : Nat) (f : CopyQueue → CopyQueue) : (s.modCopyQueue k f).sec = s.sec := rfl
@[simp] theorem State.modCopyQueue_cc (k : Nat) (f : CopyQueue → CopyQueue) : (s.modCopyQueue k f).cc = s.cc := rfl
@[simp] theorem State.modCopyQueue_lc (k : Nat) (f : CopyQueue → CopyQueue) : (s.modCopyQueue k f).lc = s.lc := rfl
@[simp] theorem State.modCopyQueue_lcPart (k : Nat) (f : CopyQueue → CopyQueue) : (s.modCopyQueue k f).lcPart = s.lcPart := rfl
@[simp] theorem State.modCopyQueue_lcEnd (k : Nat) (f : CopyQueue → CopyQueue) : (s.modCopyQueue k f).lcEnd = s.lcEnd := rfl
@[simp] theorem State.modCopyQueue_epochAt (k : Nat) (f : CopyQueue → CopyQueue) : (s.modCopyQueue k f).epochAt = s.epochAt := rfl
@[simp] theorem State.modCopyQueue_tag (k : Nat) (f : CopyQueue → CopyQueue) : (s.modCopyQueue k f).tag = s.tag := rfl
@[simp] theorem State.modCopyQueue_order (k : Nat) (f : CopyQueue → CopyQueue) : (s.modCopyQueue k f).order = s.order := rfl
@[simp] theorem State.modCopyQueue_agenda (k : Nat) (f : CopyQueue → CopyQueue) : (s.modCopyQueue k f).agenda = s.agenda := rfl
@[simp] theorem State.modCopyQueue_cur (k : Nat) (f : CopyQueue → CopyQueue) : (s.modCopyQueue k f).cur = s.cur := rfl
@[simp] theorem State.modCopyQueue_turn (k : Nat) (f : CopyQueue → CopyQueue) : (s.modCopyQueue k f).turn = s.turn := rfl
@[simp] theorem State.modCopyQueue_free (k : Nat) (f : CopyQueue → CopyQueue) : (s.modCopyQueue k f).free = s.free := rfl

/-! ### modPair -/

@[simp] theorem State.modPair_waves (k : Nat) (f : Pair → Pair) : (s.modPair k f).waves = s.waves := rfl
@[simp] theorem State.modPair_groups (k : Nat) (f : Pair → Pair) : (s.modPair k f).groups = s.groups := rfl
@[simp] theorem State.modPair_ctxs (k : Nat) (f : Pair → Pair) : (s.modPair k f).ctxs = s.ctxs := rfl
@[simp] theorem State.modPair_launches (k : Nat) (f : Pair → Pair) : (s.modPair k f).launches = s.launches := rfl
@[simp] theorem State.modPair_graphs (k : Nat) (f : Pair → Pair) : (s.modPair k f).graphs = s.graphs := rfl
@[simp] theorem State.modPair_images (k : Nat) (f : Pair → Pair) : (s.modPair k f).images = s.images := rfl
@[simp] theorem State.modPair_cores (k : Nat) (f : Pair → Pair) : (s.modPair k f).cores = s.cores := rfl
@[simp] theorem State.modPair_twins (k : Nat) (f : Pair → Pair) : (s.modPair k f).twins = s.twins := rfl
@[simp] theorem State.modPair_copies (k : Nat) (f : Pair → Pair) : (s.modPair k f).copies = s.copies := rfl
@[simp] theorem State.modPair_saves (k : Nat) (f : Pair → Pair) : (s.modPair k f).saves = s.saves := rfl
@[simp] theorem State.modPair_mem (k : Nat) (f : Pair → Pair) : (s.modPair k f).mem = s.mem := rfl
@[simp] theorem State.modPair_atomics (k : Nat) (f : Pair → Pair) : (s.modPair k f).atomics = s.atomics := rfl
@[simp] theorem State.modPair_emits (k : Nat) (f : Pair → Pair) : (s.modPair k f).emits = s.emits := rfl
@[simp] theorem State.modPair_joined (k : Nat) (f : Pair → Pair) : (s.modPair k f).joined = s.joined := rfl
@[simp] theorem State.modPair_cp (k : Nat) (f : Pair → Pair) : (s.modPair k f).cp = s.cp := rfl
@[simp] theorem State.modPair_jalti (k : Nat) (f : Pair → Pair) : (s.modPair k f).jalti = { s.jalti with pairs := modAt f s.jalti.pairs k } := rfl
@[simp] theorem State.modPair_rel (k : Nat) (f : Pair → Pair) : (s.modPair k f).rel = s.rel := rfl
@[simp] theorem State.modPair_trace (k : Nat) (f : Pair → Pair) : (s.modPair k f).trace = s.trace := rfl
@[simp] theorem State.modPair_fab (k : Nat) (f : Pair → Pair) : (s.modPair k f).fab = s.fab := rfl
@[simp] theorem State.modPair_sec (k : Nat) (f : Pair → Pair) : (s.modPair k f).sec = s.sec := rfl
@[simp] theorem State.modPair_cc (k : Nat) (f : Pair → Pair) : (s.modPair k f).cc = s.cc := rfl
@[simp] theorem State.modPair_lc (k : Nat) (f : Pair → Pair) : (s.modPair k f).lc = s.lc := rfl
@[simp] theorem State.modPair_lcPart (k : Nat) (f : Pair → Pair) : (s.modPair k f).lcPart = s.lcPart := rfl
@[simp] theorem State.modPair_lcEnd (k : Nat) (f : Pair → Pair) : (s.modPair k f).lcEnd = s.lcEnd := rfl
@[simp] theorem State.modPair_epochAt (k : Nat) (f : Pair → Pair) : (s.modPair k f).epochAt = s.epochAt := rfl
@[simp] theorem State.modPair_tag (k : Nat) (f : Pair → Pair) : (s.modPair k f).tag = s.tag := rfl
@[simp] theorem State.modPair_order (k : Nat) (f : Pair → Pair) : (s.modPair k f).order = s.order := rfl
@[simp] theorem State.modPair_agenda (k : Nat) (f : Pair → Pair) : (s.modPair k f).agenda = s.agenda := rfl
@[simp] theorem State.modPair_cur (k : Nat) (f : Pair → Pair) : (s.modPair k f).cur = s.cur := rfl
@[simp] theorem State.modPair_turn (k : Nat) (f : Pair → Pair) : (s.modPair k f).turn = s.turn := rfl
@[simp] theorem State.modPair_free (k : Nat) (f : Pair → Pair) : (s.modPair k f).free = s.free := rfl

/-! ### modFunc -/

@[simp] theorem State.modFunc_waves (k : Nat) (f : Func → Func) : (s.modFunc k f).waves = s.waves := rfl
@[simp] theorem State.modFunc_groups (k : Nat) (f : Func → Func) : (s.modFunc k f).groups = s.groups := rfl
@[simp] theorem State.modFunc_ctxs (k : Nat) (f : Func → Func) : (s.modFunc k f).ctxs = s.ctxs := rfl
@[simp] theorem State.modFunc_launches (k : Nat) (f : Func → Func) : (s.modFunc k f).launches = s.launches := rfl
@[simp] theorem State.modFunc_graphs (k : Nat) (f : Func → Func) : (s.modFunc k f).graphs = s.graphs := rfl
@[simp] theorem State.modFunc_images (k : Nat) (f : Func → Func) : (s.modFunc k f).images = s.images := rfl
@[simp] theorem State.modFunc_cores (k : Nat) (f : Func → Func) : (s.modFunc k f).cores = s.cores := rfl
@[simp] theorem State.modFunc_twins (k : Nat) (f : Func → Func) : (s.modFunc k f).twins = s.twins := rfl
@[simp] theorem State.modFunc_copies (k : Nat) (f : Func → Func) : (s.modFunc k f).copies = s.copies := rfl
@[simp] theorem State.modFunc_saves (k : Nat) (f : Func → Func) : (s.modFunc k f).saves = s.saves := rfl
@[simp] theorem State.modFunc_mem (k : Nat) (f : Func → Func) : (s.modFunc k f).mem = s.mem := rfl
@[simp] theorem State.modFunc_atomics (k : Nat) (f : Func → Func) : (s.modFunc k f).atomics = s.atomics := rfl
@[simp] theorem State.modFunc_emits (k : Nat) (f : Func → Func) : (s.modFunc k f).emits = s.emits := rfl
@[simp] theorem State.modFunc_joined (k : Nat) (f : Func → Func) : (s.modFunc k f).joined = s.joined := rfl
@[simp] theorem State.modFunc_cp (k : Nat) (f : Func → Func) : (s.modFunc k f).cp = { s.cp with funcs := modAt f s.cp.funcs k } := rfl
@[simp] theorem State.modFunc_jalti (k : Nat) (f : Func → Func) : (s.modFunc k f).jalti = s.jalti := rfl
@[simp] theorem State.modFunc_rel (k : Nat) (f : Func → Func) : (s.modFunc k f).rel = s.rel := rfl
@[simp] theorem State.modFunc_trace (k : Nat) (f : Func → Func) : (s.modFunc k f).trace = s.trace := rfl
@[simp] theorem State.modFunc_fab (k : Nat) (f : Func → Func) : (s.modFunc k f).fab = s.fab := rfl
@[simp] theorem State.modFunc_sec (k : Nat) (f : Func → Func) : (s.modFunc k f).sec = s.sec := rfl
@[simp] theorem State.modFunc_cc (k : Nat) (f : Func → Func) : (s.modFunc k f).cc = s.cc := rfl
@[simp] theorem State.modFunc_lc (k : Nat) (f : Func → Func) : (s.modFunc k f).lc = s.lc := rfl
@[simp] theorem State.modFunc_lcPart (k : Nat) (f : Func → Func) : (s.modFunc k f).lcPart = s.lcPart := rfl
@[simp] theorem State.modFunc_lcEnd (k : Nat) (f : Func → Func) : (s.modFunc k f).lcEnd = s.lcEnd := rfl
@[simp] theorem State.modFunc_epochAt (k : Nat) (f : Func → Func) : (s.modFunc k f).epochAt = s.epochAt := rfl
@[simp] theorem State.modFunc_tag (k : Nat) (f : Func → Func) : (s.modFunc k f).tag = s.tag := rfl
@[simp] theorem State.modFunc_order (k : Nat) (f : Func → Func) : (s.modFunc k f).order = s.order := rfl
@[simp] theorem State.modFunc_agenda (k : Nat) (f : Func → Func) : (s.modFunc k f).agenda = s.agenda := rfl
@[simp] theorem State.modFunc_cur (k : Nat) (f : Func → Func) : (s.modFunc k f).cur = s.cur := rfl
@[simp] theorem State.modFunc_turn (k : Nat) (f : Func → Func) : (s.modFunc k f).turn = s.turn := rfl
@[simp] theorem State.modFunc_free (k : Nat) (f : Func → Func) : (s.modFunc k f).free = s.free := rfl

/-! ### message -/

@[simp] theorem State.message_waves (fn vec : Nat) : (s.message fn vec).waves = s.waves := rfl
@[simp] theorem State.message_groups (fn vec : Nat) : (s.message fn vec).groups = s.groups := rfl
@[simp] theorem State.message_ctxs (fn vec : Nat) : (s.message fn vec).ctxs = s.ctxs := rfl
@[simp] theorem State.message_launches (fn vec : Nat) : (s.message fn vec).launches = s.launches := rfl
@[simp] theorem State.message_graphs (fn vec : Nat) : (s.message fn vec).graphs = s.graphs := rfl
@[simp] theorem State.message_images (fn vec : Nat) : (s.message fn vec).images = s.images := rfl
@[simp] theorem State.message_cores (fn vec : Nat) : (s.message fn vec).cores = s.cores := rfl
@[simp] theorem State.message_twins (fn vec : Nat) : (s.message fn vec).twins = s.twins := rfl
@[simp] theorem State.message_copies (fn vec : Nat) : (s.message fn vec).copies = s.copies := rfl
@[simp] theorem State.message_saves (fn vec : Nat) : (s.message fn vec).saves = s.saves := rfl
@[simp] theorem State.message_mem (fn vec : Nat) : (s.message fn vec).mem = s.mem := rfl
@[simp] theorem State.message_atomics (fn vec : Nat) : (s.message fn vec).atomics = s.atomics := rfl
@[simp] theorem State.message_emits (fn vec : Nat) : (s.message fn vec).emits = s.emits := rfl
@[simp] theorem State.message_joined (fn vec : Nat) : (s.message fn vec).joined = s.joined := rfl
@[simp] theorem State.message_cp (fn vec : Nat) : (s.message fn vec).cp = { s.cp with msix := (fn, vec) :: s.cp.msix } := rfl
@[simp] theorem State.message_jalti (fn vec : Nat) : (s.message fn vec).jalti = s.jalti := rfl
@[simp] theorem State.message_rel (fn vec : Nat) : (s.message fn vec).rel = s.rel := rfl
@[simp] theorem State.message_trace (fn vec : Nat) : (s.message fn vec).trace = s.trace := rfl
@[simp] theorem State.message_fab (fn vec : Nat) : (s.message fn vec).fab = s.fab := rfl
@[simp] theorem State.message_sec (fn vec : Nat) : (s.message fn vec).sec = s.sec := rfl
@[simp] theorem State.message_cc (fn vec : Nat) : (s.message fn vec).cc = s.cc := rfl
@[simp] theorem State.message_lc (fn vec : Nat) : (s.message fn vec).lc = s.lc := rfl
@[simp] theorem State.message_lcPart (fn vec : Nat) : (s.message fn vec).lcPart = s.lcPart := rfl
@[simp] theorem State.message_lcEnd (fn vec : Nat) : (s.message fn vec).lcEnd = s.lcEnd := rfl
@[simp] theorem State.message_epochAt (fn vec : Nat) : (s.message fn vec).epochAt = s.epochAt := rfl
@[simp] theorem State.message_tag (fn vec : Nat) : (s.message fn vec).tag = s.tag := rfl
@[simp] theorem State.message_order (fn vec : Nat) : (s.message fn vec).order = s.order := rfl
@[simp] theorem State.message_agenda (fn vec : Nat) : (s.message fn vec).agenda = s.agenda := rfl
@[simp] theorem State.message_cur (fn vec : Nat) : (s.message fn vec).cur = s.cur := rfl
@[simp] theorem State.message_turn (fn vec : Nat) : (s.message fn vec).turn = s.turn := rfl
@[simp] theorem State.message_free (fn vec : Nat) : (s.message fn vec).free = s.free := rfl

/-! ### writeHome -/

@[simp] theorem State.writeHome_waves (l : List (Nat × Byte)) : (s.writeHome l).waves = s.waves := rfl
@[simp] theorem State.writeHome_groups (l : List (Nat × Byte)) : (s.writeHome l).groups = s.groups := rfl
@[simp] theorem State.writeHome_ctxs (l : List (Nat × Byte)) : (s.writeHome l).ctxs = s.ctxs := rfl
@[simp] theorem State.writeHome_launches (l : List (Nat × Byte)) : (s.writeHome l).launches = s.launches := rfl
@[simp] theorem State.writeHome_graphs (l : List (Nat × Byte)) : (s.writeHome l).graphs = s.graphs := rfl
@[simp] theorem State.writeHome_images (l : List (Nat × Byte)) : (s.writeHome l).images = s.images := rfl
@[simp] theorem State.writeHome_cores (l : List (Nat × Byte)) : (s.writeHome l).cores = s.cores := rfl
@[simp] theorem State.writeHome_twins (l : List (Nat × Byte)) : (s.writeHome l).twins = s.twins := rfl
@[simp] theorem State.writeHome_copies (l : List (Nat × Byte)) : (s.writeHome l).copies = s.copies := rfl
@[simp] theorem State.writeHome_saves (l : List (Nat × Byte)) : (s.writeHome l).saves = s.saves := rfl
@[simp] theorem State.writeHome_mem (l : List (Nat × Byte)) : (s.writeHome l).mem = s.mem.writeHome l := rfl
@[simp] theorem State.writeHome_atomics (l : List (Nat × Byte)) : (s.writeHome l).atomics = s.atomics := rfl
@[simp] theorem State.writeHome_emits (l : List (Nat × Byte)) : (s.writeHome l).emits = s.emits := rfl
@[simp] theorem State.writeHome_joined (l : List (Nat × Byte)) : (s.writeHome l).joined = s.joined := rfl
@[simp] theorem State.writeHome_cp (l : List (Nat × Byte)) : (s.writeHome l).cp = s.cp := rfl
@[simp] theorem State.writeHome_jalti (l : List (Nat × Byte)) : (s.writeHome l).jalti = s.jalti := rfl
@[simp] theorem State.writeHome_rel (l : List (Nat × Byte)) : (s.writeHome l).rel = s.rel := rfl
@[simp] theorem State.writeHome_trace (l : List (Nat × Byte)) : (s.writeHome l).trace = s.trace := rfl
@[simp] theorem State.writeHome_fab (l : List (Nat × Byte)) : (s.writeHome l).fab = s.fab := rfl
@[simp] theorem State.writeHome_sec (l : List (Nat × Byte)) : (s.writeHome l).sec = s.sec := rfl
@[simp] theorem State.writeHome_cc (l : List (Nat × Byte)) : (s.writeHome l).cc = s.cc := rfl
@[simp] theorem State.writeHome_lc (l : List (Nat × Byte)) : (s.writeHome l).lc = s.lc := rfl
@[simp] theorem State.writeHome_lcPart (l : List (Nat × Byte)) : (s.writeHome l).lcPart = s.lcPart := rfl
@[simp] theorem State.writeHome_lcEnd (l : List (Nat × Byte)) : (s.writeHome l).lcEnd = s.lcEnd := rfl
@[simp] theorem State.writeHome_epochAt (l : List (Nat × Byte)) : (s.writeHome l).epochAt = s.epochAt := rfl
@[simp] theorem State.writeHome_tag (l : List (Nat × Byte)) : (s.writeHome l).tag = s.tag := rfl
@[simp] theorem State.writeHome_order (l : List (Nat × Byte)) : (s.writeHome l).order = s.order := rfl
@[simp] theorem State.writeHome_agenda (l : List (Nat × Byte)) : (s.writeHome l).agenda = s.agenda := rfl
@[simp] theorem State.writeHome_cur (l : List (Nat × Byte)) : (s.writeHome l).cur = s.cur := rfl
@[simp] theorem State.writeHome_turn (l : List (Nat × Byte)) : (s.writeHome l).turn = s.turn := rfl
@[simp] theorem State.writeHome_free (l : List (Nat × Byte)) : (s.writeHome l).free = s.free := rfl

/-! ### writeHomeN -/

@[simp] theorem State.writeHomeN_waves (a : Nat) (l : List Byte) : (s.writeHomeN a l).waves = s.waves := rfl
@[simp] theorem State.writeHomeN_groups (a : Nat) (l : List Byte) : (s.writeHomeN a l).groups = s.groups := rfl
@[simp] theorem State.writeHomeN_ctxs (a : Nat) (l : List Byte) : (s.writeHomeN a l).ctxs = s.ctxs := rfl
@[simp] theorem State.writeHomeN_launches (a : Nat) (l : List Byte) : (s.writeHomeN a l).launches = s.launches := rfl
@[simp] theorem State.writeHomeN_graphs (a : Nat) (l : List Byte) : (s.writeHomeN a l).graphs = s.graphs := rfl
@[simp] theorem State.writeHomeN_images (a : Nat) (l : List Byte) : (s.writeHomeN a l).images = s.images := rfl
@[simp] theorem State.writeHomeN_cores (a : Nat) (l : List Byte) : (s.writeHomeN a l).cores = s.cores := rfl
@[simp] theorem State.writeHomeN_twins (a : Nat) (l : List Byte) : (s.writeHomeN a l).twins = s.twins := rfl
@[simp] theorem State.writeHomeN_copies (a : Nat) (l : List Byte) : (s.writeHomeN a l).copies = s.copies := rfl
@[simp] theorem State.writeHomeN_saves (a : Nat) (l : List Byte) : (s.writeHomeN a l).saves = s.saves := rfl
@[simp] theorem State.writeHomeN_atomics (a : Nat) (l : List Byte) : (s.writeHomeN a l).atomics = s.atomics := rfl
@[simp] theorem State.writeHomeN_emits (a : Nat) (l : List Byte) : (s.writeHomeN a l).emits = s.emits := rfl
@[simp] theorem State.writeHomeN_joined (a : Nat) (l : List Byte) : (s.writeHomeN a l).joined = s.joined := rfl
@[simp] theorem State.writeHomeN_cp (a : Nat) (l : List Byte) : (s.writeHomeN a l).cp = s.cp := rfl
@[simp] theorem State.writeHomeN_jalti (a : Nat) (l : List Byte) : (s.writeHomeN a l).jalti = s.jalti := rfl
@[simp] theorem State.writeHomeN_rel (a : Nat) (l : List Byte) : (s.writeHomeN a l).rel = s.rel := rfl
@[simp] theorem State.writeHomeN_trace (a : Nat) (l : List Byte) : (s.writeHomeN a l).trace = s.trace := rfl
@[simp] theorem State.writeHomeN_fab (a : Nat) (l : List Byte) : (s.writeHomeN a l).fab = s.fab := rfl
@[simp] theorem State.writeHomeN_sec (a : Nat) (l : List Byte) : (s.writeHomeN a l).sec = s.sec := rfl
@[simp] theorem State.writeHomeN_cc (a : Nat) (l : List Byte) : (s.writeHomeN a l).cc = s.cc := rfl
@[simp] theorem State.writeHomeN_lc (a : Nat) (l : List Byte) : (s.writeHomeN a l).lc = s.lc := rfl
@[simp] theorem State.writeHomeN_lcPart (a : Nat) (l : List Byte) : (s.writeHomeN a l).lcPart = s.lcPart := rfl
@[simp] theorem State.writeHomeN_lcEnd (a : Nat) (l : List Byte) : (s.writeHomeN a l).lcEnd = s.lcEnd := rfl
@[simp] theorem State.writeHomeN_epochAt (a : Nat) (l : List Byte) : (s.writeHomeN a l).epochAt = s.epochAt := rfl
@[simp] theorem State.writeHomeN_tag (a : Nat) (l : List Byte) : (s.writeHomeN a l).tag = s.tag := rfl
@[simp] theorem State.writeHomeN_order (a : Nat) (l : List Byte) : (s.writeHomeN a l).order = s.order := rfl
@[simp] theorem State.writeHomeN_agenda (a : Nat) (l : List Byte) : (s.writeHomeN a l).agenda = s.agenda := rfl
@[simp] theorem State.writeHomeN_cur (a : Nat) (l : List Byte) : (s.writeHomeN a l).cur = s.cur := rfl
@[simp] theorem State.writeHomeN_turn (a : Nat) (l : List Byte) : (s.writeHomeN a l).turn = s.turn := rfl
@[simp] theorem State.writeHomeN_free (a : Nat) (l : List Byte) : (s.writeHomeN a l).free = s.free := rfl

/-! ### writeSp -/

@[simp] theorem State.writeSp_waves (l : List (Nat × Byte)) : (s.writeSp l).waves = s.waves := rfl
@[simp] theorem State.writeSp_groups (l : List (Nat × Byte)) : (s.writeSp l).groups = s.groups := rfl
@[simp] theorem State.writeSp_ctxs (l : List (Nat × Byte)) : (s.writeSp l).ctxs = s.ctxs := rfl
@[simp] theorem State.writeSp_launches (l : List (Nat × Byte)) : (s.writeSp l).launches = s.launches := rfl
@[simp] theorem State.writeSp_graphs (l : List (Nat × Byte)) : (s.writeSp l).graphs = s.graphs := rfl
@[simp] theorem State.writeSp_images (l : List (Nat × Byte)) : (s.writeSp l).images = s.images := rfl
@[simp] theorem State.writeSp_cores (l : List (Nat × Byte)) : (s.writeSp l).cores = s.cores := rfl
@[simp] theorem State.writeSp_twins (l : List (Nat × Byte)) : (s.writeSp l).twins = s.twins := rfl
@[simp] theorem State.writeSp_copies (l : List (Nat × Byte)) : (s.writeSp l).copies = s.copies := rfl
@[simp] theorem State.writeSp_saves (l : List (Nat × Byte)) : (s.writeSp l).saves = s.saves := rfl
@[simp] theorem State.writeSp_atomics (l : List (Nat × Byte)) : (s.writeSp l).atomics = s.atomics := rfl
@[simp] theorem State.writeSp_emits (l : List (Nat × Byte)) : (s.writeSp l).emits = s.emits := rfl
@[simp] theorem State.writeSp_joined (l : List (Nat × Byte)) : (s.writeSp l).joined = s.joined := rfl
@[simp] theorem State.writeSp_cp (l : List (Nat × Byte)) : (s.writeSp l).cp = s.cp := rfl
@[simp] theorem State.writeSp_jalti (l : List (Nat × Byte)) : (s.writeSp l).jalti = s.jalti := rfl
@[simp] theorem State.writeSp_rel (l : List (Nat × Byte)) : (s.writeSp l).rel = s.rel := rfl
@[simp] theorem State.writeSp_trace (l : List (Nat × Byte)) : (s.writeSp l).trace = s.trace := rfl
@[simp] theorem State.writeSp_fab (l : List (Nat × Byte)) : (s.writeSp l).fab = s.fab := rfl
@[simp] theorem State.writeSp_sec (l : List (Nat × Byte)) : (s.writeSp l).sec = s.sec := rfl
@[simp] theorem State.writeSp_cc (l : List (Nat × Byte)) : (s.writeSp l).cc = s.cc := rfl
@[simp] theorem State.writeSp_lc (l : List (Nat × Byte)) : (s.writeSp l).lc = s.lc := rfl
@[simp] theorem State.writeSp_lcPart (l : List (Nat × Byte)) : (s.writeSp l).lcPart = s.lcPart := rfl
@[simp] theorem State.writeSp_lcEnd (l : List (Nat × Byte)) : (s.writeSp l).lcEnd = s.lcEnd := rfl
@[simp] theorem State.writeSp_epochAt (l : List (Nat × Byte)) : (s.writeSp l).epochAt = s.epochAt := rfl
@[simp] theorem State.writeSp_tag (l : List (Nat × Byte)) : (s.writeSp l).tag = s.tag := rfl
@[simp] theorem State.writeSp_order (l : List (Nat × Byte)) : (s.writeSp l).order = s.order := rfl
@[simp] theorem State.writeSp_agenda (l : List (Nat × Byte)) : (s.writeSp l).agenda = s.agenda := rfl
@[simp] theorem State.writeSp_cur (l : List (Nat × Byte)) : (s.writeSp l).cur = s.cur := rfl
@[simp] theorem State.writeSp_turn (l : List (Nat × Byte)) : (s.writeSp l).turn = s.turn := rfl
@[simp] theorem State.writeSp_free (l : List (Nat × Byte)) : (s.writeSp l).free = s.free := rfl

/-! ### writeSpBoth -/

@[simp] theorem State.writeSpBoth_waves (c : Bool) (l : List (Nat × Byte)) : (s.writeSpBoth c l).waves = s.waves := rfl
@[simp] theorem State.writeSpBoth_groups (c : Bool) (l : List (Nat × Byte)) : (s.writeSpBoth c l).groups = s.groups := rfl
@[simp] theorem State.writeSpBoth_ctxs (c : Bool) (l : List (Nat × Byte)) : (s.writeSpBoth c l).ctxs = s.ctxs := rfl
@[simp] theorem State.writeSpBoth_launches (c : Bool) (l : List (Nat × Byte)) : (s.writeSpBoth c l).launches = s.launches := rfl
@[simp] theorem State.writeSpBoth_graphs (c : Bool) (l : List (Nat × Byte)) : (s.writeSpBoth c l).graphs = s.graphs := rfl
@[simp] theorem State.writeSpBoth_images (c : Bool) (l : List (Nat × Byte)) : (s.writeSpBoth c l).images = s.images := rfl
@[simp] theorem State.writeSpBoth_cores (c : Bool) (l : List (Nat × Byte)) : (s.writeSpBoth c l).cores = s.cores := rfl
@[simp] theorem State.writeSpBoth_twins (c : Bool) (l : List (Nat × Byte)) : (s.writeSpBoth c l).twins = s.twins := rfl
@[simp] theorem State.writeSpBoth_copies (c : Bool) (l : List (Nat × Byte)) : (s.writeSpBoth c l).copies = s.copies := rfl
@[simp] theorem State.writeSpBoth_saves (c : Bool) (l : List (Nat × Byte)) : (s.writeSpBoth c l).saves = s.saves := rfl
@[simp] theorem State.writeSpBoth_atomics (c : Bool) (l : List (Nat × Byte)) : (s.writeSpBoth c l).atomics = s.atomics := rfl
@[simp] theorem State.writeSpBoth_emits (c : Bool) (l : List (Nat × Byte)) : (s.writeSpBoth c l).emits = s.emits := rfl
@[simp] theorem State.writeSpBoth_joined (c : Bool) (l : List (Nat × Byte)) : (s.writeSpBoth c l).joined = s.joined := rfl
@[simp] theorem State.writeSpBoth_cp (c : Bool) (l : List (Nat × Byte)) : (s.writeSpBoth c l).cp = s.cp := rfl
@[simp] theorem State.writeSpBoth_jalti (c : Bool) (l : List (Nat × Byte)) : (s.writeSpBoth c l).jalti = s.jalti := rfl
@[simp] theorem State.writeSpBoth_rel (c : Bool) (l : List (Nat × Byte)) : (s.writeSpBoth c l).rel = s.rel := rfl
@[simp] theorem State.writeSpBoth_trace (c : Bool) (l : List (Nat × Byte)) : (s.writeSpBoth c l).trace = s.trace := rfl
@[simp] theorem State.writeSpBoth_fab (c : Bool) (l : List (Nat × Byte)) : (s.writeSpBoth c l).fab = s.fab := rfl
@[simp] theorem State.writeSpBoth_sec (c : Bool) (l : List (Nat × Byte)) : (s.writeSpBoth c l).sec = s.sec := rfl
@[simp] theorem State.writeSpBoth_cc (c : Bool) (l : List (Nat × Byte)) : (s.writeSpBoth c l).cc = s.cc := rfl
@[simp] theorem State.writeSpBoth_lc (c : Bool) (l : List (Nat × Byte)) : (s.writeSpBoth c l).lc = s.lc := rfl
@[simp] theorem State.writeSpBoth_lcPart (c : Bool) (l : List (Nat × Byte)) : (s.writeSpBoth c l).lcPart = s.lcPart := rfl
@[simp] theorem State.writeSpBoth_lcEnd (c : Bool) (l : List (Nat × Byte)) : (s.writeSpBoth c l).lcEnd = s.lcEnd := rfl
@[simp] theorem State.writeSpBoth_epochAt (c : Bool) (l : List (Nat × Byte)) : (s.writeSpBoth c l).epochAt = s.epochAt := rfl
@[simp] theorem State.writeSpBoth_tag (c : Bool) (l : List (Nat × Byte)) : (s.writeSpBoth c l).tag = s.tag := rfl
@[simp] theorem State.writeSpBoth_order (c : Bool) (l : List (Nat × Byte)) : (s.writeSpBoth c l).order = s.order := rfl
@[simp] theorem State.writeSpBoth_agenda (c : Bool) (l : List (Nat × Byte)) : (s.writeSpBoth c l).agenda = s.agenda := rfl
@[simp] theorem State.writeSpBoth_cur (c : Bool) (l : List (Nat × Byte)) : (s.writeSpBoth c l).cur = s.cur := rfl
@[simp] theorem State.writeSpBoth_turn (c : Bool) (l : List (Nat × Byte)) : (s.writeSpBoth c l).turn = s.turn := rfl
@[simp] theorem State.writeSpBoth_free (c : Bool) (l : List (Nat × Byte)) : (s.writeSpBoth c l).free = s.free := rfl

/-! ### writeHostN -/

@[simp] theorem State.writeHostN_waves (a : Nat) (l : List Byte) : (s.writeHostN a l).waves = s.waves := rfl
@[simp] theorem State.writeHostN_groups (a : Nat) (l : List Byte) : (s.writeHostN a l).groups = s.groups := rfl
@[simp] theorem State.writeHostN_ctxs (a : Nat) (l : List Byte) : (s.writeHostN a l).ctxs = s.ctxs := rfl
@[simp] theorem State.writeHostN_launches (a : Nat) (l : List Byte) : (s.writeHostN a l).launches = s.launches := rfl
@[simp] theorem State.writeHostN_graphs (a : Nat) (l : List Byte) : (s.writeHostN a l).graphs = s.graphs := rfl
@[simp] theorem State.writeHostN_images (a : Nat) (l : List Byte) : (s.writeHostN a l).images = s.images := rfl
@[simp] theorem State.writeHostN_cores (a : Nat) (l : List Byte) : (s.writeHostN a l).cores = s.cores := rfl
@[simp] theorem State.writeHostN_twins (a : Nat) (l : List Byte) : (s.writeHostN a l).twins = s.twins := rfl
@[simp] theorem State.writeHostN_copies (a : Nat) (l : List Byte) : (s.writeHostN a l).copies = s.copies := rfl
@[simp] theorem State.writeHostN_saves (a : Nat) (l : List Byte) : (s.writeHostN a l).saves = s.saves := rfl
@[simp] theorem State.writeHostN_atomics (a : Nat) (l : List Byte) : (s.writeHostN a l).atomics = s.atomics := rfl
@[simp] theorem State.writeHostN_emits (a : Nat) (l : List Byte) : (s.writeHostN a l).emits = s.emits := rfl
@[simp] theorem State.writeHostN_joined (a : Nat) (l : List Byte) : (s.writeHostN a l).joined = s.joined := rfl
@[simp] theorem State.writeHostN_cp (a : Nat) (l : List Byte) : (s.writeHostN a l).cp = s.cp := rfl
@[simp] theorem State.writeHostN_jalti (a : Nat) (l : List Byte) : (s.writeHostN a l).jalti = s.jalti := rfl
@[simp] theorem State.writeHostN_rel (a : Nat) (l : List Byte) : (s.writeHostN a l).rel = s.rel := rfl
@[simp] theorem State.writeHostN_trace (a : Nat) (l : List Byte) : (s.writeHostN a l).trace = s.trace := rfl
@[simp] theorem State.writeHostN_fab (a : Nat) (l : List Byte) : (s.writeHostN a l).fab = s.fab := rfl
@[simp] theorem State.writeHostN_sec (a : Nat) (l : List Byte) : (s.writeHostN a l).sec = s.sec := rfl
@[simp] theorem State.writeHostN_cc (a : Nat) (l : List Byte) : (s.writeHostN a l).cc = s.cc := rfl
@[simp] theorem State.writeHostN_lc (a : Nat) (l : List Byte) : (s.writeHostN a l).lc = s.lc := rfl
@[simp] theorem State.writeHostN_lcPart (a : Nat) (l : List Byte) : (s.writeHostN a l).lcPart = s.lcPart := rfl
@[simp] theorem State.writeHostN_lcEnd (a : Nat) (l : List Byte) : (s.writeHostN a l).lcEnd = s.lcEnd := rfl
@[simp] theorem State.writeHostN_epochAt (a : Nat) (l : List Byte) : (s.writeHostN a l).epochAt = s.epochAt := rfl
@[simp] theorem State.writeHostN_tag (a : Nat) (l : List Byte) : (s.writeHostN a l).tag = s.tag := rfl
@[simp] theorem State.writeHostN_order (a : Nat) (l : List Byte) : (s.writeHostN a l).order = s.order := rfl
@[simp] theorem State.writeHostN_agenda (a : Nat) (l : List Byte) : (s.writeHostN a l).agenda = s.agenda := rfl
@[simp] theorem State.writeHostN_cur (a : Nat) (l : List Byte) : (s.writeHostN a l).cur = s.cur := rfl
@[simp] theorem State.writeHostN_turn (a : Nat) (l : List Byte) : (s.writeHostN a l).turn = s.turn := rfl
@[simp] theorem State.writeHostN_free (a : Nat) (l : List Byte) : (s.writeHostN a l).free = s.free := rfl

/-! ### depositAt -/

@[simp] theorem State.depositAt_waves (a line : Nat) (x : BitVec 512) : (s.depositAt a line x).waves = s.waves := rfl
@[simp] theorem State.depositAt_groups (a line : Nat) (x : BitVec 512) : (s.depositAt a line x).groups = s.groups := rfl
@[simp] theorem State.depositAt_ctxs (a line : Nat) (x : BitVec 512) : (s.depositAt a line x).ctxs = s.ctxs := rfl
@[simp] theorem State.depositAt_launches (a line : Nat) (x : BitVec 512) : (s.depositAt a line x).launches = s.launches := rfl
@[simp] theorem State.depositAt_graphs (a line : Nat) (x : BitVec 512) : (s.depositAt a line x).graphs = s.graphs := rfl
@[simp] theorem State.depositAt_images (a line : Nat) (x : BitVec 512) : (s.depositAt a line x).images = s.images := rfl
@[simp] theorem State.depositAt_cores (a line : Nat) (x : BitVec 512) : (s.depositAt a line x).cores = s.cores := rfl
@[simp] theorem State.depositAt_twins (a line : Nat) (x : BitVec 512) : (s.depositAt a line x).twins = s.twins := rfl
@[simp] theorem State.depositAt_copies (a line : Nat) (x : BitVec 512) : (s.depositAt a line x).copies = s.copies := rfl
@[simp] theorem State.depositAt_saves (a line : Nat) (x : BitVec 512) : (s.depositAt a line x).saves = s.saves := rfl
@[simp] theorem State.depositAt_atomics (a line : Nat) (x : BitVec 512) : (s.depositAt a line x).atomics = s.atomics := rfl
@[simp] theorem State.depositAt_emits (a line : Nat) (x : BitVec 512) : (s.depositAt a line x).emits = s.emits := rfl
@[simp] theorem State.depositAt_joined (a line : Nat) (x : BitVec 512) : (s.depositAt a line x).joined = s.joined := rfl
@[simp] theorem State.depositAt_cp (a line : Nat) (x : BitVec 512) : (s.depositAt a line x).cp = s.cp := rfl
@[simp] theorem State.depositAt_jalti (a line : Nat) (x : BitVec 512) : (s.depositAt a line x).jalti = s.jalti := rfl
@[simp] theorem State.depositAt_rel (a line : Nat) (x : BitVec 512) : (s.depositAt a line x).rel = s.rel := rfl
@[simp] theorem State.depositAt_trace (a line : Nat) (x : BitVec 512) : (s.depositAt a line x).trace = s.trace := rfl
@[simp] theorem State.depositAt_fab (a line : Nat) (x : BitVec 512) : (s.depositAt a line x).fab = s.fab := rfl
@[simp] theorem State.depositAt_sec (a line : Nat) (x : BitVec 512) : (s.depositAt a line x).sec = s.sec := rfl
@[simp] theorem State.depositAt_cc (a line : Nat) (x : BitVec 512) : (s.depositAt a line x).cc = s.cc := rfl
@[simp] theorem State.depositAt_lc (a line : Nat) (x : BitVec 512) : (s.depositAt a line x).lc = s.lc := rfl
@[simp] theorem State.depositAt_lcPart (a line : Nat) (x : BitVec 512) : (s.depositAt a line x).lcPart = s.lcPart := rfl
@[simp] theorem State.depositAt_lcEnd (a line : Nat) (x : BitVec 512) : (s.depositAt a line x).lcEnd = s.lcEnd := rfl
@[simp] theorem State.depositAt_epochAt (a line : Nat) (x : BitVec 512) : (s.depositAt a line x).epochAt = s.epochAt := rfl
@[simp] theorem State.depositAt_tag (a line : Nat) (x : BitVec 512) : (s.depositAt a line x).tag = s.tag := rfl
@[simp] theorem State.depositAt_order (a line : Nat) (x : BitVec 512) : (s.depositAt a line x).order = s.order := rfl
@[simp] theorem State.depositAt_agenda (a line : Nat) (x : BitVec 512) : (s.depositAt a line x).agenda = s.agenda := rfl
@[simp] theorem State.depositAt_cur (a line : Nat) (x : BitVec 512) : (s.depositAt a line x).cur = s.cur := rfl
@[simp] theorem State.depositAt_turn (a line : Nat) (x : BitVec 512) : (s.depositAt a line x).turn = s.turn := rfl
@[simp] theorem State.depositAt_free (a line : Nat) (x : BitVec 512) : (s.depositAt a line x).free = s.free := rfl

/-! ### releaseTokens -/

@[simp] theorem State.releaseTokens_waves (k : Nat) : (s.releaseTokens k).waves = s.waves := rfl
@[simp] theorem State.releaseTokens_groups (k : Nat) : (s.releaseTokens k).groups = s.groups := rfl
@[simp] theorem State.releaseTokens_ctxs (k : Nat) : (s.releaseTokens k).ctxs = s.ctxs := rfl
@[simp] theorem State.releaseTokens_launches (k : Nat) : (s.releaseTokens k).launches = s.launches := rfl
@[simp] theorem State.releaseTokens_graphs (k : Nat) : (s.releaseTokens k).graphs = s.graphs := rfl
@[simp] theorem State.releaseTokens_images (k : Nat) : (s.releaseTokens k).images = s.images := rfl
@[simp] theorem State.releaseTokens_cores (k : Nat) : (s.releaseTokens k).cores = s.cores := rfl
@[simp] theorem State.releaseTokens_twins (k : Nat) : (s.releaseTokens k).twins = s.twins := rfl
@[simp] theorem State.releaseTokens_copies (k : Nat) : (s.releaseTokens k).copies = s.copies := rfl
@[simp] theorem State.releaseTokens_saves (k : Nat) : (s.releaseTokens k).saves = s.saves := rfl
@[simp] theorem State.releaseTokens_atomics (k : Nat) : (s.releaseTokens k).atomics = s.atomics := rfl
@[simp] theorem State.releaseTokens_emits (k : Nat) : (s.releaseTokens k).emits = s.emits := rfl
@[simp] theorem State.releaseTokens_joined (k : Nat) : (s.releaseTokens k).joined = s.joined := rfl
@[simp] theorem State.releaseTokens_cp (k : Nat) : (s.releaseTokens k).cp = s.cp := rfl
@[simp] theorem State.releaseTokens_jalti (k : Nat) : (s.releaseTokens k).jalti = s.jalti := rfl
@[simp] theorem State.releaseTokens_rel (k : Nat) : (s.releaseTokens k).rel = s.rel := rfl
@[simp] theorem State.releaseTokens_trace (k : Nat) : (s.releaseTokens k).trace = s.trace := rfl
@[simp] theorem State.releaseTokens_fab (k : Nat) : (s.releaseTokens k).fab = s.fab := rfl
@[simp] theorem State.releaseTokens_sec (k : Nat) : (s.releaseTokens k).sec = s.sec := rfl
@[simp] theorem State.releaseTokens_cc (k : Nat) : (s.releaseTokens k).cc = s.cc := rfl
@[simp] theorem State.releaseTokens_lc (k : Nat) : (s.releaseTokens k).lc = s.lc := rfl
@[simp] theorem State.releaseTokens_lcPart (k : Nat) : (s.releaseTokens k).lcPart = s.lcPart := rfl
@[simp] theorem State.releaseTokens_lcEnd (k : Nat) : (s.releaseTokens k).lcEnd = s.lcEnd := rfl
@[simp] theorem State.releaseTokens_epochAt (k : Nat) : (s.releaseTokens k).epochAt = s.epochAt := rfl
@[simp] theorem State.releaseTokens_tag (k : Nat) : (s.releaseTokens k).tag = s.tag := rfl
@[simp] theorem State.releaseTokens_order (k : Nat) : (s.releaseTokens k).order = s.order := rfl
@[simp] theorem State.releaseTokens_agenda (k : Nat) : (s.releaseTokens k).agenda = s.agenda := rfl
@[simp] theorem State.releaseTokens_cur (k : Nat) : (s.releaseTokens k).cur = s.cur := rfl
@[simp] theorem State.releaseTokens_turn (k : Nat) : (s.releaseTokens k).turn = s.turn := rfl
@[simp] theorem State.releaseTokens_free (k : Nat) : (s.releaseTokens k).free = s.free := rfl

/-! ### requestTokens -/

@[simp] theorem State.requestTokens_waves (k : Nat) (l : List Nat) : (s.requestTokens k l).waves = s.waves := rfl
@[simp] theorem State.requestTokens_groups (k : Nat) (l : List Nat) : (s.requestTokens k l).groups = s.groups := rfl
@[simp] theorem State.requestTokens_ctxs (k : Nat) (l : List Nat) : (s.requestTokens k l).ctxs = s.ctxs := rfl
@[simp] theorem State.requestTokens_launches (k : Nat) (l : List Nat) : (s.requestTokens k l).launches = s.launches := rfl
@[simp] theorem State.requestTokens_graphs (k : Nat) (l : List Nat) : (s.requestTokens k l).graphs = s.graphs := rfl
@[simp] theorem State.requestTokens_images (k : Nat) (l : List Nat) : (s.requestTokens k l).images = s.images := rfl
@[simp] theorem State.requestTokens_cores (k : Nat) (l : List Nat) : (s.requestTokens k l).cores = s.cores := rfl
@[simp] theorem State.requestTokens_twins (k : Nat) (l : List Nat) : (s.requestTokens k l).twins = s.twins := rfl
@[simp] theorem State.requestTokens_copies (k : Nat) (l : List Nat) : (s.requestTokens k l).copies = s.copies := rfl
@[simp] theorem State.requestTokens_saves (k : Nat) (l : List Nat) : (s.requestTokens k l).saves = s.saves := rfl
@[simp] theorem State.requestTokens_atomics (k : Nat) (l : List Nat) : (s.requestTokens k l).atomics = s.atomics := rfl
@[simp] theorem State.requestTokens_emits (k : Nat) (l : List Nat) : (s.requestTokens k l).emits = s.emits := rfl
@[simp] theorem State.requestTokens_joined (k : Nat) (l : List Nat) : (s.requestTokens k l).joined = s.joined := rfl
@[simp] theorem State.requestTokens_cp (k : Nat) (l : List Nat) : (s.requestTokens k l).cp = s.cp := rfl
@[simp] theorem State.requestTokens_jalti (k : Nat) (l : List Nat) : (s.requestTokens k l).jalti = s.jalti := rfl
@[simp] theorem State.requestTokens_rel (k : Nat) (l : List Nat) : (s.requestTokens k l).rel = s.rel := rfl
@[simp] theorem State.requestTokens_trace (k : Nat) (l : List Nat) : (s.requestTokens k l).trace = s.trace := rfl
@[simp] theorem State.requestTokens_fab (k : Nat) (l : List Nat) : (s.requestTokens k l).fab = s.fab := rfl
@[simp] theorem State.requestTokens_sec (k : Nat) (l : List Nat) : (s.requestTokens k l).sec = s.sec := rfl
@[simp] theorem State.requestTokens_cc (k : Nat) (l : List Nat) : (s.requestTokens k l).cc = s.cc := rfl
@[simp] theorem State.requestTokens_lc (k : Nat) (l : List Nat) : (s.requestTokens k l).lc = s.lc := rfl
@[simp] theorem State.requestTokens_lcPart (k : Nat) (l : List Nat) : (s.requestTokens k l).lcPart = s.lcPart := rfl
@[simp] theorem State.requestTokens_lcEnd (k : Nat) (l : List Nat) : (s.requestTokens k l).lcEnd = s.lcEnd := rfl
@[simp] theorem State.requestTokens_epochAt (k : Nat) (l : List Nat) : (s.requestTokens k l).epochAt = s.epochAt := rfl
@[simp] theorem State.requestTokens_tag (k : Nat) (l : List Nat) : (s.requestTokens k l).tag = s.tag := rfl
@[simp] theorem State.requestTokens_order (k : Nat) (l : List Nat) : (s.requestTokens k l).order = s.order := rfl
@[simp] theorem State.requestTokens_agenda (k : Nat) (l : List Nat) : (s.requestTokens k l).agenda = s.agenda := rfl
@[simp] theorem State.requestTokens_cur (k : Nat) (l : List Nat) : (s.requestTokens k l).cur = s.cur := rfl
@[simp] theorem State.requestTokens_turn (k : Nat) (l : List Nat) : (s.requestTokens k l).turn = s.turn := rfl
@[simp] theorem State.requestTokens_free (k : Nat) (l : List Nat) : (s.requestTokens k l).free = s.free := rfl

end Sys2Proof.Machine
end

