-- ==== Sys2Proof/Laws/Retire.lean ====
section
/-! SUPPORT. What counting, retiring and issuing may do, said once: the lemmas that results are proved with. -/

namespace Sys2Proof.Machine

open Sys2Proof.Safety

/-! ### Waves -/

@[simp] theorem State.wave_setWave_self {s : State} {k : Nat} (w : Wave) (h : k < s.waves.length) : (s.setWave k w).wave k = w := by
  simp only [State.wave, State.setWave_waves]; exact getD_set_self _ _ _ h

theorem State.wave_setWave_ne {s : State} {k j : Nat} (w : Wave) (h : j ≠ k) : (s.setWave k w).wave j = s.wave j := by
  simp only [State.wave, State.setWave_waves]; exact getD_set_ne _ _ _ h

@[simp] theorem State.wave_modWave_self {s : State} {k : Nat} (f : Wave → Wave) (h : k < s.waves.length) :
    (s.modWave k f).wave k = f (s.wave k) := by
  simp only [State.wave, State.modWave_waves]; exact getD_modAt_self _ _ _ h

theorem State.wave_modWave_ne {s : State} {k j : Nat} (f : Wave → Wave) (h : j ≠ k) : (s.modWave k f).wave j = s.wave j := by
  simp only [State.wave, State.modWave_waves]; exact getD_modAt_ne _ _ _ h

@[simp] theorem State.setWave_length (s : State) (k : Nat) (w : Wave) : (s.setWave k w).waves.length = s.waves.length := by simp

@[simp] theorem State.modWave_length (s : State) (k : Nat) (f : Wave → Wave) : (s.modWave k f).waves.length = s.waves.length := by simp

theorem State.setWave_modWave (s : State) (k : Nat) (f : Wave → Wave) (w : Wave) : (s.modWave k f).setWave k w = s.setWave k w := by
  have : ∀ (l : List Wave) (n : Nat), (modAt f l n).set n w = l.set n w := by
    intro l
    induction l with
    | nil => intro n; rfl
    | cons h t ih => intro n; cases n <;> simp [modAt, ih]
  simp [State.setWave, State.modWave, this]

theorem State.modWave_eq_setWave {s : State} {k : Nat} (f : Wave → Wave) (h : k < s.waves.length) :
    s.modWave k f = s.setWave k (f (s.wave k)) := by
  simp only [State.modWave, State.setWave, State.wave, modAt_eq_set f s.waves default h]

theorem State.setWave_self {s : State} {k : Nat} (h : k < s.waves.length) : s.setWave k (s.wave k) = s := by
  have : s.waves.set k (s.wave k) = s.waves := by
    simp only [State.wave, List.getD_eq_getElem?_getD, List.getElem?_eq_getElem h, Option.getD_some, List.set_getElem_self]
  simp only [State.setWave, this]

theorem State.setWave_setWave (s : State) (k : Nat) (w x : Wave) : (s.setWave k w).setWave k x = s.setWave k x := by
  simp [State.setWave]

/-! ### Counting -/

/-- `t` is `s` but for performance counters and messages. -/
structure Counted (s t : State) : Prop where
  waves : t.waves = s.waves
  rest : ({ t with ctxs := s.ctxs, cp := { t.cp with msix := s.cp.msix } } : State) = s
  ctxs : t.ctxs.map uncounted = s.ctxs.map uncounted

theorem Counted.refl (s : State) : Counted s s := ⟨rfl, rfl, rfl⟩

theorem Counted.trans {s t u : State} (h : Counted s t) (g : Counted t u) : Counted s u :=
  ⟨g.waves.trans h.waves,
   (congrArg (fun x : State => ({ x with ctxs := s.ctxs, cp := { x.cp with msix := s.cp.msix } } : State)) g.rest).trans h.rest,
   g.ctxs.trans h.ctxs⟩

theorem counted_messages (s : State) (fn vec : Nat) (l : List Nat) : Counted s (l.foldl (fun s _ => s.message fn vec) s) := by
  induction l generalizing s with
  | nil => exact Counted.refl s
  | cons a t ih =>
    have first : Counted s (s.message fn vec) := ⟨rfl, rfl, rfl⟩
    exact first.trans (ih _)

/-- Counting events changes performance counters and sends messages, and nothing else. -/
theorem counted_count (s : State) (c event n : Nat) (u : Bool) : Counted s (s.count c event n u) := by
  unfold State.count
  dsimp only
  split
  · exact Counted.refl s
  · have first (f : Perf → Perf) : Counted s (s.modCtx c fun x => { x with perf := (s.ctx c).perf.map f }) :=
      ⟨rfl, rfl, map_modAt _ _ _ _ fun _ => rfl⟩
    exact (first _).trans (counted_messages _ _ _ _)

theorem same_counted {s t u : State} {k : Nat} (h : SameOutside k s t) (g : Counted t u) : SameOutside k s u :=
  ⟨(congrArg (fun x : State => ({ x with waves := s.waves, ctxs := s.ctxs, cp := { x.cp with msix := s.cp.msix } } : State))
      g.rest).trans h.rest,
   g.ctxs.trans h.ctxs,
   fun j hj => by rw [← h.waves j hj]; simp only [State.wave, g.waves]⟩

/-! ### Retirement -/

theorem same_setWave (s : State) (k : Nat) (w : Wave) : SameOutside k s (s.setWave k w) :=
  ⟨rfl, rfl, fun _ h => State.wave_setWave_ne w h⟩

theorem same_trans {k : Nat} {s t u : State} (h : SameOutside k s t) (g : SameOutside k t u) : SameOutside k s u :=
  ⟨(congrArg (fun x : State => ({ x with waves := s.waves, ctxs := s.ctxs, cp := { x.cp with msix := s.cp.msix } } : State))
      g.rest).trans h.rest,
   g.ctxs.trans h.ctxs,
   fun j hj => (g.waves j hj).trans (h.waves j hj)⟩

/-- The state after a retirement is the state with the retired wave, but for counters. -/
theorem counted_retireAt (s : State) (k : Nat) (i : Instr) (priv : Priv) (next : VAddr) (extra : List Byte) :
    Counted (s.setWave k ((s.wave k).retired i priv next extra (1 ≤ (s.group (s.wave k).group).ilevel) (s.group (s.wave k).group).det
      (s.ctx (s.wave k).ctx).preempting (s.group (s.wave k).group).quantum.toNat)) (s.retireAt k i priv next extra) := by
  unfold State.retireAt
  dsimp only
  split
  · exact Counted.trans (counted_count _ _ _ _ _) (counted_count _ _ _ _ _)
  · exact counted_count _ _ _ _ _

theorem plain_retired (w : Wave) (i : Instr) (priv : Priv) (next : VAddr) (extra : List Byte) (f d p : Bool) (q : Nat) :
    plain (w.retired i priv next extra f d p q) = plain w := by
  unfold Wave.retired plain
  dsimp only
  split
  · split <;> rfl
  · rfl

theorem retired_pc (w : Wave) (i : Instr) (priv : Priv) (next : VAddr) (extra : List Byte) (f d p : Bool) (q : Nat) :
    (w.retired i priv next extra f d p q).pc = next := by
  unfold Wave.retired
  dsimp only
  split
  · split <;> rfl
  · rfl

theorem retired_state (w : Wave) (i : Instr) (priv : Priv) (next : VAddr) (extra : List Byte) (f d p : Bool) (q : Nat) :
    (w.retired i priv next extra f d p q).state = if i.marker && !w.pending.isEmpty then .parked else w.state := by
  unfold Wave.retired
  dsimp only
  cases i.marker <;> cases h : w.pending.isEmpty <;> simp

theorem retired_unmarked (w : Wave) (i : Instr) (priv : Priv) (next : VAddr) (extra : List Byte) (f d p : Bool) (q : Nat) :
    (w.retired i priv next extra f d p q).unmarked = if i.marker && w.pending.isEmpty then [] else w.unmarked := by
  unfold Wave.retired
  dsimp only
  cases i.marker <;> cases h : w.pending.isEmpty <;> simp

theorem retired_sigreg (w : Wave) (i : Instr) (priv : Priv) (next : VAddr) (extra : List Byte) (f d p : Bool) (q : Nat) :
    (w.retired i priv next extra f d p q).sigreg = if f && decide (priv = .u) then foldedSig i extra w.sigreg else w.sigreg := by
  unfold Wave.retired
  dsimp only
  split
  · split <;> rfl
  · rfl

/-- A retirement of wave `k`, from a state in which it holds `w`. -/
theorem retires_retireAt {s u : State} {k : Nat} {w : Wave} (i : Instr) (next : VAddr) (extra : List Byte) (lt : k < u.waves.length)
    (same : SameOutside k s u) (hw : u.wave k = w) (hg : w.group = (s.wave k).group) (hp : w.priv = (s.wave k).priv) :
    Retires s (u.retireAt k i (s.wave k).priv next extra) k i next w extra := by
  have hgroups : u.groups = s.groups := by
    have := congrArg State.groups same.rest; simpa using this
  have c := counted_retireAt u k i (s.wave k).priv next extra
  have wk := congrArg (fun l : List Wave => l.getD k default) c.waves
  change (u.retireAt k i (s.wave k).priv next extra).wave k = (State.setWave _ _ _).wave k at wk
  rw [State.wave_setWave_self _ lt] at wk
  refine ⟨same_counted (same_trans same (same_setWave u k _)) c, ?_, ?_, ?_, ?_, ?_⟩
  · rw [wk, plain_retired]; change plain (u.wave k) = _; rw [hw]
  · rw [wk, retired_pc]
  · rw [wk, retired_state]; change (if i.marker && !(u.wave k).pending.isEmpty then _ else (u.wave k).state) = _; rw [hw]
  · rw [wk, retired_unmarked]; change (if i.marker && (u.wave k).pending.isEmpty then _ else (u.wave k).unmarked) = _; rw [hw]
  · rw [wk, retired_sigreg]
    have : u.group (u.wave k).group = s.group (s.wave k).group := by simp only [State.group, hgroups, hw, hg]
    rw [this, hw]
    simp

/-! ### Issue -/

/-- The shadow of a wave whose registers are the leader's does the same (R337). -/
theorem onBoth_same {s : State} {k : Nat} (i : Instr) (go : State → State) (h : (s.wave k).shadow = []) : s.onBoth k i go = go s := by
  simp [State.onBoth, h]

/-- The errors that an instruction reads are among those that it names. -/
theorem readErrs_nil {w : Wave} {i : Instr} (h : w.errsOf i = []) : w.readErrs i = [] := by simp [Wave.readErrs, h]

/-- An instruction that issues runs its own effect. -/
theorem issue_runs {s : State} {k : Nat} {i : Instr} (body : Nat → State → State) (h : Issues s k i) :
    issue i s body = .next (body k (issued s k)) := by
  have w1 : (issued s k).wave k = { s.wave k with lastIssue := s.cc, preempted := false } := State.wave_modWave_self _ h.lt
  have he : ((issued s k).wave k).readErrs i = [] := by rw [w1]; exact readErrs_nil h.errs
  have hs : ((issued s k).wave k).shadow = [] := by rw [w1]; exact h.shadow
  unfold issue
  rw [h.cur]
  simp only [State.issueAt, h.can, Bool.not_true, Bool.false_eq_true, if_false, h.decode, h.errs, List.isEmpty_nil, if_true]
  change Host.Outcome.next (State.meetRegErrs (issued s k) k i _) = _
  simp only [State.meetRegErrs, he, List.isEmpty_nil, if_true, onBoth_same i _ hs, h.txn, Bool.false_eq_true, if_false]
  have : (issued s k).checked (s.wave k) = s.checked (s.wave k) := rfl
  simp [this, h.commit]

theorem wave_issued {s : State} {k : Nat} {i : Instr} (h : Issues s k i) :
    (issued s k).wave k = { s.wave k with lastIssue := s.cc, preempted := false } := State.wave_modWave_self _ h.lt

theorem same_issued (s : State) (k : Nat) : SameOutside k s (issued s k) :=
  ⟨rfl, rfl, fun _ h => State.wave_modWave_ne _ h⟩

/-- Retirements of equal states at equal places are equal. -/
theorem retireAt_congr {S S' : State} {k : Nat} {i : Instr} {p p' : Priv} {n n' : VAddr} {e : List Byte} (a : S = S') (b : p = p') (c : n = n') :
    S.retireAt k i p n e = S'.retireAt k i p' n' e := by subst a b c; rfl

/-- An instruction whose own effect is a state and the retirement there. -/
theorem runs_of_issue {s u : State} {k : Nat} {i : Instr} {body : Nat → State → State} (h : Issues s k i)
    (run : exec i s = issue i s body) (lt : k < u.waves.length)
    (eff : body k (issued s k) = u.retireAt k i (u.wave k).priv ((u.wave k).pc + 8)) : Runs i s k u := by
  refine ⟨_, run.trans (issue_runs _ h), ?_⟩
  rw [eff]
  exact retires_retireAt i _ [] lt ⟨rfl, rfl, fun _ _ => rfl⟩ rfl rfl rfl

end Sys2Proof.Machine
end

