-- ==== Sys2Proof/Laws/Side.lean ====
section
/-! SUPPORT. What memory traffic may change, said once for each shared operation: homes, caches, translations, the fabric's
queues, records, trace, counters and messages, and nothing else. -/

namespace Sys2Proof.Safety

open Sys2Proof.Machine

/-! ### The relation -/

theorem MemorySide.refl (s : State) : MemorySide s s := ⟨rfl, rfl, rfl, rfl, rfl, rfl⟩

theorem MemorySide.trans {s t u : State} (h : MemorySide s t) (g : MemorySide t u) : MemorySide s u :=
  ⟨(congrArg (fun x : State => ({ x with
      mem := s.mem, cores := s.cores, ctxs := s.ctxs, launches := s.launches, rel := s.rel, trace := s.trace
      fab := { x.fab with queues := s.fab.queues, shareErrs := s.fab.shareErrs }
      cp := { x.cp with msix := s.cp.msix, frameHusk := s.cp.frameHusk } } : State)) g.rest).trans h.rest,
   g.sp.trans h.sp, g.host.trans h.host, g.ctxs.trans h.ctxs, g.launches.trans h.launches, g.cores.trans h.cores⟩

theorem MemorySide.waves {s t : State} (h : MemorySide s t) : t.waves = s.waves := by
  have := congrArg State.waves h.rest; exact this
theorem MemorySide.groups {s t : State} (h : MemorySide s t) : t.groups = s.groups := by
  have := congrArg State.groups h.rest; exact this
theorem MemorySide.wave {s t : State} (h : MemorySide s t) (k : Nat) : t.wave k = s.wave k := by
  simp only [State.wave, h.waves]
theorem MemorySide.group {s t : State} (h : MemorySide s t) (g : Nat) : t.group g = s.group g := by
  simp only [State.group, h.groups]

end Sys2Proof.Safety

namespace Sys2Proof.Machine

open Sys2Proof.Safety

theorem side_foldl {α : Type} {f : State → α → State} (h : ∀ s x, MemorySide s (f s x)) (l : List α) (s : State) :
    MemorySide s (l.foldl f s) := by
  induction l generalizing s with
  | nil => exact MemorySide.refl s
  | cons a t ih => exact (h s a).trans (ih _)

/-! ### Updates of single parts -/

theorem side_modCtx (s : State) (c : Nat) (f : Context → Context) (h : ∀ x, quietCtx (f x) = quietCtx x) :
    MemorySide s (s.modCtx c f) := ⟨rfl, rfl, rfl, map_modAt _ _ _ _ h, rfl, rfl⟩
theorem side_modLaunch (s : State) (l : Nat) (f : Launch → Launch) (h : ∀ x, quietLaunch (f x) = quietLaunch x) :
    MemorySide s (s.modLaunch l f) := ⟨rfl, rfl, rfl, rfl, map_modAt _ _ _ _ h, rfl⟩
theorem side_modCore (s : State) (c : Nat) (f : Core → Core) (h : ∀ x, quietCore (f x) = quietCore x) :
    MemorySide s (s.modCore c f) := ⟨rfl, rfl, rfl, rfl, rfl, map_modAt _ _ _ _ h⟩
theorem side_mem (s : State) (m : Mem) (h : m.sp = s.mem.sp) (g : m.host = s.mem.host) : MemorySide s { s with mem := m } :=
  ⟨rfl, h, g, rfl, rfl, rfl⟩
theorem side_message (s : State) (fn vec : Nat) : MemorySide s (s.message fn vec) := ⟨rfl, rfl, rfl, rfl, rfl, rfl⟩
theorem side_rel (s : State) (r : Rel) : MemorySide s { s with rel := r } := ⟨rfl, rfl, rfl, rfl, rfl, rfl⟩
theorem side_trace (s : State) (r : Trace) : MemorySide s { s with trace := r } := ⟨rfl, rfl, rfl, rfl, rfl, rfl⟩
theorem side_writeHome (s : State) (l : List (Nat × Byte)) : MemorySide s (s.writeHome l) := ⟨rfl, rfl, rfl, rfl, rfl, rfl⟩
theorem side_writeHomeN (s : State) (a : Nat) (l : List Byte) : MemorySide s (s.writeHomeN a l) := side_writeHome _ _

/-! ### Counters, records and trace -/

theorem side_count (s : State) (c event n : Nat) (u : Bool) : MemorySide s (s.count c event n u) := by
  unfold State.count
  dsimp only
  split
  · exact .refl s
  · refine MemorySide.trans ?_ (side_foldl (fun s _ => side_message s _ _) _ _)
    exact side_modCtx s c _ fun _ => rfl

theorem side_traceEntry (s : State) (type units context : Nat) (body : List Byte) (stamp : Option Nat) :
    MemorySide s (s.traceEntry type units context body stamp) := by
  unfold State.traceEntry
  dsimp only
  split
  · exact side_trace s _
  · exact ((side_writeHomeN s _ _).trans (side_writeHomeN _ _ _)).trans (side_trace _ _)

theorem side_record (s : State) (r : Rec) : MemorySide s (s.record r) := by
  unfold State.record
  have first : MemorySide s (if s.rel.takes then
      (let u := { s.writeHomeN (s.localPa (s.rel.base.toNat / 4096 * 4096 + 64 * (s.rel.head.toNat % s.rel.size.toNat)))
          (r.bytes s.rel.rseq s.rel.pendingLost) with
          rel := { s.rel with head := s.rel.head + 1, rseq := s.rel.rseq + 1, pendingLost := 0 } }
       if s.rel.irq && (2 ≤ r.sev || s.rel.head == s.rel.tail) then State.message u 0 16 else u)
    else { s with rel := { s.rel with ovf := true, dropped := min (s.rel.dropped + 1) (2 ^ 32 - 1), rseq := s.rel.rseq + 1
                                      pendingLost := min (s.rel.pendingLost + 1) 65535 } }) := by
    split
    · dsimp only
      split
      · exact ((side_writeHomeN s _ _).trans (side_rel _ _)).trans (side_message _ _ _)
      · exact (side_writeHomeN s _ _).trans (side_rel _ _)
    · exact side_rel s _
  dsimp only at first ⊢
  split
  · exact first.trans (side_traceEntry _ _ _ _ _ _)
  · exact first

/-! ### Fabric, errors and homes -/

theorem side_enqueue (s : State) (x y z cc : Nat) (p : Packet) : MemorySide s { s with fab := s.fab.enqueue x y z cc p } := by
  unfold Fabric.enqueue; dsimp only; split <;> exact ⟨rfl, rfl, rfl, rfl, rfl, rfl⟩

theorem side_post (s : State) (a : Asker) (sec : Nat) (write : Bool) : MemorySide s (s.post a sec write) := by
  unfold State.post
  dsimp only
  split
  · exact (side_enqueue s _ _ _ _ _).trans (side_count _ _ _ _ _)
  · exact side_enqueue s _ _ _ _ _

theorem side_postTo (s : State) (a : Asker) (dest : Nat) (write : Bool) : MemorySide s (s.postTo a dest write) :=
  side_enqueue s _ _ _ _ _

theorem side_postWalk (s : State) (a : Asker) (va : Nat) : MemorySide s (s.postWalk a va) :=
  side_foldl (fun s _ => side_post s _ _ _) _ s

theorem side_heal (s : State) (sec owner : Nat) : MemorySide s (s.heal sec owner) := by
  unfold State.heal
  split
  · exact .refl s
  · have wrong (f : List (Nat × Byte)) (e : List (Nat × List (Nat × BitVec 8))) :
        MemorySide s { s with mem := { s.mem with home := Memory.writeAll s.mem.home f, symErrs := e } } := side_mem s _ rfl rfl
    dsimp only
    generalize rsDecode _ = r
    cases r with
    | unseen => exact wrong _ _
    | corrects p => exact (wrong _ _).trans (side_record _ _)
    | uncorrectable =>
      dsimp only
      split
      · exact .refl s
      · exact side_record _ _

theorem side_noteShareErr (s : State) (sec : Nat) : MemorySide s (s.noteShareErr sec) := by
  unfold State.noteShareErr
  split
  · exact .refl s
  · exact ⟨rfl, rfl, rfl, rfl, rfl, rfl⟩

theorem side_healL2 (s : State) (sec owner : Nat) : MemorySide s (s.healL2 sec owner) := by
  unfold State.healL2
  dsimp only
  split
  · exact .refl s
  · exact (side_foldl (fun s _ => (side_record s _).trans (side_noteShareErr _ _)) _ s).trans (side_mem _ _ rfl rfl)

theorem side_abortLaunch (s : State) (l : Nat) : MemorySide s (s.abortLaunch l) := by
  refine side_modLaunch s l _ fun x => ?_
  split <;> rfl

theorem side_charge (s : State) (source sec owner loc : Nat) : MemorySide s (s.charge source sec owner loc) := by
  unfold State.charge
  refine ((side_record s _).trans (side_foldl (fun s l => ?_) _ _)).trans (side_mem _ _ rfl rfl)
  dsimp only
  split
  · exact side_abortLaunch s l
  · exact .refl s

theorem side_rdcWriteBack (s : State) (sec : Nat) : MemorySide s (s.rdcWriteBack sec) := by
  unfold State.rdcWriteBack
  split
  · exact .refl s
  · dsimp only
    split
    · exact (side_charge s _ _ _ _).trans (side_mem _ _ rfl rfl)
    · exact (side_writeHome s _).trans (side_mem _ _ rfl rfl)

theorem side_rdcDrop (s : State) (sec : Nat) : MemorySide s (s.rdcDrop sec) :=
  (side_rdcWriteBack s sec).trans (side_mem _ _ rfl rfl)

theorem side_rdcRoom (s : State) (h sec : Nat) : MemorySide s (s.rdcRoom h sec) := by
  unfold State.rdcRoom
  dsimp only
  split
  · exact .refl s
  · split
    · exact .refl s
    · exact side_foldl side_rdcDrop _ s

theorem side_rdcFill (s : State) (h owner sec : Nat) : MemorySide s (s.rdcFill h owner sec) :=
  (side_rdcRoom s h sec).trans (side_mem _ _ rfl rfl)

theorem side_rdcUse (s : State) (h owner sec : Nat) : MemorySide s (s.rdcUse h owner sec).2 := by
  unfold State.rdcUse
  dsimp only
  split
  · exact .refl s
  · exact side_rdcFill s _ _ _

theorem side_nearRead (s : State) (a : Asker) (sec : Nat) : MemorySide s (s.nearRead a sec).2.2 := by
  unfold State.nearRead
  have first := ((side_post s a sec false).trans (side_heal _ sec a.ctx)).trans (side_healL2 _ sec a.ctx)
  dsimp only
  split
  · exact first
  · refine MemorySide.trans ?_ ((side_rdcUse _ _ _ _).trans (side_mem _ _ rfl rfl))
    split
    · exact first.trans (side_rdcDrop _ _)
    · exact first

theorem side_nearWrite (s : State) (a : Asker) (sec : Nat) (l : List (Nat × Byte)) : MemorySide s (s.nearWrite a sec l) := by
  unfold State.nearWrite
  dsimp only
  have first : MemorySide s (if byteMask (l.map fun e => e.1 % 64) = BitVec.allOnes 64 then s.post a sec true
      else (s.post a sec true).heal sec a.ctx) := by
    split
    · exact side_post s a sec true
    · exact (side_post s a sec true).trans (side_heal _ _ _)
  have through (u : State) (c : Bool) : MemorySide u (if c then u.writeHome l else u) := by
    cases c
    · exact .refl u
    · exact side_writeHome u l
  split
  · exact first.trans (side_writeHome _ _)
  · exact first.trans ((side_rdcUse _ _ _ _).trans ((through _ _).trans (side_mem _ _ rfl rfl)))

/-! ### The L1 caches -/

theorem side_clearL1Errs (s : State) (core sec : Nat) : MemorySide s (s.clearL1Errs core sec) := by
  unfold State.clearL1Errs
  split
  · exact .refl s
  · exact side_mem s _ rfl rfl

theorem side_l1Corrected (s : State) (core : Nat) (x : L1Sector) (e : Nat × List Nat) : MemorySide s (s.l1Corrected core x e) :=
  side_record s _

theorem side_meetL1 (s : State) (core : Nat) (x : L1Sector) (written : BitVec 64) : MemorySide s (s.meetL1 core x written).2 := by
  unfold State.meetL1
  have fixed (l : List (Nat × List Nat)) : MemorySide s (l.foldl (fun s e => s.l1Corrected core x e) (s.clearL1Errs core x.sec)) :=
    (side_clearL1Errs s _ _).trans (side_foldl (fun s e => side_l1Corrected s core x e) _ _)
  split
  · exact .refl s
  · split
    · exact (fixed _).trans (side_modCore _ _ _ fun _ => rfl)
    · exact (fixed _).trans (side_mem _ _ rfl rfl)

theorem side_ownSector (s : State) (core sec : Nat) (written : BitVec 64) : MemorySide s (s.ownSector core sec written).2 := by
  unfold State.ownSector
  split
  · exact .refl s
  · exact side_meetL1 s _ _ _

theorem side_writeBackSector (s : State) (a : Asker) (x : L1Sector) : MemorySide s (s.writeBackSector a x) := by
  unfold State.writeBackSector
  split
  · exact .refl s
  · dsimp only
    split
    · exact (side_clearL1Errs s _ _).trans (side_charge _ _ _ _ _)
    · exact ((side_clearL1Errs s _ _).trans (side_foldl (fun s e => side_l1Corrected s _ _ e) _ _)).trans (side_nearWrite _ _ _ _)

theorem side_makeRoom (s : State) (core line : Nat) : MemorySide s (s.makeRoom core line) := by
  unfold State.makeRoom
  dsimp only
  split
  · exact .refl s
  · refine MemorySide.trans ?_ (side_foldl (fun s _ => side_writeBackSector s _ _) _ _)
    exact side_modCore s core _ fun _ => rfl

theorem side_putSector (s : State) (core hint : Nat) (x : L1Sector) : MemorySide s (s.putSector core hint x) :=
  (side_makeRoom s core _).trans (side_modCore _ core _ fun _ => rfl)

theorem side_touch (s : State) (core line hint : Nat) : MemorySide s (s.modCore core fun c => c.touch line hint) :=
  side_modCore s core _ fun _ => rfl

/-- What a miss leaves behind its answer: nothing, or the sector it fills. -/
theorem side_served (s : State) (c : Bool) (core hint : Nat) (x : L1Sector) :
    MemorySide s (if c then s else s.putSector core hint x) := by
  cases c
  · exact side_putSector s core hint x
  · exact .refl s

theorem side_loadSector (s : State) (a : Asker) (hint sec : Nat) (need : BitVec 64) :
    MemorySide s (s.loadSector a hint sec need).2.2 := by
  unfold State.loadSector
  have own := side_ownSector s a.core sec 0
  have far (u : State) : MemorySide u ((u.count a.ctx 0x07 1 a.umode).nearRead a sec).2.2 :=
    (side_count u a.ctx 0x07 1 a.umode).trans (side_nearRead _ a sec)
  split
  · rename_i x u e
    rw [e] at own
    dsimp only at own ⊢
    split
    · exact own.trans (side_touch u a.core (sec / 4) hint)
    · exact (own.trans (far u)).trans (side_served _ _ _ _ _)
  · rename_i u e
    rw [e] at own
    dsimp only at own ⊢
    refine (own.trans (far u)).trans ?_
    generalize ((u.count a.ctx 0x07 1 a.umode).nearRead a sec) = q
    exact side_served _ (decide (hint = 2) || q.2.1 != 0) _ _ _

theorem side_storeSector (s : State) (a : Asker) (hint sec : Nat) (l : List (Nat × Byte)) :
    MemorySide s (s.storeSector a hint sec l) := by
  unfold State.storeSector
  dsimp only
  have own := side_ownSector s a.core sec (byteMask (l.map fun e => e.1 % 64))
  revert own
  generalize s.ownSector a.core sec (byteMask (l.map fun e => e.1 % 64)) = r
  obtain ⟨o, u⟩ := r
  intro own
  dsimp only
  split
  · refine own.trans (MemorySide.trans ?_ (side_nearWrite _ _ _ _))
    split
    · exact side_modCore u _ _ fun _ => rfl
    · exact .refl u
  · exact own.trans (side_putSector _ _ _ _)

theorem side_storeAtCore (s : State) (a : Asker) (hint : Nat) (l : List (Nat × Byte)) : MemorySide s (s.storeAtCore a hint l) :=
  side_foldl (fun s _ => side_storeSector s _ _ _ _) _ s

theorem side_storeAtHome (s : State) (a : Asker) (l : List (Nat × Byte)) : MemorySide s (s.storeAtHome a l) :=
  side_foldl (fun s _ => side_nearWrite s _ _ _) _ s

theorem side_markWriters (s : State) (l grpid : Nat) (pas : List Nat) : MemorySide s (s.markWriters l grpid pas) :=
  side_modLaunch s l _ fun _ => rfl

theorem side_cleanSector (s : State) (a : Asker) (sec : Nat) : MemorySide s (s.cleanSector a sec) := by
  unfold State.cleanSector
  split
  · exact .refl s
  · dsimp only
    split
    · exact side_writeBackSector s _ _
    · exact (side_writeBackSector s _ _).trans (side_modCore _ _ _ fun _ => rfl)

theorem side_invalSector (s : State) (a : Asker) (sec : Nat) : MemorySide s (s.invalSector a sec) :=
  (side_cleanSector s a sec).trans (side_modCore _ _ _ fun _ => rfl)

theorem side_dropClean (s : State) (core : Nat) (p : L1Sector → Bool) : MemorySide s (s.modCore core fun c => c.dropClean p) :=
  side_modCore s core _ fun _ => rfl

/-! ### Release, acquire and deposits -/

theorem side_releaseCore (s : State) (a : Asker) (scope : Scope) : MemorySide s (s.releaseCore a scope).2 := by
  unfold State.releaseCore
  have first := side_foldl (fun s sec => side_cleanSector s a sec) (s.core a.core).dirtySectors s
  dsimp only
  split
  · exact first.trans (side_foldl (fun s sec => side_rdcWriteBack s sec) _ _)
  · exact first

theorem side_depositAt (s : State) (slice line : Nat) (x : BitVec 512) : MemorySide s (s.depositAt slice line x) :=
  side_mem s _ rfl rfl

theorem side_acquireAll (s : State) (core : Nat) (scope : Scope) : MemorySide s (s.acquireAll core scope) := by
  unfold State.acquireAll
  dsimp only
  split
  · exact (side_dropClean s core _).trans (side_mem _ _ rfl rfl)
  · exact side_dropClean s core _

theorem side_acquireLine (s : State) (core : Nat) (scope : Scope) (pa : Nat) : MemorySide s (s.acquireLine core scope pa) := by
  unfold State.acquireLine
  dsimp only
  split
  · exact side_acquireAll s _ _
  · split
    · exact (side_dropClean s core _).trans (side_mem _ _ rfl rfl)
    · exact side_dropClean s core _

/-! ### Loads and translations -/

theorem side_loadBytes (s : State) (k : Nat) (a : Asker) (hint : Nat) (pas : List Nat) : MemorySide s (s.loadBytes k a hint pas).2.2 := by
  unfold State.loadBytes
  have gen : ∀ (l : List Nat) (f : Nat → BitVec 64) (h : Nat) (acc : List (Nat × List Byte × BitVec 64) × State), MemorySide s acc.2 →
      MemorySide s (l.foldl (fun acc sec =>
        (acc.1 ++ [(sec, (acc.2.loadSector a h sec (f sec)).1, (acc.2.loadSector a h sec (f sec)).2.1)],
          (acc.2.loadSector a h sec (f sec)).2.2)) acc).2 := by
    intro l f h
    induction l with
    | nil => intro acc g; exact g
    | cons x t ih => intro acc g; exact ih _ (g.trans (side_loadSector _ _ _ _ _))
  exact gen _ (fun sec => byteMask ((pas.filter fun p => sectorOf p == sec).map (· % 64))) _ ([], s) (.refl s)

theorem side_noteFrame (s : State) (c : Nat) (e : TlbEntry) : MemorySide s (s.noteFrame c e) := by
  unfold State.noteFrame
  dsimp only
  split
  · exact .refl s
  · exact ⟨rfl, rfl, rfl, rfl, rfl, rfl⟩

theorem side_fillTlb (s : State) (c core : Nat) (e : TlbEntry) : MemorySide s (s.fillTlb c core e) := by
  refine MemorySide.trans ?_ (side_noteFrame _ _ _)
  exact side_modCore s core _ fun _ => rfl

theorem side_countDenials (s : State) (c n : Nat) : MemorySide s (s.countDenials c n) := by
  unfold State.countDenials
  split
  · exact .refl s
  · exact side_modCtx _ _ _ fun _ => rfl

theorem side_keepPages (s : State) (w : Wave) (pages : List TlbEntry) : MemorySide s (s.keepPages w pages) :=
  (side_foldl (f := fun (s : State) e => s.fillTlb w.ctx (s.coreOf w) e) (fun s e => side_fillTlb s _ _ e) pages s).trans
    (side_countDenials _ _ _)

theorem side_postWalks (s : State) (w : Wave) (cls : Nat) (reqs : List LaneReq) : MemorySide s (s.postWalks w cls reqs) :=
  side_foldl (fun s _ => side_postWalk s _ _) _ s

theorem side_noteDenied (s : State) (c : Nat) (bk : Bool) (x : Window) (reqs : List LaneReq) :
    MemorySide s (s.noteDenied c bk x reqs) := by
  unfold State.noteDenied
  split
  · exact .refl s
  · exact side_countDenials s _ _

theorem side_noteHusk (s : State) (bk : Bool) (x : Window) (reqs : List LaneReq) : MemorySide s (s.noteHusk bk x reqs) := by
  unfold State.noteHusk
  split
  · exact .refl s
  · refine side_foldl (fun s f => ?_) _ s
    split
    · exact .refl s
    · exact ⟨rfl, rfl, rfl, rfl, rfl, rfl⟩

theorem side_healSp (s : State) (key ctx : Nat) : MemorySide s (s.healSp key ctx) := by
  unfold State.healSp
  split
  · refine MemorySide.trans ?_ (side_record _ _)
    exact side_mem s _ rfl rfl
  · exact .refl s

theorem side_storePlain (s : State) (a : Asker) (hint : Nat) (event : Bool) (bytes : List (Nat × Byte)) :
    MemorySide s (s.storePlain a hint event bytes) := by
  unfold State.storePlain
  split
  · exact (side_foldl (fun s sec => side_cleanSector s a sec) _ s).trans (side_storeAtCore _ _ _ _)
  · exact side_storeAtCore s _ _ _

end Sys2Proof.Machine
end

