-- ==== Sys2Proof/Laws/Remote.lean ====
section
/-! SUPPORT. The bytes that stand at the homes and in the remote data cache: what reads and writes there do to them. -/

namespace Sys2Proof.Rules

open Sys2Proof.Machine Sys2Proof.Safety

/-! ### Lists of bytes -/

theorem lastByte_nil (pa : Nat) : lastByte [] pa = none := rfl

theorem lastByte_append (l m : List (Nat × Byte)) (pa : Nat) : lastByte (l ++ m) pa = (lastByte m pa).or (lastByte l pa) := by
  unfold lastByte
  rw [List.reverse_append, List.find?_append]
  cases m.reverse.find? fun e => e.1 == pa <;> simp

theorem lastByte_cons (e : Nat × Byte) (l : List (Nat × Byte)) (pa : Nat) :
    lastByte (e :: l) pa = (lastByte l pa).or (if e.1 = pa then some e.2 else none) := by
  rw [show e :: l = [e] ++ l from rfl, lastByte_append]
  congr 1
  by_cases h : e.1 = pa <;> simp [lastByte, h]

theorem lastByte_none {l : List (Nat × Byte)} {pa : Nat} (h : ∀ e ∈ l, e.1 ≠ pa) : lastByte l pa = none := by
  unfold lastByte
  simp only [Option.map_eq_none_iff, List.find?_eq_none, List.mem_reverse, beq_iff_eq]
  exact h

theorem lastByte_filter (l : List (Nat × Byte)) (p : Nat × Byte → Bool) (pa : Nat) (h : ∀ b, p (pa, b) = true) :
    lastByte (l.filter p) pa = lastByte l pa := by
  induction l with
  | nil => rfl
  | cons e t ih =>
    rw [lastByte_cons]
    by_cases g : e.1 = pa
    · have : p e = true := by rw [show e = (pa, e.2) from by rw [← g]]; exact h _
      rw [List.filter_cons_of_pos this, lastByte_cons, ih]
    · by_cases q : p e = true
      · rw [List.filter_cons_of_pos q, lastByte_cons, ih]
      · rw [List.filter_cons_of_neg q, ih, if_neg g, Option.or_none]

/-- Separate bytes written in order: the last one given to an address is read there. -/
theorem read_writeAll {m : Memory} (l : List (Nat × Byte)) (j : Nat) (h : m.wf = true) :
    (m.writeAll l).read j = (lastByte l j).getD (m.read j) := by
  unfold Memory.writeAll
  induction l generalizing m with
  | nil => rfl
  | cons e t ih =>
    rw [List.foldl_cons, ih (Memory.wf_write _ _ h), lastByte_cons, Memory.read_write _ _ _ h]
    cases lastByte t j with
    | some b => rfl
    | none =>
      simp only [Option.getD_none, Option.none_or]
      by_cases g : e.1 = j
      · simp [g]
      · have : ¬ j = e.1 := fun x => g x.symm
        simp [g, this]

@[simp] theorem length_mergeBytes (image : List Byte) (l : List (Nat × Byte)) : (mergeBytes image l).length = image.length := by
  unfold mergeBytes
  induction l generalizing image with
  | nil => rfl
  | cons e t ih => rw [List.foldl_cons, ih]; simp

theorem getD_mergeBytes {image : List Byte} {l : List (Nat × Byte)} {pa : Nat} (len : image.length = 64)
    (h : ∀ e ∈ l, sectorOf e.1 = sectorOf pa) : (mergeBytes image l).getD (pa % 64) 0 = (lastByte l pa).getD (image.getD (pa % 64) 0) := by
  unfold mergeBytes
  induction l generalizing image with
  | nil => rfl
  | cons e t ih =>
    rw [List.foldl_cons, ih (by simpa using len) fun x hx => h x (by simp [hx]), lastByte_cons]
    cases lastByte t pa with
    | some b => rfl
    | none =>
      have hs := h e (by simp)
      unfold sectorOf at hs
      simp only [Option.getD_none, Option.none_or]
      by_cases g : e.1 = pa
      · rw [if_pos g, g, getD_set_self _ _ _ (by omega)]; rfl
      · rw [if_neg g, getD_set_ne _ _ _ (by omega)]; rfl

theorem lastByte_dirtyBytes (sec : Nat) (data : List Byte) (dirty : BitVec 64) (pa : Nat) (h : sectorOf pa = sec) :
    lastByte (dirtyBytes sec data dirty) pa = if dirty.getLsbD (pa % 64) then some (data.getD (pa % 64) 0) else none := by
  have gen : ∀ os : List Nat, (∀ o ∈ os, o < 64) → lastByte (os.map fun o => (64 * sec + o, data.getD o 0)) pa =
      if pa % 64 ∈ os then some (data.getD (pa % 64) 0) else none := by
    intro os
    induction os with
    | nil => intro _; simp [lastByte]
    | cons o t ih =>
      intro hb
      have ho := hb o (by simp)
      rw [List.map_cons, lastByte_cons, ih fun x hx => hb x (by simp [hx])]
      unfold sectorOf at h
      by_cases g : pa % 64 ∈ t
      · simp [g]
      · by_cases e : o = pa % 64
        · have : 64 * sec + pa % 64 = pa := by omega
          simp [g, this, e]
        · have : ¬ 64 * sec + o = pa := by omega
          have e' : ¬ pa % 64 = o := fun x => e x.symm
          simp [g, this, e']
  unfold dirtyBytes
  rw [gen _ (by simp +contextual)]
  by_cases d : dirty.getLsbD (pa % 64) = true
  · simp [d, Nat.mod_lt]
  · simp [d]

theorem sector_dirtyBytes {sec : Nat} {data : List Byte} {dirty : BitVec 64} {e : Nat × Byte} (h : e ∈ dirtyBytes sec data dirty) :
    sectorOf e.1 = sec := by
  unfold dirtyBytes at h
  simp only [List.mem_map, List.mem_filter, List.mem_range] at h
  obtain ⟨o, ⟨ho, -⟩, rfl⟩ := h
  unfold sectorOf; omega

theorem byteMask_spec (l : List Nat) (n : Nat) (h : ∀ o ∈ l, o < 64) : (byteMask l).getLsbD n = decide (n ∈ l) := by
  unfold byteMask
  have gen : ∀ (m : BitVec 64), (l.foldl (fun m o => m ||| (1#64 <<< o)) m).getLsbD n = (m.getLsbD n || decide (n ∈ l)) := by
    induction l with
    | nil => intro m; simp
    | cons a t ih =>
      intro m
      have ha := h a (by simp)
      rw [List.foldl_cons, ih (fun o ho => h o (by simp [ho]))]
      have : (1#64 <<< a).getLsbD n = decide (n = a) := by
        rw [BitVec.getLsbD_shiftLeft]
        by_cases e : n = a
        · subst e; simp [ha]
        · by_cases g : n < a
          · simp [g, e]
          · have : n - a ≠ 0 := by omega
            simp [g, e, this]
      simp only [BitVec.getLsbD_or, this, List.mem_cons, Bool.decide_or, Bool.or_assoc]
  rw [gen]; simp

/-- The mask of a sector's stored bytes. -/
theorem mask_last {l : List (Nat × Byte)} {pa sec : Nat} (hl : ∀ e ∈ l, sectorOf e.1 = sec) (h : sectorOf pa = sec) :
    (byteMask (l.map fun e => e.1 % 64)).getLsbD (pa % 64) = (lastByte l pa).isSome := by
  rw [byteMask_spec _ _ (by simp only [List.mem_map]; rintro o ⟨p, -, rfl⟩; omega)]
  unfold lastByte
  rw [Option.isSome_map, Bool.eq_iff_iff, decide_eq_true_iff, List.find?_isSome]
  simp only [List.mem_map, List.mem_reverse, beq_iff_eq]
  refine ⟨fun ⟨e, he, hp⟩ => ⟨e, he, ?_⟩, fun ⟨e, he, hp⟩ => ⟨e, he, by rw [hp]⟩⟩
  have := hl e he
  unfold sectorOf at this h
  omega

/-! ### What counting and posting leave alone -/

theorem count_mem (s : State) (c event n : Nat) (u : Bool) : (s.count c event n u).mem = s.mem ∧ (s.count c event n u).cores = s.cores := by
  unfold State.count
  dsimp only
  split
  · exact ⟨rfl, rfl⟩
  · have gen : ∀ (l : List Nat) (t : State) (fn vec : Nat), (l.foldl (fun s _ => s.message fn vec) t).mem = t.mem
        ∧ (l.foldl (fun s _ => s.message fn vec) t).cores = t.cores := by
      intro l
      induction l with
      | nil => intro t fn vec; exact ⟨rfl, rfl⟩
      | cons a l ih => intro t fn vec; rw [List.foldl_cons]; exact ih _ _ _
    exact gen _ _ _ _

theorem post_mem (s : State) (a : Asker) (sec : Nat) (write : Bool) : (s.post a sec write).mem = s.mem
    ∧ (s.post a sec write).cores = s.cores := by
  unfold State.post
  dsimp only
  split
  · exact count_mem _ _ _ _ _
  · exact ⟨rfl, rfl⟩

theorem isPeer_side {s t : State} (h : MemorySide s t) (pa : Nat) : t.isPeer pa = s.isPeer pa := by
  have := congrArg (fun x : State => x.fab.dev) h.rest
  simp only [State.isPeer]; rw [show t.fab.dev = s.fab.dev from this]

theorem remoteHusk_side {s t : State} (h : MemorySide s t) : t.remoteHusk = s.remoteHusk := by
  have := congrArg (fun x : State => x.fab.husks) h.rest
  simp only [State.remoteHusk]; rw [show t.fab.husks = s.fab.husks from this]

theorem remoteAt_congr {s t : State} (h : MemorySide s t) (rdc : t.mem.rdc = s.mem.rdc) (pa : Nat) : remoteAt t pa = remoteAt s pa := by
  unfold remoteAt; rw [isPeer_side h, remoteHusk_side h, rdc]

/-- The nearest byte depends on the homes and the remote data cache alone. -/
theorem nearByte_congr {s t : State} (h : MemorySide s t) (home : t.mem.home = s.mem.home) (rdc : t.mem.rdc = s.mem.rdc) (pa : Nat) :
    nearByte t pa = nearByte s pa := by
  unfold nearByte; rw [remoteAt_congr h rdc, home]

theorem servedByte_congr {s t : State} (h : MemorySide s t) (home : t.mem.home = s.mem.home) (rdc : t.mem.rdc = s.mem.rdc) (pa : Nat) :
    servedByte t pa = servedByte s pa := by
  unfold servedByte; rw [remoteAt_congr h rdc, home]

theorem rdcWf_congr {s t : State} (h : MemorySide s t) (rdc : t.mem.rdc = s.mem.rdc) (w : RdcWf s) : RdcWf t := by
  unfold RdcWf; rw [rdc, remoteHusk_side h]; simp only [isPeer_side h]; exact w

theorem core_of_cores {s t : State} (h : t.cores = s.cores) (c : Nat) : t.core c = s.core c := by simp only [State.core, h]

/-! ### States in order -/

/-- No error, canonical homes, and the remote data cache and this core's L1 in order. -/
structure Ordered (s : State) (core : Nat) : Prop where
  clean : Clean s
  home : Memory.wf s.mem.home = true
  rdc : RdcWf s
  l1 : L1Wf (s.core core)

theorem heal_clean {s : State} (h : Clean s) (sec owner : Nat) : s.heal sec owner = s := by
  unfold State.heal; rw [h.sym]; rfl

theorem healL2_clean {s : State} (h : Clean s) (sec owner : Nat) : s.healL2 sec owner = s := by
  unfold State.healL2 State.l2Words
  rw [h.l2]
  have : ∀ l : List Nat, (l.map fun _ => ([] : List Nat)).filter (fun w => !w.isEmpty) = [] := by
    intro l; induction l <;> simp_all
  simp [lookupD, this]

theorem l2Words_clean {s : State} (h : Clean s) (sec : Nat) : s.l2Words sec = List.replicate 8 [] := by
  unfold State.l2Words; rw [h.l2]; rfl

theorem l2Bad_clean {s : State} (h : Clean s) (sec : Nat) : s.l2Bad sec = false := by
  unfold State.l2Bad; rw [h.l2]; rfl

theorem badBytes_clean {s : State} (h : Clean s) (sec : Nat) : s.badBytes sec = 0 := by
  unfold State.badBytes State.dramBad
  rw [h.sym, h.poison, l2Bad_clean h]; rfl

theorem l1Bits_clean {s : State} (h : Clean s) (core sec : Nat) : s.l1Bits core sec = [] := by
  unfold State.l1Bits; rw [h.l1]; rfl

theorem clearL1Errs_clean {s : State} (h : Clean s) (core sec : Nat) : s.clearL1Errs core sec = s := by
  unfold State.clearL1Errs; rw [h.l1]; rfl

theorem Clean.of_mem {s t : State} (h : Clean s) (e : t.mem = s.mem) : Clean t :=
  ⟨by rw [e]; exact h.sym, by rw [e]; exact h.poison, by rw [e]; exact h.l1, by rw [e]; exact h.l2⟩

theorem sector_some {c : Core} (w : L1Wf c) {x : L1Sector} {sec : Nat} : c.sector sec = some x ↔ x ∈ c.l1 ∧ x.sec = sec := by
  unfold Core.sector
  constructor
  · intro h; exact ⟨List.mem_of_find?_eq_some h, by simpa using List.find?_some h⟩
  · rintro ⟨hm, rfl⟩
    have nd := w.1
    generalize c.l1 = l at hm nd
    induction l with
    | nil => cases hm
    | cons y t ih =>
      simp only [List.map_cons, List.nodup_cons, List.mem_map, not_exists, not_and] at nd
      rcases List.mem_cons.1 hm with rfl | hm
      · simp
      · have : ¬ y.sec = x.sec := fun e => nd.1 x hm e.symm
        rw [List.find?_cons_of_neg (by simpa using this)]
        exact ih hm nd.2

theorem sector_none {c : Core} {sec : Nat} : c.sector sec = none ↔ ∀ x ∈ c.l1, x.sec ≠ sec := by
  unfold Core.sector; simp [List.find?_eq_none]

/-- Two L1s with the same sectors hold the same sector for each number. -/
theorem sector_congr {c d : Core} (w : L1Wf c) (v : L1Wf d) {sec : Nat} (h : ∀ x : L1Sector, x.sec = sec → (x ∈ c.l1 ↔ x ∈ d.l1)) :
    c.sector sec = d.sector sec := by
  cases hd : d.sector sec with
  | none =>
    rw [sector_none] at hd ⊢
    exact fun x hx e => hd x ((h x e).1 hx) e
  | some x =>
    obtain ⟨hm, hs⟩ := (sector_some v).1 hd
    exact (sector_some w).2 ⟨(h x hs).2 hm, hs⟩

/-! ### Homes and the remote data cache -/

theorem find_rdc {l : List RdcSector} (nd : (l.map RdcSector.sec).Nodup) {r : RdcSector} {sec : Nat} :
    l.find? (fun r => r.sec == sec) = some r ↔ r ∈ l ∧ r.sec = sec := by
  constructor
  · intro h; exact ⟨List.mem_of_find?_eq_some h, by simpa using List.find?_some h⟩
  · rintro ⟨hm, rfl⟩
    induction l with
    | nil => cases hm
    | cons y t ih =>
      simp only [List.map_cons, List.nodup_cons, List.mem_map, not_exists, not_and] at nd
      rcases List.mem_cons.1 hm with rfl | hm
      · simp
      · have : ¬ y.sec = r.sec := fun e => nd.1 r hm e.symm
        rw [List.find?_cons_of_neg (by simpa using this)]
        exact ih nd.2 hm

theorem nodup_replace {l : List RdcSector} (nd : (l.map RdcSector.sec).Nodup) (r : RdcSector) :
    ((r :: l.filter fun x => x.sec != r.sec).map RdcSector.sec).Nodup := by
  rw [List.map_cons, List.nodup_cons]
  refine ⟨?_, (List.Sublist.map _ List.filter_sublist).nodup nd⟩
  simp

theorem find_replace (l : List RdcSector) (r : RdcSector) (sec : Nat) :
    (r :: l.filter fun x => x.sec != r.sec).find? (fun x => x.sec == sec) =
      if r.sec = sec then some r else l.find? (fun x => x.sec == sec) := by
  by_cases h : r.sec = sec
  · simp [h]
  · rw [List.find?_cons_of_neg (by simpa using h), if_neg h]
    induction l with
    | nil => rfl
    | cons y t ih =>
      by_cases g : y.sec = r.sec
      · rw [List.filter_cons_of_neg (by simpa using g), ih, List.find?_cons_of_neg]
        simp only [beq_iff_eq]; rw [g]; exact h
      · rw [List.filter_cons_of_pos (by simpa using g), List.find?_cons, List.find?_cons, ih]

theorem homeSector_spec (s : State) (sec : Nat) : (s.homeSector sec).length = 64 ∧
    ∀ pa, sectorOf pa = sec → (s.homeSector sec).getD (pa % 64) 0 = Memory.read s.mem.home pa := by
  unfold State.homeSector State.readHomeN Memory.readN
  refine ⟨by simp, fun pa h => ?_⟩
  unfold sectorOf at h
  have : 64 * sec + pa % 64 = pa := by omega
  rw [List.getD_eq_getElem?_getD, List.getElem?_map, List.getElem?_range (Nat.mod_lt _ (by omega))]
  simp [this]

/-- In order, the sector that the remote data cache holds is the one found by its number. -/
theorem remoteAt_eq {s : State} (w : RdcWf s) (pa : Nat) : remoteAt s pa = s.mem.rdc.find? fun r => r.sec == sectorOf pa := by
  unfold remoteAt
  cases hf : s.mem.rdc.find? (fun r => r.sec == sectorOf pa) with
  | none => split <;> rfl
  | some r =>
    obtain ⟨hm, hr⟩ := (find_rdc w.1).1 hf
    obtain ⟨-, h1, h2⟩ := w.2 r hm
    rw [hr] at h1
    simp [h1, h2]

/-- The bytes that a sector of the remote data cache, or none, gives above the home's byte: the dirty one, and the served one. -/
def nearOf (r : Option RdcSector) (n : Nat) (home : Byte) : Byte :=
  match r with
  | some r => if r.dirty.getLsbD n then r.data.getD n 0 else home
  | none => home
def servedOf (r : Option RdcSector) (n : Nat) (home : Byte) : Byte :=
  match r with
  | some r => if r.filled || r.dirty.getLsbD n then r.data.getD n 0 else home
  | none => home

theorem nearByte_eq {s : State} (w : RdcWf s) (pa : Nat) :
    nearByte s pa = nearOf (s.mem.rdc.find? fun r => r.sec == sectorOf pa) (pa % 64) (Memory.read s.mem.home pa) := by
  unfold nearByte; rw [remoteAt_eq w]; rfl

theorem servedByte_eq {s : State} (w : RdcWf s) (pa : Nat) :
    servedByte s pa = servedOf (s.mem.rdc.find? fun r => r.sec == sectorOf pa) (pa % 64) (Memory.read s.mem.home pa) := by
  unfold servedByte; rw [remoteAt_eq w]; rfl

/-- What the homes and the remote data cache do on their own: no byte that stands there changes, and a byte served before gives
way to it at most. -/
structure Shifts (s t : State) (core : Nat) : Prop where
  side : MemorySide s t
  cores : t.cores = s.cores
  near : ∀ pa, nearByte t pa = nearByte s pa
  served : ∀ pa, servedByte t pa = servedByte s pa ∨ servedByte t pa = nearByte s pa
  homes : ∀ pa, Memory.read t.mem.home pa = Memory.read s.mem.home pa ∨ Memory.read t.mem.home pa = nearByte s pa
  ordered : Ordered t core

theorem Shifts.refl {s : State} {core : Nat} (o : Ordered s core) : Shifts s s core :=
  ⟨.refl s, rfl, fun _ => rfl, fun _ => .inl rfl, fun _ => .inl rfl, o⟩

theorem Shifts.trans {s t u : State} {core : Nat} (h : Shifts s t core) (g : Shifts t u core) : Shifts s u core := by
  refine ⟨h.side.trans g.side, g.cores.trans h.cores, fun pa => (g.near pa).trans (h.near pa), fun pa => ?_, fun pa => ?_, g.ordered⟩
  · rcases g.served pa with e | e
    · rw [e]; exact h.served pa
    · rw [e, h.near]; exact .inr rfl
  · rcases g.homes pa with e | e
    · rw [e]; exact h.homes pa
    · rw [e, h.near]; exact .inr rfl

/-- A state that differs in neither memory nor caches. -/
theorem shifts_same {s t : State} {core : Nat} (o : Ordered s core) (side : MemorySide s t) (m : t.mem = s.mem) (c : t.cores = s.cores) :
    Shifts s t core :=
  ⟨side, c, nearByte_congr side (by rw [m]) (by rw [m]), fun pa => .inl (servedByte_congr side (by rw [m]) (by rw [m]) pa),
    fun pa => .inl (by rw [m]), ⟨o.clean.of_mem m, by rw [m]; exact o.home, rdcWf_congr side (by rw [m]) o.rdc, by rw [core_of_cores c]; exact o.l1⟩⟩

theorem shifts_post {s : State} {core : Nat} (o : Ordered s core) (a : Asker) (sec : Nat) (write : Bool) : Shifts s (s.post a sec write) core :=
  shifts_same o (side_post s a sec write) (post_mem s a sec write).1 (post_mem s a sec write).2

/-- Another content of the remote data cache over the same homes. -/
theorem ordered_rdc {s : State} {core : Nat} (o : Ordered s core) (l : List RdcSector) (nd : (l.map RdcSector.sec).Nodup)
    (h : ∀ r ∈ l, r.data.length = 64 ∧ s.isPeer (64 * r.sec) = true ∧ s.remoteHusk.isSome = true) :
    Ordered { s with mem := { s.mem with rdc := l } } core :=
  ⟨⟨o.clean.sym, o.clean.poison, o.clean.l1, o.clean.l2⟩, o.home, ⟨nd, h⟩, o.l1⟩

theorem find_rdc_none {l : List RdcSector} {sec : Nat} : l.find? (fun r => r.sec == sec) = none ↔ ∀ r ∈ l, r.sec ≠ sec := by
  simp [List.find?_eq_none]

/-- A list of sectors with one of them in another form. -/
theorem find_update (l : List RdcSector) (f : RdcSector → RdcSector) (sec n : Nat) (hf : ∀ r, (f r).sec = r.sec) :
    (l.map fun x => if x.sec = sec then f x else x).find? (fun x => x.sec == n) =
      if n = sec then (l.find? fun x => x.sec == n).map f else l.find? fun x => x.sec == n := by
  induction l with
  | nil => simp
  | cons x t ih =>
    rw [List.map_cons, List.find?_cons, List.find?_cons, ih]
    by_cases h : x.sec = sec <;> by_cases g : x.sec = n
    · have : n = sec := g.symm.trans h
      simp [h, hf, g, this]
    · have : ¬ n = sec := fun e => g (h.trans e.symm)
      have b : (x.sec == n) = false := by simpa using g
      have b' : ((f x).sec == n) = false := by rw [hf]; exact b
      simp only [if_pos h, b, b', if_neg this]
    · have : ¬ n = sec := fun e => h (g.trans e)
      have b : (x.sec == n) = true := by simpa using g
      simp only [if_neg h, b, if_neg this]
    · have b : (x.sec == n) = false := by simpa using g
      simp only [if_neg h, b]

theorem find_without (l : List RdcSector) (sec n : Nat) :
    (l.filter fun x => x.sec != sec).find? (fun x => x.sec == n) = if n = sec then none else l.find? fun x => x.sec == n := by
  induction l with
  | nil => simp
  | cons x t ih =>
    by_cases h : x.sec = sec
    · rw [List.filter_cons_of_neg (by simpa using h), ih, List.find?_cons]
      by_cases g : n = sec
      · simp [g]
      · have : ¬ x.sec = n := fun e => g (e.symm.trans h)
        have : (x.sec == n) = false := by simpa using this
        rw [this]
    · rw [List.filter_cons_of_pos (by simpa using h), List.find?_cons, List.find?_cons, ih]
      by_cases g : n = sec
      · have : ¬ x.sec = n := fun e => h (e.trans g)
        have : (x.sec == n) = false := by simpa using this
        rw [this, if_pos g]
      · simp only [if_neg g]

/-- A dirty sector written back to the owning device: its bytes stand at the home now. -/
theorem rdcWriteBack_spec {s : State} {core : Nat} (o : Ordered s core) (sec : Nat) :
    Shifts s (s.rdcWriteBack sec) core ∧ (∀ r ∈ (s.rdcWriteBack sec).mem.rdc, r.sec = sec → r.dirty = 0) := by
  have side := side_rdcWriteBack s sec
  unfold State.rdcWriteBack at side ⊢
  cases hf : s.mem.rdc.find? (fun r => r.sec == sec && r.dirty != 0) with
  | none =>
    refine ⟨Shifts.refl o, fun r hr e => ?_⟩
    simpa [e] using List.find?_eq_none.1 hf r hr
  | some r =>
    have hm := List.mem_of_find?_eq_some hf
    have hp := List.find?_some hf
    simp only [Bool.and_eq_true, beq_iff_eq, bne_iff_ne, ne_eq] at hp
    have here : s.mem.rdc.find? (fun x => x.sec == sec) = some r := (find_rdc o.rdc.1).2 ⟨hm, hp.1⟩
    rw [hf] at side
    dsimp only at side ⊢
    rw [l2Bad_clean o.clean] at side ⊢
    simp only [Bool.false_eq_true, if_false] at side ⊢
    have wf : RdcWf { s with mem := { s.mem.writeHome (dirtyBytes sec r.data r.dirty) with
        rdc := s.mem.rdc.map fun x => if x.sec = sec then { x with dirty := 0, writers := [] } else x } } := by
      refine ⟨?_, fun x hx => ?_⟩
      · have : (s.mem.rdc.map fun x => if x.sec = sec then { x with dirty := 0, writers := [] } else x).map RdcSector.sec
            = s.mem.rdc.map RdcSector.sec := by
          rw [List.map_map]
          exact List.map_congr_left fun x _ => by simp only [Function.comp]; split <;> rfl
        dsimp only; rw [this]; exact o.rdc.1
      · obtain ⟨y, hy, rfl⟩ := List.mem_map.1 hx
        have := o.rdc.2 y hy
        split <;> exact this
    change MemorySide s { s with mem := { s.mem.writeHome (dirtyBytes sec r.data r.dirty) with
        rdc := s.mem.rdc.map fun x => if x.sec = sec then { x with dirty := 0, writers := [] } else x } } at side
    change Shifts s { s with mem := { s.mem.writeHome (dirtyBytes sec r.data r.dirty) with
        rdc := s.mem.rdc.map fun x => if x.sec = sec then { x with dirty := 0, writers := [] } else x } } core ∧ _
    have home (pa : Nat) : Memory.read (s.mem.writeHome (dirtyBytes sec r.data r.dirty)).home pa = if sectorOf pa = sec then nearOf (some r) (pa % 64) (Memory.read s.mem.home pa) else Memory.read s.mem.home pa := by
      show Memory.read (Memory.writeAll s.mem.home _) pa = _
      rw [read_writeAll _ _ o.home]
      by_cases h : sectorOf pa = sec
      · rw [if_pos h, lastByte_dirtyBytes _ _ _ _ h]; unfold nearOf; split <;> simp_all
      · rw [if_neg h, lastByte_none fun e he g => h (by rw [← g]; exact sector_dirtyBytes he)]; rfl
    have old (pa : Nat) (h : sectorOf pa = sec) : nearByte s pa = nearOf (some r) (pa % 64) (Memory.read s.mem.home pa) := by
      rw [nearByte_eq o.rdc, h, here]
    refine ⟨⟨side, rfl, fun pa => ?_, fun pa => .inl ?_, fun pa => ?_, ?_⟩, ?_⟩
    · rw [nearByte_eq wf, nearByte_eq o.rdc]
      dsimp only
      rw [find_update s.mem.rdc (fun x => { x with dirty := 0, writers := [] }) sec _ fun _ => rfl, home]
      by_cases h : sectorOf pa = sec
      · rw [if_pos h, if_pos h, h, here]; simp [nearOf]
      · rw [if_neg h, if_neg h]
    · rw [servedByte_eq wf, servedByte_eq o.rdc]
      dsimp only
      rw [find_update s.mem.rdc (fun x => { x with dirty := 0, writers := [] }) sec _ fun _ => rfl, home]
      by_cases h : sectorOf pa = sec
      · rw [if_pos h, if_pos h, h, here]
        simp only [Option.map_some, servedOf, nearOf]
        cases r.filled <;> simp
      · rw [if_neg h, if_neg h]
    · dsimp only; rw [home]
      by_cases h : sectorOf pa = sec
      · rw [if_pos h, old pa h]; exact .inr rfl
      · rw [if_neg h]; exact .inl rfl
    · exact ⟨⟨by show s.mem.symErrs.filter _ = []; rw [o.clean.sym]; rfl, by show s.mem.poison.filter _ = []; rw [o.clean.poison]; rfl,
        o.clean.l1, o.clean.l2⟩, Memory.wf_writeAll _ o.home, wf, o.l1⟩
    · intro x hx e
      obtain ⟨y, hy, rfl⟩ := List.mem_map.1 hx
      split at e
      · next h => rw [if_pos h]
      · next h => exact absurd e h

/-- A sector dropped from the remote data cache. -/
theorem rdcDrop_spec {s : State} {core : Nat} (o : Ordered s core) (sec : Nat) : Shifts s (s.rdcDrop sec) core := by
  obtain ⟨w, clean⟩ := rdcWriteBack_spec o sec
  unfold State.rdcDrop
  dsimp only
  generalize s.rdcWriteBack sec = u at w clean
  refine w.trans ?_
  have ow := ordered_rdc w.ordered (u.mem.rdc.filter fun x => x.sec != sec) ((List.Sublist.map _ List.filter_sublist).nodup w.ordered.rdc.1)
    fun r hr => w.ordered.rdc.2 r (List.mem_filter.1 hr).1
  have near (pa : Nat) : nearByte { u with mem := { u.mem with rdc := u.mem.rdc.filter fun x => x.sec != sec } } pa = nearByte u pa := by
    rw [nearByte_eq ow.rdc, nearByte_eq w.ordered.rdc]
    dsimp only
    rw [find_without]
    by_cases h : sectorOf pa = sec
    · rw [if_pos h, h]
      cases hf : u.mem.rdc.find? (fun r => r.sec == sec) with
      | none => rfl
      | some r =>
        obtain ⟨hm, hr⟩ := (find_rdc w.ordered.rdc.1).1 hf
        simp [nearOf, clean r hm hr]
    · rw [if_neg h]
  refine ⟨side_mem u _ rfl rfl, rfl, near, fun pa => ?_, fun pa => .inl rfl, ow⟩
  by_cases h : sectorOf pa = sec
  · right
    rw [← near, servedByte_eq ow.rdc, nearByte_eq ow.rdc]
    dsimp only
    rw [find_without, if_pos h]; rfl
  · left
    rw [servedByte_eq ow.rdc, servedByte_eq w.ordered.rdc]
    dsimp only
    rw [find_without, if_neg h]

theorem rdcDrops_spec {core : Nat} (l : List Nat) {s : State} (o : Ordered s core) : Shifts s (l.foldl State.rdcDrop s) core := by
  induction l generalizing s with
  | nil => exact Shifts.refl o
  | cons x t ih => exact (rdcDrop_spec o x).trans (ih (rdcDrop_spec o x).ordered)

theorem rdcRoom_spec {s : State} {core : Nat} (o : Ordered s core) (h sec : Nat) : Shifts s (s.rdcRoom h sec) core := by
  unfold State.rdcRoom
  dsimp only
  split
  · exact Shifts.refl o
  · split
    · exact Shifts.refl o
    · exact rdcDrops_spec _ o

/-- The sectors of a block are of one line, and so of one device. -/
theorem isPeer_block (s : State) {a b : Nat} (h : a / 4 = b / 4) : s.isPeer (64 * a) = s.isPeer (64 * b) := by
  have e (x : Nat) : devOf (64 * x) = x / 4 / 2 ^ 32 % 4 := by
    unfold devOf bits
    rw [Nat.shiftRight_eq_div_pow]
    norm_num
    omega
  simp only [State.isPeer, e, h]

theorem fillSectors_cases (f : Nat) : fillSectors f = 1 ∨ fillSectors f = 2 ∨ fillSectors f = 4 := by
  unfold fillSectors
  have : min f 2 = 0 ∨ min f 2 = 1 ∨ min f 2 = 2 := by omega
  rcases this with e | e | e <;> rw [e] <;> simp

/-- The sectors that the remote data cache lacks of a sector's block: each once, of its line, itself among them if it lacks it. -/
theorem rdcMissing_spec (s : State) (h sec : Nat) : (s.rdcMissing h sec).Nodup ∧ (∀ x ∈ s.rdcMissing h sec, x / 4 = sec / 4 ∧ ∀ r ∈ s.mem.rdc, r.sec ≠ x)
    ∧ ((∀ r ∈ s.mem.rdc, r.sec ≠ sec) → sec ∈ s.rdcMissing h sec) := by
  unfold State.rdcMissing
  dsimp only
  have hn := fillSectors_cases (s.huskDef h).fill
  generalize fillSectors (s.huskDef h).fill = n at hn
  refine ⟨?_, fun x hx => ?_, fun h => ?_⟩
  · refine List.Nodup.filter _ (List.nodup_cons.2 ⟨by simp, List.Nodup.filter _ ?_⟩)
    exact List.Nodup.map (fun a b e => by simpa using e) List.nodup_range
  · simp only [List.mem_filter, List.mem_cons, List.mem_map, List.mem_range, Bool.not_eq_true', List.any_eq_false, beq_iff_eq] at hx
    refine ⟨?_, hx.2⟩
    rcases hx.1 with rfl | ⟨⟨i, hi, rfl⟩, -⟩
    · rfl
    · rcases hn with rfl | rfl | rfl <;> omega
  · simp only [List.mem_filter, List.mem_cons, true_or, true_and, Bool.not_eq_true', List.any_eq_false, beq_iff_eq]
    exact h

theorem find_append_none {l m : List RdcSector} {sec : Nat} (h : ∀ r ∈ l, r.sec ≠ sec) :
    (l ++ m).find? (fun x => x.sec == sec) = m.find? fun x => x.sec == sec := by
  rw [List.find?_append, find_rdc_none.2 h]; rfl

/-- A block read into the remote data cache: its sectors are the home's. -/
theorem rdcFill_spec {s : State} {core : Nat} (o : Ordered s core) (h owner sec : Nat) (peer : s.isPeer (64 * sec) = true)
    (husk : s.remoteHusk.isSome = true) :
    Shifts s (s.rdcFill h owner sec) core ∧ ∃ r ∈ (s.rdcFill h owner sec).mem.rdc, r.sec = sec := by
  have room := rdcRoom_spec o h sec
  unfold State.rdcFill
  dsimp only
  generalize s.rdcRoom h sec = u at room
  obtain ⟨nd, each, self⟩ := rdcMissing_spec u h sec
  generalize u.rdcMissing h sec = miss at nd each self
  have peerU (x : Nat) (hx : x ∈ miss) : u.isPeer (64 * x) = true := by
    rw [isPeer_side room.side, isPeer_block s (each x hx).1]; exact peer
  have ow : Ordered { u with mem := { u.mem with rdc := miss.map (fun x =>
      ({ sec := x, data := u.homeSector x, dirty := 0, epoch := u.mem.epoch, owner := owner } : RdcSector)) ++ u.mem.rdc } } core := by
    refine ordered_rdc room.ordered _ ?_ fun r hr => ?_
    · rw [List.map_append, List.map_map]
      have : (RdcSector.sec ∘ fun x => ({ sec := x, data := u.homeSector x, dirty := 0, epoch := u.mem.epoch, owner := owner } : RdcSector)) = id := rfl
      rw [this, List.map_id, List.nodup_append]
      refine ⟨nd, room.ordered.rdc.1, fun a ha b hb e => ?_⟩
      obtain ⟨r, hr, rfl⟩ := List.mem_map.1 hb
      exact (each a ha).2 r hr e.symm
    · rcases List.mem_append.1 hr with hr | hr
      · obtain ⟨x, hx, rfl⟩ := List.mem_map.1 hr
        exact ⟨(homeSector_spec u x).1, peerU x hx, by rw [remoteHusk_side room.side]; exact husk⟩
      · exact room.ordered.rdc.2 r hr
  have new (pa : Nat) (hp : sectorOf pa ∈ miss) :
      (miss.map (fun x => ({ sec := x, data := u.homeSector x, dirty := 0, epoch := u.mem.epoch, owner := owner } : RdcSector)) ++ u.mem.rdc).find?
        (fun r => r.sec == sectorOf pa) = some { sec := sectorOf pa, data := u.homeSector (sectorOf pa), dirty := 0, epoch := u.mem.epoch, owner := owner } :=
    (find_rdc ow.rdc.1).2 ⟨List.mem_append_left _ (List.mem_map.2 ⟨_, hp, rfl⟩), rfl⟩
  have old (pa : Nat) (hp : sectorOf pa ∉ miss) :
      (miss.map (fun x => ({ sec := x, data := u.homeSector x, dirty := 0, epoch := u.mem.epoch, owner := owner } : RdcSector)) ++ u.mem.rdc).find?
        (fun r => r.sec == sectorOf pa) = u.mem.rdc.find? fun r => r.sec == sectorOf pa := by
    refine find_append_none fun r hr e => ?_
    obtain ⟨x, hx, rfl⟩ := List.mem_map.1 hr
    exact hp (by rw [← e]; exact hx)
  have gone (pa : Nat) (hp : sectorOf pa ∈ miss) : u.mem.rdc.find? (fun r => r.sec == sectorOf pa) = none :=
    find_rdc_none.2 fun r hr => (each _ hp).2 r hr
  refine ⟨room.trans ⟨side_mem u _ rfl rfl, rfl, fun pa => ?_, fun pa => .inl ?_, fun _ => .inl rfl, ow⟩, ?_⟩
  · rw [nearByte_eq ow.rdc, nearByte_eq room.ordered.rdc]
    dsimp only
    by_cases hp : sectorOf pa ∈ miss
    · rw [new pa hp, gone pa hp]; simp [nearOf]
    · rw [old pa hp]
  · rw [servedByte_eq ow.rdc, servedByte_eq room.ordered.rdc]
    dsimp only
    by_cases hp : sectorOf pa ∈ miss
    · rw [new pa hp, gone pa hp]; simp only [servedOf, Bool.true_or, if_true]; exact (homeSector_spec u _).2 pa rfl
    · rw [old pa hp]
  · by_cases hs : ∀ r ∈ u.mem.rdc, r.sec ≠ sec
    · exact ⟨_, List.mem_append_left _ (List.mem_map.2 ⟨sec, self hs, rfl⟩), rfl⟩
    · simp only [ne_eq, not_forall, not_not] at hs
      obtain ⟨r, hr, e⟩ := hs
      exact ⟨r, List.mem_append_right _ hr, e⟩

/-- A sector of the remote data cache used: whole, with the bytes that are served and that stand there. -/
theorem rdcUse_spec {s : State} {core : Nat} (o : Ordered s core) (h owner sec : Nat) (peer : s.isPeer (64 * sec) = true)
    (husk : s.remoteHusk.isSome = true) :
    Shifts s (s.rdcUse h owner sec).2 core ∧ (s.rdcUse h owner sec).1.sec = sec ∧ (s.rdcUse h owner sec).1.data.length = 64
      ∧ (s.rdcUse h owner sec).1.filled = true
      ∧ ∀ pa, sectorOf pa = sec → (s.rdcUse h owner sec).1.data.getD (pa % 64) 0 = servedByte (s.rdcUse h owner sec).2 pa
        ∧ nearOf (some (s.rdcUse h owner sec).1) (pa % 64) (Memory.read (s.rdcUse h owner sec).2.mem.home pa) = nearByte (s.rdcUse h owner sec).2 pa := by
  unfold State.rdcUse
  dsimp only
  have first : Shifts s (if s.mem.rdc.any (fun r => r.sec == sec) = true then s else s.rdcFill h owner sec) core
      ∧ ∃ r ∈ (if s.mem.rdc.any (fun r => r.sec == sec) = true then s else s.rdcFill h owner sec).mem.rdc, r.sec = sec := by
    split
    · next a =>
      obtain ⟨r, hr, e⟩ := List.any_eq_true.1 a
      exact ⟨Shifts.refl o, r, hr, by simpa using e⟩
    · exact rdcFill_spec o h owner sec peer husk
  generalize (if s.mem.rdc.any (fun r => r.sec == sec) = true then s else s.rdcFill h owner sec) = u at first
  obtain ⟨sh, r, hr, e⟩ := first
  have here : u.mem.rdc.find? (fun r => r.sec == sec) = some r := (find_rdc sh.ordered.rdc.1).2 ⟨hr, e⟩
  have rl := (sh.ordered.rdc.2 r hr).1
  have hs := homeSector_spec u sec
  rw [here, Option.getD_some]
  refine ⟨sh, ?_, ?_, ?_, fun pa hp => ?_⟩
  · split <;> exact e
  · split
    · exact rl
    · rw [length_mergeBytes]; exact hs.1
  · split
    · next f => exact f
    · rfl
  · rw [servedByte_eq sh.ordered.rdc, nearByte_eq sh.ordered.rdc, hp, here]
    split
    · next f => exact ⟨by simp [servedOf, f], rfl⟩
    · next f =>
      have m : (mergeBytes (u.homeSector sec) (dirtyBytes sec r.data r.dirty)).getD (pa % 64) 0 =
          if r.dirty.getLsbD (pa % 64) then r.data.getD (pa % 64) 0 else Memory.read u.mem.home pa := by
        rw [getD_mergeBytes hs.1 fun e he => (sector_dirtyBytes he).trans hp.symm, lastByte_dirtyBytes _ _ _ _ hp, hs.2 pa hp]
        split <;> rfl
      simp only [servedOf, nearOf, m]
      refine ⟨by simp [f], ?_⟩
      split <;> simp_all

/-- A sector of the remote data cache with readers or writers noted and first in the order. -/
theorem rdcFirst_spec {s : State} {core : Nat} (o : Ordered s core) (r : RdcSector) (len : r.data.length = 64)
    (peer : s.isPeer (64 * r.sec) = true) (husk : s.remoteHusk.isSome = true) :
    Ordered { s with mem := { s.mem with rdc := r :: s.mem.rdc.filter fun x => x.sec != r.sec } } core
      ∧ (∀ pa, nearByte { s with mem := { s.mem with rdc := r :: s.mem.rdc.filter fun x => x.sec != r.sec } } pa =
          if sectorOf pa = r.sec then nearOf (some r) (pa % 64) (Memory.read s.mem.home pa) else nearByte s pa)
      ∧ ∀ pa, servedByte { s with mem := { s.mem with rdc := r :: s.mem.rdc.filter fun x => x.sec != r.sec } } pa =
          if sectorOf pa = r.sec then servedOf (some r) (pa % 64) (Memory.read s.mem.home pa) else servedByte s pa := by
  have ow := ordered_rdc o (r :: s.mem.rdc.filter fun x => x.sec != r.sec) (nodup_replace o.rdc.1 r) fun x hx => by
    rcases List.mem_cons.1 hx with rfl | hx
    · exact ⟨len, peer, husk⟩
    · exact o.rdc.2 x (List.mem_filter.1 hx).1
  refine ⟨ow, fun pa => ?_, fun pa => ?_⟩
  · rw [nearByte_eq ow.rdc, nearByte_eq o.rdc]
    dsimp only
    rw [find_replace]
    by_cases h : sectorOf pa = r.sec
    · rw [if_pos h, if_pos h.symm]
    · rw [if_neg h, if_neg fun e => h e.symm]
  · rw [servedByte_eq ow.rdc, servedByte_eq o.rdc]
    dsimp only
    rw [find_replace]
    by_cases h : sectorOf pa = r.sec
    · rw [if_pos h, if_pos h.symm]
    · rw [if_neg h, if_neg fun e => h e.symm]

/-- Where no sector of the remote data cache holds an address, the home serves it. -/
theorem served_home {s : State} {pa : Nat} (h : (if s.isPeer (64 * sectorOf pa) then s.remoteHusk else none) = none) :
    servedByte s pa = Memory.read s.mem.home pa ∧ nearByte s pa = Memory.read s.mem.home pa := by
  have : remoteAt s pa = none := by
    unfold remoteAt
    cases hp : s.isPeer (64 * sectorOf pa) <;> simp_all
  unfold servedByte nearByte; rw [this]; exact ⟨rfl, rfl⟩

/-- A sector served by its home: its bytes are those that are served or stand there. -/
theorem nearRead_spec {s : State} {core : Nat} (o : Ordered s core) (a : Asker) (sec : Nat) :
    ∃ d t, s.nearRead a sec = (d, 0, t) ∧ d.length = 64 ∧ Shifts s t core
      ∧ ∀ pa, sectorOf pa = sec → d.getD (pa % 64) 0 = servedByte s pa ∨ d.getD (pa % 64) 0 = nearByte s pa := by
  unfold State.nearRead
  have sp := shifts_post o a sec false
  have c := sp.ordered.clean
  rw [heal_clean c, healL2_clean c]
  dsimp only
  rw [badBytes_clean c]
  have stale : ((s.l2Words sec).any (fun w => !w.isEmpty) && s.mem.rdc.any fun r => r.sec == sec && r.dirty == 0) = false := by
    rw [l2Words_clean o.clean]; rfl
  rw [stale]
  simp only [decide_true, Bool.true_and, Bool.false_eq_true, if_false]
  generalize s.post a sec false = u at sp
  cases hm : (if u.isPeer (64 * sec) = true then u.remoteHusk else none) with
  | none =>
    have hs := homeSector_spec u sec
    refine ⟨_, _, rfl, hs.1, sp, fun pa h => ?_⟩
    rw [hs.2 pa h, ← (served_home (s := u) (pa := pa) (by rw [h]; exact hm)).1]
    exact sp.served pa
  | some k =>
    have peer : u.isPeer (64 * sec) = true := by
      by_cases p : u.isPeer (64 * sec) = true
      · exact p
      · rw [if_neg p] at hm; cases hm
    rw [if_pos peer] at hm
    have husk : u.remoteHusk.isSome = true := by rw [hm]; rfl
    obtain ⟨us, u1, u2, u3, u4⟩ := rdcUse_spec sp.ordered k a.ctx sec peer husk
    dsimp only
    generalize u.rdcUse k a.ctx sec = q at us u1 u2 u3 u4
    obtain ⟨r, v⟩ := q
    dsimp only at us u1 u2 u3 u4 ⊢
    subst u1
    obtain ⟨f1, f2, f3⟩ := rdcFirst_spec us.ordered { r with readers := if r.readers.contains a.core then r.readers else a.core :: r.readers } u2
      (by dsimp only; rw [isPeer_side us.side]; exact peer) (by rw [remoteHusk_side us.side]; exact husk)
    dsimp only at f1 f2 f3
    refine ⟨_, _, rfl, u2, (sp.trans us).trans ⟨side_mem v _ rfl rfl, rfl, fun pa => ?_, fun pa => .inl ?_, fun _ => .inl rfl, f1⟩, fun pa h => ?_⟩
    · rw [f2]
      split
      · next h => exact (u4 pa h).2
      · rfl
    · rw [f3]
      split
      · next h => rw [← (u4 pa h).1]; simp [servedOf, u3]
      · rfl
    · rw [(u4 pa h).1]
      exact (sp.trans us).served pa

/-- Bytes written at the homes of scopes 1 to 3. -/
structure Writes (s t : State) (core : Nat) (b : Nat → Option Byte) : Prop where
  cores : t.cores = s.cores
  near : ∀ pa, nearByte t pa = (b pa).getD (nearByte s pa)
  served : ∀ pa, (∃ x, b pa = some x ∧ servedByte t pa = x)
    ∨ b pa = none ∧ (servedByte t pa = servedByte s pa ∨ servedByte t pa = nearByte s pa)
  homes : ∀ pa, Memory.read t.mem.home pa = Memory.read s.mem.home pa ∨ Memory.read t.mem.home pa = nearByte s pa
    ∨ b pa = some (Memory.read t.mem.home pa)
  ordered : Ordered t core

theorem Shifts.writes {s t : State} {core : Nat} (h : Shifts s t core) : Writes s t core fun _ => none :=
  ⟨h.cores, h.near, fun pa => .inr ⟨rfl, h.served pa⟩, fun pa => (h.homes pa).imp id .inl, h.ordered⟩

theorem Shifts.then_writes {s t u : State} {core : Nat} {b : Nat → Option Byte} (h : Shifts s t core) (g : Writes t u core b) : Writes s u core b := by
  refine ⟨g.cores.trans h.cores, fun pa => by rw [g.near, h.near], fun pa => ?_, fun pa => ?_, g.ordered⟩
  · rcases g.served pa with e | ⟨n, e | e⟩
    · exact .inl e
    · rw [e]; exact .inr ⟨n, h.served pa⟩
    · rw [e, h.near]; exact .inr ⟨n, .inr rfl⟩
  · rcases g.homes pa with e | e | e
    · rw [e]; exact (h.homes pa).imp id .inl
    · rw [e, h.near]; exact .inr (.inl rfl)
    · exact .inr (.inr e)

/-- Bytes of one sector written at its home of scopes 1 to 3: they stand there, and no L1 changes. -/
theorem nearWrite_spec {s : State} {core : Nat} (o : Ordered s core) (a : Asker) (sec : Nat) (l : List (Nat × Byte))
    (hl : ∀ e ∈ l, sectorOf e.1 = sec) : Writes s (s.nearWrite a sec l) core (lastByte l) := by
  unfold State.nearWrite
  have sp := shifts_post o a sec true
  dsimp only
  rw [heal_clean sp.ordered.clean, ite_self]
  refine sp.then_writes ?_
  generalize s.post a sec true = u at sp
  have o := sp.ordered
  have other (pa : Nat) (h : sectorOf pa ≠ sec) : lastByte l pa = none := lastByte_none fun e he g => h (by rw [← g]; exact hl e he)
  have home (v : State) (o : Ordered v core) (pa : Nat) :
      Memory.read (v.writeHome l).mem.home pa = (lastByte l pa).getD (Memory.read v.mem.home pa) := read_writeAll l pa o.home
  have ordered (v : State) (o : Ordered v core) : Ordered (v.writeHome l) core :=
    ⟨⟨by show v.mem.symErrs.filter _ = []; rw [o.clean.sym]; rfl, by show v.mem.poison.filter _ = []; rw [o.clean.poison]; rfl,
      o.clean.l1, o.clean.l2⟩, Memory.wf_writeAll _ o.home, o.rdc, o.l1⟩
  cases hm : (if u.isPeer (64 * sec) = true then u.remoteHusk else none) with
  | none =>
    dsimp only
    have ow := ordered u o
    have read (pa : Nat) (h : sectorOf pa = sec) := served_home (s := u) (pa := pa) (by rw [h]; exact hm)
    have read' (pa : Nat) (h : sectorOf pa = sec) := served_home (s := u.writeHome l) (pa := pa) (by rw [h]; exact hm)
    have out (pa : Nat) (h : sectorOf pa ≠ sec) : nearByte (u.writeHome l) pa = nearByte u pa ∧ servedByte (u.writeHome l) pa = servedByte u pa := by
      have e : Memory.read (u.writeHome l).mem.home pa = Memory.read u.mem.home pa := by rw [home u o, other pa h]; rfl
      rw [nearByte_eq ow.rdc, nearByte_eq o.rdc, servedByte_eq ow.rdc, servedByte_eq o.rdc, e]
      exact ⟨rfl, rfl⟩
    refine ⟨rfl, fun pa => ?_, fun pa => ?_, fun pa => ?_, ow⟩
    · by_cases h : sectorOf pa = sec
      · rw [(read' pa h).2, (read pa h).2, home u o]
      · rw [(out pa h).1, other pa h]; rfl
    · by_cases h : sectorOf pa = sec
      · rw [(read' pa h).1, (read pa h).1, home u o]
        cases lastByte l pa with
        | none => exact .inr ⟨rfl, .inl rfl⟩
        | some b => exact .inl ⟨b, rfl, rfl⟩
      · exact .inr ⟨other pa h, .inl (out pa h).2⟩
    · rw [home u o]
      cases lastByte l pa with
      | none => exact .inl rfl
      | some b => exact .inr (.inr rfl)
  | some k =>
    have peer : u.isPeer (64 * sec) = true := by
      by_cases p : u.isPeer (64 * sec) = true
      · exact p
      · rw [if_neg p] at hm; cases hm
    rw [if_pos peer] at hm
    have husk : u.remoteHusk.isSome = true := by rw [hm]; rfl
    obtain ⟨us, u1, u2, u3, u4⟩ := rdcUse_spec o k a.ctx sec peer husk
    dsimp only
    refine us.then_writes ?_
    generalize u.rdcUse k a.ctx sec = q at us u1 u2 u3 u4
    obtain ⟨r, v⟩ := q
    dsimp only at us u1 u2 u3 u4 ⊢
    have peerV : v.isPeer (64 * sec) = true := by rw [isPeer_side us.side]; exact peer
    have huskV : v.remoteHusk.isSome = true := by rw [remoteHusk_side us.side]; exact husk
    have put (pa : Nat) (h : sectorOf pa = sec) : (mergeBytes r.data l).getD (pa % 64) 0 = (lastByte l pa).getD (r.data.getD (pa % 64) 0) :=
      getD_mergeBytes u2 fun e he => (hl e he).trans h.symm
    have mask (pa : Nat) (h : sectorOf pa = sec) : (byteMask (l.map fun e => e.1 % 64)).getLsbD (pa % 64) = (lastByte l pa).isSome := mask_last hl h
    have gen (x : State) (ox : Ordered x core) (cx : x.cores = v.cores) (px : x.isPeer (64 * sec) = true) (hx : x.remoteHusk.isSome = true)
        (r' : RdcSector) (rs : r'.sec = sec) (rd : r'.data = mergeBytes r.data l) (rf : r'.filled = true)
        (hn : ∀ pa, sectorOf pa = sec → nearOf (some r') (pa % 64) (Memory.read x.mem.home pa) = (lastByte l pa).getD (nearByte v pa))
        (ho : ∀ pa, sectorOf pa ≠ sec → nearByte x pa = nearByte v pa ∧ servedByte x pa = servedByte v pa)
        (hh : ∀ pa, Memory.read x.mem.home pa = Memory.read v.mem.home pa ∨ lastByte l pa = some (Memory.read x.mem.home pa)) :
        Writes v { x with mem := { x.mem with rdc := r' :: x.mem.rdc.filter fun y => y.sec != sec } } core (lastByte l) := by
      obtain ⟨f1, f2, f3⟩ := rdcFirst_spec ox r' (by rw [rd, length_mergeBytes]; exact u2) (by rw [rs]; exact px) hx
      rw [rs] at f1 f2 f3
      refine ⟨cx, fun pa => ?_, fun pa => ?_, fun pa => (hh pa).imp id .inr, f1⟩
      · rw [f2]
        split
        · next h => exact hn pa h
        · next h => rw [(ho pa h).1, other pa h]; rfl
      · rw [f3]
        split
        · next h =>
          simp only [servedOf, rf, Bool.true_or, if_true, rd, put pa h, (u4 pa h).1]
          cases lastByte l pa with
          | none => exact .inr ⟨rfl, .inl rfl⟩
          | some b => exact .inl ⟨b, rfl, rfl⟩
        · next h => exact .inr ⟨other pa h, .inl (ho pa h).2⟩
    by_cases through : ((v.huskDef k).policy == 1) = true
    · simp only [through, if_true]
      have ow := ordered v us.ordered
      refine gen _ ow rfl peerV huskV _ u1 rfl u3 (fun pa h => ?_) (fun pa h => ?_) fun pa => ?_
      · rw [← (u4 pa h).2, home v us.ordered]
        simp only [nearOf, put pa h]
        cases lastByte l pa <;> simp
      · have e : Memory.read (v.writeHome l).mem.home pa = Memory.read v.mem.home pa := by rw [home v us.ordered, other pa h]; rfl
        rw [nearByte_eq ow.rdc, nearByte_eq us.ordered.rdc, servedByte_eq ow.rdc, servedByte_eq us.ordered.rdc, e]
        exact ⟨rfl, rfl⟩
      · rw [home v us.ordered]
        cases lastByte l pa with
        | none => exact .inl rfl
        | some b => exact .inr rfl
    · simp only [through, if_false, Bool.false_eq_true]
      refine gen v us.ordered rfl peerV huskV _ u1 rfl u3 (fun pa h => ?_) (fun pa h => ⟨rfl, rfl⟩) fun pa => .inl rfl
      rw [← (u4 pa h).2]
      simp only [nearOf, BitVec.getLsbD_or, mask pa h, put pa h]
      cases lastByte l pa <;> simp


end Sys2Proof.Rules
end

