-- ==== Sys2Proof/Laws/Views.lean ====
section
/-! SUPPORT. The bytes that a core meets: what loads, evictions, write-backs and stores do to them. -/

namespace Sys2Proof.Rules

open Sys2Proof.Machine Sys2Proof.Safety

/-! ### What an L1 does with its sectors -/

/-- A byte of a list of sectors, where one of them holds it dirty. -/
def heldByte (l : List L1Sector) (pa : Nat) : Option Byte :=
  match l.find? (fun x => x.sec == sectorOf pa) with
  | some x => if x.dirty.getLsbD (pa % 64) then some (x.data.getD (pa % 64) 0) else none
  | none => none

theorem ownByte_eq (s : State) (core pa : Nat) : ownByte s core pa = heldByte (s.core core).l1 pa := by
  unfold ownByte heldByte Core.sector
  cases (s.core core).l1.find? (fun x => x.sec == sectorOf pa) <;> rfl

theorem byteAt_eq (s : State) (core pa : Nat) : byteAt s core pa = (heldByte (s.core core).l1 pa).getD (nearByte s pa) := by
  unfold byteAt; rw [ownByte_eq]

theorem lastByte_held (x : L1Sector) (pa : Nat) (h : x.sec = sectorOf pa) :
    lastByte (dirtyBytes x.sec x.data x.dirty) pa = if x.dirty.getLsbD (pa % 64) then some (x.data.getD (pa % 64) 0) else none :=
  lastByte_dirtyBytes _ _ _ _ h.symm

/-- One sector written back. -/
theorem writeBack_spec {s : State} {core : Nat} (o : Ordered s core) (a : Asker) (x : L1Sector) :
    Writes s (s.writeBackSector a x) core (heldByte [x]) := by
  have held (pa : Nat) : heldByte [x] pa = if x.sec = sectorOf pa then (if x.dirty.getLsbD (pa % 64) then some (x.data.getD (pa % 64) 0) else none) else none := by
    unfold heldByte
    by_cases h : x.sec = sectorOf pa <;> simp [h]
  unfold State.writeBackSector
  by_cases d : x.dirty = 0
  · rw [if_pos d]
    have : heldByte [x] = fun _ => none := by funext pa; rw [held, d]; simp
    rw [this]; exact (Shifts.refl o).writes
  · rw [if_neg d, l1Bits_clean o.clean, clearL1Errs_clean o.clean]
    simp only [List.any_nil, Bool.false_eq_true, if_false, List.foldl_nil]
    have eq : heldByte [x] = lastByte (dirtyBytes x.sec x.data x.dirty) := by
      funext pa
      rw [held]
      by_cases h : x.sec = sectorOf pa
      · rw [if_pos h, lastByte_held x pa h]
      · rw [if_neg h]; exact (lastByte_none fun e he g => h (by rw [← sector_dirtyBytes he, g])).symm
    rw [eq]
    exact nearWrite_spec o a x.sec _ fun e he => sector_dirtyBytes he

theorem heldByte_cons (x : L1Sector) (l : List L1Sector) (pa : Nat) :
    heldByte (x :: l) pa = if x.sec = sectorOf pa then heldByte [x] pa else heldByte l pa := by
  unfold heldByte
  by_cases h : x.sec = sectorOf pa <;> simp [h]

theorem heldByte_none {l : List L1Sector} {pa : Nat} (h : ∀ x ∈ l, x.sec ≠ sectorOf pa) : heldByte l pa = none := by
  unfold heldByte
  rw [List.find?_eq_none.2 (by simpa using h)]

/-- Sectors written back one after another. -/
theorem writeBacks_spec {core : Nat} (a : L1Sector → Asker) (l : List L1Sector) (nd : (l.map L1Sector.sec).Nodup) {s : State}
    (o : Ordered s core) : Writes s (l.foldl (fun s x => s.writeBackSector (a x) x) s) core (heldByte l) := by
  induction l generalizing s with
  | nil => exact (Shifts.refl o).writes
  | cons x t ih =>
    simp only [List.map_cons, List.nodup_cons, List.mem_map, not_exists, not_and] at nd
    have h := writeBack_spec o (a x) x
    have g := ih nd.2 h.ordered
    rw [List.foldl_cons]
    have other (pa : Nat) (h : x.sec = sectorOf pa) : heldByte t pa = none :=
      heldByte_none fun y hy e => nd.1 y hy (e.trans h.symm)
    have out (pa : Nat) (h : ¬ x.sec = sectorOf pa) : heldByte [x] pa = none := heldByte_none (by simpa using h)
    refine ⟨g.cores.trans h.cores, fun pa => ?_, fun pa => ?_, fun pa => ?_, g.ordered⟩
    · rw [g.near, h.near, heldByte_cons x t]
      by_cases h : x.sec = sectorOf pa
      · rw [if_pos h, other pa h]; rfl
      · rw [if_neg h, out pa h]; rfl
    · rw [heldByte_cons]
      by_cases e : x.sec = sectorOf pa
      · rw [if_pos e]
        have hn := h.near pa
        have hs := h.served pa
        rcases g.served pa with ⟨b, f, -⟩ | ⟨-, f | f⟩
        · rw [other pa e] at f; cases f
        · rw [f]; exact hs
        · rw [f, hn]
          cases hb : heldByte [x] pa with
          | none => exact .inr ⟨rfl, .inr rfl⟩
          | some b => exact .inl ⟨b, rfl, rfl⟩
      · rw [if_neg e]
        have hn := h.near pa
        have hs := h.served pa
        rw [out pa e] at hn hs
        rcases g.served pa with f | ⟨n, f | f⟩
        · exact .inl f
        · rw [f]
          rcases hs with ⟨b, c, -⟩ | ⟨-, c⟩
          · cases c
          · exact .inr ⟨n, c⟩
        · rw [f, hn]; exact .inr ⟨n, .inr rfl⟩
    · rw [heldByte_cons]
      by_cases e : x.sec = sectorOf pa
      · rw [if_pos e]
        rcases g.homes pa with f | f | f
        · rw [f]; exact h.homes pa
        · rw [f, h.near]
          cases heldByte [x] pa with
          | none => exact .inr (.inl rfl)
          | some b => exact .inr (.inr rfl)
        · rw [other pa e] at f; cases f
      · rw [if_neg e]
        have hn := h.near pa
        have hh := h.homes pa
        rw [out pa e] at hn hh
        rcases g.homes pa with f | f | f
        · rw [f]
          rcases hh with c | c | c
          · exact .inl c
          · exact .inr (.inl c)
          · cases c
        · rw [f, hn]; exact .inr (.inl rfl)
        · exact .inr (.inr f)

/-! ### Traffic that leaves a core's bytes as they are -/

/-- From `s` to `t` nothing that the core has put anywhere changed: homes take at most its own dirty bytes, or those that stood
over them, and what is served where the L1 holds no dirty byte was served before or is the core's program order. -/
structure Keeps (s t : State) (core : Nat) : Prop where
  side : MemorySide s t
  bytes : ∀ pa, byteAt t core pa = byteAt s core pa
  others : ∀ c, c ≠ core → (t.core c).l1 = (s.core c).l1
  served : ∀ pa, ownByte t core pa = none →
    servedByte t pa = byteAt s core pa ∨ ownByte s core pa = none ∧ servedByte t pa = servedByte s pa
  homes : ∀ pa, Memory.read t.mem.home pa = Memory.read s.mem.home pa ∨ Memory.read t.mem.home pa = byteAt s core pa
    ∨ Memory.read t.mem.home pa = nearByte s pa
  near : ∀ pa, nearByte t pa = nearByte s pa ∨ nearByte t pa = byteAt s core pa
  ordered : Ordered t core
  length : t.cores.length = s.cores.length

theorem Keeps.refl {s : State} {core : Nat} (o : Ordered s core) : Keeps s s core :=
  ⟨.refl s, fun _ => rfl, fun _ _ => rfl, fun _ h => .inr ⟨h, rfl⟩, fun _ => .inl rfl, fun _ => .inl rfl, o, rfl⟩

theorem Keeps.trans {s t u : State} {core : Nat} (h : Keeps s t core) (g : Keeps t u core) : Keeps s u core := by
  refine ⟨h.side.trans g.side, fun pa => (g.bytes pa).trans (h.bytes pa), fun c hc => (g.others c hc).trans (h.others c hc),
    fun pa n => ?_, fun pa => ?_, fun pa => ?_, g.ordered, g.length.trans h.length⟩
  · rcases g.served pa n with e | ⟨n', e⟩
    · exact .inl (e.trans (h.bytes pa))
    · rw [e]; exact h.served pa n'
  · rcases g.homes pa with e | e | e
    · rw [e]; exact h.homes pa
    · rw [e, h.bytes]; exact .inr (.inl rfl)
    · rw [e]
      rcases h.near pa with f | f
      · exact .inr (.inr f)
      · exact .inr (.inl f)
  · rcases g.near pa with e | e
    · rw [e]; exact h.near pa
    · rw [e, h.bytes]; exact .inr rfl

/-- What the homes do on their own keeps what a core has put anywhere. -/
theorem Shifts.keeps {s t : State} {core : Nat} (h : Shifts s t core) : Keeps s t core := by
  have own (pa : Nat) : ownByte t core pa = ownByte s core pa := by rw [ownByte_eq, ownByte_eq, core_of_cores h.cores]
  refine ⟨h.side, fun pa => by unfold byteAt; rw [own, h.near], fun c _ => by rw [core_of_cores h.cores], fun pa n => ?_,
    fun pa => (h.homes pa).imp id .inr, fun pa => .inl (h.near pa), h.ordered, by rw [h.cores]⟩
  rw [own] at n
  rcases h.served pa with e | e
  · exact .inr ⟨n, e⟩
  · left; rw [e]; unfold byteAt; rw [n]; rfl

/-- A core with its L1 in another form. -/
theorem core_modCore {s : State} {core : Nat} (f : Core → Core) (lt : core < s.cores.length) : (s.modCore core f).core core = f (s.core core) :=
  getD_modAt_self _ _ _ lt
theorem core_modCore_ne {s : State} {core c : Nat} (f : Core → Core) (h : c ≠ core) : (s.modCore core f).core c = s.core c :=
  getD_modAt_ne _ _ _ h

/-- A change of a core's L1 that gives each byte a new dirty value or leaves it. -/
theorem modCore_bytes {s : State} {core : Nat} (f : Core → Core) (hq : ∀ x, quietCore (f x) = quietCore x) (lt : core < s.cores.length)
    (o : Ordered s core) (w : L1Wf (f (s.core core))) :
    MemorySide s (s.modCore core f) ∧ Ordered (s.modCore core f) core ∧ (s.modCore core f).cores.length = s.cores.length
      ∧ (∀ c, c ≠ core → ((s.modCore core f).core c).l1 = (s.core c).l1)
      ∧ (∀ pa, byteAt (s.modCore core f) core pa = (heldByte (f (s.core core)).l1 pa).getD (nearByte s pa)) := by
  refine ⟨side_modCore s core f hq, ⟨⟨o.clean.sym, o.clean.poison, o.clean.l1, o.clean.l2⟩, o.home, rdcWf_congr (side_modCore s core f hq) rfl o.rdc, ?_⟩, by simp,
    fun c hc => by rw [core_modCore_ne f hc], fun pa => ?_⟩
  · rw [core_modCore f lt]; exact w
  · rw [byteAt_eq, core_modCore f lt, nearByte_congr (side_modCore s core f hq) rfl rfl]

theorem keeps_modCore {s : State} {core : Nat} (f : Core → Core) (hq : ∀ x, quietCore (f x) = quietCore x) (lt : core < s.cores.length)
    (o : Ordered s core) (w : L1Wf (f (s.core core))) (h : ∀ pa, heldByte (f (s.core core)).l1 pa = heldByte (s.core core).l1 pa) :
    Keeps s (s.modCore core f) core := by
  obtain ⟨h1, h2, h3, h4, h5⟩ := modCore_bytes f hq lt o w
  refine ⟨h1, fun pa => by rw [h5, h, ← byteAt_eq], h4, fun pa n => .inr ⟨?_, servedByte_congr h1 rfl rfl pa⟩, fun _ => .inl rfl,
    fun pa => .inl (nearByte_congr h1 rfl rfl pa), h2, h3⟩
  rw [ownByte_eq, core_modCore f lt, h] at n
  rw [ownByte_eq]; exact n

theorem heldByte_eq (c : Core) (pa : Nat) : heldByte c.l1 pa =
    (c.sector (sectorOf pa)).bind fun x => if x.dirty.getLsbD (pa % 64) then some (x.data.getD (pa % 64) 0) else none := by
  unfold heldByte Core.sector
  cases c.l1.find? (fun x => x.sec == sectorOf pa) <;> rfl

/-- The protection of a sector does not change its bytes. -/
theorem held_hinted (hint line : Nat) (l : List L1Sector) (pa : Nat) :
    heldByte (l.map fun x => if x.sec / 4 = line then x.hinted hint else x) pa = heldByte l pa := by
  induction l with
  | nil => rfl
  | cons x t ih =>
    have one : heldByte [x.hinted hint] pa = heldByte [x] pa := by
      unfold heldByte L1Sector.hinted
      simp only [List.find?]
      cases x.sec == sectorOf pa <;> rfl
    rw [List.map_cons, heldByte_cons, heldByte_cons x, ih]
    split
    · rw [one]; rfl
    · rfl

/-- The same sectors in another order, with another protection. -/
theorem perm_touch (c : Core) (line hint : Nat) :
    (c.touch line hint).l1.Perm (c.l1.map fun x => if x.sec / 4 = line then x.hinted hint else x) := by
  unfold Core.touch
  dsimp only
  have h := (List.filter_append_perm (fun x : L1Sector => x.sec / 4 == line) c.l1).map fun x => if x.sec / 4 = line then x.hinted hint else x
  rw [List.map_append] at h
  have e1 : (c.l1.filter fun x => x.sec / 4 == line).map (fun x => if x.sec / 4 = line then x.hinted hint else x)
      = (c.l1.filter fun x => x.sec / 4 == line).map (L1Sector.hinted hint) :=
    List.map_congr_left fun x hx => by rw [if_pos (by simpa using (List.mem_filter.1 hx).2)]
  have e2 : (c.l1.filter fun x => !(x.sec / 4 == line)).map (fun x => if x.sec / 4 = line then x.hinted hint else x)
      = c.l1.filter fun x => x.sec / 4 != line := by
    have : ∀ x ∈ c.l1.filter fun x => !(x.sec / 4 == line), (if x.sec / 4 = line then x.hinted hint else x) = x :=
      fun x hx => by rw [if_neg (by simpa using (List.mem_filter.1 hx).2)]
    rw [List.map_congr_left this, List.map_id']; rfl
  rw [e1, e2] at h
  split
  · exact List.perm_append_comm.trans h
  · exact h

theorem wf_hinted {c : Core} (line hint : Nat) (w : L1Wf c) : L1Wf { c with l1 := c.l1.map fun x => if x.sec / 4 = line then x.hinted hint else x } := by
  have e : (c.l1.map fun x => if x.sec / 4 = line then x.hinted hint else x).map L1Sector.sec = c.l1.map L1Sector.sec := by
    rw [List.map_map]
    exact List.map_congr_left fun x _ => by simp only [Function.comp]; split <;> rfl
  refine ⟨by dsimp only; rw [e]; exact w.1, fun x hx => ?_⟩
  obtain ⟨y, hy, rfl⟩ := List.mem_map.1 hx
  split
  · exact w.2 y hy
  · exact w.2 y hy

theorem wf_perm {c d : Core} (h : d.l1.Perm c.l1) (w : L1Wf c) : L1Wf d :=
  ⟨(h.map _).nodup_iff.2 w.1, fun x hx => w.2 x (h.mem_iff.1 hx)⟩

theorem held_perm {c d : Core} (h : d.l1.Perm c.l1) (w : L1Wf c) (pa : Nat) : heldByte d.l1 pa = heldByte c.l1 pa := by
  rw [heldByte_eq, heldByte_eq, sector_congr (wf_perm h w) w fun x _ => h.mem_iff]

theorem wf_touch {c : Core} (line hint : Nat) (w : L1Wf c) : L1Wf (c.touch line hint) :=
  wf_perm (c := { c with l1 := c.l1.map fun x => if x.sec / 4 = line then x.hinted hint else x }) (perm_touch c line hint) (wf_hinted line hint w)

theorem held_touch {c : Core} (line hint : Nat) (w : L1Wf c) (pa : Nat) : heldByte (c.touch line hint).l1 pa = heldByte c.l1 pa :=
  (held_perm (c := { c with l1 := c.l1.map fun x => if x.sec / 4 = line then x.hinted hint else x }) (perm_touch c line hint)
    (wf_hinted line hint w) pa).trans (held_hinted hint line c.l1 pa)

/-- A sector as it is seen, whatever its protection. -/
def sameView (x y : L1Sector) : Prop := y.sec = x.sec ∧ y.data = x.data ∧ y.dirty = x.dirty ∧ y.valid = x.valid

theorem sameView_hinted (hint : Nat) (x : L1Sector) : sameView x (x.hinted hint) := ⟨rfl, rfl, rfl, rfl⟩

theorem mem_touch {c : Core} {line hint : Nat} {y : L1Sector} (h : y ∈ (c.touch line hint).l1) : ∃ x ∈ c.l1, sameView x y := by
  obtain ⟨x, hx, rfl⟩ := List.mem_map.1 ((perm_touch c line hint).mem_iff.1 h)
  refine ⟨x, hx, ?_⟩
  split
  · exact sameView_hinted hint x
  · exact ⟨rfl, rfl, rfl, rfl⟩

theorem keeps_touch {s : State} {core : Nat} (line hint : Nat) (lt : core < s.cores.length) (o : Ordered s core) :
    Keeps s (s.modCore core fun c => c.touch line hint) core :=
  keeps_modCore _ (fun _ => rfl) lt o (wf_touch _ _ o.l1) fun pa => held_touch _ _ o.l1 pa

theorem find_filter_sec (l : List L1Sector) (p : L1Sector → Bool) (sec : Nat) (h : ∀ x, x.sec = sec → p x = true) :
    (l.filter p).find? (fun x => x.sec == sec) = l.find? (fun x => x.sec == sec) := by
  induction l with
  | nil => rfl
  | cons x t ih =>
    by_cases g : x.sec = sec
    · rw [List.filter_cons_of_pos (h x g)]; simp [g]
    · rw [List.find?_cons_of_neg (by simpa using g)]
      by_cases q : p x = true
      · rw [List.filter_cons_of_pos q, List.find?_cons_of_neg (by simpa using g), ih]
      · rw [List.filter_cons_of_neg q, ih]

theorem held_filter {l : List L1Sector} {p : L1Sector → Bool} {pa : Nat} (h : ∀ x : L1Sector, x.sec = sectorOf pa → p x = true) :
    heldByte (l.filter p) pa = heldByte l pa := by
  unfold heldByte; rw [find_filter_sec l p _ h]

theorem wf_filter {c : Core} (p : L1Sector → Bool) (w : L1Wf c) : ((c.l1.filter p).map L1Sector.sec).Nodup ∧ ∀ x ∈ c.l1.filter p, x.data.length = 64 :=
  ⟨(List.Sublist.map _ List.filter_sublist).nodup w.1, fun x hx => w.2 x (List.mem_filter.1 hx).1⟩

/-- Room made for a line: the victim's dirty bytes go to their homes, no sector enters the L1, and one of that line's stays where
it was. -/
theorem makeRoom_spec {s : State} {core : Nat} (line : Nat) (lt : core < s.cores.length) (o : Ordered s core) :
    Keeps s (s.makeRoom core line) core ∧ (∀ x ∈ ((s.makeRoom core line).core core).l1, x ∈ (s.core core).l1)
      ∧ ((∃ x ∈ (s.core core).l1, x.sec / 4 = line) → s.makeRoom core line = s) := by
  have side := side_makeRoom s core line
  unfold State.makeRoom at side ⊢
  dsimp only at side ⊢
  split
  · exact ⟨Keeps.refl o, fun _ h => h, fun _ => rfl⟩
  next h =>
    rw [if_neg h] at side
    generalize (s.core core).victim ((s.core core).setLines line) = victim at side ⊢
    obtain ⟨h1, h2, h3, h4, h5⟩ := modCore_bytes (s := s) (core := core)
      (fun c => { c with l1 := c.l1.filter fun x => x.sec / 4 != victim }) (fun _ => rfl) lt o (wf_filter _ o.l1)
    have g := writeBacks_spec (fun x => idleAsker core x.owner)
      ((s.core core).l1.filter fun x => x.sec / 4 == victim) (wf_filter _ o.l1).1 h2
    have kept (pa : Nat) (e : sectorOf pa / 4 = victim) : heldByte ((s.core core).l1.filter fun x => x.sec / 4 != victim) pa = none :=
      heldByte_none fun x hx g => by
        have := (List.mem_filter.1 hx).2
        rw [g] at this; simp [e] at this
    have gone (pa : Nat) (e : ¬ sectorOf pa / 4 = victim) : heldByte ((s.core core).l1.filter fun x => x.sec / 4 == victim) pa = none :=
      heldByte_none fun x hx g => by
        have := (List.mem_filter.1 hx).2
        rw [g] at this; simp [e] at this
    have near (pa : Nat) : nearByte (s.modCore core fun c => { c with l1 := c.l1.filter fun x => x.sec / 4 != victim }) pa = nearByte s pa :=
      nearByte_congr h1 rfl rfl pa
    have served (pa : Nat) : servedByte (s.modCore core fun c => { c with l1 := c.l1.filter fun x => x.sec / 4 != victim }) pa = servedByte s pa :=
      servedByte_congr h1 rfl rfl pa
    have at_ (pa : Nat) : byteAt s core pa = (heldByte ((s.core core).l1.filter fun x => x.sec / 4 == victim) pa).getD
        ((heldByte ((s.core core).l1.filter fun x => x.sec / 4 != victim) pa).getD (nearByte s pa)) := by
      rw [byteAt_eq]
      by_cases e : sectorOf pa / 4 = victim
      · rw [kept pa e, held_filter fun x hx => by simp [hx, e]]; rfl
      · rw [gone pa e, held_filter fun x hx => by simp [hx, e]]; rfl
    refine ⟨⟨side, fun pa => ?_, fun c hc => ?_, fun pa n => ?_, fun pa => ?_, fun pa => ?_, g.ordered, by rw [g.cores, h3]⟩, fun x hx => ?_, ?_⟩
    · rw [byteAt_eq, core_of_cores g.cores, core_modCore _ lt, g.near, near, at_]
      dsimp only
      by_cases e : sectorOf pa / 4 = victim
      · rw [kept pa e]; rfl
      · rw [gone pa e]; rfl
    · rw [core_of_cores g.cores]; exact h4 c hc
    · rw [ownByte_eq, core_of_cores g.cores, core_modCore _ lt] at n
      dsimp only at n
      rw [at_, n, ownByte_eq]
      rcases g.served pa with ⟨b, hb, e⟩ | ⟨hb, e⟩
      · left; rw [hb, e]; rfl
      · have hs : heldByte (s.core core).l1 pa = none := by
          by_cases e : sectorOf pa / 4 = victim
          · rw [held_filter fun x hx => by simp [hx, e]] at hb; exact hb
          · rw [held_filter fun x hx => by simp [hx, e]] at n; exact n
        rw [hb]
        rcases e with e | e
        · right; rw [e, served]; exact ⟨hs, rfl⟩
        · left; rw [e, near]; rfl
    · rcases g.homes pa with e | e | e
      · exact .inl e
      · rw [near] at e; exact .inr (.inr e)
      · right; left; rw [at_, e]; rfl
    · rw [g.near, near, at_]
      cases hb : heldByte ((s.core core).l1.filter fun x => x.sec / 4 == victim) pa with
      | none => exact .inl rfl
      | some b => exact .inr rfl
    · rw [core_of_cores g.cores, core_modCore _ lt] at hx
      exact (List.mem_filter.1 hx).1
    · rintro ⟨x, hx, rfl⟩
      exfalso; apply h
      have : (s.core core).setLines (x.sec / 4) |>.contains (x.sec / 4) := by
        unfold Core.setLines
        rw [List.contains_iff_mem, List.mem_eraseDups]
        simp only [List.mem_filter, List.mem_map, beq_self_eq_true, and_true]
        exact ⟨x, hx, rfl⟩
      rw [this]; rfl

/-- A sector put into an L1: room is made, and it stands there in the place of its own older form. -/
theorem putSector_spec {s : State} {core : Nat} (hint : Nat) (x : L1Sector) (len : x.data.length = 64) (lt : core < s.cores.length)
    (o : Ordered s core) :
    ∃ u, Keeps s u core ∧ (∀ y ∈ (u.core core).l1, y ∈ (s.core core).l1) ∧ ((∃ y ∈ (s.core core).l1, y.sec = x.sec) → u = s)
      ∧ MemorySide s (s.putSector core hint x) ∧ Ordered (s.putSector core hint x) core
      ∧ (s.putSector core hint x).cores.length = s.cores.length
      ∧ (∀ c, c ≠ core → ((s.putSector core hint x).core c).l1 = (s.core c).l1)
      ∧ (∀ pa, ownByte (s.putSector core hint x) core pa = if sectorOf pa = x.sec then heldByte [x] pa else ownByte u core pa)
      ∧ (∀ pa, nearByte (s.putSector core hint x) pa = nearByte u pa ∧ servedByte (s.putSector core hint x) pa = servedByte u pa
          ∧ Memory.read (s.putSector core hint x).mem.home pa = Memory.read u.mem.home pa)
      ∧ (∀ y ∈ ((s.putSector core hint x).core core).l1, y.sec ≠ x.sec → ∃ z ∈ (s.core core).l1, sameView z y) := by
  have side := side_putSector s core hint x
  obtain ⟨k, sub, same⟩ := makeRoom_spec (x.sec / 4) lt o
  refine ⟨s.makeRoom core (x.sec / 4), k, sub, fun ⟨y, hy, e⟩ => same ⟨y, hy, by rw [e]⟩, side, ?_⟩
  unfold State.putSector at side ⊢
  dsimp only at side ⊢
  generalize s.makeRoom core (x.sec / 4) = u at k sub side ⊢
  have ltu : core < u.cores.length := by rw [k.length]; exact lt
  have wx : L1Wf { u.core core with l1 := x :: (u.core core).l1.filter fun y => y.sec != x.sec } := by
    refine ⟨?_, ?_⟩
    · rw [List.map_cons, List.nodup_cons]
      exact ⟨by simp, (wf_filter _ k.ordered.l1).1⟩
    · intro y hy
      rcases List.mem_cons.1 hy with rfl | hy
      · exact len
      · exact (wf_filter _ k.ordered.l1).2 y hy
  obtain ⟨h1, h2, h3, h4, h5⟩ := modCore_bytes (s := u) (core := core)
    (fun c => ({ c with l1 := x :: c.l1.filter fun y => y.sec != x.sec } : Core).touch (x.sec / 4) hint) (fun _ => rfl) ltu k.ordered
    (wf_touch _ _ wx)
  refine ⟨h2, h3.trans k.length, fun c hc => (h4 c hc).trans (k.others c hc), fun pa => ?_, fun pa => ?_, fun y hy hne => ?_⟩
  · rw [ownByte_eq, core_modCore _ ltu, held_touch _ _ wx]
    dsimp only
    rw [heldByte_cons]
    by_cases h : sectorOf pa = x.sec
    · rw [if_pos h, if_pos h.symm]
    · rw [if_neg h, if_neg fun e => h e.symm, held_filter fun y hy => by simp [hy, h], ownByte_eq]
  · exact ⟨nearByte_congr h1 rfl rfl pa, servedByte_congr h1 rfl rfl pa, rfl⟩
  · rw [core_modCore _ ltu] at hy
    obtain ⟨z, hz, e⟩ := mem_touch hy
    rcases List.mem_cons.1 hz with rfl | hm
    · exact absurd e.1 hne
    · exact ⟨z, sub z (List.mem_filter.1 hm).1, e⟩

/-- A sector put into an L1 with the core's own dirty bytes of it keeps what the core has put anywhere. -/
theorem keeps_putSector {s : State} {core : Nat} (hint : Nat) (x : L1Sector) (len : x.data.length = 64) (lt : core < s.cores.length)
    (o : Ordered s core) (h : ∀ pa, sectorOf pa = x.sec → heldByte [x] pa = ownByte s core pa) :
    Keeps s (s.putSector core hint x) core
      ∧ ∀ y ∈ ((s.putSector core hint x).core core).l1, y.sec ≠ x.sec → ∃ z ∈ (s.core core).l1, sameView z y := by
  obtain ⟨u, k, sub, same, p1, p2, p3, p4, p5, p6, p7⟩ := putSector_spec hint x len lt o
  have own (pa : Nat) : ownByte (s.putSector core hint x) core pa = ownByte u core pa := by
    rw [p5]
    split
    · next e =>
      rw [h pa e]
      by_cases f : ∃ y ∈ (s.core core).l1, y.sec = x.sec
      · rw [same f]
      · have no : ∀ y ∈ (s.core core).l1, y.sec ≠ sectorOf pa := fun y hy he => f ⟨y, hy, by rw [he, e]⟩
        rw [ownByte_eq, ownByte_eq, heldByte_none no, heldByte_none fun y hy => no y (sub y hy)]
    · rfl
  refine ⟨⟨p1, fun pa => ?_, p4, fun pa n => ?_, fun pa => ?_, fun pa => ?_, p2, p3⟩, p7⟩
  · rw [← k.bytes pa]; unfold byteAt; rw [own, (p6 pa).1]
  · rw [own] at n; rw [(p6 pa).2.1]; exact k.served pa n
  · rw [(p6 pa).2.2]; exact k.homes pa
  · rw [(p6 pa).1]; exact k.near pa

theorem heldByte_one {x : L1Sector} {pa : Nat} (h : x.sec = sectorOf pa) :
    heldByte [x] pa = if x.dirty.getLsbD (pa % 64) then some (x.data.getD (pa % 64) 0) else none := by
  unfold heldByte; simp [h]

theorem held_of_sector {s : State} {core : Nat} {x : L1Sector} {pa : Nat} (h : (s.core core).sector (sectorOf pa) = some x) :
    heldByte (s.core core).l1 pa = if x.dirty.getLsbD (pa % 64) then some (x.data.getD (pa % 64) 0) else none := by
  rw [heldByte_eq, h]; rfl

theorem own_of_sector {s : State} {core : Nat} {x : L1Sector} {pa : Nat} (h : (s.core core).sector (sectorOf pa) = some x) :
    ownByte s core pa = if x.dirty.getLsbD (pa % 64) then some (x.data.getD (pa % 64) 0) else none := by
  unfold ownByte; rw [h]; rfl

theorem own_of_none {s : State} {core pa : Nat} (h : (s.core core).sector (sectorOf pa) = none) : ownByte s core pa = none := by
  unfold ownByte; rw [h]; rfl

/-- A sector loaded: its wanted bytes are such as a load finds, none is bad, and what the core has put anywhere stays. -/
theorem loadSector_spec {s : State} {core : Nat} (lt : core < s.cores.length) (o : Ordered s core) (a : Asker) (ha : a.core = core)
    (hint sec : Nat) (need : BitVec 64) :
    ∃ d t, s.loadSector a hint sec need = (d, 0, t) ∧ Keeps s t core
      ∧ (∀ pa, sectorOf pa = sec → need.getLsbD (pa % 64) = true → Found s core hint pa (d.getD (pa % 64) 0))
      ∧ (∀ y ∈ (t.core core).l1, y.sec ≠ sec → ∃ z ∈ (s.core core).l1, sameView z y) := by
  subst ha
  have oc : Shifts s (s.count a.ctx 0x07 1 a.umode) a.core :=
    shifts_same o (side_count s a.ctx 0x07 1 a.umode) (count_mem s a.ctx 0x07 1 a.umode).1 (count_mem s a.ctx 0x07 1 a.umode).2
  obtain ⟨d, u, hr, dl, su, dv⟩ := nearRead_spec oc.ordered a sec
  have sh := oc.trans su
  have ku := sh.keeps
  have cu (c : Nat) : u.core c = s.core c := core_of_cores sh.cores c
  have ltu : a.core < u.cores.length := by rw [sh.cores]; exact lt
  have val (pa : Nat) (h : sectorOf pa = sec) : d.getD (pa % 64) 0 = servedByte s pa ∨ d.getD (pa % 64) 0 = nearByte s pa := by
    rcases dv pa h with e | e
    · rw [e]; exact oc.served pa
    · rw [e, oc.near]; exact .inr rfl
  have far (pa : Nat) (h : sectorOf pa = sec) (n : ownByte s a.core pa = none) : Found s a.core hint pa (d.getD (pa % 64) 0) := by
    rcases val pa h with e | e
    · rw [e]; exact .inr ⟨n, .inl rfl⟩
    · left; rw [e]; unfold byteAt; rw [n]; rfl
  have self : ∀ y ∈ (u.core a.core).l1, y.sec ≠ sec → ∃ z ∈ (s.core a.core).l1, sameView z y :=
    fun y hy _ => ⟨y, by rw [cu] at hy; exact hy, rfl, rfl, rfl, rfl⟩
  have zero : ∀ b : BitVec 64, ((0 : BitVec 64) != 0) = false := fun _ => rfl
  unfold State.loadSector State.ownSector
  cases hx : (s.core a.core).sector sec with
  | none =>
    dsimp only
    rw [hr]
    dsimp only
    have n (pa : Nat) (h : sectorOf pa = sec) : ownByte s a.core pa = none := own_of_none (by rw [h]; exact hx)
    by_cases h2 : hint = 2
    · refine ⟨_, _, rfl, ?_⟩
      rw [if_pos (by simp [h2])]
      exact ⟨ku, fun pa h _ => far pa h (n pa h), self⟩
    · refine ⟨_, _, rfl, ?_⟩
      rw [if_neg (by simp [h2])]
      obtain ⟨kp, sub⟩ := keeps_putSector hint
        { sec := sec, data := d, dirty := 0, filled := true, epoch := u.mem.epoch, owner := a.ctx } dl ltu su.ordered fun pa h => by
          rw [heldByte_one h.symm, own_of_none (s := u) (by rw [cu, h]; exact hx)]; simp
      exact ⟨ku.trans kp, fun pa h _ => far pa h (n pa h), fun y hy hn => by
        obtain ⟨z, hz, e⟩ := sub y hy hn
        exact ⟨z, by rw [cu] at hz; exact hz, e⟩⟩
  | some x =>
    obtain ⟨hm, hs⟩ := (sector_some o.l1).1 hx
    have xl := o.l1.2 x hm
    have seen (pa : Nat) (h : sectorOf pa = sec) : (s.core a.core).sector (sectorOf pa) = some x := by rw [h]; exact hx
    have meet : s.meetL1 a.core x 0 = (some x, s) := by unfold State.meetL1; rw [l1Bits_clean o.clean]
    dsimp only
    rw [meet]
    dsimp only
    rw [l1Bits_clean o.clean, show l1BadBytes [] = 0 from rfl]
    by_cases hit : (decide (hint ≠ 2) && need &&& x.valid == need) = true
    · rw [if_pos hit]
      refine ⟨_, _, rfl, keeps_touch (sec / 4) hint lt o, fun pa h hn => ?_, fun y hy _ => ?_⟩
      · simp only [Bool.and_eq_true, decide_eq_true_eq, beq_iff_eq] at hit
        have v : x.valid.getLsbD (pa % 64) = true := by
          have := congrArg (fun b : BitVec 64 => b.getLsbD (pa % 64)) hit.2
          simp only [BitVec.getLsbD_and, hn, Bool.true_and] at this; exact this
        by_cases dd : x.dirty.getLsbD (pa % 64) = true
        · left; unfold byteAt; rw [own_of_sector (seen pa h), if_pos dd]; rfl
        · refine .inr ⟨by rw [own_of_sector (seen pa h), if_neg dd], .inr ⟨hit.1, ?_⟩⟩
          unfold cachedByte; rw [seen pa h]; dsimp only; rw [if_pos v]
      · rw [core_modCore _ lt] at hy
        exact mem_touch hy
    · rw [if_neg hit, hr]
      dsimp only
      have md (pa : Nat) (h : sectorOf pa = sec) : (mergeBytes d (dirtyBytes sec x.data x.dirty)).getD (pa % 64) 0 =
          (ownByte s a.core pa).getD (d.getD (pa % 64) 0) := by
        rw [getD_mergeBytes dl fun e he => (sector_dirtyBytes he).trans h.symm, lastByte_dirtyBytes _ _ _ _ h, own_of_sector (seen pa h)]
      have found (pa : Nat) (h : sectorOf pa = sec) :
          Found s a.core hint pa ((mergeBytes d (dirtyBytes sec x.data x.dirty)).getD (pa % 64) 0) := by
        rw [md pa h]
        cases n : ownByte s a.core pa with
        | none => exact far pa h n
        | some b => left; unfold byteAt; rw [n]; rfl
      refine ⟨_, _, Prod.ext rfl (Prod.ext (by simp) rfl), ?_⟩
      by_cases h2 : hint = 2
      · rw [if_pos (by simp [h2])]
        exact ⟨ku, fun pa h _ => found pa h, self⟩
      · rw [if_neg (by simp [h2])]
        obtain ⟨kp, sub⟩ := keeps_putSector (s := u) (core := a.core) hint
          { x with data := mergeBytes d (dirtyBytes sec x.data x.dirty), filled := true, epoch := u.mem.epoch }
          (by dsimp only; rw [length_mergeBytes]; exact dl) ltu su.ordered fun pa h => by
            have h' : sectorOf pa = sec := h.trans hs
            rw [heldByte_one (x := { x with data := mergeBytes d (dirtyBytes sec x.data x.dirty), filled := true, epoch := u.mem.epoch }) h.symm,
              own_of_sector (s := u) (by rw [cu]; exact seen pa h')]
            dsimp only
            rw [md pa h', own_of_sector (seen pa h')]
            split <;> rfl
        exact ⟨ku.trans kp, fun pa h _ => found pa h, fun y hy hn => by
          obtain ⟨z, hz, e⟩ := sub y hy (by dsimp only; rw [hs]; exact hn)
          exact ⟨z, by rw [cu] at hz; exact hz, e⟩⟩

/-! ### Loads -/

/-- A load of another sector leaves what a load finds. -/
theorem found_after {s t : State} {core hint sec pa : Nat} {b : Byte} (k : Keeps s t core) (o : Ordered s core) (h : sectorOf pa ≠ sec)
    (sub : ∀ y ∈ (t.core core).l1, y.sec ≠ sec → ∃ z ∈ (s.core core).l1, sameView z y) (f : Found t core hint pa b) : Found s core hint pa b := by
  have served (e : b = servedByte t pa) (n : ownByte t core pa = none) : Found s core hint pa b := by
    rcases k.served pa n with g | ⟨n', g⟩
    · exact .inl (e.trans g)
    · exact .inr ⟨n', .inl (e.trans g)⟩
  rcases f with e | ⟨n, e | ⟨h2, e⟩⟩
  · exact .inl (e.trans (k.bytes pa))
  · exact served e n
  · unfold cachedByte at e
    cases hx : (t.core core).sector (sectorOf pa) with
    | none => rw [hx] at e; exact served e n
    | some x =>
      rw [hx] at e
      dsimp only at e
      by_cases v : x.valid.getLsbD (pa % 64) = true
      · rw [if_pos v] at e
        obtain ⟨hm, hs⟩ := (sector_some k.ordered.l1).1 hx
        obtain ⟨z, hz, z1, z2, z3, z4⟩ := sub x hm (by rw [hs]; exact h)
        have old : (s.core core).sector (sectorOf pa) = some z := (sector_some o.l1).2 ⟨hz, by rw [← z1, hs]⟩
        refine .inr ⟨?_, .inr ⟨h2, ?_⟩⟩
        · rw [own_of_sector hx] at n
          rw [own_of_sector old, ← z3, ← z2]; exact n
        · unfold cachedByte
          rw [old]
          dsimp only
          rw [if_pos (by rw [← z4]; exact v), e, z2]
      · rw [if_neg v] at e; exact served e n

/-- Sectors loaded one after another. -/
theorem loadSectors_spec {core : Nat} (a : Asker) (ha : a.core = core) (hint : Nat) (need : Nat → BitVec 64) (secs : List Nat) (nd : secs.Nodup)
    {s : State} (lt : core < s.cores.length) (o : Ordered s core) (acc : List (Nat × List Byte × BitVec 64)) :
    ∃ vs t, secs.foldl (fun (x : List (Nat × List Byte × BitVec 64) × State) sec =>
        (x.1 ++ [(sec, (x.2.loadSector a hint sec (need sec)).1, (x.2.loadSector a hint sec (need sec)).2.1)],
          (x.2.loadSector a hint sec (need sec)).2.2)) (acc, s) = (acc ++ vs, t)
      ∧ Keeps s t core ∧ vs.map Prod.fst = secs
      ∧ ∀ sec ∈ secs, ∃ d, (sec, d, 0) ∈ vs ∧ ∀ pa, sectorOf pa = sec → (need sec).getLsbD (pa % 64) = true →
          Found s core hint pa (d.getD (pa % 64) 0) := by
  induction secs generalizing s acc with
  | nil => exact ⟨[], s, by simp, Keeps.refl o, rfl, by simp⟩
  | cons sec rest ih =>
    rw [List.nodup_cons] at nd
    obtain ⟨d, u, hl, ku, hv, sub⟩ := loadSector_spec lt o a ha hint sec (need sec)
    obtain ⟨vs, t, ht, kt, hk, hvs⟩ := ih nd.2 (by rw [ku.length]; exact lt) ku.ordered (acc ++ [(sec, d, 0)])
    refine ⟨(sec, d, 0) :: vs, t, ?_, ku.trans kt, by rw [List.map_cons, hk], ?_⟩
    · rw [List.foldl_cons]
      simp only [hl]
      rw [ht]; simp
    · intro sec' hs
      rcases List.mem_cons.1 hs with rfl | hs
      · exact ⟨d, by simp, hv⟩
      · obtain ⟨d', hd, hf⟩ := hvs sec' hs
        refine ⟨d', List.mem_cons_of_mem _ hd, fun pa h hn => found_after ku o (fun e => nd.1 ?_) sub (hf pa h hn)⟩
        rw [← e, h]; exact hs

theorem lookupD_mem {α : Type} {l : List (Nat × α)} (nd : (l.map Prod.fst).Nodup) {k : Nat} {v d : α} (h : (k, v) ∈ l) : lookupD d l k = v := by
  unfold lookupD
  induction l with
  | nil => cases h
  | cons e t ih =>
    simp only [List.map_cons, List.nodup_cons, List.mem_map, not_exists, not_and] at nd
    rcases List.mem_cons.1 h with rfl | h
    · simp
    · have : ¬ e.1 = k := fun x => nd.1 _ h x.symm
      rw [List.find?_cons_of_neg (by simpa using this)]
      exact ih nd.2 h

theorem lookupD_map_self {l : List Nat} (f : Nat → Byte) {k : Nat} (h : k ∈ l) : lookupD 0 (l.map fun p => (p, f p)) k = f k := by
  unfold lookupD
  have : (l.map fun p => (p, f p)).find? (fun e => e.1 == k) = some (k, f k) := by
    induction l with
    | nil => cases h
    | cons a t ih =>
      rw [List.map_cons]
      by_cases e : a = k
      · subst e; simp
      · rw [List.find?_cons_of_neg (by simpa using e)]
        exact ih ((List.mem_cons.1 h).resolve_left fun x => e x.symm)
  rw [this]

theorem ctx_side {s t : State} (h : MemorySide s t) (c : Nat) : quietCtx (t.ctx c) = quietCtx (s.ctx c) := by
  have := congrArg (fun l : List Context => l.getD c (quietCtx default)) h.ctxs
  simpa only [State.ctx, getD_map'] using this

theorem coreOf_side {s t : State} (h : MemorySide s t) (w : Wave) : t.coreOf w = s.coreOf w := by
  have := congrArg Context.clusterMap (ctx_side h w.ctx)
  simp only [State.coreOf, State.physCluster]
  rw [show (t.ctx w.ctx).clusterMap = (s.ctx w.ctx).clusterMap from this]

theorem pairOf_side {s t : State} (h : MemorySide s t) (w : Wave) : t.pairOf w = s.pairOf w := by
  have := congrArg Context.clusterMap (ctx_side h w.ctx)
  simp only [State.pairOf, State.physCluster]
  rw [show (t.ctx w.ctx).clusterMap = (s.ctx w.ctx).clusterMap from this]

theorem overlay_side {s t : State} (h : MemorySide s t) (k : Nat) : t.overlay k = s.overlay k := by
  have j : t.jalti = s.jalti := by have := congrArg State.jalti h.rest; exact this
  unfold State.overlay State.pair
  simp only [h.wave, coreOf_side h, pairOf_side h, j]

/-- The bytes of a load by a wave over whose memory nothing stands (R171, R250): every address is found, none is bad, and
nothing that the core has put anywhere changes. -/
theorem loadBytes_spec {s : State} {k core : Nat} (lt : core < s.cores.length) (o : Ordered s core) (a : Asker) (ha : a.core = core) (hint : Nat)
    (pas : List Nat) (det : s.detOf (s.wave k) = false) (mine : s.overlay k = []) (veils : ∀ l ∈ s.launches, l.veils = []) :
    ∃ bytes t, s.loadBytes k a hint pas = (bytes, [], t) ∧ Keeps s t core
      ∧ ∀ pa ∈ pas, Found s core hint pa (lookupD 0 bytes pa) := by
  have nd : ((pas.map sectorOf).eraseDups).Nodup := nodup_eraseDups _
  obtain ⟨vs, t, hf, kt, hk, hv⟩ := loadSectors_spec a ha hint
    (fun sec => byteMask ((pas.filter fun p => sectorOf p == sec).map (· % 64))) ((pas.map sectorOf).eraseDups) nd lt o []
  have nv : (vs.map Prod.fst).Nodup := by rw [hk]; exact nd
  rw [List.nil_append] at hf
  have mine' : t.overlay k = [] := by rw [overlay_side kt.side]; exact mine
  have veils' : (t.launches.any fun l => !l.veils.isEmpty) = false := by
    have key : t.launches.map Launch.veils = s.launches.map Launch.veils := by
      have := congrArg (fun l : List Launch => l.map Launch.veils) kt.side.launches
      simpa [List.map_map, Function.comp_def, quietLaunch] using this
    rw [List.any_eq_false]
    intro l hl
    have : l.veils ∈ s.launches.map Launch.veils := by rw [← key]; exact List.mem_map_of_mem hl
    obtain ⟨x, hx, he⟩ := List.mem_map.1 this
    rw [← he, veils x hx]; simp
  have view (pa : Nat) (h : pa ∈ pas) : ∃ d, lookupD ([], 0) vs (sectorOf pa) = (d, 0) ∧ Found s core hint pa (d.getD (pa % 64) 0) := by
    obtain ⟨d, hd, hf⟩ := hv (sectorOf pa) (by rw [List.mem_eraseDups]; exact List.mem_map_of_mem h)
    refine ⟨d, lookupD_mem nv hd, hf pa rfl ?_⟩
    rw [byteMask_spec _ _ (by simp only [List.mem_map]; rintro o ⟨p, -, rfl⟩; omega)]
    simp only [decide_eq_true_eq, List.mem_map, List.mem_filter, beq_iff_eq]
    exact ⟨pa, ⟨h, rfl⟩, rfl⟩
  unfold State.loadBytes
  rw [det]
  simp only [Bool.false_eq_true, if_false, hf, mine', veils', overlayByte, List.find?_nil, Option.map_none, Option.isNone_none, Bool.true_and]
  refine ⟨_, _, Prod.ext rfl (Prod.ext ?_ rfl), kt, fun pa h => ?_⟩
  · rw [List.filter_eq_nil_iff]
    intro pa h
    obtain ⟨d, hd, -⟩ := view pa h
    rw [hd]; simp
  · obtain ⟨d, hd, hf⟩ := view pa h
    rw [lookupD_map_self _ (List.mem_eraseDups.2 h), hd]
    exact hf

/-! ### Stores and write-backs -/

/-- From `s` to `t` the core has put the last bytes of `l` at their addresses, and nothing else changed that it has put anywhere. -/
structure Puts (s t : State) (core : Nat) (l : List (Nat × Byte)) : Prop where
  side : MemorySide s t
  bytes : ∀ pa, byteAt t core pa = (lastByte l pa).getD (byteAt s core pa)
  others : ∀ c, c ≠ core → (t.core c).l1 = (s.core c).l1
  homes : ∀ pa, Memory.read t.mem.home pa = Memory.read s.mem.home pa ∨ Memory.read t.mem.home pa = byteAt s core pa
    ∨ Memory.read t.mem.home pa = nearByte s pa ∨ lastByte l pa = some (Memory.read t.mem.home pa)
  near : ∀ pa, nearByte t pa = nearByte s pa ∨ nearByte t pa = byteAt s core pa ∨ lastByte l pa = some (nearByte t pa)
  ordered : Ordered t core
  length : t.cores.length = s.cores.length

/-- The traffic of a core that puts bytes. -/
theorem Puts.traffic {s t : State} {core : Nat} {l : List (Nat × Byte)} (h : Puts s t core l) : Traffic s t core l := by
  refine ⟨h.side, h.bytes, h.others, fun pa => ?_⟩
  rcases h.homes pa with e | e | e | e
  · exact .inl e
  · exact .inr (.inl e)
  · exact .inr (.inr (.inr e))
  · exact .inr (.inr (.inl (by rw [h.bytes, e]; rfl)))

theorem Keeps.then_puts {s t u : State} {core : Nat} {l : List (Nat × Byte)} (h : Keeps s t core) (g : Puts t u core l) : Puts s u core l := by
  refine ⟨h.side.trans g.side, fun pa => by rw [g.bytes, h.bytes], fun c hc => (g.others c hc).trans (h.others c hc), fun pa => ?_,
    fun pa => ?_, g.ordered, g.length.trans h.length⟩
  · rcases g.homes pa with e | e | e | e
    · rw [e]; exact (h.homes pa).imp id (Or.imp id .inl)
    · rw [e, h.bytes]; exact .inr (.inl rfl)
    · rw [e]
      rcases h.near pa with f | f
      · exact .inr (.inr (.inl f))
      · exact .inr (.inl f)
    · exact .inr (.inr (.inr e))
  · rcases g.near pa with e | e | e
    · rw [e]; exact (h.near pa).imp id .inl
    · rw [e, h.bytes]; exact .inr (.inl rfl)
    · exact .inr (.inr e)

theorem wf_setSector {c : Core} (x : L1Sector) (len : x.data.length = 64) (w : L1Wf c) : L1Wf (c.setSector x) := by
  unfold Core.setSector
  refine ⟨?_, ?_⟩
  · have : (c.l1.map fun y => if y.sec = x.sec then x else y).map L1Sector.sec = c.l1.map L1Sector.sec := by
      rw [List.map_map]
      refine List.map_congr_left fun y _ => ?_
      simp only [Function.comp]
      split
      · next h => exact h.symm
      · rfl
    dsimp only; rw [this]; exact w.1
  · intro y hy
    obtain ⟨z, hz, rfl⟩ := List.mem_map.1 hy
    split
    · exact len
    · exact w.2 z hz

theorem held_setSector {c : Core} (x : L1Sector) (pa : Nat) (h : ∃ y ∈ c.l1, y.sec = x.sec) :
    heldByte (c.setSector x).l1 pa = if x.sec = sectorOf pa then heldByte [x] pa else heldByte c.l1 pa := by
  unfold Core.setSector
  dsimp only
  generalize c.l1 = l at h
  induction l with
  | nil => obtain ⟨y, hy, -⟩ := h; cases hy
  | cons z t ih =>
    rw [List.map_cons]
    by_cases g : x.sec = sectorOf pa
    · rw [if_pos g] at ih ⊢
      by_cases hz : z.sec = x.sec
      · rw [if_pos hz, heldByte_cons, if_pos g]
      · rw [if_neg hz, heldByte_cons, if_neg (fun e => hz (e.trans g.symm))]
        refine ih ?_
        obtain ⟨y, hy, he⟩ := h
        rcases List.mem_cons.1 hy with rfl | hy
        · exact absurd he hz
        · exact ⟨y, hy, he⟩
    · rw [if_neg g] at ih ⊢
      have tail : heldByte (t.map fun y => if y.sec = x.sec then x else y) pa = heldByte t pa := by
        clear ih h
        induction t with
        | nil => rfl
        | cons y t ih =>
          rw [List.map_cons, heldByte_cons, heldByte_cons y, ih]
          by_cases hy : y.sec = x.sec
          · rw [if_pos hy, if_neg g, if_neg (fun e => g (hy.symm.trans e))]
          · rw [if_neg hy]
      rw [heldByte_cons, heldByte_cons z, tail]
      by_cases hz : z.sec = x.sec
      · rw [if_pos hz, if_neg g, if_neg (fun e => g (hz.symm.trans e))]
      · rw [if_neg hz]

/-- Bytes of one sector stored by a core. -/
theorem storeSector_spec {s : State} {core : Nat} (lt : core < s.cores.length) (o : Ordered s core) (a : Asker) (ha : a.core = core)
    (hint sec : Nat) (l : List (Nat × Byte)) (hl : ∀ e ∈ l, sectorOf e.1 = sec) : Puts s (s.storeSector a hint sec l) core l := by
  subst ha
  have side := side_storeSector s a hint sec l
  have other (pa : Nat) (h : sectorOf pa ≠ sec) : lastByte l pa = none :=
    lastByte_none fun e he g => h (by rw [← g]; exact hl e he)
  have met : s.ownSector a.core sec (byteMask (l.map fun e => e.1 % 64)) = ((s.core a.core).sector sec, s) := by
    unfold State.ownSector State.meetL1
    cases (s.core a.core).sector sec with
    | none => rfl
    | some x => dsimp only; rw [l1Bits_clean o.clean]
  unfold State.storeSector at side ⊢
  dsimp only at side ⊢
  rw [met] at side ⊢
  dsimp only at side ⊢
  by_cases h2 : hint = 2
  · rw [if_pos h2] at side ⊢
    have gen (u : State) (mu : MemorySide s u) (ou : Ordered u a.core) (lu : u.cores.length = s.cores.length) (m : u.mem = s.mem)
        (hu : ∀ c, c ≠ a.core → (u.core c).l1 = (s.core c).l1)
        (ho : ∀ pa, sectorOf pa ≠ sec → ownByte u a.core pa = ownByte s a.core pa)
        (hs : ∀ pa, sectorOf pa = sec → (ownByte u a.core pa).getD ((lastByte l pa).getD (nearByte s pa)) = (lastByte l pa).getD (byteAt s a.core pa))
        (side : MemorySide s (u.nearWrite a sec l)) : Puts s (u.nearWrite a sec l) a.core l := by
      have w := nearWrite_spec ou a sec l hl
      have nu (pa : Nat) : nearByte u pa = nearByte s pa := nearByte_congr mu (by rw [m]) (by rw [m]) pa
      have own (pa : Nat) : ownByte (u.nearWrite a sec l) a.core pa = ownByte u a.core pa := by
        unfold ownByte; rw [core_of_cores w.cores]
      refine ⟨side, fun pa => ?_, fun c hc => by rw [core_of_cores w.cores, hu c hc], fun pa => ?_, fun pa => ?_, w.ordered, by rw [w.cores, lu]⟩
      · unfold byteAt
        rw [own, w.near, nu]
        by_cases e : sectorOf pa = sec
        · exact hs pa e
        · rw [ho pa e, other pa e]; rfl
      · rcases w.homes pa with e | e | e
        · left; rw [e, m]
        · rw [nu] at e; exact .inr (.inr (.inl e))
        · exact .inr (.inr (.inr e))
      · rw [w.near, nu]
        cases lastByte l pa with
        | none => exact .inl rfl
        | some b => exact .inr (.inr rfl)
    cases hx : (s.core a.core).sector sec with
    | none =>
      rw [hx] at side
      refine gen s (.refl s) o rfl rfl (fun _ _ => rfl) (fun _ _ => rfl) (fun pa e => ?_) side
      unfold byteAt
      rw [own_of_none (by rw [e]; exact hx)]; rfl
    | some x =>
      rw [hx] at side
      dsimp only at side ⊢
      obtain ⟨hm, hs⟩ := (sector_some o.l1).1 hx
      have xl := o.l1.2 x hm
      obtain ⟨m1, m2, m3, m4, m5⟩ := modCore_bytes (s := s) (core := a.core) (fun c => c.setSector
        { x with data := mergeBytes x.data l, dirty := x.dirty &&& ~~~byteMask (l.map fun e => e.1 % 64), clean := x.clean ||| byteMask (l.map fun e => e.1 % 64) })
        (fun _ => rfl) lt o (wf_setSector _ (by dsimp only; rw [length_mergeBytes]; exact xl) o.l1)
      have hset (pa : Nat) := held_setSector (c := s.core a.core)
        { x with data := mergeBytes x.data l, dirty := x.dirty &&& ~~~byteMask (l.map fun e => e.1 % 64), clean := x.clean ||| byteMask (l.map fun e => e.1 % 64) } pa ⟨x, hm, rfl⟩
      refine gen _ m1 m2 m3 rfl m4 (fun pa e => ?_) (fun pa e => ?_) side
      · rw [ownByte_eq, core_modCore _ lt, hset, if_neg (show ¬ x.sec = sectorOf pa from fun g => e (g.symm.trans hs)), ownByte_eq]
      · rw [ownByte_eq, core_modCore _ lt, hset, if_pos (show x.sec = sectorOf pa from hs.trans e.symm), heldByte_one (by dsimp only; rw [hs, e])]
        unfold byteAt
        rw [own_of_sector (s := s) (core := a.core) (by rw [e]; exact hx)]
        dsimp only
        rw [getD_mergeBytes xl fun b hb => (hl b hb).trans e.symm]
        simp only [BitVec.getLsbD_and, BitVec.getLsbD_not, mask_last hl e, show pa % 64 < 64 from Nat.mod_lt _ (by omega), decide_true,
          Bool.true_and]
        cases lastByte l pa with
        | none => cases x.dirty.getLsbD (pa % 64) <;> simp
        | some b => simp
  · rw [if_neg h2] at side ⊢
    have known : ∃ x : L1Sector, (((s.core a.core).sector sec).getD
        { sec := sec, data := zeros 64, dirty := 0, filled := false, epoch := s.mem.epoch, owner := a.ctx }) = x
        ∧ x.sec = sec ∧ x.data.length = 64 ∧ (∀ pa, sectorOf pa = sec → ownByte s a.core pa = heldByte [x] pa)
        ∧ ((∃ y ∈ (s.core a.core).l1, y.sec = x.sec) ∨ ∀ pa, sectorOf pa = sec → heldByte (s.core a.core).l1 pa = none) := by
      refine ⟨_, rfl, ?_⟩
      cases hx : (s.core a.core).sector sec with
      | none =>
        refine ⟨rfl, by simp [zeros], fun pa h => ?_, .inr fun pa h => heldByte_none fun y hy => by rw [h]; exact sector_none.1 hx y hy⟩
        rw [own_of_none (by rw [h]; exact hx), heldByte_one h.symm]; simp
      | some x =>
        obtain ⟨hm, hs⟩ := (sector_some o.l1).1 hx
        refine ⟨hs, o.l1.2 x hm, fun pa h => ?_, .inl ⟨x, hm, rfl⟩⟩
        rw [own_of_sector (by rw [h]; exact hx), Option.getD_some, heldByte_one (hs.trans h.symm)]
    obtain ⟨x, hx, hs, xl, hh, hin⟩ := known
    rw [hx] at side ⊢
    obtain ⟨u, k, sub, same, p1, p2, p3, p4, p5, p6, -⟩ := putSector_spec (s := s) (core := a.core) hint
      { x with data := mergeBytes x.data l, dirty := x.dirty ||| byteMask (l.map fun e => e.1 % 64), owner := a.ctx }
      (by dsimp only; rw [length_mergeBytes]; exact xl) lt o
    dsimp only at same p5
    refine ⟨p1, fun pa => ?_, p4, fun pa => ?_, fun pa => ?_, p2, p3⟩
    · unfold byteAt
      rw [p5, (p6 pa).1]
      by_cases e : sectorOf pa = sec
      · rw [if_pos (e.trans hs.symm), heldByte_one (by dsimp only; rw [hs, e]), hh pa e, heldByte_one (hs.trans e.symm)]
        dsimp only
        have below : x.dirty.getLsbD (pa % 64) = true ∨ nearByte u pa = nearByte s pa := by
          rcases hin with h | h
          · rw [same h]; exact .inr rfl
          · right
            have hn := h pa e
            have hu : heldByte (u.core a.core).l1 pa = none := by
              cases hq : heldByte (u.core a.core).l1 pa with
              | none => rfl
              | some b =>
                exfalso
                unfold heldByte at hq
                split at hq
                next y hf =>
                  have hy := sub y (List.mem_of_find?_eq_some hf)
                  have hys : y.sec = sectorOf pa := by simpa using List.find?_some hf
                  have : (s.core a.core).sector (sectorOf pa) = some y := (sector_some o.l1).2 ⟨hy, hys⟩
                  rw [held_of_sector this] at hn
                  rw [hn] at hq; cases hq
                · cases hq
            have := k.bytes pa
            rw [byteAt_eq, byteAt_eq, hn, hu] at this; exact this
        rw [getD_mergeBytes xl fun b hb => (hl b hb).trans e.symm]
        simp only [BitVec.getLsbD_or, mask_last hl e]
        cases lastByte l pa with
        | none =>
          rcases below with b | b
          · simp [b]
          · rw [b]; cases x.dirty.getLsbD (pa % 64) <;> simp
        | some b => simp
      · rw [if_neg (fun g => e (g.trans hs)), other pa e]
        exact k.bytes pa
    · rw [(p6 pa).2.2]; exact (k.homes pa).imp id (Or.imp id .inl)
    · rw [(p6 pa).1]; exact (k.near pa).imp id .inl

theorem lastByte_sector (l : List (Nat × Byte)) (pa : Nat) :
    lastByte (l.filter fun e => sectorOf e.1 == sectorOf pa) pa = lastByte l pa := lastByte_filter l _ pa fun _ => by simp

/-- Bytes stored by a core, sector by sector. -/
theorem storeAtCore_spec {s : State} {core : Nat} (lt : core < s.cores.length) (o : Ordered s core) (a : Asker) (ha : a.core = core)
    (hint : Nat) (l : List (Nat × Byte)) : Puts s (s.storeAtCore a hint l) core l := by
  have gen : ∀ (secs : List Nat), secs.Nodup → ∀ s : State, core < s.cores.length → Ordered s core →
      let t := (secs.map fun sec => (sec, l.filter fun e => sectorOf e.1 == sec)).foldl (fun s e => s.storeSector a hint e.1 e.2) s
      MemorySide s t ∧ (∀ pa, byteAt t core pa = if sectorOf pa ∈ secs then (lastByte l pa).getD (byteAt s core pa) else byteAt s core pa)
        ∧ (∀ c, c ≠ core → (t.core c).l1 = (s.core c).l1)
        ∧ (∀ pa, Memory.read t.mem.home pa = Memory.read s.mem.home pa ∨ Memory.read t.mem.home pa = byteAt s core pa
            ∨ Memory.read t.mem.home pa = nearByte s pa ∨ lastByte l pa = some (Memory.read t.mem.home pa))
        ∧ (∀ pa, nearByte t pa = nearByte s pa ∨ nearByte t pa = byteAt s core pa ∨ lastByte l pa = some (nearByte t pa))
        ∧ Ordered t core ∧ t.cores.length = s.cores.length := by
    intro secs
    induction secs with
    | nil => intro _ s _ o; exact ⟨.refl s, fun _ => by simp, fun _ _ => rfl, fun _ => .inl rfl, fun _ => .inl rfl, o, rfl⟩
    | cons sec rest ih =>
      intro nd s lt o
      rw [List.nodup_cons] at nd
      have p := storeSector_spec lt o a ha hint sec (l.filter fun e => sectorOf e.1 == sec) (by simp)
      have g := ih nd.2 _ (by rw [p.length]; exact lt) p.ordered
      rw [List.map_cons, List.foldl_cons]
      dsimp only at g ⊢
      obtain ⟨g1, g2, g3, g4, g5, g6, g7⟩ := g
      have eq (pa : Nat) (h : sectorOf pa = sec) : lastByte (l.filter fun e => sectorOf e.1 == sec) pa = lastByte l pa := by
        subst h; exact lastByte_sector l pa
      have ne (pa : Nat) (h : sectorOf pa ≠ sec) : lastByte (l.filter fun e => sectorOf e.1 == sec) pa = none :=
        lastByte_none fun e he x => h (by rw [← x]; simpa using (List.mem_filter.1 he).2)
      have part (pa : Nat) (b : Byte) (e : lastByte (l.filter fun e => sectorOf e.1 == sec) pa = some b) : lastByte l pa = some b := by
        by_cases h : sectorOf pa = sec
        · rw [← eq pa h]; exact e
        · rw [ne pa h] at e; cases e
      have core' (pa : Nat) : byteAt (s.storeSector a hint sec (l.filter fun e => sectorOf e.1 == sec)) core pa = byteAt s core pa
          ∨ lastByte l pa = some (byteAt (s.storeSector a hint sec (l.filter fun e => sectorOf e.1 == sec)) core pa) := by
        rw [p.bytes]
        cases hb : lastByte (l.filter fun e => sectorOf e.1 == sec) pa with
        | none => exact .inl rfl
        | some b => exact .inr (part pa b hb)
      have near' (pa : Nat) := p.near pa
      refine ⟨p.side.trans g1, fun pa => ?_, fun c hc => (g3 c hc).trans (p.others c hc), fun pa => ?_, fun pa => ?_, g6, g7.trans p.length⟩
      · rw [g2, p.bytes]
        by_cases h : sectorOf pa = sec
        · rw [if_neg (by rw [h]; exact nd.1), eq pa h, if_pos (by simp [h])]
        · rw [ne pa h]; simp [h]
      · rcases g4 pa with e | e | e | e
        · rw [e]
          rcases p.homes pa with f | f | f | f
          · exact .inl f
          · exact .inr (.inl f)
          · exact .inr (.inr (.inl f))
          · exact .inr (.inr (.inr (part pa _ f)))
        · rw [e]
          rcases core' pa with f | f
          · exact .inr (.inl f)
          · exact .inr (.inr (.inr f))
        · rw [e]
          rcases p.near pa with f | f | f
          · exact .inr (.inr (.inl f))
          · exact .inr (.inl f)
          · exact .inr (.inr (.inr (part pa _ f)))
        · exact .inr (.inr (.inr e))
      · rcases g5 pa with e | e | e
        · rw [e]
          rcases p.near pa with f | f | f
          · exact .inl f
          · exact .inr (.inl f)
          · exact .inr (.inr (part pa _ f))
        · rw [e]
          rcases core' pa with f | f
          · exact .inr (.inl f)
          · exact .inr (.inr f)
        · exact .inr (.inr e)
  obtain ⟨h1, h2, h3, h4, h5, h6, h7⟩ := gen ((l.map fun e => sectorOf e.1).eraseDups) (nodup_eraseDups _) s lt o
  refine ⟨h1, fun pa => (h2 pa).trans ?_, h3, h4, h5, h6, h7⟩
  split
  · rfl
  next h =>
    rw [List.mem_eraseDups, List.mem_map] at h
    rw [lastByte_none fun e he x => h ⟨e, he, by rw [x]⟩]; rfl

/-- What CLEAN of a sector leaves of each sector of the L1 (R180, R249). -/
def cleaned (sec : Nat) (y : L1Sector) : L1Sector := if y.sec = sec then { y with dirty := 0, clean := y.clean ||| y.dirty } else y

theorem sec_cleaned (sec : Nat) (y : L1Sector) : (cleaned sec y).sec = y.sec := by unfold cleaned; split <;> rfl

theorem cleanSector_eq (s : State) (a : Asker) (sec : Nat) : s.cleanSector a sec =
    match (s.core a.core).sector sec with
    | none => s
    | some x => if x.dirty = 0 then s.writeBackSector a x else
        (s.writeBackSector a x).modCore a.core fun c => { c with l1 := c.l1.map (cleaned sec) } := rfl

theorem wf_cleaned {c : Core} (sec : Nat) (w : L1Wf c) : L1Wf { c with l1 := c.l1.map (cleaned sec) } := by
  have e : (c.l1.map (cleaned sec)).map L1Sector.sec = c.l1.map L1Sector.sec := by
    rw [List.map_map]; exact List.map_congr_left fun x _ => sec_cleaned sec x
  refine ⟨by dsimp only; rw [e]; exact w.1, fun y hy => ?_⟩
  obtain ⟨z, hz, rfl⟩ := List.mem_map.1 hy
  unfold cleaned
  split <;> exact w.2 z hz

theorem held_cleaned (sec : Nat) (l : List L1Sector) (pa : Nat) :
    heldByte (l.map (cleaned sec)) pa = if sectorOf pa = sec then none else heldByte l pa := by
  induction l with
  | nil => simp [heldByte]
  | cons y t ih =>
    rw [List.map_cons, heldByte_cons, heldByte_cons y, ih, sec_cleaned]
    by_cases h : y.sec = sectorOf pa
    · rw [if_pos h, if_pos h, heldByte_one ((sec_cleaned sec y).trans h)]
      by_cases e : sectorOf pa = sec
      · rw [if_pos e]; unfold cleaned; rw [if_pos (h.trans e)]; simp
      · rw [if_neg e, heldByte_one h]; unfold cleaned; rw [if_neg (fun g => e (h.symm.trans g))]
    · rw [if_neg h, if_neg h]

/-- CLEAN of one sector: nothing changes but where its dirty bytes are. -/
theorem cleanSector_spec {s : State} {core : Nat} (lt : core < s.cores.length) (o : Ordered s core) (a : Asker) (ha : a.core = core)
    (sec : Nat) : Keeps s (s.cleanSector a sec) core ∧ ∀ x ∈ ((s.cleanSector a sec).core core).l1, x.sec = sec → x.dirty = 0 := by
  subst ha
  have side := side_cleanSector s a sec
  rw [cleanSector_eq] at side ⊢
  cases hx : (s.core a.core).sector sec with
  | none => exact ⟨Keeps.refl o, fun x h e => absurd e (sector_none.1 hx x h)⟩
  | some x =>
    rw [hx] at side
    obtain ⟨hm, hs⟩ := (sector_some o.l1).1 hx
    have w := writeBack_spec o a x
    dsimp only at side ⊢
    by_cases d : x.dirty = 0
    · rw [if_pos d] at side ⊢
      have : s.writeBackSector a x = s := by unfold State.writeBackSector; rw [if_pos d]
      rw [this]
      refine ⟨Keeps.refl o, fun y hy e => ?_⟩
      have : (s.core a.core).sector sec = some y := (sector_some o.l1).2 ⟨hy, e⟩
      rw [hx] at this; cases this; exact d
    · rw [if_neg d] at side ⊢
      have lt' : a.core < (s.writeBackSector a x).cores.length := by rw [w.cores]; exact lt
      have core' : (s.writeBackSector a x).core a.core = s.core a.core := core_of_cores w.cores _
      obtain ⟨m1, m2, m3, m4, m5⟩ := modCore_bytes (s := s.writeBackSector a x) (core := a.core)
        (fun c => { c with l1 := c.l1.map (cleaned sec) }) (fun _ => rfl) lt' w.ordered (by rw [core']; exact wf_cleaned sec o.l1)
      have near (pa : Nat) := nearByte_congr m1 rfl rfl pa
      have held (pa : Nat) : heldByte [x] pa = if sectorOf pa = sec then ownByte s a.core pa else none := by
        by_cases e : sectorOf pa = sec
        · rw [if_pos e, own_of_sector (by rw [e]; exact hx), heldByte_one (hs.trans e.symm)]
        · rw [if_neg e]; exact heldByte_none (by simp; rw [hs]; exact fun g => e g.symm)
      refine ⟨⟨side, fun pa => ?_, fun c hc => by rw [m4 c hc, core_of_cores w.cores], fun pa n => ?_, fun pa => ?_, fun pa => ?_, m2, by rw [m3, w.cores]⟩, ?_⟩
      · rw [m5, core', w.near, held, held_cleaned]
        unfold byteAt
        rw [← ownByte_eq]
        by_cases e : sectorOf pa = sec
        · rw [if_pos e, if_pos e]; rfl
        · rw [if_neg e, if_neg e]; rfl
      · rw [ownByte_eq, core_modCore _ lt', core'] at n
        dsimp only at n
        rw [held_cleaned, ← ownByte_eq] at n
        rw [servedByte_congr m1 rfl rfl]
        have hsv := w.served pa
        rw [held] at hsv
        by_cases e : sectorOf pa = sec
        · rw [if_pos e] at hsv
          rcases hsv with ⟨b, hb, f⟩ | ⟨hb, f | f⟩
          · left; rw [f]; unfold byteAt; rw [hb]; rfl
          · exact .inr ⟨hb, f⟩
          · left; rw [f]; unfold byteAt; rw [hb]; rfl
        · rw [if_neg e] at hsv n
          rcases hsv with ⟨b, hb, -⟩ | ⟨-, f | f⟩
          · cases hb
          · exact .inr ⟨n, f⟩
          · left; rw [f]; unfold byteAt; rw [n]; rfl
      · rcases w.homes pa with e | e | e
        · exact .inl e
        · exact .inr (.inr e)
        · rw [held] at e
          split at e
          · right; left
            show Memory.read (s.writeBackSector a x).mem.home pa = _
            unfold byteAt; rw [e]; rfl
          · cases e
      · rw [near, w.near, held]
        split
        · unfold byteAt
          cases ownByte s a.core pa with
          | none => exact .inl rfl
          | some b => exact .inr rfl
        · exact .inl rfl
      · intro y hy hys
        rw [core_modCore _ lt', core'] at hy
        obtain ⟨z, hz, rfl⟩ := List.mem_map.1 hy
        rw [sec_cleaned] at hys
        unfold cleaned; rw [if_pos hys]

theorem cleanSectors_spec {core : Nat} (a : Asker) (ha : a.core = core) (secs : List Nat) {s : State} (lt : core < s.cores.length)
    (o : Ordered s core) : Keeps s (secs.foldl (fun s sec => s.cleanSector a sec) s) core := by
  induction secs generalizing s with
  | nil => exact Keeps.refl o
  | cons sec t ih =>
    have h := (cleanSector_spec lt o a ha sec).1
    exact h.trans (ih (by rw [h.length]; exact lt) h.ordered)

/-- A plain store: through the L1, or at the home as one event. -/
theorem storePlain_spec {s : State} {core : Nat} (lt : core < s.cores.length) (o : Ordered s core) (a : Asker) (ha : a.core = core)
    (hint : Nat) (event : Bool) (l : List (Nat × Byte)) : Puts s (s.storePlain a hint event l) core l := by
  unfold State.storePlain
  cases event
  · exact storeAtCore_spec lt o a ha hint l
  · have k := cleanSectors_spec a ha (l.map fun e => sectorOf e.1).eraseDups lt o
    exact k.then_puts (storeAtCore_spec (by rw [k.length]; exact lt) k.ordered a ha 2 l)

end Sys2Proof.Rules
end

