-- ==== Sys2Proof/Laws/Wave.lean ====
section
/-! SUPPORT. The registers of a wave: what reading and writing them gives, and how an instruction on them alone completes. -/

namespace Sys2Proof.Machine

open Sys2Proof.Safety

/-! ### The notes of an issue -/

/-- A wave with the notes that an issue leaves: the cc, and that it is past its preemption point. -/
def Wave.noted (w : Wave) (cc : Nat) : Wave := { w with lastIssue := cc, preempted := false }

@[simp] theorem Wave.readS_noted (w : Wave) (c n : Nat) : (w.noted c).readS n = w.readS n := rfl
@[simp] theorem Wave.readP_noted (w : Wave) (c n : Nat) : (w.noted c).readP n = w.readP n := rfl
@[simp] theorem Wave.readV_noted (w : Wave) (c n : Nat) : (w.noted c).readV n = w.readV n := rfl
@[simp] theorem Wave.sReg_noted (w : Wave) (c n : Nat) : (w.noted c).sReg n = w.sReg n := rfl
@[simp] theorem Wave.ssrc_noted (w : Wave) (c : Nat) (b : SSrc) : (w.noted c).ssrc b = w.ssrc b := by cases b <;> rfl
@[simp] theorem Wave.bsrc_noted (w : Wave) (c : Nat) (t : ET) (b : BSrc) : (w.noted c).bsrc t b = w.bsrc t b := by cases b <;> rfl
@[simp] theorem Wave.governing_noted (w : Wave) (c : Nat) (p : Bool) (i : BitVec 3) :
    (w.noted c).governing p i = w.governing p i := rfl
@[simp] theorem Wave.noted_pc (w : Wave) (c : Nat) : (w.noted c).pc = w.pc := rfl
@[simp] theorem Wave.noted_exec (w : Wave) (c : Nat) : (w.noted c).exec = w.exec := rfl
@[simp] theorem Wave.noted_priv (w : Wave) (c : Nat) : (w.noted c).priv = w.priv := rfl
@[simp] theorem Wave.noted_group (w : Wave) (c : Nat) : (w.noted c).group = w.group := rfl
@[simp] theorem Wave.noted_rngkey (w : Wave) (c : Nat) : (w.noted c).rngkey = w.rngkey := rfl
@[simp] theorem Wave.noted_waveid (w : Wave) (c : Nat) : (w.noted c).waveid = w.waveid := rfl

theorem Wave.writeS_noted (w : Wave) (c n : Nat) (x : Word) : (w.noted c).writeS n x = (w.writeS n x).noted c := by
  by_cases h : n = 0
  · simp only [Wave.writeS, h, if_true]
  · by_cases g : 56 ≤ n ∧ w.priv = .s
    · simp only [Wave.writeS, h, Wave.noted_priv, g, and_self, if_true, if_false]; rfl
    · simp only [Wave.writeS, h, Wave.noted_priv, g, if_false]; rfl
theorem Wave.writeP_noted (w : Wave) (c n : Nat) (x : Mask) : (w.noted c).writeP n x = (w.writeP n x).noted c := by
  by_cases h : n = 0
  · simp only [Wave.writeP, h, if_true]
  · simp only [Wave.writeP, h, if_false]; rfl
theorem Wave.writeV_noted (w : Wave) (c n : Nat) (x : VReg) : (w.noted c).writeV n x = (w.writeV n x).noted c := rfl
theorem Wave.writeLanes_noted (w : Wave) (c : Nat) (m : Mask) (n : Nat) (x : VReg) :
    (w.noted c).writeLanes m n x = (w.writeLanes m n x).noted c := rfl
theorem Wave.long_noted (w : Wave) (c : Nat) (r : Reg) (v : RegVal) (need tag : Nat) :
    (w.noted c).long r v need tag = (w.long r v need tag).noted c := rfl

/-! ### What a register write leaves -/

/-- The fields of a wave that an instruction on its registers never changes. -/
structure SameSeat (w x : Wave) : Prop where
  priv : x.priv = w.priv
  group : x.group = w.group
  pc : x.pc = w.pc

theorem SameSeat.rfl' (w : Wave) : SameSeat w w := ⟨rfl, rfl, rfl⟩
theorem SameSeat.writeS (w : Wave) (n : Nat) (x : Word) : SameSeat w (w.writeS n x) := by
  unfold Wave.writeS
  split
  · exact ⟨rfl, rfl, rfl⟩
  · split <;> exact ⟨rfl, rfl, rfl⟩
theorem SameSeat.writeP (w : Wave) (n : Nat) (x : Mask) : SameSeat w (w.writeP n x) := by
  unfold Wave.writeP; split <;> exact ⟨rfl, rfl, rfl⟩
theorem SameSeat.writeV (w : Wave) (n : Nat) (x : VReg) : SameSeat w (w.writeV n x) := ⟨rfl, rfl, rfl⟩
theorem SameSeat.writeLanes (w : Wave) (m : Mask) (n : Nat) (x : VReg) : SameSeat w (w.writeLanes m n x) := ⟨rfl, rfl, rfl⟩
theorem SameSeat.long (w : Wave) (r : Reg) (v : RegVal) (need tag : Nat) : SameSeat w (w.long r v need tag) := ⟨rfl, rfl, rfl⟩
theorem SameSeat.trans {w x y : Wave} (h : SameSeat w x) (g : SameSeat x y) : SameSeat w y :=
  ⟨g.priv.trans h.priv, g.group.trans h.group, g.pc.trans h.pc⟩

/-! ### Completion -/

/-- A retirement reads the notes of an issue nowhere. -/
theorem Retires.of_noted {s t : State} {k : Nat} {i : Instr} {next : VAddr} {w : Wave} {extra : List Byte} (c : Nat)
    (h : Retires s t k i next (w.noted c) extra) : Retires s t k i next w extra :=
  ⟨h.outside, h.regs, h.pc, h.state, h.unmarked, h.sig⟩

/-- An instruction whose own effect is a new wave and its retirement, with a next PC and bytes for the block signature. -/
theorem retires_of_issue {s : State} {k : Nat} {i : Instr} {body : Nat → State → State} {w : Wave} {next : VAddr} {extra : List Byte}
    (h : Issues s k i) (run : exec i s = issue i s body)
    (eff : body k (issued s k) = ((issued s k).setWave k (w.noted s.cc)).retireAt k i (s.wave k).priv next extra)
    (group : w.group = (s.wave k).group) (priv : w.priv = (s.wave k).priv) :
    ∃ t, exec i s = .next t ∧ Retires s t k i next w extra := by
  refine ⟨_, run.trans (issue_runs _ h), ?_⟩
  rw [eff]
  refine Retires.of_noted s.cc (retires_retireAt (s := s) (w := w.noted s.cc) i next extra (by simpa [issued] using h.lt)
    (same_trans (same_issued s k) (same_setWave _ k _)) (State.wave_setWave_self _ (by simpa [issued] using h.lt)) group priv)

/-- An instruction whose own effect is a change of the wave's registers completes with them, and changes nothing else. -/
theorem completes_of_issue {s : State} {k : Nat} {i : Instr} {body : Nat → State → State} {f : Wave → Wave} {w : Wave}
    (h : Issues s k i) (run : exec i s = issue i s body) (eff : body k (issued s k) = (issued s k).doneWith k i f)
    (res : f ((s.wave k).noted s.cc) = w.noted s.cc) (seat : SameSeat (s.wave k) w) : Completes i s k w := by
  refine retires_of_issue h run ?_ seat.group seat.priv
  have lt : k < (issued s k).waves.length := by simpa [issued] using h.lt
  rw [eff, State.doneWith, State.done, wave_issued h, State.wave_setWave_self _ lt]
  simp only [← Wave.noted.eq_1, res, Wave.noted_priv, Wave.noted_pc, seat.priv, seat.pc]

/-- An instruction whose effect is on the wave's own registers completes with them, and changes nothing else. -/
theorem completes_of_regOp {s : State} {k : Nat} {i : Instr} {f : Wave → Wave} {w : Wave} (h : Issues s k i)
    (run : exec i s = regOp i s f) (res : f ((s.wave k).noted s.cc) = w.noted s.cc) (seat : SameSeat (s.wave k) w) :
    Completes i s k w := completes_of_issue (body := fun k s => s.doneWith k i f) h run rfl res seat

end Sys2Proof.Machine
end

