-- ==== Sys2Proof/Laws/Access.lean ====
section
/-! SUPPORT. Accesses of a wave whose memory is plain: what comes before the bytes, loads and stores. -/

namespace Sys2Proof.Rules

open Sys2Proof.Machine Sys2Proof.Safety

/-- A change of neither memory nor L1s keeps what a core has put anywhere. -/
theorem keep_l1 {s t : State} {core : Nat} (side : MemorySide s t) (m : t.mem = s.mem) (l : ∀ c, (t.core c).l1 = (s.core c).l1) (o : Ordered s core)
    (len : t.cores.length = s.cores.length) : Keeps s t core := by
  have own (pa : Nat) : ownByte t core pa = ownByte s core pa := by rw [ownByte_eq, ownByte_eq, l]
  have near (pa : Nat) := nearByte_congr side (by rw [m]) (by rw [m]) pa
  refine ⟨side, fun pa => by unfold byteAt; rw [own, near], fun c _ => l c, fun pa n => .inr ⟨by rw [← own]; exact n, servedByte_congr side (by rw [m]) (by rw [m]) pa⟩,
    fun pa => .inl (by rw [m]), fun pa => .inl (near pa), ⟨o.clean.of_mem m, by rw [m]; exact o.home, rdcWf_congr side (by rw [m]) o.rdc, ?_⟩, len⟩
  have := o.l1; unfold L1Wf at this ⊢; rw [l]; exact this

theorem side_length {s t : State} (h : MemorySide s t) : t.cores.length = s.cores.length := by
  have := congrArg List.length h.cores; simpa using this

theorem same_modCore (s : State) (n c : Nat) (f : Core → Core) (hf : ∀ x, (f x).l1 = x.l1) : ((s.modCore n f).core c).l1 = (s.core c).l1 := by
  have e1 := getD_map' Core.l1 (modAt f s.cores n) default c
  have e2 := getD_map' Core.l1 s.cores default c
  rw [map_modAt Core.l1 f s.cores n hf] at e1
  exact e1.symm.trans e2

/-- A state that differs in neither memory nor any L1. -/
structure SameBytes (s t : State) : Prop where
  mem : t.mem = s.mem
  l1 : ∀ c, (t.core c).l1 = (s.core c).l1

theorem SameBytes.refl (s : State) : SameBytes s s := ⟨rfl, fun _ => rfl⟩
theorem SameBytes.trans {s t u : State} (h : SameBytes s t) (g : SameBytes t u) : SameBytes s u :=
  ⟨g.mem.trans h.mem, fun c => (g.l1 c).trans (h.l1 c)⟩
theorem SameBytes.foldl {α : Type} {f : State → α → State} (h : ∀ s x, SameBytes s (f s x)) (l : List α) (s : State) : SameBytes s (l.foldl f s) := by
  induction l generalizing s with
  | nil => exact .refl s
  | cons x t ih => exact (h s x).trans (ih _)

theorem same_countDenials (s : State) (c n : Nat) : SameBytes s (s.countDenials c n) := by
  unfold State.countDenials; split <;> exact ⟨rfl, fun _ => rfl⟩

theorem same_noteFrame (s : State) (c : Nat) (e : TlbEntry) : SameBytes s (s.noteFrame c e) := by
  unfold State.noteFrame; dsimp only; split <;> exact ⟨rfl, fun _ => rfl⟩

theorem same_fillTlb (s : State) (c core : Nat) (e : TlbEntry) : SameBytes s (s.fillTlb c core e) :=
  SameBytes.trans (t := s.modCore core fun x => { x with tlb := e :: x.tlb.filter fun y => !(y.asid == e.asid && y.vpage == e.vpage) })
    ⟨rfl, fun c => same_modCore s core c _ fun _ => rfl⟩ (same_noteFrame _ _ _)

/-- Keeping translations leaves memory and L1s alone. -/
theorem same_keepPages (s : State) (w : Wave) (pages : List TlbEntry) : SameBytes s (s.keepPages w pages) :=
  (SameBytes.foldl (fun s e => same_fillTlb s _ _ e) pages s).trans (same_countDenials _ _ _)

theorem same_noteHusk (s : State) (bk : Bool) (x : Window) (reqs : List LaneReq) : SameBytes s (s.noteHusk bk x reqs) := by
  unfold State.noteHusk
  split
  · exact .refl s
  · refine SameBytes.foldl (fun s f => ?_) _ s
    split <;> exact ⟨rfl, fun _ => rfl⟩

theorem same_noteDenied (s : State) (c : Nat) (bk : Bool) (x : Window) (reqs : List LaneReq) : SameBytes s (s.noteDenied c bk x reqs) := by
  unfold State.noteDenied
  split
  · exact .refl s
  · exact same_countDenials _ _ _

theorem same_post (s : State) (a : Asker) (sec : Nat) (write : Bool) : SameBytes s (s.post a sec write) :=
  ⟨(post_mem s a sec write).1, fun c => by rw [core_of_cores (post_mem s a sec write).2]⟩

/-- The requests of walks leave memory and L1s alone. -/
theorem same_postWalks (s : State) (w : Wave) (cls : Nat) (reqs : List LaneReq) : SameBytes s (s.postWalks w cls reqs) :=
  SameBytes.foldl (fun s _ => SameBytes.foldl (fun s _ => same_post s _ _ _) _ s) _ s

theorem reach_eq {s : State} {k cls : Nat} {store bk : Bool} {a : BitVec 8} {n : Nat} {offs : List (Nat × Word)}
    (h : bk = true ∨ (s.window (s.wave k) a.toNat).wantsRefill (offs.map fun e => e.2.toNat) = false) :
    s.reach k cls store bk a n offs = (s, requests s (s.wave k) store bk a n offs) := by
  unfold State.reach requests
  cases bk
  · have : (s.window (s.wave k) a.toNat).wantsRefill (offs.map fun e => e.2.toNat) = false := by simpa using h
    simp only [Bool.false_eq_true, if_false, this]
  · simp

theorem refillFatal_eq {s : State} {k : Nat} {bk : Bool} {a : BitVec 8} {offs : List (Nat × Word)}
    (h : bk = true ∨ (s.window (s.wave k) a.toNat).wantsRefill (offs.map fun e => e.2.toNat) = false) : s.refillFatal k bk a offs = false := by
  unfold State.refillFatal
  rcases h with h | h <;> simp [h]

theorem issued_side (s : State) (k : Nat) : (issued s k).mem = s.mem ∧ (issued s k).cores = s.cores := ⟨rfl, rfl⟩

theorem ordered_of {s : State} {k : Nat} (c : Calm s k) : Ordered (issued s k) (s.coreOf (s.wave k)) :=
  ⟨⟨c.clean.sym, c.clean.poison, c.clean.l1, c.clean.l2⟩, c.home, c.caches.2, c.caches.1⟩

/-! ### Translation does not look at the waves -/

theorem readEntry_waves (s : State) (ws : List Wave) (pa : Nat) : ({ s with waves := ws } : State).readEntry pa = s.readEntry pa := rfl
theorem walkFrom_waves (s : State) (ws : List Wave) (stage : Nat) (reach : Nat → Except WalkErr Nat) (a fuel level table : Nat) :
    walkFrom { s with waves := ws } stage reach a fuel level table = walkFrom s stage reach a fuel level table := by
  induction fuel generalizing level table with
  | zero => rfl
  | succ n ih => simp only [walkFrom, readEntry_waves, ih]
theorem walk2_waves (s : State) (ws : List Wave) (root ipa : Nat) : ({ s with waves := ws } : State).walk2 root ipa = s.walk2 root ipa := by
  unfold State.walk2; rw [walkFrom_waves]; rfl
theorem walk_waves (s : State) (ws : List Wave) (c va : Nat) : ({ s with waves := ws } : State).walk c va = s.walk c va := by
  have x : ({ s with waves := ws } : State).xlate2 = s.xlate2 := by
    funext r i; unfold State.xlate2; rw [walk2_waves]
  have h (asid : BitVec 16) (va pa : Nat) : ({ s with waves := ws } : State).homePa asid va pa = s.homePa asid va pa := rfl
  unfold State.walk
  rw [x]
  simp only [walkFrom_waves, walk2_waves, h]
  rfl
theorem lookupPage_waves (s : State) (ws : List Wave) (c core va : Nat) : ({ s with waves := ws } : State).lookupPage c core va = s.lookupPage c core va := by
  unfold State.lookupPage; rw [walk_waves]; rfl
theorem permit_waves (s : State) (ws : List Wave) (c : Nat) (kind : AccessKind) (u : Bool) (e : TlbEntry) (va : Nat) :
    ({ s with waves := ws } : State).permit c kind u e va = s.permit c kind u e va := rfl
theorem page_waves (s : State) (ws : List Wave) (c core : Nat) (kind : AccessKind) (u : Bool) (va : Nat) :
    ({ s with waves := ws } : State).page c core kind u va = s.page c core kind u va := by
  unfold State.page; rw [lookupPage_waves]
  simp only [permit_waves]
theorem laneCause_waves (s : State) (ws : List Wave) (kind : AccessKind) (align : Nat) (l : List (Nat × Except WalkErr TlbEntry)) (r : LaneReq) :
    laneCause { s with waves := ws } kind align l r = laneCause s kind align l r := rfl
theorem resolve_issued (s : State) (k : Nat) (w : Wave) (c : Nat) (kind : AccessKind) (align : Nat) (r : List LaneReq) :
    (issued s k).resolve (w.noted c) kind align r = s.resolve w kind align r := by
  unfold issued State.modWave State.resolve
  simp only [page_waves, laneCause_waves]
  rfl
/-! ### Accesses -/

/-- An access that meets no fault goes on with its lanes, from a state that differs by translations, counters and requests alone. -/
theorem access_go {s : State} {k : Nat} {i : Instr} {cls : Nat} {kind : AccessKind} {bk : Bool} {a : BitVec 8} {n align : Nat} {offs : List (Nat × Word)}
    {lanes : List (Nat × List Nat)} {exec : Option Mask} (go : State → List (Nat × List Nat) → State) (h : Issues s k i) (c : Calm s k)
    (r : Reaches s k kind bk a n align offs lanes) :
    ∃ u, (issued s k).access k cls kind bk a n align offs exec go = go u lanes ∧ Keeps (issued s k) u (s.coreOf (s.wave k))
      ∧ SameBytes s u := by
  have w1 : (issued s k).wave k = (s.wave k).noted s.cc := wave_issued h
  have standing : bk = true ∨ ((issued s k).window ((issued s k).wave k) a.toNat).wantsRefill (offs.map fun e => e.2.toNat) = false := by
    rw [w1]; exact r.standing
  have rq : (issued s k).reach k cls (kind == .store) bk a n offs = (issued s k, requests s (s.wave k) (kind == .store) bk a n offs) := by
    rw [reach_eq standing, w1]; rfl
  have tn : trapOf [] exec = none := by simp [trapOf, leastBy]
  have o := ordered_of c
  have s0 : SameBytes s (issued s k) := ⟨rfl, fun _ => rfl⟩
  unfold State.access
  dsimp only
  rw [refillFatal_eq standing, rq]
  dsimp only
  rw [w1, resolve_issued, r.fatal, r.faults, r.lanes, Bool.or_self, if_neg (by simp), tn]
  refine ⟨_, rfl, ?_⟩
  generalize requests s (s.wave k) (kind == .store) bk a n offs = reqs
  generalize (s.resolve (s.wave k) kind align reqs).pages = pages
  generalize (s.wave k).noted s.cc = w
  generalize issued s k = v at o s0
  have side : MemorySide v (v.postWalks w cls reqs) := side_postWalks v w cls reqs
  have same := same_postWalks v w cls reqs
  generalize v.postWalks w cls reqs = t at side same
  have side2 := (side_keepPages t w pages)
  have same2 := (same_keepPages t w pages)
  generalize t.keepPages w pages = x at side2 same2
  have side3 := side_noteHusk x bk (t.window w a.toNat) reqs
  have same3 := same_noteHusk x bk (t.window w a.toNat) reqs
  generalize x.noteHusk bk (t.window w a.toNat) reqs = y at side3 same3
  have side4 := side_noteDenied y w.ctx bk (t.window w a.toNat) reqs
  have same4 := same_noteDenied y w.ctx bk (t.window w a.toNat) reqs
  have sd := ((side.trans side2).trans side3).trans side4
  have sm := ((same.trans same2).trans same3).trans same4
  exact ⟨keep_l1 sd sm.mem sm.l1 o (side_length sd), s0.trans sm⟩

theorem drainSectors_none {s : State} (h : s.atomics = []) (k : Nat) (secs : List Nat) : s.drainSectors k secs = s := by
  unfold State.drainSectors; rw [h]; rfl

/-- What an invalidation of clean copies leaves of a sector (R249). -/
def dropped (p : L1Sector → Bool) (x : L1Sector) : Option L1Sector :=
  if p x then (if x.dirty = 0 then none else some { x with filled := false, clean := 0 }) else some x

theorem dropClean_eq (c : Core) (p : L1Sector → Bool) : c.dropClean p = { c with l1 := c.l1.filterMap (dropped p) } := rfl

theorem held_dropped (p : L1Sector → Bool) (l : List L1Sector) (nd : (l.map L1Sector.sec).Nodup) (pa : Nat) : heldByte (l.filterMap (dropped p)) pa = heldByte l pa := by
  induction l with
  | nil => rfl
  | cons x t ih =>
    simp only [List.map_cons, List.nodup_cons, List.mem_map, not_exists, not_and] at nd
    have ih := ih nd.2
    rw [List.filterMap_cons, heldByte_cons x]
    have hx : dropped p x = none ∧ x.dirty = 0 ∨ ∃ y, dropped p x = some y ∧ y.sec = x.sec ∧ y.dirty = x.dirty ∧ y.data = x.data := by
      unfold dropped
      split
      · split
        · next h => exact .inl ⟨rfl, h⟩
        · exact .inr ⟨_, rfl, rfl, rfl, rfl⟩
      · exact .inr ⟨_, rfl, rfl, rfl, rfl⟩
    rcases hx with ⟨hn, hd⟩ | ⟨y, hy, e1, e2, e3⟩
    · rw [hn]
      by_cases g : x.sec = sectorOf pa
      · rw [if_pos g, heldByte_one g, hd]
        dsimp only
        rw [ih, heldByte_none fun z hz e => nd.1 z hz (e.trans g.symm)]; simp
      · rw [if_neg g]; exact ih
    · rw [hy]
      dsimp only
      rw [heldByte_cons, e1, ih]
      by_cases g : x.sec = sectorOf pa
      · rw [if_pos g, if_pos g, heldByte_one g, heldByte_one (e1.trans g), e2, e3]
      · rw [if_neg g, if_neg g]

theorem wf_dropped {c : Core} (p : L1Sector → Bool) (w : L1Wf c) : L1Wf (c.dropClean p) := by
  rw [dropClean_eq]
  have hx : ∀ x y, dropped p x = some y → y.sec = x.sec ∧ y.data = x.data := by
    intro x y h
    unfold dropped at h
    split at h
    · split at h
      · cases h
      · cases h; exact ⟨rfl, rfl⟩
    · cases h; exact ⟨rfl, rfl⟩
  refine ⟨?_, fun y hy => ?_⟩
  · dsimp only
    have sub : ∀ l : List L1Sector, ((l.filterMap (dropped p)).map L1Sector.sec).Sublist (l.map L1Sector.sec) := by
      intro l
      induction l with
      | nil => exact .refl _
      | cons y t ih =>
        rw [List.filterMap_cons]
        cases h : dropped p y with
        | none => exact ih.cons _
        | some z =>
          simp only [List.map_cons]
          rw [(hx y z h).1]; exact ih.cons_cons _
    exact (sub _).nodup w.1
  · obtain ⟨z, hz, he⟩ := List.mem_filterMap.1 hy
    rw [(hx z y he).2]; exact w.2 z hz

theorem keeps_dropClean {s : State} {core : Nat} (p : L1Sector → Bool) (lt : core < s.cores.length) (o : Ordered s core) :
    Keeps s (s.modCore core fun c => c.dropClean p) core :=
  keeps_modCore _ (fun _ => rfl) lt o (wf_dropped p o.l1) fun pa => held_dropped p _ o.l1.1 pa

theorem own_dropClean {s : State} {core : Nat} (p : L1Sector → Bool) (lt : core < s.cores.length) (o : Ordered s core) (pa : Nat) :
    ownByte (s.modCore core fun c => c.dropClean p) core pa = ownByte s core pa := by
  rw [ownByte_eq, ownByte_eq, core_modCore _ lt]; exact held_dropped p _ o.l1.1 pa

/-- With clean copies invalidated, a load finds what it might have found before. -/
theorem found_drop {s : State} {core hint pa : Nat} {b : Byte} (p : L1Sector → Bool) (lt : core < s.cores.length) (o : Ordered s core)
    (f : Found (s.modCore core fun c => c.dropClean p) core hint pa b) : Found s core hint pa b := by
  have k := keeps_dropClean p lt o
  have sv : servedByte (s.modCore core fun c => c.dropClean p) pa = servedByte s pa := servedByte_congr k.side rfl rfl pa
  unfold Found at f ⊢
  rw [own_dropClean p lt o, k.bytes, sv] at f
  rcases f with e | ⟨n, e | ⟨h2, e⟩⟩
  · exact .inl e
  · exact .inr ⟨n, .inl e⟩
  · refine .inr ⟨n, ?_⟩
    unfold cachedByte at e ⊢
    rw [sv] at e
    cases hx : ((s.modCore core fun c => c.dropClean p).core core).sector (sectorOf pa) with
    | none => rw [hx] at e; exact .inl e
    | some x =>
      rw [hx] at e
      dsimp only at e
      by_cases v : x.valid.getLsbD (pa % 64) = true
      · rw [if_pos v] at e
        right
        refine ⟨h2, ?_⟩
        obtain ⟨hm, hs⟩ := (sector_some k.ordered.l1).1 hx
        rw [core_modCore _ lt, dropClean_eq] at hm
        obtain ⟨y, hy, he⟩ := List.mem_filterMap.1 hm
        have key : y.sec = x.sec ∧ y.data = x.data ∧ (x.valid.getLsbD (pa % 64) = true → y.valid.getLsbD (pa % 64) = true) := by
          unfold dropped at he
          split at he
          · split at he
            · cases he
            · cases he
              refine ⟨rfl, rfl, fun v => ?_⟩
              have d : y.dirty.getLsbD (pa % 64) = true := by simpa [L1Sector.valid] using v
              unfold L1Sector.valid
              split
              · rw [BitVec.getLsbD_allOnes]; simp; omega
              · simp [d]
          · cases he; exact ⟨rfl, rfl, id⟩
        have : (s.core core).sector (sectorOf pa) = some y := (sector_some o.l1).2 ⟨hy, key.1.trans hs⟩
        rw [this]
        dsimp only
        rw [if_pos (key.2.2 v), key.2.1, e]
      · rw [if_neg v] at e; exact .inl e

theorem found_keeps_l1 {s t : State} {core hint pa : Nat} {b : Byte} (k : Keeps s t core) (l : (t.core core).l1 = (s.core core).l1)
    (n : servedByte t pa = servedByte s pa) (f : Found t core hint pa b) : Found s core hint pa b := by
  have e : cachedByte t core pa = cachedByte s core pa := by
    unfold cachedByte Core.sector; rw [l, n]
  have own : ownByte t core pa = ownByte s core pa := by rw [ownByte_eq, ownByte_eq, l]
  unfold Found at f ⊢
  rw [e, k.bytes, own, n] at f; exact f

theorem side_launches {s t : State} (h : MemorySide s t) : t.launches.map Launch.veils = s.launches.map Launch.veils := by
  have := congrArg (fun l : List Launch => l.map Launch.veils) h.launches
  simpa [List.map_map, Function.comp_def, quietLaunch] using this

theorem calm_side {s t : State} {k : Nat} (h : MemorySide (issued s k) t) (c : Calm s k) (lt : k < s.waves.length) :
    t.wave k = (s.wave k).noted s.cc ∧ t.atomics = [] ∧ t.detOf (t.wave k) = false ∧ t.overlay k = [] ∧ (∀ l ∈ t.launches, l.veils = [])
      ∧ t.coreOf (t.wave k) = s.coreOf (s.wave k) ∧ t.checked (t.wave k) = false := by
  have w1 : (issued s k).wave k = (s.wave k).noted s.cc := State.wave_modWave_self _ lt
  have w : t.wave k = (s.wave k).noted s.cc := (h.wave k).trans w1
  refine ⟨w, ?_, ?_, ?_, ?_, ?_, ?_⟩
  · have := congrArg State.atomics h.rest
    exact (show t.atomics = s.atomics from this).trans c.atomics
  · rw [w]; show (t.group (s.wave k).group).det = false; rw [h.group]; exact c.det
  · rw [overlay_side h]
    have : (issued s k).overlay k = s.overlay k := by unfold State.overlay; rw [w1]; rfl
    rw [this]; exact c.overlay
  · intro l hl
    have hm : l.veils ∈ s.launches.map Launch.veils := by
      rw [show s.launches = (issued s k).launches from rfl, ← side_launches h]; exact List.mem_map_of_mem hl
    obtain ⟨x, hx, he⟩ := List.mem_map.1 hm
    rw [← he, c.veils x hx]
  · rw [w, coreOf_side h]; rfl
  · rw [w]; show decide ((t.group (s.wave k).group).ilevel = 3) = false
    rw [h.group]; exact decide_eq_false c.level

theorem found_issued {s : State} {k c hint pa : Nat} {b : Byte} (f : Found (issued s k) c hint pa b) : Found s c hint pa b := f

/-- A load by a wave whose memory is plain: it goes on with bytes that its core finds, and keeps what the core has put anywhere. -/
theorem load_go {s u : State} {k : Nat} {i : Instr} (cls hint : Nat) (event : Bool) (lanes : List (Nat × List Nat)) (vas : List (Nat × Nat))
    (exec : Option Mask) (go : State → List (Nat × Byte) → State) (h : Issues s k i) (c : Calm s k)
    (ku : Keeps (issued s k) u (s.coreOf (s.wave k))) (same : SameBytes s u) :
    ∃ t bytes, u.load k cls hint event lanes vas exec go = go t bytes ∧ Keeps (issued s k) t (s.coreOf (s.wave k))
      ∧ ∀ p ∈ lanes.flatMap Prod.snd, Found s (s.coreOf (s.wave k)) hint p (lookupD 0 bytes p) := by
  obtain ⟨w, at0, det, ov, ve, co, -⟩ := calm_side ku.side c h.lt
  have d0 : u.detOrder (u.wave k) (lanes.flatMap Prod.snd) = false := by unfold State.detOrder; rw [det]; rfl
  have tx : (u.wave k).txn = none := by rw [w]; exact c.txn
  have lt : s.coreOf (s.wave k) < u.cores.length := by rw [ku.length]; exact c.core
  have near : ∀ pa, servedByte u pa = servedByte (issued s k) pa := fun pa => servedByte_congr ku.side (by rw [same.mem]; rfl) (by rw [same.mem]; rfl) pa
  have fin : ∀ (v : State) (kv : Keeps u v (s.coreOf (s.wave k))) (fv : ∀ pa b, Found v (s.coreOf (s.wave k)) hint pa b → Found u (s.coreOf (s.wave k)) hint pa b),
      ∃ bytes t, v.loadBytes k { core := s.coreOf (s.wave k), ctx := (u.wave k).ctx, umode := (u.wave k).priv == .u, cls := cls } hint (lanes.flatMap Prod.snd) = (bytes, [], t) ∧ Keeps (issued s k) t (s.coreOf (s.wave k))
        ∧ ∀ p ∈ lanes.flatMap Prod.snd, Found s (s.coreOf (s.wave k)) hint p (lookupD 0 bytes p) := by
    intro v kv fv
    obtain ⟨w', at0', det', ov', ve', co', -⟩ := calm_side (ku.trans kv).side c h.lt
    obtain ⟨bytes, t, e, kt, f⟩ := loadBytes_spec (s := v) (k := k) (core := s.coreOf (s.wave k)) (by rw [kv.length]; exact lt) kv.ordered
      { core := s.coreOf (s.wave k), ctx := (u.wave k).ctx, umode := (u.wave k).priv == .u, cls := cls } rfl hint (lanes.flatMap Prod.snd) det' ov' ve'
    exact ⟨bytes, t, e, (ku.trans kv).trans kt, fun p hp => found_issued (found_keeps_l1 ku (same.l1 _) (near p) (fv p _ (f p hp)))⟩
  unfold State.load
  dsimp only
  rw [d0, if_neg (by simp), co, tx]
  dsimp only
  unfold State.beforeLoad
  dsimp only
  rw [drainSectors_none at0, co]
  unfold State.loadPlain
  cases event
  · obtain ⟨bytes, t, e, kt, f⟩ := fin u (Keeps.refl ku.ordered) fun _ _ f => f
    refine ⟨t, bytes, ?_, kt, f⟩
    rw [if_neg (show ¬ (false = true) by simp), e]; rfl
  · obtain ⟨bytes, t, e, kt, f⟩ := fin _ (keeps_dropClean (fun x => ((lanes.flatMap Prod.snd).map sectorOf).eraseDups.contains x.sec) lt ku.ordered) fun _ _ f => found_drop _ lt ku.ordered f
    refine ⟨t, bytes, ?_, kt, f⟩
    rw [if_pos rfl, e]; rfl

theorem find_lane {lanes : List (Nat × List Nat)} (nd : (lanes.map Prod.fst).Nodup) {e : Nat × List Nat} (h : e ∈ lanes) :
    lanes.find? (fun x => x.1 == e.1) = some e := by
  induction lanes with
  | nil => cases h
  | cons y t ih =>
    simp only [List.map_cons, List.nodup_cons, List.mem_map, not_exists, not_and] at nd
    rcases List.mem_cons.1 h with rfl | h
    · simp
    · have : ¬ y.1 = e.1 := fun x => nd.1 e h x.symm
      rw [List.find?_cons_of_neg (by simpa using this)]; exact ih nd.2 h

/-- The lanes of a resolved access are among the lanes asked for, in their order. -/
theorem resolve_lanes (s : State) (w : Wave) (kind : AccessKind) (align : Nat) (reqs : List LaneReq) :
    ((s.resolve w kind align reqs).lanes.map Prod.fst).Sublist (reqs.map LaneReq.lane) := by
  unfold State.resolve
  dsimp only
  generalize (List.map (fun p => (p, s.page w.ctx (s.coreOf w) kind (decide (w.priv = .u)) (p * 256))) _) = pages
  induction reqs with
  | nil => exact .refl _
  | cons r t ih =>
    rw [List.map_cons, List.filterMap_cons]
    cases laneCause s kind align pages r with
    | error c => exact ih.cons _
    | ok l => exact ih.cons_cons _

theorem requests_lanes (s : State) (w : Wave) (store bk : Bool) (a : BitVec 8) (n : Nat) (offs : List (Nat × Word)) :
    (requests s w store bk a n offs).map LaneReq.lane = offs.map Prod.fst := by
  unfold requests; split <;> simp [plainLane, Window.lane, Function.comp_def]

theorem lanesOf_ok (m : Mask) : (lanesOf m).Nodup ∧ ∀ l ∈ lanesOf m, l < 32 := by
  unfold lanesOf
  refine ⟨List.Nodup.filter _ List.nodup_range, fun l h => ?_⟩
  have := (List.mem_filter.1 h).1
  simpa [lanes] using this

theorem lanes_ok {s : State} {k : Nat} {kind : AccessKind} {o : MemF} {n align : Nat} {contiguous : Bool} {lanes : List (Nat × List Nat)}
    (r : Reaches s k kind o.bk o.a n align (vectorOffsets o (s.wave k) contiguous) lanes) :
    (lanes.map Prod.fst).Nodup ∧ ∀ e ∈ lanes, e.1 < 32 := by
  have sub := resolve_lanes s (s.wave k) kind align (requests s (s.wave k) (kind == .store) o.bk o.a n (vectorOffsets o (s.wave k) contiguous))
  rw [r.lanes, requests_lanes] at sub
  have e : (vectorOffsets o (s.wave k) contiguous).map Prod.fst = lanesOf ((s.wave k).governing o.pn o.pi) := by
    unfold vectorOffsets offsetsOf; simp [Function.comp_def]
  rw [e] at sub
  obtain ⟨a, b⟩ := lanesOf_ok ((s.wave k).governing o.pn o.pi)
  exact ⟨sub.nodup a, fun x hx => b _ (sub.subset (List.mem_map_of_mem hx))⟩

theorem side_waves_len {s t : State} {k : Nat} (h : MemorySide (issued s k) t) : t.waves.length = s.waves.length := by
  rw [h.waves]; simp [issued]

/-- A store by a wave whose memory is plain goes on with its bytes put. -/
theorem store_go {s u : State} {k : Nat} {i : Instr} (cls : Nat) (hint : BitVec 2) (event per : Bool) (n : Nat) (lanes : List (Nat × List Nat)) (va : Nat)
    (bytes : List (Nat × Byte)) (go : State → State) (h : Issues s k i) (c : Calm s k)
    (ku : Keeps (issued s k) u (s.coreOf (s.wave k))) :
    ∃ t, u.store k cls hint event per n lanes va bytes go = go t ∧ Puts (issued s k) t (s.coreOf (s.wave k)) bytes := by
  obtain ⟨w, at0, det, ov, ve, co, ch⟩ := calm_side ku.side c h.lt
  have tx : (u.wave k).txn = none := by rw [w]; exact c.txn
  have lt : s.coreOf (s.wave k) < u.cores.length := by rw [ku.length]; exact c.core
  have ho : u.holdsOf (u.wave k) = false := by unfold State.holdsOf; rw [det]; rfl
  refine ⟨_, ?_, ku.then_puts (storePlain_spec lt ku.ordered { core := s.coreOf (s.wave k), ctx := (u.wave k).ctx, cls := cls, umode := (u.wave k).priv == .u } rfl hint.toNat event bytes)⟩
  unfold State.store
  dsimp only
  rw [tx]
  dsimp only
  simp only [ho, det, Bool.false_eq_true, if_false]
  rw [ch, if_neg (by simp), drainSectors_none at0, co]


end Sys2Proof.Rules
end

