-- ==== Sys2Proof/Laws/Trap.lean ====
section
/-! SUPPORT. What taking an exception does, said once (R298-R301), and an instruction that ends in one. -/

namespace Sys2Proof.Machine

open Sys2Proof.Safety Sys2Proof.Rules

/-- A wave that may enter its handler enters it, with the cause, mask and address of the trap, and nothing else changes. -/
theorem takeTrap_enters {s : State} {k : Nat} (m : MayEnter s k) (t : Trap) :
    s.takeTrap k t = s.setWave k (entered s.cc (s.wave k) (s.ctx (s.wave k).ctx).tvec t.cause t.mask t.addr t.tile) := by
  unfold State.takeTrap State.enterTrap
  dsimp only
  rw [if_neg (by rw [m.txn]; simp), if_pos (by rw [m.pending]; rfl), if_neg (by rw [m.user]; simp), if_neg m.handler]
  rfl

/-- The notes of an issue leave a wave free to enter its handler. -/
theorem mayEnter_issued {s : State} {k : Nat} (m : MayEnter s k) (lt : k < s.waves.length) : MayEnter (issued s k) k := by
  have w1 : (issued s k).wave k = (s.wave k).noted s.cc := State.wave_modWave_self _ lt
  constructor <;> rw [w1]
  · exact m.user
  · exact m.txn
  · exact m.pending
  · exact m.handler

/-- A condition that an instruction raises at its issue enters the handler with its cause and address under EXEC. -/
theorem trapExec_enters {s : State} {k : Nat} (m : MayEnter s k) (lt : k < s.waves.length) (cause : BitVec 7) (addr : VAddr) :
    (issued s k).trapExec k cause addr = (issued s k).setWave k
      (entered s.cc ((issued s k).wave k) (s.ctx (s.wave k).ctx).tvec cause (s.wave k).exec addr) := by
  have w1 : (issued s k).wave k = (s.wave k).noted s.cc := State.wave_modWave_self _ lt
  rw [State.trapExec, takeTrap_enters (mayEnter_issued m lt), w1]
  rfl

/-- An instruction whose own effect is a condition enters the handler, and has no other effect. -/
theorem traps_of_issue {s : State} {k : Nat} {i : Instr} {body : Nat → State → State} {cause : BitVec 7} {addr : VAddr}
    (h : Issues s k i) (m : MayEnter s k) (run : exec i s = issue i s body)
    (eff : body k (issued s k) = (issued s k).trapExec k cause addr) :
    exec i s = .next ((issued s k).setWave k
      (entered s.cc ((issued s k).wave k) (s.ctx (s.wave k).ctx).tvec cause (s.wave k).exec addr)) := by
  rw [run, issue_runs _ h, eff, trapExec_enters m h.lt]

/-- An instruction whose own effect is a change of the state and its retirement there. -/
theorem runs_of_done {s u : State} {k : Nat} {i : Instr} {body : Nat → State → State} (h : Issues s k i)
    (run : exec i s = issue i s body) (len : u.waves.length = s.waves.length) (eff : body k (issued s k) = u.done k i) : Runs i s k u :=
  runs_of_issue h run (by rw [len]; exact h.lt) eff

end Sys2Proof.Machine
end

