-- ==== Sys2Proof/Laws/Barrier.lean ====
section
/-! SUPPORT. What the end of a wait and the end of a barrier phase do, said once (01 R15, 06 R195-R198). -/

namespace Sys2Proof.Machine

open Sys2Proof.Safety

/-- A context that is changed holds the change. -/
theorem ctx_modCtx_self (s : State) (c : Nat) (f : Context → Context) (h : c < s.ctxs.length) : (s.modCtx c f).ctx c = f (s.ctx c) := getD_modAt_self _ _ _ h
/-- A barrier that is changed holds the change. -/
theorem barrier_mod (c : Context) (e : Nat) (f : Barrier → Barrier) (b : Barrier) (h : c.barrier e = some b) (hf : ∀ b, (f b).entry = b.entry) :
    (c.modBarrier e f).barrier e = some (f b) := by
  unfold Context.barrier Context.modBarrier at *
  simp only
  revert h
  generalize c.barriers = l
  intro h
  induction l with
  | nil => simp at h
  | cons x t ih =>
    simp only [List.map_cons, List.find?_cons] at h ⊢
    by_cases g : x.entry = e
    · have g' : (x.entry == e) = true := by simp [g]
      rw [g'] at h
      simp only [Option.some.injEq] at h
      subst h
      simp [g, hf]
    · have g' : (x.entry == e) = false := by simp [g]
      rw [g'] at h
      simp only [g, if_false, g']
      exact ih h

/-- The waves of which `p` holds, by number. -/
theorem wave_wavesWith {s : State} {p : Wave → Bool} {k : Nat} : k ∈ s.wavesWith p ↔ k < s.waves.length ∧ p (s.wave k) = true := by
  simp [State.wavesWith]

/-- A retirement leaves every barrier alone. -/
theorem retireAt_ctx_barrier (s : State) (k : Nat) (i : Instr) (p : Priv) (n : VAddr) (e : List Byte) (c en : Nat) :
    ((s.retireAt k i p n e).ctx c).barrier en = (s.ctx c).barrier en := by
  have h := (counted_retireAt s k i p n e).ctxs
  have h2 : uncounted ((s.retireAt k i p n e).ctx c) = uncounted (s.ctx c) := by
    have a := congrArg (fun l : List Context => l.getD c (uncounted default)) h
    simp only [getD_map'] at a
    exact a
  have := congrArg (fun x : Context => x.barrier en) h2
  exact this

theorem wave_unblock_ne (s : State) (k j : Nat) (h : j ≠ k) : (s.unblock k).wave j = s.wave j := by
  unfold State.unblock
  dsimp only
  split
  · have h1 := (counted_retireAt (s.setWave k { s.wave k with state := (s.wave k).home, wait := .nothing, stalled := none, eligibleSince := s.cc }) k ‹Instr› (s.wave k).priv ((s.wave k).pc + 8) []).waves
    have h2 := congrArg (fun l : List Wave => l.getD j default) h1
    refine Eq.trans h2 ?_
    show (State.setWave _ _ _).wave j = _
    rw [State.wave_setWave_ne _ h, State.wave_setWave_ne _ h]
  · exact State.wave_setWave_ne _ h

theorem unblock_len (s : State) (k : Nat) : (s.unblock k).waves.length = s.waves.length := by
  unfold State.unblock
  dsimp only
  split
  · rw [(counted_retireAt _ _ _ _ _ _).waves]; simp
  · simp

/-- A wave whose wait ends is no longer BLOCKED, and its instruction has retired. -/
theorem unblock_self (s : State) (k : Nat) (h : k < s.waves.length) : ((s.unblock k).wave k).state ≠ .blocked ∧ ((s.unblock k).wave k).wait = .nothing
   ∧ (∀ i, (s.wave k).stalled = some i → ((s.unblock k).wave k).pc = (s.wave k).pc + 8) := by
  have home : ∀ w : Wave, w.home ≠ .blocked := by intro w; unfold Wave.home; split <;> simp
  unfold State.unblock
  dsimp only
  split
  · rename_i i hi
    have R := retires_retireAt (s := s.setWave k { s.wave k with state := (s.wave k).home, wait := .nothing, stalled := none, eligibleSince := s.cc }) (u := s.setWave k { s.wave k with state := (s.wave k).home, wait := .nothing, stalled := none, eligibleSince := s.cc }) i ((s.wave k).pc + 8) [] (by simpa using h) ⟨rfl, rfl, fun _ _ => rfl⟩ rfl rfl rfl
    rw [State.wave_setWave_self _ h] at R
    refine ⟨?_, ?_, ?_⟩
    · rw [R.state]; split
      · simp
      · exact home _
    · exact congrArg Wave.wait R.regs
    · intro j hj; exact R.pc
  · rename_i hi
    rw [State.wave_setWave_self _ h]
    exact ⟨home _, rfl, fun j hj => by rw [hi] at hj; simp at hj⟩

theorem unblock_ctx_barrier (s : State) (k c en : Nat) : ((s.unblock k).ctx c).barrier en = (s.ctx c).barrier en := by
  unfold State.unblock
  dsimp only
  split
  · rw [retireAt_ctx_barrier]; rfl
  · rfl

/-- The waits of several waves end: each goes on, and no other wave changes. -/
theorem unblocks (l : List Nat) : ∀ (s : State), (l.foldl State.unblock s).waves.length = s.waves.length
    ∧ (∀ c en, ((l.foldl State.unblock s).ctx c).barrier en = (s.ctx c).barrier en)
    ∧ (∀ j, j ∉ l → (l.foldl State.unblock s).wave j = s.wave j)
    ∧ (l.Nodup → ∀ j ∈ l, j < s.waves.length → ((l.foldl State.unblock s).wave j).state ≠ .blocked ∧ ((l.foldl State.unblock s).wave j).wait = .nothing
      ∧ (∀ i, (s.wave j).stalled = some i → ((l.foldl State.unblock s).wave j).pc = (s.wave j).pc + 8)) := by
  induction l with
  | nil => intro s; simp
  | cons x t ih =>
    intro s
    obtain ⟨a, b, c, d⟩ := ih (s.unblock x)
    simp only [List.foldl_cons]
    refine ⟨a.trans (unblock_len _ _), fun _ _ => (b _ _).trans (unblock_ctx_barrier _ _ _ _), ?_, ?_⟩
    · intro j hj; simp at hj; rw [c j hj.2, wave_unblock_ne _ _ _ hj.1]
    · intro nd j hj lt
      rw [List.nodup_cons] at nd
      by_cases e : j = x
      · subst e; rw [c j nd.1]; exact unblock_self s j lt
      · have hj' : j ∈ t := by simpa [e] using hj
        have := d nd.2 j hj' (by rw [unblock_len]; exact lt)
        rw [wave_unblock_ne _ _ _ e] at this
        exact this

/-- A phase whose arrivals are complete: the next one begins, its waiters go on, and no other wave changes (R196). -/
theorem completePhase_done (s : State) (c e : Nat) (b : Barrier) (hc : c < s.ctxs.length) (h : (s.ctx c).barrier e = some b) (ha : b.arrived = b.expected) (hb : b.broken = false) :
   let t := s.completePhase c e
   t.waves.length = s.waves.length
   ∧ (∃ b', (t.ctx c).barrier e = some b' ∧ b'.phase = b.phase + 1 ∧ b'.arrived = 0)
   ∧ (∀ j, j < s.waves.length → (s.wave j).ctx = c → (s.wave j).state = .blocked → (s.wave j).wait = .barrier e b.phase →
       (t.wave j).state ≠ .blocked ∧ (t.wave j).wait = .nothing ∧ (∀ i, (s.wave j).stalled = some i → (t.wave j).pc = (s.wave j).pc + 8))
   ∧ (∀ j, ¬((s.wave j).ctx = c ∧ (s.wave j).state = .blocked ∧ (s.wave j).wait = .barrier e b.phase) → t.wave j = s.wave j) := by
  intro t
  have ht : t = ((s.modCtx c fun x => x.modBarrier e fun b' => b'.advance (s.barrierMembers b).length).wavesWith fun w => w.ctx == c && w.state == .blocked && w.wait == .barrier e b.phase).foldl State.unblock (s.modCtx c fun x => x.modBarrier e fun b' => b'.advance (s.barrierMembers b).length) := by
    show s.completePhase c e = _
    unfold State.completePhase
    simp only [h, ha, hb, ne_eq, not_true_eq_false, decide_false, Bool.or_self, Bool.false_eq_true, if_false]
  generalize hs : (s.modCtx c fun x => x.modBarrier e fun b' => b'.advance (s.barrierMembers b).length) = s1 at ht
  have w1 : s1.waves = s.waves := by rw [← hs]; rfl
  have wv : ∀ j, s1.wave j = s.wave j := fun j => by simp only [State.wave, w1]
  obtain ⟨a, bb, cc, d⟩ := unblocks (s1.wavesWith fun w => w.ctx == c && w.state == .blocked && w.wait == .barrier e b.phase) s1
  rw [← ht] at a bb cc d
  have nd : (s1.wavesWith fun w => w.ctx == c && w.state == .blocked && w.wait == .barrier e b.phase).Nodup := List.Nodup.filter _ List.nodup_range
  refine ⟨a.trans (by rw [w1]), ?_, ?_, ?_⟩
  · refine ⟨b.advance (s.barrierMembers b).length, ?_, rfl, rfl⟩
    rw [bb, ← hs, ctx_modCtx_self _ _ _ hc, barrier_mod (s.ctx c) e (fun b' => b'.advance (s.barrierMembers b).length) b h (fun _ => rfl)]
  · intro j lt hc hst hw
    have := d nd j (by rw [wave_wavesWith]; exact ⟨by rw [w1]; exact lt, by rw [wv]; simp [hc, hst, hw]⟩) (by rw [w1]; exact lt)
    rwa [wv] at this
  · intro j hn
    rw [cc j, wv]
    rw [wave_wavesWith, wv]; rintro ⟨_, g⟩; simp at g; exact hn ⟨g.1.1, g.1.2, g.2⟩

/-- A phase with arrivals missing stays (R196). -/
theorem completePhase_not (s : State) (c e : Nat) (b : Barrier) (h : (s.ctx c).barrier e = some b) (ha : b.arrived ≠ b.expected) : s.completePhase c e = s := by
  unfold State.completePhase; simp [h, ha]

end Sys2Proof.Machine
end

