-- ==== Sys2Proof/Laws/Elements.lean ====
section
/-! SUPPORT. Sub-elements of lanes: what packing, mapping and broadcasting give, and how a lane-wise instruction completes. -/

namespace Sys2Proof.Rules

open Sys2Proof.Machine Sys2Proof.Safety

/-! ### Packing -/
theorem packNat_lt (w : Nat) (l : List Nat) : packNat w l < 2 ^ (w * l.length) := by
  induction l with
  | nil => simp [packNat]
  | cons e t ih =>
    have h1 : e % 2 ^ w < 2 ^ w := Nat.mod_lt _ (by positivity)
    have : (2:Nat) ^ (w * (e :: t).length) = 2 ^ w * 2 ^ (w * t.length) := by
      rw [← pow_add]; congr 1; simp [Nat.mul_add, Nat.add_comm]
    rw [packNat, this]
    calc e % 2^w + 2^w * packNat w t < 2^w + 2^w * packNat w t := by omega
      _ = 2^w * (packNat w t + 1) := by ring
      _ ≤ _ := Nat.mul_le_mul_left _ ih
theorem packNat_elem (w : Nat) (l : List Nat) (j : Nat) : packNat w l >>> (j * w) % 2 ^ w = l.getD j 0 % 2 ^ w := by
  induction l generalizing j with
  | nil => simp [packNat]
  | cons e t ih =>
    cases j with
    | zero => simp [packNat]
    | succ j =>
      rw [Nat.shiftRight_eq_div_pow]
      have h1 : e % 2 ^ w < 2 ^ w := Nat.mod_lt _ (by positivity)
      have : (j + 1) * w = w + j * w := by ring
      rw [this, pow_add, ← Nat.div_div_eq_div_mul, packNat, Nat.add_mul_div_left _ _ (by positivity), Nat.div_eq_of_lt h1, Nat.zero_add,
        ← Nat.shiftRight_eq_div_pow, ih]
      simp
theorem elemOf_packElems (w : Nat) (l : List Nat) (h : w * l.length ≤ 64) (j : Nat) : elemOf w (packElems w l) j = l.getD j 0 % 2 ^ w := by
  unfold elemOf packElems
  rw [BitVec.toNat_ofNat, Nat.mod_eq_of_lt (lt_of_lt_of_le (packNat_lt w l) (Nat.pow_le_pow_right (by norm_num) h)), packNat_elem]
theorem ET.count_width (t : ET) : t.width * t.count = 64 := by cases t <;> rfl
theorem ET.div_width (t : ET) : 64 / t.width = t.count := by cases t <;> rfl
theorem ET.width_pos (t : ET) : 0 < t.width := by cases t <;> decide
theorem ET.width_le (t : ET) : t.width ≤ 64 := by cases t <;> decide
theorem elem_packElems (t : ET) (f : Nat → Nat) (j : Nat) (h : j < t.count) :
    elemOf t.width (packElems t.width ((List.range t.count).map f)) j = f j % 2 ^ t.width := by
  rw [elemOf_packElems _ _ (by simp [ET.count_width])]
  simp [List.getD, h]
theorem elem_mapElems (t : ET) (f : Nat → Nat) (x : Word) (j : Nat) (h : j < t.count) :
    elemOf t.width (mapElems t.width f x) j = f (elemOf t.width x j) % 2 ^ t.width := by
  unfold mapElems elemsOf
  rw [ET.div_width, List.map_map, elem_packElems _ _ _ h]; rfl
theorem elem_zipElems (t : ET) (f : Nat → Nat → Nat) (x y : Word) (j : Nat) (h : j < t.count) :
    elemOf t.width (zipElems t.width f x y) j = f (elemOf t.width x j) (elemOf t.width y j) % 2 ^ t.width := by
  unfold zipElems elemsOf
  rw [ET.div_width, List.zipWith_map, List.zipWith_self, elem_packElems _ _ _ h]
theorem elem_zipElems3 (t : ET) (f : Nat → Nat → Nat → Nat) (x y z : Word) (j : Nat) (h : j < t.count) :
    elemOf t.width (zipElems3 t.width f x y z) j = f (elemOf t.width x j) (elemOf t.width y j) (elemOf t.width z j) % 2 ^ t.width := by
  unfold zipElems3
  rw [ET.div_width, elem_packElems _ _ _ h]
theorem laneOf_vregOf (f : Nat → Word) (l : Nat) (h : l < 32) : laneOf (vregOf f) l = f l := by
  unfold laneOf vregOf; simp [List.getD, lanes, h]
theorem length_vregOf (f : Nat → Word) : (vregOf f).length = lanes := by simp [vregOf]
theorem laneOf_replicate (x : Word) (l : Nat) (h : l < 32) : laneOf (List.replicate lanes x) l = x := by
  unfold laneOf; simp only [List.getD, lanes]; rw [List.getElem?_replicate, if_pos h]; rfl
theorem elemOf_lt (w : Nat) (x : Word) (j : Nat) : elemOf w x j < 2 ^ w := Nat.mod_lt _ (by positivity)
theorem elem_broadcast (t : ET) (x : Word) (j : Nat) (h : j < t.count) : elemOf t.width (broadcast t.width x) j = x.toNat % 2 ^ t.width := by
  unfold broadcast
  rw [ET.div_width, elemOf_packElems _ _ (by simp [ET.count_width])]
  simp [List.getD, h]
theorem elem_bsrc (t : ET) (w : Wave) (b : BSrc) (l j : Nat) (hl : l < 32) (h : j < t.count) :
    elemOf t.width (laneOf (w.bsrc t b) l) j = elemB t w b l j := by
  cases b with
  | v r => rfl
  | s r => simp only [Wave.bsrc, laneOf_replicate _ _ hl, elem_broadcast _ _ _ h, elemB]
  | imm i =>
    simp only [Wave.bsrc, laneOf_replicate _ _ hl, elem_broadcast _ _ _ h, elemB]
    have hw := ET.width_le t
    have hi := i.toInt_lt; have hi' := i.le_toInt
    have e : ((i.signExtend 64).toNat : Int) = i.toInt % 2 ^ 64 := by
      rw [← BitVec.toInt_signExtend_of_le (x := i) (show 8 ≤ 64 by norm_num), ]
      rw [BitVec.toInt_eq_toNat_bmod, show (2:Int)^64 = ((2^64 : Nat):Int) by norm_num, Int.bmod_emod]
      exact (Int.emod_eq_of_lt (by omega) (by exact_mod_cast (i.signExtend 64).isLt)).symm
    have : ((2:Int) ^ t.width) ∣ 2 ^ 64 := pow_dvd_pow _ hw
    have : (((i.signExtend 64).toNat % 2 ^ t.width : Nat) : Int) = i.toInt % 2 ^ t.width := by
      push_cast
      rw [e, Int.emod_emod_of_dvd _ this]
    omega

theorem elemB_lt (t : ET) (w : Wave) (b : BSrc) (l j : Nat) : elemB t w b l j < 2 ^ t.width := by
  cases b with
  | v r => exact elemOf_lt _ _ _
  | s r => exact Nat.mod_lt _ (by positivity)
  | imm i =>
    unfold elemB
    have : i.toInt % 2 ^ t.width < 2 ^ t.width := Int.emod_lt_of_pos _ (by positivity)
    have h0 : 0 ≤ i.toInt % 2 ^ t.width := Int.emod_nonneg _ (by positivity)
    have : ((i.toInt % 2 ^ t.width).toNat : Int) < ((2 ^ t.width : Nat) : Int) := by rw [Int.toNat_of_nonneg h0]; push_cast; exact this
    exact_mod_cast this
/-! ### Lane-wise instructions -/
/-- Vector registers written one after another under one mask. -/
def writeAll (x : Wave) (g : Mask) (dst : Nat → Nat) (v : Nat → VReg) (n : Nat) : Wave :=
  (List.range n).foldl (fun x n => x.writeLanes g (dst n) (v n)) x

theorem writeAll_noted (x : Wave) (c : Nat) (g : Mask) (dst : Nat → Nat) (v : Nat → VReg) (n : Nat) :
    writeAll (x.noted c) g dst v n = (writeAll x g dst v n).noted c := by
  unfold writeAll
  induction List.range n generalizing x with
  | nil => rfl
  | cons a t ih => exact ih (x.writeLanes g (dst a) (v a))

theorem SameSeat.writeAll (x : Wave) (g : Mask) (dst : Nat → Nat) (v : Nat → VReg) (n : Nat) : SameSeat x (writeAll x g dst v n) := by
  unfold Rules.writeAll
  generalize hl : List.range n = l
  clear hl
  induction l generalizing x with
  | nil => exact SameSeat.rfl' x
  | cons a t ih => exact (SameSeat.writeLanes x g (dst a) (v a)).trans (ih _)

theorem write_eq (r : VecRule) (w : Wave) (v : Nat → VReg) :
    r.write w v = writeAll w (w.governing r.pn r.pi) (fun n => r.dst.getD n 0) v r.dst.length := rfl

/-- A lane-wise instruction whose lanes a rule accepts completes with its destinations written. -/
theorem short_of_issue {s : State} {k : Nat} {i : Instr} {body : Nat → State → State} (r : VecRule) (f : Wave → Wave) (v : Nat → VReg)
    (h : Issues s k i) (run : exec i s = issue i s body) (eff : body k (issued s k) = (issued s k).doneWith k i f)
    (res : f ((s.wave k).noted s.cc) = r.write ((s.wave k).noted s.cc) v) (hr : r.accepts v) :
    ∃ v, r.accepts v ∧ Completes i s k (r.write (s.wave k) v) :=
  ⟨v, hr, completes_of_issue h run eff (by rw [res, write_eq, write_eq, writeAll_noted]; rfl) (SameSeat.writeAll _ _ _ _ _)⟩

theorem short_of_regOp {s : State} {k : Nat} {i : Instr} (r : VecRule) (f : Wave → VReg) (h : Issues s k i) {d : Nat} (hd : r.dst = [d])
    (run : exec i s = regOp i s fun w => w.writeLanes (w.governing r.pn r.pi) d (f w)) (note : f ((s.wave k).noted s.cc) = f (s.wave k))
    (hr : ∀ l, l < 32 → r.lane 0 l (laneOf (f (s.wave k)) l)) : ∃ v, r.accepts v ∧ Completes i s k (r.write (s.wave k) v) := by
  refine short_of_issue (body := fun k s => s.doneWith k i _) r _ (fun _ => f (s.wave k)) h run rfl ?_ ?_
  · show Wave.writeLanes _ _ _ _ = _
    unfold VecRule.write; rw [hd, note]; rfl
  · intro n hn
    rw [hd] at hn
    have : n = 0 := by simpa using hn
    subst this
    exact hr

theorem map1_noted (o : VOp) (f : Nat → Nat) (w : Wave) (c : Nat) : o.map1 f (w.noted c) = o.map1 f w := rfl
theorem map2_noted (o : VOp) (f : Nat → Nat → Nat) (w : Wave) (c : Nat) : o.map2 f (w.noted c) = o.map2 f w := by
  unfold VOp.map2; simp only [Wave.readV_noted, Wave.bsrc_noted]
theorem map3_noted (o : VOp) (f : Nat → Nat → Nat → Nat) (w : Wave) (c : Nat) : o.map3 f (w.noted c) = o.map3 f w := by
  unfold VOp.map3; simp only [Wave.readV_noted, Wave.bsrc_noted]
theorem bitwise_noted (o : VOp) (f : Word → Word → Word) (w : Wave) (c : Nat) : o.bitwise f (w.noted c) = o.bitwise f w := by
  unfold VOp.bitwise; simp only [Wave.readV_noted, Wave.bsrc_noted]

theorem elem_map1 (o : VOp) (f : Nat → Nat) (w : Wave) (l j : Nat) (hl : l < 32) (h : j < o.et.count) :
    elemOf o.et.width (laneOf (o.map1 f w) l) j = f (elemV o.et w o.a.toNat l j) % 2 ^ o.et.width := by
  unfold VOp.map1; rw [laneOf_vregOf _ _ hl, elem_mapElems _ _ _ _ h]; rfl
theorem elem_map2 (o : VOp) (f : Nat → Nat → Nat) (w : Wave) (l j : Nat) (hl : l < 32) (h : j < o.et.count) :
    elemOf o.et.width (laneOf (o.map2 f w) l) j = f (elemV o.et w o.a.toNat l j) (elemB o.et w o.b l j) % 2 ^ o.et.width := by
  unfold VOp.map2; rw [laneOf_vregOf _ _ hl, elem_zipElems _ _ _ _ _ h, elem_bsrc _ _ _ _ _ hl h]; rfl
theorem elem_map3 (o : VOp) (f : Nat → Nat → Nat → Nat) (w : Wave) (l j : Nat) (hl : l < 32) (h : j < o.et.count) :
    elemOf o.et.width (laneOf (o.map3 f w) l) j =
      f (elemV o.et w o.a.toNat l j) (elemB o.et w o.b l j) (elemV o.et w o.c.toNat l j) % 2 ^ o.et.width := by
  unfold VOp.map3; rw [laneOf_vregOf _ _ hl, elem_zipElems3 _ _ _ _ _ _ h, elem_bsrc _ _ _ _ _ hl h]; rfl

theorem short1 {s : State} {k : Nat} {i : Instr} (o : VOp) (f : Nat → Nat) {P : Nat → Nat → Prop} (h : Issues s k i)
    (run : exec i s = vecOp i o (o.map1 f) s)
    (hr : ∀ x, x < 2 ^ o.et.width → P x (f x % 2 ^ o.et.width)) :
    ∃ v, (bits1 o (s.wave k) P).accepts v ∧ Completes i s k ((bits1 o (s.wave k) P).write (s.wave k) v) := by
  refine short_of_regOp (bits1 o (s.wave k) P) (o.map1 f) h rfl run (map1_noted _ _ _ _) ?_
  intro l hl j hj
  simp only [elem_map1 o f _ l j hl hj]
  exact hr _ (elemOf_lt _ _ _)
theorem short2 {s : State} {k : Nat} {i : Instr} (o : VOp) (f : Nat → Nat → Nat) {P : Nat → Nat → Nat → Prop} (h : Issues s k i)
    (run : exec i s = vecOp i o (o.map2 f) s)
    (hr : ∀ x y, x < 2 ^ o.et.width → y < 2 ^ o.et.width → P x y (f x y % 2 ^ o.et.width)) :
    ∃ v, (bits2 o (s.wave k) P).accepts v ∧ Completes i s k ((bits2 o (s.wave k) P).write (s.wave k) v) := by
  refine short_of_regOp (bits2 o (s.wave k) P) (o.map2 f) h rfl run (map2_noted _ _ _ _) ?_
  intro l hl j hj
  simp only [elem_map2 o f _ l j hl hj]
  exact hr _ _ (elemOf_lt _ _ _) (elemB_lt _ _ _ _ _)
theorem short3 {s : State} {k : Nat} {i : Instr} (o : VOp) (f : Nat → Nat → Nat → Nat) {P : Nat → Nat → Nat → Nat → Prop} (h : Issues s k i)
    (run : exec i s = vecOp i o (o.map3 f) s)
    (hr : ∀ x y z, x < 2 ^ o.et.width → y < 2 ^ o.et.width → z < 2 ^ o.et.width → P x y z (f x y z % 2 ^ o.et.width)) :
    ∃ v, (bits3 o (s.wave k) P).accepts v ∧ Completes i s k ((bits3 o (s.wave k) P).write (s.wave k) v) := by
  refine short_of_regOp (bits3 o (s.wave k) P) (o.map3 f) h rfl run (map3_noted _ _ _ _) ?_
  intro l hl j hj
  simp only [elem_map3 o f _ l j hl hj]
  exact hr _ _ _ (elemOf_lt _ _ _) (elemB_lt _ _ _ _ _) (elemOf_lt _ _ _)

/-! ### Values -/
theorem cast_wrapTo (w : Nat) (i : Int) : ((wrapTo w i : Nat) : Int) = i % 2 ^ w := by
  unfold wrapTo
  have : (0:Int) ≤ i % ((2 ^ w : Nat) : Int) := Int.emod_nonneg _ (by positivity)
  rw [Int.toNat_of_nonneg this]; norm_cast
theorem wrapTo_lt (w : Nat) (i : Int) : wrapTo w i < 2 ^ w := by
  have : ((wrapTo w i : Nat) : Int) < 2 ^ w := by rw [cast_wrapTo]; exact Int.emod_lt_of_pos _ (by positivity)
  exact_mod_cast this
theorem clampTo_eq (lo hi i : Int) (h : lo ≤ hi) : clampTo lo hi i = max lo (min hi i) := by
  unfold clampTo; split
  · omega
  · split <;> omega
theorem minOf_le (s : Bool) (w : Nat) : minOf s w ≤ maxOf s w := by
  unfold minOf maxOf
  have : (0:Int) < ((2 ^ (w-1) : Nat):Int) := by positivity
  have : (0:Int) < ((2 ^ w : Nat):Int) := by positivity
  cases s <;> simp only [if_true, if_false, Bool.false_eq_true] <;> omega
theorem finished_finish (o : VOp) (i : Int) : finished o i (o.finish i % 2 ^ o.et.width) := by
  unfold finished VOp.finish storeInt
  rw [Nat.mod_eq_of_lt (wrapTo_lt _ _), cast_wrapTo, clampTo_eq _ _ _ (minOf_le _ _)]
theorem cast_mod (w x : Nat) : ((x % 2 ^ w : Nat) : Int) = (x : Int) % 2 ^ w := by push_cast; rfl


/-! ### Integers -/
theorem elemInt_mod (t : ET) (x : Nat) (h : x < 2 ^ t.width) : elemInt t x % 2 ^ t.width = x := by
  unfold elemInt toSigned
  have hx : (x:Int) % 2 ^ t.width = x := Int.emod_eq_of_lt (by omega) (by exact_mod_cast h)
  split
  · split
    · push_cast; rw [Int.sub_emod, Int.emod_self, hx, Int.sub_zero, hx]
    · exact hx
  · exact hx
theorem toSigned_mod (w x : Nat) (h : x < 2 ^ w) : toSigned w x % 2 ^ w = x := by
  unfold toSigned
  have hx : (x:Int) % 2 ^ w = x := Int.emod_eq_of_lt (by omega) (by exact_mod_cast h)
  split
  · push_cast; rw [Int.sub_emod, Int.emod_self, hx, Int.sub_zero, hx]
  · exact hx
theorem v_min (t : ET) (x y : Nat) (hx : x < 2 ^ t.width) (hy : y < 2 ^ t.width) :
    ((intMinMax t false x y % 2 ^ t.width : Nat) : Int) = min (elemInt t x) (elemInt t y) % 2 ^ t.width := by
  unfold intMinMax
  by_cases h : elemInt t x ≤ elemInt t y
  · rw [min_eq_left h, elemInt_mod t x hx]; simp [h, Nat.mod_eq_of_lt hx]
  · rw [min_eq_right (by omega), elemInt_mod t y hy]; simp [h, Nat.mod_eq_of_lt hy]
theorem v_max (t : ET) (x y : Nat) (hx : x < 2 ^ t.width) (hy : y < 2 ^ t.width) :
    ((intMinMax t true x y % 2 ^ t.width : Nat) : Int) = max (elemInt t x) (elemInt t y) % 2 ^ t.width := by
  unfold intMinMax
  by_cases h : elemInt t x ≤ elemInt t y
  · rw [max_eq_right h, elemInt_mod t y hy]; simp [h, Nat.mod_eq_of_lt hy]
  · rw [max_eq_left (by omega), elemInt_mod t x hx]; simp [h, Nat.mod_eq_of_lt hx]
theorem two_pow_pred (w : Nat) (h : 0 < w) : 2 ^ w = 2 * 2 ^ (w - 1) := by
  cases w with
  | zero => omega
  | succ n => simp [pow_succ]; ring
theorem testBit_top (w x : Nat) (h : 0 < w) (hx : x < 2 ^ w) : x.testBit (w - 1) = decide (2 ^ (w - 1) ≤ x) := by
  rw [Nat.testBit_eq_decide_div_mod_eq]
  have := two_pow_pred w h
  by_cases g : 2 ^ (w-1) ≤ x
  · have : x / 2 ^ (w-1) = 1 := Nat.div_eq_of_lt_le (by omega) (by omega)
    simp [this, g]
  · simp [Nat.div_eq_of_lt (not_le.1 g), g]
theorem elemInt_range (t : ET) (x : Nat) (hx : x < 2 ^ t.width) : minOf t.isSigned t.width ≤ elemInt t x ∧ elemInt t x ≤ maxOf t.isSigned t.width := by
  have hw := ET.width_pos t
  have e := two_pow_pred _ hw
  have hx' : (x:Int) < ((2 ^ t.width : Nat) : Int) := by exact_mod_cast hx
  unfold elemInt minOf maxOf toSigned
  rw [testBit_top _ _ hw hx]
  have e' : ((2 ^ t.width : Nat):Int) = 2 * ((2 ^ (t.width - 1) : Nat):Int) := by exact_mod_cast e
  generalize ((2 ^ t.width : Nat):Int) = A at *
  cases t.isSigned <;> simp only [if_true, if_false, Bool.false_eq_true, decide_eq_true_eq]
  · omega
  · split
    · next h => have : ((2 ^ (t.width - 1) : Nat):Int) ≤ x := by exact_mod_cast h
                omega
    · next h => have : (x:Int) < ((2 ^ (t.width - 1) : Nat):Int) := by exact_mod_cast not_le.1 h
                omega
theorem v_absd (t : ET) (x y : Nat) (hx : x < 2 ^ t.width) (hy : y < 2 ^ t.width) :
    (elemInt t x - elemInt t y).natAbs % 2 ^ t.width = (elemInt t x - elemInt t y).natAbs := by
  have a := elemInt_range t x hx
  have b := elemInt_range t y hy
  have hw := ET.width_pos t
  have e := two_pow_pred _ hw
  apply Nat.mod_eq_of_lt
  have e' : ((2 ^ t.width : Nat):Int) = 2 * ((2 ^ (t.width - 1) : Nat):Int) := by exact_mod_cast e
  have : ((elemInt t x - elemInt t y).natAbs : Int) < ((2 ^ t.width : Nat) : Int) := by
    unfold minOf maxOf at a b
    cases h : t.isSigned <;> simp only [h, if_true, if_false, Bool.false_eq_true] at a b
    · omega
    · omega
  exact_mod_cast this
theorem v_avg (rm : RM) (hrm : rm ≠ .rs) (i : Int) : halved rm i (roundDiv rm i 2) := by
  obtain ⟨n, hn⟩ : ∃ n, n = i.natAbs := ⟨_, rfl⟩
  have hi : i = n ∨ i = -(n : Int) := by omega
  unfold roundDiv roundsUp halved
  rw [← hn]
  clear hn
  have hd : (n / 2 : Nat) = n / 2 := rfl
  rcases Nat.mod_two_eq_zero_or_one n with h | h <;> rcases Nat.mod_two_eq_zero_or_one (n / 2) with q | q <;>
    by_cases g : i < 0 <;> cases rm <;> simp only [h, q, g, decide_true, decide_false, if_true, if_false, Bool.false_eq_true, reduceCtorEq, beq_iff_eq,
      Bool.or_eq_true, Bool.and_eq_true, decide_eq_true_eq, Nat.reduceMul, Nat.reduceLT, Nat.reduceBEq, Bool.or_false, Bool.false_or, Bool.true_and, Bool.not_true,
      Bool.not_false, Bool.and_true, Bool.and_false, lt_self_iff_false, Bool.and_self, ne_eq, not_true_eq_false, one_ne_zero, zero_ne_one, not_false_eq_true, Nat.zero_ne_one] <;>
    (rcases hi with rfl | rfl) <;> (try simp only [Int.neg_tdiv, Int.tdiv_eq_ediv_of_nonneg (Int.natCast_nonneg n)]) <;> first | contradiction | omega

end Sys2Proof.Rules
end

