-- ==== Sys2Proof/Laws/Encode.lean ====
section
/-! SUPPORT. The fields of the five formats read back from a word that is built of them (R47-R52). -/

namespace Sys2Proof

/-- A bit of a field that stands at `lo`. -/
theorem bit_fld {w n : Nat} (lo : Nat) (x : BitVec n) (i : Nat) :
    (fld lo x : BitVec w).getLsbD i = (decide (i < w) && decide (lo ≤ i) && x.getLsbD (i - lo)) := by
  simp only [fld, BitVec.getLsbD_shiftLeft, BitVec.getLsbD_setWidth]
  have h' : i < w → i - lo < w := fun _ => by omega
  by_cases h : i < w <;> by_cases g : i < lo <;> simp [h, g, Nat.not_lt.mp, h'] <;> omega

/-- The bit of a flag at `lo`. -/
theorem bit_flag {w : Nat} (lo : Nat) (b : Bool) (i : Nat) :
    (flag lo b : BitVec w).getLsbD i = (decide (i < w) && decide (i = lo) && b) := by
  rw [flag, bit_fld]
  by_cases h : i < w <;> by_cases g : i = lo <;> by_cases k : lo ≤ i <;> simp [h, g, k, BitVec.getLsbD_ofBool]; omega

@[simp] theorem rWord_q (q : Bool) (op : BitVec 7) (pn : Bool) (pi : BitVec 3) (d : BitVec 8) (a : BitVec 8) (b : BitVec 8) (c : BitVec 8) (fn : BitVec 8) (mod : BitVec 12) : Fld.q (rWord q op pn pi d a b c fn mod) = q := by
  simp only [Fld.q, rWord, BitVec.getLsbD_or, bit_fld, bit_flag]
  simp

@[simp] theorem rWord_op (q : Bool) (op : BitVec 7) (pn : Bool) (pi : BitVec 3) (d : BitVec 8) (a : BitVec 8) (b : BitVec 8) (c : BitVec 8) (fn : BitVec 8) (mod : BitVec 12) : Fld.op (rWord q op pn pi d a b c fn mod) = op := by
  apply BitVec.eq_of_getLsbD_eq
  intro i hi
  simp only [Fld.op, rWord, BitVec.getLsbD_extractLsb', BitVec.getLsbD_or, bit_fld, bit_flag]
  interval_cases i <;> simp

@[simp] theorem rWord_pn (q : Bool) (op : BitVec 7) (pn : Bool) (pi : BitVec 3) (d : BitVec 8) (a : BitVec 8) (b : BitVec 8) (c : BitVec 8) (fn : BitVec 8) (mod : BitVec 12) : Fld.pn (rWord q op pn pi d a b c fn mod) = pn := by
  simp only [Fld.pn, rWord, BitVec.getLsbD_or, bit_fld, bit_flag]
  simp

@[simp] theorem rWord_pi (q : Bool) (op : BitVec 7) (pn : Bool) (pi : BitVec 3) (d : BitVec 8) (a : BitVec 8) (b : BitVec 8) (c : BitVec 8) (fn : BitVec 8) (mod : BitVec 12) : Fld.pi (rWord q op pn pi d a b c fn mod) = pi := by
  apply BitVec.eq_of_getLsbD_eq
  intro i hi
  simp only [Fld.pi, rWord, BitVec.getLsbD_extractLsb', BitVec.getLsbD_or, bit_fld, bit_flag]
  interval_cases i <;> simp

@[simp] theorem rWord_d (q : Bool) (op : BitVec 7) (pn : Bool) (pi : BitVec 3) (d : BitVec 8) (a : BitVec 8) (b : BitVec 8) (c : BitVec 8) (fn : BitVec 8) (mod : BitVec 12) : Fld.d (rWord q op pn pi d a b c fn mod) = d := by
  apply BitVec.eq_of_getLsbD_eq
  intro i hi
  simp only [Fld.d, rWord, BitVec.getLsbD_extractLsb', BitVec.getLsbD_or, bit_fld, bit_flag]
  interval_cases i <;> simp

@[simp] theorem rWord_a (q : Bool) (op : BitVec 7) (pn : Bool) (pi : BitVec 3) (d : BitVec 8) (a : BitVec 8) (b : BitVec 8) (c : BitVec 8) (fn : BitVec 8) (mod : BitVec 12) : Fld.a (rWord q op pn pi d a b c fn mod) = a := by
  apply BitVec.eq_of_getLsbD_eq
  intro i hi
  simp only [Fld.a, rWord, BitVec.getLsbD_extractLsb', BitVec.getLsbD_or, bit_fld, bit_flag]
  interval_cases i <;> simp

@[simp] theorem rWord_b (q : Bool) (op : BitVec 7) (pn : Bool) (pi : BitVec 3) (d : BitVec 8) (a : BitVec 8) (b : BitVec 8) (c : BitVec 8) (fn : BitVec 8) (mod : BitVec 12) : Fld.b (rWord q op pn pi d a b c fn mod) = b := by
  apply BitVec.eq_of_getLsbD_eq
  intro i hi
  simp only [Fld.b, rWord, BitVec.getLsbD_extractLsb', BitVec.getLsbD_or, bit_fld, bit_flag]
  interval_cases i <;> simp

@[simp] theorem rWord_c (q : Bool) (op : BitVec 7) (pn : Bool) (pi : BitVec 3) (d : BitVec 8) (a : BitVec 8) (b : BitVec 8) (c : BitVec 8) (fn : BitVec 8) (mod : BitVec 12) : Fld.c (rWord q op pn pi d a b c fn mod) = c := by
  apply BitVec.eq_of_getLsbD_eq
  intro i hi
  simp only [Fld.c, rWord, BitVec.getLsbD_extractLsb', BitVec.getLsbD_or, bit_fld, bit_flag]
  interval_cases i <;> simp

@[simp] theorem rWord_fn (q : Bool) (op : BitVec 7) (pn : Bool) (pi : BitVec 3) (d : BitVec 8) (a : BitVec 8) (b : BitVec 8) (c : BitVec 8) (fn : BitVec 8) (mod : BitVec 12) : Fld.fn (rWord q op pn pi d a b c fn mod) = fn := by
  apply BitVec.eq_of_getLsbD_eq
  intro i hi
  simp only [Fld.fn, rWord, BitVec.getLsbD_extractLsb', BitVec.getLsbD_or, bit_fld, bit_flag]
  interval_cases i <;> simp

@[simp] theorem rWord_mod (q : Bool) (op : BitVec 7) (pn : Bool) (pi : BitVec 3) (d : BitVec 8) (a : BitVec 8) (b : BitVec 8) (c : BitVec 8) (fn : BitVec 8) (mod : BitVec 12) : Fld.mod (rWord q op pn pi d a b c fn mod) = mod := by
  apply BitVec.eq_of_getLsbD_eq
  intro i hi
  simp only [Fld.mod, rWord, BitVec.getLsbD_extractLsb', BitVec.getLsbD_or, bit_fld, bit_flag]
  interval_cases i <;> simp

@[simp] theorem iWord_q (q : Bool) (op : BitVec 7) (pn : Bool) (pi : BitVec 3) (d : BitVec 8) (a : BitVec 8) (imm : BitVec 36) : Fld.q (iWord q op pn pi d a imm) = q := by
  simp only [Fld.q, iWord, BitVec.getLsbD_or, bit_fld, bit_flag]
  simp

@[simp] theorem iWord_op (q : Bool) (op : BitVec 7) (pn : Bool) (pi : BitVec 3) (d : BitVec 8) (a : BitVec 8) (imm : BitVec 36) : Fld.op (iWord q op pn pi d a imm) = op := by
  apply BitVec.eq_of_getLsbD_eq
  intro i hi
  simp only [Fld.op, iWord, BitVec.getLsbD_extractLsb', BitVec.getLsbD_or, bit_fld, bit_flag]
  interval_cases i <;> simp

@[simp] theorem iWord_pn (q : Bool) (op : BitVec 7) (pn : Bool) (pi : BitVec 3) (d : BitVec 8) (a : BitVec 8) (imm : BitVec 36) : Fld.pn (iWord q op pn pi d a imm) = pn := by
  simp only [Fld.pn, iWord, BitVec.getLsbD_or, bit_fld, bit_flag]
  simp

@[simp] theorem iWord_pi (q : Bool) (op : BitVec 7) (pn : Bool) (pi : BitVec 3) (d : BitVec 8) (a : BitVec 8) (imm : BitVec 36) : Fld.pi (iWord q op pn pi d a imm) = pi := by
  apply BitVec.eq_of_getLsbD_eq
  intro i hi
  simp only [Fld.pi, iWord, BitVec.getLsbD_extractLsb', BitVec.getLsbD_or, bit_fld, bit_flag]
  interval_cases i <;> simp

@[simp] theorem iWord_d (q : Bool) (op : BitVec 7) (pn : Bool) (pi : BitVec 3) (d : BitVec 8) (a : BitVec 8) (imm : BitVec 36) : Fld.d (iWord q op pn pi d a imm) = d := by
  apply BitVec.eq_of_getLsbD_eq
  intro i hi
  simp only [Fld.d, iWord, BitVec.getLsbD_extractLsb', BitVec.getLsbD_or, bit_fld, bit_flag]
  interval_cases i <;> simp

@[simp] theorem iWord_a (q : Bool) (op : BitVec 7) (pn : Bool) (pi : BitVec 3) (d : BitVec 8) (a : BitVec 8) (imm : BitVec 36) : Fld.a (iWord q op pn pi d a imm) = a := by
  apply BitVec.eq_of_getLsbD_eq
  intro i hi
  simp only [Fld.a, iWord, BitVec.getLsbD_extractLsb', BitVec.getLsbD_or, bit_fld, bit_flag]
  interval_cases i <;> simp

@[simp] theorem iWord_imm36 (q : Bool) (op : BitVec 7) (pn : Bool) (pi : BitVec 3) (d : BitVec 8) (a : BitVec 8) (imm : BitVec 36) : Fld.imm36 (iWord q op pn pi d a imm) = imm := by
  apply BitVec.eq_of_getLsbD_eq
  intro i hi
  simp only [Fld.imm36, iWord, BitVec.getLsbD_extractLsb', BitVec.getLsbD_or, bit_fld, bit_flag]
  interval_cases i <;> simp

@[simp] theorem bWord_q (q : Bool) (op : BitVec 7) (cond : BitVec 4) (a : BitVec 8) (off : BitVec 32) : Fld.q (bWord q op cond a off) = q := by
  simp only [Fld.q, bWord, BitVec.getLsbD_or, bit_fld, bit_flag]
  simp

@[simp] theorem bWord_op (q : Bool) (op : BitVec 7) (cond : BitVec 4) (a : BitVec 8) (off : BitVec 32) : Fld.op (bWord q op cond a off) = op := by
  apply BitVec.eq_of_getLsbD_eq
  intro i hi
  simp only [Fld.op, bWord, BitVec.getLsbD_extractLsb', BitVec.getLsbD_or, bit_fld, bit_flag]
  interval_cases i <;> simp

@[simp] theorem bWord_cond (q : Bool) (op : BitVec 7) (cond : BitVec 4) (a : BitVec 8) (off : BitVec 32) : Fld.cond (bWord q op cond a off) = cond := by
  apply BitVec.eq_of_getLsbD_eq
  intro i hi
  simp only [Fld.cond, bWord, BitVec.getLsbD_extractLsb', BitVec.getLsbD_or, bit_fld, bit_flag]
  interval_cases i <;> simp

@[simp] theorem bWord_a (q : Bool) (op : BitVec 7) (cond : BitVec 4) (a : BitVec 8) (off : BitVec 32) : Fld.a (bWord q op cond a off) = a := by
  apply BitVec.eq_of_getLsbD_eq
  intro i hi
  simp only [Fld.a, bWord, BitVec.getLsbD_extractLsb', BitVec.getLsbD_or, bit_fld, bit_flag]
  interval_cases i <;> simp

@[simp] theorem bWord_off (q : Bool) (op : BitVec 7) (cond : BitVec 4) (a : BitVec 8) (off : BitVec 32) : Fld.off (bWord q op cond a off) = off := by
  apply BitVec.eq_of_getLsbD_eq
  intro i hi
  simp only [Fld.off, bWord, BitVec.getLsbD_extractLsb', BitVec.getLsbD_or, bit_fld, bit_flag]
  interval_cases i <;> simp

@[simp] theorem mWord_q (q : Bool) (op : BitVec 7) (pn : Bool) (pi : BitVec 3) (d : BitVec 8) (a : BitVec 8) (b : BitVec 8) (slack : BitVec 3) (scope : BitVec 3) (hint : BitVec 2) (fn : BitVec 8) (disp : BitVec 12) : Fld.q (mWord q op pn pi d a b slack scope hint fn disp) = q := by
  simp only [Fld.q, mWord, BitVec.getLsbD_or, bit_fld, bit_flag]
  simp

@[simp] theorem mWord_op (q : Bool) (op : BitVec 7) (pn : Bool) (pi : BitVec 3) (d : BitVec 8) (a : BitVec 8) (b : BitVec 8) (slack : BitVec 3) (scope : BitVec 3) (hint : BitVec 2) (fn : BitVec 8) (disp : BitVec 12) : Fld.op (mWord q op pn pi d a b slack scope hint fn disp) = op := by
  apply BitVec.eq_of_getLsbD_eq
  intro i hi
  simp only [Fld.op, mWord, BitVec.getLsbD_extractLsb', BitVec.getLsbD_or, bit_fld, bit_flag]
  interval_cases i <;> simp

@[simp] theorem mWord_pn (q : Bool) (op : BitVec 7) (pn : Bool) (pi : BitVec 3) (d : BitVec 8) (a : BitVec 8) (b : BitVec 8) (slack : BitVec 3) (scope : BitVec 3) (hint : BitVec 2) (fn : BitVec 8) (disp : BitVec 12) : Fld.pn (mWord q op pn pi d a b slack scope hint fn disp) = pn := by
  simp only [Fld.pn, mWord, BitVec.getLsbD_or, bit_fld, bit_flag]
  simp

@[simp] theorem mWord_pi (q : Bool) (op : BitVec 7) (pn : Bool) (pi : BitVec 3) (d : BitVec 8) (a : BitVec 8) (b : BitVec 8) (slack : BitVec 3) (scope : BitVec 3) (hint : BitVec 2) (fn : BitVec 8) (disp : BitVec 12) : Fld.pi (mWord q op pn pi d a b slack scope hint fn disp) = pi := by
  apply BitVec.eq_of_getLsbD_eq
  intro i hi
  simp only [Fld.pi, mWord, BitVec.getLsbD_extractLsb', BitVec.getLsbD_or, bit_fld, bit_flag]
  interval_cases i <;> simp

@[simp] theorem mWord_d (q : Bool) (op : BitVec 7) (pn : Bool) (pi : BitVec 3) (d : BitVec 8) (a : BitVec 8) (b : BitVec 8) (slack : BitVec 3) (scope : BitVec 3) (hint : BitVec 2) (fn : BitVec 8) (disp : BitVec 12) : Fld.d (mWord q op pn pi d a b slack scope hint fn disp) = d := by
  apply BitVec.eq_of_getLsbD_eq
  intro i hi
  simp only [Fld.d, mWord, BitVec.getLsbD_extractLsb', BitVec.getLsbD_or, bit_fld, bit_flag]
  interval_cases i <;> simp

@[simp] theorem mWord_a (q : Bool) (op : BitVec 7) (pn : Bool) (pi : BitVec 3) (d : BitVec 8) (a : BitVec 8) (b : BitVec 8) (slack : BitVec 3) (scope : BitVec 3) (hint : BitVec 2) (fn : BitVec 8) (disp : BitVec 12) : Fld.a (mWord q op pn pi d a b slack scope hint fn disp) = a := by
  apply BitVec.eq_of_getLsbD_eq
  intro i hi
  simp only [Fld.a, mWord, BitVec.getLsbD_extractLsb', BitVec.getLsbD_or, bit_fld, bit_flag]
  interval_cases i <;> simp

@[simp] theorem mWord_b (q : Bool) (op : BitVec 7) (pn : Bool) (pi : BitVec 3) (d : BitVec 8) (a : BitVec 8) (b : BitVec 8) (slack : BitVec 3) (scope : BitVec 3) (hint : BitVec 2) (fn : BitVec 8) (disp : BitVec 12) : Fld.b (mWord q op pn pi d a b slack scope hint fn disp) = b := by
  apply BitVec.eq_of_getLsbD_eq
  intro i hi
  simp only [Fld.b, mWord, BitVec.getLsbD_extractLsb', BitVec.getLsbD_or, bit_fld, bit_flag]
  interval_cases i <;> simp

@[simp] theorem mWord_mslack (q : Bool) (op : BitVec 7) (pn : Bool) (pi : BitVec 3) (d : BitVec 8) (a : BitVec 8) (b : BitVec 8) (slack : BitVec 3) (scope : BitVec 3) (hint : BitVec 2) (fn : BitVec 8) (disp : BitVec 12) : Fld.mslack (mWord q op pn pi d a b slack scope hint fn disp) = slack := by
  apply BitVec.eq_of_getLsbD_eq
  intro i hi
  simp only [Fld.mslack, mWord, BitVec.getLsbD_extractLsb', BitVec.getLsbD_or, bit_fld, bit_flag]
  interval_cases i <;> simp

@[simp] theorem mWord_scope (q : Bool) (op : BitVec 7) (pn : Bool) (pi : BitVec 3) (d : BitVec 8) (a : BitVec 8) (b : BitVec 8) (slack : BitVec 3) (scope : BitVec 3) (hint : BitVec 2) (fn : BitVec 8) (disp : BitVec 12) : Fld.scope (mWord q op pn pi d a b slack scope hint fn disp) = scope := by
  apply BitVec.eq_of_getLsbD_eq
  intro i hi
  simp only [Fld.scope, mWord, BitVec.getLsbD_extractLsb', BitVec.getLsbD_or, bit_fld, bit_flag]
  interval_cases i <;> simp

@[simp] theorem mWord_hint (q : Bool) (op : BitVec 7) (pn : Bool) (pi : BitVec 3) (d : BitVec 8) (a : BitVec 8) (b : BitVec 8) (slack : BitVec 3) (scope : BitVec 3) (hint : BitVec 2) (fn : BitVec 8) (disp : BitVec 12) : Fld.hint (mWord q op pn pi d a b slack scope hint fn disp) = hint := by
  apply BitVec.eq_of_getLsbD_eq
  intro i hi
  simp only [Fld.hint, mWord, BitVec.getLsbD_extractLsb', BitVec.getLsbD_or, bit_fld, bit_flag]
  interval_cases i <;> simp

@[simp] theorem mWord_fn (q : Bool) (op : BitVec 7) (pn : Bool) (pi : BitVec 3) (d : BitVec 8) (a : BitVec 8) (b : BitVec 8) (slack : BitVec 3) (scope : BitVec 3) (hint : BitVec 2) (fn : BitVec 8) (disp : BitVec 12) : Fld.fn (mWord q op pn pi d a b slack scope hint fn disp) = fn := by
  apply BitVec.eq_of_getLsbD_eq
  intro i hi
  simp only [Fld.fn, mWord, BitVec.getLsbD_extractLsb', BitVec.getLsbD_or, bit_fld, bit_flag]
  interval_cases i <;> simp

@[simp] theorem mWord_disp (q : Bool) (op : BitVec 7) (pn : Bool) (pi : BitVec 3) (d : BitVec 8) (a : BitVec 8) (b : BitVec 8) (slack : BitVec 3) (scope : BitVec 3) (hint : BitVec 2) (fn : BitVec 8) (disp : BitVec 12) : Fld.disp (mWord q op pn pi d a b slack scope hint fn disp) = disp := by
  apply BitVec.eq_of_getLsbD_eq
  intro i hi
  simp only [Fld.disp, mWord, BitVec.getLsbD_extractLsb', BitVec.getLsbD_or, bit_fld, bit_flag]
  interval_cases i <;> simp

@[simp] theorem xWord_q (q : Bool) (op : BitVec 7) (pn : Bool) (pi : BitVec 3) (d : BitVec 8) (a : BitVec 8) (b : BitVec 8) (c : BitVec 8) (fn : BitVec 4) (slack : BitVec 3) (xmod : BitVec 13) : Fld.q (xWord q op pn pi d a b c fn slack xmod) = q := by
  simp only [Fld.q, xWord, BitVec.getLsbD_or, bit_fld, bit_flag]
  simp

@[simp] theorem xWord_op (q : Bool) (op : BitVec 7) (pn : Bool) (pi : BitVec 3) (d : BitVec 8) (a : BitVec 8) (b : BitVec 8) (c : BitVec 8) (fn : BitVec 4) (slack : BitVec 3) (xmod : BitVec 13) : Fld.op (xWord q op pn pi d a b c fn slack xmod) = op := by
  apply BitVec.eq_of_getLsbD_eq
  intro i hi
  simp only [Fld.op, xWord, BitVec.getLsbD_extractLsb', BitVec.getLsbD_or, bit_fld, bit_flag]
  interval_cases i <;> simp

@[simp] theorem xWord_pn (q : Bool) (op : BitVec 7) (pn : Bool) (pi : BitVec 3) (d : BitVec 8) (a : BitVec 8) (b : BitVec 8) (c : BitVec 8) (fn : BitVec 4) (slack : BitVec 3) (xmod : BitVec 13) : Fld.pn (xWord q op pn pi d a b c fn slack xmod) = pn := by
  simp only [Fld.pn, xWord, BitVec.getLsbD_or, bit_fld, bit_flag]
  simp

@[simp] theorem xWord_pi (q : Bool) (op : BitVec 7) (pn : Bool) (pi : BitVec 3) (d : BitVec 8) (a : BitVec 8) (b : BitVec 8) (c : BitVec 8) (fn : BitVec 4) (slack : BitVec 3) (xmod : BitVec 13) : Fld.pi (xWord q op pn pi d a b c fn slack xmod) = pi := by
  apply BitVec.eq_of_getLsbD_eq
  intro i hi
  simp only [Fld.pi, xWord, BitVec.getLsbD_extractLsb', BitVec.getLsbD_or, bit_fld, bit_flag]
  interval_cases i <;> simp

@[simp] theorem xWord_d (q : Bool) (op : BitVec 7) (pn : Bool) (pi : BitVec 3) (d : BitVec 8) (a : BitVec 8) (b : BitVec 8) (c : BitVec 8) (fn : BitVec 4) (slack : BitVec 3) (xmod : BitVec 13) : Fld.d (xWord q op pn pi d a b c fn slack xmod) = d := by
  apply BitVec.eq_of_getLsbD_eq
  intro i hi
  simp only [Fld.d, xWord, BitVec.getLsbD_extractLsb', BitVec.getLsbD_or, bit_fld, bit_flag]
  interval_cases i <;> simp

@[simp] theorem xWord_a (q : Bool) (op : BitVec 7) (pn : Bool) (pi : BitVec 3) (d : BitVec 8) (a : BitVec 8) (b : BitVec 8) (c : BitVec 8) (fn : BitVec 4) (slack : BitVec 3) (xmod : BitVec 13) : Fld.a (xWord q op pn pi d a b c fn slack xmod) = a := by
  apply BitVec.eq_of_getLsbD_eq
  intro i hi
  simp only [Fld.a, xWord, BitVec.getLsbD_extractLsb', BitVec.getLsbD_or, bit_fld, bit_flag]
  interval_cases i <;> simp

@[simp] theorem xWord_b (q : Bool) (op : BitVec 7) (pn : Bool) (pi : BitVec 3) (d : BitVec 8) (a : BitVec 8) (b : BitVec 8) (c : BitVec 8) (fn : BitVec 4) (slack : BitVec 3) (xmod : BitVec 13) : Fld.b (xWord q op pn pi d a b c fn slack xmod) = b := by
  apply BitVec.eq_of_getLsbD_eq
  intro i hi
  simp only [Fld.b, xWord, BitVec.getLsbD_extractLsb', BitVec.getLsbD_or, bit_fld, bit_flag]
  interval_cases i <;> simp

@[simp] theorem xWord_c (q : Bool) (op : BitVec 7) (pn : Bool) (pi : BitVec 3) (d : BitVec 8) (a : BitVec 8) (b : BitVec 8) (c : BitVec 8) (fn : BitVec 4) (slack : BitVec 3) (xmod : BitVec 13) : Fld.c (xWord q op pn pi d a b c fn slack xmod) = c := by
  apply BitVec.eq_of_getLsbD_eq
  intro i hi
  simp only [Fld.c, xWord, BitVec.getLsbD_extractLsb', BitVec.getLsbD_or, bit_fld, bit_flag]
  interval_cases i <;> simp

@[simp] theorem xWord_xfn (q : Bool) (op : BitVec 7) (pn : Bool) (pi : BitVec 3) (d : BitVec 8) (a : BitVec 8) (b : BitVec 8) (c : BitVec 8) (fn : BitVec 4) (slack : BitVec 3) (xmod : BitVec 13) : Fld.xfn (xWord q op pn pi d a b c fn slack xmod) = fn := by
  apply BitVec.eq_of_getLsbD_eq
  intro i hi
  simp only [Fld.xfn, xWord, BitVec.getLsbD_extractLsb', BitVec.getLsbD_or, bit_fld, bit_flag]
  interval_cases i <;> simp

@[simp] theorem xWord_xslack (q : Bool) (op : BitVec 7) (pn : Bool) (pi : BitVec 3) (d : BitVec 8) (a : BitVec 8) (b : BitVec 8) (c : BitVec 8) (fn : BitVec 4) (slack : BitVec 3) (xmod : BitVec 13) : Fld.xslack (xWord q op pn pi d a b c fn slack xmod) = slack := by
  apply BitVec.eq_of_getLsbD_eq
  intro i hi
  simp only [Fld.xslack, xWord, BitVec.getLsbD_extractLsb', BitVec.getLsbD_or, bit_fld, bit_flag]
  interval_cases i <;> simp

@[simp] theorem xWord_xmod (q : Bool) (op : BitVec 7) (pn : Bool) (pi : BitVec 3) (d : BitVec 8) (a : BitVec 8) (b : BitVec 8) (c : BitVec 8) (fn : BitVec 4) (slack : BitVec 3) (xmod : BitVec 13) : Fld.xmod (xWord q op pn pi d a b c fn slack xmod) = xmod := by
  apply BitVec.eq_of_getLsbD_eq
  intro i hi
  simp only [Fld.xmod, xWord, BitVec.getLsbD_extractLsb', BitVec.getLsbD_or, bit_fld, bit_flag]
  interval_cases i <;> simp

/-! ### Codes, and the subfields of mod, fn and xmod -/

@[simp] theorem ofCode_et (t : ET) : ET.ofCode t.code = some t := by cases t <;> rfl

@[simp] theorem ofCode_rm (t : RM) : RM.ofCode t.code = some t := by cases t <;> rfl

@[simp] theorem ofCode_b (t : BSrc) : BSrc.ofCode t.bk t.field = some t := by cases t <;> rfl

@[simp] theorem ofCode_size (t : Size) : Size.ofCode t.code = some t := by cases t <;> rfl

@[simp] theorem ofCode_scope (t : Scope) : Scope.ofCode t.code = some t := by cases t <;> rfl

@[simp] theorem ofCode_scond (t : SCond) : SCond.ofCode t.code = some t := by cases t <;> rfl

@[simp] theorem ofCode_pcond (t : PCond) : PCond.ofCode t.code = some t := by cases t <;> rfl

@[simp] theorem ofCode_vcond (t : VCond) : VCond.ofCode t.code.toNat = some t := by cases t <;> rfl

@[simp] theorem ofCode_red (t : RedOp) : RedOp.ofCode t.code.toNat = some t := by cases t <;> rfl

@[simp] theorem ofCode_atom (t : AtomOp) : AtomOp.ofCode t.code = some t := by cases t <;> rfl

@[simp] theorem ofCode_fence (t : FenceKind) : FenceKind.ofCode t.code = some t := by cases t <;> rfl

theorem vmod_et (o : VOp) : (vmodBits o).extractLsb' 0 4 = o.et.code := by
  apply BitVec.eq_of_getLsbD_eq
  intro i hi
  simp only [vmodBits, BitVec.getLsbD_extractLsb', BitVec.getLsbD_or, bit_fld, bit_flag]
  interval_cases i <;> simp

theorem vmod_rm (o : VOp) : (vmodBits o).extractLsb' 4 3 = o.rm.code := by
  apply BitVec.eq_of_getLsbD_eq
  intro i hi
  simp only [vmodBits, BitVec.getLsbD_extractLsb', BitVec.getLsbD_or, bit_fld, bit_flag]
  interval_cases i <;> simp

theorem vmod_bk (o : VOp) : (vmodBits o).extractLsb' 8 2 = o.b.bk := by
  apply BitVec.eq_of_getLsbD_eq
  intro i hi
  simp only [vmodBits, BitVec.getLsbD_extractLsb', BitVec.getLsbD_or, bit_fld, bit_flag]
  interval_cases i <;> simp

theorem vmod_sat (o : VOp) : (vmodBits o).getLsbD 7 = o.sat := by
  simp only [vmodBits, BitVec.getLsbD_or, bit_fld, bit_flag]
  simp

theorem vmod_x (o : VOp) : (vmodBits o).getLsbD 10 = o.x := by
  simp only [vmodBits, BitVec.getLsbD_or, bit_fld, bit_flag]
  simp


/-- The operands of a format-R vector word read back (R61). -/
theorem parseV_vWord (op : BitVec 7) (fn : BitVec 8) (o : VOp) : parseV (vWord op fn o) = some o := by
  simp only [parseV, vWord, rWord_mod, vmod_et, vmod_rm, vmod_bk, vmod_sat, vmod_x, ofCode_et, ofCode_rm, ofCode_b, rWord_b, rWord_q, rWord_pn, rWord_pi, rWord_d, rWord_a, rWord_c, Option.bind_eq_bind, Option.bind_some, Option.pure_def]

theorem op_vWord (op : BitVec 7) (fn : BitVec 8) (o : VOp) : Fld.op (vWord op fn o) = op := rWord_op ..

theorem fn_vWord (op : BitVec 7) (fn : BitVec 8) (o : VOp) : Fld.fn (vWord op fn o) = fn := rWord_fn ..

theorem imm6_field (x : BitVec 6) : (fld 0 x : BitVec 12).extractLsb' 0 6 = x := by
  apply BitVec.eq_of_getLsbD_eq
  intro i hi
  simp only [BitVec.getLsbD_extractLsb', BitVec.getLsbD_or, bit_fld, bit_flag]
  interval_cases i <;> simp

theorem imm8_field (x : BitVec 8) : (fld 0 x : BitVec 12).extractLsb' 0 8 = x := by
  apply BitVec.eq_of_getLsbD_eq
  intro i hi
  simp only [BitVec.getLsbD_extractLsb', BitVec.getLsbD_or, bit_fld, bit_flag]
  interval_cases i <;> simp

theorem imm4_field (x : BitVec 4) : (fld 0 x : BitVec 12).extractLsb' 0 4 = x := by
  apply BitVec.eq_of_getLsbD_eq
  intro i hi
  simp only [BitVec.getLsbD_extractLsb', BitVec.getLsbD_or, bit_fld, bit_flag]
  interval_cases i <;> simp

theorem imm3_field (x : BitVec 3) : (fld 0 x : BitVec 12).extractLsb' 0 3 = x := by
  apply BitVec.eq_of_getLsbD_eq
  intro i hi
  simp only [BitVec.getLsbD_extractLsb', BitVec.getLsbD_or, bit_fld, bit_flag]
  interval_cases i <;> simp

theorem imm2_field (x : BitVec 2) : (fld 0 x : BitVec 12).extractLsb' 0 2 = x := by
  apply BitVec.eq_of_getLsbD_eq
  intro i hi
  simp only [BitVec.getLsbD_extractLsb', BitVec.getLsbD_or, bit_fld, bit_flag]
  interval_cases i <;> simp

theorem x2_field (x : BitVec 2) : (fld 0 x : BitVec 13).extractLsb' 0 2 = x := by
  apply BitVec.eq_of_getLsbD_eq
  intro i hi
  simp only [BitVec.getLsbD_extractLsb', BitVec.getLsbD_or, bit_fld, bit_flag]
  interval_cases i <;> simp

theorem x4_field (x : BitVec 4) : (fld 0 x : BitVec 13).extractLsb' 0 4 = x := by
  apply BitVec.eq_of_getLsbD_eq
  intro i hi
  simp only [BitVec.getLsbD_extractLsb', BitVec.getLsbD_or, bit_fld, bit_flag]
  interval_cases i <;> simp

theorem x6_field (x : BitVec 6) : (fld 0 x : BitVec 13).extractLsb' 0 6 = x := by
  apply BitVec.eq_of_getLsbD_eq
  intro i hi
  simp only [BitVec.getLsbD_extractLsb', BitVec.getLsbD_or, bit_fld, bit_flag]
  interval_cases i <;> simp

theorem imm16_field (x : BitVec 16) : (fld 0 x : BitVec 36).extractLsb' 0 16 = x := by
  apply BitVec.eq_of_getLsbD_eq
  intro i hi
  simp only [BitVec.getLsbD_extractLsb', BitVec.getLsbD_or, bit_fld, bit_flag]
  interval_cases i <;> simp

theorem imm32_field (x : BitVec 32) : (fld 0 x : BitVec 36).extractLsb' 0 32 = x := by
  apply BitVec.eq_of_getLsbD_eq
  intro i hi
  simp only [BitVec.getLsbD_extractLsb', BitVec.getLsbD_or, bit_fld, bit_flag]
  interval_cases i <;> simp

theorem qplane_planes (x y : BitVec 4) : (fld 4 x ||| fld 0 y : BitVec 13).extractLsb' 0 4 = y := by
  apply BitVec.eq_of_getLsbD_eq
  intro i hi
  simp only [BitVec.getLsbD_extractLsb', BitVec.getLsbD_or, bit_fld, bit_flag]
  interval_cases i <;> simp

theorem qplane_et (x y : BitVec 4) : (fld 4 x ||| fld 0 y : BitVec 13).extractLsb' 4 4 = x := by
  apply BitVec.eq_of_getLsbD_eq
  intro i hi
  simp only [BitVec.getLsbD_extractLsb', BitVec.getLsbD_or, bit_fld, bit_flag]
  interval_cases i <;> simp

theorem mma_pa (c : Bool) (x y : BitVec 4) : (flag 8 c ||| fld 4 x ||| fld 0 y : BitVec 13).extractLsb' 0 4 = y := by
  apply BitVec.eq_of_getLsbD_eq
  intro i hi
  simp only [BitVec.getLsbD_extractLsb', BitVec.getLsbD_or, bit_fld, bit_flag]
  interval_cases i <;> simp

theorem mma_pb (c : Bool) (x y : BitVec 4) : (flag 8 c ||| fld 4 x ||| fld 0 y : BitVec 13).extractLsb' 4 4 = x := by
  apply BitVec.eq_of_getLsbD_eq
  intro i hi
  simp only [BitVec.getLsbD_extractLsb', BitVec.getLsbD_or, bit_fld, bit_flag]
  interval_cases i <;> simp

theorem mrd_rowbyte (c : Bool) (y : BitVec 8) : (flag 8 c ||| fld 0 y : BitVec 13).extractLsb' 0 8 = y := by
  apply BitVec.eq_of_getLsbD_eq
  intro i hi
  simp only [BitVec.getLsbD_extractLsb', BitVec.getLsbD_or, bit_fld, bit_flag]
  interval_cases i <;> simp

theorem mem_size (c d : Bool) (x : BitVec 2) (y : BitVec 4) : (flag 7 c ||| flag 6 d ||| fld 4 x ||| fld 0 y : BitVec 8).extractLsb' 0 4 = y := by
  apply BitVec.eq_of_getLsbD_eq
  intro i hi
  simp only [BitVec.getLsbD_extractLsb', BitVec.getLsbD_or, bit_fld, bit_flag]
  interval_cases i <;> simp

theorem mem_scale (c d : Bool) (x : BitVec 2) (y : BitVec 4) : (flag 7 c ||| flag 6 d ||| fld 4 x ||| fld 0 y : BitVec 8).extractLsb' 4 2 = x := by
  apply BitVec.eq_of_getLsbD_eq
  intro i hi
  simp only [BitVec.getLsbD_extractLsb', BitVec.getLsbD_or, bit_fld, bit_flag]
  interval_cases i <;> simp

theorem atom_op (c d e f : Bool) (y : BitVec 4) : (flag 7 c ||| flag 6 d ||| flag 5 e ||| flag 4 f ||| fld 0 y : BitVec 8).extractLsb' 0 4 = y := by
  apply BitVec.eq_of_getLsbD_eq
  intro i hi
  simp only [BitVec.getLsbD_extractLsb', BitVec.getLsbD_or, bit_fld, bit_flag]
  interval_cases i <;> simp

theorem fence_kind (c d : Bool) (y : BitVec 2) : (flag 6 c ||| flag 4 d ||| fld 0 y : BitVec 8).extractLsb' 0 2 = y := by
  apply BitVec.eq_of_getLsbD_eq
  intro i hi
  simp only [BitVec.getLsbD_extractLsb', BitVec.getLsbD_or, bit_fld, bit_flag]
  interval_cases i <;> simp

theorem vcvt_dst (y : BitVec 4) : (fld 0 y : BitVec 8).extractLsb' 0 4 = y := by
  apply BitVec.eq_of_getLsbD_eq
  intro i hi
  simp only [BitVec.getLsbD_extractLsb', BitVec.getLsbD_or, bit_fld, bit_flag]
  interval_cases i <;> simp

theorem vcvt_zero (y : BitVec 4) : (fld 0 y : BitVec 8).extractLsb' 4 4 = 0 := by
  apply BitVec.eq_of_getLsbD_eq
  intro i hi
  simp only [BitVec.getLsbD_extractLsb', BitVec.getLsbD_or, bit_fld, bit_flag]
  interval_cases i <;> simp

theorem vcvt_src (c d : Bool) (x : BitVec 3) (y : BitVec 4) : (flag 10 c ||| flag 7 d ||| fld 4 x ||| fld 0 y : BitVec 12).extractLsb' 0 4 = y := by
  apply BitVec.eq_of_getLsbD_eq
  intro i hi
  simp only [BitVec.getLsbD_extractLsb', BitVec.getLsbD_or, bit_fld, bit_flag]
  interval_cases i <;> simp

theorem vcvt_rm (c d : Bool) (x : BitVec 3) (y : BitVec 4) : (flag 10 c ||| flag 7 d ||| fld 4 x ||| fld 0 y : BitVec 12).extractLsb' 4 3 = x := by
  apply BitVec.eq_of_getLsbD_eq
  intro i hi
  simp only [BitVec.getLsbD_extractLsb', BitVec.getLsbD_or, bit_fld, bit_flag]
  interval_cases i <;> simp

theorem qnt_narrow (d : Bool) (x : BitVec 3) (y : BitVec 4) : (flag 7 d ||| fld 4 x ||| fld 0 y : BitVec 12).extractLsb' 0 4 = y := by
  apply BitVec.eq_of_getLsbD_eq
  intro i hi
  simp only [BitVec.getLsbD_extractLsb', BitVec.getLsbD_or, bit_fld, bit_flag]
  interval_cases i <;> simp

theorem qnt_rm (d : Bool) (x : BitVec 3) (y : BitVec 4) : (flag 7 d ||| fld 4 x ||| fld 0 y : BitVec 12).extractLsb' 4 3 = x := by
  apply BitVec.eq_of_getLsbD_eq
  intro i hi
  simp only [BitVec.getLsbD_extractLsb', BitVec.getLsbD_or, bit_fld, bit_flag]
  interval_cases i <;> simp

theorem qnt_bs (d : Bool) (y : BitVec 3) : (flag 3 d ||| fld 0 y : BitVec 8).extractLsb' 0 3 = y := by
  apply BitVec.eq_of_getLsbD_eq
  intro i hi
  simp only [BitVec.getLsbD_extractLsb', BitVec.getLsbD_or, bit_fld, bit_flag]
  interval_cases i <;> simp

theorem qnt_zero (d : Bool) (y : BitVec 3) : (flag 3 d ||| fld 0 y : BitVec 8).extractLsb' 4 4 = 0 := by
  apply BitVec.eq_of_getLsbD_eq
  intro i hi
  simp only [BitVec.getLsbD_extractLsb', BitVec.getLsbD_or, bit_fld, bit_flag]
  interval_cases i <;> simp

theorem flag12 (c : Bool) : (flag 0 c : BitVec 12).getLsbD 0 = c := by
  simp only [BitVec.getLsbD_or, bit_fld, bit_flag]
  simp

theorem flag8 (c : Bool) : (flag 0 c : BitVec 8).getLsbD 0 = c := by
  simp only [BitVec.getLsbD_or, bit_fld, bit_flag]
  simp

theorem flag13 (c : Bool) : (flag 0 c : BitVec 13).getLsbD 0 = c := by
  simp only [BitVec.getLsbD_or, bit_fld, bit_flag]
  simp

theorem mma_acc (c : Bool) (x y : BitVec 4) : (flag 8 c ||| fld 4 x ||| fld 0 y : BitVec 13).getLsbD 8 = c := by
  simp only [BitVec.getLsbD_or, bit_fld, bit_flag]
  simp

theorem mrd_fp32 (c : Bool) (y : BitVec 8) : (flag 8 c ||| fld 0 y : BitVec 13).getLsbD 8 = c := by
  simp only [BitVec.getLsbD_or, bit_fld, bit_flag]
  simp

theorem mem_bk (c d : Bool) (x : BitVec 2) (y : BitVec 4) : (flag 7 c ||| flag 6 d ||| fld 4 x ||| fld 0 y : BitVec 8).getLsbD 6 = d := by
  simp only [BitVec.getLsbD_or, bit_fld, bit_flag]
  simp

theorem mem_ik (c d : Bool) (x : BitVec 2) (y : BitVec 4) : (flag 7 c ||| flag 6 d ||| fld 4 x ||| fld 0 y : BitVec 8).getLsbD 7 = c := by
  simp only [BitVec.getLsbD_or, bit_fld, bit_flag]
  simp

theorem atom_w64 (c d e f : Bool) (y : BitVec 4) : (flag 7 c ||| flag 6 d ||| flag 5 e ||| flag 4 f ||| fld 0 y : BitVec 8).getLsbD 4 = f := by
  simp only [BitVec.getLsbD_or, bit_fld, bit_flag]
  simp

theorem atom_ret (c d e f : Bool) (y : BitVec 4) : (flag 7 c ||| flag 6 d ||| flag 5 e ||| flag 4 f ||| fld 0 y : BitVec 8).getLsbD 5 = e := by
  simp only [BitVec.getLsbD_or, bit_fld, bit_flag]
  simp

theorem atom_bk (c d e f : Bool) (y : BitVec 4) : (flag 7 c ||| flag 6 d ||| flag 5 e ||| flag 4 f ||| fld 0 y : BitVec 8).getLsbD 6 = d := by
  simp only [BitVec.getLsbD_or, bit_fld, bit_flag]
  simp

theorem atom_ik (c d e f : Bool) (y : BitVec 4) : (flag 7 c ||| flag 6 d ||| flag 5 e ||| flag 4 f ||| fld 0 y : BitVec 8).getLsbD 7 = c := by
  simp only [BitVec.getLsbD_or, bit_fld, bit_flag]
  simp

theorem fence_line (c d : Bool) (y : BitVec 2) : (flag 6 c ||| flag 4 d ||| fld 0 y : BitVec 8).getLsbD 4 = d := by
  simp only [BitVec.getLsbD_or, bit_fld, bit_flag]
  simp

theorem fence_bk (c d : Bool) (y : BitVec 2) : (flag 6 c ||| flag 4 d ||| fld 0 y : BitVec 8).getLsbD 6 = c := by
  simp only [BitVec.getLsbD_or, bit_fld, bit_flag]
  simp

theorem cache_inv (c d e : Bool) : (flag 6 c ||| flag 1 d ||| flag 0 e : BitVec 8).getLsbD 0 = e := by
  simp only [BitVec.getLsbD_or, bit_fld, bit_flag]
  simp

theorem cache_all (c d e : Bool) : (flag 6 c ||| flag 1 d ||| flag 0 e : BitVec 8).getLsbD 1 = d := by
  simp only [BitVec.getLsbD_or, bit_fld, bit_flag]
  simp

theorem cache_bk (c d e : Bool) : (flag 6 c ||| flag 1 d ||| flag 0 e : BitVec 8).getLsbD 6 = c := by
  simp only [BitVec.getLsbD_or, bit_fld, bit_flag]
  simp

theorem vcvt_sat (c d : Bool) (x : BitVec 3) (y : BitVec 4) : (flag 10 c ||| flag 7 d ||| fld 4 x ||| fld 0 y : BitVec 12).getLsbD 7 = d := by
  simp only [BitVec.getLsbD_or, bit_fld, bit_flag]
  simp

theorem vcvt_x (c d : Bool) (x : BitVec 3) (y : BitVec 4) : (flag 10 c ||| flag 7 d ||| fld 4 x ||| fld 0 y : BitVec 12).getLsbD 10 = c := by
  simp only [BitVec.getLsbD_or, bit_fld, bit_flag]
  simp

theorem qnt_sat (d : Bool) (x : BitVec 3) (y : BitVec 4) : (flag 7 d ||| fld 4 x ||| fld 0 y : BitVec 12).getLsbD 7 = d := by
  simp only [BitVec.getLsbD_or, bit_fld, bit_flag]
  simp

theorem qnt_dq (d : Bool) (y : BitVec 3) : (flag 3 d ||| fld 0 y : BitVec 8).getLsbD 3 = d := by
  simp only [BitVec.getLsbD_or, bit_fld, bit_flag]
  simp


theorem parseSb_eq (o : SSrc) (w : Word) (h : (Fld.mod w) = o.mod) (g : Fld.b w = o.field) : parseSb w = o := by
  cases o <;> simp [parseSb, h, g, SSrc.mod, SSrc.field]

end Sys2Proof
end

