-- ==== Sys2Proof/Laws/Translate.lean ====
section
/-! SUPPORT. Walks give the addresses of one 64 KiB page the same leaves (10 R303, R304). -/

namespace Sys2Proof.Machine

/-- A leaf's page holds whole 64 KiB frames. -/
theorem pageBytes_frames (n : Nat) : ∃ k, 0 < k ∧ pageBytes n = 65536 * k := by
  match n with
  | 0 => exact ⟨1, by decide, rfl⟩
  | 1 => exact ⟨32, by decide, rfl⟩
  | 2 => exact ⟨1024, by decide, rfl⟩
  | 3 => exact ⟨32768, by decide, rfl⟩
  | _ + 4 => exact ⟨524288, by decide, rfl⟩

/-- The index of a level depends on the page alone. -/
theorem tableIndex_page (stage level a b : Nat) (h : a / 65536 = b / 65536) : tableIndex stage level a = tableIndex stage level b := by
  have h1 : a / 2 ^ 42 = b / 2 ^ 42 := by omega
  have h2 : a / 2 ^ 29 = b / 2 ^ 29 := by omega
  have h3 : a / 2 ^ 16 = b / 2 ^ 16 := by omega
  unfold tableIndex bits
  split <;> simp only [Nat.shiftRight_eq_div_pow, h1, h2, h3]

/-- A walk gives one leaf to all addresses of a page. -/
theorem walkFrom_page (s : State) (stage : Nat) (reach : Nat → Except WalkErr Nat) (a b : Nat) (h : a / 65536 = b / 65536) :
    ∀ fuel level table, walkFrom s stage reach a fuel level table = walkFrom s stage reach b fuel level table := by
  intro fuel
  induction fuel with
  | zero => intro level table; rfl
  | succ n ih => intro level table; simp only [walkFrom, tableIndex_page stage level a b h, ih]

theorem walk2_page (s : State) (root a b : Nat) (h : a / 65536 = b / 65536) : s.walk2 root a = s.walk2 root b := by
  simp only [State.walk2, walkFrom_page s 2 .ok a b h]

/-- The output of a leaf keeps the place in the frame. -/
theorem leafOut_page (e a b : Nat) (h : a / 65536 = b / 65536) :
    leafOut e a = leafOut e b / 65536 * 65536 + a % 65536 ∧ leafOut e a / 65536 = leafOut e b / 65536 := by
  obtain ⟨k, hk, hp⟩ := pageBytes_frames (bits e 4 2)
  have mods (x : Nat) : x % (65536 * k) = 65536 * (x / 65536 % k) + x % 65536 := by
    rw [Nat.mod_mul]; omega
  unfold leafOut oaOf
  rw [hp, mods a, mods b, h]
  have e1 : (2 : Nat) ^ 16 = 65536 := rfl
  omega

/-- The device of an address depends on its frame alone. -/
theorem devOf_page (a b : Nat) (h : a / 65536 = b / 65536) : devOf a = devOf b := by
  have : a >>> 40 = b >>> 40 := by rw [Nat.shiftRight_eq_div_pow, Nat.shiftRight_eq_div_pow]; omega
  unfold devOf bits
  rw [this]

/-- The place in a peer's frame. -/
theorem peer_place (d f a b p : Nat) (e : d * 2 ^ 40 + f % 2 ^ 24 * 65536 + b % 65536 = p) :
    d * 2 ^ 40 + f % 2 ^ 24 * 65536 + a % 65536 = p / 65536 * 65536 + a % 65536 := by omega

/-- What stands behind a stage-2 output keeps the place in the frame too: local memory, or the frame that a peer's home gives. -/
theorem homePa_page (s : State) (asid : BitVec 16) (a b x y p : Nat) (h : a / 65536 = b / 65536)
    (hx : x = y / 65536 * 65536 + a % 65536) (hy : y % 65536 = b % 65536) (hp : s.homePa asid b y = .ok p) :
    s.homePa asid a x = .ok (p / 65536 * 65536 + a % 65536) := by
  have hd : devOf x = devOf y := devOf_page x y (by omega)
  have hi : s.isPeer x = s.isPeer y := by unfold State.isPeer; rw [hd]
  unfold State.homePa at hp ⊢
  rw [hi, hd, h]
  cases hq : s.isPeer y with
  | false =>
    simp only [hq, Bool.not_false, if_true] at hp ⊢
    injection hp with e
    rw [← e, hx]
  | true =>
    simp only [hq, Bool.not_true, Bool.false_eq_true, if_false] at hp ⊢
    cases hc : Config.peerFrame s.fab.peerEpoch (devOf y) asid.toNat (b / 65536) with
    | none => simp only [hc] at hp; cases hp
    | some f =>
      simp only [hc] at hp ⊢
      injection hp with e
      rw [peer_place _ _ a _ _ e]

/-- The physical addresses of a page's bytes lie in one frame, at the bytes' own places. -/
theorem vaPa_page (s : State) (c a b p : Nat) (h : a / 65536 = b / 65536) (hp : s.vaPa c b = some p) :
    s.vaPa c a = some (p / 65536 * 65536 + a % 65536) := by
  unfold State.vaPa at hp ⊢
  by_cases hb : 2 ^ 56 ≤ b
  · rw [if_pos hb] at hp; cases hp
  · have ha : ¬2 ^ 56 ≤ a := by omega
    simp only [hb, ha, if_false, State.walk] at hp ⊢
    cases hr : (s.ctx c).s1root with
    | none => simp [hr] at hp
    | some root =>
      simp only [hr, walkFrom_page s 1 _ a b h] at hp ⊢
      cases hw : walkFrom s 1 (s.xlate2 (s.ctx c).s2root) b 3 1 root with
      | error x => simp [hw] at hp
      | ok e1 =>
        have l1 := leafOut_page e1 a b h
        have l1' := leafOut_page e1 b b rfl
        simp only [hw, walk2_page s (s.ctx c).s2root _ _ l1.2] at hp ⊢
        cases h2 : s.walk2 (s.ctx c).s2root (leafOut e1 b) with
        | error x => simp [h2] at hp
        | ok e2 =>
          have l2 := leafOut_page e2 _ _ l1.2
          have l2' := leafOut_page e2 (leafOut e1 b) (leafOut e1 b) rfl
          simp only [h2] at hp ⊢
          generalize hy : leafOut e2 (leafOut e1 b) % 2 ^ 42 = y at hp
          generalize hx : leafOut e2 (leafOut e1 a) % 2 ^ 42 = x
          cases h3 : s.homePa (s.ctx c).asid b y with
          | error x => rw [h3] at hp; cases hp
          | ok q =>
            rw [h3] at hp
            change some q = some p at hp
            rw [Option.some.injEq] at hp
            rw [homePa_page s _ a b x y q h (by omega) (by omega) h3, hp]
            rfl

/-- A range within one page has the addresses that follow its first byte's. -/
theorem vaRange_page (s : State) (c : Nat) : ∀ (n a p : Nat), a % 65536 + n ≤ 65536 → s.vaPa c a = some p →
    s.vaRange c a n = some ((List.range n).map (p + ·)) := by
  intro n
  induction n with
  | zero => intro a p _ _; rfl
  | succ n ih =>
    intro a p hn hp
    have self := vaPa_page s c a a p rfl hp
    rw [hp, Option.some.injEq] at self
    cases n with
    | zero => simp [State.vaRange, hp]
    | succ m =>
      have next := vaPa_page s c (a + 1) a p (by omega) hp
      have e : p / 65536 * 65536 + (a + 1) % 65536 = p + 1 := by omega
      rw [e] at next
      rw [State.vaRange, hp, ih (a + 1) (p + 1) (by omega) next]
      simp only [List.range_succ_eq_map (n := m + 1), List.map_cons, List.map_map, Nat.add_zero]
      congr 2
      apply List.map_congr_left
      intro x _
      simp only [Function.comp]; omega

end Sys2Proof.Machine
end

