-- ==== Sys2Proof/Tests/Slice0.lean ====
section
/-! SUPPORT. Small tests: terms that no word encodes, words of the spec's encodings, one-step results with values from the
spec's tables and examples, and, for every statement with hypotheses, states and operands that meet them. -/

set_option Elab.async false

namespace Sys2Proof.Tests

open Sys2Proof.Machine Sys2Proof.Safety Sys2Proof.Rules

/-! ### Terms that are not well formed, one for each check -/

/-- A plain vector operation to change in one field: V4, V1, V2 at i32x2 (R47). -/
def vop : VOp := ⟨false, false, 0, 4, 1, .v 2, 0, .i32x2, .rn, false, false⟩

/-- A plain memory access: D 4, base S3, index 0, 64 bits (R50). -/
def memop : MemF := ⟨false, false, 0, 4, 3, 0, 0, .wave, 0, .b64, 0, true, true, 0⟩

/-- A plain atomic: add, 64 bits, device scope, with the old value returned (R64). -/
def atomop : AtomF := ⟨false, false, 0, 4, 3, 2, 0, .device, 0, .add, true, true, true, 0⟩

theorem test_wf_plain : wellFormed (.vadd vop) = true ∧ wellFormed (.vld memop) = true ∧ wellFormed (.vatom atomop) = true := by decide

/-- R56: an empty mask is reserved, and an instruction that acts once per wave takes no predicate. -/
theorem test_wf_predicate : wellFormed (.vadd { vop with pn := true }) = false ∧ wellFormed (.ldS { memop with pi := 1 }) = false
    ∧ wellFormed (.vmovi ⟨false, true, 0, 1, 0⟩) = false ∧ wellFormed (.emit ⟨false, true, 0, 1, 2, 3, 0, 0⟩) = false := by decide

/-- R144, R146, R148: the element type, RM, SAT and mod[10] that a row does not take. -/
theorem test_wf_vector_fields : wellFormed (.vadd { vop with et := .f32x2 }) = false ∧ wellFormed (.vfadd vop) = false
    ∧ wellFormed (.vadd { vop with rm := .rz }) = false ∧ wellFormed (.vmin { vop with sat := true }) = false
    ∧ wellFormed (.vadd { vop with x := true }) = false ∧ wellFormed (.vfadd { vop with et := .f32x2, rm := .rs }) = false := by decide

/-- R53, R62, R143: operand fields that a row does not use, and an immediate with a floating element type. -/
theorem test_wf_operands : wellFormed (.vadd { vop with c := 1 }) = false ∧ wellFormed (.vnot vop) = false
    ∧ wellFormed (.vmov { vop with a := 1 }) = false ∧ wellFormed (.vpack { vop with b := .s 2 }) = false
    ∧ wellFormed (.vfadd { vop with et := .f32x2, b := .imm 1 }) = false ∧ wellFormed (.vxshf vop) = false := by decide

/-- R117, R119, R151, R152, R157-R165: the values that single rows leave out. -/
theorem test_wf_rows : wellFormed (.ssext ⟨false, 1, 2, 0⟩) = false ∧ wellFormed (.smovi ⟨false, 1, 2, 0⟩) = false
    ∧ wellFormed (.saddpc ⟨false, 1, 2, 0⟩) = false ∧ wellFormed (.vcmp .un vop) = false
    ∧ wellFormed (.vxbfly { vop with b := .imm 17 }) = false ∧ wellFormed (.vxbfly { vop with b := .imm 0 }) = false
    ∧ wellFormed (.vxred .and { vop with et := .f32x2, b := .v 0 }) = false ∧ wellFormed (.vacs { vop with et := .i8x8 }) = false
    ∧ wellFormed (.vunpkl { vop with et := .i8x8, b := .v 0 }) = false ∧ wellFormed (.vabs { vop with et := .n8x8, b := .v 0 }) = false
    ∧ wellFormed (.vrndRaw { vop with b := .v 0 }) = false ∧ wellFormed (.icinv false .group) = false := by decide

/-- R154, R155: conversions between equal types, by more than a factor of two, with an unused source or half selector, with a
rounding mode between integers, and of a type that is not narrow. -/
theorem test_wf_conversions :
    wellFormed (.vcvt ⟨false, false, 0, 1, 2, 0, .i32x2, .i32x2, .rn, false, false⟩) = false
    ∧ wellFormed (.vcvt ⟨false, false, 0, 1, 2, 0, .i64, .i8x8, .rn, false, false⟩) = false
    ∧ wellFormed (.vcvt ⟨false, false, 0, 1, 2, 3, .f32x2, .i32x2, .rn, false, false⟩) = false
    ∧ wellFormed (.vcvt ⟨false, false, 0, 1, 2, 0, .f32x2, .i32x2, .rn, false, true⟩) = false
    ∧ wellFormed (.vcvt ⟨false, false, 0, 1, 2, 0, .n32x2, .i32x2, .rz, false, false⟩) = false
    ∧ wellFormed (.vqnt ⟨false, false, 0, 1, 2, 3, 0, .i16x4, .f32x2, .rn, false⟩) = false
    ∧ wellFormed (.vdqnt ⟨false, false, 0, 1, 2, 3, 0, .i8x8, .i32x2, .rn, false⟩) = false := by decide

/-- R50, R174, R177, R184: scopes where none or one is due, index kinds, a scratchpad access that is not plain, FADD of 64 bits,
CAS without RET. -/
theorem test_wf_memory : wellFormed (.vld { memop with scope := .device }) = false ∧ wellFormed (.lda memop) = false
    ∧ wellFormed (.ldS { memop with ik := false }) = false ∧ wellFormed (.vldx memop) = false
    ∧ wellFormed (.spld { memop with bk := false }) = false ∧ wellFormed (.spst { memop with hint := 1 }) = false
    ∧ wellFormed (.vatom { atomop with scope := .wave }) = false ∧ wellFormed (.vatom { atomop with op := .fadd }) = false
    ∧ wellFormed (.vatom { atomop with op := .cas, ret := false }) = false ∧ wellFormed (.satom { atomop with pi := 2 }) = false
    ∧ wellFormed (.fence ⟨false, .rel, false, true, 0, 0, .device, 0⟩) = false
    ∧ wellFormed (.fence ⟨false, .rel, false, false, 0, 0, .wave, 0⟩) = false
    ∧ wellFormed (.clean ⟨false, true, false, 1, 0, .device, 0⟩) = false := by decide

/-- R209, R221, R233: plane counts outside 2 to 8, the element type of QPLANE, an empty CFENCE. -/
theorem test_wf_engines : wellFormed (.mmaBp ⟨false, 0, 4, 5, 6, 0, 1, 8, false⟩) = false
    ∧ wellFormed (.mmaBp ⟨false, 0, 4, 5, 6, 0, 8, 9, false⟩) = false
    ∧ wellFormed (.qplane ⟨false, 1, 2, 0, 9, .i8x8⟩) = false ∧ wellFormed (.qplane ⟨false, 1, 2, 0, 8, .f32x2⟩) = false
    ∧ wellFormed (.cfence false 0) = false := by decide


/-! ### Words of every instruction, their fields placed by R47-R52 with the codes of R51, R61, R63 and R64 -/

theorem test_decode_control : [
    (0x0100000000000000, Instr.nop false),
    (0x810000000000105A, Instr.bkpt true 0x5A),
    (0x0100000000002000, Instr.exitw false),
    (0x0100000000003000, Instr.tret false),
    (0x020000000000BEEF, Instr.trap false 0xBEEF),
    (0x0300511000000001, Instr.srd ⟨false, true, 5, 0x11⟩),
    (0x0402009000000000, Instr.swr ⟨false, 0x20, 9⟩),
    (0x0500703000000001, Instr.perfrd ⟨false, 7, 3, true⟩),
    (0x06000000FFFFFFFF, Instr.bra false (-1)),
    (0x0704006000000002, Instr.brc false .gtz 6 2),
    (0x08030020FFFFFFFB, Instr.brv false .nall 2 (-5)),
    (0x0900000000012345, Instr.call false 0x12345),
    (0x0A0003E000000000, Instr.ret false 62),
    (0x0A00005000001000, Instr.jmpi false 5),
    (0x0B00003000000000, Instr.xmovExecP false 3),
    (0x0B00203000001001, Instr.xand false 2 3 true),
    (0x0B00004000002000, Instr.xjoin false 4),
    (0x0B00600000003000, Instr.xmovPExec false 6),
    (0x0C000000CAFE0123, Instr.sigchk false 0xCAFE0123),
    (0x0D0000000000FFFE, Instr.acorn false 0xFFFE),
    (0x0E00000000000002, Instr.icinv false .cluster)
    ].all (fun e => decodeWord e.1 == .ok e.2) = true := by decide +kernel

theorem test_decode_scalar : [
    (0x1000301020000000, Instr.sadd ⟨false, 3, 1, .r 2⟩),
    (0x1000301020001000, Instr.ssub ⟨false, 3, 1, .r 2⟩),
    (0x1000301020002000, Instr.sand ⟨false, 3, 1, .r 2⟩),
    (0x1000301020003000, Instr.sor ⟨false, 3, 1, .r 2⟩),
    (0x1000301020004000, Instr.sxor ⟨false, 3, 1, .r 2⟩),
    (0x1000301020005000, Instr.sandn ⟨false, 3, 1, .r 2⟩),
    (0x1000301020006000, Instr.sshl ⟨false, 3, 1, .r 2⟩),
    (0x1000301020007000, Instr.sshr ⟨false, 3, 1, .r 2⟩),
    (0x1000301020008000, Instr.ssar ⟨false, 3, 1, .r 2⟩),
    (0x1000301020009000, Instr.srot ⟨false, 3, 1, .r 2⟩),
    (0x100030102000A000, Instr.smin ⟨false, 3, 1, .r 2⟩),
    (0x100030102000B000, Instr.smax ⟨false, 3, 1, .r 2⟩),
    (0x100030102000C000, Instr.sminu ⟨false, 3, 1, .r 2⟩),
    (0x100030102000D000, Instr.smaxu ⟨false, 3, 1, .r 2⟩),
    (0x100030102000E000, Instr.sslt ⟨false, 3, 1, .r 2⟩),
    (0x100030102000F000, Instr.ssltu ⟨false, 3, 1, .r 2⟩),
    (0x1000301020010000, Instr.sseq ⟨false, 3, 1, .r 2⟩),
    (0x1100301C80000800, Instr.smul ⟨false, 3, 1, .imm 200⟩),
    (0x1100301C80001800, Instr.smulh ⟨false, 3, 1, .imm 200⟩),
    (0x1100301C80002800, Instr.smulhu ⟨false, 3, 1, .imm 200⟩),
    (0x1100301C80003800, Instr.sdiv ⟨false, 3, 1, .imm 200⟩),
    (0x1100301C80004800, Instr.sdivu ⟨false, 3, 1, .imm 200⟩),
    (0x1100301C80005800, Instr.srem ⟨false, 3, 1, .imm 200⟩),
    (0x1100301C80006800, Instr.sremu ⟨false, 3, 1, .imm 200⟩),
    (0x1100301020407000, Instr.smad ⟨false, 3, 1, .r 2, 4⟩),
    (0x1203F01000000000, Instr.sclz ⟨false, 63, 1⟩),
    (0x1203F01000001000, Instr.sctz ⟨false, 63, 1⟩),
    (0x1203F01000002000, Instr.spopc ⟨false, 63, 1⟩),
    (0x1203F01000003000, Instr.sbrev ⟨false, 63, 1⟩),
    (0x120030100000403F, Instr.ssext ⟨false, 3, 1, 63⟩),
    (0x1200301000005001, Instr.szext ⟨false, 3, 1, 1⟩),
    (0x1200301020006021, Instr.sbfx ⟨false, 3, 1, 2, 33⟩),
    (0x1200301020007008, Instr.sbfi ⟨false, 3, 1, 2, 8⟩),
    (0x1300301020400000, Instr.ssel ⟨false, 3, 1, 2, 4⟩),
    (0x1400301020000005, Instr.slea ⟨false, 3, 1, 2, 5⟩),
    (0x1800507FFFFFFFFE, Instr.saddi ⟨false, 5, 7, -2⟩),
    (0x1900507FFFFFFFFE, Instr.sandi ⟨false, 5, 7, -2⟩),
    (0x1A00507FFFFFFFFE, Instr.sori ⟨false, 5, 7, -2⟩),
    (0x1B00507FFFFFFFFE, Instr.sxori ⟨false, 5, 7, -2⟩),
    (0x1C00500FFFFFFFFE, Instr.smovi ⟨false, 5, 0, -2⟩),
    (0x1D00507FFFFFFFFE, Instr.smovhi ⟨false, 5, 7, -2⟩),
    (0x1E00507FFFFFFFFE, Instr.sslti ⟨false, 5, 7, -2⟩),
    (0x1F00500FFFFFFFFE, Instr.saddpc ⟨false, 5, 0, -2⟩)
    ].all (fun e => decodeWord e.1 == .ok e.2) = true := by decide +kernel

theorem test_decode_vector_integer : [
    (0x3000401020000001, Instr.vadd ⟨false, false, 0, 4, 1, .v 2, 0, .i32x2, .rn, false, false⟩),
    (0x3000401020001001, Instr.vsub ⟨false, false, 0, 4, 1, .v 2, 0, .i32x2, .rn, false, false⟩),
    (0x3000401020002001, Instr.vmul ⟨false, false, 0, 4, 1, .v 2, 0, .i32x2, .rn, false, false⟩),
    (0x3000401020003001, Instr.vmulh ⟨false, false, 0, 4, 1, .v 2, 0, .i32x2, .rn, false, false⟩),
    (0x3000401020604001, Instr.vmad ⟨false, false, 0, 4, 1, .v 2, 6, .i32x2, .rn, false, false⟩),
    (0x3000401020005001, Instr.vmin ⟨false, false, 0, 4, 1, .v 2, 0, .i32x2, .rn, false, false⟩),
    (0x3000401020006001, Instr.vmax ⟨false, false, 0, 4, 1, .v 2, 0, .i32x2, .rn, false, false⟩),
    (0x3000401000007001, Instr.vabs ⟨false, false, 0, 4, 1, .v 0, 0, .i32x2, .rn, false, false⟩),
    (0x3000401000008001, Instr.vneg ⟨false, false, 0, 4, 1, .v 0, 0, .i32x2, .rn, false, false⟩),
    (0x3000401020009001, Instr.vabsd ⟨false, false, 0, 4, 1, .v 2, 0, .i32x2, .rn, false, false⟩),
    (0x300040102000A001, Instr.vavg ⟨false, false, 0, 4, 1, .v 2, 0, .i32x2, .rn, false, false⟩),
    (0x300040102000B001, Instr.vdiv ⟨false, false, 0, 4, 1, .v 2, 0, .i32x2, .rn, false, false⟩),
    (0x300040102000C001, Instr.vrem ⟨false, false, 0, 4, 1, .v 2, 0, .i32x2, .rn, false, false⟩),
    (0x3100401810000205, Instr.vand ⟨false, false, 0, 4, 1, .imm 0x81, 0, .n32x2, .rn, false, false⟩),
    (0x3100401810001205, Instr.vor ⟨false, false, 0, 4, 1, .imm 0x81, 0, .n32x2, .rn, false, false⟩),
    (0x3100401810002205, Instr.vxor ⟨false, false, 0, 4, 1, .imm 0x81, 0, .n32x2, .rn, false, false⟩),
    (0x3100401810003205, Instr.vandn ⟨false, false, 0, 4, 1, .imm 0x81, 0, .n32x2, .rn, false, false⟩),
    (0x3100401000004005, Instr.vnot ⟨false, false, 0, 4, 1, .v 0, 0, .n32x2, .rn, false, false⟩),
    (0x3100401810005205, Instr.vshl ⟨false, false, 0, 4, 1, .imm 0x81, 0, .n32x2, .rn, false, false⟩),
    (0x3100401810006205, Instr.vshr ⟨false, false, 0, 4, 1, .imm 0x81, 0, .n32x2, .rn, false, false⟩),
    (0x3100401810007205, Instr.vsar ⟨false, false, 0, 4, 1, .imm 0x81, 0, .n32x2, .rn, false, false⟩),
    (0x3100401810008205, Instr.vrot ⟨false, false, 0, 4, 1, .imm 0x81, 0, .n32x2, .rn, false, false⟩),
    (0x3100401000009005, Instr.vclz ⟨false, false, 0, 4, 1, .v 0, 0, .n32x2, .rn, false, false⟩),
    (0x310040100000A005, Instr.vpopc ⟨false, false, 0, 4, 1, .v 0, 0, .n32x2, .rn, false, false⟩)
    ].all (fun e => decodeWord e.1 == .ok e.2) = true := by decide +kernel

theorem test_decode_vector_floating : [
    (0x32004010200000B9, Instr.vfadd ⟨false, false, 0, 4, 1, .v 2, 0, .f16x4, .ru, true, false⟩),
    (0x32004010200010B9, Instr.vfsub ⟨false, false, 0, 4, 1, .v 2, 0, .f16x4, .ru, true, false⟩),
    (0x32004010200020B9, Instr.vfmul ⟨false, false, 0, 4, 1, .v 2, 0, .f16x4, .ru, true, false⟩),
    (0x32004010206030B9, Instr.vfma ⟨false, false, 0, 4, 1, .v 2, 6, .f16x4, .ru, true, false⟩),
    (0x32004010206040B9, Instr.vfms ⟨false, false, 0, 4, 1, .v 2, 6, .f16x4, .ru, true, false⟩),
    (0x3200401020005009, Instr.vfmin ⟨false, false, 0, 4, 1, .v 2, 0, .f16x4, .rn, false, false⟩),
    (0x3200401020006009, Instr.vfmax ⟨false, false, 0, 4, 1, .v 2, 0, .f16x4, .rn, false, false⟩),
    (0x3200401000007009, Instr.vfabs ⟨false, false, 0, 4, 1, .v 0, 0, .f16x4, .rn, false, false⟩),
    (0x3200401000008009, Instr.vfneg ⟨false, false, 0, 4, 1, .v 0, 0, .f16x4, .rn, false, false⟩),
    (0x32004010200090B9, Instr.vfdiv ⟨false, false, 0, 4, 1, .v 2, 0, .f16x4, .ru, true, false⟩),
    (0x3300401000000008, Instr.vrcp ⟨false, false, 0, 4, 1, .v 0, 0, .f32x2, .rn, false, false⟩),
    (0x3300401000001008, Instr.vrsq ⟨false, false, 0, 4, 1, .v 0, 0, .f32x2, .rn, false, false⟩),
    (0x3300401000002008, Instr.vsqrt ⟨false, false, 0, 4, 1, .v 0, 0, .f32x2, .rn, false, false⟩),
    (0x3300401000003008, Instr.vexp2 ⟨false, false, 0, 4, 1, .v 0, 0, .f32x2, .rn, false, false⟩),
    (0x3300401000004008, Instr.vlog2 ⟨false, false, 0, 4, 1, .v 0, 0, .f32x2, .rn, false, false⟩),
    (0x3300401000005008, Instr.vsin ⟨false, false, 0, 4, 1, .v 0, 0, .f32x2, .rn, false, false⟩),
    (0x3300401000006008, Instr.vcos ⟨false, false, 0, 4, 1, .v 0, 0, .f32x2, .rn, false, false⟩),
    (0x3300401000007008, Instr.vtanh ⟨false, false, 0, 4, 1, .v 0, 0, .f32x2, .rn, false, false⟩),
    (0x3300401000008008, Instr.vsigm ⟨false, false, 0, 4, 1, .v 0, 0, .f32x2, .rn, false, false⟩)
    ].all (fun e => decodeWord e.1 == .ok e.2) = true := by decide +kernel

theorem test_decode_vector_moves : [
    (0x3400301020000408, Instr.vcmp .eq ⟨false, false, 0, 3, 1, .v 2, 0, .f32x2, .rn, false, true⟩),
    (0x350040102000010A, Instr.vcmpm .eq ⟨false, false, 0, 4, 1, .s 2, 0, .bf16x4, .rn, false, false⟩),
    (0x3400301020001408, Instr.vcmp .ne ⟨false, false, 0, 3, 1, .v 2, 0, .f32x2, .rn, false, true⟩),
    (0x350040102000110A, Instr.vcmpm .ne ⟨false, false, 0, 4, 1, .s 2, 0, .bf16x4, .rn, false, false⟩),
    (0x3400301020002408, Instr.vcmp .lt ⟨false, false, 0, 3, 1, .v 2, 0, .f32x2, .rn, false, true⟩),
    (0x350040102000210A, Instr.vcmpm .lt ⟨false, false, 0, 4, 1, .s 2, 0, .bf16x4, .rn, false, false⟩),
    (0x3400301020003408, Instr.vcmp .le ⟨false, false, 0, 3, 1, .v 2, 0, .f32x2, .rn, false, true⟩),
    (0x350040102000310A, Instr.vcmpm .le ⟨false, false, 0, 4, 1, .s 2, 0, .bf16x4, .rn, false, false⟩),
    (0x3400301020004408, Instr.vcmp .gt ⟨false, false, 0, 3, 1, .v 2, 0, .f32x2, .rn, false, true⟩),
    (0x350040102000410A, Instr.vcmpm .gt ⟨false, false, 0, 4, 1, .s 2, 0, .bf16x4, .rn, false, false⟩),
    (0x3400301020005408, Instr.vcmp .ge ⟨false, false, 0, 3, 1, .v 2, 0, .f32x2, .rn, false, true⟩),
    (0x350040102000510A, Instr.vcmpm .ge ⟨false, false, 0, 4, 1, .s 2, 0, .bf16x4, .rn, false, false⟩),
    (0x3400301020006408, Instr.vcmp .un ⟨false, false, 0, 3, 1, .v 2, 0, .f32x2, .rn, false, true⟩),
    (0x350040102000610A, Instr.vcmpm .un ⟨false, false, 0, 4, 1, .s 2, 0, .bf16x4, .rn, false, false⟩),
    (0x360040102050000B, Instr.vsel ⟨false, false, 0, 4, 1, .v 2, 5, .e4m3x8, .rn, false, false⟩),
    (0x360040102060100D, Instr.vselm ⟨false, false, 0, 4, 1, .v 2, 6, .e2m1x16, .rn, false, false⟩),
    (0x3600401020002082, Instr.vpack ⟨false, false, 0, 4, 1, .v 2, 0, .i16x4, .rn, true, false⟩),
    (0x3600401000003402, Instr.vunpkl ⟨false, false, 0, 4, 1, .v 0, 0, .i16x4, .rn, false, true⟩),
    (0x3600401000004000, Instr.vunpkh ⟨false, false, 0, 4, 1, .v 0, 0, .i64, .rn, false, false⟩),
    (0x3600400020005100, Instr.vmov ⟨false, false, 0, 4, 0, .s 2, 0, .i64, .rn, false, false⟩),
    (0x4000400FFFFFFFF9, Instr.vmovi ⟨false, false, 0, 4, -7⟩),
    (0x370060405000A028, Instr.vcvt ⟨false, false, 0, 6, 4, 5, .bf16x4, .f32x2, .rd, false, false⟩),
    (0x380060402080508B, Instr.vqnt ⟨false, false, 0, 6, 4, 2, 5, .e4m3x8, .f32x2, .rn, true⟩),
    (0x380060402090B00D, Instr.vdqnt ⟨false, false, 0, 6, 4, 2, 3, .e2m1x16, .f16x4, .rn, false⟩),
    (0x3900401000000000, Instr.vrndRaw ⟨false, false, 0, 4, 1, .v 0, 0, .i64, .rn, false, false⟩),
    (0x3900401000001008, Instr.vrndUniform ⟨false, false, 0, 4, 1, .v 0, 0, .f32x2, .rn, false, false⟩)
    ].all (fun e => decodeWord e.1 == .ok e.2) = true := by decide +kernel

theorem test_decode_cross_lane : [
    (0x3A00401020500007, Instr.vxread ⟨false, false, 0, 4, 1, .v 2, 5, .n8x8, .rn, false, false⟩),
    (0x3A00401020501100, Instr.vxshf ⟨false, false, 0, 4, 1, .s 2, 5, .i64, .rn, false, false⟩),
    (0x3A00401100502208, Instr.vxbfly ⟨false, false, 0, 4, 1, .imm 16, 5, .f32x2, .rn, false, false⟩),
    (0x3A00902000003000, Instr.vballot ⟨false, false, 0, 9, 2⟩),
    (0x3A00401000010000, Instr.vxred .add ⟨false, false, 0, 4, 1, .v 0, 0, .i64, .rn, false, false⟩),
    (0x3A00401000020401, Instr.vxscan .add ⟨false, false, 0, 4, 1, .v 0, 0, .i32x2, .rn, false, true⟩),
    (0x3A00401000011000, Instr.vxred .min ⟨false, false, 0, 4, 1, .v 0, 0, .i64, .rn, false, false⟩),
    (0x3A00401000021401, Instr.vxscan .min ⟨false, false, 0, 4, 1, .v 0, 0, .i32x2, .rn, false, true⟩),
    (0x3A00401000012000, Instr.vxred .max ⟨false, false, 0, 4, 1, .v 0, 0, .i64, .rn, false, false⟩),
    (0x3A00401000022401, Instr.vxscan .max ⟨false, false, 0, 4, 1, .v 0, 0, .i32x2, .rn, false, true⟩),
    (0x3A00401000013000, Instr.vxred .and ⟨false, false, 0, 4, 1, .v 0, 0, .i64, .rn, false, false⟩),
    (0x3A00401000023401, Instr.vxscan .and ⟨false, false, 0, 4, 1, .v 0, 0, .i32x2, .rn, false, true⟩),
    (0x3A00401000014000, Instr.vxred .or ⟨false, false, 0, 4, 1, .v 0, 0, .i64, .rn, false, false⟩),
    (0x3A00401000024401, Instr.vxscan .or ⟨false, false, 0, 4, 1, .v 0, 0, .i32x2, .rn, false, true⟩),
    (0x3A00401000015000, Instr.vxred .xor ⟨false, false, 0, 4, 1, .v 0, 0, .i64, .rn, false, false⟩),
    (0x3A00401000025401, Instr.vxscan .xor ⟨false, false, 0, 4, 1, .v 0, 0, .i32x2, .rn, false, true⟩),
    (0x3B00401020600001, Instr.vacs ⟨false, false, 0, 4, 1, .v 2, 6, .i32x2, .rn, false, false⟩),
    (0x3C00401020600083, Instr.vdwc ⟨false, false, 0, 4, 1, .v 2, 6, .i8x8, .rn, true, false⟩),
    (0x3D0040102000000A, Instr.vwmax ⟨false, false, 0, 4, 1, .v 2, 0, .bf16x4, .rn, false, false⟩),
    (0x3D00401020001402, Instr.vwavg ⟨false, false, 0, 4, 1, .v 2, 0, .i16x4, .rn, false, true⟩)
    ].all (fun e => decodeWord e.1 == .ok e.2) = true := by decide +kernel

theorem test_decode_memory : [
    (0x600040302A1E5FFD, Instr.ldS ⟨false, false, 0, 4, 3, 2, 5, .wave, 1, .i16, 2, true, true, -3⟩),
    (0x610040302A1E5FFD, Instr.stS ⟨false, false, 0, 4, 3, 2, 5, .wave, 1, .i16, 2, true, true, -3⟩),
    (0x620040302A1E5FFD, Instr.vld ⟨false, false, 0, 4, 3, 2, 5, .wave, 1, .i16, 2, true, true, -3⟩),
    (0x630040302A1E5FFD, Instr.vst ⟨false, false, 0, 4, 3, 2, 5, .wave, 1, .i16, 2, true, true, -3⟩),
    (0x640040302A165FFD, Instr.vldx ⟨false, false, 0, 4, 3, 2, 5, .wave, 1, .i16, 2, true, false, -3⟩),
    (0x650040302A165FFD, Instr.vstx ⟨false, false, 0, 4, 3, 2, 5, .wave, 1, .i16, 2, true, false, -3⟩),
    (0x660040302A070007, Instr.spld ⟨false, false, 0, 4, 3, 2, 5, .wave, 0, .n8, 3, true, false, 7⟩),
    (0x670040302A070007, Instr.spst ⟨false, false, 0, 4, 3, 2, 5, .wave, 0, .n8, 3, true, false, 7⟩),
    (0x680040302AC82001, Instr.lda ⟨false, false, 0, 4, 3, 2, 5, .device, 0, .n32, 0, false, true, 1⟩),
    (0x690040302B082001, Instr.strel ⟨false, false, 0, 4, 3, 2, 5, .system, 0, .n32, 0, false, true, 1⟩),
    (0x6A00003004852FFF, Instr.fence ⟨false, .acqRel, true, true, 3, 2, .cluster, -1⟩),
    (0x6B00003004C40004, Instr.clean ⟨false, false, true, 3, 2, .device, 4⟩),
    (0x6B00000004403000, Instr.inval ⟨false, true, false, 0, 2, .group, 0⟩),
    (0x6C0050302C001000, Instr.wmap ⟨false, true, 5, 3, 2, 6⟩),
    (0x6D0040302A670FFF, Instr.vatom ⟨false, false, 0, 4, 3, 2, 5, .group, 2, .add, true, true, true, -1⟩),
    (0x6D0040302A671FFF, Instr.vatom ⟨false, false, 0, 4, 3, 2, 5, .group, 2, .min, true, true, true, -1⟩),
    (0x6D0040302A672FFF, Instr.vatom ⟨false, false, 0, 4, 3, 2, 5, .group, 2, .max, true, true, true, -1⟩),
    (0x6D0040302A673FFF, Instr.vatom ⟨false, false, 0, 4, 3, 2, 5, .group, 2, .minu, true, true, true, -1⟩),
    (0x6D0040302A674FFF, Instr.vatom ⟨false, false, 0, 4, 3, 2, 5, .group, 2, .maxu, true, true, true, -1⟩),
    (0x6D0040302A675FFF, Instr.vatom ⟨false, false, 0, 4, 3, 2, 5, .group, 2, .and, true, true, true, -1⟩),
    (0x6D0040302A676FFF, Instr.vatom ⟨false, false, 0, 4, 3, 2, 5, .group, 2, .or, true, true, true, -1⟩),
    (0x6D0040302A677FFF, Instr.vatom ⟨false, false, 0, 4, 3, 2, 5, .group, 2, .xor, true, true, true, -1⟩),
    (0x6D0040302A678FFF, Instr.vatom ⟨false, false, 0, 4, 3, 2, 5, .group, 2, .swap, true, true, true, -1⟩),
    (0x6D0040302A679FFF, Instr.vatom ⟨false, false, 0, 4, 3, 2, 5, .group, 2, .cas, true, true, true, -1⟩),
    (0x6D0040302A66AFFF, Instr.vatom ⟨false, false, 0, 4, 3, 2, 5, .group, 2, .fadd, false, true, true, -1⟩),
    (0x6D0040302B088000, Instr.satom ⟨false, false, 0, 4, 3, 2, 5, .system, 0, .swap, false, false, false, 0⟩)
    ].all (fun e => decodeWord e.1 == .ok e.2) = true := by decide +kernel

theorem test_decode_synchronisation : [
    (0x70000000FFFFFFFC, Instr.txbegin false (-4)),
    (0x7100500000000000, Instr.txend false 5),
    (0x7100005000001000, Instr.txabort false 5),
    (0x7200005000000003, Instr.gjoin false 5 3),
    (0xF200000000001000, Instr.gleave true),
    (0x7300605000000009, Instr.bopen false 6 5 9),
    (0x7300005000001000, Instr.bara false 5),
    (0x7300005000002000, Instr.barw false 5),
    (0x7400000000000020, Instr.vclaim false 32),
    (0x7400000000001001, Instr.vrels false 1)
    ].all (fun e => decodeWord e.1 == .ok e.2) = true := by decide +kernel

theorem test_decode_engines : [
    (0x7800104050604182, Instr.mmaBp ⟨false, 1, 4, 5, 6, 2, 2, 8, true⟩),
    (0x7900300000000000, Instr.mzero false 3),
    (0x7900802030C12180, Instr.mrd ⟨false, 8, 2, 3, 12, 1, 0x80, true⟩),
    (0x7900108030028000, Instr.mwr ⟨false, 1, 8, 3, 4⟩),
    (0x7900700000030000, Instr.mbatch false 7),
    (0x7900007000040000, Instr.mwait false 7),
    (0x7A00008030002025, Instr.qplane ⟨false, 8, 3, 1, 5, .i16x4⟩),
    (0x7A0070000001003F, Instr.amaxrd false 7 63),
    (0x7B00A0B000006002, Instr.tcopy ⟨false, 10, 11, 3, 2⟩),
    (0x7B00A0B000016002, Instr.tcopyw ⟨false, 10, 11, 3, 2⟩),
    (0x7B00A0B000026002, Instr.thash ⟨false, 10, 11, 3, 2⟩),
    (0x7B00000000030009, Instr.cfence false 9),
    (0x7B0000A000040000, Instr.cwait false 10),
    (0x7B0000A000051FFA, Instr.cyield false 10 (-6)),
    (0x7C40207100002003, Instr.emit ⟨false, false, 4, 2, 7, 16, 1, 3⟩),
    (0x7C90207100012000, Instr.emitc ⟨false, true, 1, 2, 7, 16, 1⟩),
    (0x7C0040600002E000, Instr.joindec ⟨false, false, 0, 4, 6, 7⟩),
    (0x7C00400000030001, Instr.piprd ⟨false, false, 0, 4, true⟩)
    ].all (fun e => decodeWord e.1 == .ok e.2) = true := by decide +kernel

/-- R60, R63: words of no instruction, and of none of the fields that an instruction defines. -/
theorem test_decode_refused : [0, 0x7F00000000000000, 0x1000301020011000, 0x0500703000001000].all (fun w => decodeWord w == .illegalOpcode) = true
    ∧ [0x1000301020001001, 0x0706005000000000, 0x3000401020000004, 0x6B00000000003001].all (fun w => decodeWord w == .reservedField) = true := by decide +kernel

/-! ### A small part of the device: one pair of clusters, a context, a launch, a group of two waves -/

/-- 32 lanes with the value of a function of the lane. -/
def lanesBy (f : Nat → Nat) : VReg := (List.range 32).map fun l => BitVec.ofNat 64 (f l)

/-- A wave before VA 0x10000 with the given member index and slot. -/
def demoWave (id : Nat) : Wave :=
  { pc := 0x10000, s := List.replicate 64 0, sbank := List.replicate 8 0, v := List.replicate 8 (lanesBy id.add), p := List.replicate 8 0
    waveid := id, slot := id }

/-- Clusters 0 and 1 with their cores, twins and copy queues; a context with a handler; a running launch; a group with scratchpad
0x1000-0x4FFF and the tiles of twin 0; a page of code and data at VA 0x10000 in frame 5 of every core. -/
def demo : State :=
  { waves := [demoWave 0, demoWave 1]
    groups := [{ grpid := 7, clusters := [0], spbase := 0x1000, spsize := 0x4000, windows := List.replicate 16 {}, twins := [(0, 0)] }]
    ctxs := [{ asid := 9, clusterMap := [0, 1], slacktab := slackDefaults, tvec := 0x20000, perf := List.replicate 8 {}
               slots := List.replicate 64 {}, huskMap := List.replicate 16 0 }]
    launches := [{ (default : Launch) with state := .running, ngroups := 1, nextGroup := 1, dispatched := 1 }]
    cores := List.replicate 8 { tlb := [placedPage 9 5] }
    twins := { Twin.reset with owner := some 0 } :: List.replicate 3 Twin.reset
    copies := List.replicate 8 {}
    jalti := { pairs := List.replicate 24 {}, points := List.replicate 4 3, command := List.replicate 8 0, response := List.replicate 8 0 }
    cp := { funcs := List.replicate 16 Func.reset }
    fab := { sketches := List.replicate 16 { top := List.replicate 32 none }, ports := List.replicate 3 {}, routes := List.replicate 4 0 }
    trace := { chain := zeros 64 }
    cc := 100
    cur := some 0 }

/-- A state with wave 0 changed. -/
def on (s : State) (f : Wave → Wave) : State := s.modWave 0 f

/-- A state with scalar registers of wave 0 written. -/
def withS (s : State) (l : List (Nat × Word)) : State := on s fun w => l.foldl (fun w e => w.writeS e.1 e.2) w

/-- A state with a vector register of wave 0 written. -/
def withV (s : State) (n : Nat) (x : VReg) : State := on s fun w => { w with v := w.v.set n x }

/-- A state with group 0 changed. -/
def inGroup (s : State) (f : Group → Group) : State := s.modGroup 0 f

/-- A state with context 0 changed. -/
def inCtx (s : State) (f : Context → Context) : State := s.modCtx 0 f

/-- Wave 0 in S-mode, in its handler. -/
def demoS : State := on demo fun w => { w with priv := .s, state := .handler, tpc := 0x10008, entryMask := 0xFF }

/-- Wave 0 with a load outstanding. -/
def demoPending : State := on demo fun w => { w with pending := [{ dst := .s 5, val := .s 77 }] }

/-- Wave 0 in a transaction that has loaded one byte. -/
def demoTxn : State := on demo fun w =>
  { w with txn := some { target := 0x10100, exec := 0xF, reads := [0x500], seen := [(0x50000, 0)], lines := [0x500], writes := [(0x50000, 1)] } }

/-- Page tables: VA 0x10000 is IPA 0x50000, and IPAs below 2 GiB are frames of their own (R303, R304). -/
def tables : List (Nat × Byte) :=
  [(0x100000, 3), (0x100002, 0x11), (0x110000, 0x6D), (0x110006, 1), (0x120000, 3), (0x120002, 0x13), (0x130000, 3), (0x130002, 0x14),
   (0x140008, 0xE1), (0x14000A, 5)]

/-- The context with these page tables. -/
def demoMapped : State := inCtx ({ demo with mem := { demo.mem with home := tables } } : State) fun c => { c with s1root := some 0x120000, s2root := 0x100000 }

/-- The deterministic launch, and the launch at IL1 and IL3. -/
def demoDet : State := inGroup demo fun g => { g with det := true }
def demoIl1 : State := inGroup demo fun g => { g with ilevel := 1 }
def demoIl3 : State := ({ inGroup demo (fun g => { g with ilevel := 3 }) with
  jalti := { demo.jalti with pairs := { mode := .checked } :: List.replicate 23 {} } } : State)

/-! What the statements suppose, as decidable conditions. -/

theorem issues_iff (s : State) (k : Nat) (i : Instr) : Issues s k i ↔ s.cur = some k ∧ k < s.waves.length ∧ s.canIssue k i = true
    ∧ (s.wave k).decodeCheck i = none ∧ (s.wave k).errsOf i = [] ∧ (s.wave k).shadow = [] ∧ ((s.wave k).txn.isSome && i.unsupported) = false
    ∧ (s.checked (s.wave k) && i.commitPoint ((s.wave k).priv == .s) (s.wave k).txn.isSome) = false :=
  ⟨fun h => ⟨h.cur, h.lt, h.can, h.decode, h.errs, h.shadow, h.txn, h.commit⟩, fun ⟨a, b, c, d, e, f, g, h⟩ => ⟨a, b, c, d, e, f, g, h⟩⟩

theorem mayEnter_iff (s : State) (k : Nat) : MayEnter s k ↔
    (s.wave k).priv = .u ∧ (s.wave k).txn = none ∧ (s.wave k).pending = [] ∧ (s.ctx (s.wave k).ctx).tvec ≠ 0 :=
  ⟨fun h => ⟨h.user, h.txn, h.pending, h.handler⟩, fun ⟨a, b, c, d⟩ => ⟨a, b, c, d⟩⟩

theorem clean_iff (s : State) : Clean s ↔ s.mem.symErrs = [] ∧ s.mem.poison = [] ∧ s.mem.l1Errs = [] ∧ s.mem.l2Errs = [] :=
  ⟨fun h => ⟨h.sym, h.poison, h.l1, h.l2⟩, fun ⟨a, b, c, d⟩ => ⟨a, b, c, d⟩⟩

theorem l1Wf_iff (c : Core) : L1Wf c ↔ (c.l1.map L1Sector.sec).Nodup ∧ ∀ x ∈ c.l1, x.data.length = 64 := Iff.rfl

theorem rdcWf_iff (s : State) : RdcWf s ↔ (s.mem.rdc.map RdcSector.sec).Nodup ∧ 
    ∀ r ∈ s.mem.rdc, r.data.length = 64 ∧ s.isPeer (64 * r.sec) = true ∧ s.remoteHusk.isSome = true := Iff.rfl

theorem calm_iff (s : State) (k : Nat) : Calm s k ↔ (s.wave k).txn = none ∧ s.detOf (s.wave k) = false ∧ s.ilevelOf (s.wave k) ≠ 3
    ∧ s.atomics = [] ∧ s.overlay k = [] ∧ (∀ l ∈ s.launches, l.veils = []) ∧ Clean s ∧ s.coreOf (s.wave k) < s.cores.length
    ∧ (L1Wf (s.core (s.coreOf (s.wave k))) ∧ RdcWf s) ∧ Memory.wf s.mem.home = true :=
  ⟨fun h => ⟨h.txn, h.det, h.level, h.atomics, h.overlay, h.veils, h.clean, h.core, h.caches, h.home⟩,
    fun ⟨a, b, c, d, e, f, g, h, i, j⟩ => ⟨a, b, c, d, e, f, g, h, i, j⟩⟩

theorem reaches_iff (s : State) (k : Nat) (kind : AccessKind) (bk : Bool) (a : BitVec 8) (n align : Nat) (offs : List (Nat × Word))
    (lanes : List (Nat × List Nat)) : Reaches s k kind bk a n align offs lanes ↔
    (bk = true ∨ (s.window (s.wave k) a.toNat).wantsRefill (offs.map fun e => e.2.toNat) = false)
    ∧ (s.resolve (s.wave k) kind align (requests s (s.wave k) (kind == .store) bk a n offs)).fatal = false
    ∧ (s.resolve (s.wave k) kind align (requests s (s.wave k) (kind == .store) bk a n offs)).faults = []
    ∧ (s.resolve (s.wave k) kind align (requests s (s.wave k) (kind == .store) bk a n offs)).lanes = lanes :=
  ⟨fun h => ⟨h.standing, h.fatal, h.faults, h.lanes⟩, fun ⟨a, b, c, d⟩ => ⟨a, b, c, d⟩⟩

theorem sound_iff (s : State) (core : Nat) : Sound s core ↔ Clean s ∧ core < s.cores.length ∧ L1Wf (s.core core) ∧ RdcWf s
    ∧ Memory.wf s.mem.home = true :=
  ⟨fun h => ⟨h.clean, h.inPart, h.l1, h.rdc, h.home⟩, fun ⟨a, b, c, d, e⟩ => ⟨a, b, c, d, e⟩⟩

theorem spReaches_iff (s : State) (w : Wave) (o : MemF) : SpReaches s w o ↔
    ∀ e ∈ spAddrs o w, ∀ j, j < o.size.bytes → s.spAllowed w ((e.2 + j) % 2 ^ 64) = true := Iff.rfl

theorem rangeOk_iff (s : State) (w : Wave) (addr len : Nat) : RangeOk s w addr len ↔ ∀ j, j < len → s.spAllowed w (addr + j) = true := Iff.rfl

theorem ok_iff {ε α : Type} (e : Except ε α) (x : α) : e = .ok x ↔ e.toOption = some x := by cases e <;> simp [Except.toOption]

/-- What the command processor reads within one page of a device without errors. -/
theorem cpRead_page (s : State) (c a n p : Nat) (clean : Clean s) (page : a % 65536 + n ≤ 65536) (h : s.vaPa c a = some p) :
    s.cpRead c a n = some ((List.range n).map fun i => Memory.read s.mem.home (p + i)) := by
  have bad (pa : Nat) : s.byteBad pa = false := by simp [State.byteBad, badBytes_clean clean]
  simp [State.cpRead, vaRange_page s c n a p page h, bad, Function.comp_def]

/-! ### States and operands that meet the hypotheses of the statements -/

theorem witness_RegisterFiles : (63 : Nat) ≠ 0 ∧ (62 : Nat) ≠ 63 ∧ (demoS.wave 0).priv = .s ∧ 56 ≤ 56 ∧ (demo.wave 0).priv = .u ∧ 55 < 56
    ∧ 31 < 32 := by decide +kernel

/-- PRIVILEGE, ILLEGAL_OPERAND by a register and by a word, VREG_RANGE at VALLOC, UNMARKED_HAZARD, and none. -/
theorem witness_DecodeConditions :
    ((demo.wave 0).priv = .u ∧ Instr.privileged (.tret false) = true)
    ∧ (Instr.privileged (.sadd ⟨false, 64, 1, .r 2⟩) = false ∧ ∃ o ∈ operands (.sadd ⟨false, 64, 1, .r 2⟩), o.illegal = true)
    ∧ Instr.illegalWord (.vclaim false 33) = true
    ∧ (∀ o ∈ operands (.vnot ⟨false, false, 0, 8, 1, .v 0, 0, .i64, .rn, false, false⟩), o.illegal = false)
    ∧ Reg.v 8 ∈ (operands (.vnot ⟨false, false, 0, 8, 1, .v 0, 0, .i64, .rn, false, false⟩)).flatMap (demo.wave 0).regsOf
    ∧ (demo.wave 0).valloc ≤ 8
    ∧ (let s := on demo fun w => { w with unmarked := [.s 2] }
       Reg.s 2 ∈ (operands (.sadd ⟨false, 3, 1, .r 2⟩)).flatMap (s.wave 0).regsOf ∧ Reg.s 2 ∈ (s.wave 0).unmarked
       ∧ s.cur = some 0 ∧ 0 < s.waves.length ∧ s.canIssue 0 (.sadd ⟨false, 3, 1, .r 2⟩) = true
       ∧ (encode (.sadd ⟨false, 3, 1, .r 2⟩)).isSome = true ∧ (s.wave 0).decodeCheck (.sadd ⟨false, 3, 1, .r 2⟩) = some 6 ∧ MayEnter s 0)
    ∧ (demo.wave 0).decodeCheck (.sadd ⟨false, 3, 1, .r 2⟩) = none := by simp only [mayEnter_iff]; decide +kernel

theorem witness_ScalarResults :
    (scalarShort (.sbfx ⟨false, 3, 1, 2, 63⟩)).isSome = true ∧ wellFormed (.sbfx ⟨false, 3, 1, 2, 63⟩) = true
    ∧ Issues demo 0 (.sbfx ⟨false, 3, 1, 2, 63⟩)
    ∧ (scalarLong (.sdiv ⟨false, 3, 1, .r 2⟩)).isSome = true ∧ Issues demo 0 (.sdiv ⟨false, 3, 1, .r 2⟩) := by
  simp only [issues_iff]; decide +kernel

theorem witness_VectorResults :
    (vectorShort demo (demo.wave 0) (.vadd ⟨false, false, 0, 4, 1, .v 2, 0, .i32x2, .rn, true, false⟩)).isSome = true
    ∧ wellFormed (.vadd ⟨false, false, 0, 4, 1, .v 2, 0, .i32x2, .rn, true, false⟩) = true
    ∧ Issues demo 0 (.vadd ⟨false, false, 0, 4, 1, .v 2, 0, .i32x2, .rn, true, false⟩)
    ∧ (vectorLong (demo.wave 0) (.vdiv ⟨false, false, 0, 4, 1, .v 2, 0, .i8x8, .rn, false, false⟩)).isSome = true
    ∧ Issues demo 0 (.vdiv ⟨false, false, 0, 4, 1, .v 2, 0, .i8x8, .rn, false, false⟩) := by simp only [issues_iff]; decide +kernel

theorem witness_ControlResults :
    (maskRule (demo.wave 0) (.xand false 2 3 true)).isSome = true ∧ Issues demo 0 (.xand false 2 3 true)
    ∧ Issues demo 0 (.xjoin true 4)
    ∧ (branchRule (demo.wave 0) (.ret false 62)).isSome = true ∧ Issues demo 0 (.ret false 62)
    ∧ (branchRule (demo.wave 0) (.brc false .ltz 3 (-1))).isSome = true ∧ Issues demo 0 (.brc false .ltz 3 (-1)) := by
  simp only [issues_iff]; decide +kernel

theorem witness_SpecialRegisters :
    Issues demo 0 (.srd ⟨false, false, 5, 0x11⟩) ∧ Issues demo 0 (.srd ⟨false, true, 5, 0⟩)
    ∧ (specialRule demo (demo.wave 0) 0x0B).isSome = true
    ∧ Issues demoS 0 (.swr ⟨false, 0x20, 9⟩) ∧ ((demoS.wave 0).readS 9).toNat % 8 = 0
    ∧ Issues demoS 0 (.swr ⟨false, 0x2F, 9⟩) ∧ (0x2F : BitVec 8) ≠ 0x20 ∧ (0x2F : BitVec 8) ≠ 0x24
    ∧ (demo.wave 0).ctx < demo.ctxs.length ∧ demoIl1.ilevelOf (demoIl1.wave 0) ≠ 0 ∧ demo.perfHidden (demo.wave 0) = false
    ∧ (demo.ctx (demo.wave 0).ctx).perf.length = 8 ∧ demo.ownsTwin (demo.wave 0) = true
    ∧ demo.twinOf (demo.wave 0) < demo.twins.length ∧ (demo.twin (demo.twinOf (demo.wave 0))).mpc.length = 4 := by
  simp only [issues_iff]; decide +kernel

theorem witness_SystemResults :
    Issues demoS 0 (.perfrd ⟨false, 7, 3, true⟩) ∧ Issues demo 0 (.sigchk false 1) ∧ demo.ilevelOf (demo.wave 0) = 0
    ∧ Issues demoIl1 0 (.sigchk false 0) ∧ demoIl1.ilevelOf (demoIl1.wave 0) ≠ 0 ∧ (demoIl1.wave 0).sigreg = 0
    ∧ Issues demo 0 (.acorn false 5) ∧ demo.ilevelOf (demo.wave 0) ≠ 3
    ∧ Issues demoIl3 0 (.acorn false 5) ∧ demoIl3.ilevelOf (demoIl3.wave 0) = 3 ∧ Issues demoS 0 (.icinv false .device) := by
  simp only [issues_iff]; decide +kernel

theorem witness_TrapEntry :
    MayEnter demo 0 ∧ 0 < demo.waves.length
    ∧ (let s := on demo fun w => { w with trap := some { cause := 9, mask := 1, addr := 2 } }
       MayEnter s 0 ∧ (s.wave 0).trap = some { cause := 9, mask := 1, addr := 2 })
    ∧ (demoPending.wave 0).txn = none ∧ (demoPending.wave 0).pending ≠ []
    ∧ ((demoS.wave 0).txn = none ∧ (demoS.wave 0).pending = [] ∧ (demoS.wave 0).priv = .s
      ∧ (demoS.launch (demoS.wave 0).launch).state = .running ∧ (demoS.wave 0).launch < demoS.launches.length)
    ∧ (let s := inCtx demo fun c => { c with tvec := 0 }
       (s.wave 0).txn = none ∧ (s.wave 0).pending = [] ∧ (s.ctx (s.wave 0).ctx).tvec = 0)
    ∧ ((demoTxn.wave 0).txn.isSome = true ∧ (demoTxn.wave 0).pending = [])
    ∧ (operandTrap (demo.wave 0) (.bkpt false 0xFF)).isSome = true ∧ Issues demo 0 (.bkpt false 0xFF)
    ∧ (operandTrap (demo.wave 0) (.bopen false 6 5 0)).isSome = true ∧ Issues demo 0 (.bopen false 6 5 0)
    ∧ (operandTrap ((withS demo [(5, 2 ^ 38)]).wave 0) (.gjoin false 5 0)).isSome = true
    ∧ Issues (withS demo [(5, 2 ^ 38)]) 0 (.gjoin false 5 0) := by simp only [issues_iff, mayEnter_iff]; decide +kernel

theorem witness_ServiceReturnAndExit :
    Issues demoS 0 (.trap false 2) ∧ (demoS.wave 0).priv = .s
    ∧ Issues demoS 0 (.tret false) ∧ (demoS.wave 0).pending = [] ∧ (demoS.wave 0).tpc.toNat % 8 = 0
    ∧ (let s := on demoS fun w => { w with pending := [{ dst := .s 5, val := .s 77 }] }
       Issues s 0 (.tret false) ∧ (s.wave 0).pending ≠ [])
    ∧ Issues demo 0 (.exitw false) ∧ (demo.wave 0).pending = [] ∧ (∀ x ∈ demo.copies, ∀ c ∈ x.entries, c.stage ≠ .stopped)
    ∧ Issues demoPending 0 (.exitw false) ∧ (demoPending.wave 0).pending ≠ []
    ∧ 0 < demo.groups.length ∧ (demo.group 0).live = true ∧ demo.members 0 ≠ []
    ∧ (let s : State := { demo with waves := [] }
       0 < s.groups.length ∧ (s.group 0).live = true ∧ s.members 0 = []) := by simp only [issues_iff]; decide +kernel
/-! #### Memory -/

/-- Wave 0 with the base VA 0x1003C in S3 and byte offsets 8 * lane in V2. -/
def demoAt : State := withV (withS demo [(3, 0x1003C)]) 2 (lanesBy fun l => 8 * l)

/-- A state after wave 0's S3 has been sent beyond the 56-bit space. -/
def demoFar : State := withS demo [(3, 2 ^ 60)]

/-- A format-M access of D 4, base S3, index S0 or V2, of one byte without sign. -/
def byteOp (ik : Bool) : MemF := ⟨false, false, 0, 4, 3, if ik then 0 else 2, 0, .wave, 0, .n8, 0, true, ik, 0⟩

/-- The bytes of frame 5 at VA 0x1003C. -/
def at3C (n : Nat) : List Nat := (List.range n).map (0x5003C + ·)

theorem witness_AddressesAndWindows :
    let s := withS demoMapped [(1, 0x10040), (2, 0x4000)]
    Issues s 0 (.wmap ⟨false, true, 5, 1, 2, 0⟩)
    ∧ s.wmapError (s.wave 0) true ((s.wave 0).readS 1).toNat = .ok ⟨0x500E1, 0x000100000000006D, 0x50040, 0x50040⟩ :=
  ⟨by simp only [issues_iff]; decide +kernel, by rw [ok_iff]; decide +kernel⟩

/-- VLD across a sector boundary, VLDX, LD.S with hint 2; every access meets no fault. -/
theorem witness_Loads_state : Calm demoAt 0 := by
  simp only [calm_iff, clean_iff, l1Wf_iff, rdcWf_iff]; decide +kernel

theorem witness_Loads :
    Issues demoAt 0 (.vld (byteOp true))
    ∧ Reaches demoAt 0 .load true 3 1 1 (vectorOffsets (byteOp true) (demoAt.wave 0) true) ((List.range 32).map fun l => (l, [0x5003C + l]))
    ∧ Issues demoAt 0 (.vldx (byteOp false))
    ∧ Reaches demoAt 0 .load true 3 1 1 (vectorOffsets (byteOp false) (demoAt.wave 0) false) ((List.range 32).map fun l => (l, [0x5003C + 8 * l]))
    ∧ Issues demoAt 0 (.ldS { memop with hint := 2 })
    ∧ Reaches demoAt 0 .load true 3 8 1 (waveOffset { memop with hint := 2 } (demoAt.wave 0)) [(0, at3C 8)] := by
  simp only [issues_iff, reaches_iff]; decide +kernel

theorem witness_Stores :
    Issues demoAt 0 (.vst (byteOp true))
    ∧ Reaches demoAt 0 .store true 3 1 1 (vectorOffsets (byteOp true) (demoAt.wave 0) true) ((List.range 32).map fun l => (l, [0x5003C + l]))
    ∧ Issues demoAt 0 (.vstx (byteOp false))
    ∧ Reaches demoAt 0 .store true 3 1 1 (vectorOffsets (byteOp false) (demoAt.wave 0) false) ((List.range 32).map fun l => (l, [0x5003C + 8 * l]))
    ∧ Issues demoAt 0 (.stS memop) ∧ Reaches demoAt 0 .store true 3 8 1 (waveOffset memop (demoAt.wave 0)) [(0, at3C 8)] := by
  simp only [issues_iff, reaches_iff]; decide +kernel

theorem witness_StoresThatWait :
    (let s := withS demoTxn [(3, 0x1003C)]
     Issues s 0 (.stS memop) ∧ Reaches s 0 .store true 3 8 1 (waveOffset memop (s.wave 0)) [(0, at3C 8)]
     ∧ (s.wave 0).txn.isSome = true ∧ s.ilevelOf (s.wave 0) ≠ 3 ∧ (∀ e ∈ at3C 8, s.isPeer e = false))
    ∧ (let s := withS demoDet [(3, 0x1003C)]
       Issues s 0 (.stS memop) ∧ Reaches s 0 .store true 3 8 1 (waveOffset memop (s.wave 0)) [(0, at3C 8)]
       ∧ (s.wave 0).txn = none ∧ s.holdsOf (s.wave 0) = true ∧ s.ilevelOf (s.wave 0) ≠ 3)
    ∧ (let s := withS demoIl3 [(3, 0x1003C)]
       Issues s 0 (.stS memop) ∧ Reaches s 0 .store true 3 8 1 (waveOffset memop (s.wave 0)) [(0, at3C 8)]
       ∧ (s.wave 0).txn = none ∧ s.detOf (s.wave 0) = false ∧ s.ilevelOf (s.wave 0) = 3)
  := by simp only [issues_iff, reaches_iff]; decide +kernel

/-- The first address beyond the space. -/
theorem witness_StoresThatWait_faults :
    (Issues demoFar 0 (.vld (byteOp true)) ∧ MayEnter demoFar 0
       ∧ (let r := demoFar.resolve (demoFar.wave 0) .load 1 (requests demoFar (demoFar.wave 0) false true 3 1
           (vectorOffsets (byteOp true) (demoFar.wave 0) true))
          r.fatal = false ∧ r.faults ≠ [] ∧ ∀ e ∈ r.faults, e.2.1 ≠ 0x41 ∧ e.2.1 ≠ 0x18 ∧ e.2.1 ≠ 0x15)) := by
  simp only [issues_iff, mayEnter_iff]; decide +kernel

/-- The wave's own window of its core's scratchpad, its last bytes, and the first byte behind it. -/
theorem witness_ScratchpadAccess :
    (let s := withS demo [(3, 0x4FF8)]
     let o : MemF := { memop with pi := 0, disp := 0 }
     let w := on s fun w => { w with exec := 1 }
     Issues w 0 (.spld o) ∧ (w.wave 0).effects = [] ∧ w.mem.spErrs = [] ∧ SpReaches w (w.wave 0) o ∧ (∀ l ∈ w.launches, l.spVeils = [])
     ∧ Issues w 0 (.spst o) ∧ Memory.wf w.mem.sp = true ∧ w.holdsOf (w.wave 0) = false)
    ∧ (let s := withS demoDet [(3, 0x1000)]
       Issues s 0 (.spst { memop with ik := false, b := 0 }) ∧ SpReaches s (s.wave 0) { memop with ik := false, b := 0 } ∧ s.holdsOf (s.wave 0) = true)
    ∧ (let s := withS demo [(3, 0x4FF9)]
       Issues s 0 (.spst memop) ∧ MayEnter s 0 ∧ ¬SpReaches s (s.wave 0) memop) := by
  simp only [issues_iff, mayEnter_iff, spReaches_iff]; decide +kernel

theorem witness_AcquireAndRelease :
    (let s := withS demo [(3, 0x10040)]
     let o : MemF := { memop with scope := .device }
     Calm s 0 ∧ Issues s 0 (.lda o) ∧ Reaches s 0 .load true 3 8 1 (waveOffset o (s.wave 0)) [(0, (List.range 8).map (0x50040 + ·))]
     ∧ Issues s 0 (.strel o)
     ∧ Reaches s 0 .store true 3 8 1 (waveOffset o (s.wave 0)) [(0, (List.range 8).map (0x50040 + ·))]) := by
  simp only [issues_iff, calm_iff, clean_iff, l1Wf_iff, rdcWf_iff, reaches_iff]; decide +kernel

/-- A whole fence, one that names a line, its completion. -/
theorem witness_FencesAndCaches :
    Issues demo 0 (.fence ⟨false, .acqRel, false, false, 0, 0, .device, 0⟩)
    ∧ (Issues demoAt 0 (.fence ⟨false, .rel, true, true, 3, 0, .device, 0⟩)
      ∧ Reaches demoAt 0 .load true 3 1 1 (dispOffset 0 256) [(0, [0x5003C])])
  := by simp only [issues_iff, reaches_iff]; decide +kernel

theorem witness_FenceCompletes :
    (let s := on demo fun w => { w with hold := .fence ⟨false, .acqRel, true, true, 3, 0, .device, 0⟩ (some 0x50040) }
     0 < s.waves.length ∧ (s.wave 0).hold = .fence ⟨false, .acqRel, true, true, 3, 0, .device, 0⟩ (some 0x50040) ∧ s.atomicsOf 0 = []
       ∧ Sound s (s.coreOf (s.wave 0)))
  := by simp only [clean_iff, l1Wf_iff, rdcWf_iff, sound_iff]; decide +kernel

/-- CLEAN of a sector. -/
theorem witness_Clean :
    (Issues demoAt 0 (.clean ⟨false, false, true, 3, 0, .device, 0⟩) ∧ Calm demoAt 0
      ∧ Reaches demoAt 0 .load true 3 1 1 (dispOffset 0 64) [(0, [0x5003C])]) := by
  simp only [issues_iff, calm_iff, clean_iff, l1Wf_iff, rdcWf_iff, reaches_iff]; decide +kernel

/-- INVAL of all, and of an address with no translation. -/
theorem witness_Inval :
    Issues demoAt 0 (.inval ⟨false, true, false, 0, 0, .device, 0⟩)
    ∧ (Issues demoFar 0 (.inval ⟨false, false, true, 3, 0, .device, 0⟩) ∧ Calm demoFar 0
      ∧ (demoFar.resolve (demoFar.wave 0) .load 1 (requests demoFar (demoFar.wave 0) false true 3 1 (dispOffset 0 64))).faults ≠ []) := by
  simp only [issues_iff, calm_iff, clean_iff, l1Wf_iff, rdcWf_iff]; decide +kernel

/-! #### Atomics and transactions -/

/-- Two lanes of one address and CAS of a pair, with and without old values. -/
theorem witness_AtomicRequests :
    (let s := withV (on demoAt fun w => { w with exec := 3 }) 2 zeroVReg
     let s := withS s [(3, 0x10040)]
     Issues s 0 (.vatom atomop) ∧ Clean s ∧ s.detOf (s.wave 0) = false
     ∧ Reaches s 0 .store true 3 8 8 (((lanesOf ((s.wave 0).governing false 0)).map fun l => (l, atomop.offset (laneOf ((s.wave 0).readV 2) l))))
        [(0, (List.range 8).map (0x50040 + ·)), (1, (List.range 8).map (0x50040 + ·))])
    ∧ (let s := withS demo [(3, 0x10044)]
       let o : AtomF := { atomop with w64 := false, op := .cas }
       Issues s 0 (.satom o) ∧ Clean s ∧ s.detOf (s.wave 0) = false
       ∧ Reaches s 0 .store true 3 4 4 [(0, o.offset ((s.wave 0).readS 2))] [(0, (List.range 4).map (0x50044 + ·))]) := by
  simp only [issues_iff, clean_iff, reaches_iff]; decide +kernel

/-- A request of wave 0 for the doubleword at 0x50040. -/
def demoReq : AtomReq :=
  { (default : AtomReq) with wave := 0, tag := 1, w64 := true, ret := true, scope := .device, va := 0x10040, pa := 0x50040, lanes := [(2, 5, 0)] }

theorem witness_AtomicEffects :
    (let s : State := { demo with atomics := [demoReq] }
     s.atomics[0]? = some demoReq ∧ s.atomicReady 0 = true ∧ demoReq.lanes = [(2, 5, 0)] ∧ demoReq.join = false
     ∧ demoReq.wave < s.waves.length ∧ s.detOf (s.wave demoReq.wave) = false ∧ Sound s (s.coreOf (s.wave demoReq.wave))
     ∧ s.isPeer demoReq.pa = false ∧ demoReq.pa % atomBytes demoReq.w64 = 0) := by
  simp only [clean_iff, l1Wf_iff, rdcWf_iff, sound_iff]; decide +kernel

theorem witness_CombinedAtomics : AtomOp.cas ≠ .fadd ∧ AtomOp.swap ≠ .fadd ∧ AtomOp.swap ≠ .cas ∧ 2 ^ 32 - 1 < 2 ^ (8 * atomBytes false)
    ∧ ∀ v ∈ [0, 2 ^ 32 - 1], v < 2 ^ (8 * atomBytes false) := by decide +kernel

/-- The transaction of `demoTxn`. -/
def txn0 : Txn := { target := 0x10100, exec := 0xF, reads := [0x500], seen := [(0x50000, 0)], lines := [0x500], writes := [(0x50000, 1)] }

theorem witness_Transactions_outside :
    Issues demo 0 (.txbegin false 4) ∧ Calm demo 0 ∧ Issues demo 0 (.txend false 5) ∧ (demo.wave 0).txn = none
    ∧ Issues demo 0 (.txabort false 5) := by
  simp only [issues_iff, calm_iff, clean_iff, l1Wf_iff, rdcWf_iff]; decide +kernel

theorem witness_Transactions_inside :
    (demoTxn.wave 0).txn = some txn0 ∧ (demoTxn.wave 0).pending = []
    ∧ (Issues demoTxn 0 (.txend false 5) ∧ Memory.wf demoTxn.mem.home = true ∧ (∀ e ∈ txn0.writes, demoTxn.isPeer e.1 = false)
      ∧ (∀ e ∈ txn0.seen, Memory.read demoTxn.mem.home e.1 = e.2) ∧ demoTxn.tokenConflict 0 txn0 = false)
    ∧ (let s : State := { demoTxn with mem := { demoTxn.mem with home := [(0x50000, 3)] } }
       Issues s 0 (.txend false 5) ∧ (s.wave 0).txn = some txn0 ∧ ∃ e ∈ txn0.seen, Memory.read s.mem.home e.1 ≠ e.2)
    ∧ Issues demoTxn 0 (.txabort false 5) ∧ Issues demoTxn 0 (.txbegin false 4) := by simp only [issues_iff]; decide +kernel

theorem witness_Transactions_aborts :
    (let s := on demoTxn fun w => { w with abort := some (4, 0xBEEF) }
     0 < s.waves.length ∧ (s.wave 0).abort = some (4, 0xBEEF) ∧ (s.wave 0).txn = some txn0)
    ∧ (demoTxn.cur = some 0 ∧ demoTxn.canIssue 0 (.vclaim false 1) = true ∧ (encode (.vclaim false 1)).isSome = true
      ∧ (demoTxn.wave 0).decodeCheck (.vclaim false 1) = none ∧ (demoTxn.wave 0).errsOf (.vclaim false 1) = []
      ∧ Instr.unsupported (.vclaim false 1) = true) := by decide +kernel
/-! #### Groups, barriers, claims -/

/-- A second group with GRPID 8 on cluster 0, without members. -/
def demoTwo : State := { demo with groups := demo.groups ++ [{ grpid := 8, clusters := [0], windows := [] }] }

/-- Two arrivals of each member of group 0, which has made one and none: entry 3, generation 1. -/
def barrier0 : Barrier := { entry := 3, gen := 1, group := 0, per := 1, mask := 1, expected := 2, arrived := 1, counts := [(1, 1)] }

/-- The state with that barrier changed, its handle in S5. -/
def demoBarrier (b : Barrier) : State := inCtx (withS demo [(5, 0x1003)]) fun c => { c with barriers := [b] }

theorem witness_GroupMoves :
    Issues demo 0 (.gleave false) ∧ demo.detOf (demo.wave 0) = false
    ∧ (let s := withS demo [(5, 7)]
       Issues s 0 (.gjoin false 5 3) ∧ (s.wave 0).readS 5 = BitVec.ofNat 64 (7 + 2 ^ 32 * 0) ∧ s.tokenGroup 0 7 0 = some 0)
    ∧ (let s := withS demoTwo [(5, 8)]
       Issues s 0 (.gjoin false 5 1) ∧ s.tokenGroup 0 8 0 = some 1 ∧ 1 ≠ (s.wave 0).group ∧ (s.group 1).clusters.contains (s.wave 0).clid = true
       ∧ (s.members 1).length < (s.group 1).capacity ∧ (s.group 1).ilevel = s.ilevelOf (s.wave 0)) := by
  simp only [issues_iff]; decide +kernel

/-- A group of another level, a token of no group, a deterministic launch. -/
theorem witness_GroupMoves_refused :
    (let s := (withS demoTwo [(5, 8)]).modGroup 1 fun g => { g with ilevel := 1 }
     Issues s 0 (.gjoin false 5 1) ∧ s.tokenGroup 0 8 0 = some 1 ∧ ¬((s.group 1).ilevel = s.ilevelOf (s.wave 0)) ∧ MayEnter s 0)
    ∧ (let s := withS demo [(5, BitVec.ofNat 64 (9 + 2 ^ 32 * 63))]
       Issues s 0 (.gjoin false 5 0) ∧ s.tokenGroup 0 9 63 = none ∧ MayEnter s 0)
    ∧ (Issues demoDet 0 (.gleave false) ∧ demoDet.detOf (demoDet.wave 0) = true ∧ MayEnter demoDet 0) := by
  simp only [issues_iff, mayEnter_iff]; decide +kernel

/-- One arrival for each member, the largest count, a group with 16 barriers. -/
theorem witness_Barriers_open :
    (let s := withS demo [(5, 255)]
     (s.wave 0).ctx < s.ctxs.length ∧ Issues s 0 (.bopen false 6 5 0) ∧ 1 ≤ ((s.wave 0).readS 5).toNat ∧ ((s.wave 0).readS 5).toNat ≤ 255
     ∧ ((s.ctx 0).barriers.countP fun b => b.group == 0) < 16 ∧ (s.ctx 0).barrier 4095 = none)
    ∧ (let s := inCtx (withS demo [(5, 1)]) fun c => { c with barriers := List.replicate 16 barrier0 }
       Issues s 0 (.bopen false 6 5 0) ∧ 16 ≤ ((s.ctx 0).barriers.countP fun b => b.group == 0)) := by
  simp only [issues_iff]; decide +kernel

/-- An arrival that does not complete the phase, one that does, and one too many; the same for a wait; a late member. -/
theorem witness_Barriers_arrive :
    (let b := { barrier0 with expected := 3 }
     let s := demoBarrier b
     s.openBarrier (s.wave 0) ((s.wave 0).readS 5) = .ok b ∧ s.detOf (s.wave 0) = false ∧ Issues s 0 (.bara false 5) ∧ Issues s 0 (.barw false 5)
     ∧ (s.wave 0).waveid ∉ b.late ∧ lookupD 0 b.counts (s.wave 0).waveid < b.per ∧ b.arrived + 1 ≠ b.expected
     ∧ b.arrived + (b.per - lookupD 0 b.counts (s.wave 0).waveid) ≠ b.expected)
    ∧ (let s := demoBarrier barrier0
       s.openBarrier (s.wave 0) ((s.wave 0).readS 5) = .ok barrier0 ∧ Issues s 0 (.bara false 5) ∧ Issues s 0 (.barw false 5)
       ∧ barrier0.arrived + 1 = barrier0.expected ∧ barrier0.arrived + (barrier0.per - lookupD 0 barrier0.counts (s.wave 0).waveid) = barrier0.expected) := by
  simp only [issues_iff, ok_iff]; decide +kernel

theorem witness_Barriers_waits :
    (let b := { barrier0 with counts := [(0, 1)] }
     let s := demoBarrier b
     s.openBarrier (s.wave 0) ((s.wave 0).readS 5) = .ok b ∧ Issues s 0 (.bara false 5) ∧ b.per ≤ lookupD 0 b.counts (s.wave 0).waveid)
    ∧ (let b := { barrier0 with late := [0] }
       let s := demoBarrier b
       s.openBarrier (s.wave 0) ((s.wave 0).readS 5) = .ok b ∧ Issues s 0 (.bara false 5) ∧ Issues s 0 (.barw false 5) ∧ (s.wave 0).waveid ∈ b.late) := by
  simp only [issues_iff, ok_iff]; decide +kernel

theorem error_iff {ε α : Type} [DecidableEq ε] (e : Except ε α) (x : ε) : e = .error x ↔
    (match e with | .error y => decide (y = x) | .ok _ => false) = true := by cases e <;> simp

/-- No barrier, another generation, a broken barrier, another sub-group. -/
theorem witness_Barriers_handles :
    (let s := withS demo [(5, 0x1003)]
     s.openBarrier (s.wave 0) ((s.wave 0).readS 5) = .error 0x30 ∧ Issues s 0 (.bara false 5) ∧ Issues s 0 (.barw false 5) ∧ MayEnter s 0
     ∧ (s.ctx 0).barrier (0x1003 % 4096) = none)
    ∧ ((demoBarrier barrier0).ctx 0).barrier (0x1003 % 4096) = some barrier0
    ∧ barrier0.gen ≠ 0x2003 / 4096 % 65536 ∧ 2 ^ 28 ≤ 0x10001003 ∧ 0x1003 < 2 ^ 28 ∧ barrier0.gen = 0x1003 / 4096 % 65536
    ∧ { barrier0 with broken := true }.broken = true := by simp only [issues_iff, mayEnter_iff, error_iff]; decide +kernel

/-- A claim of the last granule, of all; a release to the first granule; a release of a marked register. -/
theorem witness_RegisterClaims :
    Issues demo 0 (.vclaim false 31) ∧ (demo.wave 0).valloc + 8 * 31 ≤ 256 ∧ demo.coreOf (demo.wave 0) < demo.cores.length
    ∧ (let s := on demo fun w => { w with valloc := 16 }
       Issues s 0 (.vrels false 1) ∧ 8 * 1 + 8 ≤ (s.wave 0).valloc ∧ ∀ m, m < (s.wave 0).valloc → Reg.v m ∉ (s.wave 0).unmarked)
    ∧ (let s := on demo fun w => { w with valloc := 16, unmarked := [.v 15] }
       Issues s 0 (.vrels false 1) ∧ (s.wave 0).valloc - 8 * 1 ≤ 15 ∧ 15 < (s.wave 0).valloc ∧ Reg.v 15 ∈ (s.wave 0).unmarked ∧ MayEnter s 0) := by
  simp only [issues_iff, mayEnter_iff]; decide +kernel

/-- Wave 0 waits for 31 granules in its core's claim queue. -/
def demoClaims : State :=
  (on demo fun w => { w with state := .blocked, wait := .claim 31, stalled := some (.vclaim false 31) }).modCore 0 fun c => { c with claims := [(0, 31)] }

theorem witness_RegisterClaims_grant :
    ((demoClaims.core 0).claims = [(0, 31)] ∧ 0 < demoClaims.waves.length ∧ demoClaims.holdsOf (demoClaims.wave 0) = false
      ∧ demoClaims.poolUsed 0 + 8 * 31 ≤ demoClaims.poolLimit 0 (2 ≤ demoClaims.ilevelOf (demoClaims.wave 0))
      ∧ demoClaims.coreOf (demoClaims.wave 0) = 0 ∧ (demoClaims.wave 0).stalled = some (.vclaim false 31))
    ∧ (let s : State := { demoClaims with waves := demoClaims.waves.take 1 }
       s.claimDeadlocked 0 = true ∧ 0 ∈ s.members 0 ∧ (s.wave 0).claiming = true) := by decide +kernel

/-! #### Matrix engines, slots -/

/-- K of one k-step, A and B plane addresses of the group's window in cores 0 and 0, row 62. -/
def demoMma : State := withS demo [(4, 0x1000), (5, 0x1400), (6, 128), (7, 62), (8, 63)]

theorem witness_MatrixIssue :
    Issues (inGroup demoMma fun g => { g with spsize := 0x8000 }) 0 (.mmaBp ⟨false, 0, 4, 5, 6, 0, 2, 2, true⟩)
    ∧ (demoMma.twin (demoMma.twinOf (demoMma.wave 0))).owner = some (demoMma.wave 0).group
    ∧ Issues demoMma 0 (.mzero false 3)
    ∧ Issues demoMma 0 (.mrd ⟨false, 4, 3, 7, 1, 0, 254, true⟩) ∧ ((demoMma.wave 0).readS 7).toNat ≤ 62 ∧ ((demoMma.wave 0).readS 7).toNat % 2 = 0
    ∧ Issues demoMma 0 (.mwr ⟨false, 3, 0, 7, 0⟩)
    ∧ 62 < ((demoMma.wave 0).readS 8).toNat ∧ Issues demoMma 0 (.mrd ⟨false, 4, 3, 8, 1, 0, 128, false⟩) ∧ MayEnter demoMma 0
    ∧ demoMma.twinOf (demoMma.wave 0) < demoMma.twins.length ∧ (demoMma.wave 0).group < demoMma.groups.length := by
  simp only [issues_iff, mayEnter_iff]; decide +kernel

/-- A U-mode wave's range in its group's window of one scratchpad may be accessed (R39). -/
theorem range_ok (s : State) (w : Wave) (a n : Nat) (u : w.priv = .u) (c : a / 2 ^ 22 = w.clid) (small : w.clid < 64)
    (lo : (s.group w.group).spbase.toNat ≤ a % 2 ^ 20)
    (hi : a % 2 ^ 20 + n ≤ min 0xC0000 ((s.group w.group).spbase.toNat + (s.group w.group).spsize.toNat)) : RangeOk s w a n := by
  intro j hj
  have h1 : (a + j) / 2 ^ 22 = w.clid := by omega
  have h2 : (a + j) % 2 ^ 20 = a % 2 ^ 20 + j := by omega
  simp only [State.spAllowed, u, bits, Nat.shiftRight_eq_div_pow, Nat.reduceAdd, Nat.reduceSub, Nat.pow_zero, Nat.div_one, h1, h2, if_true]
  have h3 : (a + j) / 2 ^ 28 = 0 := by omega
  simp only [h3, Nat.mod_eq_of_lt (show w.clid < 2 ^ 6 by omega)]
  simp; omega

/-- The ranges that an MMA.BP with 2 planes and one k-step reads. -/
theorem witness_MatrixIssue_ranges :
    (RangeOk demoMma (demoMma.wave 0) 0x1000 (1024 * 2 * 1) ∧ RangeOk demoMma (demoMma.wave 0) 0x1400 (1024 * 2 * 1)
      ∧ RangeOk demoMma (demoMma.wave 0) (0x1400 + 2 ^ 20) (1024 * 2 * 1)) := by
  refine ⟨?_, ?_, ?_⟩ <;> refine range_ok _ _ _ _ ?_ ?_ ?_ ?_ ?_ <;> decide +kernel

/-- The causes of a K of 64 and of planes below the window, and of tiles of another group. -/
theorem witness_MatrixIssue_traps :
    (let s := withS demoMma [(6, 64)]
     Issues s 0 (.mmaBp ⟨false, 0, 4, 5, 6, 0, 2, 2, true⟩) ∧ MayEnter s 0 ∧ ((s.wave 0).readS 6).toNat % 128 ≠ 0)
    ∧ (let s := withS demoMma [(4, 0xC00)]
       Issues s 0 (.mmaBp ⟨false, 0, 4, 5, 6, 0, 2, 2, true⟩) ∧ MayEnter s 0 ∧ ((s.wave 0).readS 4).toNat % 1024 = 0
       ∧ s.spAllowed (s.wave 0) 0xC00 = false)
    ∧ (let s : State := { demoMma with twins := List.replicate 4 Twin.reset }
       Issues s 0 (.mzero false 3) ∧ (s.twin (s.twinOf (s.wave 0))).owner ≠ some (s.wave 0).group ∧ MayEnter s 0) := by
  simp only [issues_iff, mayEnter_iff]; decide +kernel

theorem witness_BatchesAndSlots :
    Issues demo 0 (.mbatch false 7)
    ∧ (let s := withS demo [(7, 65535)]
       Issues s 0 (.mwait false 7) ∧ ((s.wave 0).readS 7).toNat ≤ 65535 ∧ s.suspendedTwins 0 false = [] ∧ s.suspendedTwins 0 true = []
       ∧ ∀ b ∈ (s.group 0).batches, b.1 ≠ 65535)
    ∧ (let s := inGroup (withS demo [(7, 1)]) fun g => { g with batches := [(1, 2)] }
       Issues s 0 (.mwait false 7) ∧ ∃ b ∈ (s.group 0).batches, b.1 = ((s.wave 0).readS 7).toNat)
    ∧ (let s := (withS demo [(7, 1)]).modTwin 0 fun t => { t with suspended := some (0x1234, false) }
       Issues s 0 (.mwait false 7) ∧ MayEnter s 0 ∧ (s.suspendedTwins 0 false).head? = some 0 ∧ (s.twin 0).suspended = some (0x1234, false))
    ∧ (Issues demo 0 (.mwait false 7) ∧ ((demo.wave 0).readS 7).toNat = 0 ∧ MayEnter demo 0) := by
  simp only [issues_iff, mayEnter_iff]; decide +kernel

theorem witness_BatchesAndSlots_restart :
    let s := (withS demo [(7, 1)]).modTwin 0 fun t => { t with suspended := some (0x1234, true) }
    Issues s 0 (.mwait false 7) ∧ s.suspendedTwins 0 false = [] ∧ 0 ∈ s.suspendedTwins 0 true := by
  simp only [issues_iff]; decide +kernel

/-- No twin of the part is stopped by an error. -/
theorem witness_MatrixIssue_mwait : ∀ t, (demo.twin t).owner = some (demo.wave 0).group → (demo.twin t).suspended = none := by
  intro t _
  match t with
  | 0 | 1 | 2 | 3 => decide +kernel
  | n + 4 => rfl

theorem witness_BatchesAndSlots_qplane :
    (let s := withS demo [(3, BitVec.ofNat 64 (2 ^ 32 + 0x1000))]
     Issues s 0 (.qplane ⟨false, 0, 3, 0, 8, .i8x8⟩) ∧ s.holdsOf (s.wave 0) = false ∧ Memory.wf s.mem.sp = true
     ∧ ((s.wave 0).readS 3).toNat / 2 ^ 32 = 1 ∧ ((s.wave 0).readS 3).toNat % 2 ^ 32 = 0x1000)
    ∧ Issues demo 0 (.amaxrd false 7 63) := by
  simp only [issues_iff]; decide +kernel

/-- At the end of a quantum and on a checked pair; a base below a slab's alignment, a k-step count of 0, and a plane below the
window. -/
theorem witness_BatchesAndSlots_qplane_others :
    let o : QplaneF := ⟨false, 0, 3, 0, 8, .i8x8⟩
    let at_ (s : State) (ks base : Nat) := withS s [(3, BitVec.ofNat 64 (2 ^ 32 * ks + base))]
    (Issues (at_ demoDet 1 0x1000) 0 (.qplane o) ∧ (at_ demoDet 1 0x1000).holdsOf ((at_ demoDet 1 0x1000).wave 0) = true)
    ∧ (Issues (at_ demoIl3 1 0x1000) 0 (.qplane o) ∧ (at_ demoIl3 1 0x1000).checked ((at_ demoIl3 1 0x1000).wave 0) = true)
    ∧ (Issues (at_ demo 1 0x1001) 0 (.qplane o) ∧ MayEnter (at_ demo 1 0x1001) 0 ∧ ¬(0x1001 % 128 = 0))
    ∧ (Issues (at_ demo 0 0x1000) 0 (.qplane o) ∧ MayEnter (at_ demo 0 0x1000) 0)
    ∧ (Issues (at_ demo 1 0xC00) 0 (.qplane o) ∧ MayEnter (at_ demo 1 0xC00) 0
      ∧ (at_ demo 1 0xC00).spAllowed ((at_ demo 1 0xC00).wave 0) 0xC00 = false) := by
  simp only [issues_iff, mayEnter_iff]; decide +kernel

theorem witness_BatchesAndSlots_slab : ∀ i, i < 8 → 0x1000 + 1024 * i < 2 ^ 20 ∧ RangeOk demo (demo.wave 0) (0x1000 + 1024 * i) 128 := by
  intro i hi
  have h : (0x1000 + 1024 * i) % 2 ^ 20 = 0x1000 + 1024 * i := by omega
  have hg : (demo.group (demo.wave 0).group).spbase.toNat = 0x1000 ∧ (demo.group (demo.wave 0).group).spsize.toNat = 0x4000
      ∧ (demo.wave 0).clid = 0 := by decide
  exact ⟨by omega, range_ok _ _ _ _ (by decide) (by omega) (by omega) (by omega) (by omega)⟩

/-- Planes of the narrowest and the widest count; a full slot with the largest finite and an infinite maximum. -/
theorem witness_SlabsAndScales : 2 ≤ 2 ∧ 8 ≤ 8 ∧ 7 < 8 ∧ 127 < 128 ∧ (7 : Nat) < 8
    ∧ (∀ x : Slot, x = { count := 16, head := 15, entries := [0x7F7FFFFF, 0x7F800000] } →
      x.count ≤ 16 ∧ ∀ e ∈ x.entries, e.toNat ≤ 0x7F800000) := by simp

/-- Twin 0 with an operation of group 0 at its head. -/
def demoTwin (op : MatOp) (started resume : Bool) : State :=
  demo.modTwin 0 fun t => { t with queue := [{ op := op, group := 0, batch := 1, wave := 0, started := started, resume := resume }] }

theorem twinReady_iff (s : State) (tw : Nat) : TwinReady s tw ↔ tw < s.twins.length ∧ (s.twin tw).tiles.length = 4 ∧ (s.twin tw).mpc.length = 4
    ∧ s.twinRuns tw = true ∧ (s.twin tw).stopped = false ∧ s.mem.spErrs = [] ∧ s.mem.accErrs = []
    ∧ (∀ g ∈ (s.twin tw).owner.toList, (s.group g).live = true) :=
  ⟨fun h => ⟨h.inPart, h.tiles, h.mpc, h.runs, h.stopped, h.spErrs, h.accErrs, fun g m => h.owner g (by simpa using m)⟩,
    fun ⟨a, b, c, d, e, f, g, h⟩ => ⟨a, b, c, d, e, f, g, fun x m => h x (by simpa using m)⟩⟩

theorem witness_MatrixProducts :
    (let s := demoTwin (.mma 3 0x1000 0x1400 1 2 8 true 0) true false
     TwinReady s 0 ∧ (s.twin 0).head.map (fun e => (e.op, e.started)) = some (.mma 3 0x1000 0x1400 1 2 8 true 0, true)
     ∧ (s.wave 0).effects = [] ∧ ((s.twin 0).mpc.getD 3 {}).kstep.toNat < 1 ∧ ∀ l ∈ s.launches, l.spVeils = [])
    ∧ (let s := (demoIl3.modTwin 2 fun t => { t with owner := some 0 }).modTwin 0 fun t => { t with queue := [{ op := .mma 3 0x1000 0x1400 1 2 8 true 0, group := 0, batch := 1, wave := 0, started := true }] }
       TwinReady s 0 ∧ ((s.twin 0).head.any fun e => s.shadows 0 e && e.shadowOp.isNone) = true ∧ (s.twin 2).tiles.length = 4) := by
  simp only [twinReady_iff]; decide +kernel

theorem witness_TileAccess :
    (let s := demoTwin (.mma 3 0x1000 0x1400 1 2 8 true 0) false true
     TwinReady s 0 ∧ (s.twin 0).head.map (fun e => (e.op, e.started, e.resume)) = some (.mma 3 0x1000 0x1400 1 2 8 true 0, false, true))
    ∧ (let s := demoTwin (.zero 3) false false
       TwinReady s 0 ∧ (s.twin 0).head.map MatEntry.op = some (.zero 3))
    ∧ (let s := on (demoTwin (.read 0 62 zeroVReg 254 true 0 5) false false) fun w => { w with pending := [{ dst := .v 4, val := .v zeroVReg, need := 1, tag := 8 }] }
       TwinReady s 0 ∧ (s.twin 0).head.map MatEntry.op = some (.read 0 62 zeroVReg 254 true 0 5) ∧ 0 < s.waves.length
       ∧ (s.wave 0).pending[0]? = some { dst := .v 4, val := .v zeroVReg, need := 1, tag := 8 })
    ∧ (let s := demoTwin (.write 3 62 (List.replicate 4 zeroVReg)) false false
       TwinReady s 0 ∧ (s.twin 0).head.map MatEntry.op = some (.write 3 62 (List.replicate 4 zeroVReg))) := by
  simp only [twinReady_iff]; decide +kernel
/-! #### Copies -/

/-- A descriptor at VA 0x10040 that moves four doublewords in the group's scratchpad window, with its address in S6 (R224). -/
def demoCopy (src : Nat) : State :=
  let b := bytesOf 8 src ++ bytesOf 8 0x2000 ++ bytesOf 8 0xF1 ++ zeros 8 ++ bytesOf 4 4 ++ zeros 36 ++ bytesOf 8 8 ++ zeros 64 ++ bytesOf 8 8
  withS ({ demo with mem := { demo.mem with home := Memory.writeN [] 0x50040 b } } : State) [(6, 0x10040)]

/-- The copy that the descriptor asks for. -/
def theCopy (s : State) : Option Copy :=
  copyOf (((List.range 256).map (0x50040 + ·)).map (nearByte s)) .plain { (default : Copy) with smode := false }

theorem witness_CopyIssue :
    (let s := demoCopy 0x1000
     Issues s 0 (.tcopy ⟨false, 5, 6, 0, 3⟩) ∧ ((s.wave 0).readS 6).toNat % 64 = 0 ∧ s.detOf (s.wave 0) = false ∧ Clean s ∧ RdcWf s
     ∧ Memory.wf s.mem.home = true ∧ Reaches s 0 .load true 6 256 1 [(0, 0)] [(0, (List.range 256).map (0x50040 + ·))]
     ∧ (theCopy s).any (fun c => c.spRanges.all (s.spRangeOk (s.wave 0))) = true) := by
  simp only [issues_iff, clean_iff, rdcWf_iff, reaches_iff]; decide +kernel

/-- A misaligned descriptor, one of zeros, and a source below the window. -/
theorem witness_CopyIssue_refused :
    (let s := withS demo [(6, 0x10041)]
     Issues s 0 (.thash ⟨false, 5, 6, 0, 0⟩) ∧ ((s.wave 0).readS 6).toNat % 64 ≠ 0 ∧ MayEnter s 0)
    ∧ (let s := withS demo [(6, 0x10040)]
       Issues s 0 (.tcopyw ⟨false, 5, 6, 0, 0⟩) ∧ MayEnter s 0 ∧ copyOf (((List.range 256).map (0x50040 + ·)).map (nearByte s)) .window default = none)
    ∧ (let s := demoCopy 0xFF8
       Issues s 0 (.tcopy ⟨false, 5, 6, 0, 3⟩) ∧ MayEnter s 0 ∧ (theCopy s).any (fun c => c.spRanges.any fun r => !s.spRangeOk (s.wave 0) r) = true) := by
  simp only [issues_iff, mayEnter_iff]; decide +kernel

/-- A plain copy of four doublewords from 0x1000 to 0x2000 of core 0's scratchpad, wave 0's, with sequence number 0. -/
def copy0 : Copy :=
  { (default : Copy) with srcSp := true, dstSp := true, src := 0x1000, dst := 0x2000, esize := 8, ext := [4], sstride := [8], dstride := [8] }

/-- Queue 3 of cluster 0 with a copy at its head. -/
def demoQueue (c : Copy) : State := demo.modCopyQueue 3 fun _ => { next := 1, entries := [c] }

/-- The ticket of sequence number 0 in queue 3 of cluster 0. -/
def ticket0 : Word := BitVec.ofNat 64 (2 ^ 32 * 3)

theorem witness_CopyWaits :
    (Issues demo 0 (.cfence false 15) ∧ 4 * demo.physCluster (demo.wave 0).ctx (demo.wave 0).clid + 4 ≤ demo.copies.length)
    ∧ (let s := withS demo [(9, ticket0)]
       ((s.wave 0).readS 9).toNat < 2 ^ 40 ∧ ((s.wave 0).readS 9).toNat / 2 ^ 34 = (s.wave 0).clid ∧ s.detOf (s.wave 0) = false
       ∧ s.copiesUpTo (s.queueOf (s.wave 0) 3) 0 = [] ∧ Issues s 0 (.cwait false 9) ∧ Issues s 0 (.cyield false 9 (-4)))
    ∧ (let s := withS (demoQueue copy0) [(9, ticket0)]
       s.copiesUpTo (s.queueOf (s.wave 0) 3) 0 = [copy0] ∧ copy0.stage ≠ .stopped ∧ copy0.heldBack = false
       ∧ Issues s 0 (.cwait false 9) ∧ Issues s 0 (.cyield false 9 (-4))) := by
  simp only [issues_iff]; decide +kernel

/-- The waits of a handler, of a deterministic launch and of a checked pair; a stopped copy that has been delivered. -/
theorem witness_CopyWaits_handler :
    let s := withS (on (demoQueue copy0) fun w => { w with priv := .s, state := .handler }) [(9, ticket0)]
    Issues s 0 (.cyield false 9 (-4)) ∧ (s.wave 0).priv = .s ∧ s.copiesUpTo (s.queueOf (s.wave 0) 3) 0 = [copy0] := by
  simp only [issues_iff]; decide +kernel

theorem witness_CopyWaits_det :
    let s := withS demoDet [(9, ticket0)]
    s.detOf (s.wave 0) = true ∧ s.copiesUpTo (s.queueOf (s.wave 0) 3) 0 = [] ∧ Issues s 0 (.cwait false 9) ∧ Issues s 0 (.cyield false 9 4) := by
  simp only [issues_iff]; decide +kernel

/-- A copy that waits for a commit at the head of queue 3. -/
def held0 : Copy := { copy0 with heldBack := true }
def withHeld (s : State) : State := withS (s.modCopyQueue 3 fun _ => { next := 1, entries := [held0] }) [(9, ticket0)]

theorem witness_CopyWaits_held :
    ((withHeld demoDet).detOf ((withHeld demoDet).wave 0) = true ∧ (withHeld demoDet).copiesUpTo 3 0 = [held0]
      ∧ (withHeld demoDet).queueOf ((withHeld demoDet).wave 0) 3 = 3 ∧ held0.launch = ((withHeld demoDet).wave 0).launch
      ∧ Issues (withHeld demoDet) 0 (.cwait false 9))
    ∧ ((withHeld demoIl3).checked ((withHeld demoIl3).wave 0) = true ∧ (withHeld demoIl3).copiesUpTo 3 0 = [held0]
      ∧ Issues (withHeld demoIl3) 0 (.cyield false 9 4)) := by
  simp only [issues_iff]; decide +kernel

theorem witness_CopyWaits_again :
    let c := { copy0 with stage := .stopped, fault := some (0x12, 0x90000), delivered := true }
    let s := withS (demoQueue c) [(9, ticket0)]
    s.copiesUpTo 3 0 = [c] ∧ s.stoppedCopy 0 3 0 = none ∧ c.ctx = (s.wave 0).ctx ∧ 3 < s.copies.length ∧ Issues s 0 (.cwait false 9) := by
  simp only [issues_iff]; decide +kernel

theorem witness_CopyWaits_traps :
    (let c := { copy0 with stage := .stopped, fault := some (0x12, 0x90000) }
     let s := withS (demoQueue c) [(9, ticket0)]
     Issues s 0 (.cwait false 9) ∧ MayEnter s 0 ∧ s.holdsOf (s.wave 0) = false ∧ s.stoppedCopy 0 (s.queueOf (s.wave 0) 3) 0 = some c)
    ∧ (let s := withS demo [(9, BitVec.ofNat 64 (2 ^ 34))]
       Issues s 0 (.cyield false 9 0) ∧ MayEnter s 0 ∧ ((s.wave 0).readS 9).toNat / 2 ^ 34 % 64 ≠ (s.wave 0).clid)
    ∧ (let s := withS demo [(9, BitVec.ofNat 64 (2 ^ 40))]
       Issues s 0 (.cwait false 9) ∧ MayEnter s 0 ∧ 2 ^ 40 ≤ ((s.wave 0).readS 9).toNat) := by
  simp only [issues_iff, mayEnter_iff]; decide +kernel

theorem witness_CopySteps :
    (let s := demoQueue copy0
     3 < s.copies.length ∧ s.nextCopy 3 = some copy0 ∧ (∀ l ∈ s.launches, l.spVeils = []) ∧ s.mayStart copy0 = true ∧ copy0.kind = .plain ∧ copy0.srcSp = true
     ∧ copy0.dstSp = true ∧ copy0.done = 0 ∧ s.mem.spErrs = [] ∧ Memory.wf s.mem.sp = true ∧ copy0.total = 4)
    ∧ (let s := demoQueue { copy0 with heldBack := true }
       s.nextCopy 3 = some { copy0 with heldBack := true } ∧ s.mayStart { copy0 with heldBack := true } = false)
    ∧ demoIl3.checked (demoIl3.wave copy0.wave) = true ∧ demo.nextCopy 3 = none
    ∧ (((demoQueue { copy0 with stage := .running, slot := some 63 }).copyQueue 3).entries.find? fun x => x.stage == .running) = some { copy0 with stage := .running, slot := some 63 }
    ∧ (demoQueue copy0).detOf ((demoQueue copy0).wave copy0.wave) = false ∧ copy0.ctx < demo.ctxs.length := by decide +kernel

/-- The scratchpad bytes of the copy's element `n` at its source and destination. -/
def copySrc (n : Nat) : List Nat := (demoQueue copy0).copyKeys copy0 (addrPlus copy0.src (offsetAt copy0.ext copy0.sstride n)) copy0.esize
def copyDst (n : Nat) : List Nat := (demoQueue copy0).copyKeys copy0 (addrPlus copy0.dst (offsetAt copy0.ext copy0.dstride n)) copy0.esize

theorem witness_CopySteps_apart : (List.range 4).map copySrc = (List.range 4).map (fun n => (List.range 8).map (0x1000 + 8 * n + ·))
    ∧ (List.range 4).map copyDst = (List.range 4).map (fun n => (List.range 8).map (0x2000 + 8 * n + ·)) := by decide +kernel

/-- A copy from an address with no translation stops at its first element; a wave waits for a running one. -/
theorem witness_CopySteps_stops :
    (let c := { copy0 with srcSp := false, src := 0x90000 }
     let s := demoQueue c
     s.nextCopy 3 = some c ∧ s.mayStart c = true ∧ (s.performCopy c 3).2.2 = some (some 0x12, 0x90000) ∧ ((s.performCopy c 3).1.group 0).live = true
     ∧ ((s.performCopy c 3).1.copyQueue 3).entries = (s.copyQueue 3).entries ∧ (s.performCopy c 3).2.1.seq = c.seq)
    ∧ (let s := on (demoQueue { copy0 with stage := .running }) fun w => { w with state := .blocked, wait := .ticket 3 0, stalled := some (.cwait false 9) }
       0 < s.waves.length ∧ (s.wave 0).state = .blocked ∧ (s.wave 0).wait = .ticket 3 0 ∧ (s.wave 0).stalled = some (.cwait false 9)
       ∧ (∀ y ∈ s.copiesIn 3, y.seq ≠ copy0.seq → seqBefore y.seq 0 = false)) := by decide +kernel

/-! #### Pods -/

/-- A kernel of pips of 32 bytes that forms groups of two, with 8 registers. -/
def kernel0 : Kernel := { (default : Kernel) with entry := 0x40, regs := 8, scratch := 0x1000, record := 32, threshold := 2, timer := 3, depthLimit := 1, node := true }

/-- The launch of a graph with a pod and a continuation pod, pool 64 bytes; the handles are 0x1000 and 0x1001, in S7 and S8. -/
def demoGraph : State :=
  withS ({ demo with
    images := [{ ctx := 0, base := 0x10000, kernels := [kernel0], points := [], acorns := [] }]
    graphs := [{ ctx := 0, image := 0, poolSize := 64
                 pods := [{ idx := 0, kernel := 0, cont := false, ancestors := 0, roles := 0, gen := 1 },
                          { idx := 1, kernel := 0, cont := true, ancestors := 0, roles := 0, gen := 1 }] }]
    launches := demo.launches.map fun l => { l with graph := some 0 } } : State) [(7, 0x1000), (8, 0x1001)]

/-- Its pool with `n` bytes in use and an overflow policy. -/
def demoPool (n policy : Nat) : State :=
  { demoGraph with
    images := demoGraph.images.map fun x => { x with kernels := [{ kernel0 with overflow := policy }] }
    graphs := demoGraph.graphs.map fun g => { g with poolUsed := n } }

/-- The lanes in which an EMIT of the tests acts. -/
def lane3 (s : State) : State := on s fun w => { w with exec := 8 }

/-- EMIT of one record: the last one that finds room, and one byte too many under each policy; an empty mask. -/
theorem witness_PodIssue :
    (let s := lane3 (demoPool 32 0)
     let w := s.wave 0
     s.podOf w (w.readS 7) = some (0, 0) ∧ s.holdsOf w = false ∧ (s.pod 0 0).cont = false ∧ 16 * (1 + 1) = (s.podKernel 0 0).record
     ∧ (∀ l ∈ lanesOf (w.governing false 0), w.depthOf l + s.deeper w 0 0 ≤ (s.podKernel 0 0).depthLimit)
     ∧ Issues s 0 (.emit ⟨false, false, 0, 2, 7, 0, 0, 1⟩) ∧ lanesOf (w.governing false 0) = [3]
     ∧ (s.graph 0).poolUsed + 1 * (s.podKernel 0 0).record ≤ (s.graph 0).poolSize)
    ∧ (∀ policy, policy < 3 → let s := lane3 (demoPool 33 policy)
       Issues s 0 (.emit ⟨false, false, 0, 2, 7, 0, 0, 1⟩) ∧ MayEnter s 0 ∧ (s.podKernel 0 0).overflow = policy
       ∧ ¬((s.graph 0).poolUsed + 1 * (s.podKernel 0 0).record ≤ (s.graph 0).poolSize))
    ∧ (let s := on demoGraph fun w => { w with exec := 0 }
       Issues s 0 (.emit ⟨false, false, 0, 2, 7, 0, 0, 1⟩) ∧ lanesOf ((s.wave 0).governing false 0) = []) := by
  simp only [issues_iff, mayEnter_iff]; decide +kernel

/-- EMIT in a deterministic launch, and of a pip deeper than its pod's limit. -/
theorem witness_PodIssue_waits :
    (let s := lane3 (inGroup (demoPool 0 0) fun g => { g with det := true })
     Issues s 0 (.emit ⟨false, false, 0, 2, 7, 0, 0, 1⟩) ∧ s.holdsOf (s.wave 0) = true)
    ∧ (let s := on (lane3 (demoPool 0 0)) fun w => { w with pipDepth := List.replicate 32 2 }
       Issues s 0 (.emit ⟨false, false, 0, 2, 7, 0, 0, 1⟩) ∧ MayEnter s 0
       ∧ ∃ l ∈ lanesOf ((s.wave 0).governing false 0), (s.podKernel 0 0).depthLimit < (s.wave 0).depthOf l + s.deeper (s.wave 0) 0 0) := by
  simp only [issues_iff, mayEnter_iff]; decide +kernel

theorem witness_PodIssue_others :
    (let s := withV (lane3 (demoPool 0 0)) 2 zeroVReg
     let w := s.wave 0
     s.podOf w (w.readS 8) = some (0, 1) ∧ (s.pod 0 1).cont = true ∧ (s.podKernel 0 1).record = 32
     ∧ (∀ l ∈ lanesOf (w.governing false 0), (laneOf (w.readV 0) l).toNat % 8 = 3 ∧ (laneOf (w.readV 2) l).toNat % 8 = 0)
     ∧ Issues s 0 (.emitc ⟨false, false, 0, 2, 8, 0, 0⟩))
    ∧ (Issues demo 0 (.emit ⟨false, false, 0, 2, 7, 0, 0, 1⟩) ∧ MayEnter demo 0 ∧ demo.podOf (demo.wave 0) ((demo.wave 0).readS 7) = none)
    ∧ (let s := lane3 (demoPool 0 0)
       Issues s 0 (.emit ⟨false, false, 0, 2, 7, 0, 0, 2⟩) ∧ MayEnter s 0 ∧ s.podOf (s.wave 0) ((s.wave 0).readS 7) = some (0, 0)
       ∧ 16 * (2 + 1) ≠ (s.podKernel 0 0).record)
    ∧ Issues demo 0 (.piprd ⟨false, false, 0, 4, true⟩) := by
  simp only [issues_iff, mayEnter_iff]; decide +kernel

/-- The continuation words of an EMITC are multiples of 8. -/
theorem witness_PodIssue_emitc :
    let s := withV (withV (lane3 (demoPool 0 0)) 0 (lanesBy fun l => 8 * l)) 2 zeroVReg
    (Issues (lane3 (demoPool 0 0)) 0 (.emitc ⟨false, false, 0, 2, 8, 0, 0⟩) ∧ MayEnter (lane3 (demoPool 0 0)) 0
      ∧ (laneOf (((lane3 (demoPool 0 0)).wave 0).readV 0) 3).toNat % 8 ≠ 0)
    ∧ (let s := on demoGraph fun w => { w with exec := 0 }
       Issues s 0 (.emitc ⟨false, false, 0, 2, 8, 0, 0⟩) ∧ lanesOf ((s.wave 0).governing false 0) = [])
    ∧ Issues s 0 (.emitc ⟨false, false, 0, 2, 8, 0, 0⟩)
    ∧ ∀ l ∈ lanesOf ((s.wave 0).governing false 0), (laneOf ((s.wave 0).readV 0) l).toNat % 8 = 0 ∧ (laneOf ((s.wave 0).readV 2) l).toNat % 8 = 0 := by
  simp only [issues_iff, mayEnter_iff]; decide +kernel

/-- A JOINDEC of two lanes on one word; one in a deterministic launch. -/
theorem witness_Joins :
    (let s := withV (on demo fun w => { w with exec := 3 }) 6 (lanesBy fun _ => 0x10048)
     Issues s 0 (.joindec ⟨false, false, 0, 4, 6, 0⟩) ∧ Clean s ∧ s.detOf (s.wave 0) = false
     ∧ Reaches s 0 .store true 0 8 8 ((lanesOf ((s.wave 0).governing false 0)).map fun l => (l, laneOf ((s.wave 0).readV 6) l))
        [(0, (List.range 8).map (0x50048 + ·)), (1, (List.range 8).map (0x50048 + ·))])
    ∧ (Issues demoDet 0 (.joindec ⟨false, false, 0, 4, 6, 0⟩) ∧ demoDet.detOf (demoDet.wave 0) = true ∧ MayEnter demoDet 0) := by
  simp only [issues_iff, mayEnter_iff, clean_iff, reaches_iff]; decide +kernel

/-- The request that brings the join word at 0x50048 from 1 to 0, with a pip that waits on it. -/
def joinReq : AtomReq :=
  { (default : AtomReq) with w64 := true, ret := true, join := true, scope := .device, va := 0x10048, pa := 0x50048, lanes := [(0, 0, 0)] }

def demoJoin : State :=
  { demoGraph with
    mem := { demoGraph.mem with home := [(0x50048, 1)] }
    atomics := [joinReq]
    graphs := demoGraph.graphs.map fun g => { g with pods := modAt (fun p : Pod => { p with fifo := [{ bytes := zeros 32, depth := 0, join := 0x10048 }] }) g.pods 1 } }

theorem witness_Joins_performed :
    demoJoin.atomics[0]? = some joinReq ∧ demoJoin.atomicReady 0 = true ∧ joinReq.join = true ∧ joinReq.w64 = true
    ∧ joinReq.wave < demoJoin.waves.length ∧ demoJoin.detOf (demoJoin.wave 0) = false ∧ Sound demoJoin (demoJoin.coreOf (demoJoin.wave 0))
    ∧ demoJoin.isPeer joinReq.pa = false ∧ joinReq.pa % 8 = 0
    ∧ toSigned 64 (ofBytes ((List.range 8).map fun i => byteAt demoJoin 0 (0x50048 + i))) = 1 ∧ joinReq.lanes.length = 1
    ∧ 0 < demoJoin.graphs.length ∧ (demoJoin.graph 0).ctx = joinReq.ctx ∧ (demoJoin.graph 0).live = true ∧ 1 < (demoJoin.graph 0).pods.length
    ∧ (demoJoin.pod 0 1).cont = true ∧ ({ bytes := zeros 32, depth := 0, join := 0x10048 } : Pip) ∈ (demoJoin.pod 0 1).fifo := by
  simp only [sound_iff, clean_iff, l1Wf_iff, rdcWf_iff]; decide +kernel

/-- One record on its way to node 0, which holds `l` pips. -/
def demoEmit (l : List Pip) (r : EmitReq) : State :=
  { demoGraph with
    emits := [r], graphs := demoGraph.graphs.map fun g => { g with pods := modAt (fun p : Pod => { p with fifo := l, timer := some 5 }) g.pods 0 } }

/-- A pip of zeros, and wave 0's request for it. -/
def pip0 : Pip := { bytes := zeros 32, depth := 0 }
def emit0 : EmitReq := { wave := 0, tag := 1, graph := 0, node := 0, pips := [pip0], mask := 8, cont := false }

/-- A first record, the one that makes a group, a seed, and one of a wave that waits; a timer that ends. -/
theorem witness_PodSteps :
    (let s := demoEmit [] emit0
     s.emits[0]? = some emit0 ∧ s.mayAppend 0 = true ∧ emit0.wave < s.waves.length ∧ emit0.graph < s.graphs.length
     ∧ emit0.node < (s.graph 0).pods.length ∧ (s.pod 0 0).cont = false ∧ s.graphLaunch 0 = some 0 ∧ (s.launch 0).det = false
     ∧ s.appendPair emit0 = none)
    ∧ (let s := demoEmit [pip0] emit0
       s.servedFor 0 0 = some 0 ∧ (s.pod 0 0).timer = some 5 ∧ (s.pod 0 0).fifo.length < (s.podKernel 0 0).threshold)
    ∧ (let s := (demoEmit [pip0] emit0).modPod 0 0 fun p => { p with timer := some 1 }
       s.servedFor 0 0 = some 0 ∧ (s.pod 0 0).timer = some 1 ∧ (s.pod 0 0).fifo.length ≠ 0)
    ∧ (let s := demoEmit [pip0, pip0, pip0] emit0
       s.servedFor 0 0 = some 0 ∧ (s.podKernel 0 0).threshold ≤ (s.pod 0 0).fifo.length)
    ∧ (demoEmit [] { emit0 with seed := true }).mayAppend 0 = true
    ∧ (let s := on (demoEmit [] { emit0 with blocked := true }) fun w => { w with state := .blocked, wait := .emit 1, stalled := some (.emit ⟨false, false, 0, 2, 7, 0, 0, 1⟩) }
       s.mayAppend 0 = true ∧ (s.wave 0).stalled = some (.emit ⟨false, false, 0, 2, 7, 0, 0, 1⟩)) := by decide +kernel

theorem witness_PodSteps_deadlock :
    (let s : State := { demoEmit [] { emit0 with blocked := true } with waves := [{ demoWave 0 with state := .blocked, wait := .emit 1, stalled := some (.emit ⟨false, false, 0, 2, 7, 0, 0, 1⟩) }] }
     s.podDeadlocked 0 = true ∧ (s.launch 0).det = false ∧ (s.wave 0).launch = 0 ∧ (s.wave 0).state = .blocked ∧ (s.wave 0).wait = .emit 1) := by
  decide +kernel
/-! #### Returns, homes, checked pairs -/

theorem witness_WaveReturns :
    (0 < demoPending.waves.length ∧ (demoPending.wave 0).pending[0]? = some { dst := .s 5, val := .s 77 })
    ∧ (let s := on demo fun w => { w with hold := .writeback }
       (s.wave 0).hold = .writeback)
    ∧ (let s := on demo fun w => { w with hold := .icinv .cluster }
       (s.wave 0).hold = .icinv .cluster ∧ 3 < s.cores.length)
    ∧ (let s := on demoDet fun w => { w with quantumDue := true }
       (s.wave 0).quantumDue = true)
    ∧ (let s := on demoDet fun w => { w with quantumEnded := true }
       (s.wave 0).quantumEnded = true)
    ∧ (let s := on demoPending fun w => { w with state := .parked }
       (s.wave 0).state = .parked ∧ dropAt (s.wave 0).pending 0 = [] ∧ (s.wave 0).trap = none ∧ (s.wave 0).abort = none) := by decide +kernel

/-- Core 0 with a sector of which byte 63 is dirty, filled in epoch 0. -/
def sector0 : L1Sector := { sec := 0x1401, data := List.replicate 64 7, dirty := BitVec.ofNat 64 (2 ^ 63), filled := true, epoch := 0, owner := 0 }
def demoL1 : State := demo.modCore 0 fun c => { c with l1 := [sector0] }

theorem witness_HomesAdvance :
    Sound demoL1 0 ∧ (demoL1.core 0).sector 0x1401 = some sector0
    ∧ (let s : State := { demo with mem := { demo.mem with symErrs := [(0x1401, [(3, 0x55)])] } }
       s.isPeer (64 * 0x1401) = false ∧ 64 * 0x1401 % 2 ^ 40 < 0x3C00000000 ∧ lookupD [] s.mem.symErrs 0x1401 ≠ []
       ∧ rsDecode (lookupD [] s.mem.symErrs 0x1401) = .corrects [(3, 0x55)] ∧ residual (lookupD [] s.mem.symErrs 0x1401) [(3, 0x55)] = [])
    ∧ lookupD [] demo.mem.symErrs 0x1401 = [] := by
  simp only [sound_iff, clean_iff, l1Wf_iff, rdcWf_iff]; decide +kernel

/-- A store of one byte in lane 0. -/
def entry0 : CheckEntry := { wave := 0, pc := 0x10000, core := 0, ctx := 0, va := 0x10040, pa := 0x50040, bytes := [(0x50040, 1)], size := 1, mask := 1, perWave := true, hint := 0 }

/-- The checked pair changed. -/
def onPair (f : Pair → Pair) : State := demoIl3.modPair 0 f

theorem witness_CheckedPairs :
    0 < demoIl3.jalti.pairs.length
    ∧ (let s := onPair fun q => { q with buffer := [entry0] }
       (s.pair 0).mode = .checked ∧ (s.pair 0).frozen = false ∧ (s.pair 0).buffer[0]? = some entry0 ∧ entry0.compared = false ∧ (s.pair 0).inject = none
       ∧ (s.pair 0).acornErrs = [] ∧ (s.pair 0).bufferErrs = [])
    ∧ (let s := onPair fun q => { q with buffer := [entry0], bufferErrs := [[3, 9]] }
       (s.pair 0).buffer[0]? = some entry0 ∧ (s.pair 0).acornErrs = [] ∧ unreadable (s.pair 0).bufferErrs = true)
    ∧ (let j : Inject := { cluster := 1, n := 1, lane := 0, bit := 7, counting := true }
       let s := onPair fun q => { q with buffer := [entry0], inject := some j }
       (s.pair 0).inject = some j ∧ j.counting = true ∧ j.n ≤ 1 ∧ j.fires entry0 = true ∧ (s.pair 0).retry = 0)
    ∧ (let s := onPair fun q => { q with wanted := some 0, buffer := [{ entry0 with compared := true }] }
       s.acornWanted 0 = some 0 ∧ (s.pair 0).frozen = false ∧ s.pairQuiet 0 = true)
    ∧ (let s := onPair fun q => { q with frozen := true }
       (s.pair 0).mode = .checked ∧ (s.pair 0).frozen = true)
    ∧ ((demo.pair 23).mode = .independent ∧ demo.pairWaves 23 = [] ∧ (demo.pair 0).mode = .independent ∧ demo.pairWaves 0 ≠ [])
    ∧ (∃ k ∈ demoIl3.pairWaves 0, demoIl3.ilevelOf (demoIl3.wave k) = 3)
    ∧ (let s : State := { demoIl3 with waves := [] }
       (s.pair 0).mode = .checked ∧ s.pairWaves 0 = [])
    ∧ (onPair (fun q => { q with mode := .offline })).jalti.pairs.head?.map Pair.mode = some .offline := by decide +kernel

/-! #### Launches -/

/-- The context with an image and a flat kernel of 8 registers, no launch, and a launch descriptor at VA 0x10100 (R73, R274). -/
def demoLaunch : State :=
  { demoMapped with
    waves := [], groups := [], launches := []
    images := [{ ctx := 0, base := 0x10000, kernels := [{ kernel0 with node := false }], points := [], acorns := [] }]
    mem := { demoMapped.mem with home := (0x50100, 1) :: (0x50120, 1) :: tables } }

/-- The LAUNCH entry that names it. -/
def launchCmd (addr : Word) : Cmd := { fn := 0, queue := 0, tag := 1, addr := addr, args := [] }

/-- The bytes that it reads. -/
def launchBytes : List Byte := bytesOf 8 1 ++ zeros 24 ++ bytesOf 8 1 ++ zeros 216

theorem witness_LaunchStates_read : demoLaunch.cpRead (demoLaunch.cmdCtx (launchCmd 0x10100)) 0x10100 256 = some launchBytes := by
  rw [cpRead_page demoLaunch _ _ _ 0x50100 ⟨rfl, rfl, rfl, rfl⟩ (by decide) (by decide +kernel)]
  decide +kernel

theorem witness_LaunchStates :
    (0x10101 : Word).toNat % 64 ≠ 0 ∧ demoLaunch.cpRead 0 0x20000 256 = none
    ∧ ((inCtx demoLaunch fun c => { c with lastSeq := some 1 }).cpPost 0 0x10100 256).launchStatus (launchOf (launchCmd 0x10100) 0 launchBytes)
        launchBytes (some []) = some 0x10 := by decide +kernel

/-- The descriptor read, the launch passes. -/
def launch0 : Launch :=
  let l := launchOf (launchCmd 0x10100) 0 launchBytes
  { l with ilevel := demoLaunch.effectiveLevel l }

theorem witness_LaunchStates_passes :
    demoLaunch.readEdges 0 0 0 = some []
    ∧ (demoLaunch.cpPost 0 0x10100 256).launchStatus launch0 launchBytes (some []) = none
    ∧ (demoLaunch.cpPost 0 0x10100 256).edgesMapped 0 [] = true
    ∧ (demoLaunch.cpPost 0 0x10100 256).readSeeds launch0 launchBytes = some [] := by decide +kernel

/-- A WAITING launch with an edge of the host; a hint for domain 0; a FINISHING launch; one that is torn down. -/
theorem witness_LaunchStates_steps :
    (let e : Edge := { producer := none, regions := [(0x10100, 64)] }
     let s : State := { demoMapped with launches := [{ (default : Launch) with state := .waiting, edges := [e] }] }
     0 < s.launches.length ∧ (s.launch 0).state = .waiting ∧ (s.launch 0).edges[0]? = some e ∧ e.producer = none ∧ e.hashed = 0
     ∧ e.regions[0]? = some (0x10100, 64))
    ∧ (let s : State := { demo with launches := [{ (default : Launch) with state := .running, oppt := 4, ngroups := 1 }] }
       0 < s.jalti.points.length ∧ s.countsFor 0 0 = true ∧ (s.launch 0).oppt ≠ 7)
    ∧ (let s : State := { demo with launches := [{ (default : Launch) with state := .finishing }] }
       (s.launch 0).state = .finishing ∧ (s.launch 0).tearing = false ∧ s.atomics = [] ∧ (∀ p ∈ s.jalti.pairs, p.buffer = [])
       ∧ ∀ q ∈ s.copies, q.entries = [])
    ∧ (let s : State := { demo with launches := [{ (default : Launch) with state := .running, tearing := true }] }
       (s.launch 0).tearing = true ∧ (s.wave 0).launch = 0 ∧ (s.wave 0).state ≠ .exited ∧ ∀ q ∈ s.copies, ∀ c ∈ q.entries, c.launch = 0 → c.heldBack = true)
    ∧ (let c : Copy := { (default : Copy) with launch := 0, stage := .running }
       let s : State := { demo with launches := [{ (default : Launch) with state := .running, tearing := true }], copies := [{ entries := [c] }] }
       (s.launch 0).tearing = true ∧ ∃ q ∈ s.copies, ∃ c ∈ q.entries, c.launch = 0 ∧ c.heldBack = false ∧ c.stage ≠ .stopped)
    ∧ (let s : State := { demo with launches := [{ (default : Launch) with state := .finishing }], atomics := [demoReq] }
       (s.launch 0).state = .finishing ∧ ∃ r ∈ s.atomics, (s.wave r.wave).launch = 0)
    ∧ (demo.launch 0).tearing = false := by decide +kernel

/-- A flat launch with its last group to come; a gang on one twin's cores. -/
def demoFlat (gang : Nat) : State :=
  { demoLaunch with launches := [{ (default : Launch) with state := .running, ngroups := 1, waves := 2, gang := gang, seq := 5 }] }

theorem witness_Placement :
    (let s := demoFlat 0
     0 < s.launches.length ∧ s.nextCandidate 0 = some (.flat 0) ∧ (s.candPlan (.flat 0)).isSome = true)
    ∧ (let s := demoFlat 1
       s.nextCandidate 0 = some (.gang 0) ∧ (s.launch 0).nextGroup = 0
       ∧ ((s.gangSet 0 0).bind (s.planGang 0 0 (s.candKernel (.gang 0)) (s.launch 0).waves)).isSome = true) := by decide +kernel

/-- A formed group of 33 pips, a continuation pip that is launchable. -/
theorem witness_Placement_graph :
    (let f : Formed := { grpid := 4, node := 0, pips := List.replicate 33 pip0, order := 1 }
     let s : State := { demoGraph with waves := [], groups := [], launches := demoGraph.launches.map fun l => { l with formed := [f] } }
     s.nextCandidate 0 = some (.formed 0 0) ∧ (s.candPlan (.formed 0 0)).isSome = true ∧ (s.launch 0).formed[0]? = some f ∧ f.pips ≠ [])
    ∧ (let s : State := { demoGraph with
         waves := [], groups := []
         lc := 1
         graphs := demoGraph.graphs.map fun g => { g with pods := modAt (fun p : Pod => { p with launchable := [pip0] }) g.pods 1 } }
       0 < s.graphs.length ∧ 1 < (s.graph 0).pods.length ∧ s.nextCandidate (s.graph 0).ctx = some (.cont 0 0 1)
       ∧ (s.candPlan (.cont 0 0 1)).isSome = true ∧ (s.pod 0 1).launchable = [pip0] ∧ fieldAt pip0.bytes 0 8 < 2 ^ 56)
    ∧ (let p : Pip := { pip0 with bytes := List.replicate 8 255 }
       let s : State := { demoGraph with
         waves := [], groups := []
         lc := 1
         graphs := demoGraph.graphs.map fun g => { g with pods := modAt (fun x : Pod => { x with launchable := [p] }) g.pods 1 } }
       s.nextCandidate (s.graph 0).ctx = some (.cont 0 0 1) ∧ (s.candPlan (.cont 0 0 1)).isSome = true
       ∧ (s.pod 0 1).launchable = [p] ∧ 2 ^ 56 ≤ fieldAt p.bytes 0 8) := by decide +kernel

/-- A saved group that fits and comes before the next group of a flat launch. -/
theorem witness_Placement_saved :
    (let s : State := { demo with
       waves := demo.waves.map fun w => { w with state := .saved, launch := 1 }, twins := List.replicate 4 Twin.reset
       groups := demo.groups.map fun g => { g with prio := 5, launch := 1 }
       launches := (demoFlat 0).launches ++ [{ (default : Launch) with state := .running }], images := demoLaunch.images }
     ∃ g ∈ s.restorable 0, s.groupFits g = true ∧ s.candidates 0 = [.flat 0] ∧ ∀ x ∈ s.candidates 0, s.savedKey g ≤ s.candKey x) := by decide +kernel

/-- A gang whose cores' slots are taken, at its first attempt and at its sixteenth; one that backs off. -/
theorem witness_Placement_gang :
    (let s : State := { demoFlat 1 with cores := List.replicate 8 { reserved := some (9, 9) } }
     s.nextCandidate 0 = some (.gang 0) ∧ (s.gangSet 0 0).bind (s.planGang 0 0 (s.candKernel (.gang 0)) (s.launch 0).waves) = none
     ∧ s.mayFix 0 0 = false ∧ (s.gangOf 0 0).token = false ∧ (s.launch 0).ctx < s.ctxs.length)
    ∧ (let s := (demoFlat 1).modLaunch 0 fun l => { l with gangs := [{ grpid := 0, lfsr := 5, attempts := 15, backingOff := true }] }
       (s.gangOf 0 0).backingOff = true ∧ 15 ≤ (s.gangOf 0 0).attempts)
    ∧ (let s := inCtx ({ demoFlat 1 with cores := List.replicate 8 { reserved := some (9, 9) } } : State) fun c => { c with tokens := [((0, 0), 0)] }
       s.nextCandidate 0 = some (.gang 0) ∧ (s.gangSet 0 0).isSome = true
       ∧ (s.gangSet 0 0).bind (s.planGang 0 0 (s.candKernel (.gang 0)) (s.launch 0).waves) = none ∧ s.mayFix 0 0 = true) := by decide +kernel

theorem witness_EpochEnds :
    (let s : State := { demoDet with
       waves := demoDet.waves.map fun w => { w with quantumEnded := true }
       launches := demoDet.launches.map fun l => { l with det := true } }
     s.epochReady 0 = true ∧ 0 < s.waves.length ∧ (s.wave 0).launch = 0 ∧ (s.wave 0).state = .ready ∧ (s.wave 0).effects = [] ∧ (s.wave 0).wait = .nothing
     ∧ (s.wave 0).stalled = none ∧ s.emits = [] ∧ (s.launch 0).ilevel ≠ 3)
    ∧ demo.epochReady 0 = false := by decide +kernel

/-! #### Preemption, services -/

/-- A point at the waves' PC with S1, V0, P1 and the S bank live (R74). -/
def point0 : PreemptPoint := { addr := 0x10000, plive := 2, flags := 4, slive := 2, vlive := 1 }

/-- The context under a preemption request. -/
def demoPreempt : State :=
  inCtx ({ demo with images := [{ ctx := 0, base := 0x10000, kernels := [kernel0], points := [point0], acorns := [] }] } : State) fun c =>
    { c with preempting := true }

theorem witness_Preemption :
    (0 < demoTxn.ctxs.length ∧ (demoTxn.ctx 0).alive = true ∧ (demoTxn.ctx 0).switchedOut = false ∧ (demoTxn.ctx 0).preempting = false
      ∧ (demoTxn.wave 0).resident = true ∧ (demoTxn.wave 0).txn = some txn0 ∧ (demoTxn.wave 0).abort = none ∧ (demoTxn.wave 0).pending = [])
    ∧ (0 < demoPreempt.waves.length ∧ (demoPreempt.ctx 0).preempting = true ∧ demoPreempt.drained 0 = true ∧ demoPreempt.acornAt 0 = true
      ∧ (demoPreempt.wave 0).state = .ready ∧ (demoPreempt.wave 0).priv = .u ∧ (demoPreempt.wave 0).quantumEnded = false
      ∧ demoPreempt.pointOf (demoPreempt.wave 0) = some point0)
    ∧ (let s := on demoPreempt fun w => { w with sincePreempt := 16384 }
       16384 ≤ (s.wave 0).sincePreempt ∧ (s.wave 0).state = .ready ∧ s.drained 0 = true) := by decide +kernel

/-- Both waves saved, the request still up: the group fits where it was. Two functions with a context each, one switched out. -/
theorem witness_Preemption_restore :
    (let s : State := { demoPreempt with waves := demoPreempt.waves.map fun w => { w with state := .saved }, twins := List.replicate 4 Twin.reset }
     (s.ctx 0).alive = true ∧ (s.ctx 0).switchedOut = false ∧ s.cp.switching = none ∧ s.partitionSaved 0 = true
     ∧ (let u := (s.partitionCtxs 0).foldl (fun s c => s.modCtx c fun x => { x with preempting := false }) s
        u.restorable 0 = [0] ∧ u.groupFits 0 = true)
     ∧ 0 ∈ s.members 0 ∧ (s.wave 0).state = .saved ∧ (s.wave 0).wait = .nothing)
    ∧ (let s : State := { demo with ctxs := demo.ctxs ++ [{ fn := 1, clusterMap := [0, 1], switchedOut := true }] }
       (s.ctx 0).fn ≠ (s.ctx 1).fn ∧ (s.ctx 0).alive = true ∧ (s.ctx 1).alive = true ∧ s.cp.switching = none ∧ (s.ctx 0).switchedOut = false
       ∧ (s.ctx 1).switchedOut = true ∧ (s.ctx 0).preempting = false)
    ∧ (let s : State := { demoPreempt with
         waves := [], cp := { demo.cp with switching := some (0, 1) }, ctxs := demoPreempt.ctxs ++ [{ fn := 1, clusterMap := [0, 1], switchedOut := true }] }
       s.cp.switching = some (0, 1) ∧ (s.ctx 0).preempting = true ∧ s.partitionSaved 0 = true) := by decide +kernel

/-- Wave 0 waits for service `n` with S57 and S58. -/
def demoService (n : Nat) (a b : Word) : State :=
  withS (on { demoMapped with mem := { demoMapped.mem with home := (0x50208, 1) :: (0x50210, 64) :: (0x50214, 2) :: tables } } fun w =>
    { w with priv := .s, state := .blocked, wait := .service n, stalled := some (.trap false (BitVec.ofNat 16 n)) }) [(57, a), (58, b)]

theorem witness_Services_pool : (demoService 1 0x10200 0).poolHeader 0 0x10200 = some (0, 1, 64, 2) := by
  unfold State.poolHeader
  rw [cpRead_page (demoService 1 0x10200 0) 0 0x10200 24 0x50200 ⟨rfl, rfl, rfl, rfl⟩ (by decide) (by decide +kernel)]
  decide +kernel

theorem witness_Services :
    (let s := demoService 0 0 0
     0 < s.waves.length ∧ (s.wave 0).state = .blocked ∧ (s.wave 0).wait = .service 0 ∧ (s.wave 0).stalled = some (.trap false 0))
    ∧ (demoService 4 0 0).waves.head?.map Wave.wait = some (.service 4)
    ∧ (let s := demoService 1 0x20000 0
       s.poolHeader (s.wave 0).ctx ((s.wave 0).readS 57).toNat = none)
    ∧ (let s := demoService 1 0x10200 0
       (s.wave 0).wait = .service 1 ∧ s.poolable (s.wave 0).ctx 0x90000 = true)
    ∧ (let s := demoService 2 0x10000 0
       (s.wave 0).wait = .service 2 ∧ (s.wave 0).readS 58 = 0)
    ∧ (let s := demoService 2 0x10000 1
       (s.wave 0).readS 58 ≠ 0)
    ∧ ((demoService 3 0x55 0).wave 0).wait = .service 3 := by decide +kernel

theorem witness_Services_stage2 :
    (let x : Trap := { cause := 0x18, mask := 1, addr := 0x30000 }
     let s := on (inCtx demoMapped fun c => { c with s2root := 0x200000 }) fun w => { w with state := .blocked, wait := .stage2 x }
     (s.wave 0).state = .blocked ∧ (s.wave 0).wait = .stage2 x ∧ (s.wave 0).stalled = none ∧ (s.missingIpa (s.wave 0).ctx 0x30000).isSome = true ∧ MayEnter s 0)
    ∧ (demo.ctx 0).pool = none := by simp only [mayEnter_iff]; decide +kernel

/-- The context with the pool at VA 0x10200, its quota 8 frames: one frame is in the ring of 64, fewer than its low mark 2. -/
def demoPoolLow : State := inCtx (demoService 1 0x10200 0) fun c => { c with pool := some 0x10200, quota := 8 }

theorem witness_Shootdowns_header : demoPoolLow.poolHeader 0 0x10200 = some (0, 1, 64, 2) := by
  unfold State.poolHeader
  rw [cpRead_page demoPoolLow 0 0x10200 24 0x50200 ⟨rfl, rfl, rfl, rfl⟩ (by decide) (by decide +kernel)]
  decide +kernel

/-- A frame that is mapped and one that is not. -/
theorem witness_Shootdowns :
    demoPoolLow.poolable 0 0x90000 = true ∧ (demoPoolLow.frameOf 0 0x90000).isSome = true
    ∧ demoPoolLow.poolable 0 0x80000000 = true ∧ demoPoolLow.frameOf 0 0x80000000 = none
    ∧ (demoPoolLow.ctx 0).framesUsed < (demoPoolLow.ctx 0).quota ∧ demo.poolLow 0 = false := by decide +kernel
/-! #### Records, commands, contexts, Jalti -/

/-- The reliability ring of 64 records at frame 8, enabled; another of a size that is not legal. -/
def demoRel : State := { demo with rel := { demo.rel with base := 0x80000, size := 64, enable := true } }

theorem witness_HostRecords :
    Memory.wf demoRel.mem.home = true ∧ demoRel.rel.enable = true ∧ (demoRel.rel.size.toNat = 2 ^ 6)
    ∧ (demoRel.rel.head - demoRel.rel.tail).toNat < demoRel.rel.size.toNat
    ∧ demo.rel.enable = false
    ∧ (zeros 16).length + 16 ≤ 64 * 1 ∧ 1 ≤ 2 ^ (demo.trace.log2 - 6) ∧ demo.trace.frozen = false
    ∧ (let s : State := { demo with trace := { demo.trace with log2 := 7, head := 1 } }
       s.trace.head % 2 ^ (s.trace.log2 - 6) + 1 ≤ 2 ^ (s.trace.log2 - 6) ∧ 2 ^ (s.trace.log2 - 6) < s.trace.head % 2 ^ (s.trace.log2 - 6) + 2
       ∧ (zeros 32).length + 16 ≤ 64 * 2 ∧ 2 ≤ 2 ^ (s.trace.log2 - 6))
    ∧ Memory.wf demo.mem.host = true ∧ 0 < demo.cp.funcs.length ∧ 0 < (demo.func 0).queues.length := by decide +kernel

/-- A command of function 0 with an address and arguments. -/
def cmd (addr : Word) (args : List Word) : Cmd := { fn := 0, queue := 0, tag := 1, addr := addr, args := args }

/-- A context without a launch, its image, a graph descriptor of one node at VA 0x10300, a husk record at 0x10400, and a pool header at
0x10200 (R236, R361, R316). -/
def demoCmds : State :=
  { demoMapped with
    waves := [], groups := [], launches := []
    images := [{ ctx := 0, base := 0x10000, kernels := [kernel0], points := [], acorns := [] }]
    mem := { demoMapped.mem with
      home := (0x50208, 1) :: (0x50210, 64) :: (0x50214, 2) :: (0x50304, 1) :: (0x50312, 1) :: (0x50420, 1) :: (0x50421, 1) :: tables } }

/-- What the command processor reads there. -/
def graphBytes : List Byte := zeros 4 ++ [1] ++ zeros 13 ++ [1] ++ zeros 45
def huskBytes : List Byte := zeros 32 ++ [1, 1] ++ zeros 30

theorem demoCmds_graph : demoCmds.cpRead 0 0x10300 64 = some graphBytes := by
  rw [cpRead_page demoCmds 0 _ _ 0x50300 ⟨rfl, rfl, rfl, rfl⟩ (by decide) (by decide +kernel)]; decide +kernel

theorem demoCmds_husk : demoCmds.cpRead 0 0x10400 64 = some huskBytes := by
  rw [cpRead_page demoCmds 0 _ _ 0x50400 ⟨rfl, rfl, rfl, rfl⟩ (by decide) (by decide +kernel)]; decide +kernel

theorem demoCmds_pool : demoCmds.poolHeader 0 0x10200 = some (0, 1, 64, 2) := by
  unfold State.poolHeader
  rw [cpRead_page demoCmds 0 0x10200 24 0x50200 ⟨rfl, rfl, rfl, rfl⟩ (by decide) (by decide +kernel)]; decide +kernel

theorem demoCmds_nodes : demoCmds.graphNodes 0 0x10300 graphBytes =
    some [({ kernel := 0, cont := 0, ancestors := 0, roles := 0, spare := 0 }, kernel0)] := by
  have h : demoCmds.cpRead 0 (0x10300 + 64) 48 = some (zeros 48) := by
    rw [cpRead_page demoCmds 0 _ _ 0x50340 ⟨rfl, rfl, rfl, rfl⟩ (by decide) (by decide +kernel)]; decide +kernel
  unfold State.graphNodes
  simp only [show fieldAt graphBytes 4 1 = 1 by decide +kernel, h, Nat.mul_one]
  decide +kernel

theorem witness_Commands :
    demoCmds.cmdCtx (cmd 0x10300 []) = 0 ∧ 0 < demoCmds.ctxs.length ∧ demoCmds.openLaunches 0 = [] ∧ demo.openLaunches 0 ≠ []
    ∧ demoCmds.vaRange 0 0x20000 64 = none ∧ (demoCmds.vaPa 0 0x10400).isSome = true
    ∧ (cmd 0 [0x11C2]).arg 0 < 2 ^ 13 ∧ bitAt ((cmd 0 [0x11C2]).arg 0) 12 = true ∧ bitAt ((cmd 0 [0x1C2]).arg 0) 12 = false
    ∧ (cmd 0 [0x120000]).arg 0 % 2 ^ 17 = 0 ∧ (cmd 0 [0x120000]).arg 0 < 2 ^ 48 ∧ (cmd 0 [0x10000]).arg 0 % 2 ^ 17 ≠ 0
    ∧ demoCmds.poolHeader 0 0x20000 = none ∧ (2 : Nat) ≤ 2
    ∧ demoCmds.graphs.length ≤ (cmd 0 [0]).arg 0
    ∧ (demoGraph.graphs.length = 1 ∧ (demoGraph.graph 0).live = true ∧ (demoGraph.graph 0).ctx = 0
      ∧ (∃ l ∈ demoGraph.launches, l.graph = some 0 ∧ l.completed = false))
    ∧ (let s : State := { demoGraph with launches := demoGraph.launches.map fun l => { l with completed := true } }
       ∀ l ∈ s.launches, l.graph = some 0 → l.completed = true)
    ∧ demoCmds.cpRead 0 0x20000 64 = none := by decide +kernel

theorem witness_Commands_graph : 1 ≤ (demoCmds.freePods 0).length := by
  have h : demoCmds.freePods 0 = List.range 4096 := by simp [State.freePods, demoCmds, demoMapped, demo, inCtx, State.modCtx]
  simp [h]

theorem witness_Commands_husk :
    (let r := huskRecord huskBytes
     demoCmds.huskStatus 0 r [0] = 0 ∧ demoCmds.huskStatus 0 { r with shares := 0 } [0] ≠ 0 ∧ r.husk = 0)
    ∧ (let s : State := { demoCmds with fab := { demoCmds.fab with husks := [{ num := 3, ctx := 0, banks := [0], shares := 1, fill := 0, policy := 0, cls := 0, gen := 1 }] } }
       s.huskStatus 0 { huskRecord huskBytes with husk := 3 } [0] = 0) := by decide +kernel

theorem witness_Contexts :
    (let c := cmd 0 [0x100, 0xFF]
     bits (c.arg 0) 3 0 = 0 ∧ c.arg 1 < 2 ^ 24 ∧ bits (c.arg 0) 7 4 = 0 ∧ c.arg 0 < 2 ^ 16 ∧ demo.partitionOk 0 (pairsOf (c.arg 1)) = true
     ∧ (∀ q, q < 8 → bitAt (c.arg 0) (8 + q) = true → ((demo.func 0).queues.getD q {}).bound = false))
    ∧ (demo.ctx 0).alive = true ∧ demo.ctxs.length = 1
    ∧ ¬(cmd 0 [0x1100, 2 ^ 24]).arg 1 < 2 ^ 24
    ∧ (let s : State := { demo with ctxs := List.replicate 256 (demo.ctx 0) }
       256 ≤ s.ctxs.length ∧ ∀ m, m < 256 → (s.ctx m).alive = true)
    := by decide +kernel

theorem witness_Contexts_functions :
    demo.ctxs.length ≤ (cmd 0 [7]).arg 0 ∧ (cmd 0 [0]).arg 0 < demo.ctxs.length ∧ 0 < demo.launches.length ∧ (demo.launch 0).ctx = 0 ∧ (demo.launch 0).completed = false
    ∧ (cmd 0 [16]).arg 0 = 16 := by decide +kernel

theorem witness_Contexts_assign :
    (let c := cmd 0 [1, 1, 0xF00000, 100]
     1 ≤ c.arg 0 ∧ c.arg 0 < 16 ∧ c.arg 0 < demo.cp.funcs.length ∧ c.arg 2 < 2 ^ 24 ∧ pairsOf (c.arg 2) ≠ []
       ∧ (∀ f ∈ demo.cp.funcs, f.pairs = []) ∧ c.arg 1 = 1 ∧ 100 ≤ c.arg 3 ∧ c.arg 3 ≤ 100000)
    ∧ (let s : State := inCtx demo fun c => { c with fn := 3 }
       1 ≤ (s.ctx 0).fn ∧ (s.ctx 0).fn < s.cp.funcs.length) := by decide +kernel

/-- A mailbox command with argument words. -/
def mail (words : List Word) : Mail := { tag := 5, words := words }

theorem witness_Mailbox :
    24 ≤ (mail [24]).arg 1 ∧ (mail [23]).arg 1 < 24 ∧ (demo.pair 23).mode ≠ .offline
    ∧ (let s := demo.modPair 23 fun q => { q with mode := .offline }
       (s.pair 23).mode = .offline)
    ∧ demo.cp.injection = false
    ∧ (let m := mail [23, 1, 65535, 0x3F1F]
       m.arg 1 < 24 ∧ m.arg 2 ≤ 1 ∧ 1 ≤ m.arg 3 ∧ m.arg 3 ≤ 65535 ∧ m.arg 4 % 256 < 32 ∧ m.arg 4 < 64 * 256)
    ∧ ¬(mail [23, 1, 65535, 0x3F20]).arg 4 % 256 < 32
    ∧ (mail [1000]).arg 1 ≤ 1000 ∧ 1000 < (mail [1001]).arg 1
    ∧ demo.jalti.wdogPeriod = 0
    ∧ (let s : State := { demo with jalti := { demo.jalti with wdogPeriod := 10 } }
       s.jalti.wdogPeriod ≠ 0 ∧ s.jalti.wdogMissed = 0 ∧ s.cp.fatal = false)
    ∧ (let s : State := { demo with jalti := { demo.jalti with wdogPeriod := 10, wdogMissed := 1 } }
       s.jalti.wdogMissed ≠ 0)
    ∧ (let s : State := { demo with jalti := { demo.jalti with cap := 3, tHolds := true, pHolds := false } }
       s.jalti.cap ≠ 0 ∧ s.jalti.cap < 4 ∧ s.jalti.pHolds = false ∧ s.jalti.tHolds = true)
    ∧ (124 : Int) < 125 ∧ 440 ≤ 440 ∧ (125 : Int) ≤ 125 ∧ 440 < 441 := by decide +kernel

/-! #### Fabric, host, images -/

/-- A packet to home sector 0x1401 from stop 0. -/
def packet0 (slack : Nat) : Packet := { slack := slack, frac := 0, hard := true, cls := 2, owner := 0, sec := 0x1401, husk := 0, write := false, arrived := 90 }

/-- A queue of the fabric with packets. -/
def demoFab (kind num : Nat) (l : List Packet) : State :=
  { demo with fab := { demo.fab with queues := [{ kind := kind, num := num, input := 0, packets := l }] } }

theorem witness_FabricSteps :
    (let s := demoFab 1 3 [packet0 9, packet0 5, { packet0 5 with sec := 0x2401 }]
     (s.packetsAt 1 3 0)[2]? = some { packet0 5 with sec := 0x2401 } ∧ (∀ x ∈ s.packetsAt 1 3 0, x.arrived < 2 ^ 64)
     ∧ (∀ a ∈ s.fab.queues, ∀ c ∈ s.fab.queues, a.kind = c.kind → a.num = c.num → a.input = c.input → a = c)
     ∧ (packet0 9).sec / 4 ≠ 0x2401 / 4 ∧ (packet0 5).sec / 4 = (packet0 9).sec / 4 ∧ (packet0 5).slack < (packet0 9).slack)
    ∧ (let s := demoFab 2 3 [packet0 5]
       (s.packetsAt 2 3 0)[0]? = some (packet0 5) ∧ (s.fab.sketches[3]?).isSome = true)
    ∧ demo.packetsAt 1 3 0 = [] ∧ demo.packetsAt 2 3 0 = [] ∧ demo.misses 3 = 0 ∧ demo.fab.checkErrs = []
    ∧ (let s := demoFab 2 3 (List.replicate 64 { packet0 5 with bank := some 9 })
       64 ≤ s.misses 9 ∧ 64 ≤ (s.packetsAt 2 3 0).length)
    ∧ (let s := demoFab 6 3 [packet0 5]
       (s.packetsAt 2 3 0).length < 64 ∧ chooseInput (s.fab.queues.filter fun q => q.kind == 6 && q.num == 3) = s.fab.queues.head?
       ∧ (s.fab.queues.head?.map PQueue.packets) = some [packet0 5])
    ∧ (let s := demoFab 0 1 [packet0 5]
       (List.range 4).any (fun out => (chooseInput (s.arbiterInputs false 1 out)).isSome) = true)
    ∧ (let s := demoFab 4 9 [packet0 5]
       (List.range 4).any (fun out => (chooseInput (s.arbiterInputs true 9 out)).isSome) = true) := by decide +kernel

theorem witness_FabricSteps_choices :
    (let q (n slack : Nat) : PQueue := { kind := 0, num := 0, input := n, packets := [packet0 slack], stamp := some (10 + n) }
     chooseInput [q 0 4, q 1 0, q 2 0] = some (q 1 0) ∧ (q 1 0).least = 0 ∧ (q 0 4).least ≠ 0)
    ∧ (let s := demoFab 0 0 [packet0 0]
       s.fab.packetList[0]? = some (0, 0, packet0 0) ∧ (packet0 0).slack = 0 ∧ (packet0 0).counted = false
       ∧ (s.fab.queues.getD 0 default).kind ≠ 2 ∧ (packet0 0).hard = true ∧ (s.ctx 0).hardStamps = [] ∧ 0 < s.ctxs.length)
    ∧ (let h : Husk := { num := 3, ctx := 0, banks := [1], shares := 1, fill := 0, policy := 0, cls := 0, gen := 1, oldBanks := some [0, 1] }
       let s : State := { demo with fab := { demo.fab with husks := [h], shareMap := [((0, 0), .husk 3), ((1, 0), .husk 3)] } }
       (s.huskDef 3).oldBanks = some [0, 1] ∧ (s.huskDef 3).num = 3 ∧ s.shareOwner 0 0 = .husk 3 ∧ 0 ∉ (s.huskDef 3).banks)
    ∧ (let s : State := { demo with fab := { demo.fab with shareMap := [((191, 15), .husk 3)] } }
       s.shareOwner 191 15 = .husk 3 ∧ s.shareOwner 191 7 = .husk 0) := by decide +kernel

/-- Function 0 with its aperture over context 0 at IPA 0. -/
def demoAperture : State :=
  { demoMapped with cp := { demo.cp with funcs := { Func.reset with apen := true, apctx := 0 } :: List.replicate 15 Func.reset } }

theorem witness_HostAccesses :
    demoAperture.apertureRange 0 0x50000 false 4 = some [0x50000, 0x50001, 0x50002, 0x50003]
    ∧ demoAperture.apertureRange 0 0x50000 true 4 = some [0x50000, 0x50001, 0x50002, 0x50003]
    ∧ demoAperture.apertureRange 0 0xFFFFFFF0 false 4 = none ∧ (0xFFFFFFF0 + 4 ≤ 2 ^ 34) ∧ demoAperture.apertureRange 0 0xFFFFFFF0 true 4 = none
    ∧ demoAperture.apertureFatal 0 0xFFFFFFF0 4 = false ∧ demoAperture.apertureFatal 0 0x50000 4 = false
    ∧ (let s : State := { demoAperture with mem := { demoAperture.mem with poison := [0x4000] } }
       s.apertureFatal 0 0x50000 4 = true ∧ s.cp.fatal = false)
    ∧ (demo.func 0).apen = false
    ∧ 0 < demo.cp.funcs.length ∧ 7 < (demo.func 0).queues.length
    ∧ (let q := (demo.func 0).queues.getD 7 default
       q.enable = false ∧ q.cqTail = q.sqHead ∧ (0x600006 ||| 0x100000 : Word).getLsbD 20 = true ∧ (6 : Word).getLsbD 20 = false) := by decide +kernel

theorem witness_RegisterBlocks :
    (demo.fab.sketches[15]?).isSome = true ∧ (2 : Word).getLsbD 1 = true ∧ (1 : Word).getLsbD 1 = false ∧ 15 < demo.cp.funcs.length
    ∧ 7 < (demo.func 15).queues.length := by decide +kernel

/-- An image of one zero-filled section of 32 bytes at image offset 0x100, and no kernel (R71, R72). -/
def iciFile : List Byte :=
  [0x49, 0x43, 0x49, 1] ++ bytesOf 2 1 ++ bytesOf 2 1 ++ bytesOf 8 64 ++ bytesOf 8 0x1000 ++ zeros 40
    ++ bytesOf 4 3 ++ zeros 12 ++ bytesOf 8 0x100 ++ bytesOf 8 32

theorem iciFile_range : demoCmds.vaRange 0 0x10100 32 = some ((List.range 32).map (0x50100 + ·)) := by
  rw [vaRange_page demoCmds 0 32 0x10100 0x50100 (by decide) (by decide +kernel)]

theorem witness_ImageLoads :
    iciOk iciFile = true ∧ 0 < demoCmds.ctxs.length ∧ (demoCmds.ctx 0).alive = true ∧ fieldAt iciFile 24 4 = 0
    ∧ chunks 64 0 (sectionBytes iciFile 4) = []
    ∧ (sectionsOf iciFile).filter Section.mapped = [{ type := 3, align := 0, file := 0, img := 0x100, size := 32 }]
    ∧ ¬iciOk (zeros 96) = true := by decide +kernel

/-! #### Resets, quiesce points, links, the secure channel -/

/-- A context whose waves have ended. -/
def demoRest : State := { demoMapped with waves := [], groups := [] }

theorem witness_Resets :
    (let b : BootInput := State.reset.bootInput
     b.jaltiOk = true ∧ b.memoryOk = true ∧ b.cpOk = true ∧ b.stage4Ok = true)
    ∧ (1 : Word).getLsbD 0 = true
    ∧ (let s : State := { (inCtx demo fun c => { c with fn := 3 }) with cp := { demo.cp with owned := [(0, 5)] } }
       3 < s.cp.funcs.length ∧ (s.ctx 0).fn = 3 ∧ (s.ctx 0).alive = true ∧ s.ctxs.length = 1 ∧ (s.launch 0).ctx = 0
       ∧ (s.launch 0).completed = false ∧ (0, 5) ∈ s.cp.owned) := by decide +kernel

theorem witness_QuiescePoints :
    demoRest.cp.changes = [] ∧ demoRest.waves = [] ∧ demoRest.copies = List.replicate 8 {} ∧ (∀ t ∈ demoRest.twins, t.queue = [])
    ∧ (demoRest.ctx 0).alive = true ∧ demoRest.ctxs.length = 1 ∧ (demoRest.ctx 0).clusterMap = [0, 1] ∧ demoRest.fab.ports.length = 3
    ∧ (∃ w ∈ demo.waves, w.ctx = 0 ∧ ¬(w.state = .exited ∨ w.state = .saved))
    ∧ ([2, 3] : List Nat).length = (demoRest.ctx 0).clusterMap.length ∧ ([2, 3] : List Nat).Nodup
    ∧ ([2] : List Nat).length ≠ (demoRest.ctx 0).clusterMap.length
    ∧ (let s : State := { demoRest with fab := { demo.fab with shareMap := (List.range 16).map fun i => ((0, i), .husk 3) } }
       s.shareOwner 0 5 = .husk 3 ∧ ∀ j, j < 16 → s.shareOwner 0 j ≠ .husk 0)
    ∧ (let h : Husk := { num := 3, ctx := 0, banks := [1], shares := 1, fill := 0, policy := 0, cls := 0, gen := 1 }
       let s : State := { demoRest with fab := { demo.fab with husks := [h] } }
       s.mapAllows 0 5 3 = true ∧ 5 < (s.ctx 0).huskMap.length ∧ (s.ctx 0).huskMap.getD 5 0 ≠ 3)
    ∧ demoRest.mapAllows 0 5 3 = false
    ∧ (5 ≠ 6 ∧ demoRest.isPeer (65536 * 5) = false ∧ demoRest.isPeer (65536 * 6) = false)
    ∧ demoRest.mem.rdc = [] ∧ (∀ c ∈ demoRest.cores, c.l1 = []) := by decide +kernel

theorem witness_QuiescePoints_rest : AtRest demoRest 0 := by
  constructor
  · intro w hw; cases hw
  · intro p hp
    have h : p = 0 ∨ p = 1 := by
      have : (demoRest.ctx 0).clusterMap = [0, 1] := by decide +kernel
      simpa [this] using hp
    obtain rfl | rfl := h <;> exact ⟨by decide +kernel, by decide +kernel⟩

theorem witness_QuiescePoints_all : ∀ c, c < demoRest.ctxs.length → (demoRest.ctx c).alive = true → AtRest demoRest c := by
  intro c h _
  have : c = 0 := by
    have : demoRest.ctxs.length = 1 := by decide +kernel
    omega
  exact this ▸ witness_QuiescePoints_rest

theorem witness_QuiescePoints_map : WholePairs [2, 3] := by
  refine ⟨by decide, by decide, fun k h => ?_⟩
  have : k = 0 := by simp at h; omega
  subst this; decide

/-- ASID 9 is context 0 for the peers. -/
def demoPeers : State := { demoMapped with fab := { demo.fab with peerTable := [(9, 0)] } }

theorem witness_Links :
    (∀ e ∈ demo.fab.peerTable, e.1 ≠ 9) ∧ demoPeers.peerCtx 9 = some 0
    ∧ ((demoPeers.walk 0 0x10040).toOption.any fun l =>
        let e := demoPeers.entryOf (demoPeers.ctx 0).asid 0x10040 l
        !e.peer && demoPeers.permit 0 .load true e 0x10040 == none && demoPeers.permit 0 .store true e 0x10040 == none
          && e.ppage * 65536 + 0x10040 % 65536 == 0x50040) = true
    ∧ ((demoPeers.walk 0 0x20000).toOption).isNone = true
    ∧ (demo.ctx 0).alive = true ∧ (demo.ctx 0).asid = 9 ∧ 0 ∈ (demo.ctx 0).clusterMap
    ∧ (let e : TlbEntry := { placedPage 9 5 with peer := true }
       let s := demo.modCore 0 fun c => { c with tlb := [e] }
       e ∈ (s.core 0).tlb ∧ 0 < s.cores.length ∧ e.asid = 9 ∧ e.peer = true)
    ∧ (1 : BitVec 2) ∉ demo.fab.deadPeers
    ∧ demo.fab.ports.length = 3 ∧ (1 : BitVec 2) ≠ demo.fab.dev ∧ demo.fab.routes.length = 4 ∧ demo.cp.stage ≠ 5 := by decide +kernel

theorem witness_SecureChannel :
    demo.sec.phase < 1
    ∧ (let s : State := { demo with sec := { demo.sec with phase := 3, sessions := [⟨1, false⟩, ⟨2, true⟩], streams := [⟨2, [0, 1], true, false⟩] } }
       3 ≤ s.sec.phase ∧ (⟨1, false⟩ : Session) ∈ s.sec.sessions ∧ (⟨2, true⟩ : Session) ∈ s.sec.sessions ∧ (⟨2, false⟩ : Session) ∉ s.sec.sessions
       ∧ s.sec.sessions.length < 4 ∧ (s.stream 2).carries = true ∧ (s.stream 0).carries = false)
    ∧ (let s : State := { demo with sec := { demo.sec with phase := 3, sessions := List.replicate 4 ⟨1, false⟩ } }
       4 ≤ s.sec.sessions.length) := by decide +kernel

/-! #### Steps -/

/-- Wave 0 alone, with a word at its PC. -/
def demoWord (w : Word) : State :=
  { demo with waves := [demoWave 0], mem := { demo.mem with home := Memory.writeN [] 0x50000 (bytesOf 8 w.toNat) }, turn := 1 }

theorem witness_StepRunsDecoded :
    (let s : State := { demo with agenda := [.tlbi 0] }
     s.agenda = [.tlbi 0] ∧ (Instr.tlbi 0).isEvent = true ∧ s.cp.fatal = false)
    ∧ (let s : State := { demo with agenda := [.tlbi 0], cp := { demo.cp with fatal := true } }
       s.cp.fatal = true ∧ (Instr.tlbi 0).isReset = false)
    ∧ (demo.agenda = [] ∧ demo.cp.fatal = false ∧ demo.turn = 0)
    ∧ (let s := demoWord 0x1000301020000000
       s.turn = 0 + 1 ∧ s.nextIssue 0 = some (0, 0))
    ∧ ({ demoWord 0 with waves := [] } : State).nextIssue 0 = none := by decide +kernel

theorem witness_StepRunsDecoded_fetch :
    (let s := demoWord 0x1000301020000000
     (s.fetchPage (s.wave 0)).toOption = some (placedPage 9 5))
    ∧ (let s : State := { demoMapped with cores := List.replicate 8 {} }
       (s.fetchPage ((on s fun w => { w with pc := 0x20000 }).wave 0)).toOption = none)
    ∧ (let s := demoWord 0x1000301020000000
       s.mem.icErrs = [] ∧ s.mem.rdc = [] ∧ Memory.wf s.mem.home = true ∧ s.lcPart + 500 < s.clock)
    ∧ (let s : State := { demo with lcPart := 1000 }
       s.clock ≤ s.lcPart + 500)
    ∧ (∀ g, g < demo.groups.length → demo.claimDeadlocked g = false) := by decide +kernel

theorem witness_IssueOrder : ∀ g, (demo.group g).slackInit ≤ 1023 := by
  intro g
  cases g with
  | zero => decide +kernel
  | succ n => simp [State.group, demo]; decide

theorem witness_DecodeEncode :
    wellFormed (.sadd ⟨false, 3, 1, .r 2⟩) = true ∧ encode (.sadd ⟨false, 3, 1, .r 2⟩) = some 0x1000301020000000
    ∧ decodeWord 0x1000301020000000 = .ok (.sadd ⟨false, 3, 1, .r 2⟩) := by decide +kernel

theorem witness_StepKeepsMemory : Memory.wf demoL1.mem.home = true ∧ Memory.wf demoL1.mem.sp = true ∧ Memory.wf demoL1.mem.host = true ∧ demoL1.turn = 0 := by
  decide +kernel
/-! ### Examples that the spec works out -/

/-- A state after one instruction of wave 0. -/
def after (i : Instr) (s : State) : State :=
  match exec i s with
  | .next t => t
  | _ => default

/-- 32 lanes of which the first hold the given words. -/
def lanesOf (l : List Word) : VReg := (List.range 32).map fun n => l.getD n 0

/-- R145's example: a fused 3C03 * 3C03 - 1.0 rounds once, to 1E02. -/
theorem test_vfma_f16 :
    let s := withV (withV (withV demo 1 (lanesOf [0x3C03])) 2 (lanesOf [0x3C03])) 0 (lanesOf [0xBC00])
    elemOf 16 (laneOf (((after (.vfma ⟨false, false, 0, 3, 1, .v 2, 0, .f16x4, .rn, false, false⟩) s).wave 0).readV 3) 0) 0 = 0x1E02 := by
  decide +kernel

/-- R154's example: two ties, a number and a NaN, narrowed to BF16. -/
theorem test_vcvt_bf16 :
    let s := withV (withV demo 4 (lanesOf [0x3F8180003F808000])) 5 (lanesOf [0x7F800001C0000000])
    laneOf (((after (.vcvt ⟨false, false, 0, 6, 4, 5, .bf16x4, .f32x2, .rn, false, false⟩) s).wave 0).readV 6) 0 = 0x7FC0C0003F823F80 := by
  decide +kernel

/-- R102's and R155's examples: 3.7 in E4M3 with scale bytes 120 and 121, and 240 back with 121. -/
theorem test_quantise :
    quantise .e4m3x8 .f32x2 .rn false 120 0 0x406CCCCD = 0x7F ∧ quantise .e4m3x8 .f32x2 .rn true 120 0 0x406CCCCD = 0x7E
    ∧ quantise .e4m3x8 .f32x2 .rn true 121 0 0x406CCCCD = 0x77 ∧ dequantise .e4m3x8 .f32x2 .rn false 121 0 0x77 = 0x40700000 := by decide +kernel

/-- R108's example: an exact half rounds to the even significand. -/
theorem test_mrd_fp32 :
    scaleAcc 0x01234567 120 127 = 0x4811A2B4 := by
  decide +kernel

/-- R80's example: a shift by -1 of a 32-bit element is a shift by 31. -/
theorem test_vshl_count :
    let s := withV (withV demo 1 (lanesOf [3])) 2 (lanesOf [0xFFFFFFFF])
    elemOf 32 (laneOf (((after (.vshl ⟨false, false, 0, 3, 1, .v 2, 0, .i32x2, .rn, false, false⟩) s).wave 0).readV 3) 0) 0 = 0x80000000 := by
  decide +kernel

/-- R163's example: the reduction wraps without SAT and clamps with it. -/
theorem test_vxred_add :
    let s := withV demo 1 (lanesOf [0x7FFFFFFF, 1])
    let r (sat : Bool) (x : Word) := ((after (.vxred .add ⟨false, false, 0, 3, 1, .v 0, 0, .i32x2, .rn, sat, false⟩) s).wave 0).pending.any fun e =>
      e.val == .v (List.replicate 32 x)
    r false 0x80000000 = true ∧ r true 0x7FFFFFFF = true := by
  decide +kernel

/-- R111's example: 1.0 and three times 2^-24 combine to 1.0. -/
theorem test_fadd_combines : (AtomOp.combine .fadd false 0 [0x3F800000, 0x33800000, 0x33800000, 0x33800000]).1 = 0x3F800000 := by decide +kernel

/-- R179's example: A becomes 108, and the lanes at A receive 100, 105 and 106. -/
theorem test_vatom_combines : AtomOp.combine .add true 100 [5, 1, 2] = (108, [100, 105, 106]) := by decide +kernel

/-- R253's example: the sector at local address 0x40 sets bits 316, 254, 429 and 176. -/
theorem test_signature : sectorSig 1 = BitVec.ofNat 512 (2 ^ 316 + 2 ^ 254 + 2 ^ 429 + 2 ^ 176) := by decide +kernel

/-- R364's example: PA 0x0012345600 has bank 39 in husk 0, and bank 14 in a husk of the banks 12 to 23. -/
theorem test_home_bank :
    demo.homeBank 0 0x0012345600 = 39
    ∧ (let h : Husk := { num := 3, ctx := 0, banks := (List.range 12).map (12 + ·), shares := 1, fill := 0, policy := 0, cls := 0, gen := 1 }
       ({ demo with fab := { demo.fab with husks := [h] } } : State).homeBank 3 0x0012345600 = 14) := by decide +kernel

/-- R290's example: the stream steps from 0x1231 to 0x2463, and the gang backs off for 128 cc. -/
theorem test_gang_backoff :
    lfsrStep 0x1231 = 0x2463 ∧ ({ grpid := 5, lfsr := 0x2463, attempts := 1, backingOff := true } : Gang).backoff = 128 := by decide +kernel

/-- R165's example: the window's maximum is 7, its mean 6 without padding and 2 with it. -/
theorem test_windows :
    let s := withS (withV (withV demo 2 (lanesOf [4, 7])) 3 (lanesOf [6, 5])) [(6, 0x01BE125B)]
    let r (avg x : Bool) := let o : VOp := ⟨false, false, 0, 5, 1, .v 6, 0, .i32x2, .rn, false, x⟩
      elemOf 32 (laneOf (((after (if avg then .vwavg o else .vwmax o) s).wave 0).readV 5) 0) 0
    r false false = 7 ∧ r true false = 6 ∧ r true true = 2 := by decide +kernel

end Sys2Proof.Tests
end

section
/-! PROOF. Every step keeps the canonical form of the byte stores (O60). A function of the state keeps it because the functions that
it is made of do: one lemma for each, under its name, in the order of the model's files. A proof follows the function's body, `ite`,
`thenDo`, `elseDo` and `foldl` standing for its conditionals and folds. -/

namespace Sys2Proof.Safety

open Sys2Proof.Machine

/-- An outcome keeps the byte stores canonical: the state that it goes on with, if any, has them in canonical form. -/
def KeepsMemory (o : Host.Outcome State Fault Refusal) : Prop := ∀ t, o = .next t → MemCanonical t

/-- The state that a fetch leaves, whether it gives a word or raises a condition. -/
def fetchedState : Fetched → State
  | .word s _ | .raised s => s

namespace MemCanonical

variable {s t : State}

theorem of_reset : MemCanonical State.reset := ⟨rfl, rfl, rfl⟩

theorem snd {α : Type} {a : α} {p : α × State} (hp : MemCanonical p.2) (e : p = (a, t)) : MemCanonical t := by
  subst e; exact hp

section Closure

variable (h : MemCanonical s)
include h

/-- A change of any part of the state but the memories. -/
theorem frame {waves groups ctxs launches graphs images cores twins copies saves atomics emits joined cp jalti rel trace fab sec
    cc lc lcPart lcEnd epochAt tag order agenda cur turn free} :
    MemCanonical ⟨waves, groups, ctxs, launches, graphs, images, cores, twins, copies, saves, s.mem, atomics, emits, joined, cp,
      jalti, rel, trace, fab, sec, cc, lc, lcPart, lcEnd, epochAt, tag, order, agenda, cur, turn, free⟩ := h

/-- A change of any part of the state but the three byte stores. -/
theorem frameMem {waves groups ctxs launches graphs images cores twins copies saves atomics emits joined cp jalti rel trace fab sec
    cc lc lcPart lcEnd epochAt tag order agenda cur turn free
    sigs epoch rdc tokens symErrs poison spErrs l1Errs icErrs l2Errs accErrs deviceErrs} :
    MemCanonical ⟨waves, groups, ctxs, launches, graphs, images, cores, twins, copies, saves,
      ⟨s.mem.home, s.mem.sp, s.mem.host, sigs, epoch, rdc, tokens, symErrs, poison, spErrs, l1Errs, icErrs, l2Errs, accErrs,
        deviceErrs⟩,
      atomics, emits, joined, cp, jalti, rel, trace, fab, sec, cc, lc, lcPart, lcEnd, epochAt, tag, order, agenda, cur, turn,
      free⟩ := h

theorem ite {c : Prop} {_ : Decidable c} (ht : MemCanonical t) : MemCanonical (if c then s else t) := by
  split
  · exact h
  · exact ht

theorem thenDo {c : Prop} {_ : Decidable c} (f : MemCanonical s → MemCanonical t) : MemCanonical (if c then t else s) := by
  split
  · exact f h
  · exact h

theorem elseDo {c : Prop} {_ : Decidable c} (f : MemCanonical s → MemCanonical t) : MemCanonical (if c then s else t) := by
  split
  · exact h
  · exact f h

theorem foldl {α : Type} {f : State → α → State} (hf : ∀ {s x}, MemCanonical s → MemCanonical (f s x)) {l : List α} :
    MemCanonical (l.foldl f s) := by
  induction l generalizing s with
  | nil => exact h
  | cons x l ih => exact ih (hf h)

/-- A fold that carries a state and something more. -/
theorem foldl_fst {α β : Type} {f : State × β → α → State × β} (hf : ∀ {p x}, MemCanonical p.1 → MemCanonical (f p x).1)
    {l : List α} {b : β} : MemCanonical (l.foldl f (s, b)).1 := by
  suffices ∀ p : State × β, MemCanonical p.1 → MemCanonical (l.foldl f p).1 from this (s, b) h
  induction l with
  | nil => exact fun _ hp => hp
  | cons x l ih => exact fun p hp => ih _ (hf hp)

theorem foldl_snd {α β : Type} {f : β × State → α → β × State} (hf : ∀ {p x}, MemCanonical p.2 → MemCanonical (f p x).2)
    {l : List α} {b : β} : MemCanonical (l.foldl f (b, s)).2 := by
  suffices ∀ p : β × State, MemCanonical p.2 → MemCanonical (l.foldl f p).2 from this (b, s) h
  induction l with
  | nil => exact fun _ hp => hp
  | cons x l ih => exact fun p hp => ih _ (hf hp)

/-! ### Memory -/

theorem writeHome {l} : MemCanonical (s.writeHome l) :=
  ⟨Memory.wf_writeAll l h.1, h.2.1, h.2.2⟩

theorem writeHomeN {a l} : MemCanonical (s.writeHomeN a l) := h.writeHome

theorem writeSp {l} : MemCanonical (s.writeSp l) :=
  ⟨h.1, Memory.wf_writeAll l h.2.1, h.2.2⟩

theorem writeSpBoth {checked l} : MemCanonical (s.writeSpBoth checked l) := h.writeSp

theorem writeHostN {a l} : MemCanonical (s.writeHostN a l) :=
  ⟨h.1, h.2.1, Memory.wf_writeN a l h.2.2⟩

/-! ### Records -/

theorem setWave {k w} : MemCanonical (s.setWave k w) := h.frame

theorem modWave {k f} : MemCanonical (s.modWave k f) := h.frame

theorem modGroup {g f} : MemCanonical (s.modGroup g f) := h.frame

theorem modCtx {c f} : MemCanonical (s.modCtx c f) := h.frame

theorem modLaunch {l f} : MemCanonical (s.modLaunch l f) := h.frame

theorem modGraph {g f} : MemCanonical (s.modGraph g f) := h.frame

theorem modCore {n f} : MemCanonical (s.modCore n f) := h.frame

theorem modTwin {n f} : MemCanonical (s.modTwin n f) := h.frame

theorem modCopyQueue {n f} : MemCanonical (s.modCopyQueue n f) := h.frame

theorem modPair {n f} : MemCanonical (s.modPair n f) := h.frame

theorem modFunc {n f} : MemCanonical (s.modFunc n f) := h.frame

theorem message {fn vec} : MemCanonical (s.message fn vec) := h.frame

theorem count {c event n umode} : MemCanonical (s.count c event n umode) := .ite h (.foldl h.modCtx (·.message))

theorem traceEntry {type units context body stamp} : MemCanonical (s.traceEntry type units context body stamp) :=
  .ite h.frame h.writeHomeN.writeHomeN.frame

theorem record {r} : MemCanonical (s.record r) :=
  .thenDo (.ite (.thenDo h.writeHomeN.frame (·.message)) h.frame) (·.traceEntry)

theorem linkRecord {sev} : MemCanonical (s.linkRecord sev) := h.record

theorem fatalError {source r} : MemCanonical (s.fatalError source r) := .ite h h.record.writeHomeN.frame.message

/-! ### Homes -/

theorem depositAt {slice line x} : MemCanonical (s.depositAt slice line x) := h.frameMem

theorem requestTokens {k slices} : MemCanonical (s.requestTokens k slices) := h.frameMem

theorem releaseTokens {k} : MemCanonical (s.releaseTokens k) := h.frameMem

/-! ### Ops -/

theorem retireAt {k i priv next extra} : MemCanonical (s.retireAt k i priv next extra) := .thenDo h.setWave.count (·.count)

theorem block {k why i} : MemCanonical (s.block k why i) := h.modWave

theorem unblock {k} : MemCanonical (s.unblock k) := by
  dsimp only [State.unblock]
  split
  · exact h.setWave.retireAt
  · exact h.setWave

theorem postTrap {k t} : MemCanonical (s.postTrap k t) := h.modWave

theorem modCopy {q seq f} : MemCanonical (s.modCopy q seq f) := h.modCopyQueue

theorem ticketDone {k i q seq next} : MemCanonical (s.ticketDone k i q seq next) := .retireAt (.ite h.modLaunch h)

theorem wakeTickets {q} : MemCanonical (s.wakeTickets q) := by
  dsimp only [State.wakeTickets]
  refine .foldl h (fun h₁ => ?_)
  split
  · refine .ite h₁ ?_
    split
    · exact h₁.modCopy.postTrap
    · refine .ite h₁ ?_
      split
      · exact h₁.setWave.ticketDone
      · exact h₁.setWave
  · exact h₁

theorem completePhase {c e} : MemCanonical (s.completePhase c e) := by
  dsimp only [State.completePhase]
  split
  · exact h
  · exact .ite h (.foldl h.modCtx (·.unblock))

theorem leaveBarriers {k entries move} (hmove : ∀ {s}, MemCanonical s → MemCanonical (move s)) :
    MemCanonical (s.leaveBarriers k entries move) :=
  .elseDo (hmove (.foldl h (·.modCtx))) (fun h₁ => .foldl h₁ (·.completePhase))

theorem breakBarriers {k} : MemCanonical (s.breakBarriers k) := .foldl h (fun h₁ => .foldl h₁.modCtx (·.postTrap))

theorem abandonCopies {g} : MemCanonical (s.abandonCopies g) :=
  .foldl h (fun h₁ => .ite h₁ (.wakeTickets (.foldl h₁.modCopyQueue (·.record))))

theorem dissolve {g} : MemCanonical (s.dissolve g) :=
  .ite h (.abandonCopies (.frame (.elseDo h.modGroup.modCtx (·.modGraph))))

theorem remirror {core} : MemCanonical (s.remirror core) := h.modCore

theorem exited {k} : MemCanonical (s.exited k) := h.modWave.modCore.releaseTokens.remirror.dissolve

theorem abortLaunch {l} : MemCanonical (s.abortLaunch l) := h.modLaunch

theorem killSilently {k} : MemCanonical (s.killSilently k) := h.breakBarriers.exited

theorem kill {k code} : MemCanonical (s.kill k code) := h.record.abortLaunch.killSilently

theorem performAbort {k reason code} : MemCanonical (s.performAbort k reason code) := by
  dsimp only [State.performAbort]
  split
  · exact h.modWave
  · exact .count (.setWave (.thenDo (.ite h h.releaseTokens) (·.requestTokens)))

theorem abortTxn {k reason code} : MemCanonical (s.abortTxn k reason code) := .ite h.performAbort h.modWave

theorem restore {p} : MemCanonical (s.restore p) :=
  .foldl (.frame (.foldl (.foldl (.foldl (.foldl (.foldl (.foldl h (·.setWave)) (·.modGroup)) (·.modCtx)) (·.modTwin))
    (·.modCore)) (·.modCopyQueue))) (·.writeSpBoth)

theorem pairCorrected {p ctx errs} : MemCanonical (s.pairCorrected p ctx errs) := .foldl h (·.record)

theorem mismatch {p wave r} : MemCanonical (s.mismatch p wave r) := by
  dsimp only [State.mismatch]
  refine .ite (.count (.modPair (.record ?_))) h.modPair.record.abortLaunch.modPair.frame.message
  split
  · exact h.modPair.pairCorrected.modPair.restore
  · exact h.modPair.pairCorrected.modPair

theorem enterTrap {k t} : MemCanonical (s.enterTrap k t) := .ite h.kill (.ite h.kill h.setWave)

theorem takeTrap {k t} : MemCanonical (s.takeTrap k t) := .ite h.abortTxn (.ite h.enterTrap h.postTrap)

theorem trapExec {k cause addr} : MemCanonical (s.trapExec k cause addr) := h.takeTrap

theorem parkAgain {k} : MemCanonical (s.parkAgain k) := h.modWave

/-! ### Translate -/

theorem noteFrame {c e} : MemCanonical (s.noteFrame c e) := .ite h h.frame

theorem fillTlb {c core e} : MemCanonical (s.fillTlb c core e) := h.modCore.noteFrame

theorem countDenials {c n} : MemCanonical (s.countDenials c n) := .ite h h.modCtx

theorem keepPages {w pages} : MemCanonical (s.keepPages w pages) := .countDenials (.foldl h (·.fillTlb))

theorem raise {k t} : MemCanonical (s.raise k t) := .ite h.block (.ite h.record.takeTrap h.takeTrap)

/-! ### Cache -/

theorem post {a sec write} : MemCanonical (s.post a sec write) := .thenDo h.frame (·.count)

theorem postTo {a dest write} : MemCanonical (s.postTo a dest write) := h.frame

theorem postEdge {slack owner sec write head} : MemCanonical (s.postEdge slack owner sec write head) := .ite h h.frame

theorem postWalk {a va} : MemCanonical (s.postWalk a va) := .foldl h (·.post)

theorem heal {sec owner} : MemCanonical (s.heal sec owner) := by
  have corrected {l m} : MemCanonical { s with mem := { s.mem with home := Memory.writeAll s.mem.home l, symErrs := m } } :=
    ⟨Memory.wf_writeAll l h.1, h.2⟩
  dsimp only [State.heal]
  split
  · exact h
  · split
    · exact corrected
    · exact corrected.record
    · exact .ite h h.record

theorem noteShareErr {sec} : MemCanonical (s.noteShareErr sec) := by
  dsimp only [State.noteShareErr]
  split
  · exact h
  · exact h.frame

theorem healL2 {sec owner} : MemCanonical (s.healL2 sec owner) := .ite h (.frameMem (.foldl h (·.record.noteShareErr)))

theorem charge {source sec owner loc} : MemCanonical (s.charge source sec owner loc) :=
  .frameMem (.foldl h.record (fun h₁ => .ite h₁.abortLaunch h₁))

theorem rdcWriteBack {sec} : MemCanonical (s.rdcWriteBack sec) := by
  dsimp only [State.rdcWriteBack]
  split
  · exact h
  · exact .frameMem (.ite h.charge h.writeHome)

theorem rdcDrop {sec} : MemCanonical (s.rdcDrop sec) := h.rdcWriteBack.frameMem

theorem rdcRoom {husk sec} : MemCanonical (s.rdcRoom husk sec) := by
  dsimp only [State.rdcRoom]
  refine .ite h ?_
  split
  · exact h
  · exact .foldl h (·.rdcDrop)

theorem rdcFill {husk owner sec} : MemCanonical (s.rdcFill husk owner sec) := h.rdcRoom.frameMem

theorem rdcUse {husk owner sec} : MemCanonical (s.rdcUse husk owner sec).2 := .ite h h.rdcFill

theorem nearRead {a sec} : MemCanonical (s.nearRead a sec).2.2 := by
  dsimp only [State.nearRead]
  split
  · exact h.post.heal.healL2
  · exact .frameMem (.rdcUse (.thenDo h.post.heal.healL2 (·.rdcDrop)))

theorem nearWrite {a sec l} : MemCanonical (s.nearWrite a sec l) := by
  dsimp only [State.nearWrite]
  split
  · exact .writeHome (.elseDo h.post (·.heal))
  · exact .frameMem (.thenDo (.rdcUse (.elseDo h.post (·.heal))) (·.writeHome))

theorem clearL1Errs {core sec} : MemCanonical (s.clearL1Errs core sec) := .ite h h.frameMem

theorem l1Corrected {core x e} : MemCanonical (s.l1Corrected core x e) := h.record

theorem meetL1 {core x written} : MemCanonical (s.meetL1 core x written).2 := by
  dsimp only [State.meetL1]
  split
  · exact h
  · split
    · exact .modCore (.foldl h.clearL1Errs (·.l1Corrected))
    · exact .frameMem (.foldl h.clearL1Errs (·.l1Corrected))

theorem writeBackSector {a x} : MemCanonical (s.writeBackSector a x) :=
  .ite h (.ite h.clearL1Errs.charge (.nearWrite (.foldl h.clearL1Errs (·.l1Corrected))))

theorem makeRoom {core line} : MemCanonical (s.makeRoom core line) := .ite h (.foldl h.modCore (·.writeBackSector))

theorem putSector {core hint x} : MemCanonical (s.putSector core hint x) := h.makeRoom.modCore

theorem ownSector {core sec written} : MemCanonical (s.ownSector core sec written).2 := by
  dsimp only [State.ownSector]
  split
  · exact h
  · exact h.meetL1

theorem loadSector {a hint sec need} : MemCanonical (s.loadSector a hint sec need).2.2 := by
  have own := h.ownSector (core := a.core) (sec := sec) (written := 0)
  have read {t r} (ht : MemCanonical t) (e : (t.count a.ctx 0x07 1 a.umode).nearRead a sec = r) : MemCanonical r.2.2 :=
    e ▸ ht.count.nearRead
  unfold State.loadSector
  split
  · next e =>
    rw [e] at own
    split
    · exact own.modCore
    · split
      next e => exact .ite (read own e) (read own e).putSector
  · next e =>
    rw [e] at own
    split
    next e => exact .ite (read own e) (read own e).putSector

theorem storeSector {a hint sec l} : MemCanonical (s.storeSector a hint sec l) := by
  dsimp only [State.storeSector]
  refine .ite (.nearWrite ?_) (.putSector h.ownSector)
  split
  · exact .modCore h.ownSector
  · exact h.ownSector

theorem storeAtCore {a hint l} : MemCanonical (s.storeAtCore a hint l) := .foldl h (·.storeSector)

theorem storeAtHome {a l} : MemCanonical (s.storeAtHome a l) := .foldl h (·.nearWrite)

theorem markWriters {l grpid pas} : MemCanonical (s.markWriters l grpid pas) := h.modLaunch

theorem cleanSector {a sec} : MemCanonical (s.cleanSector a sec) := by
  dsimp only [State.cleanSector]
  split
  · exact h
  · exact .elseDo h.writeBackSector (·.modCore)

theorem invalSector {a sec} : MemCanonical (s.invalSector a sec) := h.cleanSector.modCore

theorem releaseCore {a scope} : MemCanonical (s.releaseCore a scope).2 := by
  dsimp only [State.releaseCore]
  split
  · exact .foldl (.foldl h (·.cleanSector)) (·.rdcWriteBack)
  · exact .foldl h (·.cleanSector)

theorem releaseLine {k a scope pa} : MemCanonical (s.releaseLine k a scope pa) :=
  .modWave (.foldl h.releaseCore (·.depositAt))

theorem acquireAll {core scope} : MemCanonical (s.acquireAll core scope) := .thenDo h.modCore (·.frameMem)

theorem acquireLine {core scope pa} : MemCanonical (s.acquireLine core scope pa) := by
  dsimp only [State.acquireLine]
  split
  · exact h.acquireAll
  · exact .thenDo h.modCore (·.frameMem)

theorem storePlain {a hint event bytes} : MemCanonical (s.storePlain a hint event bytes) :=
  .ite (.storeAtCore (.foldl h (·.cleanSector))) h.storeAtCore

theorem loadBytes {k a hint pas} : MemCanonical (s.loadBytes k a hint pas).2.2 := by
  unfold State.loadBytes
  refine foldl_snd h fun h => ?_
  exact h.loadSector

theorem healSp {key ctx} : MemCanonical (s.healSp key ctx) := by
  dsimp only [State.healSp]
  split
  · exact h.frameMem.record
  · exact h

/-! ### Atomic -/

theorem answer {k tag f} : MemCanonical (s.answer k tag f) := h.modWave

theorem joinDone {c va} : MemCanonical (s.joinDone c va) := h.frame

theorem performAtomic {r} : MemCanonical (s.performAtomic r) := by
  refine .thenDo (.thenDo (.modWave (.thenDo (.writeHome (.heal (.post (.rdcDrop (.invalSector ?_))))) (·.markWriters)))
    (·.answer)) fun h => .ite h.joinDone h.frame
  split
  · split
    next e => exact .modWave (.depositAt (h.releaseCore.snd e))
  · exact h

theorem performNth {n} : MemCanonical (s.performNth n) := by
  dsimp only [State.performNth]
  split
  · exact h
  · exact h.frame.performAtomic

theorem drainAtomics {k} : MemCanonical (s.drainAtomics k) := .foldl h.frame (·.performAtomic)

theorem drainSectors {k secs} : MemCanonical (s.drainSectors k secs) := .ite h (.foldl h.frame (·.performAtomic))

/-! ### Checked -/

theorem releaseEntry {e} : MemCanonical (s.releaseEntry e) := .thenDo h.storePlain (·.markWriters)

theorem takeAcorn {p reason} : MemCanonical (s.takeAcorn p reason) :=
  .elseDo (.frame (.foldl (.modPair (.foldl (.foldl (.foldl (.foldl h (fun h₁ => .ite h₁.performAbort h₁))
    (·.releaseEntry)) (·.modWave.retireAt.modWave)) (·.modWave))) (fun h₁ => .ite h₁.modWave h₁))) (·.traceEntry)

theorem compareNext {p} : MemCanonical (s.compareNext p) := by
  dsimp only [State.compareNext]
  split
  · exact h
  · split
    · exact h.modPair
    · exact .ite h.modPair (.ite h.modPair (.ite h.modPair h.modPair.mismatch))

theorem noteBlocks {p keys} : MemCanonical (s.noteBlocks p keys) := h.modPair

/-! ### Shadow -/

theorem beyond {k} : MemCanonical (s.beyond k) := h.modWave

theorem onBoth {k i go} (hgo : ∀ {s}, MemCanonical s → MemCanonical (go s)) : MemCanonical (s.onBoth k i go) :=
  .elseDo (hgo h) (fun h₁ => .ite h₁.modWave (.ite (.thenDo h₁.setWave (·.modTwin)) h.mismatch))

/-! ### Issue -/

theorem meetRegErrs {k i go} (hgo : ∀ {s}, MemCanonical s → MemCanonical (go s)) : MemCanonical (s.meetRegErrs k i go) :=
  .ite (hgo h) (.ite (hgo (.modWave (.foldl h (·.record)))) (.ite h.mismatch h.record.trapExec))

theorem issueAt {k i body} (hbody : ∀ {s}, MemCanonical s → MemCanonical (body s)) : MemCanonical (s.issueAt k i body) := by
  dsimp only [State.issueAt]
  refine .ite h ?_
  split
  · exact h.modWave.trapExec
  · exact .elseDo (.meetRegErrs h.modWave (fun h₁ => .onBoth h₁ (fun h₂ => .ite h₂.abortTxn (.ite (.ite
      (hbody h₂.modWave).modPair h₂.modWave.modPair) (hbody h₂))))) (·.modWave)

theorem next : KeepsMemory (.next s) := fun _ e => by cases e; exact h

theorem event : KeepsMemory (Machine.event s) := h.next

theorem issue {i body} (hbody : ∀ {k s}, MemCanonical s → MemCanonical (body k s)) :
    KeepsMemory (Machine.issue i s body) := by
  unfold Machine.issue
  split
  · intro t e; cases e
  · exact next (h.issueAt hbody)

theorem done {k i} : MemCanonical (s.done k i) := h.retireAt

theorem doneWith {k i f} : MemCanonical (s.doneWith k i f) := h.setWave.done

theorem regOp {i f} : KeepsMemory (Machine.regOp i s f) := .issue h (·.doneWith)

/-! ### Access -/

theorem reach {k cls store bk a n offs} : MemCanonical (s.reach k cls store bk a n offs).1 := by
  dsimp only [State.reach]
  split
  · exact h
  · exact .ite h.postWalk.modGroup h

theorem noteHusk {bk x reqs} : MemCanonical (s.noteHusk bk x reqs) := .ite h (.foldl h (fun h₁ => .ite h₁ h₁.frame))

theorem noteDenied {c bk x reqs} : MemCanonical (s.noteDenied c bk x reqs) := .ite h h.countDenials

theorem postWalks {w cls reqs} : MemCanonical (s.postWalks w cls reqs) := .foldl h (·.postWalk)

theorem memError {k source pa mask va} : MemCanonical (s.memError k source pa mask va) :=
  .ite h.record.abortLaunch.killSilently (.takeTrap (.ite h h.record))

theorem access {k cls kind bk a n align offs exec go} (hgo : ∀ {s x}, MemCanonical s → MemCanonical (go s x)) :
    MemCanonical (s.access k cls kind bk a n align offs exec go) := by
  dsimp only [State.access]
  refine .ite (.fatalError (.postWalks h.reach)) ?_
  split
  · exact .ite (.memError (.postWalks h.reach)) (.raise (.postWalks h.reach))
  · exact hgo (.noteDenied (.noteHusk (.keepPages (.postWalks h.reach))))

theorem badLoad {k lanes vas exec bad} : MemCanonical (s.badLoad k lanes vas exec bad) := h.memError

theorem loadInTxn {k a t lanes vas exec go} (hgo : ∀ {s x}, MemCanonical s → MemCanonical (go s x)) :
    MemCanonical (s.loadInTxn k a t lanes vas exec go) := by
  dsimp only [State.loadInTxn]
  refine .ite (.badLoad (.foldl h (·.heal))) ?_
  split
  · exact .abortTxn (.foldl h (·.heal))
  · exact hgo (.modWave (.foldl (.foldl h (·.heal)) (·.post)))

theorem loadPlain {k a hint lanes vas exec go} (hgo : ∀ {s x}, MemCanonical s → MemCanonical (go s x)) :
    MemCanonical (s.loadPlain k a hint lanes vas exec go) :=
  .ite (hgo h.loadBytes) (.badLoad h.loadBytes)

theorem beforeLoad {k event lanes} : MemCanonical (s.beforeLoad k event lanes) := .thenDo h.drainSectors (·.modCore)

theorem load {k cls hint event lanes vas exec go} (hgo : ∀ {s x}, MemCanonical s → MemCanonical (go s x)) :
    MemCanonical (s.load k cls hint event lanes vas exec go) := by
  dsimp only [State.load]
  refine .ite h.trapExec ?_
  split
  · exact .loadInTxn h.beforeLoad hgo
  · exact .loadPlain h.beforeLoad hgo

theorem store {k cls hint event perWave n lanes va bytes go} (hgo : ∀ {s}, MemCanonical s → MemCanonical (go s)) :
    MemCanonical (s.store k cls hint event perWave n lanes va bytes go) := by
  dsimp only [State.store]
  split
  · exact .ite h.abortTxn (.ite h.abortTxn (hgo (.thenDo h.modWave (·.modPair))))
  · exact .ite (hgo (.thenDo h.modWave (·.modPair))) (.ite (hgo (.modPair (.ite h.modWave h))) (.ite (hgo
      (.markWriters (.storeAtCore (.ite h.modWave h)))) (hgo (.storePlain (.drainSectors (.ite h.modWave h))))))

theorem postSp {w cls write keys} : MemCanonical (s.postSp w cls write keys) := .foldl h (·.postTo)

theorem spAccess {k cls n write addrs go} (hgo : ∀ {s x}, MemCanonical s → MemCanonical (go s x)) :
    MemCanonical (s.spAccess k cls n write addrs go) := by
  dsimp only [State.spAccess]
  split
  · exact h.takeTrap
  · exact (hgo h.postSp)

theorem spError {k lanes bad vas} : MemCanonical (s.spError k lanes bad vas) :=
  .ite h.mismatch (.takeTrap (.ite h h.record))

theorem spStore {k bytes} : MemCanonical (s.spStore k bytes) :=
  .ite h.modWave (.writeSpBoth (.thenDo (.ite h.modWave h) (·.noteBlocks)))

/-! ### AtomicOps -/

theorem atomic {k i r bk base offs exec data dst before} :
    MemCanonical (s.atomic k i r bk base offs exec data dst before) :=
  .access h (fun h₁ => .ite h₁.memError (.done (.ite (.modWave (.thenDo h₁.frame (·.modWave))) (.frame
    (.thenDo h₁.frame (·.modWave))))))

theorem atomicOp {k i o offs exec data dst before} : MemCanonical (s.atomicOp k i o offs exec data dst before) := by
  dsimp only [State.atomicOp]
  split
  · exact h.trapExec
  · exact h.atomic

/-! ### Copy -/

theorem noteFrames {c l} : MemCanonical (s.noteFrames c l) := .countDenials (.foldl h (·.noteFrame))

theorem readSectors {a secs} : MemCanonical (s.readSectors a secs).2 := by
  unfold State.readSectors
  refine foldl_snd h fun h => ?_
  exact h.nearRead

theorem copyRead {c addr n r} (e : s.copyRead c addr n = .ok r) : MemCanonical r.2 := by
  dsimp only [State.copyRead] at e
  split at e
  · split at e
    · cases e
    · cases e; exact h.foldl (·.healSp)
  · split at e
    · cases e
    · split at e
      · cases e
      · split at e
        · cases e
        · cases e; exact h.noteFrames.readSectors

theorem copiedBlocks {p bytes} : MemCanonical (s.copiedBlocks p bytes) := h.modPair

theorem copyWrite {c q addr data} (e : s.copyWrite c q addr data = .ok t) : MemCanonical t := by
  dsimp only [State.copyWrite] at e
  split at e
  · cases e; exact .copiedBlocks (.writeSpBoth (.ite h.modLaunch h))
  · split at e
    · cases e
    · cases e; exact .storeAtHome (.ite h.noteFrames.modLaunch.markWriters h.noteFrames)

theorem writeTiles {c q src dst} : MemCanonical (s.writeTiles c q src dst) := by
  refine .foldl h fun h => .foldl h fun h => ?_
  split
  · next e => exact h.copyWrite e
  · exact h

theorem copyElement {c q r} (e : s.copyElement c q = .ok r) : MemCanonical r.1 := by
  dsimp only [State.copyElement] at e
  split at e
  · split at e
    · cases e
    · next read =>
      split at e
      · cases e
      · split at e
        · cases e
        · next write => cases e; exact (h.copyRead read).copyWrite write
  · split at e
    · cases e
    · next read => cases e; exact h.copyRead read
  all_goals
    split at e
    · cases e; exact h
    · split at e
      · cases e
      · next read => cases e; exact h.copyRead read

theorem runElements {q fuel c} : MemCanonical (Machine.runElements q fuel s c).1 := by
  induction fuel generalizing s c with
  | zero => exact h
  | succ fuel ih =>
    unfold Machine.runElements
    split
    · exact h
    · next e => exact ih (h.copyElement e)

theorem performCopy {c q} : MemCanonical (s.performCopy c q).1 := by
  dsimp only [State.performCopy]
  split
  · exact h.runElements
  · exact h.runElements.writeTiles
  · exact h.runElements.writeTiles
  · split
    · exact h.runElements
    · split
      · next e => exact h.runElements.copyWrite e
      · exact h.runElements

theorem stopCopy {q c f} : MemCanonical (s.stopCopy q c f) := .ite h.modCopy.wakeTickets h.modCopy.abandonCopies

theorem execCopyStart {cluster queue} : KeepsMemory (Machine.execCopyStart cluster queue s) := by
  dsimp only [Machine.execCopyStart]
  refine .event ?_
  split
  · exact h
  · refine .ite h ?_
    split
    · exact .modCopy h.performCopy
    · exact .mismatch (.modCopy h.performCopy)
    · exact .stopCopy h.performCopy
    · exact .fatalError (.stopCopy h.performCopy)

theorem pushSlot {c slot m nan} : MemCanonical (s.pushSlot c slot m nan) := h.modCtx

theorem copyPush {c q} : MemCanonical (s.copyPush c q) := by
  dsimp only [State.copyPush]
  split
  · exact h
  · exact .ite h.modLaunch h.pushSlot

theorem execCopyComplete {cluster queue} : KeepsMemory (Machine.execCopyComplete cluster queue s) := by
  dsimp only [Machine.execCopyComplete]
  refine .event ?_
  split
  · exact h
  · exact .wakeTickets (.modCopyQueue (.thenDo h.copyPush.count (·.traceEntry)))

theorem readDesc {a pas r} (e : s.readDesc a pas = .ok r) : MemCanonical r.2 := by
  dsimp only [State.readDesc] at e
  split at e
  · cases e
  · cases e; exact h.readSectors

theorem enqueueCopy {k i o c} : MemCanonical (s.enqueueCopy k i o c) := by
  unfold State.enqueueCopy
  exact .doneWith (.thenDo h.modCopyQueue (·.modWave))

theorem copyIssue {k i o mode} : MemCanonical (s.copyIssue k i o mode) := by
  unfold State.copyIssue
  refine .ite h.trapExec (.access h fun h => .ite h.trapExec ?_)
  split
  · exact h.memError
  · next e =>
    dsimp only
    split
    · exact (h.readDesc e).trapExec
    · exact .ite (h.readDesc e).enqueueCopy (h.readDesc e).trapExec

theorem execCfence {q mask} : KeepsMemory (Machine.execCfence q mask s) :=
  .issue h (fun h₁ => .done (.foldl h₁ (·.modCopyQueue)))

theorem copyWait {k i a yielding} : MemCanonical (s.copyWait k i a yielding) := by
  dsimp only [State.copyWait]
  refine .ite h.trapExec (.ite h.modWave ?_)
  split
  · exact h.modCopy.takeTrap
  · exact .ite (.ticketDone (.foldl h (·.modCopy))) (.thenDo (.modWave (.foldl h (·.modCopy))) (·.modPair))

/-! ### Pod -/

theorem modPod {g n f} : MemCanonical (s.modPod g n f) := h.modGraph

theorem formGroup {l g n m} : MemCanonical (s.formGroup l g n m) := h.modPod.modLaunch.frame

theorem formFull {l g n fuel} : MemCanonical (Machine.formFull l g n fuel s) := by
  induction fuel generalizing s with
  | zero => exact h
  | succ fuel ih => exact .ite (ih h.formGroup.modPod) h

theorem servePod {l g n expired} : MemCanonical (s.servePod l g n expired) :=
  .modPod (.ite h.formGroup.modPod (.ite h.formGroup.modPod h))

theorem lcPod {g n} : MemCanonical (s.lcPod g n) := by
  dsimp only [State.lcPod]
  split
  · exact h
  · exact h.modPod.servePod

theorem formDrain {l g n fuel} : MemCanonical (Machine.formDrain l g n fuel s) := by
  induction fuel generalizing s with
  | zero => exact h
  | succ fuel ih => exact .ite h (ih h.formGroup.modPod)

theorem placePips {g n l} : MemCanonical (s.placePips g n l) := .foldl h.frame (·.modPod)

theorem append {r} : MemCanonical (s.append r) := h.placePips.count

theorem takeRoom {r} : MemCanonical (s.takeRoom r) := h.modGraph

theorem answerEmit {r full} : MemCanonical (s.answerEmit r full) := h.answer

theorem resumeEmit {r full} : MemCanonical (s.resumeEmit r full) := by
  dsimp only [State.resumeEmit]
  split
  · exact h.modWave.unblock
  · exact h.modWave.unblock
  · exact h

theorem execPodAppend {n} : KeepsMemory (Machine.execPodAppend n s) := by
  dsimp only [Machine.execPodAppend]
  refine .event (.ite h (.elseDo h.frame.takeRoom.append (fun h₁ => .ite h.frame.append.answerEmit ?_)))
  split
  · exact h₁.resumeEmit
  · exact .ite h.modPair h₁.resumeEmit.takeAcorn

theorem execCoalescingTimerExpiry {graph node} : KeepsMemory (Machine.execCoalescingTimerExpiry graph node s) := by
  dsimp only [Machine.execCoalescingTimerExpiry]
  refine .event ?_
  split
  · exact h
  · exact .ite h h.modPod.servePod

theorem postEmit {r} : MemCanonical (s.postEmit r) := h.postTo

theorem emitRecords {k i d r} : MemCanonical (s.emitRecords k i d r) := by
  dsimp only [State.emitRecords]
  refine .ite h.block.modWave.frame (.ite h.takeRoom.postEmit.frame.doneWith ?_)
  split
  · exact h.block.modWave.postEmit.frame
  · exact h.doneWith
  · exact h.takeTrap

theorem execEmit {o} : KeepsMemory (Machine.execEmit o s) := by
  dsimp only [Machine.execEmit]
  refine .issue h (fun h₁ => ?_)
  split
  · exact h₁.trapExec
  · exact .ite h₁.trapExec (.ite h₁.takeTrap (.ite h₁.done h₁.emitRecords))

theorem execEmitc {o} : KeepsMemory (Machine.execEmitc o s) := by
  dsimp only [Machine.execEmitc]
  refine .issue h (fun h₁ => ?_)
  split
  · exact h₁.trapExec
  · exact .ite h₁.trapExec (.ite h₁.trapExec (.ite h₁.done h₁.emitRecords))

theorem execJoindec {o} : KeepsMemory (Machine.execJoindec o s) := .issue h (fun h₁ => .ite h₁.trapExec h₁.atomic)

/-! ### Complete -/

theorem cpWrite {c va data} : MemCanonical (s.cpWrite c va data) := by
  dsimp only [State.cpWrite]
  split
  · exact .foldl h.writeHome (·.postEdge)
  · exact h

theorem cpPost {c va n} : MemCanonical (s.cpPost c va n) := .foldl h (·.postEdge)

theorem queueMessage {fn vec} : MemCanonical (s.queueMessage fn vec) := .ite h.message h

theorem complete {fn queue tag status opc seq detail} : MemCanonical (s.complete fn queue tag status opc seq detail) :=
  .thenDo h.writeHostN.modFunc (·.queueMessage)

theorem reply {c opc status detail} : MemCanonical (s.reply c opc status detail) := h.complete

theorem cleanRegion {c r} : MemCanonical (s.cleanRegion c r) :=
  .foldl h (fun h₁ => .rdcWriteBack (.foldl h₁ (·.cleanSector)))

theorem invalRegion {c r} : MemCanonical (s.invalRegion c r) := .foldl h (·.modCore)

theorem execEdgeHash {l edge region} : KeepsMemory (Machine.execEdgeHash l edge region s) := by
  dsimp only [Machine.execEdgeHash]
  refine .event ?_
  split
  · exact h
  · split
    · exact h
    · exact .ite h h.traceEntry.modLaunch

theorem applyPushes {l} : MemCanonical (s.applyPushes l) := .modLaunch (.foldl h (·.pushSlot))

theorem emptyPods {g} : MemCanonical (s.emptyPods g) := h.modGraph

theorem endLaunch {l state status} : MemCanonical (s.endLaunch l state status) :=
  h.applyPushes.modLaunch.traceEntry.modCtx.frame.complete

theorem finishLaunch {l} : MemCanonical (s.finishLaunch l) := by
  dsimp only [State.finishLaunch]
  refine .modLaunch ?_
  split
  · exact h.emptyPods
  · exact h

theorem execLaunchCompletion {l} : KeepsMemory (Machine.execLaunchCompletion l s) :=
  .event (.ite h (.elseDo (.foldl h (·.cleanRegion)) (fun h₁ => .ite h₁.endLaunch h₁.endLaunch)))

theorem execLaunchTeardown {l} : KeepsMemory (Machine.execLaunchTeardown l s) := by
  dsimp only [Machine.execLaunchTeardown]
  refine .event (.ite h (.elseDo (.frame ?_) (·.endLaunch)))
  split
  · exact .thenDo (.frame (.foldl h (·.killSilently))) (·.emptyPods.modGraph)
  · exact .frame (.foldl h (·.killSilently))

/-! ### Fabric -/

theorem setShare {bank share o} : MemCanonical (s.setShare bank share o) := h.frame

theorem toMemory {bank p} : MemCanonical (s.toMemory bank p) := h.frame

theorem writeBackLine {x} : MemCanonical (s.writeBackLine x) :=
  .ite (.foldl (.foldl h (·.healL2)) (·.rdcWriteBack)) (.elseDo (.foldl h (·.healL2)) (fun h₁ => .toMemory (.foldl h₁
    (·.charge))))

theorem dropLine {x} : MemCanonical (s.dropLine x) := .thenDo h.writeBackLine.frameMem (fun h₁ => .foldl h₁ (·.rdcDrop))

theorem allocate {bank husk line owner dirty last secs} :
    MemCanonical (s.allocate bank husk line owner dirty last secs) := by
  dsimp only [State.allocate]
  split
  · exact h.frame
  · split
    · exact h.dropLine.frame
    · exact h

theorem moveLine {bank x} : MemCanonical (s.moveLine bank x) := h.frame.allocate

theorem takePacket {kind num input n} : MemCanonical (s.takePacket kind num input n) := h.frame

theorem serve {bank p} : MemCanonical (s.serve bank p) := by
  unfold State.serve
  extract_lets _ _ _ moved
  have hmoved : MemCanonical moved := by
    unfold moved
    split
    · exact .ite h h.moveLine
    · exact h
  clear_value moved
  split
  · exact .thenDo (.elseDo hmoved.frame.count (·.toMemory)) (·.toMemory)
  · exact .ite hmoved.count.toMemory (.thenDo hmoved.count.allocate.toMemory (·.toMemory))

theorem execL2Request {bank} : KeepsMemory (Machine.execL2Request bank s) := by
  dsimp only [Machine.execL2Request]
  refine .event ?_
  split
  · exact h
  · exact h.takePacket.serve.frame

theorem moveSignatures {husk old new} : MemCanonical (s.moveSignatures husk old new) := h.frameMem

theorem dropMoved {old new} : MemCanonical (s.dropMoved old new) := h.frameMem

theorem execHuskSweepComplete {husk} : KeepsMemory (Machine.execHuskSweepComplete husk s) := by
  dsimp only [Machine.execHuskSweepComplete]
  refine .event ?_
  split
  · exact h
  · exact .frame (.foldl (.moveSignatures (.thenDo (.foldl h (fun h₁ => .ite h₁.moveLine h₁.frame)) (·.dropMoved)))
      (fun h₁ => .foldl h₁ (·.setShare)))

theorem emptyShare {bank share} : MemCanonical (s.emptyShare bank share) := .foldl h (·.dropLine)

theorem husk0Lost {bank} : MemCanonical (s.husk0Lost bank) := by
  dsimp only [State.husk0Lost]
  split
  · exact .ite h h.frame
  · exact h

theorem execShareRetire {bank share} : KeepsMemory (Machine.execShareRetire bank share s) := by
  dsimp only [Machine.execShareRetire]
  refine .event (.ite h (.record (.husk0Lost ?_)))
  split
  · split
    · exact h.emptyShare.setShare.frame.emptyShare.setShare
    · exact h.emptyShare.setShare.frame
  · exact h.emptyShare.setShare.frame

theorem healCheck {controller line owner} : MemCanonical (s.healCheck controller line owner) :=
  .frame (.foldl h (fun h₁ => .ite h₁ h₁.record))

theorem useCheck {controller sec owner} : MemCanonical (s.useCheck controller sec owner) := .frame (.ite h h.healCheck)

theorem execLpddr6Request {controller} : KeepsMemory (Machine.execLpddr6Request controller s) := by
  dsimp only [Machine.execLpddr6Request]
  refine .event ?_
  split
  · exact h
  · exact .frame (.count (.elseDo h.takePacket.useCheck (fun h₁ => .foldl h₁ (·.heal))))

theorem execDramPatrol {sector} : KeepsMemory (Machine.execDramPatrol sector s) := .event (.ite h h.heal)

theorem execHotClear {controller} : KeepsMemory (Machine.execHotClear controller s) := h.frame.event

theorem edgeGrant {num} : MemCanonical (s.edgeGrant num) := by
  dsimp only [State.edgeGrant]
  split
  · exact h
  · exact .elseDo h.takePacket (·.frame)

theorem execArbiterGrant {arbiter} : KeepsMemory (Machine.execArbiterGrant arbiter s) := by
  dsimp only [Machine.execArbiterGrant]
  refine .event (.ite h.edgeGrant ?_)
  split
  · exact h
  · split
    · exact .elseDo h.takePacket (fun h₁ => .ite h₁.frame h₁.frame)
    · exact .ite h.takePacket.frame h.takePacket.frame
    · exact h.takePacket.frame

theorem ageFabric : MemCanonical s.ageFabric := .frame (.foldl h (fun h₁ => .ite h₁.count h₁))

theorem execSlackExhaustion {packet} : KeepsMemory (Machine.execSlackExhaustion packet s) := by
  dsimp only [Machine.execSlackExhaustion]
  refine .event ?_
  split
  · exact h
  · exact .ite h (.ite h.frame.count.modCtx.record h.frame.count.modCtx)

/-! ### Frames -/

theorem scrubAll {frames} : MemCanonical (s.scrubAll frames) := ⟨Memory.wf_filter _ h.1, h.2⟩

theorem scrub {frame} : MemCanonical (s.scrub frame) := h.scrubAll

theorem takeFrame {c frame} : MemCanonical (s.takeFrame c frame) := h.frame.modCtx

theorem tellLinked {asid va len} : MemCanonical (s.tellLinked asid va len) := h.frame

theorem writeEntry {pa e} : MemCanonical (s.writeEntry pa e) := h.writeHomeN

theorem newTable {c} : MemCanonical (s.newTable c).2 := h.scrub.frame

theorem mapPage {c ipa frame fuel level table} : MemCanonical (Machine.mapPage c ipa frame fuel level table s) := by
  induction fuel generalizing s level table with
  | zero => exact h
  | succ fuel ih => exact .ite (.ite h h.writeEntry) (.ite (.ite (ih h) h) (ih h.newTable.writeEntry))

theorem mapFrame {c ipa frame} : MemCanonical (s.mapFrame c ipa frame) := h.scrub.takeFrame.mapPage

theorem mapVa {c va fuel} : MemCanonical (Machine.mapVa c va fuel s) := by
  induction fuel generalizing s with
  | zero => exact h
  | succ fuel ih =>
    unfold Machine.mapVa
    split
    · exact ih h.mapFrame
    · exact h

theorem mapRegion {c r} : MemCanonical (s.mapRegion c r) := .foldl h (·.mapVa)

/-! ### Launch -/

theorem execLaunch {c} : KeepsMemory (Machine.execLaunch c s) := by
  unfold Machine.execLaunch
  refine .event ?_
  extract_lets ctx add
  have hadd {s l} (h : MemCanonical s) : MemCanonical (add s l) := h.frame
  clear_value add
  split
  · exact (hadd h).endLaunch
  · extract_lets _ _ _ _ _ _ status _ added
    have hadded : MemCanonical added := hadd (.modCtx (.foldl h.cpPost (·.mapRegion)))
    clear_value added status
    split
    · exact hadded.endLaunch
    · exact .foldl hadded (·.cleanRegion)

theorem execOperatingPointChange {domain} : KeepsMemory (Machine.execOperatingPointChange domain s) :=
  .event (.ite h h.frame)

theorem enterRunning {l} : MemCanonical (s.enterRunning l) := h.modLaunch.frame

theorem advanceLaunch {l} (e : s.advanceLaunch l = some t) : MemCanonical t := by
  dsimp only [State.advanceLaunch] at e
  split at e
  · cases e
  · split at e
    · split at e
      · cases e; exact h.endLaunch
      · split at e
        · cases e
        · cases e; exact h.modLaunch
    · split at e
      · cases e; exact h.enterRunning
      · cases e
    · cases e

/-! ### Place -/

theorem firstDispatch {l phys} : MemCanonical (s.firstDispatch l phys) :=
  .ite h (.traceEntry (.modLaunch (.foldl h (·.invalRegion))))

theorem placeBytes {c checked k p pips w} : MemCanonical (s.placeBytes c checked k p pips w) := h.writeSpBoth

theorem startGroup {l k node grpid roles n pips pc start p} :
    MemCanonical (s.startGroup l k node grpid roles n pips pc start p) :=
  .thenDo (.modLaunch (.foldl (.foldl (.foldl h.firstDispatch.frame (·.placeBytes)) (·.modTwin)) (·.remirror))) (·.modPair)

theorem startFlat {l k p} : MemCanonical (s.startFlat l k p) := h.startGroup.modLaunch

theorem startFormed {l n k p} : MemCanonical (s.startFormed l n k p) := h.modLaunch.startGroup

theorem startCont {l g n k p} : MemCanonical (s.startCont l g n k p) :=
  .elseDo (.startGroup (.foldl h.modPod.modLaunch (·.postEdge.acquireLine))) (·.postTrap)

theorem execGroupDispatch {ctx} : KeepsMemory (Machine.execGroupDispatch ctx s) := by
  dsimp only [Machine.execGroupDispatch]
  refine .event ?_
  split
  · split
    · exact h.startFlat
    · exact h.startFormed
    · exact h
  · exact h

theorem execContinuationDispatch {graph node} : KeepsMemory (Machine.execContinuationDispatch graph node s) := by
  dsimp only [Machine.execContinuationDispatch]
  refine .event ?_
  split
  · split
    · exact h.startCont
    · exact h
  · exact h

theorem setGang {l g} : MemCanonical (s.setGang l g) := h.modLaunch

theorem commitGang {l grpid k p} : MemCanonical (s.commitGang l grpid k p) := h.frame.modCtx.modLaunch.startFlat

theorem refuseGang {l g} : MemCanonical (s.refuseGang l g) := .thenDo h.setGang (·.modCtx.frame)

theorem execGangReserve {l grpid} : KeepsMemory (Machine.execGangReserve l grpid s) := by
  dsimp only [Machine.execGangReserve]
  refine .event (.ite h ?_)
  split
  · exact h.commitGang
  · exact .ite (.setGang (.foldl h (·.modCore))) (.ite h h.refuseGang)

theorem execGangBackoffExpiry {l grpid} : KeepsMemory (Machine.execGangBackoffExpiry l grpid s) := .event (.ite h.setGang h)

theorem drainGraph {l g} : MemCanonical (s.drainGraph l g) := .foldl h (·.formDrain)

theorem drainIdle {l} : MemCanonical (s.drainIdle l) := by
  dsimp only [State.drainIdle]
  split
  · exact h
  · exact .ite h.drainGraph h

theorem serveLc : MemCanonical s.serveLc := .frame (.foldl (.foldl h (·.lcPod)) (·.drainIdle))

theorem leaveRunning {l} (e : s.leaveRunning l = some t) : MemCanonical t := by
  dsimp only [State.leaveRunning] at e
  split at e
  · cases e
  split at e
  · cases (Option.ite_none_right_eq_some.mp e).2
    exact h.finishLaunch
  · cases (Option.ite_none_right_eq_some.mp e).2
    exact h.finishLaunch

theorem dispatchDet {l fuel} : MemCanonical (Machine.dispatchDet l fuel s) := by
  induction fuel generalizing s with
  | zero => exact h
  | succ fuel ih =>
    refine .ite h ?_
    split
    · refine .ite h ?_
      split
      · exact ih h.startFlat
      · exact h
    · split
      · exact h
      · dsimp only
        split
        · exact ih h.startFormed
        · exact h

/-! ### Sync -/

theorem joinBarriers {k entries} : MemCanonical (s.joinBarriers k entries) := .foldl (.foldl h (·.modCtx)) (·.completePhase)

theorem changeSubgroup {k sgid} : MemCanonical (s.changeSubgroup k sgid) := .joinBarriers (.leaveBarriers h (·.modWave))

theorem moveTo {k target sgid} : MemCanonical (s.moveTo k target sgid) :=
  .joinBarriers (.leaveBarriers h (·.modWave.dissolve))

theorem execGjoin {q a sgid} : KeepsMemory (Machine.execGjoin q a sgid s) := by
  dsimp only [Machine.execGjoin]
  refine .issue h (fun h₁ => .ite h₁.trapExec (.ite h₁.trapExec ?_))
  split
  · exact h₁.trapExec
  · exact .ite (.done (.ite h₁ h₁.changeSubgroup)) (.ite h₁.trapExec h₁.moveTo.done)

theorem detach {k} : MemCanonical (s.detach k) := .leaveBarriers h (·.frame.modWave.dissolve)

theorem execGleave {q} : KeepsMemory (Machine.execGleave q s) := .issue h (fun h₁ => .ite h₁.trapExec h₁.detach.done)

theorem execBopen {q d a mask} : KeepsMemory (Machine.execBopen q d a mask s) := by
  dsimp only [Machine.execBopen]
  refine .issue h (fun h₁ => .ite h₁.trapExec ?_)
  split
  · exact h₁.doneWith
  · exact h₁.modCtx.doneWith

theorem waitPhase {k b i} : MemCanonical (s.waitPhase k b i) := .thenDo h.block (·.modWave)

theorem arriveAt {k b n} : MemCanonical (s.arriveAt k b n) := .ite h.modWave h.modCtx

theorem execBara {q a} : KeepsMemory (Machine.execBara q a s) := by
  dsimp only [Machine.execBara]
  refine .issue h (fun h₁ => ?_)
  split
  · exact h₁.trapExec
  · exact .ite h₁.waitPhase (.elseDo h₁.arriveAt.done (·.completePhase))

theorem execBarw {q a} : KeepsMemory (Machine.execBarw q a s) := by
  dsimp only [Machine.execBarw]
  refine .issue h (fun h₁ => ?_)
  split
  · exact h₁.trapExec
  · exact .ite h₁.waitPhase (.elseDo h₁.arriveAt.waitPhase (·.completePhase))

theorem execVclaim {q n} : KeepsMemory (Machine.execVclaim q n s) :=
  .issue h (fun h₁ => .ite h₁.trapExec (.modCore (.thenDo h₁.block (·.modWave))))

theorem execVrels {q n} : KeepsMemory (Machine.execVrels q n s) := by
  dsimp only [Machine.execVrels]
  refine .issue h (fun h₁ => .ite h₁.trapExec ?_)
  split
  · exact h₁.trapExec
  · exact h₁.doneWith

/-! ### Control -/

theorem branch {k i off taken} : MemCanonical (s.branch k i off taken) := h.retireAt

theorem execCall {q off} : KeepsMemory (Machine.execCall q off s) := .issue h (·.modWave.branch)

theorem jumpTo {k i a change} : MemCanonical (s.jumpTo k i a change) := .ite h.trapExec h.modWave.retireAt

theorem execXjoin {q a} : KeepsMemory (Machine.execXjoin q a s) := .issue h (·.modWave.retireAt)

theorem execSigchk {q imm} : KeepsMemory (Machine.execSigchk q imm s) :=
  .issue h (fun h₁ => .ite h₁.done (.ite h₁.doneWith (.ite h₁.mismatch (.trapExec (.ite h₁ h₁.record)))))

theorem execAcorn {q id} : KeepsMemory (Machine.execAcorn q id s) := .issue h (fun h₁ => .ite h₁.modWave.modPair h₁.done)

theorem execTrap {q n} : KeepsMemory (Machine.execTrap q n s) := by
  dsimp only [Machine.execTrap]
  refine .issue h (fun h₁ => ?_)
  split
  · exact h₁.trapExec
  · exact h₁.block

theorem execBkpt {q tag} : KeepsMemory (Machine.execBkpt q tag s) := .issue h (·.trapExec)

theorem execTret {q} : KeepsMemory (Machine.execTret q s) :=
  .issue h (fun h₁ => .ite h₁.parkAgain (.ite h₁.trapExec h₁.retireAt.modWave))

theorem execNop {q} : KeepsMemory (Machine.execNop q s) := .issue h (·.done)

theorem execExitw {q} : KeepsMemory (Machine.execExitw q s) :=
  .issue h (fun h₁ => .ite h₁.parkAgain (.leaveBarriers h₁.done (·.exited)))

theorem execIcinv {q scope} : KeepsMemory (Machine.execIcinv q scope s) := .issue h (·.done.modWave)

/-! ### Txn -/

theorem execTxbegin {q off} : KeepsMemory (Machine.execTxbegin q off s) :=
  .issue h (fun h₁ => .ite h₁.abortTxn (.ite h₁.trapExec (.ite h₁.modWave.modPair
    (.doneWith h₁.modWave.drainAtomics.releaseCore))))

theorem commit {k t} : MemCanonical (s.commit k t) := .modCore (.foldl h.storeAtHome (·.depositAt))

theorem execTxend {q d} : KeepsMemory (Machine.execTxend q d s) := by
  dsimp only [Machine.execTxend]
  refine .issue h (fun h₁ => ?_)
  split
  · exact h₁.doneWith
  · exact .ite h₁.parkAgain (.ite h₁.abortTxn h₁.commit.releaseTokens.doneWith)

theorem execTxabort {q a} : KeepsMemory (Machine.execTxabort q a s) := .issue h (fun h₁ => .ite h₁.abortTxn h₁.done)

/-! ### Steps -/

theorem execLoadReturn {w} : KeepsMemory (Machine.execLoadReturn w s) := by
  dsimp only [Machine.execLoadReturn]
  refine .event ?_
  split
  · exact .ite h.setWave h
  · exact h.setWave

theorem execStorePerformed {core sector} : KeepsMemory (Machine.execStorePerformed core sector s) := by
  dsimp only [Machine.execStorePerformed]
  refine .event ?_
  split
  · exact h.cleanSector
  · exact h

theorem execAtomicPerformed {n} : KeepsMemory (Machine.execAtomicPerformed n s) := .event (.ite h.performNth h)

theorem performFence {k o line} : MemCanonical (s.performFence k o line) := by
  dsimp only [State.performFence]
  refine .elseDo (.ite h ?_) (fun h₁ => ?_)
  · split
    · exact h.releaseLine
    · exact h.releaseCore
  · split
    · exact h₁.acquireLine
    · exact h₁.acquireAll

theorem execFenceComplete {w} : KeepsMemory (Machine.execFenceComplete w s) := by
  dsimp only [Machine.execFenceComplete]
  refine .event ?_
  split
  · exact .ite h h.performFence.modWave
  · exact h

theorem execWritebackAck {w} : KeepsMemory (Machine.execWritebackAck w s) := .event (.ite h.modWave h)

theorem execIcinvAck {w} : KeepsMemory (Machine.execIcinvAck w s) := by
  dsimp only [Machine.execIcinvAck]
  refine .event ?_
  split
  · exact .modWave (.foldl h (·.modCore))
  · exact h

theorem execSignatureEpochAdvance : KeepsMemory (Machine.execSignatureEpochAdvance s) := h.frameMem.event

theorem execTrapEntry {w cause mask addr} : KeepsMemory (Machine.execTrapEntry w cause mask addr s) := by
  dsimp only [Machine.execTrapEntry]
  refine .event ?_
  split
  · exact .ite h.enterTrap h
  · exact h

theorem execTransactionAbort {w reason code} : KeepsMemory (Machine.execTransactionAbort w reason code s) :=
  .event (.ite h.performAbort h)

theorem grantClaim {k n} : MemCanonical (s.grantClaim k n) := h.modCore.modWave.frame.unblock

theorem execClaimGrant {core} : KeepsMemory (Machine.execClaimGrant core s) := by
  dsimp only [Machine.execClaimGrant]
  refine .event ?_
  split
  · exact .ite h.grantClaim h
  · exact h

theorem execClaimDeadlock {g} : KeepsMemory (Machine.execClaimDeadlock g s) :=
  .event (.ite h (.foldl h (·.modCore.postTrap)))

theorem declarePodDeadlock {l} : MemCanonical (s.declarePodDeadlock l) := .foldl h (·.frame.postTrap)

theorem execPodDeadlock {l} : KeepsMemory (Machine.execPodDeadlock l s) := .event (.ite h.declarePodDeadlock h)

theorem readBuffer {p go} (hgo : ∀ {s}, MemCanonical s → MemCanonical (go s)) : MemCanonical (s.readBuffer p go) := by
  dsimp only [State.readBuffer]
  split
  · exact hgo h
  · exact .ite (hgo h) (.ite h.mismatch (hgo h.pairCorrected.modPair))

theorem execCheckCompare {pair} : KeepsMemory (Machine.execCheckCompare pair s) :=
  .event (.ite (.readBuffer h (·.compareNext)) h)

theorem execAcornTake {pair reason} : KeepsMemory (Machine.execAcornTake pair reason s) := .event (.ite h.takeAcorn h)

theorem execReexecute {pair} : KeepsMemory (Machine.execReexecute pair s) := .event (.ite h.modPair h)

/-! ### Epoch -/

theorem execQuantumEnd {w} : KeepsMemory (Machine.execQuantumEnd w s) := .event (.ite h.modWave h)

theorem commitEmit {k r} : MemCanonical (s.commitEmit k r) := by
  dsimp only [State.commitEmit]
  refine .ite h.takeRoom.postEmit.append.resumeEmit ?_
  split
  · exact h.frame
  · exact h.resumeEmit
  · exact h.postTrap

theorem commitEffect {k e} : MemCanonical (s.commitEffect k e) := by
  dsimp only [State.commitEffect]
  split
  · exact h.storeAtCore.markWriters.modLaunch
  · exact h.writeSpBoth.modLaunch
  · exact h.performAtomic.modLaunch
  · exact h.commitEmit
  · exact h.modCtx
  · exact h.frame.modCopy

theorem commitWave {k} : MemCanonical (s.commitWave k) := .foldl (.modWave (.foldl h.frame (·.commitEmit))) (·.commitEffect)

theorem commitSeeds {g} : MemCanonical (s.commitSeeds g) := by
  refine foldl_fst h.frame fun h => ?_
  split
  · exact h.takeRoom.append
  · exact h.frame

theorem completePhases {l} : MemCanonical (s.completePhases l) := .foldl h (·.completePhase)

theorem grantClaims {l} : MemCanonical (s.grantClaims l) := by
  refine foldl_fst h fun h => ?_
  dsimp only
  split
  · exact h
  · exact h.grantClaim

theorem formGroups {l g} : MemCanonical (s.formGroups l g) := .foldl h (·.formFull)

theorem execEpochEnd {l} : KeepsMemory (Machine.execEpochEnd l s) := by
  unfold Machine.execEpochEnd
  refine .event (.ite h ?_)
  extract_lets _ acorns graph seeded _ _ unveiled formed
  have hacorns : MemCanonical acorns := .ite (.foldl h (·.takeAcorn)) h
  clear_value graph acorns
  have hseeded : MemCanonical seeded := by
    unfold seeded
    split
    · exact hacorns.commitSeeds
    · exact hacorns
  clear_value seeded
  have hunveiled : MemCanonical unveiled := .modLaunch (.grantClaims (.completePhases (.foldl hseeded (·.commitWave))))
  clear_value unveiled
  have hformed : MemCanonical formed := by
    unfold formed
    split
    · exact hunveiled.formGroups
    · exact hunveiled
  clear_value formed
  exact .thenDo (.modLaunch (.foldl (.thenDo hformed.dispatchDet (·.declarePodDeadlock)) (·.modWave)))
    (.foldl · (·.modPair))

/-! ### Fetch -/

theorem dropBlock {core blk owner} : MemCanonical (s.dropBlock core blk owner) := .ite h.frameMem.record h

theorem refuseWord {k d} : MemCanonical (s.refuseWord k d) := by
  dsimp only [State.refuseWord]
  split
  · exact h
  · exact h.trapExec
  · exact h.trapExec

theorem fetch {k} : MemCanonical (fetchedState (s.fetch k)) := by
  unfold State.fetch
  extract_lets w core asker
  split
  · exact h.fatalError
  · exact h.memError
  · exact h.raise
  · extract_lets known walked filled pa keep ready
    have hfilled : MemCanonical filled := .fillTlb (.ite h h.postWalk)
    have hready : MemCanonical ready := hfilled.dropBlock.countDenials
    clear_value ready filled
    split
    · exact hfilled.modCore
    · split
      next e =>
        have hread := hready.nearRead.snd (congrArg Prod.snd e)
        rw [apply_ite fetchedState]
        exact .ite hread.modCore hread.memError

/-! ### Matrix -/

theorem wakeBatches {g} : MemCanonical (s.wakeBatches g) := .foldl h (·.unblock)

theorem entryRetired {g n} : MemCanonical (s.entryRetired g n) := .ite h h.modGroup.wakeBatches

theorem modShadow {t e f} : MemCanonical (s.modShadow t e f) := .ite h.modTwin h

theorem retireHead {t} : MemCanonical (s.retireHead t) := by
  dsimp only [State.retireHead]
  split
  · exact h
  · exact .thenDo h.modTwin.modTwin.entryRetired (·.modTwin)

theorem suspend {t e source addr synd} : MemCanonical (s.suspend t e source addr synd) := by
  dsimp only [State.suspend]
  refine .ite h.mismatch (.ite h.record.retireHead ?_)
  split
  · exact h.record.modTwin
  · exact h.record.modTwin.modTwin.postTrap

theorem dropAccErrs {t tile idx} : MemCanonical (s.dropAccErrs t tile idx) := h.frameMem

theorem readAcc {t e idx go} (hgo : ∀ {s}, MemCanonical s → MemCanonical (go s)) : MemCanonical (s.readAcc t e idx go) := by
  dsimp only [State.readAcc]
  split
  · exact h.suspend
  · exact hgo (.dropAccErrs (.dropAccErrs (.foldl h (·.record))))

theorem execMatrixOperationStart {t} : KeepsMemory (Machine.execMatrixOperationStart t s) := by
  dsimp only [Machine.execMatrixOperationStart]
  refine .event ?_
  split
  · split
    · exact .ite h (.elseDo h.modTwin (fun h₁ => .elseDo h₁.modTwin.modShadow (·.dropAccErrs.modTwin)))
    · exact h
    · exact h
    · exact h
  · exact h

theorem shadowKstep {t e st} : MemCanonical (s.shadowKstep t e st) := h.modShadow

theorem execMmaKstep {t} : KeepsMemory (Machine.execMmaKstep t s) := by
  dsimp only [Machine.execMmaKstep]
  refine .event ?_
  split
  · split
    · refine .ite h (.ite h.retireHead ?_)
      split
      · exact h.suspend
      · exact .readAcc (.foldl h (·.healSp)) (fun h₁ => .thenDo h₁.shadowKstep.modTwin.count.count (·.retireHead))
    · exact h
    · exact h
    · exact h
  · exact h

theorem answerRun {k tag image shadow} : MemCanonical (s.answerRun k tag image shadow) := .foldl h (·.answer)

theorem execTileAccessComplete {t} : KeepsMemory (Machine.execTileAccessComplete t s) := by
  dsimp only [Machine.execTileAccessComplete]
  refine .event ?_
  split
  · refine .ite h ?_
    split
    · exact h
    · exact h.modShadow.dropAccErrs.modTwin.retireHead
    · exact .readAcc h (·.answerRun.retireHead)
    · exact .ite h.modShadow.dropAccErrs.modTwin.retireHead (.readAcc h (·.modShadow.dropAccErrs.modTwin.retireHead))
  · exact h

theorem enqueueMatrix {k op batched} : MemCanonical (s.enqueueMatrix k op batched) := .modTwin (.ite h.modGroup h)

theorem withTile {k go} (hgo : ∀ {s}, MemCanonical s → MemCanonical (go s)) : MemCanonical (s.withTile k go) :=
  .ite (hgo h) h.trapExec

theorem execMmaBp {o} : KeepsMemory (Machine.execMmaBp o s) :=
  .issue h (fun h₁ => .ite h₁.trapExec (.ite h₁.trapExec (.withTile h₁ (·.modTwin.enqueueMatrix.done))))

theorem execMzero {q d} : KeepsMemory (Machine.execMzero q d s) := .issue h (fun h₁ => .withTile h₁ (·.enqueueMatrix.done))

theorem execMrd {o} : KeepsMemory (Machine.execMrd o s) :=
  .issue h (fun h₁ => .ite h₁.trapExec (.withTile h₁ (·.enqueueMatrix.frame.doneWith)))

theorem execMwr {o} : KeepsMemory (Machine.execMwr o s) :=
  .issue h (fun h₁ => .ite h₁.trapExec (.withTile h₁ (·.enqueueMatrix.done)))

theorem execMbatch {q d} : KeepsMemory (Machine.execMbatch q d s) := .issue h (·.modGroup.doneWith)

theorem execMwait {q a} : KeepsMemory (Machine.execMwait q a s) := by
  dsimp only [Machine.execMwait]
  refine .issue h (fun h₁ => .ite h₁.trapExec ?_)
  split
  · exact h₁.modTwin.takeTrap
  · exact .ite (.block (.foldl h₁ (·.modTwin))) (.done (.foldl h₁ (·.modTwin)))

theorem execQplane {o} : KeepsMemory (Machine.execQplane o s) :=
  .issue h (fun h₁ => .ite h₁.trapExec (.ite h₁.trapExec h₁.postSp.spStore.done))

/-! ### Preempt -/

theorem stopTwin {t} : MemCanonical (s.stopTwin t) := h.modTwin

theorem execPreemptionRequest {ctx} : KeepsMemory (Machine.execPreemptionRequest ctx s) :=
  .event (.ite h (.foldl (.foldl (.foldl (.foldl h (·.modCtx)) (·.modWave)) (fun h₁ => .ite h₁.abortTxn h₁)) (·.stopTwin)))

theorem reserveShadow : MemCanonical s.reserveShadow := by
  dsimp only [State.reserveShadow]
  refine .ite h ?_
  split
  · exact h
  · refine .foldl h.frame (fun h₁ => ?_)
    split
    · exact h₁.emptyShare.setShare
    · exact h₁

theorem saveGroup {g} : MemCanonical (s.saveGroup g) := .frame (.modGroup (.foldl h.reserveShadow (·.modTwin)))

theorem saveWave {k point} : MemCanonical (s.saveWave k point) :=
  .elseDo h.frame.setWave.frame.modCore.releaseTokens.remirror (·.saveGroup)

theorem saveOr {k point} : MemCanonical (s.saveOr k point) := .ite h.saveWave h.modPair

theorem execPreemptionSave {w} : KeepsMemory (Machine.execPreemptionSave w s) := by
  dsimp only [Machine.execPreemptionSave]
  refine .event (.ite h.abortTxn ?_)
  split
  · exact h.saveOr
  · exact h

theorem execFullSave {w} : KeepsMemory (Machine.execFullSave w s) := .event (.ite h.abortTxn (.ite h.saveOr h))

theorem restoreWave {k} : MemCanonical (s.restoreWave k) := by
  dsimp only [State.restoreWave]
  split
  · exact h.setWave.remirror.modCore
  · split
    · exact .ite h.setWave.remirror.modWave (.thenDo h.setWave.remirror (·.unblock))
    · exact h.setWave.remirror
  · exact h.setWave.remirror.wakeTickets
  · exact h.setWave.remirror
  · exact h.setWave.remirror
  · exact h.setWave.remirror
  · exact h.setWave.remirror
  · exact h.setWave.remirror

theorem restoreGroup {g} : MemCanonical (s.restoreGroup g) := by
  have emptied {p} : MemCanonical { s with mem := { s.mem with sp := s.mem.sp.filter p } } := ⟨h.1, Memory.wf_filter p h.2.1, h.2.2⟩
  exact .thenDo (.foldl (.frame (.foldl emptied.writeSpBoth fun h => .thenDo h.modTwin (·.modTwin))) (·.restoreWave))
    (·.modPair)

theorem execPreemptionRestore {ctx} : KeepsMemory (Machine.execPreemptionRestore ctx s) :=
  .event (.ite h (.foldl (.foldl h (·.modCtx)) (fun h₁ => .ite h₁.restoreGroup h₁)))

theorem beginSwitch {out into} : MemCanonical (s.beginSwitch out into) :=
  .elseDo h.frame (fun h₁ => .foldl (.foldl (.foldl (.foldl h₁ (·.modCtx)) (·.modWave))
    (fun h₂ => .ite h₂.abortTxn h₂)) (·.stopTwin))

theorem finishSwitch {out into} : MemCanonical (s.finishSwitch out into) :=
  .elseDo (.modFunc (.frame (.foldl (.foldl h (·.modCtx)) (·.modCtx)))) (fun h₁ => .foldl (.foldl h₁ (·.modCtx))
    (fun h₂ => .ite h₂.restoreGroup h₂))

theorem execWorldSwitch {outCtx inCtx} : KeepsMemory (Machine.execWorldSwitch outCtx inCtx s) := by
  dsimp only [Machine.execWorldSwitch]
  refine .event ?_
  split
  · exact .ite h.beginSwitch h
  · exact .ite h.finishSwitch h

/-! ### Service -/

theorem answerService {k x} : MemCanonical (s.answerService k x) := h.modWave.unblock

theorem execNull {w} : KeepsMemory (Machine.execNull w s) := by
  dsimp only [Machine.execNull]
  refine .event ?_
  split
  · exact h.answerService
  · exact .ite h.answerService h
  · exact h

theorem dropTranslations {c entry window} : MemCanonical (s.dropTranslations c entry window) :=
  .frame (.foldl h (·.modCore))

theorem invalidate1 {c base len} : MemCanonical (s.invalidate1 c base len) := h.dropTranslations

theorem execTlbi {w} : KeepsMemory (Machine.execTlbi w s) :=
  .event (.ite h (.ite h.answerService h.invalidate1.tellLinked.answerService))

theorem execStage2Shootdown {ctx ipa len} : KeepsMemory (Machine.execStage2Shootdown ctx ipa len s) :=
  h.dropTranslations.tellLinked.event

theorem addFrame {c va nslot ipa} : MemCanonical (s.addFrame c va nslot ipa) := by
  dsimp only [State.addFrame]
  split
  · split
    · exact h.mapFrame.cpWrite.cpWrite.depositAt
    · exact h.mapFrame.cpWrite.cpWrite
  · exact h

theorem refillPool {c va frames} : MemCanonical (s.refillPool c va frames).2 := by
  dsimp only [State.refillPool]
  split
  · exact h
  · exact .foldl h (·.addFrame)

theorem execPoolRefill {w frames} : KeepsMemory (Machine.execPoolRefill w frames s) :=
  .event (.ite h (.answerService h.refillPool))

theorem execPoolCheck {ctx frames} : KeepsMemory (Machine.execPoolCheck ctx frames s) := by
  dsimp only [Machine.execPoolCheck]
  refine .event ?_
  split
  · exact .thenDo h.modCtx (·.refillPool)
  · exact h.modCtx

theorem execFail {w} : KeepsMemory (Machine.execFail w s) := .event (.ite h.kill h)

theorem execStage2FaultService {w frame} : KeepsMemory (Machine.execStage2FaultService w frame s) := by
  dsimp only [Machine.execStage2FaultService]
  refine .event ?_
  split
  · refine .ite h ?_
    split
    · exact h.mapFrame.unblock
    · exact h.modWave.takeTrap
  · exact h

/-! ### Peer -/

theorem peerReply {x} : MemCanonical (s.peerReply x) := h.frame

theorem performPeer {pas ask} : MemCanonical (s.performPeer pas ask).2 := by
  dsimp only [State.performPeer]
  split
  · split <;> exact h
  · exact h.writeHome
  · split
    · exact h
    · exact h.writeHome
  · exact h.depositAt
  · exact h

theorem execPeerRequest {asid va call} : KeepsMemory (Machine.execPeerRequest asid va call s) := by
  dsimp only [Machine.execPeerRequest]
  refine .event ?_
  split
  · exact h.peerReply
  · exact .peerReply (.performPeer (.foldl (.foldl h (·.noteFrame)) (·.postEdge.heal.healL2)))

theorem execPeerShootdown {asid va len} : KeepsMemory (Machine.execPeerShootdown asid va len s) :=
  .event (.foldl (.frame (.foldl h (·.invalidate1))) (·.rdcDrop))

theorem execPeerFatalNotice {dev} : KeepsMemory (Machine.execPeerFatalNotice dev s) := .event (.ite h h.frame.linkRecord)

theorem portsDone : MemCanonical s.portsDone := .ite h.frame h

theorem execLinkTraining {port goodLanes peer} : KeepsMemory (Machine.execLinkTraining port goodLanes peer s) :=
  .event (.ite h (.ite h.frame.linkRecord.portsDone (.ite h.frame.frame h.frame.frame.portsDone)))

theorem execLinkLossOfLock {port} : KeepsMemory (Machine.execLinkLossOfLock port s) := .event (.ite h h.frame.portsDone)

/-! ### Commands -/

theorem fitShares {husk n bank} : MemCanonical (s.fitShares husk n bank) :=
  .foldl (.foldl h (·.emptyShare.setShare)) (·.emptyShare.setShare)

theorem cleanHusk {husk} : MemCanonical (s.cleanHusk husk) :=
  .frame (.thenDo (.foldl h (·.writeBackLine)) (fun h₁ => .foldl h₁ (·.rdcWriteBack)))

theorem defineHusk {c r banks} : MemCanonical (s.defineHusk c r banks).2.2 :=
  .frame (.thenDo (.foldl h (·.fitShares)) (·.cleanHusk))

theorem execHuskDefine {c} : KeepsMemory (Machine.execHuskDefine c s) := by
  dsimp only [Machine.execHuskDefine]
  refine .event ?_
  split
  · exact h.reply
  · exact .ite h.cpWrite.reply (.reply (.cpWrite h.defineHusk))

theorem execGraphCreate {c} : KeepsMemory (Machine.execGraphCreate c s) := by
  dsimp only [Machine.execGraphCreate]
  refine .event ?_
  split
  · exact h.reply
  · split
    · exact h.reply
    · exact .ite h.reply (.reply (.foldl h.modCtx.frame (·.cpWrite)))

theorem execGraphDestroy {c} : KeepsMemory (Machine.execGraphDestroy c s) :=
  .event (.ite h.reply (.ite h.reply h.modGraph.reply))

theorem execTraceMark {c} : KeepsMemory (Machine.execTraceMark c s) := h.traceEntry.reply.event

theorem execPerfConfig {c} : KeepsMemory (Machine.execPerfConfig c s) := h.modCtx.reply.event

theorem execPerfRead {c} : KeepsMemory (Machine.execPerfRead c s) := by
  dsimp only [Machine.execPerfRead]
  refine .event ?_
  split
  · exact h.reply
  · exact .reply (.thenDo h.cpWrite (·.modCtx))

theorem execSlotConfig {c} : KeepsMemory (Machine.execSlotConfig c s) := .event (.ite h.reply (.ite h.reply h.modCtx.reply))

theorem execPoolSet {c frames} : KeepsMemory (Machine.execPoolSet c frames s) := by
  dsimp only [Machine.execPoolSet]
  refine .event ?_
  split
  · exact h.reply
  · exact .reply (.thenDo h.modCtx (·.refillPool))

theorem execS1rootSet {c} : KeepsMemory (Machine.execS1rootSet c s) :=
  .event (.ite h.reply (.ite h.reply h.modCtx.dropTranslations.tellLinked.reply))

theorem buildStage2 {root block} : MemCanonical (s.buildStage2 root block) := by
  dsimp only [State.buildStage2]
  split
  · exact h.writeEntry
  · exact .foldl h.writeEntry.scrubAll (·.writeEntry)

theorem modQueue {fn queue f} : MemCanonical (s.modQueue fn queue f) := h.modFunc

theorem execCtxCreate {c asid s2root} : KeepsMemory (Machine.execCtxCreate c asid s2root s) := by
  dsimp only [Machine.execCtxCreate]
  refine .event ?_
  split
  · exact h.reply
  · exact .ite h.reply (.reply (.foldl h.frame.scrub.scrub.buildStage2 (·.modQueue)))

theorem destroyLaunch {l} : MemCanonical (s.destroyLaunch l) := .endLaunch (.frame (.foldl h (·.killSilently)))

theorem destroyContext {c} : MemCanonical (s.destroyContext c) :=
  .modCtx (.frame (.frame (.scrubAll (.frame (.tellLinked (.foldl h (·.destroyLaunch)))))))

theorem execCtxDestroy {c} : KeepsMemory (Machine.execCtxDestroy c s) := .event (.ite h.reply h.destroyContext.reply)

theorem execVfAssign {c} : KeepsMemory (Machine.execVfAssign c s) := .event (.ite h.reply h.frame.modFunc.reply)

/-! ### Cross -/

theorem execVdwc {o} : KeepsMemory (Machine.execVdwc o s) := .issue h (fun h₁ => .ite h₁.trapExec h₁.doneWith)

theorem pooling {i o f} : KeepsMemory (Machine.pooling i o f s) := by
  dsimp only [Machine.pooling]
  refine .issue h (fun h₁ => ?_)
  split
  · exact h₁.trapExec
  · refine .ite h₁.trapExec ?_
    split
    · exact h₁.trapExec
    · exact h₁.doneWith

/-! ### HostIo -/

theorem hostReply {x} : MemCanonical (s.hostReply x) := h.frame

theorem execApertureAccess {fn off ask} : KeepsMemory (Machine.execApertureAccess fn off ask s) := by
  dsimp only [Machine.execApertureAccess]
  refine .event (.ite h (.ite h.fatalError ?_))
  split
  · split
    · exact h.linkRecord.hostReply
    · exact .ite (.hostReply (.foldl h (·.postEdge.heal.healL2))) (.hostReply (.foldl h (·.postEdge.heal.healL2)))
  · split
    · exact h.linkRecord
    · exact .foldl h.writeHome (·.postEdge)
  · exact h
  · exact h
  · exact h

theorem execSqDoorbell {fn queue tail} : KeepsMemory (Machine.execSqDoorbell fn queue tail s) := h.modQueue.event

theorem execQueueEnable {fn queue value} : KeepsMemory (Machine.execQueueEnable fn queue value s) := h.modQueue.event

theorem writeControl {fn off v} : MemCanonical (s.writeControl fn off v) := by
  dsimp only [State.writeControl]
  split
  · exact .ite h.frame h
  · exact .ite h h.frame
  · exact h.modFunc
  · exact h.modFunc
  · exact h

theorem mailReply {m status words} : MemCanonical (s.mailReply m status words) := h.frame

theorem submitMail {v} : MemCanonical (s.submitMail v) := by
  dsimp only [State.submitMail]
  refine .ite h ?_
  split
  · exact h.frame.frame
  · exact h.frame.frame.frame
  · exact h.frame.frame
  · exact h.frame.frame
  · exact h.frame.frame
  · exact h.frame.mailReply

theorem writeMailbox {off v} : MemCanonical (s.writeMailbox off v) := .ite h (.ite h.submitMail h.frame)

theorem execRegisterWrite {fn offset value} : KeepsMemory (Machine.execRegisterWrite fn offset value s) := by
  dsimp only [Machine.execRegisterWrite]
  refine .event (.ite h ?_)
  split
  · exact h.writeControl
  · exact .ite h.modQueue h
  · exact .ite h.frame h
  · exact .ite h.writeMailbox h
  · exact .ite h.frame h
  · exact .ite h.frame h
  · exact h

theorem execIciLoad {ctx base file} : KeepsMemory (Machine.execIciLoad ctx base file s) := .event (.ite h h.writeHome.frame)

/-! ### Mailbox -/

theorem execPairStatus {m} : KeepsMemory (Machine.execPairStatus m s) := .event (.ite h.mailReply h.mailReply)

theorem execPairReturn {m pass} : KeepsMemory (Machine.execPairReturn m pass s) :=
  .event (.ite h.mailReply (.ite h.mailReply (.ite h.modPair.mailReply h.mailReply)))

theorem execInject {m} : KeepsMemory (Machine.execInject m s) :=
  .event (.ite h.mailReply (.ite h.mailReply h.modPair.mailReply))

theorem execWdogSet {m} : KeepsMemory (Machine.execWdogSet m s) := .event (.ite h.mailReply h.frame.mailReply)

theorem execWdogKick {m} : KeepsMemory (Machine.execWdogKick m s) := h.frame.mailReply.event

theorem execWatchdogExpiry {heartbeatLost} : KeepsMemory (Machine.execWatchdogExpiry heartbeatLost s) :=
  .event (.ite h (.ite h.record.fatalError h.frame.record.message))

theorem lowerCap : MemCanonical s.lowerCap := .ite h h.frame.message

theorem raiseCap : MemCanonical s.raiseCap := .ite h h.frame.message

theorem execThermalCapAdjust {cause} : KeepsMemory (Machine.execThermalCapAdjust cause s) := by
  dsimp only [Machine.execThermalCapAdjust]
  refine .event ?_
  split
  · exact h.frame.lowerCap
  · exact h.frame.lowerCap
  · exact .elseDo h.frame (·.raiseCap)
  · exact .elseDo h.frame (·.raiseCap)

theorem execThermalFatal {tj watts} : KeepsMemory (Machine.execThermalFatal tj watts s) :=
  .event (.thenDo h.frame (·.fatalError))

theorem execModeRequest {pair checked} : KeepsMemory (Machine.execModeRequest pair checked s) := .event (.ite h h.modPair)

/-! ### Mem -/

theorem vectorLoad {k i o contiguous} : MemCanonical (s.vectorLoad k i o contiguous) :=
  .access h (fun h₁ => .load h₁ (·.doneWith))

theorem vectorStore {k i o contiguous} : MemCanonical (s.vectorStore k i o contiguous) :=
  .access h (fun h₁ => .store h₁ (·.done))

theorem execLdS {o} : KeepsMemory (Machine.execLdS o s) := .issue h (fun h₁ => .access h₁ (fun h₂ => .load h₂ (·.doneWith)))

theorem execStS {o} : KeepsMemory (Machine.execStS o s) := .issue h (fun h₁ => .access h₁ (fun h₂ => .store h₂ (·.done)))

theorem execSpld {o} : KeepsMemory (Machine.execSpld o s) :=
  .issue h (fun h₁ => .spAccess h₁ (fun h₂ => .ite h₂.spError (.doneWith (.foldl h₂ (·.healSp)))))

theorem execSpst {o} : KeepsMemory (Machine.execSpst o s) := .issue h (fun h₁ => .spAccess h₁ (·.spStore.done))

theorem execLda {o} : KeepsMemory (Machine.execLda o s) :=
  .issue h (fun h₁ => .access h₁ (fun h₂ => .load (.thenDo h₂.drainAtomics (fun h₃ => .foldl h₃ (·.rdcDrop)))
    (·.acquireLine.doneWith)))

theorem execStrel {o} : KeepsMemory (Machine.execStrel o s) :=
  .issue h (fun h₁ => .access h₁ (fun h₂ => .done (.ite h₂.drainAtomics.releaseLine.modWave (.thenDo (.storeAtCore
    (.thenDo h₂.drainAtomics.releaseLine (·.markWriters))) (fun h₃ => .foldl h₃ (·.rdcWriteBack))))))

theorem execFence {o} : KeepsMemory (Machine.execFence o s) :=
  .issue h (fun h₁ => .ite (.access h₁ (·.done.modWave)) h₁.done.modWave)

theorem sectorTarget {k o} : MemCanonical (s.sectorTarget k o).1 := by
  dsimp only [State.sectorTarget]
  split
  · exact .keepPages (.postWalks h.reach)
  · exact .postWalks h.reach

theorem maintain {k i o pick atCore atRdc}
    (hatCore : ∀ {s x y}, MemCanonical s → MemCanonical (atCore s x y))
    (hatRdc : ∀ {s x}, MemCanonical s → MemCanonical (atRdc s x)) :
    MemCanonical (s.maintain k i o pick atCore atRdc) := by
  dsimp only [State.maintain]
  refine .modWave (.done (.thenDo (.foldl ?_ hatCore) (fun h₁ => .foldl h₁ hatRdc)))
  split
  · exact h
  · exact h.sectorTarget

theorem execClean {o} : KeepsMemory (Machine.execClean o s) :=
  .issue h (fun h₁ => .maintain h₁ (·.cleanSector) (·.rdcWriteBack))

theorem execInval {o} : KeepsMemory (Machine.execInval o s) := .issue h (fun h₁ => .maintain h₁ (·.invalSector) (·.rdcDrop))

theorem execWmap {o} : KeepsMemory (Machine.execWmap o s) := by
  dsimp only [Machine.execWmap]
  refine .issue h (fun h₁ => ?_)
  split
  · refine .ite ?_ (.raise (.ite h₁ h₁.postWalk))
    split
    · exact .fatalError (.ite h₁ h₁.postWalk)
    · exact .memError (.ite h₁ h₁.postWalk)
    · exact .memError (.ite h₁ h₁.postWalk)
  · exact .done (.modGroup (.keepPages (.ite h₁ h₁.postWalk)))

/-! ### Secure -/

theorem respond {code session body} : MemCanonical (s.respond code session body) := h.frame

theorem spdmError : MemCanonical s.spdmError := h.respond

theorem inPhase {n} (ht : MemCanonical t) : MemCanonical (s.inPhase n t) := .ite ht h.spdmError

theorem setPhase {n} : MemCanonical (s.setPhase n) := h.frame

theorem execGetVersion : KeepsMemory (Machine.execGetVersion s) := h.setPhase.frame.respond.event

theorem execGetCapabilities : KeepsMemory (Machine.execGetCapabilities s) := .event (.inPhase h h.setPhase.respond)

theorem execNegotiateAlgorithms {base hash} : KeepsMemory (Machine.execNegotiateAlgorithms base hash s) :=
  .event (.inPhase h (.ite h.setPhase.respond h.spdmError))

theorem execGetDigests : KeepsMemory (Machine.execGetDigests s) := .event (.inPhase h h.respond)

theorem execGetCertificate {slot} : KeepsMemory (Machine.execGetCertificate slot s) :=
  .event (.inPhase h (.ite h.respond h.spdmError))

theorem respondSigned {code body} : MemCanonical (s.respondSigned code body) := h.respond

theorem execChallenge {slot} : KeepsMemory (Machine.execChallenge slot s) :=
  .event (.inPhase h (.ite h.respondSigned h.spdmError))

theorem execGetMeasurements {index nonce} : KeepsMemory (Machine.execGetMeasurements index nonce s) := by
  dsimp only [Machine.execGetMeasurements]
  refine .event (.inPhase h (.ite h.frame.respondSigned (.ite h.frame.respondSigned ?_)))
  split
  · exact h.frame.respondSigned
  · exact h.spdmError

theorem execKeyExchange {slot} : KeepsMemory (Machine.execKeyExchange slot s) :=
  .event (.inPhase h (.ite h.spdmError h.frame.respondSigned))

theorem execFinish {session} : KeepsMemory (Machine.execFinish session s) := .event (.ite h.spdmError h.frame.respond)

theorem execHeartbeat {session} : KeepsMemory (Machine.execHeartbeat session s) := .event (.ite h.respond h.spdmError)

theorem execEndSession {session} : KeepsMemory (Machine.execEndSession session s) :=
  .event (.ite h.spdmError h.frame.respond)

theorem setStream {x} : MemCanonical (s.setStream x) := h.frame

theorem execIdeKm {session stream keySet enable} : KeepsMemory (Machine.execIdeKm session stream keySet enable s) :=
  .event (.ite h.spdmError h.setStream.respond)

theorem execIdeIntegrityFailure {stream} : KeepsMemory (Machine.execIdeIntegrityFailure stream s) :=
  .event (.ite h.setStream.linkRecord h)

theorem execDoeDiscovery {index} : KeepsMemory (Machine.execDoeDiscovery index s) := h.frame.event

/-! ### Reset -/

theorem bootStops {stage code} : MemCanonical (s.bootStops stage code) := h.frame

theorem bootCp {b} : MemCanonical (s.bootCp b) := .ite h.bootStops (.ite h.bootStops h.frame)

theorem outside (ht : MemCanonical t) : MemCanonical (s.outside t) := ⟨ht.1, ht.2.1, h.2.2⟩

theorem execColdReset {b} : KeepsMemory (Machine.execColdReset b s) :=
  .event (.ite (h.outside of_reset).frame.bootStops (.ite (h.outside of_reset).frame.bootStops
    (h.outside of_reset).frame.bootCp))

theorem warm : MemCanonical s.warm := ⟨Memory.wf_filter _ h.1, rfl, h.2.2⟩

theorem execWarmReset {b} : KeepsMemory (Machine.execWarmReset b s) := h.warm.bootCp.event

theorem execVfFunctionLevelReset {fn} : KeepsMemory (Machine.execVfFunctionLevelReset fn s) :=
  .event (.ite h (.modFunc (.foldl h (·.destroyContext))))

theorem flushClusters {c clusters} : MemCanonical (s.flushClusters c clusters) :=
  .foldl h (fun h₁ => .modCore (.foldl h₁ (·.cleanSector)))

theorem remap {c map} : MemCanonical (s.remap c map) := h.flushClusters.modCtx

theorem flushFrame {frame} : MemCanonical (s.flushFrame frame) :=
  .foldl (.foldl h (fun h₁ => .rdcWriteBack (.foldl h₁ (·.cleanSector.modCore)))) (·.rdcDrop)

theorem carrySignatures {old new} : MemCanonical (s.carrySignatures old new) := h.frameMem

theorem movePage {old new} : MemCanonical (s.movePage old new) :=
  .scrub (.carrySignatures (.frame (.foldl (.foldl h.flushFrame.writeHomeN (fun h₁ => .foldl h₁ (·.writeHomeN)))
    (·.dropTranslations))))

theorem mapHusk {c g husk} : MemCanonical (s.mapHusk c g husk) := .ite h (.modCtx (.frame (.foldl h (·.dropLine))))

theorem applyChange {change} : MemCanonical (s.applyChange change) := by
  dsimp only [State.applyChange]
  split
  · exact .ite h.remap h
  · exact .foldl h (fun h₁ => .ite h₁.remap h₁)
  · exact h.frame
  · split
    · exact .ite h.emptyShare.setShare h
    · exact h
    · exact h
  · exact .ite h.mapHusk h
  · exact .ite h h.movePage

theorem execQuiescePoint {changes} : KeepsMemory (Machine.execQuiescePoint changes s) :=
  .event (.foldl h.frame (fun h₁ => .ite h₁.applyChange h₁.frame))

/-! ### System -/

theorem writeSpecial {k n x} : MemCanonical (s.writeSpecial k n x) := by
  dsimp only [State.writeSpecial]
  split
  · exact h.modWave
  · exact h.modWave
  · exact h.modCtx
  · exact h.modWave
  · exact .ite h.modCtx (.ite h.modCtx (.ite h.modTwin h))

theorem execSwr {o} : KeepsMemory (Machine.execSwr o s) := .issue h (fun h₁ => .ite h₁.trapExec h₁.writeSpecial.done)

theorem execPerfrd {o} : KeepsMemory (Machine.execPerfrd o s) := .issue h (fun h₁ => .doneWith (.ite h₁ h₁.modCtx))

/-! ### Dispatch -/

theorem exec {i} : KeepsMemory (Machine.exec i s) := by
  unfold Machine.exec
  cases i with
  | nop => exact h.execNop
  | bkpt => exact h.execBkpt
  | exitw => exact h.execExitw
  | tret => exact h.execTret
  | trap => exact h.execTrap
  | srd | xmovExecP | xand | xmovPExec | sadd | ssub | sand | sor | sxor | sandn | sshl | sshr | ssar | srot | smin
    | smax | sminu | smaxu | sslt | ssltu | sseq | smul | smulh | smulhu | sdiv | sdivu | srem | sremu | smad | sclz
    | sctz | spopc | sbrev | ssext | szext | sbfx | sbfi | ssel | slea | saddi | sandi | sori | sxori | smovi
    | smovhi | sslti | saddpc | vadd | vsub | vmul | vmulh | vmad | vmin | vmax | vabs | vneg | vabsd | vavg | vdiv
    | vrem | vand | vor | vxor | vandn | vnot | vshl | vshr | vsar | vrot | vclz | vpopc | vfadd | vfsub | vfmul
    | vfma | vfms | vfmin | vfmax | vfabs | vfneg | vfdiv | vrcp | vrsq | vsqrt | vexp2 | vlog2 | vsin | vcos
    | vtanh | vsigm | vcmp | vcmpm | vsel | vselm | vpack | vunpkl | vunpkh | vmov | vmovi | vcvt | vqnt | vdqnt
    | vrndRaw | vrndUniform | vxread | vxshf | vxbfly | vballot | vxred | vxscan | vacs | amaxrd | piprd => exact h.regOp
  | swr => exact h.execSwr
  | perfrd => exact h.execPerfrd
  | bra | brc | brv => exact .issue h (·.branch)
  | call => exact h.execCall
  | ret | jmpi => exact .issue h (·.jumpTo)
  | xjoin => exact h.execXjoin
  | sigchk => exact h.execSigchk
  | acorn => exact h.execAcorn
  | icinv => exact h.execIcinv
  | vdwc => exact h.execVdwc
  | vwmax | vwavg => exact h.pooling
  | ldS => exact h.execLdS
  | stS => exact h.execStS
  | vld | vldx => exact .issue h (·.vectorLoad)
  | vst | vstx => exact .issue h (·.vectorStore)
  | spld => exact h.execSpld
  | spst => exact h.execSpst
  | lda => exact h.execLda
  | strel => exact h.execStrel
  | fence => exact h.execFence
  | clean => exact h.execClean
  | inval => exact h.execInval
  | wmap => exact h.execWmap
  | vatom | satom => exact .issue h (·.atomicOp)
  | txbegin => exact h.execTxbegin
  | txend => exact h.execTxend
  | txabort => exact h.execTxabort
  | gjoin => exact h.execGjoin
  | gleave => exact h.execGleave
  | bopen => exact h.execBopen
  | bara => exact h.execBara
  | barw => exact h.execBarw
  | vclaim => exact h.execVclaim
  | vrels => exact h.execVrels
  | mmaBp => exact h.execMmaBp
  | mzero => exact h.execMzero
  | mrd => exact h.execMrd
  | mwr => exact h.execMwr
  | mbatch => exact h.execMbatch
  | mwait => exact h.execMwait
  | qplane => exact h.execQplane
  | tcopy | tcopyw | thash => exact .issue h (·.copyIssue)
  | cfence => exact h.execCfence
  | cwait | cyield => exact .issue h (·.copyWait)
  | emit => exact h.execEmit
  | emitc => exact h.execEmitc
  | joindec => exact h.execJoindec
  | loadReturn => exact h.execLoadReturn
  | atomicPerformed => exact h.execAtomicPerformed
  | fenceComplete => exact h.execFenceComplete
  | writebackAck => exact h.execWritebackAck
  | icinvAck => exact h.execIcinvAck
  | trapEntry => exact h.execTrapEntry
  | launchTeardown => exact h.execLaunchTeardown
  | transactionAbort => exact h.execTransactionAbort
  | claimGrant => exact h.execClaimGrant
  | claimDeadlock => exact h.execClaimDeadlock
  | matrixOperationStart => exact h.execMatrixOperationStart
  | mmaKstep => exact h.execMmaKstep
  | tileAccessComplete => exact h.execTileAccessComplete
  | copyStart => exact h.execCopyStart
  | copyComplete => exact h.execCopyComplete
  | podAppend => exact h.execPodAppend
  | coalescingTimerExpiry => exact h.execCoalescingTimerExpiry
  | podDeadlock => exact h.execPodDeadlock
  | continuationDispatch => exact h.execContinuationDispatch
  | groupDispatch => exact h.execGroupDispatch
  | gangReserve => exact h.execGangReserve
  | gangBackoffExpiry => exact h.execGangBackoffExpiry
  | launch => exact h.execLaunch
  | edgeHash => exact h.execEdgeHash
  | operatingPointChange => exact h.execOperatingPointChange
  | launchCompletion => exact h.execLaunchCompletion
  | quantumEnd => exact h.execQuantumEnd
  | epochEnd => exact h.execEpochEnd
  | checkCompare => exact h.execCheckCompare
  | acornTake => exact h.execAcornTake
  | reexecute => exact h.execReexecute
  | l2Request => exact h.execL2Request
  | huskSweepComplete => exact h.execHuskSweepComplete
  | shareRetire => exact h.execShareRetire
  | preemptionSave => exact h.execPreemptionSave
  | fullSave => exact h.execFullSave
  | preemptionRestore => exact h.execPreemptionRestore
  | worldSwitch => exact h.execWorldSwitch
  | stage2FaultService => exact h.execStage2FaultService
  | null => exact h.execNull
  | poolRefill => exact h.execPoolRefill
  | tlbi => exact h.execTlbi
  | fail => exact h.execFail
  | poolCheck => exact h.execPoolCheck
  | huskDefine => exact h.execHuskDefine
  | graphCreate => exact h.execGraphCreate
  | graphDestroy => exact h.execGraphDestroy
  | traceMark => exact h.execTraceMark
  | perfConfig => exact h.execPerfConfig
  | perfRead => exact h.execPerfRead
  | slotConfig => exact h.execSlotConfig
  | poolSet => exact h.execPoolSet
  | s1rootSet => exact h.execS1rootSet
  | ctxCreate => exact h.execCtxCreate
  | ctxDestroy => exact h.execCtxDestroy
  | vfAssign => exact h.execVfAssign
  | pairStatus => exact h.execPairStatus
  | pairReturn => exact h.execPairReturn
  | inject => exact h.execInject
  | wdogSet => exact h.execWdogSet
  | wdogKick => exact h.execWdogKick
  | warmReset => exact h.execWarmReset
  | quiescePoint => exact h.execQuiescePoint
  | modeRequest => exact h.execModeRequest
  | lpddr6Request => exact h.execLpddr6Request
  | arbiterGrant => exact h.execArbiterGrant
  | slackExhaustion => exact h.execSlackExhaustion
  | storePerformed => exact h.execStorePerformed
  | preemptionRequest => exact h.execPreemptionRequest
  | signatureEpochAdvance => exact h.execSignatureEpochAdvance
  | apertureAccess => exact h.execApertureAccess
  | sqDoorbell => exact h.execSqDoorbell
  | queueEnable => exact h.execQueueEnable
  | registerWrite => exact h.execRegisterWrite
  | iciLoad => exact h.execIciLoad
  | coldReset => exact h.execColdReset
  | vfFunctionLevelReset => exact h.execVfFunctionLevelReset
  | peerRequest => exact h.execPeerRequest
  | peerShootdown => exact h.execPeerShootdown
  | peerFatalNotice => exact h.execPeerFatalNotice
  | linkTraining => exact h.execLinkTraining
  | linkLossOfLock => exact h.execLinkLossOfLock
  | watchdogExpiry => exact h.execWatchdogExpiry
  | thermalCapAdjust => exact h.execThermalCapAdjust
  | thermalFatal => exact h.execThermalFatal
  | hotClear => exact h.execHotClear
  | dramPatrol => exact h.execDramPatrol
  | stage2Shootdown => exact h.execStage2Shootdown
  | getVersion => exact h.execGetVersion
  | getCapabilities => exact h.execGetCapabilities
  | negotiateAlgorithms => exact h.execNegotiateAlgorithms
  | getDigests => exact h.execGetDigests
  | getCertificate => exact h.execGetCertificate
  | challenge => exact h.execChallenge
  | getMeasurements => exact h.execGetMeasurements
  | keyExchange => exact h.execKeyExchange
  | finish => exact h.execFinish
  | heartbeat => exact h.execHeartbeat
  | endSession => exact h.execEndSession
  | ideKm => exact h.execIdeKm
  | ideIntegrityFailure => exact h.execIdeIntegrityFailure
  | doeDiscovery => exact h.execDoeDiscovery

/-! ### Schedule -/

theorem rejectLaunch {c bound} : MemCanonical (s.rejectLaunch c bound) := by
  dsimp only [State.rejectLaunch]
  refine .endLaunch (.frame ?_)
  split
  · exact h.modCtx
  · exact h

theorem fetchCommand {fn queue} : MemCanonical (s.fetchCommand fn queue) := by
  dsimp only [State.fetchCommand]
  split
  · exact h.modQueue.reply
  · exact .ite h.modQueue.reply (.ite (.ite h.modQueue.rejectLaunch h.modQueue.reply) (.ite
      (.ite h.modQueue.rejectLaunch h.modQueue.reply) (.frame (.thenDo h.modQueue (·.frame)))))

theorem watch : MemCanonical s.watch := h.frame

theorem tick : MemCanonical s.tick := .ite h.frame.frame h.frame.frame

theorem nextCc : MemCanonical s.nextCc := .frame (.watch (.tick (.ageFabric (.foldl (.foldl h (·.count)) (·.count)))))

/-! ### Step -/

theorem firstChange {l} (e : Machine.firstChange s l = some t) : MemCanonical t := by
  induction l with
  | nil => cases e
  | cons i l ih =>
    unfold Machine.firstChange at e
    split at e
    · next he =>
      split at e
      · exact ih e
      · cases e; exact h.exec _ he
    · exact ih e

theorem launchMoves (e : s.launchMoves = some t) : MemCanonical t := by
  obtain ⟨l, -, hl⟩ := List.exists_of_findSome?_eq_some e
  rw [Option.orElse_eq_or, Option.or_eq_some_iff] at hl
  obtain ha | ⟨-, hr⟩ := hl
  · exact h.advanceLaunch ha
  · exact h.leaveRunning hr

theorem auto (e : s.auto = some t) : MemCanonical t := by
  unfold State.auto at e
  split at e
  · cases e; exact h.fatalError
  split at e
  · cases e; exact h.serveLc
  split at e
  · next hu => cases e; exact h.firstChange hu
  split at e
  · next hl => cases e; exact h.launchMoves hl
  split at e
  · next hp => cases e; exact h.firstChange hp
  split at e
  · cases e; exact h.fetchCommand
  · cases e

theorem stepAgenda {i} : KeepsMemory (Machine.stepAgenda i s) := by
  unfold Machine.stepAgenda
  split
  · exact h.exec
  · exact h.next

theorem stepWave {k} : KeepsMemory (Machine.stepWave k s) := by
  have hf := h.fetch (k := k)
  unfold Machine.stepWave
  generalize s.fetch k = f at hf
  cases f with
  | raised s' => exact next hf
  | word s' w =>
    dsimp only
    split
    · exact exec hf
    · exact next (refuseWord hf)

theorem step : KeepsMemory (Machine.step s) := by
  unfold Machine.step
  split
  · exact h.frame.stepAgenda
  split
  · exact h.next
  split
  · split
    · next ha => exact (h.frame.auto ha).next
    · exact h.frame.next
  split
  · exact h.frame.stepWave
  · exact h.nextCc.next


end Closure

end MemCanonical

/-- Settles O60: every function of a step changes the byte stores, if at all, through `Memory.writeAll` and `Memory.filter`, which
keep the canonical form. -/
theorem stepKeepsMemory : Obligations.StepKeepsMemory :=
  fun _ t h => h.step t

end Sys2Proof.Safety
end

section
/-! PROOF. The state after a reset (O59): its lists of equal parts, and the registers that a host reads there. -/

namespace Sys2Proof.Safety

open Sys2Proof.Machine Sys2Proof.Rules

theorem reset_cachesWf : CachesWf State.reset := by
  constructor
  · intro c hc
    obtain rfl : c = {} := List.eq_of_mem_replicate hc
    exact ⟨List.nodup_nil, nofun⟩
  · exact ⟨List.nodup_nil, nofun⟩

theorem reset_clean : Clean State.reset := ⟨rfl, rfl, rfl, rfl⟩

theorem reset_pair {p : Nat} (hp : p < 24) : State.reset.pair p = {} := List.getD_replicate _ hp

theorem reset_func {fn : Nat} (hfn : fn < 16) : State.reset.func fn = Func.reset := List.getD_replicate _ hfn

/-- The queue block of BAR 0: queue `q`'s registers stand at 0x40 * q (R407). -/
theorem reset_readBar0_queue {fn q off : Nat} (hfn : fn < 16) (hq : q < 8) (hoff : off < 0x40) :
    State.reset.readBar0 fn (0x10000 + 0x40 * q + off) = Queue.reset.read off := by
  have hblock : (0x10000 + 0x40 * q + off) / 0x10000 = 1 := by omega
  have hqueue : (0x10000 + 0x40 * q + off) % 0x10000 / 0x40 = q := by omega
  have hreg : (0x10000 + 0x40 * q + off) % 0x10000 % 0x40 = off := by omega
  have hget : Func.reset.queues.getD q default = Queue.reset := List.getD_replicate _ hq
  simp only [State.readBar0, hblock, hqueue, hreg, hq, if_true, reset_func hfn, hget]

theorem reset_readBar0_apbase {fn : Nat} (hfn : fn < 16) : State.reset.readBar0 fn 0x30 = 0 := by
  change (State.reset.func fn).apbase = 0
  rw [reset_func hfn]; rfl

theorem reset_readBar0_apctx {fn : Nat} (hfn : fn < 16) : State.reset.readBar0 fn 0x38 = 0 := by
  change pack [(0, (State.reset.func fn).apctx.toNat), (8, (State.reset.func fn).apen.toNat)] = 0
  rw [reset_func hfn]; rfl

theorem reset_readBar0_identity :
    ∀ fn < 16, State.reset.readBar0 fn 0 &&& 0xFFFFFFFFFF00FFFF = BitVec.ofNat 64 (9 + 2 ^ 24 * fn) := by decide

theorem reset_readBar0_ports : ∀ n < 3, State.reset.readBar0 0 (0x60008 + 8 * n) = 0 := by decide

/-- Settles O59, by the equal parts of the state and the values of its registers. -/
theorem resetValues : Obligations.ResetValues := by
  refine ⟨MemCanonical.of_reset, reset_cachesWf, reset_clean, fun _ => rfl, rfl, rfl, rfl, rfl, rfl, rfl,
    fun p hp => ?pairs, by decide, by decide, by decide, fun fn hfn => ?identity, by decide, rfl, by decide, rfl, by decide,
    reset_readBar0_ports, fun fn q hfn hq => ?queues⟩
  case pairs => rw [reset_pair hp]; exact ⟨rfl, rfl, rfl, rfl⟩
  case identity => exact ⟨reset_readBar0_apbase hfn, reset_readBar0_apctx hfn, reset_readBar0_identity fn hfn⟩
  case queues =>
    have read {off : Nat} (hoff : off < 0x40) := reset_readBar0_queue hfn hq hoff
    exact ⟨read (by decide), read (by decide), read (by decide)⟩

end Sys2Proof.Safety
end

section
/-! PROOF. The register files (O1): what a register holds after a write, and what the write leaves alone. -/

namespace Sys2Proof.Machine

/-! ### Scalar and predicate registers -/

@[simp] theorem Wave.readS_zero (w : Wave) : w.readS 0 = 0 := rfl
@[simp] theorem Wave.writeS_zero (w : Wave) (x : Word) : w.writeS 0 x = w := rfl
@[simp] theorem Wave.readP_zero (w : Wave) : w.readP 0 = allLanes := rfl
@[simp] theorem Wave.writeP_zero (w : Wave) (x : Mask) : w.writeP 0 x = w := rfl

theorem Wave.writeS_bank {w : Wave} {n : Nat} (x : Word) (h : 56 ≤ n ∧ w.priv = .s) :
    w.writeS n x = { w with sbank := putAt 0 w.sbank (n - 56) x } := by
  simp only [Wave.writeS, h, and_self, if_true, show n ≠ 0 by omega, if_false]

theorem Wave.writeS_low {w : Wave} {n : Nat} (x : Word) (hn : n ≠ 0) (h : ¬(56 ≤ n ∧ w.priv = .s)) :
    w.writeS n x = { w with s := putAt 0 w.s n x } := by
  simp only [Wave.writeS, hn, h, if_false]

theorem Wave.readS_writeS_self (w : Wave) {n : Nat} (x : Word) (hn : n ≠ 0) : (w.writeS n x).readS n = x := by
  by_cases h : 56 ≤ n ∧ w.priv = .s
  · simp only [w.writeS_bank x h, Wave.readS, hn, h, and_self, if_true, if_false, getD_putAt_self]
  · simp only [w.writeS_low x hn h, Wave.readS, hn, h, if_false, getD_putAt_self]

theorem Wave.readS_writeS_ne (w : Wave) {n m : Nat} (x : Word) (hm : m ≠ n) : (w.writeS n x).readS m = w.readS m := by
  rcases eq_or_ne n 0 with rfl | hn
  · rfl
  by_cases h : 56 ≤ n ∧ w.priv = .s
  · by_cases g : 56 ≤ m
    · simp only [w.writeS_bank x h, Wave.readS, getD_putAt_ne (0 : Word) w.sbank x (show m - 56 ≠ n - 56 by omega)]
    · simp only [w.writeS_bank x h, Wave.readS, g, false_and, if_false]
  · simp only [w.writeS_low x hn h, Wave.readS, getD_putAt_ne (0 : Word) w.s x hm]

theorem Wave.writeS_s {w : Wave} {n : Nat} (x : Word) (hp : w.priv = .s) (hn : 56 ≤ n) : (w.writeS n x).s = w.s := by
  rw [w.writeS_bank x ⟨hn, hp⟩]

theorem Wave.writeS_sbank {w : Wave} {n : Nat} (x : Word) (h : w.priv = .u ∨ n < 56) : (w.writeS n x).sbank = w.sbank := by
  rcases eq_or_ne n 0 with rfl | hn
  · rfl
  · rw [w.writeS_low x hn fun ⟨g, hp⟩ => h.elim (by simp [hp]) (by omega)]

@[simp] theorem Wave.writeS_p (w : Wave) (n : Nat) (x : Word) : (w.writeS n x).p = w.p := by
  unfold Wave.writeS; split <;> [rfl; split <;> rfl]

@[simp] theorem Wave.writeS_v (w : Wave) (n : Nat) (x : Word) : (w.writeS n x).v = w.v := by
  unfold Wave.writeS; split <;> [rfl; split <;> rfl]

theorem Wave.writeP_ne_zero (w : Wave) {n : Nat} (x : Mask) (hn : n ≠ 0) : w.writeP n x = { w with p := putAt 0 w.p n x } := by
  simp only [Wave.writeP, hn, if_false]

theorem Wave.readP_ne_zero (w : Wave) {n : Nat} (hn : n ≠ 0) : w.readP n = w.p.getD n 0 := by
  simp only [Wave.readP, hn, if_false]

theorem Wave.readP_writeP_self (w : Wave) {n : Nat} (x : Mask) (hn : n ≠ 0) : (w.writeP n x).readP n = x := by
  rw [w.writeP_ne_zero x hn, Wave.readP_ne_zero _ hn, getD_putAt_self]

theorem Wave.readP_writeP_ne (w : Wave) {n m : Nat} (x : Mask) (hm : m ≠ n) : (w.writeP n x).readP m = w.readP m := by
  rcases eq_or_ne n 0 with rfl | hn
  · rfl
  rcases eq_or_ne m 0 with rfl | hm0
  · rfl
  · rw [w.writeP_ne_zero x hn, Wave.readP_ne_zero _ hm0, Wave.readP_ne_zero _ hm0, getD_putAt_ne _ _ _ hm]

@[simp] theorem Wave.writeP_s (w : Wave) (n : Nat) (x : Mask) : (w.writeP n x).s = w.s := by unfold Wave.writeP; split <;> rfl
@[simp] theorem Wave.writeP_v (w : Wave) (n : Nat) (x : Mask) : (w.writeP n x).v = w.v := by unfold Wave.writeP; split <;> rfl

/-! ### Vector registers -/

theorem laneOf_mergeLanes (g : Mask) (x y : VReg) {l : Nat} (hl : l < 32) :
    laneOf (mergeLanes g x y) l = if g.getLsbD l then laneOf x l else laneOf y l := Rules.laneOf_vregOf _ l hl

@[simp] theorem Wave.readV_writeLanes_self (w : Wave) (g : Mask) (n : Nat) (x : VReg) :
    (w.writeLanes g n x).readV n = mergeLanes g x (w.readV n) := getD_putAt_self _ _ _ _

theorem Wave.readV_writeLanes_ne (w : Wave) (g : Mask) {n m : Nat} (x : VReg) (hm : m ≠ n) :
    (w.writeLanes g n x).readV m = w.readV m := getD_putAt_ne _ _ _ hm

theorem Wave.getLsbD_governing (w : Wave) (pn : Bool) (pi : BitVec 3) {l : Nat} (hl : l < 32) :
    (w.governing pn pi).getLsbD l = (w.exec.getLsbD l && ((w.readP pi.toNat).getLsbD l != pn)) := by
  cases pn <;> simp [Wave.governing, hl]

/-- Settles O1, register file by register file. -/
theorem registerFiles : Obligations.RegisterFiles := by
  refine ⟨fun w n m x p => ?scalars, fun w g n m x l hl => ?vectors⟩
  case scalars =>
    exact ⟨rfl, rfl, rfl, rfl, w.readS_writeS_self x, w.readS_writeS_ne x, w.readP_writeP_self p, w.readP_writeP_ne p,
      Wave.writeS_s x, Wave.writeS_sbank x, w.writeS_p n x, w.writeS_v n x, w.writeP_s n p, w.writeP_v n p⟩
  case vectors =>
    refine ⟨?_, w.readV_writeLanes_ne g x, fun pn pi => w.getLsbD_governing pn pi hl⟩
    rw [w.readV_writeLanes_self, laneOf_mergeLanes _ _ _ hl]

end Sys2Proof.Machine
end

section
/-! PROOF. The special registers (O6): SRD and SWR, what a register holds by its number, and what it holds after a write. -/

namespace Sys2Proof.Machine

open Sys2Proof.Safety Sys2Proof.Rules

/-! ### SRD -/

theorem readSpecial_noted (s : State) (w : Wave) (c n : Nat) : s.readSpecial (w.noted c) n = s.readSpecial w n := rfl

/-- The value that a vector SRD puts into the lanes: the lane's number for LANEID, and the wave's register for any other. -/
def specialLanes (s : State) (w : Wave) (o : SrdF) : VReg :=
  vregOf fun l => if o.sr = 0 then BitVec.ofNat 64 l else s.readSpecial w o.sr.toNat

theorem completes_srd_scalar {s : State} {k : Nat} {o : SrdF} (h : Issues s k (.srd o)) (hv : o.vec = false) :
    Completes (.srd o) s k ((s.wave k).writeS o.d.toNat (s.readSpecial (s.wave k) o.sr.toNat)) := by
  refine completes_of_regOp h rfl ?_ (SameSeat.writeS _ _ _)
  simp only [hv, Bool.not_false, if_true, readSpecial_noted, Wave.writeS_noted]

theorem completes_srd_lanes {s : State} {k : Nat} {o : SrdF} (h : Issues s k (.srd o)) (hv : o.vec = true) :
    Completes (.srd o) s k ((s.wave k).writeLanes (s.wave k).exec o.d.toNat (specialLanes s (s.wave k) o)) := by
  refine completes_of_regOp h rfl ?_ (SameSeat.writeLanes _ _ _ _)
  simp only [hv, Bool.not_true, Bool.false_eq_true, if_false, readSpecial_noted, Wave.noted_exec, Wave.writeLanes_noted, specialLanes]

/-! ### What the registers hold -/

theorem groupSize_eq_countP (s : State) (w : Wave) : s.groupSize w = (List.range s.waves.length).countP fun k =>
    (s.wave k).group == w.group &&
      ((s.wave k).state != .exited || s.detOf w && (s.wave k).exitEpoch == some (s.launch w.launch).epoch) := by
  cases hd : s.detOf w <;>
    simp [State.groupSize, hd, State.members, State.wavesWith, ← List.countP_eq_length_filter]

/-- TADDR with its tile bit is a sum, for an address lies below the bit (R333). -/
theorem taddr_word (a : VAddr) (b : Bool) :
    a.setWidth 64 ||| (if b then 1#64 <<< 63 else 0) = BitVec.ofNat 64 (a.toNat + 2 ^ 63 * b.toNat) := by
  apply BitVec.eq_of_toNat_eq
  have ha : a.toNat < 2 ^ 63 := by have := a.isLt; omega
  cases b
  · simp
  · have hor := Nat.two_pow_add_eq_or_of_lt ha 1
    rw [Nat.or_comm] at hor
    simp only [if_true, BitVec.toNat_or, BitVec.toNat_setWidth, BitVec.toNat_ofNat, Bool.toNat_true]
    rw [Nat.mod_eq_of_lt (by omega), show (1#64 <<< 63).toNat = 2 ^ 63 * 1 from rfl, ← hor]
    omega

theorem readSpecial_of_rule {s : State} {w : Wave} {n : Nat} {x : Word} (h : specialRule s w n = some x) : s.readSpecial w n = x := by
  unfold specialRule at h
  split at h <;> cases h
  case h_3 => exact congrArg (BitVec.ofNat 64) (groupSize_eq_countP s w)
  case h_21 => exact taddr_word w.taddr w.taddrTile
  all_goals rfl

/-! ### SWR -/

/-- An SWR changes no number of waves. -/
theorem waves_length_writeSpecial (s : State) (k n : Nat) (x : Word) : (s.writeSpecial k n x).waves.length = s.waves.length := by
  unfold State.writeSpecial
  dsimp only
  split
  · simp
  · simp
  · rfl
  · simp
  · repeat' split
    all_goals rfl

theorem runs_swr {s : State} {k : Nat} {o : SwrF} (h : Issues s k (.swr o))
    (aligned : o.sr ≠ 0x20 ∧ o.sr ≠ 0x24 ∨ ((s.wave k).readS o.a.toNat).toNat % 8 = 0) :
    Runs (.swr o) s k ((issued s k).writeSpecial k o.sr.toNat ((s.wave k).readS o.a.toNat)) := by
  have hx : ((issued s k).wave k).readS o.a.toNat = (s.wave k).readS o.a.toNat := by rw [wave_issued h]; rfl
  have ok : ¬((o.sr = 0x20 ∨ o.sr = 0x24) ∧ ((s.wave k).readS o.a.toNat).toNat % 8 ≠ 0) := by
    rintro ⟨hsr, hx⟩
    rcases aligned with ⟨h1, h2⟩ | h0
    · exact hsr.elim h1 h2
    · exact hx h0
  refine runs_of_done h rfl ?_ (by rw [hx]; exact if_neg ok)
  rw [waves_length_writeSpecial]; simp [issued]


/-! ### What a written register holds -/

theorem writeSpecial_slacktab (s : State) (k : Nat) {n : Nat} (x : Word) (h : 0x18 ≤ n ∧ n ≤ 0x1F) :
    s.writeSpecial k n x = s.modCtx (s.wave k).ctx fun c =>
      { c with slacktab := putAt 0 c.slacktab (n - 0x18) (x.setWidth 16 &&& 0x83FF) } := by
  obtain ⟨h1, h2⟩ := h
  interval_cases n <;> rfl

theorem readSpecial_slacktab (s : State) (w : Wave) {n : Nat} (h : 0x18 ≤ n ∧ n ≤ 0x1F) :
    s.readSpecial w n = ((s.ctx w.ctx).slacktab.getD (n - 0x18) 0).setWidth 64 := by
  obtain ⟨h1, h2⟩ := h
  interval_cases n <;> rfl

theorem writeSpecial_perf (s : State) (k : Nat) {n : Nat} (x : Word) (h : 0x28 ≤ n ∧ n ≤ 0x2F) :
    s.writeSpecial k n x = s.modCtx (s.wave k).ctx fun c =>
      { c with perf := modAt (fun p => p.write s.cc (x.setWidth 48)) c.perf (n - 0x28) } := by
  obtain ⟨h1, h2⟩ := h
  interval_cases n <;> rfl

theorem readSpecial_perf (s : State) (w : Wave) {n : Nat} (h : 0x28 ≤ n ∧ n ≤ 0x2F) :
    s.readSpecial w n = if s.perfHidden w then 0 else (s.perfOf w (n - 0x28)).count.setWidth 64 := by
  obtain ⟨h1, h2⟩ := h
  interval_cases n <;> rfl

theorem writeSpecial_mpc {s : State} {k n : Nat} (x : Word) (h : 0x30 ≤ n ∧ n ≤ 0x33) (own : s.ownsTwin (s.wave k) = true) :
    s.writeSpecial k n x = s.modTwin (s.twinOf (s.wave k)) fun t =>
      { t with mpc := modAt (fun m => m.write x) t.mpc (n - 0x30) } := by
  obtain ⟨h1, h2⟩ := h
  interval_cases n <;> exact if_pos ⟨by decide, by decide, own⟩

theorem readSpecial_mpc (s : State) (w : Wave) {n : Nat} (h : 0x30 ≤ n ∧ n ≤ 0x33) :
    s.readSpecial w n = (s.mpcOf w (n - 0x30)).word := by
  obtain ⟨h1, h2⟩ := h
  interval_cases n <;> rfl

/-- A SLACKTAB entry keeps the bits that R34 defines: INIT in [9:0] and HARD in [15]. -/
theorem getLsbD_slackEntry (x : Word) (m : Nat) :
    ((x.setWidth 16 &&& (0x83FF : BitVec 16)).setWidth 64).getLsbD m = (x.getLsbD m && (decide (m < 10) || decide (m = 15))) := by
  by_cases hm : m < 16
  · interval_cases m <;> simp
  · have h10 : ¬m < 10 := by omega
    have h15 : ¬m = 15 := by omega
    simp [hm, h10, h15]

theorem written_slacktab (s : State) (k : Nat) {n : Nat} (x : Word) (h : 0x18 ≤ n ∧ n ≤ 0x1F) (hc : (s.wave k).ctx < s.ctxs.length)
    (m : Nat) : ((s.writeSpecial k n x).readSpecial ((s.writeSpecial k n x).wave k) n).getLsbD m =
      (x.getLsbD m && (decide (m < 10) || decide (m = 15))) := by
  rw [writeSpecial_slacktab s k x h, readSpecial_slacktab _ _ h]
  change BitVec.getLsbD (BitVec.setWidth 64 (((State.modCtx _ _ _).ctx (s.wave k).ctx).slacktab.getD _ 0)) m = _
  rw [ctx_modCtx_self _ _ _ hc, getD_putAt_self, getLsbD_slackEntry]

theorem written_perf {s : State} {k n : Nat} (x : Word) (h : 0x28 ≤ n ∧ n ≤ 0x2F) (hc : (s.wave k).ctx < s.ctxs.length)
    (shown : s.perfHidden (s.wave k) = false) (len : (s.ctx (s.wave k).ctx).perf.length = 8) :
    ((s.writeSpecial k n x).readSpecial ((s.writeSpecial k n x).wave k) n).toNat =
      (x.toNat + (if (s.perfOf (s.wave k) (n - 0x28)).stamp = s.cc then (s.perfOf (s.wave k) (n - 0x28)).fresh else 0)) % 2 ^ 48 := by
  have seen : ¬s.perfHidden (s.wave k) = true := by simp [shown]
  rw [writeSpecial_perf s k x h, readSpecial_perf _ _ h]
  refine (congrArg BitVec.toNat (if_neg seen)).trans ?_
  change (BitVec.setWidth 64 (((State.modCtx _ _ _).ctx (s.wave k).ctx).perf.getD _ {}).count).toNat = _
  rw [ctx_modCtx_self _ _ _ hc, getD_modAt_self _ _ _ (by omega)]
  change (BitVec.setWidth 64 (BitVec.ofNat 48 ((x.setWidth 48).toNat + Perf.inCc (s.perfOf (s.wave k) (n - 0x28)) s.cc))).toNat = _
  simp only [BitVec.toNat_setWidth, BitVec.toNat_ofNat, Perf.inCc]
  omega

/-- The fields of MPCn in its word (R26): KSTEP in [9:0], BUSY in bit 16, OVF in bit 17. -/
theorem mpc_word (m : Mpc) : m.word.toNat % 2 ^ 10 = m.kstep.toNat ∧ m.word.getLsbD 16 = m.busy ∧ m.word.getLsbD 17 = m.ovf := by
  obtain ⟨ks, busy, ovf⟩ := m
  have hk := ks.isLt
  have word : (Mpc.word ⟨ks, busy, ovf⟩).toNat = ks.toNat + 2 ^ 16 * busy.toNat + 2 ^ 17 * ovf.toNat := by
    refine Nat.mod_eq_of_lt ?_
    cases busy <;> cases ovf <;> simp <;> omega
  refine ⟨?_, ?_, ?_⟩
  · change _ = ks.toNat; rw [word]; omega
  · rw [BitVec.getLsbD, word, Nat.testBit_eq_decide_div_mod_eq]
    cases busy <;> cases ovf <;> simp <;> omega
  · rw [BitVec.getLsbD, word, Nat.testBit_eq_decide_div_mod_eq]
    cases busy <;> cases ovf <;> simp <;> omega

theorem written_mpc {s : State} {k n : Nat} (x : Word) (h : 0x30 ≤ n ∧ n ≤ 0x33) (own : s.ownsTwin (s.wave k) = true)
    (lt : s.twinOf (s.wave k) < s.twins.length) (len : (s.twin (s.twinOf (s.wave k))).mpc.length = 4) :
    (s.writeSpecial k n x).readSpecial ((s.writeSpecial k n x).wave k) n = ((s.mpcOf (s.wave k) (n - 0x30)).write x).word := by
  have tw : ∀ f : Twin → Twin, (s.modTwin (s.twinOf (s.wave k)) f).twin (s.twinOf (s.wave k)) = f (s.twin (s.twinOf (s.wave k))) :=
    fun f => getD_modAt_self f _ _ lt
  rw [writeSpecial_mpc x h own, readSpecial_mpc _ _ h]
  congr 1
  unfold State.mpcOf
  rw [if_pos own]
  change (if ((State.twin _ (s.twinOf (s.wave k))).owner == _) = true then (State.twin _ (s.twinOf (s.wave k))).mpc.getD _ {} else {}) = _
  rw [tw]
  refine (if_pos own).trans ?_
  rw [getD_modAt_self _ _ _ (by omega)]

/-- What the 56 address bits of TVEC and TPC read back as. -/
theorem toNat_address (x : Word) : ((x.setWidth 56).setWidth 64).toNat = x.toNat % 2 ^ 56 := by
  simp only [BitVec.toNat_setWidth]
  omega

theorem written_sigreg {s : State} {k : Nat} (x : Word) (hk : k < s.waves.length) (hl : s.ilevelOf (s.wave k) ≠ 0) :
    ((s.writeSpecial k 0x12 x).readSpecial ((s.writeSpecial k 0x12 x).wave k) 0x12).toNat = x.toNat % 2 ^ 32 := by
  change (State.readSpecial (State.modWave _ _ _) ((State.modWave s k _).wave k) 0x12).toNat = _
  rw [State.wave_modWave_self _ hk]
  refine (congrArg BitVec.toNat (if_neg hl)).trans ?_
  simp only [BitVec.toNat_setWidth]
  omega

theorem written_rngkey {s : State} {k : Nat} (x : Word) (hk : k < s.waves.length) :
    (s.writeSpecial k 0x14 x).readSpecial ((s.writeSpecial k 0x14 x).wave k) 0x14 = x := by
  change ((State.modWave s k _).wave k).rngkey = x
  rw [State.wave_modWave_self _ hk]

theorem written_tvec {s : State} {k : Nat} (x : Word) (hc : (s.wave k).ctx < s.ctxs.length) :
    ((s.writeSpecial k 0x20 x).readSpecial ((s.writeSpecial k 0x20 x).wave k) 0x20).toNat = x.toNat % 2 ^ 56 := by
  change (((State.modCtx s _ _).ctx (s.wave k).ctx).tvec.setWidth 64).toNat = _
  rw [ctx_modCtx_self _ _ _ hc, toNat_address]

theorem written_tpc {s : State} {k : Nat} (x : Word) (hk : k < s.waves.length) :
    ((s.writeSpecial k 0x24 x).readSpecial ((s.writeSpecial k 0x24 x).wave k) 0x24).toNat = x.toNat % 2 ^ 56 := by
  change (((State.modWave s k _).wave k).tpc.setWidth 64).toNat = _
  rw [State.wave_modWave_self _ hk, toNat_address]

/-- Settles O6, from the number of a register to what it holds. -/
theorem specialRegisters : Obligations.SpecialRegisters := by
  refine ⟨⟨fun s k o h => ⟨completes_srd_scalar h, fun hv => ⟨specialLanes s (s.wave k) o, fun l hl => laneOf_vregOf _ l hl,
    completes_srd_lanes h hv⟩⟩, fun s w n x => readSpecial_of_rule⟩, fun s k o => runs_swr, fun s k n x hk hc => ?written⟩
  refine ⟨?sigreg, ?rngkey, ?addresses, fun h => written_slacktab s k x h hc, fun h => written_perf x h hc, fun h own lt len => ?mpc⟩
  case sigreg => rintro rfl hl; exact written_sigreg x hk hl
  case rngkey => rintro rfl; exact written_rngkey x hk
  case addresses =>
    rintro (rfl | rfl)
    · exact written_tvec x hc
    · exact written_tpc x hk
  case mpc =>
    obtain ⟨kstep, busy, ovf⟩ := mpc_word ((s.mpcOf (s.wave k) (n - 0x30)).write x)
    rw [← written_mpc x h own lt len] at kstep busy ovf
    refine ⟨kstep.trans ?_, busy, ovf⟩
    simp only [Mpc.write]
    split
    · rfl
    · exact BitVec.toNat_setWidth ..

end Sys2Proof.Machine
end

section
/-! PROOF. What the end of waits, the end of a barrier phase and the dissolution of a group leave alone (01 R15, R16, 06 R194-R198). -/

namespace Sys2Proof.Machine

open Sys2Proof.Safety

theorem Counted.groups {s t : State} (h : Counted s t) : t.groups = s.groups := by have := congrArg State.groups h.rest; exact this
theorem Counted.twins {s t : State} (h : Counted s t) : t.twins = s.twins := by have := congrArg State.twins h.rest; exact this
theorem Counted.cores {s t : State} (h : Counted s t) : t.cores = s.cores := by have := congrArg State.cores h.rest; exact this
theorem Counted.copies {s t : State} (h : Counted s t) : t.copies = s.copies := by have := congrArg State.copies h.rest; exact this
theorem Counted.mem {s t : State} (h : Counted s t) : t.mem = s.mem := by have := congrArg State.mem h.rest; exact this
theorem twins_of_side {s t : State} (h : MemorySide s t) : t.twins = s.twins := by have := congrArg State.twins h.rest; exact this

/-! ### The relation -/

/-- A wave that waits for something to end: BLOCKED or YIELDED (R15). -/
def Wave.waits (w : Wave) : Bool := w.state == .blocked || w.state == .yielded

/-- A context without what counters, records and arrivals change; of its barriers, only whose they are. -/
def seated (c : Context) : Context × List Nat := ({ quietCtx c with barriers := [] }, c.barriers.map Barrier.group)

/-- `t` is `s` but for waves that waited, arrivals, copies and launches, counters, records and messages. -/
structure Wakes (s t : State) : Prop where
  length : t.waves.length = s.waves.length
  awake : ∀ j, (s.wave j).waits = false → t.wave j = s.wave j
  groups : t.groups = s.groups
  twins : t.twins = s.twins
  ctxs : t.ctxs.map seated = s.ctxs.map seated
  cores : t.cores.map quietCore = s.cores.map quietCore

namespace Wakes

theorem refl (s : State) : Wakes s s := ⟨rfl, fun _ _ => rfl, rfl, rfl, rfl, rfl⟩

theorem trans {s t u : State} (h : Wakes s t) (g : Wakes t u) : Wakes s u :=
  ⟨g.length.trans h.length, fun j hj => (g.awake j (by rw [h.awake j hj]; exact hj)).trans (h.awake j hj), g.groups.trans h.groups,
   g.twins.trans h.twins, g.ctxs.trans h.ctxs, g.cores.trans h.cores⟩

theorem foldl {α : Type} {f : State → α → State} (h : ∀ s x, Wakes s (f s x)) (l : List α) (s : State) : Wakes s (l.foldl f s) := by
  induction l generalizing s with
  | nil => exact refl s
  | cons x t ih => exact (h s x).trans (ih _)

theorem map_seated {c d : List Context} {f : Context → Context} (hf : ∀ x, seated (f x) = seated x) (h : d.map f = c.map f) :
    d.map seated = c.map seated := by
  have := congrArg (List.map seated) h
  simpa only [List.map_map, Function.comp_def, hf] using this

theorem of_counted {s t : State} (h : Counted s t) : Wakes s t :=
  ⟨by rw [h.waves], fun j _ => by simp only [State.wave, h.waves], h.groups, h.twins,
   map_seated (f := uncounted) (fun _ => rfl) h.ctxs, by rw [h.cores]⟩

theorem of_side {s t : State} (h : MemorySide s t) : Wakes s t :=
  ⟨by rw [h.waves], fun j _ => h.wave j, h.groups, twins_of_side h, map_seated (f := quietCtx) (fun _ => rfl) h.ctxs, h.cores⟩

theorem of_modCtx (s : State) (c : Nat) {f : Context → Context} (hf : ∀ x, seated (f x) = seated x) : Wakes s (s.modCtx c f) :=
  ⟨rfl, fun _ _ => rfl, rfl, rfl, map_modAt _ _ _ _ hf, rfl⟩

theorem of_modCopyQueue (s : State) (q : Nat) (f : CopyQueue → CopyQueue) : Wakes s (s.modCopyQueue q f) :=
  ⟨rfl, fun _ _ => rfl, rfl, rfl, rfl, rfl⟩

theorem of_modLaunch (s : State) (l : Nat) (f : Launch → Launch) : Wakes s (s.modLaunch l f) :=
  ⟨rfl, fun _ _ => rfl, rfl, rfl, rfl, rfl⟩

theorem of_setWave {s : State} {k : Nat} (w : Wave) (h : (s.wave k).waits = true) : Wakes s (s.setWave k w) :=
  ⟨by simp, fun j hj => State.wave_setWave_ne w fun e => by subst e; simp [h] at hj, rfl, rfl, rfl, rfl⟩

theorem of_modWave {s : State} {k : Nat} (f : Wave → Wave) (h : (s.wave k).waits = true) : Wakes s (s.modWave k f) :=
  ⟨by simp, fun j hj => State.wave_modWave_ne f fun e => by subst e; simp [h] at hj, rfl, rfl, rfl, rfl⟩

/-! ### Waits that end -/

/-- A wave that waited retires, wherever it goes on. -/
theorem of_retireAt {s u : State} {k : Nat} {w : Wave} (h : (s.wave k).waits = true) (hu : Wakes (s.setWave k w) u)
    (only : ∀ j, j ≠ k → u.wave j = s.wave j) (i : Instr) (priv : Priv) (next : VAddr) (extra : List Byte) :
    Wakes s (u.retireAt k i priv next extra) := by
  have first : Wakes s u := (of_setWave w h).trans hu
  have set (x : Wave) : Wakes s (u.setWave k x) :=
    ⟨by simp [first.length], fun j hj => by
      have ne : j ≠ k := fun e => by subst e; simp [h] at hj
      rw [State.wave_setWave_ne x ne, only j ne], first.groups, first.twins, first.ctxs, first.cores⟩
  exact (set _).trans (of_counted (counted_retireAt u k i priv next extra))

theorem unblock {s : State} {k : Nat} (h : (s.wave k).waits = true) : Wakes s (s.unblock k) := by
  unfold State.unblock
  dsimp only
  split
  · exact of_retireAt h (refl _) (fun j ne => State.wave_setWave_ne _ ne) _ _ _ _
  · exact of_setWave _ h

/-- The copies that a wait is for are done, or one of them has stopped: wave `k` goes on or takes its trap. -/
theorem ticketDone {s : State} {k : Nat} {w : Wave} (h : (s.wave k).waits = true) (i : Instr) (q seq : Nat) (next : VAddr) :
    Wakes s ((s.setWave k w).ticketDone k i q seq next) := by
  unfold State.ticketDone
  refine of_retireAt (w := w) h ?_ (fun j ne => ?_) _ _ _ _
  · split
    · exact of_modLaunch _ _ _
    · exact refl _
  · split <;> exact State.wave_setWave_ne _ ne

theorem wakeTickets (s : State) (q : Nat) : Wakes s (s.wakeTickets q) := by
  refine foldl (fun s k => ?_) _ s
  dsimp only
  split
  · split
    · exact refl s
    · rename_i h
      have waits : (s.wave k).waits = true := by
        simp only [Bool.or_eq_true, decide_eq_true_eq, Bool.not_eq_true', not_or, ne_eq, not_not, Bool.not_eq_false] at h
        simpa [Wave.waits] using h.2
      split
      · exact (of_modCopyQueue s _ _).trans (of_modWave _ waits)
      · split
        · exact refl s
        · split
          · exact ticketDone waits _ _ _ _
          · exact of_setWave _ waits
  · exact refl s

/-! ### Barriers -/

theorem seated_modBarrier (c : Context) (e : Nat) {f : Barrier → Barrier} (hf : ∀ b, (f b).group = b.group) :
    seated (c.modBarrier e f) = seated c := by
  refine Prod.ext rfl ?_
  simp only [seated, Context.modBarrier, List.map_map]
  refine List.map_congr_left fun b _ => ?_
  simp only [Function.comp_apply]
  split
  · exact hf b
  · rfl

theorem modBarrier (s : State) (c e : Nat) {f : Barrier → Barrier} (hf : ∀ b, (f b).group = b.group) :
    Wakes s (s.modCtx c fun x => x.modBarrier e f) := of_modCtx s c fun x => seated_modBarrier x e hf

/-- The waits of several waves end, each of which waited. -/
theorem unblocks {l : List Nat} (nd : l.Nodup) {s : State} (h : ∀ j ∈ l, (s.wave j).waits = true) : Wakes s (l.foldl State.unblock s) := by
  induction l generalizing s with
  | nil => exact refl s
  | cons k t ih =>
    rw [List.nodup_cons] at nd
    refine (unblock (h k (by simp))).trans (ih nd.2 fun j hj => ?_)
    rw [wave_unblock_ne s k j fun e => nd.1 (e ▸ hj)]
    exact h j (by simp [hj])

theorem completePhase (s : State) (c e : Nat) : Wakes s (s.completePhase c e) := by
  unfold State.completePhase
  split
  · exact refl s
  · split
    · exact refl s
    · refine (modBarrier s c e (f := fun b => b.advance _) fun _ => rfl).trans (unblocks (List.Nodup.filter _ List.nodup_range) fun j hj => ?_)
      have := (List.mem_filter.1 hj).2
      simp only [Bool.and_eq_true] at this
      simp [Wave.waits, this.1.2]

theorem completePhases (c : Nat) (l : List Nat) (s : State) : Wakes s (l.foldl (fun s e => s.completePhase c e) s) :=
  foldl (fun s e => completePhase s c e) l s

/-! ### Copies of a group that has gone -/

theorem abandonCopies (s : State) (g : Nat) : Wakes s (s.abandonCopies g) := by
  refine foldl (fun s q => ?_) _ s
  dsimp only
  split
  · exact refl s
  · exact ((of_modCopyQueue s q _).trans (foldl (fun s c => of_side (side_record s _)) _ _)).trans (wakeTickets _ q)

end Wakes

/-- Without a stopped copy nothing is abandoned. -/
theorem abandonCopies_of_none {s : State} (g : Nat) (h : ∀ x ∈ s.copies, ∀ c ∈ x.entries, c.stage ≠ .stopped) :
    s.abandonCopies g = s := by
  unfold State.abandonCopies
  generalize List.range s.copies.length = l
  induction l with
  | nil => rfl
  | cons q t ih =>
    have none : ((s.copyQueue q).entries.filter fun c => c.group == g && c.stage == .stopped) = [] := by
      refine List.filter_eq_nil_iff.2 fun c hc => ?_
      by_cases hq : q < s.copies.length
      · have := h (s.copyQueue q) (by simp [State.copyQueue, List.getD_eq_getElem?_getD, hq]) c hc
        simp [this]
      · simp [State.copyQueue, List.getD_eq_getElem?_getD, hq] at hc
        cases hc
    simp only [List.foldl_cons, none, List.isEmpty_nil, if_true]
    exact ih

end Sys2Proof.Machine
end

section
/-! PROOF. S-mode TRAP, TRET, EXITW and the dissolution of groups (O9). -/

namespace Sys2Proof.Machine

open Sys2Proof.Safety

/-! ### Groups that dissolve -/

/-- A group without members gives up its handles, its pool bytes and its tiles (R16, R194, R215). -/
def State.emptied (s : State) (g : Nat) : State :=
  let x := s.group g
  let s := s.modGroup g fun x => { x with live := false }
  let s := s.modCtx x.ctx fun c => { c with barriers := c.barriers.filter fun b => b.group != g }
  let s := if x.flat then s else s.modGraph x.graph fun y => { y with poolUsed := y.poolUsed - x.poolBytes }
  { s with twins := s.twins.map fun (t : Twin) => if t.owner = some g then t.release else t }

theorem dissolve_of_empty {s : State} {g : Nat} (live : (s.group g).live = true) (empty : s.members g = []) :
    s.dissolve g = (s.emptied g).abandonCopies g := by
  unfold State.dissolve
  simp only [live, empty, List.isEmpty_nil, Bool.not_true, Bool.or_self, Bool.false_eq_true, if_false]
  rfl

theorem dissolve_of_members {s : State} {g : Nat} (h : s.members g ≠ []) : s.dissolve g = s := by
  unfold State.dissolve
  simp [h]

theorem dissolve_of_dead {s : State} {g : Nat} (h : (s.group g).live = false) : s.dissolve g = s := by
  unfold State.dissolve
  simp [h]

/-- A dissolution leaves the state as it is, or empties the group and abandons its copies. -/
theorem dissolve_cases (s : State) (g : Nat) : s.dissolve g = s ∨ s.dissolve g = (s.emptied g).abandonCopies g := by
  cases live : (s.group g).live
  · exact .inl (dissolve_of_dead live)
  · by_cases empty : s.members g = []
    · exact .inr (dissolve_of_empty live empty)
    · exact .inl (dissolve_of_members empty)

@[simp] theorem State.emptied_waves (s : State) (g : Nat) : (s.emptied g).waves = s.waves := by
  unfold State.emptied; dsimp only; split <;> rfl
@[simp] theorem State.emptied_cores (s : State) (g : Nat) : (s.emptied g).cores = s.cores := by
  unfold State.emptied; dsimp only; split <;> rfl
@[simp] theorem State.emptied_mem (s : State) (g : Nat) : (s.emptied g).mem = s.mem := by
  unfold State.emptied; dsimp only; split <;> rfl
@[simp] theorem State.emptied_copies (s : State) (g : Nat) : (s.emptied g).copies = s.copies := by
  unfold State.emptied; dsimp only; split <;> rfl
@[simp] theorem State.emptied_groups (s : State) (g : Nat) :
    (s.emptied g).groups = modAt (fun x => { x with live := false }) s.groups g := by
  unfold State.emptied; dsimp only; split <;> rfl
@[simp] theorem State.emptied_ctxs (s : State) (g : Nat) : (s.emptied g).ctxs =
    modAt (fun c => { c with barriers := c.barriers.filter fun b => b.group != g }) s.ctxs (s.group g).ctx := by
  unfold State.emptied; dsimp only; split <;> rfl
@[simp] theorem State.emptied_twins (s : State) (g : Nat) :
    (s.emptied g).twins = s.twins.map fun (t : Twin) => if t.owner = some g then t.release else t := by
  unfold State.emptied; dsimp only; split <;> rfl

/-- The waves that wait for nothing stay as they are when a group dissolves. -/
theorem dissolve_awake (s : State) (g : Nat) {j : Nat} (h : (s.wave j).waits = false) : (s.dissolve g).wave j = s.wave j := by
  have same : (s.emptied g).wave j = s.wave j := by simp only [State.wave, State.emptied_waves]
  rcases dissolve_cases s g with e | e
  · rw [e]
  · rw [e, (Wakes.abandonCopies _ g).awake j (by rw [same]; exact h), same]

@[simp] theorem dissolve_length (s : State) (g : Nat) : (s.dissolve g).waves.length = s.waves.length := by
  rcases dissolve_cases s g with e | e
  · rw [e]
  · rw [e, (Wakes.abandonCopies _ g).length, State.emptied_waves]

theorem dissolve_cores (s : State) (g : Nat) : (s.dissolve g).cores.map quietCore = s.cores.map quietCore := by
  rcases dissolve_cases s g with e | e
  · rw [e]
  · rw [e, (Wakes.abandonCopies _ g).cores, State.emptied_cores]

theorem dissolve_mem {s : State} (g : Nat) (h : ∀ x ∈ s.copies, ∀ c ∈ x.entries, c.stage ≠ .stopped) : (s.dissolve g).mem = s.mem := by
  rcases dissolve_cases s g with e | e
  · rw [e]
  · rw [e, abandonCopies_of_none g (by rw [State.emptied_copies]; exact h), State.emptied_mem]

/-- A twin that a dissolving group still holds has entries in its queue (R215). -/
theorem release_owner {t : Twin} {g : Nat} (h : t.release.owner = some g) : t.release.queue ≠ [] := by
  have gen (u : Twin) : (if u.queue.isEmpty then Twin.reset else u).owner = some g →
      (if u.queue.isEmpty then Twin.reset else u).queue ≠ [] := by
    split
    · exact nofun
    · rename_i ne; exact fun _ => by simpa using ne
  exact gen _ h

/-- The barriers of a context are those of the same groups, where contexts differ by counts and arrivals. -/
theorem barrierGroups_eq {c d : List Context} (h : d.map seated = c.map seated) (n : Nat) :
    (d.getD n default).barriers.map Barrier.group = (c.getD n default).barriers.map Barrier.group := by
  have := congrArg (fun l => (l.getD n (seated default)).2) h
  simp only [getD_map'] at this
  exact this

theorem dissolves {s : State} {g : Nat} (lt : g < s.groups.length) (live : (s.group g).live = true) (empty : s.members g = []) :
    ((s.dissolve g).group g).live = false
      ∧ (∀ b ∈ ((s.dissolve g).ctx (s.group g).ctx).barriers, b.group ≠ g)
      ∧ ∀ t ∈ (s.dissolve g).twins, t.owner = some g → t.queue ≠ [] := by
  have w := Wakes.abandonCopies (s.emptied g) g
  rw [dissolve_of_empty live empty]
  refine ⟨?_, fun b hb => ?_, fun t ht own => ?_⟩
  · simp only [State.group, w.groups, State.emptied_groups]
    rw [getD_modAt_self _ _ _ lt]
  · have hg : b.group ∈ (((s.emptied g).ctxs.getD (s.group g).ctx default).barriers.map Barrier.group) := by
      rw [← barrierGroups_eq w.ctxs]; exact List.mem_map_of_mem hb
    rw [State.emptied_ctxs] at hg
    by_cases hc : (s.group g).ctx < s.ctxs.length
    · rw [getD_modAt_self _ _ _ hc] at hg
      obtain ⟨b', hb', e⟩ := List.mem_map.1 hg
      rw [← e]
      simpa using (List.mem_filter.1 hb').2
    · rw [modAt_oob _ _ (by omega), List.getD_eq_default _ _ (by omega)] at hg
      cases hg
  · rw [w.twins, State.emptied_twins] at ht
    obtain ⟨t', -, rfl⟩ := List.mem_map.1 ht
    split at own
    · rename_i o; rw [if_pos o]; exact release_owner own
    · contradiction

/-! ### Memory while waits end -/

theorem mem_foldl {α : Type} {f : State → α → State} (h : ∀ s x, (f s x).mem = s.mem) (l : List α) (s : State) :
    (l.foldl f s).mem = s.mem := by
  induction l generalizing s with
  | nil => rfl
  | cons x t ih => exact (ih _).trans (h s x)

theorem mem_retireAt (s : State) (k : Nat) (i : Instr) (p : Priv) (n : VAddr) (e : List Byte) : (s.retireAt k i p n e).mem = s.mem :=
  (counted_retireAt s k i p n e).mem

theorem mem_unblock (s : State) (k : Nat) : (s.unblock k).mem = s.mem := by
  unfold State.unblock
  dsimp only
  split
  · exact mem_retireAt _ _ _ _ _ _
  · rfl

theorem mem_completePhase (s : State) (c e : Nat) : (s.completePhase c e).mem = s.mem := by
  unfold State.completePhase
  split
  · rfl
  · split
    · rfl
    · exact mem_foldl mem_unblock _ _

/-! ### A wave that leaves barriers -/

/-- The barriers of a context once member `w` has left the given ones (R197). -/
def State.leftBarriers (s : State) (w : Wave) (entries : List Nat) : State :=
  entries.foldl (fun s e => s.modCtx w.ctx fun x => x.modBarrier e fun b => b.leave w.waveid) s

theorem leave_group (b : Barrier) (n : Nat) : (b.leave n).group = b.group := by
  unfold Barrier.leave; dsimp only; split <;> rfl

theorem leftBarriers_wakes (s : State) (w : Wave) (l : List Nat) : Wakes s (s.leftBarriers w l) :=
  Wakes.foldl (fun s e => Wakes.modBarrier s w.ctx e fun b => leave_group b w.waveid) l s

/-- Leaving barriers changes contexts alone. -/
theorem leftBarriers_eq (s : State) (w : Wave) (l : List Nat) : s.leftBarriers w l = { s with ctxs := (s.leftBarriers w l).ctxs } := by
  induction l generalizing s with
  | nil => rfl
  | cons e t ih => exact ih _

@[simp] theorem leftBarriers_waves (s : State) (w : Wave) (l : List Nat) : (s.leftBarriers w l).waves = s.waves := by
  rw [leftBarriers_eq]
@[simp] theorem leftBarriers_mem (s : State) (w : Wave) (l : List Nat) : (s.leftBarriers w l).mem = s.mem := by
  rw [leftBarriers_eq]
@[simp] theorem leftBarriers_copies (s : State) (w : Wave) (l : List Nat) : (s.leftBarriers w l).copies = s.copies := by
  rw [leftBarriers_eq]
@[simp] theorem leftBarriers_groups (s : State) (w : Wave) (l : List Nat) : (s.leftBarriers w l).groups = s.groups := by
  rw [leftBarriers_eq]
@[simp] theorem leftBarriers_wave (s : State) (w : Wave) (l : List Nat) (j : Nat) : (s.leftBarriers w l).wave j = s.wave j := by
  simp only [State.wave, leftBarriers_waves]

/-- After the move, the phases that are complete end, in a deterministic launch none (R197, R389). -/
theorem leaveBarriers_wakes (s : State) (k : Nat) (l : List Nat) (move : State → State) :
    Wakes (move (s.leftBarriers (s.wave k) l)) (s.leaveBarriers k l move) := by
  unfold State.leaveBarriers
  dsimp only
  split
  · exact Wakes.refl _
  · exact Wakes.completePhases _ _ _

theorem leaveBarriers_mem (s : State) (k : Nat) (l : List Nat) (move : State → State) :
    (s.leaveBarriers k l move).mem = (move (s.leftBarriers (s.wave k) l)).mem := by
  unfold State.leaveBarriers
  dsimp only
  split
  · rfl
  · exact mem_foldl (fun s e => mem_completePhase s _ e) _ _

/-! ### The exit of a wave -/

/-- The state in which wave `k` has exited and its group may dissolve (R136). -/
def State.vacated (s : State) (k : Nat) : State :=
  let w := s.wave k
  let core := s.coreOf w
  let s := s.modWave k fun w =>
    { w with state := .exited, wait := .nothing, hold := .none, stalled := none, trap := none, abort := none, txn := none
             pending := [], unmarked := [], exitEpoch := if s.detOf w then some (s.launch w.launch).epoch else none }
  let s := (s.modCore core fun c => { c with claims := c.claims.filter fun e => e.1 != k }).releaseTokens k
  s.remirror core

theorem exited_eq (s : State) (k : Nat) : s.exited k = (s.vacated k).dissolve (s.wave k).group := rfl

@[simp] theorem vacated_length (s : State) (k : Nat) : (s.vacated k).waves.length = s.waves.length := by simp [State.vacated, State.remirror]

theorem vacated_self {s : State} {k : Nat} (h : k < s.waves.length) :
    ((s.vacated k).wave k).state = .exited ∧ ((s.vacated k).wave k).pending = [] := by
  have e := State.wave_modWave_self (s := s) (fun w =>
    { w with state := .exited, wait := .nothing, hold := .none, stalled := none, trap := none, abort := none, txn := none
             pending := [], unmarked := [], exitEpoch := if s.detOf w then some (s.launch w.launch).epoch else none }) h
  exact ⟨congrArg Wave.state e, congrArg Wave.pending e⟩

theorem vacated_mem (s : State) (k : Nat) : (s.vacated k).mem = { s.mem with tokens := (s.vacated k).mem.tokens } := rfl

@[simp] theorem vacated_copies (s : State) (k : Nat) : (s.vacated k).copies = s.copies := rfl

/-- A property of the entries of a list, and of the default, holds of what is read at any place. -/
theorem getD_modAt_of {α : Type} {P : α → Prop} (f : α → α) (l : List α) (n : Nat) (d : α) (hf : P (f (l.getD n d))) (hd : P d) :
    P ((modAt f l n).getD n d) := by
  by_cases h : n < l.length
  · rwa [getD_modAt_self f l d h]
  · rw [modAt_oob f l (by omega), List.getD_eq_default _ _ (by omega)]; exact hd

theorem vacated_claims (s : State) (k : Nat) : ∀ e ∈ ((s.vacated k).core (s.coreOf (s.wave k))).claims, e.1 ≠ k := by
  unfold State.vacated State.remirror State.core
  refine getD_modAt_of (P := fun c : Core => ∀ e ∈ c.claims, e.1 ≠ k) _ _ _ _ ?_ (by simp [default, instInhabitedCore.default])
  refine getD_modAt_of (P := fun c : Core => ∀ e ∈ c.claims, e.1 ≠ k) _ _ _ _ ?_ (by simp [default, instInhabitedCore.default])
  intro e he
  simpa using (List.mem_filter.1 he).2

/-! ### The instructions -/

/-- A wave that retires right after its issue. -/
theorem retires_done {s : State} {k : Nat} (i : Instr) (lt : k < s.waves.length) :
    Retires s ((issued s k).done k i) k i ((s.wave k).pc + 8) (s.wave k) := by
  have w1 : (issued s k).wave k = (s.wave k).noted s.cc := State.wave_modWave_self _ lt
  refine Retires.of_noted s.cc ?_
  rw [State.done, w1]
  exact retires_retireAt i _ [] (by simpa [issued] using lt) (same_issued s k) w1 rfl rfl

/-- The contexts and memory of a state in which a wave has retired. -/
theorem done_counted (s : State) (k : Nat) (i : Instr) : ∃ w, Counted ((issued s k).setWave k w) ((issued s k).done k i) :=
  ⟨_, counted_retireAt _ _ _ _ _ _⟩

/-- The place of a wave on the part: its context, cluster and core. -/
theorem coreOf_congr {s t : State} {w x : Wave} (hs : t.ctxs.map seated = s.ctxs.map seated) (hw : plain x = plain w) :
    t.coreOf x = s.coreOf w := by
  have map : (t.ctx w.ctx).clusterMap = (s.ctx w.ctx).clusterMap := by
    have := congrArg (fun l => (l.getD w.ctx (seated default)).1.clusterMap) hs
    simp only [getD_map'] at this
    exact this
  have hc : x.ctx = w.ctx := by have := congrArg Wave.ctx hw; exact this
  have hl : x.clid = w.clid := by have := congrArg Wave.clid hw; exact this
  have hn : x.coreid = w.coreid := by have := congrArg Wave.coreid hw; exact this
  simp only [State.coreOf, State.physCluster, hc, hl, hn, map]

theorem claims_congr {s t : State} (h : t.cores.map quietCore = s.cores.map quietCore) (c : Nat) : (t.core c).claims = (s.core c).claims := by
  have := congrArg (fun l => (l.getD c (quietCore default)).claims) h
  simp only [getD_map'] at this
  exact this

theorem trap_in_handler {s : State} {k : Nat} {q : Bool} {n : BitVec 16} (h : Issues s k (.trap q n)) (hp : (s.wave k).priv = .s) :
    exec (.trap q n) s = .next ((issued s k).modWave k fun w =>
      { w with state := .blocked, wait := .service n.toNat, stalled := some (.trap q n) }) := by
  have w1 : ((issued s k).wave k).priv = .s := by rw [wave_issued h]; exact hp
  have run : exec (.trap q n) s = issue (.trap q n) s _ := rfl
  rw [run, issue_runs _ h, w1]
  rfl

theorem pending_issued {s : State} {k : Nat} {i : Instr} (h : Issues s k i) (hp : (s.wave k).pending ≠ []) :
    (!((issued s k).wave k).pending.isEmpty) = true := by
  rw [wave_issued h]; simp [hp]

theorem tret_parks {s : State} {k : Nat} {q : Bool} (h : Issues s k (.tret q)) (hp : (s.wave k).pending ≠ []) :
    exec (.tret q) s = .next ((issued s k).modWave k fun w => { w with state := .parked }) := by
  have run : exec (.tret q) s = issue (.tret q) s _ := rfl
  exact (run.trans (issue_runs _ h)).trans (congrArg _ (if_pos (pending_issued h hp)))

theorem exitw_parks {s : State} {k : Nat} {q : Bool} (h : Issues s k (.exitw q)) (hp : (s.wave k).pending ≠ []) :
    exec (.exitw q) s = .next ((issued s k).modWave k fun w => { w with state := .parked }) := by
  have run : exec (.exitw q) s = issue (.exitw q) s _ := rfl
  exact (run.trans (issue_runs _ h)).trans (congrArg _ (if_pos (pending_issued h hp)))

/-- The registers of the entry, as a retirement leaves them (R130). -/
theorem plain_returned {x w : Wave} (h : plain x = plain w) :
    plain { x.returned with unmarked := [] } = plain { w with exec := w.entryMask, priv := .u, state := .ready, unmarked := [] } := by
  have := congrArg (fun y : Wave => plain { y with exec := y.entryMask, priv := .u }) h
  exact this

/-- TRET goes back, from the state in which it has retired. -/
theorem tret_goes_back {s : State} {k : Nat} {q : Bool} (h : Issues s k (.tret q)) (hp : (s.wave k).pending = [])
    (ha : (s.wave k).tpc.toNat % 8 = 0) : exec (.tret q) s =
      .next (((issued s k).retireAt k (.tret q) (s.wave k).priv (s.wave k).tpc).modWave k fun w => { w.returned with unmarked := [] }) := by
  have run : exec (.tret q) s = issue (.tret q) s _ := rfl
  have w1 : (issued s k).wave k = (s.wave k).noted s.cc := wave_issued h
  have pend : ¬(!((s.wave k).noted s.cc).pending.isEmpty) = true := by
    have : ((s.wave k).noted s.cc).pending = [] := hp
    simp [this]
  have aligned : ¬((s.wave k).noted s.cc).tpc.toNat % 8 ≠ 0 := not_not.2 ha
  rw [run, issue_runs _ h, w1, if_neg pend, if_neg aligned]
  rfl

theorem tret_retires {s : State} {k : Nat} {q : Bool} (h : Issues s k (.tret q)) (hp : (s.wave k).pending = [])
    (ha : (s.wave k).tpc.toNat % 8 = 0) : ∃ t, exec (.tret q) s = .next t ∧ Retires s t k (.tret q) (s.wave k).tpc
      { s.wave k with exec := (s.wave k).entryMask, priv := .u, state := .ready, unmarked := [] } := by
  have w1 : (issued s k).wave k = (s.wave k).noted s.cc := wave_issued h
  have lt : k < (issued s k).waves.length := by simpa [issued] using h.lt
  have R := Retires.of_noted s.cc (retires_retireAt (.tret q) (s.wave k).tpc [] lt (same_issued s k) w1 rfl rfl)
  refine ⟨_, tret_goes_back h hp ha, ?_⟩
  have lt' : k < ((issued s k).retireAt k (.tret q) (s.wave k).priv (s.wave k).tpc).waves.length := by
    rw [(counted_retireAt _ _ _ _ _ _).waves]; simpa using lt
  generalize (issued s k).retireAt k (.tret q) (s.wave k).priv (s.wave k).tpc = u at R lt'
  have wk := State.wave_modWave_self (fun w => { w.returned with unmarked := [] }) lt'
  constructor
  · exact same_trans R.outside ⟨rfl, rfl, fun j ne => State.wave_modWave_ne _ ne⟩
  · rw [wk]; exact plain_returned R.regs
  · rw [wk]; have := congrArg Wave.tpc R.regs; exact this
  · rw [wk]; simp [Wave.returned, hp]
  · rw [wk]; simp
  · rw [wk]; exact R.sig

theorem exitw_exits {s : State} {k : Nat} {q : Bool} (h : Issues s k (.exitw q)) (hp : (s.wave k).pending = []) :
    ∃ t, exec (.exitw q) s = .next t ∧ (t.wave k).state = .exited ∧ (t.wave k).pending = []
      ∧ k ∉ t.members (s.wave k).group ∧ (∀ e ∈ (t.core (s.coreOf (s.wave k))).claims, e.1 ≠ k)
      ∧ ((∀ x ∈ s.copies, ∀ c ∈ x.entries, c.stage ≠ .stopped) → t.mem = { s.mem with tokens := t.mem.tokens }) := by
  have w1 : (issued s k).wave k = (s.wave k).noted s.cc := wave_issued h
  have run : exec (.exitw q) s = issue (.exitw q) s _ := rfl
  refine ⟨_, run.trans (issue_runs _ h), ?_⟩
  have pend : ((s.wave k).noted s.cc).pending = [] := hp
  dsimp only
  rw [w1, if_neg (by simp [pend])]
  have R := retires_done (.exitw q) h.lt
  obtain ⟨w, C⟩ := done_counted s k (.exitw q)
  generalize (issued s k).barriersOf _ _ = entries
  generalize (issued s k).done k (.exitw q) = u at R C
  -- `x`: the barriers are left; `t`: the phases that this completes have ended
  have L := leaveBarriers_wakes u k entries fun s => s.exited k
  have M := leaveBarriers_mem u k entries fun s => s.exited k
  have ctxs : (u.leftBarriers (u.wave k) entries).ctxs.map seated = s.ctxs.map seated :=
    (leftBarriers_wakes u _ entries).ctxs.trans (Wakes.of_counted C).ctxs
  have wk : (u.leftBarriers (u.wave k) entries).wave k = u.wave k := leftBarriers_wave _ _ _ _
  have copies : (u.leftBarriers (u.wave k) entries).copies = s.copies := (leftBarriers_copies _ _ _).trans C.copies
  have mem : (u.leftBarriers (u.wave k) entries).mem = s.mem := (leftBarriers_mem _ _ _).trans C.mem
  have lt : k < (u.leftBarriers (u.wave k) entries).waves.length := by
    rw [leftBarriers_waves, C.waves]; simpa [issued] using h.lt
  generalize u.leftBarriers (u.wave k) entries = x at L M ctxs wk copies mem lt
  generalize u.leaveBarriers k entries (fun s => s.exited k) = t at L M
  obtain ⟨hstate, hpending⟩ := vacated_self lt
  have still : ((x.vacated k).wave k).waits = false := by simp [Wave.waits, hstate]
  have out : t.wave k = (x.vacated k).wave k := by
    have d := dissolve_awake (x.vacated k) (x.wave k).group still
    rw [L.awake k (by rw [exited_eq, d]; exact still), exited_eq, d]
  refine ⟨by rw [out]; exact hstate, by rw [out]; exact hpending, fun hm => ?members, ?claims, fun none => ?memory⟩
  case members =>
    have := (wave_wavesWith.1 hm).2
    simp [out, hstate] at this
  case claims =>
    have core : x.coreOf (x.wave k) = s.coreOf (s.wave k) := coreOf_congr ctxs (by rw [wk]; exact R.regs)
    rw [← core, claims_congr (L.cores.trans (dissolve_cores _ _))]
    exact vacated_claims x k
  case memory =>
    have same : ((x.vacated k).dissolve (x.wave k).group).mem = (x.vacated k).mem :=
      dissolve_mem _ (by rw [vacated_copies, copies]; exact none)
    have kept : t.mem = (x.vacated k).mem := M.trans same
    rw [kept, vacated_mem, mem]

/-- Settles O9, instruction by instruction. -/
theorem serviceReturnAndExit : Obligations.ServiceReturnAndExit := by
  refine ⟨⟨fun s k q n => trap_in_handler, fun s k q h => ⟨tret_retires h, tret_parks h⟩⟩,
    fun s k q h => ⟨exitw_exits h, exitw_parks h⟩, fun s g lt live => ⟨dissolves lt live, dissolve_of_members⟩⟩

end Sys2Proof.Machine
end

section
/-! PROOF. Addresses of format M and WMAP (O10). -/

namespace Sys2Proof.Machine

open Sys2Proof.Safety Sys2Proof.Rules

/-! ### Offsets (R51, R170) -/

theorem cast_toNat_ofInt (i : Int) : ((BitVec.ofInt 64 i).toNat : Int) = i % 2 ^ 64 := by
  rw [BitVec.toNat_ofInt]
  omega

theorem ofInt_toNat {n : Nat} (x : BitVec n) : BitVec.ofInt n x.toNat = x := by simp

/-- An address is the sum of integers that it stands for, taken modulo 2^64. -/
theorem mem_address (o : MemF) (index base : Word) (pos : Nat) : base + o.offset index pos =
    BitVec.ofInt 64 (base.toNat + index.toNat * 2 ^ o.scale.toNat + o.disp.toInt * o.size.bytes + pos * o.size.bytes) := by
  have scaled : index <<< o.scale.toNat = BitVec.ofInt 64 (index.toNat * 2 ^ o.scale.toNat) := by
    apply BitVec.eq_of_toNat_eq
    rw [BitVec.toNat_shiftLeft, Nat.shiftLeft_eq, BitVec.toNat_ofInt]
    norm_cast
  have disp : o.disp.signExtend 64 * BitVec.ofNat 64 o.size.bytes = BitVec.ofInt 64 (o.disp.toInt * o.size.bytes) := by
    rw [BitVec.ofInt_mul, BitVec.ofInt_natCast]; rfl
  have lane : BitVec.ofNat 64 (pos * o.size.bytes) = BitVec.ofInt 64 (pos * o.size.bytes) := by
    rw [← BitVec.ofInt_natCast]; norm_cast
  rw [MemF.offset, scaled, disp, lane, BitVec.ofInt_add, BitVec.ofInt_add, BitVec.ofInt_add, ofInt_toNat]
  simp only [BitVec.add_assoc]

theorem atom_address (a : AtomF) (index base : Word) : base + a.offset index =
    BitVec.ofInt 64 (base.toNat + index.toNat * atomBytes a.w64 + a.disp.toInt * atomBytes a.w64) := by
  rw [AtomF.offset, BitVec.ofInt_add, BitVec.ofInt_add, BitVec.ofInt_mul, BitVec.ofInt_mul, ofInt_toNat, ofInt_toNat,
    BitVec.ofInt_natCast, BitVec.add_mul, BitVec.add_assoc]
  rfl

/-! ### Walks read the tables alone -/

/-- The parts of a state that a walk reads, but for the roots of its context. -/
structure SameTables (s t : State) : Prop where
  mem : t.mem = s.mem
  l2 : t.fab.l2 = s.fab.l2
  dev : t.fab.dev = s.fab.dev
  epoch : t.fab.peerEpoch = s.fab.peerEpoch

theorem sameTables_of_side {s t : State} (h : MemorySide s t) (m : t.mem = s.mem) : SameTables s t :=
  ⟨m, by have := congrArg (fun x : State => x.fab.l2) h.rest; exact this,
   by have := congrArg (fun x : State => x.fab.dev) h.rest; exact this,
   by have := congrArg (fun x : State => x.fab.peerEpoch) h.rest; exact this⟩

theorem readEntry_congr {s t : State} (h : SameTables s t) (pa : Nat) : t.readEntry pa = s.readEntry pa := by
  have words (sec : Nat) : t.l2Words sec = s.l2Words sec := by simp only [State.l2Words, h.mem]
  have dram (sec : Nat) : t.dramBad sec = s.dramBad sec := by simp only [State.dramBad, h.mem]
  have l2 (sec : Nat) : t.l2Bad sec = s.l2Bad sec := by simp only [State.l2Bad, h.mem, h.l2, words]
  have bytes (sec : Nat) : t.badBytes sec = s.badBytes sec := by rw [State.badBytes, State.badBytes, words, dram, l2]
  rw [State.readEntry, State.readEntry, State.byteBad, State.byteBad, bytes, h.mem]

theorem walkFrom_congr {s t : State} (h : SameTables s t) (stage : Nat) (reach : Nat → Except WalkErr Nat) (a fuel level table : Nat) :
    walkFrom t stage reach a fuel level table = walkFrom s stage reach a fuel level table := by
  induction fuel generalizing level table with
  | zero => rfl
  | succ n ih => simp only [walkFrom, readEntry_congr h, ih]

theorem isPeer_congr {s t : State} (h : SameTables s t) (pa : Nat) : t.isPeer pa = s.isPeer pa := by simp only [State.isPeer, h.dev]

theorem walk2_congr {s t : State} (h : SameTables s t) (root ipa : Nat) : t.walk2 root ipa = s.walk2 root ipa := by
  simp only [State.walk2, walkFrom_congr h, isPeer_congr h]

theorem walk_congr {s t : State} (h : SameTables s t) {c : Nat} (s1 : (t.ctx c).s1root = (s.ctx c).s1root)
    (s2 : (t.ctx c).s2root = (s.ctx c).s2root) (asid : (t.ctx c).asid = (s.ctx c).asid) (va : Nat) : t.walk c va = s.walk c va := by
  have reach : t.xlate2 = s.xlate2 := by
    funext root ipa
    simp only [State.xlate2, walk2_congr h]
  simp only [State.walk, s1, s2, asid, reach, walkFrom_congr h, walk2_congr h, State.homePa, isPeer_congr h, h.epoch]

/-! ### WMAP (R179) -/

theorem quietCtx_side {s t : State} (h : MemorySide s t) (c : Nat) : quietCtx (t.ctx c) = quietCtx (s.ctx c) := by
  have := congrArg (fun l => l.getD c (quietCtx default)) h.ctxs
  simp only [getD_map'] at this
  exact this

/-- What WMAP finds does not depend on what memory traffic changes besides memory. -/
theorem wmapError_side {s t : State} (h : MemorySide s t) (m : t.mem = s.mem) (w : Wave) (wr : Bool) (va : Nat) :
    t.wmapError w wr va = s.wmapError w wr va := by
  have q := quietCtx_side h w.ctx
  have walk : t.walk w.ctx va = s.walk w.ctx va :=
    walk_congr (sameTables_of_side h m) (by have := congrArg Context.s1root q; exact this)
      (by have := congrArg Context.s2root q; exact this) (by have := congrArg Context.asid q; exact this) va
  have dead : t.fab.deadPeers = s.fab.deadPeers := by have := congrArg (fun x : State => x.fab.deadPeers) h.rest; exact this
  have routes : t.fab.routes = s.fab.routes := by have := congrArg (fun x : State => x.fab.routes) h.rest; exact this
  have ports : t.fab.ports = s.fab.ports := by have := congrArg (fun x : State => x.fab.ports) h.rest; exact this
  simp only [State.wmapError, walk, isPeer_side h, State.peerUp, State.peerPort, dead, routes, ports]
  rfl

theorem wmapError_lt {s : State} {w : Wave} {wr : Bool} {va : Nat} {l : Leaves} (h : s.wmapError w wr va = .ok l) : va < 2 ^ 56 := by
  unfold State.wmapError at h
  split at h
  · cases h
  · omega

/-- The window that a translation gives holds it whole (R28). -/
theorem windowFor_holds (l : Leaves) {a : Word} (want : Word) (wr peer : Bool) (asid : BitVec 16) (ha : a.toNat < 2 ^ 56) :
    let x := windowFor l (a.setWidth 56) want wr peer asid
    x.pbase.toNat = l.pa % 2 ^ 40 ∧ x.dev.toNat = devOf l.pa
      ∧ x.limit.toNat = min (min want.toNat (l.reach a.toNat)) (2 ^ 35) ∧ x.ghusk.toNat = bits l.e1 11 8 := by
  have va : (a.setWidth 56).toNat = a.toNat := by rw [BitVec.toNat_setWidth]; omega
  refine ⟨?_, ?_, ?_, ?_⟩
  · simp only [windowFor, BitVec.toNat_ofNat]
  · simp only [windowFor, BitVec.toNat_ofNat, devOf, bits]; omega
  · simp only [windowFor, BitVec.toNat_ofNat, va]; omega
  · simp only [windowFor, BitVec.toNat_ofNat, bits]; omega

/-- The window that a WMAP of wave `w` writes for what its walk has found. -/
def wmapWindow (s : State) (w : Wave) (o : WmapF) (l : Leaves) : Window :=
  windowFor l ((w.readS o.a.toNat).setWidth 56) (w.readS o.b.toNat) o.wr (s.isPeer l.pa) (s.ctx w.ctx).asid

theorem wmapError_issued (s : State) (k c : Nat) (w : Wave) (wr : Bool) (va : Nat) :
    (issued s k).wmapError (w.noted c) wr va = s.wmapError w wr va := by
  unfold issued State.modWave State.wmapError
  simp only [walk_waves]
  rfl

/-- WMAP of a page that is found: its walk has posted its requests, its translation is kept, and the window is written. -/
theorem wmap_writes {s : State} {k : Nat} {o : WmapF} {l : Leaves} (h : Issues s k (.wmap o))
    (found : s.wmapError (s.wave k) o.wr ((s.wave k).readS o.a.toNat).toNat = .ok l) :
    ∃ u : State, MemorySide (issued s k) u ∧ u.mem = s.mem
      ∧ exec (.wmap o) s = .next ((u.modGroup (s.wave k).group fun g =>
          { g with windows := putAt {} g.windows o.d.toNat (wmapWindow s (s.wave k) o l) }).done k (.wmap o)) := by
  have run : exec (.wmap o) s = issue (.wmap o) s _ := rfl
  have w1 : (issued s k).wave k = (s.wave k).noted s.cc := wave_issued h
  have low : ¬2 ^ 56 ≤ ((s.wave k).readS o.a.toNat).toNat := by have := wmapError_lt found; omega
  rw [run, issue_runs _ h, w1]
  simp only [Wave.readS_noted, low, if_false, Wave.noted_priv, Wave.noted_group]
  generalize hv : (issued s k).postWalk _ _ = v
  have side : MemorySide (issued s k) v := hv ▸ side_postWalk _ _ _
  have bytes : SameBytes (issued s k) v := hv ▸ SameBytes.foldl (fun s _ => same_post s _ _ _) _ _
  have err : v.wmapError ((s.wave k).noted s.cc) o.wr ((s.wave k).readS o.a.toNat).toNat = .ok l := by
    rw [wmapError_side side bytes.mem, wmapError_issued, found]
  have asid : (v.ctx ((s.wave k).noted s.cc).ctx).asid = (s.ctx (s.wave k).ctx).asid := by
    have := congrArg Context.asid (quietCtx_side side (s.wave k).ctx); exact this
  rw [err]
  dsimp only
  rw [isPeer_side (side.trans (side_keepPages v _ _)), asid]
  exact ⟨_, side.trans (side_keepPages _ _ _), (same_keepPages _ _ _).mem.trans bytes.mem, rfl⟩

theorem runs_wmap {s : State} {k : Nat} {o : WmapF} {l : Leaves} (h : Issues s k (.wmap o))
    (found : s.wmapError (s.wave k) o.wr ((s.wave k).readS o.a.toNat).toNat = .ok l) :
    ∃ u : State, MemorySide (issued s k) u ∧ u.mem = s.mem ∧ Runs (.wmap o) s k (u.modGroup (s.wave k).group fun g =>
      { g with windows := putAt {} g.windows o.d.toNat (wmapWindow s (s.wave k) o l) }) := by
  obtain ⟨u, side, mem, run⟩ := wmap_writes h found
  have lt : k < u.waves.length := by rw [side.waves]; simpa [issued] using h.lt
  exact ⟨u, side, mem, _, run, retires_retireAt _ _ [] lt ⟨rfl, rfl, fun _ _ => rfl⟩ rfl rfl rfl⟩

/-- Settles O10, by integers modulo 2^64 for the addresses and by the window's fields for WMAP. -/
theorem addressesAndWindows : Obligations.AddressesAndWindows := by
  refine ⟨fun o a index base pos => ⟨?_, ?_⟩, fun s k o l h found => ?_⟩
  · rw [mem_address, cast_toNat_ofInt]
  · rw [atom_address, cast_toNat_ofInt]
  · obtain ⟨u, side, mem, runs⟩ := runs_wmap h found
    obtain ⟨pbase, dev, limit, ghusk⟩ := windowFor_holds l ((s.wave k).readS o.b.toNat) o.wr (s.isPeer l.pa) (s.ctx (s.wave k).ctx).asid
      (wmapError_lt found)
    exact ⟨u, wmapWindow s (s.wave k) o l, side, mem, runs, rfl, rfl, pbase, dev, limit, rfl, rfl, ghusk, rfl⟩

end Sys2Proof.Machine
end

section
/-! PROOF. GLEAVE and GJOIN (O21). -/

namespace Sys2Proof.Machine

open Sys2Proof.Safety Sys2Proof.Rules

/-! ### The wave that issues -/

theorem state_of_issues {s : State} {k : Nat} {i : Instr} (h : Issues s k i) : (s.wave k).state = .ready ∨ (s.wave k).state = .handler := by
  have can := h.can
  simp only [State.canIssue, Bool.and_eq_true, Bool.or_eq_true, beq_iff_eq] at can
  exact can.1.1.1.1.1.1.1.1.1.1

/-- A wave that issues waits for nothing (R292). -/
theorem awake_of_issues {s : State} {k : Nat} {i : Instr} (h : Issues s k i) : (s.wave k).waits = false := by
  rcases state_of_issues h with e | e <;> simp [Wave.waits, e]

theorem done_self {x : State} {k : Nat} (i : Instr) (lt : k < x.waves.length) :
    plain ((x.done k i).wave k) = plain (x.wave k) ∧ ((x.done k i).wave k).pc = (x.wave k).pc + 8 := by
  have R : Retires x (x.done k i) k i ((x.wave k).pc + 8) (x.wave k) := retires_retireAt i _ [] lt ⟨rfl, rfl, fun _ _ => rfl⟩ rfl rfl rfl
  exact ⟨R.regs, R.pc⟩

theorem done_groups (x : State) (k : Nat) (i : Instr) : (x.done k i).groups = x.groups :=
  (counted_retireAt x k i _ _ _).groups

theorem done_ctxs (x : State) (k : Nat) (i : Instr) : (x.done k i).ctxs.map seated = x.ctxs.map seated :=
  (Wakes.of_counted (counted_retireAt x k i _ _ _)).ctxs

/-! ### Groups and barriers where another group dissolves -/

theorem dissolve_group_ne (s : State) {g n : Nat} (h : n ≠ g) : (s.dissolve g).group n = s.group n := by
  rcases dissolve_cases s g with e | e
  · rw [e]
  · simp only [e, State.group, (Wakes.abandonCopies _ g).groups, State.emptied_groups, getD_modAt_ne _ _ _ h]

/-- No barrier of a group comes in when one dissolves. -/
theorem dissolve_barriers {s : State} {g c n : Nat} (h : n ∈ ((s.dissolve g).ctx c).barriers.map Barrier.group) :
    n ∈ (s.ctx c).barriers.map Barrier.group := by
  rcases dissolve_cases s g with e | e
  · rwa [e] at h
  · rw [e] at h
    have hm : n ∈ ((s.emptied g).ctxs.getD c default).barriers.map Barrier.group := by
      rw [← barrierGroups_eq (Wakes.abandonCopies _ g).ctxs]; exact h
    rw [State.emptied_ctxs] at hm
    have sub : ∀ b ∈ ((modAt (fun c : Context => { c with barriers := c.barriers.filter fun b => b.group != g }) s.ctxs
        (s.group g).ctx).getD c default).barriers, b ∈ (s.ctxs.getD c default).barriers := by
      intro b hb
      by_cases hc : c = (s.group g).ctx
      · by_cases lt : c < s.ctxs.length
        · subst hc
          rw [getD_modAt_self _ _ _ lt] at hb
          exact (List.mem_filter.1 hb).1
        · rwa [modAt_oob _ _ (by omega)] at hb
      · rwa [getD_modAt_ne _ _ _ hc] at hb
    obtain ⟨b, hb, rfl⟩ := List.mem_map.1 hm
    exact List.mem_map_of_mem (sub b hb)

theorem joinBarriers_wakes (s : State) (k : Nat) (l : List Nat) : Wakes s (s.joinBarriers k l) := by
  unfold State.joinBarriers
  refine Wakes.trans ?_ (Wakes.completePhases _ _ _)
  refine Wakes.foldl (fun s e => ?_) l s
  exact Wakes.modBarrier _ _ _ fun _ => rfl

/-! ### GLEAVE -/

/-- The state in which wave `k` stands in a new group, before its old one may dissolve. -/
def State.seceded (s : State) (k : Nat) (new : Group) : State :=
  ({ s with groups := s.groups ++ [new] }).modWave k fun w => { w with group := s.groups.length }

theorem seceded_group (s : State) (k : Nat) (new : Group) : (s.seceded k new).group s.groups.length = new := by
  simp [State.seceded, State.group, State.modWave]

theorem seceded_self {s : State} {k : Nat} (new : Group) (lt : k < s.waves.length) :
    (s.seceded k new).wave k = { s.wave k with group := s.groups.length } := State.wave_modWave_self _ lt

/-- The new group stands whichever group dissolves: it has a member. -/
theorem seceded_dissolve_group {s : State} {k : Nat} (new : Group) (g : Nat) (lt : k < s.waves.length) (live : (s.wave k).state ≠ .exited) :
    ((s.seceded k new).dissolve g).group s.groups.length = new := by
  by_cases e : s.groups.length = g
  · subst e
    have hk : k ∈ (s.seceded k new).members s.groups.length := by
      refine wave_wavesWith.2 ⟨by simpa [State.seceded] using lt, ?_⟩
      rw [seceded_self new lt]
      simp [live]
    rw [dissolve_of_members (List.ne_nil_of_mem hk), seceded_group]
  · rw [dissolve_group_ne _ e, seceded_group]

/-- The group that a wave founds when it leaves: detached, on its cluster, with its old group's number, scratchpad and windows (R194). -/
def State.detachedGroup (s : State) (w : Wave) : Group :=
  { s.group w.group with
    detached := true, clusters := [w.clid], gang := 0, twins := [], poolBytes := 0, flat := true, openBatch := 0, batches := [], nextBatch := 1 }

theorem detach_spec {s : State} {k : Nat} (lt : k < s.waves.length) (awake : (s.wave k).waits = false) (live : (s.wave k).state ≠ .exited) :
    (s.detach k).wave k = { s.wave k with group := s.groups.length } ∧ (s.detach k).waves.length = s.waves.length
      ∧ (s.detach k).group s.groups.length = s.detachedGroup (s.wave k)
      ∧ ∀ c n, n ∈ ((s.detach k).ctx c).barriers.map Barrier.group → n ∈ (s.ctx c).barriers.map Barrier.group := by
  -- `x`: the barriers are left
  have L := leaveBarriers_wakes s k (s.barriersOf (s.wave k) (s.wave k).sgid)
    fun s' => (s'.seceded k (s.detachedGroup (s.wave k))).dissolve (s.wave k).group
  change Wakes _ (s.detach k) at L
  have B := (leftBarriers_wakes s (s.wave k) (s.barriersOf (s.wave k) (s.wave k).sgid)).ctxs
  have G := leftBarriers_groups s (s.wave k) (s.barriersOf (s.wave k) (s.wave k).sgid)
  have W := leftBarriers_waves s (s.wave k) (s.barriersOf (s.wave k) (s.wave k).sgid)
  generalize s.leftBarriers (s.wave k) (s.barriersOf (s.wave k) (s.wave k).sgid) = x at L B G W
  have wk : x.wave k = s.wave k := by simp only [State.wave, W]
  have self := seceded_self (s := x) (s.detachedGroup (s.wave k)) (by rw [W]; exact lt)
  have still : ((x.seceded k (s.detachedGroup (s.wave k))).wave k).waits = false := by rw [self, wk]; exact awake
  have gone := dissolve_awake (x.seceded k (s.detachedGroup (s.wave k))) (s.wave k).group still
  refine ⟨?_, ?_, ?_, fun c n hn => ?_⟩
  · rw [L.awake k (by rw [gone]; exact still), gone, self, wk, G]
  · rw [L.length, dissolve_length, ← W]; simp [State.seceded]
  · simp only [State.group, L.groups]
    rw [← G]
    exact seceded_dissolve_group _ _ (by rw [W]; exact lt) (by rw [wk]; exact live)
  · rw [State.ctx, barrierGroups_eq L.ctxs] at hn
    have := dissolve_barriers hn
    rwa [State.ctx, barrierGroups_eq (show (x.seceded k _).ctxs.map seated = _ from B)] at this

theorem detOf_issued {s : State} {k : Nat} {i : Instr} (h : Issues s k i) :
    (issued s k).detOf ((issued s k).wave k) = s.detOf (s.wave k) := by
  rw [wave_issued h]; rfl

theorem awake_issued {s : State} {k : Nat} {i : Instr} (h : Issues s k i) :
    ((issued s k).wave k).waits = false ∧ ((issued s k).wave k).state ≠ .exited := by
  rw [wave_issued h]
  exact ⟨awake_of_issues h, by rcases state_of_issues h with e | e <;> simp [e]⟩

/-- GLEAVE outside a deterministic launch (R194). -/
theorem gleave_detaches {s : State} {k : Nat} {q : Bool} (h : Issues s k (.gleave q)) (nd : s.detOf (s.wave k) = false) :
    ∃ t, exec (.gleave q) s = .next t
      ∧ plain (t.wave k) = plain { s.wave k with group := s.groups.length } ∧ (t.wave k).pc = (s.wave k).pc + 8
      ∧ t.group s.groups.length = s.detachedGroup (s.wave k)
      ∧ ∀ c n, n ∈ (t.ctx c).barriers.map Barrier.group → n ∈ (s.ctx c).barriers.map Barrier.group := by
  have run : exec (.gleave q) s = issue (.gleave q) s _ := rfl
  have w1 : (issued s k).wave k = (s.wave k).noted s.cc := wave_issued h
  have det : ¬(issued s k).detOf ((issued s k).wave k) = true := by rw [detOf_issued h, nd]; simp
  have lt : k < (issued s k).waves.length := by simpa [issued] using h.lt
  obtain ⟨wk, len, grp, bar⟩ := detach_spec lt (awake_issued h).1 (awake_issued h).2
  obtain ⟨regs, pc⟩ := done_self (x := (issued s k).detach k) (.gleave q) (by rw [len]; exact lt)
  refine ⟨_, (run.trans (issue_runs _ h)).trans (congrArg _ (if_neg det)), ?_, ?_, ?_, fun c n hn => ?_⟩
  · rw [regs, wk, w1]; rfl
  · rw [pc, wk, w1]; rfl
  · rw [State.group, done_groups]
    refine Eq.trans grp ?_
    rw [w1]; rfl
  · rw [State.ctx, barrierGroups_eq (done_ctxs _ _ _)] at hn
    exact bar c n hn

/-! ### GJOIN -/

/-- WAVEIDs are given out from the lowest: the one that is free is no member's, and each below it is some member's (R16). -/
theorem freeWaveid_spec {s : State} {g : Nat} (room : (s.members g).length < 65) :
    (∀ j ∈ s.members g, (s.wave j).waveid ≠ s.freeWaveid g) ∧ ∀ m, m < s.freeWaveid g → ∃ j ∈ s.members g, (s.wave j).waveid = m := by
  unfold State.freeWaveid firstBelow
  dsimp only
  have some_free : ∃ n ∈ List.range 65, n ∉ (s.members g).map fun k => (s.wave k).waveid := by
    by_contra all
    push Not at all
    have := (List.subperm_of_subset List.nodup_range all).length_le
    simp only [List.length_range, List.length_map] at this
    omega
  cases found : (List.range 65).find? fun n => !((s.members g).map fun k => (s.wave k).waveid).contains n with
  | none =>
    obtain ⟨n, hn, free⟩ := some_free
    have := List.find?_eq_none.1 found n hn
    simp at this free
    obtain ⟨j, hj, e⟩ := this
    exact absurd e (free j hj)
  | some n =>
    obtain ⟨free, -, below⟩ := List.find?_range_eq_some.1 found
    simp only [Option.getD_some, Bool.not_eq_true', List.contains_eq_mem, decide_eq_false_iff_not, List.mem_map, not_exists,
      not_and] at free below ⊢
    refine ⟨free, fun m hm => ?_⟩
    have := below m hm
    simpa using this

/-- The fields of a token (R193): GRPID in [31:0], the cluster in [37:32]. -/
theorem token_fields {grpid cluster : Nat} (hg : grpid < 2 ^ 32) (hc : cluster < 64) :
    (BitVec.ofNat 64 (grpid + 2 ^ 32 * cluster)).toNat >>> 38 = 0
      ∧ bits (BitVec.ofNat 64 (grpid + 2 ^ 32 * cluster)).toNat 31 0 = grpid
      ∧ bits (BitVec.ofNat 64 (grpid + 2 ^ 32 * cluster)).toNat 37 32 = cluster := by
  have e : (BitVec.ofNat 64 (grpid + 2 ^ 32 * cluster)).toNat = grpid + 2 ^ 32 * cluster := by
    rw [BitVec.toNat_ofNat]; omega
  rw [e]
  simp only [bits, Nat.shiftRight_eq_div_pow]
  omega

/-- What GJOIN does with the group that its token names, or with none (R193). -/
def State.joinNamed (s : State) (k : Nat) (i : Instr) (sgid : BitVec 2) : Option Nat → State
  | none => s.trapExec k 0x33
  | some g =>
    let w := s.wave k
    if g = w.group then (if sgid = w.sgid then s else s.changeSubgroup k sgid).done k i
    else if !(s.group g).clusters.contains w.clid || (s.group g).capacity ≤ (s.members g).length || (s.group g).ilevel ≠ s.ilevelOf w then
      s.trapExec k 0x33
    else (s.moveTo k g sgid).done k i

theorem gjoin_run {s : State} {k : Nat} {q : Bool} {a : BitVec 8} {sgid : BitVec 2} (h : Issues s k (.gjoin q a sgid))
    (nd : s.detOf (s.wave k) = false) {grpid cluster : Nat} (hg : grpid < 2 ^ 32) (hc : cluster < 64)
    (token : (s.wave k).readS a.toNat = BitVec.ofNat 64 (grpid + 2 ^ 32 * cluster)) {found : Option Nat}
    (names : s.tokenGroup (s.wave k).ctx grpid cluster = found) :
    exec (.gjoin q a sgid) s = .next ((issued s k).joinNamed k (.gjoin q a sgid) sgid found) := by
  have run : exec (.gjoin q a sgid) s = issue (.gjoin q a sgid) s _ := rfl
  have w1 : (issued s k).wave k = (s.wave k).noted s.cc := wave_issued h
  have reads : ((issued s k).wave k).readS a.toNat = BitVec.ofNat 64 (grpid + 2 ^ 32 * cluster) := by rw [w1, ← token]; rfl
  have ctx : ((issued s k).wave k).ctx = (s.wave k).ctx := by rw [w1]; rfl
  have same : (issued s k).tokenGroup (s.wave k).ctx grpid cluster = found := names
  obtain ⟨high, number, place⟩ := token_fields hg hc
  rw [run, issue_runs _ h]
  simp only [reads, high, detOf_issued h, nd, number, place, ctx, same, ne_eq, not_true_eq_false, Bool.false_eq_true, if_false]
  cases found <;> rfl

/-- A wave that moves to another sub-group of its own group. -/
theorem changeSubgroup_self {s : State} {k : Nat} (sgid : BitVec 2) (lt : k < s.waves.length) (awake : (s.wave k).waits = false) :
    (s.changeSubgroup k sgid).wave k = { s.wave k with sgid := sgid } ∧ (s.changeSubgroup k sgid).waves.length = s.waves.length := by
  unfold State.changeSubgroup
  dsimp only
  generalize List.filter _ (s.barriersOf (s.wave k) (s.wave k).sgid) = leaves
  generalize List.filter _ (s.barriersOf (s.wave k) sgid) = joins
  have L := leaveBarriers_wakes s k leaves fun s => s.modWave k fun w => { w with sgid := sgid }
  have W := leftBarriers_waves s (s.wave k) leaves
  generalize s.leftBarriers (s.wave k) leaves = x at L W
  have wk : x.wave k = s.wave k := by simp only [State.wave, W]
  have self : (x.modWave k fun w => { w with sgid := sgid }).wave k = { s.wave k with sgid := sgid } := by
    rw [State.wave_modWave_self _ (by rw [W]; exact lt), wk]
  have still : ((x.modWave k fun w => { w with sgid := sgid }).wave k).waits = false := by rw [self]; exact awake
  have J := L.trans (joinBarriers_wakes _ k joins)
  exact ⟨(J.awake k still).trans self, J.length.trans (by simp [W])⟩

/-- A wave that moves to another group takes the lowest free WAVEID there. -/
theorem moveTo_self {s : State} {k : Nat} (g : Nat) (sgid : BitVec 2) (lt : k < s.waves.length) (awake : (s.wave k).waits = false) :
    (s.moveTo k g sgid).wave k = { s.wave k with group := g, waveid := s.freeWaveid g, sgid := sgid }
      ∧ (s.moveTo k g sgid).waves.length = s.waves.length := by
  unfold State.moveTo
  dsimp only
  have L := leaveBarriers_wakes s k (s.barriersOf (s.wave k) (s.wave k).sgid) fun x =>
    (x.modWave k fun w => { w with group := g, waveid := s.freeWaveid g, sgid := sgid }).dissolve (s.wave k).group
  have W := leftBarriers_waves s (s.wave k) (s.barriersOf (s.wave k) (s.wave k).sgid)
  generalize s.leftBarriers (s.wave k) (s.barriersOf (s.wave k) (s.wave k).sgid) = x at L W
  have wk : x.wave k = s.wave k := by simp only [State.wave, W]
  have self : (x.modWave k fun w => { w with group := g, waveid := s.freeWaveid g, sgid := sgid }).wave k =
      { s.wave k with group := g, waveid := s.freeWaveid g, sgid := sgid } := by
    rw [State.wave_modWave_self _ (by rw [W]; exact lt), wk]
  have still : ((x.modWave k fun w => { w with group := g, waveid := s.freeWaveid g, sgid := sgid }).wave k).waits = false := by
    rw [self]; exact awake
  have gone := dissolve_awake _ (s.wave k).group still
  have J (l : List Nat) := L.trans (joinBarriers_wakes _ k l)
  exact ⟨((J _).awake k (by rw [gone]; exact still)).trans (gone.trans self), (J _).length.trans (by simp [W])⟩

/-- A GJOIN that has changed its wave retires behind it. -/
theorem joined_done {s x : State} {k : Nat} {i : Instr} {w : Wave} (h : Issues s k i) (len : x.waves.length = (issued s k).waves.length)
    (wk : x.wave k = w.noted s.cc) : plain ((x.done k i).wave k) = plain w ∧ ((x.done k i).wave k).pc = w.pc + 8 := by
  obtain ⟨regs, pc⟩ := done_self (x := x) i (by rw [len]; simpa [issued] using h.lt)
  exact ⟨by rw [regs, wk]; rfl, by rw [pc, wk]; rfl⟩

section Gjoin

variable {s : State} {k : Nat} {q : Bool} {a : BitVec 8} {sgid : BitVec 2}

theorem gjoin_own (h : Issues s k (.gjoin q a sgid)) :
    ∃ t, (issued s k).joinNamed k (.gjoin q a sgid) sgid (some (s.wave k).group) = t
      ∧ plain (t.wave k) = plain { s.wave k with sgid := sgid } ∧ (t.wave k).pc = (s.wave k).pc + 8 := by
  have w1 : (issued s k).wave k = (s.wave k).noted s.cc := wave_issued h
  have lt : k < (issued s k).waves.length := by simpa [issued] using h.lt
  have own : (s.wave k).group = ((issued s k).wave k).group := by rw [w1]; rfl
  refine ⟨_, if_pos own, ?_⟩
  split
  · rename_i e
    refine joined_done h rfl ?_
    rw [e, w1]; rfl
  · obtain ⟨wk, len⟩ := changeSubgroup_self sgid lt (awake_issued h).1
    refine joined_done h len ?_
    rw [wk, w1]; rfl

theorem gjoin_own_same (h : Issues s k (.gjoin q a sgid)) (e : sgid = (s.wave k).sgid) :
    (issued s k).joinNamed k (.gjoin q a sgid) sgid (some (s.wave k).group) = (issued s k).done k (.gjoin q a sgid) := by
  have w1 : (issued s k).wave k = (s.wave k).noted s.cc := wave_issued h
  have own : (s.wave k).group = ((issued s k).wave k).group := by rw [w1]; rfl
  refine (if_pos own).trans ?_
  rw [if_pos (by rw [w1]; exact e)]

/-- Whether a group takes a wave (R193): it stands on the wave's cluster, has room, and is of the wave's level. -/
def State.takes (s : State) (w : Wave) (g : Nat) : Prop :=
  (s.group g).clusters.contains w.clid = true ∧ (s.members g).length < (s.group g).capacity ∧ (s.group g).ilevel = s.ilevelOf w

theorem members_issued (h : Issues s k (.gjoin q a sgid)) (g : Nat) : (issued s k).members g = s.members g := by
  have same (j : Nat) : ((issued s k).wave j).group = (s.wave j).group ∧ ((issued s k).wave j).state = (s.wave j).state := by
    by_cases e : j = k
    · subst e; rw [wave_issued h]; exact ⟨rfl, rfl⟩
    · rw [(same_issued s k).waves j e]; exact ⟨rfl, rfl⟩
  simp only [State.members, State.wavesWith, same]
  simp [issued]

theorem refuses_iff (h : Issues s k (.gjoin q a sgid)) (g : Nat) :
    (!((issued s k).group g).clusters.contains ((issued s k).wave k).clid
      || ((issued s k).group g).capacity ≤ ((issued s k).members g).length
      || ((issued s k).group g).ilevel ≠ (issued s k).ilevelOf ((issued s k).wave k)) = true ↔ ¬s.takes (s.wave k) g := by
  have w1 : (issued s k).wave k = (s.wave k).noted s.cc := wave_issued h
  have grp : (issued s k).group g = s.group g := rfl
  have lev : (issued s k).ilevelOf ((s.wave k).noted s.cc) = s.ilevelOf (s.wave k) := rfl
  have clid : ((s.wave k).noted s.cc).clid = (s.wave k).clid := rfl
  rw [w1, members_issued h, grp, lev, clid]
  simp only [State.takes, Bool.or_eq_true, Bool.not_eq_true', decide_eq_true_eq, not_and_or, not_lt, Bool.not_eq_true, or_assoc, ne_eq]

theorem gjoin_refused (h : Issues s k (.gjoin q a sgid)) {g : Nat} (ne : g ≠ (s.wave k).group) (no : ¬s.takes (s.wave k) g) :
    (issued s k).joinNamed k (.gjoin q a sgid) sgid (some g) = (issued s k).trapExec k 0x33 := by
  have w1 : (issued s k).wave k = (s.wave k).noted s.cc := wave_issued h
  have other : ¬g = ((issued s k).wave k).group := by rw [w1]; exact ne
  exact (if_neg other).trans (if_pos ((refuses_iff h g).2 no))

theorem gjoin_moves (h : Issues s k (.gjoin q a sgid)) {g : Nat} (ne : g ≠ (s.wave k).group) (yes : s.takes (s.wave k) g) :
    ∃ t, (issued s k).joinNamed k (.gjoin q a sgid) sgid (some g) = t
      ∧ plain (t.wave k) = plain { s.wave k with group := g, waveid := (issued s k).freeWaveid g, sgid := sgid }
      ∧ (t.wave k).pc = (s.wave k).pc + 8 := by
  have w1 : (issued s k).wave k = (s.wave k).noted s.cc := wave_issued h
  have lt : k < (issued s k).waves.length := by simpa [issued] using h.lt
  have other : ¬g = ((issued s k).wave k).group := by rw [w1]; exact ne
  refine ⟨_, (if_neg other).trans (if_neg ((refuses_iff h g).not.2 (not_not.2 yes))), ?_⟩
  obtain ⟨wk, len⟩ := moveTo_self g sgid lt (awake_issued h).1
  refine joined_done h len ?_
  rw [wk, w1]; rfl

/-- The WAVEID that a joining wave takes, among the members as they stand before its issue. -/
theorem freeWaveid_issued (h : Issues s k (.gjoin q a sgid)) {g : Nat} (yes : s.takes (s.wave k) g) :
    (∀ j ∈ s.members g, (s.wave j).waveid ≠ (issued s k).freeWaveid g)
      ∧ ∀ m, m < (issued s k).freeWaveid g → ∃ j ∈ s.members g, (s.wave j).waveid = m := by
  have same (j : Nat) : ((issued s k).wave j).waveid = (s.wave j).waveid := by
    by_cases e : j = k
    · subst e; rw [wave_issued h]
    · rw [(same_issued s k).waves j e]
  have room : ((issued s k).members g).length < 65 := by
    have := yes.2.1
    rw [members_issued h]
    unfold Group.capacity at this
    split at this <;> omega
  have := freeWaveid_spec room
  simpa only [members_issued h, same] using this

end Gjoin

/-- A deterministic launch refuses GLEAVE and GJOIN (R204). -/
theorem moves_refused {s : State} {k : Nat} {q : Bool} {a : BitVec 8} {sgid : BitVec 2} {i : Instr}
    (hi : i = .gleave q ∨ i = .gjoin q a sgid ∧ ((s.wave k).readS a.toNat).toNat < 2 ^ 38) (h : Issues s k i)
    (det : s.detOf (s.wave k) = true) (m : MayEnter s k) : exec i s = .next ((issued s k).setWave k
      (entered s.cc ((issued s k).wave k) (s.ctx (s.wave k).ctx).tvec 0x60 (s.wave k).exec 0)) := by
  have held : (issued s k).detOf ((issued s k).wave k) = true := by rw [detOf_issued h]; exact det
  rcases hi with rfl | ⟨rfl, low⟩
  · exact traps_of_issue h m rfl (if_pos held)
  · have high : ¬(((issued s k).wave k).readS a.toNat).toNat >>> 38 ≠ 0 := by
      have : ((issued s k).wave k).readS a.toNat = (s.wave k).readS a.toNat := by rw [wave_issued h]; rfl
      rw [this, Nat.shiftRight_eq_div_pow, Nat.div_eq_of_lt low]; simp
    exact traps_of_issue h m rfl ((if_neg high).trans (if_pos held))

/-- Settles O21, by the group that the token names. -/
theorem groupMoves : Obligations.GroupMoves := by
  intro s k q a sgid
  refine ⟨fun h nd => ?leave, fun h nd grpid cluster hg hc token => ⟨fun names e => ?same, fun names => ?own,
    fun g names ne => ⟨fun yes => ?moves, fun no m => ?refused⟩, fun names m => ?unknown⟩, fun i hi h det m => moves_refused hi h det m⟩
  case leave =>
    obtain ⟨t, run, regs, pc, grp, bar⟩ := gleave_detaches h nd
    refine ⟨t, run, ?_, ?_, ?_, pc, ?_⟩
    · have := congrArg Wave.group regs; exact this
    · have := congrArg Wave.waveid regs; exact this
    · have := congrArg Wave.sgid regs; exact this
    · rw [grp]
      refine ⟨rfl, rfl, rfl, rfl, rfl, rfl, fun none b hb e => ?_⟩
      obtain ⟨b', hb', e'⟩ := List.mem_map.1 (bar _ _ (List.mem_map_of_mem hb))
      exact none b' hb' (e'.trans e)
  case same =>
    exact ⟨_, (gjoin_run h nd hg hc token names).trans (congrArg _ (gjoin_own_same h e)), retires_done _ h.lt⟩
  case own =>
    obtain ⟨t, eff, regs, pc⟩ := gjoin_own h
    refine ⟨t, (gjoin_run h nd hg hc token names).trans (congrArg _ eff), ?_, ?_, ?_, pc⟩
    · have := congrArg Wave.group regs; exact this
    · have := congrArg Wave.waveid regs; exact this
    · have := congrArg Wave.sgid regs; exact this
  case moves =>
    obtain ⟨t, eff, regs, pc⟩ := gjoin_moves h ne yes
    obtain ⟨fresh, lowest⟩ := freeWaveid_issued h yes
    have id : (t.wave k).waveid = (issued s k).freeWaveid g := by have := congrArg Wave.waveid regs; exact this
    refine ⟨t, (gjoin_run h nd hg hc token names).trans (congrArg _ eff), ?_, ?_, pc, by rw [id]; exact fresh, by rw [id]; exact lowest⟩
    · have := congrArg Wave.group regs; exact this
    · have := congrArg Wave.sgid regs; exact this
  case refused =>
    rw [gjoin_run h nd hg hc token names, gjoin_refused h ne no, trapExec_enters m h.lt]
  case unknown =>
    rw [gjoin_run h nd hg hc token names, State.joinNamed, trapExec_enters m h.lt]

end Sys2Proof.Machine
end

section
/-! PROOF. Operations at the head of a matrix queue (O28). -/

namespace Sys2Proof.Machine

open Sys2Proof.Safety Sys2Proof.Rules

/-! ### Twins -/

theorem twin_modTwin_self {s : State} {t : Nat} (f : Twin → Twin) (h : t < s.twins.length) : (s.modTwin t f).twin t = f (s.twin t) :=
  getD_modAt_self _ _ _ h

theorem twin_modTwin_ne {s : State} {t j : Nat} (f : Twin → Twin) (h : j ≠ t) : (s.modTwin t f).twin j = s.twin j :=
  getD_modAt_ne _ _ _ h

@[simp] theorem modTwin_length (s : State) (t : Nat) (f : Twin → Twin) : (s.modTwin t f).twins.length = s.twins.length := by simp

/-- The shadow's twin is another one. -/
theorem twin_modShadow (s : State) (t : Nat) (e : MatEntry) (f : MatOp → Twin → Twin) : (s.modShadow t e f).twin t = s.twin t := by
  unfold State.modShadow
  split
  · exact twin_modTwin_ne _ (by omega)
  · rfl

@[simp] theorem modShadow_length (s : State) (t : Nat) (e : MatEntry) (f : MatOp → Twin → Twin) :
    (s.modShadow t e f).twins.length = s.twins.length := by
  unfold State.modShadow
  split <;> simp

@[simp] theorem modShadow_groups (s : State) (t : Nat) (e : MatEntry) (f : MatOp → Twin → Twin) : (s.modShadow t e f).groups = s.groups := by
  unfold State.modShadow
  split <;> rfl

@[simp] theorem modShadow_waves (s : State) (t : Nat) (e : MatEntry) (f : MatOp → Twin → Twin) : (s.modShadow t e f).waves = s.waves := by
  unfold State.modShadow
  split <;> rfl

/-! ### The head retires -/

/-- A wave whose pending writes are those that it had. -/
theorem pending_setWave (s : State) (k j : Nat) {w : Wave} (h : w.pending = (s.wave k).pending) :
    ((s.setWave k w).wave j).pending = (s.wave j).pending := by
  by_cases ne : j = k
  · subst ne
    by_cases lt : j < s.waves.length
    · rw [State.wave_setWave_self _ lt, h]
    · have : (s.setWave j w).waves = s.waves := List.set_eq_of_length_le (Nat.not_lt.1 lt)
      simp only [State.wave, this]
  · rw [State.wave_setWave_ne _ ne]

theorem pending_retireAt (s : State) (k j : Nat) (i : Instr) (p : Priv) (n : VAddr) (e : List Byte) :
    ((s.retireAt k i p n e).wave j).pending = (s.wave j).pending := by
  have C := counted_retireAt s k i p n e
  have R := plain_retired (s.wave k) i p n e (1 ≤ (s.group (s.wave k).group).ilevel) (s.group (s.wave k).group).det
    (s.ctx (s.wave k).ctx).preempting (s.group (s.wave k).group).quantum.toNat
  generalize (s.wave k).retired i p n e (1 ≤ (s.group (s.wave k).group).ilevel) (s.group (s.wave k).group).det
    (s.ctx (s.wave k).ctx).preempting (s.group (s.wave k).group).quantum.toNat = w at C R
  have same : (s.retireAt k i p n e).wave j = (s.setWave k w).wave j := by simp only [State.wave, C.waves]
  rw [same]
  have same : w.pending = (s.wave k).pending := by
    have := congrArg Wave.pending R
    exact this
  exact pending_setWave s k j same

/-- The end of a wait brings no return. -/
theorem pending_unblock (s : State) (k j : Nat) : ((s.unblock k).wave j).pending = (s.wave j).pending := by
  unfold State.unblock
  dsimp only
  split
  · exact (pending_retireAt _ _ _ _ _ _ _).trans (pending_setWave s k j rfl)
  · exact pending_setWave s k j rfl

/-- What the retirement of a head leaves: groups as live as they were, the twins, and every pending write. -/
structure HeadRetired (s t : State) : Prop where
  twins : t.twins = s.twins
  live : ∀ g, (t.group g).live = (s.group g).live
  pending : ∀ j, (t.wave j).pending = (s.wave j).pending

theorem wakeBatches_headRetired (s : State) (g : Nat) : HeadRetired s (s.wakeBatches g) := by
  unfold State.wakeBatches
  dsimp only
  have W := Wakes.unblocks (l := s.wavesWith fun w => w.group == g && w.state == .blocked && match w.wait with
    | .batch n => !((s.group g).batches.map Prod.fst).contains n
    | _ => false) (List.Nodup.filter _ List.nodup_range) (s := s) fun j hj => by
      have := (List.mem_filter.1 hj).2
      simp only [Bool.and_eq_true] at this
      simp [Wave.waits, this.1.2]
  refine ⟨W.twins, fun n => congrArg (fun l : List Group => (l.getD n default).live) W.groups, fun j => ?_⟩
  generalize s.wavesWith _ = l
  clear W
  induction l generalizing s with
  | nil => rfl
  | cons k t ih => exact (ih _).trans (pending_unblock s k j)

theorem live_modGroup (s : State) (g n : Nat) (f : Group → Group) (hf : ∀ x, (f x).live = x.live) :
    ((s.modGroup g f).group n).live = (s.group n).live := by
  have := getD_map' Group.live (modAt f s.groups g) default n
  rw [map_modAt _ _ _ _ hf, getD_map'] at this
  exact this.symm

theorem entryRetired_headRetired (s : State) (g n : Nat) : HeadRetired s (s.entryRetired g n) := by
  unfold State.entryRetired
  dsimp only
  split
  · exact ⟨rfl, fun _ => rfl, fun _ => rfl⟩
  · have W (f : Group → Group) (hf : ∀ x, (f x).live = x.live) : HeadRetired s ((s.modGroup g f).wakeBatches g) := by
      have W := wakeBatches_headRetired (s.modGroup g f) g
      exact ⟨W.twins, fun n => (W.live n).trans (live_modGroup s g n f hf), W.pending⟩
    refine W _ fun x => ?_
    split <;> rfl

/-- A twin whose head, at a tile, has gone: BUSY falls unless another operation on the tile is queued (R26, R208). -/
def Twin.passed (x : Twin) (e : MatEntry) (cc : Nat) : Twin :=
  { x.modMpc e.tile (fun m => { m with busy := (x.queue.drop 1).any fun y => y.mmaOn e.tile }) with
    queue := x.queue.drop 1, roomAt := if 8 ≤ x.queue.length then cc else x.roomAt }

theorem settle_of_running {x : Twin} (h : x.stopped = false) : x.settle = x := by
  simp [Twin.settle, Twin.barred, h]

/-- The head of a twin that works, with an owner that lives, retires and takes nothing else with it. -/
theorem retireHead_running {s : State} {t : Nat} {e : MatEntry} (inPart : t < s.twins.length) (head : (s.twin t).head = some e)
    (stopped : (s.twin t).stopped = false) (owner : ∀ g, (s.twin t).owner = some g → (s.group g).live = true) :
    (s.retireHead t).twin t = (s.twin t).passed e s.cc ∧ ∀ j, ((s.retireHead t).wave j).pending = (s.wave j).pending := by
  let s' := (s.modTwin t fun x => x.passed e s.cc).modTwin t Twin.settle
  have own : s'.twin t = (s.twin t).passed e s.cc :=
    ((twin_modTwin_self _ (by simpa using inPart)).trans (congrArg _ (twin_modTwin_self _ inPart))).trans (settle_of_running stopped)
  have H := entryRetired_headRetired s' e.group e.batch
  have own' : (s'.entryRetired e.group e.batch).twin t = (s.twin t).passed e s.cc :=
    (congrArg (fun l : List Twin => l.getD t default) H.twins).trans own
  have run : s.retireHead t = s'.entryRetired e.group e.batch := by
    unfold State.retireHead
    rw [head]
    refine if_neg fun free => ?_
    have free := (Bool.and_eq_true _ _ ▸ free).2
    have : ((s'.entryRetired e.group e.batch).twin t).owner = (s.twin t).owner := by rw [own']; rfl
    change (match ((s'.entryRetired e.group e.batch).twin t).owner with
      | some g => !((s'.entryRetired e.group e.batch).group g).live
      | none => false) = true at free
    rw [this] at free
    cases hg : (s.twin t).owner with
    | none => simp [hg] at free
    | some g =>
      have live : (s'.group g).live = true := owner g hg
      simp [hg, H.live g, live] at free
  exact ⟨run ▸ own', fun j => run ▸ H.pending j⟩

/-! ### A start -/

/-- The twin whose head begins on a tile. -/
def Twin.begun (x : Twin) (tile : Nat) : Twin :=
  (x.modHead fun e => { e with started := true }).modMpc tile fun m => { m with busy := true }

/-- The twin whose head begins at k-step 0, on zeros unless it accumulates (R210). -/
def Twin.fresh (x : Twin) (tile : Nat) (acc : Bool) : Twin :=
  let y := (x.begun tile).modMpc tile fun m => { m with kstep := 0, ovf := m.ovf && acc }
  { y with tiles := if acc then x.tiles else x.tiles.set tile [] }

theorem head_modMpc (x : Twin) (n : Nat) (f : Mpc → Mpc) : (x.modMpc n f).head = x.head := rfl

theorem head_modHead (x : Twin) (f : MatEntry → MatEntry) : (x.modHead f).head = x.head.map f := by
  unfold Twin.head Twin.modHead
  cases x.queue <;> rfl

theorem mpc_modMpc {x : Twin} {n : Nat} (f : Mpc → Mpc) (h : n < x.mpc.length) : (x.modMpc n f).mpc.getD n {} = f (x.mpc.getD n {}) :=
  getD_modAt_self _ _ _ h

theorem exec_matrixOperationStart {s : State} {tw : Nat} {e : MatEntry} (ready : TwinReady s tw) (head : (s.twin tw).head = some e)
    {tile offA offB ks pa pb leader : Nat} {acc : Bool} (op : e.op = .mma tile offA offB ks pa pb acc leader) (idle : e.started = false) :
    ∃ t, exec (.matrixOperationStart tw) s = .next t
      ∧ t.twin tw = if e.resume then (s.twin tw).begun tile else (s.twin tw).fresh tile acc := by
  refine ⟨_, rfl, ?_⟩
  simp only [head, op, idle, ready.runs, Bool.false_or, Bool.not_true, Bool.false_eq_true, if_false]
  let s₁ := s.modTwin tw fun x => x.begun tile
  have one : s₁.twin tw = (s.twin tw).begun tile := twin_modTwin_self _ ready.inPart
  cases e.resume
  · let s₂ := s₁.modTwin tw fun x => x.modMpc tile fun m => { m with kstep := 0, ovf := m.ovf && acc }
    have two : s₂.twin tw = ((s.twin tw).begun tile).modMpc tile fun m => { m with kstep := 0, ovf := m.ovf && acc } :=
      (twin_modTwin_self _ (by simpa [s₁] using ready.inPart)).trans (congrArg (fun x : Twin => x.modMpc tile fun m => { m with kstep := 0, ovf := m.ovf && acc }) one)
    cases acc
    · exact (twin_modTwin_self _ (by simpa [State.dropAccErrs] using ready.inPart)).trans
        (congrArg (fun x : Twin => { x with tiles := x.tiles.set tile [] }) ((twin_modShadow s₂ tw e _).trans two))
    · simp only [Bool.false_eq_true, if_false, if_true]
      exact (twin_modShadow s₂ tw e _).trans two
  · exact one

/-- An accumulator of a tile that was replaced. -/
theorem accumulator_of_tiles {t : State} {tw tile : Nat} (r c : Nat) {l : List (List (BitVec 32))} {x : List (BitVec 32)}
    (h : (t.twin tw).tiles = l.set tile x) (lt : tile < l.length) : accumulator t tw tile r c = x.getD (128 * r + c) 0 := by
  have : (l.set tile x).getD tile [] = x := by
    rw [List.getD_eq_getElem _ _ (by simpa using lt), List.getElem_set_self]
  unfold accumulator
  rw [h, this]

/-- An MMA.BP starts (R210, R211). -/
theorem matrixStart {s : State} {tw : Nat} {e : MatEntry} (ready : TwinReady s tw) (head : (s.twin tw).head = some e)
    {tile offA offB ks pa pb leader : Nat} {acc : Bool} (op : e.op = .mma tile offA offB ks pa pb acc leader) (idle : e.started = false)
    (lt : tile < 4) :
    ∃ t, exec (.matrixOperationStart tw) s = .next t ∧ (∃ x, (t.twin tw).head = some x ∧ x.started = true ∧ x.op = e.op)
      ∧ ((t.twin tw).mpc.getD tile {}).busy = true
      ∧ (e.resume = true → (t.twin tw).tiles = (s.twin tw).tiles
          ∧ ((t.twin tw).mpc.getD tile {}).kstep = ((s.twin tw).mpc.getD tile {}).kstep)
      ∧ (e.resume = false → ((t.twin tw).mpc.getD tile {}).kstep = 0 ∧ ∀ r c, r < 64 → c < 128 →
          accumulator t tw tile r c = if acc then accumulator s tw tile r c else 0) := by
  obtain ⟨t, run, own⟩ := exec_matrixOperationStart ready head op idle
  have mpcLt : tile < (s.twin tw).mpc.length := ready.mpc ▸ lt
  have begun : ((s.twin tw).begun tile).mpc.getD tile {} = { (s.twin tw).mpc.getD tile {} with busy := true } := mpc_modMpc _ mpcLt
  have begunHead : ((s.twin tw).begun tile).head = some { e with started := true } := by
    unfold Twin.begun
    rw [head_modMpc, head_modHead, head]
    rfl
  refine ⟨t, run, ?_⟩
  cases res : e.resume
  · rw [res, if_neg (by decide)] at own
    have fresh : (t.twin tw).mpc.getD tile {} =
        { (s.twin tw).mpc.getD tile {} with busy := true, kstep := 0, ovf := ((s.twin tw).mpc.getD tile {}).ovf && acc } := by
      rw [own]
      refine (mpc_modMpc _ ?_).trans ?_
      · simpa [Twin.begun, Twin.modMpc, Twin.modHead] using mpcLt
      · rw [begun]
    have tiles : (t.twin tw).tiles = if acc then (s.twin tw).tiles else (s.twin tw).tiles.set tile [] := by rw [own]; rfl
    refine ⟨⟨{ e with started := true }, (congrArg Twin.head own).trans begunHead, rfl, rfl⟩, by rw [fresh], nofun, fun _ => ⟨by rw [fresh], fun r c _ _ => ?_⟩⟩
    cases acc
    · exact accumulator_of_tiles r c tiles (ready.tiles ▸ lt)
    · unfold accumulator
      rw [tiles]
      rfl
  · rw [res, if_pos rfl] at own
    exact ⟨⟨{ e with started := true }, (congrArg Twin.head own).trans begunHead, rfl, rfl⟩, by rw [own, begun], fun _ => ⟨by rw [own]; rfl, by rw [own, begun]⟩, nofun⟩

/-! ### Accesses -/

/-- An access ends with the retirement of its head (R216). -/
theorem exec_tileAccess {s m : State} {tw : Nat} {e : MatEntry} (ready : TwinReady s tw) (head : (s.twin tw).head = some e)
    {f : List (List (BitVec 32)) → List (List (BitVec 32))} {g : List Mpc → List Mpc}
    (run : exec (.tileAccessComplete tw) s = .next (m.retireHead tw)) (inPart : m.twins.length = s.twins.length)
    (groups : m.groups = s.groups)
    (own : m.twin tw = { s.twin tw with tiles := f (s.twin tw).tiles, mpc := g (s.twin tw).mpc }) :
    ∃ t, exec (.tileAccessComplete tw) s = .next t ∧ (t.twin tw).queue = (s.twin tw).queue.drop 1
      ∧ (t.twin tw).tiles = f (s.twin tw).tiles
      ∧ (t.twin tw).mpc = modAt (fun m => { m with busy := ((s.twin tw).queue.drop 1).any fun y => y.mmaOn e.tile }) (g (s.twin tw).mpc) e.tile
      ∧ ∀ j, (t.wave j).pending = (m.wave j).pending := by
  have R := retireHead_running (s := m) (t := tw) (e := e) (inPart ▸ ready.inPart) (by rw [own]; exact head) (by rw [own]; exact ready.stopped)
    fun n hn => by
      rw [own] at hn
      simp only [State.group, groups]
      exact ready.owner n hn
  refine ⟨_, run, ?_, ?_, ?_, R.2⟩ <;> rw [R.1, own] <;> rfl

/-- MZERO zeroes its tile (R216). -/
theorem tileZero {s : State} {tw : Nat} {e : MatEntry} (ready : TwinReady s tw) (head : (s.twin tw).head = some e) {tile : Nat}
    (op : e.op = .zero tile) (lt : tile < 4) : ∃ t, exec (.tileAccessComplete tw) s = .next t
      ∧ (t.twin tw).queue = (s.twin tw).queue.drop 1 ∧ (∀ r c, accumulator t tw tile r c = 0)
      ∧ ((t.twin tw).mpc.getD tile {}).kstep = 0 ∧ ((t.twin tw).mpc.getD tile {}).ovf = false := by
  have tileEq : e.tile = tile := by simp [MatEntry.tile, op]
  let m := ((s.modShadow tw e fun _ x => { x with tiles := x.tiles.set tile [] }).dropAccErrs tw tile fun _ => true).modTwin tw fun x =>
    { x.modMpc tile (fun m => { m with kstep := 0, ovf := false }) with tiles := x.tiles.set tile [] }
  have run : exec (.tileAccessComplete tw) s = .next (m.retireHead tw) := by
    refine congrArg Host.Outcome.next ?_
    simp only [head, op, ready.runs, Bool.not_true, Bool.false_eq_true, if_false]
    rfl
  obtain ⟨t, run, queue, tiles, mpc, -⟩ := exec_tileAccess ready head (f := fun l => l.set tile [])
    (g := fun l => modAt (fun m => { m with kstep := 0, ovf := false }) l tile) run
    (by simp [m, State.dropAccErrs]) (modShadow_groups s tw e _)
    ((twin_modTwin_self _ (by simpa [State.dropAccErrs] using ready.inPart)).trans (congrArg
      (fun x : Twin => { x.modMpc tile (fun m => { m with kstep := 0, ovf := false }) with tiles := x.tiles.set tile [] })
      (twin_modShadow s tw e _)))
  have mpcLt : tile < (s.twin tw).mpc.length := ready.mpc ▸ lt
  have field : (t.twin tw).mpc.getD tile {} = { busy := ((s.twin tw).queue.drop 1).any fun y => y.mmaOn tile, kstep := 0, ovf := false } := by
    rw [mpc, tileEq, getD_modAt_self _ _ _ (by simpa using mpcLt), getD_modAt_self _ _ _ mpcLt]
  exact ⟨t, run, queue, fun r c => accumulator_of_tiles r c tiles (ready.tiles ▸ lt), by rw [field], by rw [field]⟩

/-- Where no accumulator is wrong, a read of a tile goes on at once (R332). -/
theorem readAcc_clean {s : State} (h : s.mem.accErrs = []) (t : Nat) (e : MatEntry) (idx : Nat → Bool) (go : State → State) :
    s.readAcc t e idx go = go ((s.dropAccErrs t e.tile idx).dropAccErrs (t + 2) e.tile idx) := by
  simp [State.readAcc, State.accErrsOf, h]

/-- MWR replaces two rows (R218). -/
theorem tileWrite {s : State} {tw : Nat} {e : MatEntry} (ready : TwinReady s tw) (head : (s.twin tw).head = some e) {tile row : Nat}
    {data : List VReg} (op : e.op = .write tile row data) (lt : tile < 4) :
    ∃ t, exec (.tileAccessComplete tw) s = .next t
      ∧ (t.twin tw).queue = (s.twin tw).queue.drop 1 ∧ (t.twin tw).mpc.map (fun m => (m.kstep, m.ovf)) =
          (s.twin tw).mpc.map (fun m => (m.kstep, m.ovf))
      ∧ ∀ r c, r < 64 → c < 128 → (accumulator t tw tile r c).toNat =
          if r = row ∨ r = row + 1 then elemOf 32 (laneOf (data.getD (2 * (r - row) + c / 64) []) (c % 64 / 2)) (c % 2)
          else (accumulator s tw tile r c).toNat := by
  let idx := fun n => n / 128 == row || n / 128 == row + 1
  let shadow := fun (op : MatOp) (x : Twin) => match op with
    | .write tile row data => { x with tiles := x.tiles.set tile (writeRows (x.tiles.getD tile []) row data) }
    | .mma .. | .zero _ | .read .. => x
  let put := fun x : Twin => { x with tiles := x.tiles.set tile (writeRows (x.tiles.getD tile []) row data) }
  let go (s : State) : State := ((s.modShadow tw e shadow).dropAccErrs tw tile idx).modTwin tw put
  have run : exec (.tileAccessComplete tw) s = .next ((go (if e.resume then s else
      (s.dropAccErrs tw e.tile idx).dropAccErrs (tw + 2) e.tile idx)).retireHead tw) := by
    refine congrArg Host.Outcome.next ?_
    simp only [head, op, ready.runs, Bool.not_true, Bool.false_eq_true, if_false, readAcc_clean ready.accErrs]
    cases e.resume <;> rfl
  have goes : ∀ m : State, m.twins = s.twins → m.groups = s.groups → (go m).twins.length = s.twins.length
      ∧ (go m).groups = s.groups ∧ (go m).twin tw = put (s.twin tw) := fun m ht hg => by
    refine ⟨by simp [go, State.dropAccErrs, ht], (modShadow_groups m tw e shadow).trans hg, ?_⟩
    refine (twin_modTwin_self _ (by simpa [State.dropAccErrs, ht] using ready.inPart)).trans (congrArg put ?_)
    exact (twin_modShadow m tw e shadow).trans (congrArg (fun l : List Twin => l.getD tw default) ht)
  obtain ⟨inPart, groups, own⟩ := goes (if e.resume then s else (s.dropAccErrs tw e.tile idx).dropAccErrs (tw + 2) e.tile idx)
    (by cases e.resume <;> rfl) (by cases e.resume <;> rfl)
  obtain ⟨t, run, queue, tiles, mpc, -⟩ := exec_tileAccess ready head
    (f := fun l => l.set tile (writeRows (l.getD tile []) row data)) (g := id) run inPart groups own
  refine ⟨t, run, queue, ?_, fun r c hr hc => ?_⟩
  · rw [mpc]
    exact map_modAt _ _ _ _ fun _ => rfl
  · rw [accumulator_of_tiles r c tiles (ready.tiles ▸ lt)]
    unfold writeRows
    rw [List.getD_eq_getElem _ _ (by simp; omega), List.getElem_map, List.getElem_range]
    have row' : (128 * r + c) / 128 = r := by omega
    have col' : (128 * r + c) % 128 = c := by omega
    simp only [row', col']
    split
    · unfold rowElem
      rw [BitVec.toNat_ofNat, Nat.mod_eq_of_lt (elemOf_lt 32 _ _)]
    · rfl

/-! ### The registers of an MRD -/

theorem answer_length (s : State) (k tag : Nat) (f : LongWrite → LongWrite) : (s.answer k tag f).waves.length = s.waves.length := by
  simp [State.answer]

theorem pending_answer {s : State} {k : Nat} (tag : Nat) (f : LongWrite → LongWrite) (h : k < s.waves.length) :
    ((s.answer k tag f).wave k).pending = (s.wave k).pending.map fun l => if l.tag = tag && l.need ≠ 0 then f l else l := by
  unfold State.answer
  rw [State.wave_modWave_self _ h]

/-- The twins and the groups stay through an answer. -/
theorem answerRun_frame (s : State) (k tag : Nat) (image shadow : List VReg) :
    (s.answerRun k tag image shadow).twins = s.twins ∧ (s.answerRun k tag image shadow).groups = s.groups := by
  unfold State.answerRun
  generalize List.range image.length = l
  induction l generalizing s with
  | nil => exact ⟨rfl, rfl⟩
  | cons i t ih => exact ih _

/-- A register of an MRD's run that its image reaches (R57, R217, R244). -/
def answered (image shadow : List VReg) (i : Nat) (l : LongWrite) : LongWrite :=
  { l with val := .v (image.getD i []), need := 0
           shadow := if shadow.getD i [] = image.getD i [] then none else some (.v (shadow.getD i [])) }

/-- The register with tag `j` of the run is answered by the `j`-th image, and by no other. -/
theorem answerRun_pending {s : State} {k : Nat} (tag : Nat) (image shadow : List VReg) (h : k < s.waves.length) {n j : Nat} {l : LongWrite}
    (at_ : (s.wave k).pending[n]? = some l) (need : l.need ≠ 0) (lt : j < image.length) (tagged : l.tag = tag + j) :
    ∃ x : LongWrite, ((s.answerRun k tag image shadow).wave k).pending[n]? = some x ∧ x.dst = l.dst ∧ x.need = 0
      ∧ x.val = .v (image.getD j []) := by
  unfold State.answerRun
  generalize hN : image.length = N at lt
  clear hN
  let after (N : Nat) : State := (List.range N).foldl (fun s i => s.answer k (tag + i) (answered image shadow i)) s
  have length : ∀ N, (after N).waves.length = s.waves.length := fun N => by
    induction N with
    | zero => rfl
    | succ N ih =>
      simp only [after, List.range_succ, List.foldl_append, List.foldl_cons, List.foldl_nil, answer_length] at ih ⊢
      exact ih
  have step : ∀ N, ((after (N + 1)).wave k).pending = ((after N).wave k).pending.map fun l =>
      if l.tag = tag + N && l.need ≠ 0 then answered image shadow N l else l := fun N => by
    simp only [after, List.range_succ, List.foldl_append, List.foldl_cons, List.foldl_nil]
    exact pending_answer _ _ (length N ▸ h)
  have before : ∀ N, N ≤ j → ((after N).wave k).pending[n]? = some l := fun N => by
    induction N with
    | zero => exact fun _ => at_
    | succ N ih =>
      intro le
      rw [step, List.getElem?_map, ih (by omega), Option.map_some, if_neg (by simp; omega)]
  change ∃ x, ((after N).wave k).pending[n]? = some x ∧ _
  induction N, lt using Nat.le_induction with
  | base =>
    refine ⟨answered image shadow j l, ?_, rfl, rfl, rfl⟩
    rw [step, List.getElem?_map, before j le_rfl, Option.map_some, if_pos (by simp [tagged, need])]
  | succ N le ih =>
    obtain ⟨x, hx, dst, zero, val⟩ := ih
    exact ⟨x, by rw [step, List.getElem?_map, hx, Option.map_some, if_neg (by simp [zero])], dst, zero, val⟩

/-- An element of the image of two rows (R217). -/
theorem elem_rowImage (value : Nat → Nat → Nat) {j lane sub : Nat} (hj : j < 4) (hl : lane < 32) (hs : sub < 2) :
    elemOf 32 (laneOf ((rowImage value).getD j []) lane) sub = value (j / 2) (64 * (j % 2) + 2 * lane + sub) % 2 ^ 32 := by
  unfold rowImage
  rw [List.getD_eq_getElem _ _ (by simpa using hj), List.getElem_map, List.getElem_range, laneOf_vregOf _ _ hl,
    elemOf_packElems _ _ (by simp)]
  interval_cases sub <;> rfl

/-- MRD delivers two rows (R217). -/
theorem tileRead {s : State} {tw : Nat} {e : MatEntry} (ready : TwinReady s tw) (head : (s.twin tw).head = some e)
    {tile row rowbyte wave tag : Nat} {scales : VReg} {fp32 : Bool} (op : e.op = .read tile row scales rowbyte fp32 wave tag)
    (lt : wave < s.waves.length) :
    ∃ t, exec (.tileAccessComplete tw) s = .next t ∧ (t.twin tw).queue = (s.twin tw).queue.drop 1
      ∧ (t.twin tw).tiles = (s.twin tw).tiles
      ∧ ∀ (n : Nat) (l : LongWrite), (s.wave wave).pending[n]? = some l → l.need ≠ 0 → ∀ j, j < 4 → l.tag = tag + j →
          ∃ x : LongWrite, (t.wave wave).pending[n]? = some x ∧ x.dst = l.dst ∧ x.need = 0 ∧ ∃ v, x.val = .v v ∧ ∀ lane sub, lane < 32 → sub < 2 →
            elemOf 32 (laneOf v lane) sub =
              readValue ((s.twin tw).tiles.getD tile []) row scales rowbyte fp32 (j / 2) (64 * (j % 2) + 2 * lane + sub) % 2 ^ 32 := by
  let idx := fun n => n / 128 == row || n / 128 == row + 1
  let s' := (s.dropAccErrs tw e.tile idx).dropAccErrs (tw + 2) e.tile idx
  let image := rowImage (readValue ((s.twin tw).tiles.getD tile []) row scales rowbyte fp32)
  let m := s'.answerRun wave tag image (s'.shadowImage tw e image)
  have run : exec (.tileAccessComplete tw) s = .next (m.retireHead tw) := by
    refine congrArg Host.Outcome.next ?_
    simp only [head, op, ready.runs, Bool.not_true, Bool.false_eq_true, if_false, readAcc_clean ready.accErrs]
    rfl
  obtain ⟨twins, groups⟩ := answerRun_frame s' wave tag image (s'.shadowImage tw e image)
  obtain ⟨t, run, queue, tiles, -, pending⟩ := exec_tileAccess ready head (f := id) (g := id) run
    (congrArg List.length twins) groups (congrArg (fun l : List Twin => l.getD tw default) twins)
  refine ⟨t, run, queue, tiles, fun n l at_ need j hj tagged => ?_⟩
  obtain ⟨x, hx, dst, zero, val⟩ := answerRun_pending (s := s') tag image (s'.shadowImage tw e image) lt at_ need
    (j := j) (by simpa [image, rowImage] using hj) tagged
  exact ⟨x, pending wave ▸ hx, dst, zero, _, val, fun lane sub hl hs => elem_rowImage _ hj hl hs⟩

theorem readValue_mod (tile : List (BitVec 32)) (row : Nat) (scales : VReg) (rowbyte : Nat) (fp32 : Bool) (i c : Nat) :
    readValue tile row scales rowbyte fp32 i c % 2 ^ 32 = if fp32 then
      scaleAcc (tile.getD (128 * (row + i) + c) 0).toInt (elemOf 8 (laneOf scales ((rowbyte + i) / 8)) ((rowbyte + i) % 8))
        (elemOf 8 (laneOf scales (c / 8)) (c % 8)) % 2 ^ 32
      else (tile.getD (128 * (row + i) + c) 0).toNat := by
  cases fp32
  · exact Nat.mod_eq_of_lt (BitVec.isLt _)
  · rfl

/-- Settles O28: a start changes its twin as `Twin.fresh` and `Twin.begun` say; each access ends with its head (`exec_tileAccess`). -/
theorem tileAccess : Obligations.TileAccess := by
  intro s tw e ready head
  refine ⟨fun _ _ _ _ _ _ _ _ op idle lt => matrixStart ready head op idle lt, fun _ op lt => tileZero ready head op lt,
    fun _ _ _ _ _ _ _ op lt => ?_, fun _ _ _ op lt _ => tileWrite ready head op lt⟩
  obtain ⟨t, run, queue, tiles, answered⟩ := tileRead ready head op lt
  refine ⟨t, run, queue, tiles, fun n l at_ need j hj tagged => ?_⟩
  obtain ⟨x, hx, dst, zero, v, val, elems⟩ := answered n l at_ need j hj tagged
  exact ⟨x, hx, dst, zero, v, val, fun lane sub hl hs => (elems lane sub hl hs).trans (readValue_mod ..)⟩

end Sys2Proof.Machine
end

section
/-! PROOF. SPLD and SPST (O14). -/

namespace Sys2Proof.Machine

open Sys2Proof.Safety Sys2Proof.Rules

/-! ### Masks, and the lowest faulting lane -/

/-- A number made of bits, the lowest first. -/
theorem testBit_foldr (p : Nat → Bool) (l : List Nat) (j : Nat) :
    (l.foldr (fun x n => (p x).toNat + 2 * n) 0).testBit j = (l[j]?.map p).getD false := by
  induction l generalizing j with
  | nil => simp
  | cons x t ih =>
    rw [List.foldr_cons]
    cases j with
    | zero => cases h : p x <;> simp [Nat.testBit_zero, h]
    | succ j =>
      have half : ((p x).toNat + 2 * t.foldr (fun x n => (p x).toNat + 2 * n) 0) / 2 = t.foldr (fun x n => (p x).toNat + 2 * n) 0 := by
        have := Bool.toNat_le (p x)
        omega
      rw [Nat.testBit_succ, half, ih, List.getElem?_cons_succ]

theorem getLsbD_maskOf (p : Nat → Bool) {l : Nat} (h : l < 32) : (maskOf p).getLsbD l = p l := by
  unfold maskOf
  rw [BitVec.getLsbD_ofNat, testBit_foldr, List.getElem?_range (by exact h)]
  simp [h]

/-- The entry with the least key is one of the list, and no key is below it. -/
theorem leastBy_spec {α : Type} (f : α → Nat) (l : List α) :
    (leastBy f l = none ∧ l = []) ∨ ∃ x ∈ l, leastBy f l = some x ∧ ∀ y ∈ l, f x ≤ f y := by
  induction l with
  | nil => exact .inl ⟨rfl, rfl⟩
  | cons h t ih =>
    refine .inr ?_
    unfold leastBy
    obtain ⟨none, nil⟩ | ⟨x, mem, some, least⟩ := ih
    · exact ⟨h, by simp, by rw [none], by simp [nil]⟩
    · rw [some]
      dsimp only
      split
      · next le => exact ⟨h, by simp, rfl, fun y hy => by
          obtain rfl | hy := List.mem_cons.1 hy
          · exact le_rfl
          · exact le.trans (least y hy)⟩
      · next lt => exact ⟨x, by simp [mem], rfl, fun y hy => by
          obtain rfl | hy := List.mem_cons.1 hy
          · omega
          · exact least y hy⟩

/-- With one cause for every lane the trap names the lowest lane's address and every lane (R178). -/
theorem trapOf_one_cause (l : List (Nat × Nat)) (cause : BitVec 7) :
    (l = [] ∧ trapOf (l.map fun e => (e.1, cause, e.2)) none = none)
    ∨ ∃ e ∈ l, (∀ x ∈ l, e.1 ≤ x.1) ∧ trapOf (l.map fun e => (e.1, cause, e.2)) none =
        some { cause := cause, mask := maskOf (l.map Prod.fst).contains, addr := BitVec.ofNat 56 e.2 } := by
  obtain ⟨none, nil⟩ | ⟨x, mem, some, least⟩ := leastBy_spec (fun e : Nat × BitVec 7 × Nat => e.1) (l.map fun e => (e.1, cause, e.2))
  · exact .inl ⟨List.map_eq_nil_iff.1 nil, by simp [trapOf, none]⟩
  · obtain ⟨e, he, rfl⟩ := List.mem_map.1 mem
    refine .inr ⟨e, he, fun y hy => least _ (List.mem_map_of_mem (f := fun e : Nat × Nat => (e.1, cause, e.2)) hy), ?_⟩
    simp [trapOf, some, List.filter_map, Function.comp_def]

/-! ### What an access of a scratchpad reaches -/

/-- The lanes of an access with the bytes that they name. -/
def spLanes (s : State) (w : Wave) (o : MemF) : List (Nat × List Nat) :=
  (spAddrs o w).map fun e => (e.1, spKeys s w o.size.bytes e.2)

theorem spAddrs_lanes (o : MemF) (w : Wave) : (spAddrs o w).map Prod.fst = lanesOf (w.governing o.pn o.pi) := by
  simp [spAddrs, offsetsOf, Function.comp_def]

theorem spAddrs_lt {o : MemF} {w : Wave} {e : Nat × Nat} (h : e ∈ spAddrs o w) : e.1 < 32 :=
  (lanesOf_ok _).2 _ (spAddrs_lanes o w ▸ List.mem_map_of_mem h)

/-- The requests change the queues of the fabric alone (R177). -/
theorem postSp_queues (s : State) (w : Wave) (cls : Nat) (write : Bool) (keys : List Nat) :
    ∃ q, s.postSp w cls write keys = { s with fab := { s.fab with queues := q } } := by
  unfold State.postSp
  dsimp only
  generalize List.filter _ _ = l
  induction l generalizing s with
  | nil => exact ⟨s.fab.queues, rfl⟩
  | cons core t ih =>
    have one (a : Asker) (dest : Nat) : ∃ q, s.postTo a dest write = { s with fab := { s.fab with queues := q } } := by
      unfold State.postTo Fabric.enqueue
      dsimp only
      split <;> exact ⟨_, rfl⟩
    obtain ⟨q, hq⟩ := one { core := s.coreOf w, ctx := w.ctx, cls := cls, umode := w.priv == .u } (core / 4)
    obtain ⟨q', hq'⟩ := ih { s with fab := { s.fab with queues := q } }
    refine ⟨q', Eq.trans ?_ hq'⟩
    rw [List.foldl_cons, hq]
    rfl

/-- The state behind the requests of an issued scratchpad access: other queues in the fabric, and no other change. -/
def queued (s : State) (k : Nat) (q : List PQueue) : State := { issued s k with fab := { s.fab with queues := q } }

theorem wave_queued {s : State} {k : Nat} {i : Instr} (h : Issues s k i) (q : List PQueue) : (queued s k q).wave k = (s.wave k).noted s.cc :=
  wave_issued h

theorem queued_length (s : State) (k : Nat) (q : List PQueue) : (queued s k q).waves.length = s.waves.length := by simp [queued, issued]

/-- The wave's accesses after the notes of its issue. -/
theorem spAddrs_issued {s : State} {k : Nat} {i : Instr} (h : Issues s k i) (o : MemF) :
    spAddrs o ((issued s k).wave k) = spAddrs o (s.wave k) := by
  rw [wave_issued h]
  rfl

theorem spAllowed_issued {s : State} {k : Nat} {i : Instr} (h : Issues s k i) (a : Nat) :
    (issued s k).spAllowed ((issued s k).wave k) a = s.spAllowed (s.wave k) a := by
  rw [wave_issued h]
  rfl

/-- An access whose bytes may all be accessed goes on with them. -/
theorem spAccess_reaches {s : State} {k : Nat} {i : Instr} {o : MemF} (h : Issues s k i) (r : SpReaches s (s.wave k) o) (cls : Nat)
    (write : Bool) :
    ∃ q, ∀ go : State → List (Nat × List Nat) → State, (issued s k).spAccess k cls o.size.bytes write (spAddrs o ((issued s k).wave k)) go =
      go (queued s k q) (spLanes s (s.wave k) o) := by
  obtain ⟨q, hq⟩ := postSp_queues (issued s k) ((issued s k).wave k) cls write ((spLanes s (s.wave k) o).flatMap Prod.snd)
  have none : ((spAddrs o (s.wave k)).filter fun e => ((List.range o.size.bytes).map fun j => (e.2 + j) % 2 ^ 64).any fun b =>
      !(issued s k).spAllowed ((issued s k).wave k) b) = [] := by
    refine List.filter_eq_nil_iff.2 fun e he => ?_
    simp only [spAllowed_issued h, List.any_map, Bool.not_eq_true]
    refine List.any_eq_false.2 fun j hj => ?_
    rw [Function.comp_apply, r e he j (List.mem_range.1 hj)]
    decide
  refine ⟨q, fun go => ?_⟩
  unfold State.spAccess
  dsimp only
  rw [spAddrs_issued h, none]
  have lanes : ((spAddrs o (s.wave k)).map fun e => (e.1, ((List.range o.size.bytes).map fun j => (e.2 + j) % 2 ^ 64).map
      ((issued s k).spKeyOf ((issued s k).wave k)))) = spLanes s (s.wave k) o := by
    rw [wave_issued h]
    simp only [List.map_map]
    rfl
  rw [lanes, hq]
  rfl

/-- An access that reaches a byte that may not be accessed is an SP_RANGE of its lanes (R39). -/
theorem spAccess_traps {s : State} {k : Nat} {i : Instr} {o : MemF} (h : Issues s k i) (r : ¬SpReaches s (s.wave k) o) :
    ∃ (t : Trap) (e : Nat × Nat), e ∈ spAddrs o (s.wave k) ∧ t.cause = 0x11 ∧ t.addr = BitVec.ofNat 56 e.2 ∧ t.mask.getLsbD e.1 = true
      ∧ (∀ l, l < 32 → (t.mask.getLsbD l = true ↔ ∃ x ∈ spAddrs o (s.wave k), x.1 = l ∧ ∃ j, j < o.size.bytes
          ∧ s.spAllowed (s.wave k) ((x.2 + j) % 2 ^ 64) = false))
      ∧ (∀ l, l < e.1 → t.mask.getLsbD l = false) ∧ t.tile = false
      ∧ ∀ cls write go, (issued s k).spAccess k cls o.size.bytes write (spAddrs o ((issued s k).wave k)) go = (issued s k).takeTrap k t := by
  let out (e : Nat × Nat) : Bool := ((List.range o.size.bytes).map fun j => (e.2 + j) % 2 ^ 64).any fun b =>
    !(issued s k).spAllowed ((issued s k).wave k) b
  have out_iff (e : Nat × Nat) : out e = true ↔ ∃ j, j < o.size.bytes ∧ s.spAllowed (s.wave k) ((e.2 + j) % 2 ^ 64) = false := by
    simp only [out, spAllowed_issued h, List.any_map, List.any_eq_true, List.mem_range, Function.comp_apply, Bool.not_eq_true']
  have lane_iff (l : Nat) : (((spAddrs o (s.wave k)).filter out).map Prod.fst).contains l = true ↔ ∃ x ∈ spAddrs o (s.wave k), x.1 = l
      ∧ ∃ j, j < o.size.bytes ∧ s.spAllowed (s.wave k) ((x.2 + j) % 2 ^ 64) = false := by
    rw [List.contains_iff_mem, List.mem_map]
    constructor
    · rintro ⟨x, hx, rfl⟩
      obtain ⟨mem, bad⟩ := List.mem_filter.1 hx
      exact ⟨x, mem, rfl, (out_iff x).1 bad⟩
    · rintro ⟨x, mem, rfl, bad⟩
      exact ⟨x, List.mem_filter.2 ⟨mem, (out_iff x).2 bad⟩, rfl⟩
  obtain ⟨nil, -⟩ | ⟨e, he, least, trap⟩ := trapOf_one_cause ((spAddrs o (s.wave k)).filter out) 0x11
  · refine absurd (fun e he j hj => ?_) r
    by_contra bad
    have := List.filter_eq_nil_iff.1 nil e he
    exact this ((out_iff e).2 ⟨j, hj, by simpa using bad⟩)
  obtain ⟨mem, bad⟩ := List.mem_filter.1 he
  refine ⟨{ cause := 0x11, mask := maskOf (((spAddrs o (s.wave k)).filter out).map Prod.fst).contains, addr := BitVec.ofNat 56 e.2 }, e,
    mem, rfl, rfl, ?_, fun l hl => ?_, fun l hl => ?_, rfl, fun cls write go => ?_⟩
  · rw [getLsbD_maskOf _ (spAddrs_lt mem)]
    exact (lane_iff e.1).2 ⟨e, mem, rfl, (out_iff e).1 bad⟩
  · rw [getLsbD_maskOf _ hl]
    exact lane_iff l
  · rw [getLsbD_maskOf _ (hl.trans (spAddrs_lt mem)), ← Bool.not_eq_true, List.contains_iff_mem, List.mem_map]
    rintro ⟨x, hx, rfl⟩
    exact absurd (least x hx) (by omega)
  · unfold State.spAccess
    dsimp only
    rw [spAddrs_issued h, trap]

/-! ### SPLD -/

/-- A list whose keys are distinct has one entry of each. -/
theorem find?_of_nodup {β : Type} {l : List (Nat × β)} (h : (l.map Prod.fst).Nodup) {e : Nat × β} (he : e ∈ l) :
    l.find? (fun x => x.1 == e.1) = some e := by
  cases hx : l.find? fun x => x.1 == e.1 with
  | none => exact absurd (List.find?_eq_none.1 hx e he) (by simp)
  | some x =>
    have key : x.1 = e.1 := by simpa using List.find?_some hx
    rw [List.inj_on_of_nodup_map h (List.mem_of_find?_eq_some hx) he key]

/-- Where no word of a scratchpad is wrong there is nothing to correct (R332). -/
theorem healSp_clean {s : State} (h : s.mem.spErrs = []) (l : List Nat) (c : State → Nat) :
    l.foldl (fun s word => s.healSp (8 * word) (c s)) s = s := by
  induction l with
  | nil => rfl
  | cons x t ih =>
    have one : s.healSp (8 * x) (c s) = s := by simp [State.healSp, State.spBits, h, lookupD]
    rw [List.foldl_cons, one, ih]

/-- A wave without held effects, where no copy's bytes are veiled, reads the scratchpad as it is. -/
theorem spByte_plain {s : State} {k : Nat} (none : (s.wave k).effects = []) (veils : ∀ l ∈ s.launches, l.spVeils = []) (key : Nat) :
    s.spByte k key = s.readSp key := by
  have own : s.spOwn k = [] := by simp [State.spOwn, none]
  have veil : s.launches.flatMap (fun l => l.spVeils) = [] := List.flatMap_eq_nil_iff.2 veils
  simp [State.spByte, State.spSeen, own, veil, overlayByte]

/-- What SPLD leaves in its register: the lanes' bytes extended, and the inactive lanes as they were. -/
def spValue (s : State) (w : Wave) (o : MemF) : VReg := vregOf fun l =>
  match (spLanes s w o).find? (fun e => e.1 == l) with
  | some e => o.size.extend (ofBytes (e.2.map s.readSp))
  | none => laneOf (w.readV o.d.toNat) l

theorem spValue_active {s : State} {w : Wave} {o : MemF} {e : Nat × Nat} (he : e ∈ spAddrs o w) :
    laneOf (spValue s w o) e.1 = o.size.extend (ofBytes ((spKeys s w o.size.bytes e.2).map s.readSp)) := by
  have nodup : ((spLanes s w o).map Prod.fst).Nodup := by
    have : (spLanes s w o).map Prod.fst = lanesOf (w.governing o.pn o.pi) := by
      rw [← spAddrs_lanes]; simp [spLanes, Function.comp_def]
    exact this ▸ (lanesOf_ok _).1
  have found := find?_of_nodup nodup (List.mem_map_of_mem (f := fun e : Nat × Nat => (e.1, spKeys s w o.size.bytes e.2)) he)
  unfold spValue
  rw [laneOf_vregOf _ _ (spAddrs_lt he), found]

theorem spValue_inactive {s : State} {w : Wave} {o : MemF} {l : Nat} (lt : l < 32) (h : ∀ e ∈ spAddrs o w, e.1 ≠ l) :
    laneOf (spValue s w o) l = laneOf (w.readV o.d.toNat) l := by
  have none : (spLanes s w o).find? (fun e => e.1 == l) = none := by
    refine List.find?_eq_none.2 fun x hx => ?_
    obtain ⟨e, he, rfl⟩ := List.mem_map.1 hx
    simpa using h e he
  unfold spValue
  rw [laneOf_vregOf _ _ lt, none]

theorem spld_runs {s : State} {k : Nat} {o : MemF} (h : Issues s k (.spld o)) (effects : (s.wave k).effects = [])
    (errs : s.mem.spErrs = []) (r : SpReaches s (s.wave k) o) (veils : ∀ l ∈ s.launches, l.spVeils = []) :
    ∃ u, MemorySide (issued s k) u ∧ u.mem = s.mem ∧ u.cores = s.cores
      ∧ Runs (.spld o) s k (u.modWave k fun w => w.long (.v o.d.toNat) (.v (spValue s (s.wave k) o))) := by
  obtain ⟨q, hq⟩ := spAccess_reaches h r o.slack.toNat false
  have bad : ((spLanes s (s.wave k) o).flatMap Prod.snd).filter (queued s k q).spBad = [] := by
    refine List.filter_eq_nil_iff.2 fun key _ => ?_
    have : (queued s k q).spBits key = [] := by simp [State.spBits, queued, issued, errs, lookupD]
    simp [State.spBad, this]
  have value : (vregOf fun l => match (spLanes s (s.wave k) o).find? (fun e => e.1 == l) with
      | some e => o.size.extend (ofBytes (e.2.map ((queued s k q).spByte k)))
      | none => laneOf (((queued s k q).wave k).readV o.d.toNat) l) = spValue s (s.wave k) o := by
    have byte : (queued s k q).spByte k = s.readSp := funext fun key =>
      spByte_plain (s := queued s k q) (by rw [wave_queued h]; exact effects) veils key
    rw [byte, wave_queued h]
    rfl
  refine ⟨queued s k q, ⟨rfl, rfl, rfl, rfl, rfl, rfl⟩, rfl, rfl, runs_of_done (body := fun k s => _) h rfl
    (by simpa using queued_length s k q) ?_⟩
  refine (hq _).trans ?_
  dsimp only
  rw [bad, if_neg (by simp), healSp_clean (s := queued s k q) errs _ fun s => (s.wave k).ctx,
    State.modWave_eq_setWave _ (queued_length s k q ▸ h.lt), ← value]
  rfl

/-! ### SPST -/

/-- What SPST writes: each active lane's low bytes at its address (R175, R177). -/
def spBytes (s : State) (w : Wave) (o : MemF) : List (Nat × Byte) :=
  storeBytes o.size.bytes (spLanes s w o) (laneOf (w.readV o.d.toNat))

/-- The store of an SPST after its access. -/
theorem spst_eff {s : State} {k : Nat} {o : MemF} (h : Issues s k (.spst o)) (r : SpReaches s (s.wave k) o) :
    ∃ q, exec (.spst o) s = .next (((queued s k q).spStore k (spBytes s (s.wave k) o)).done k (.spst o)) := by
  obtain ⟨q, hq⟩ := spAccess_reaches h r o.slack.toNat true
  have run : exec (.spst o) s = issue (.spst o) s _ := rfl
  refine ⟨q, (run.trans (issue_runs _ h)).trans (congrArg _ ((hq _).trans ?_))⟩
  rw [wave_issued h]
  rfl

/-- An instruction that ends by retiring leaves what its own effect left. -/
theorem runs_of_exec_done {s u : State} {k : Nat} {i : Instr} (h : Issues s k i) (len : u.waves.length = s.waves.length)
    (eff : exec i s = .next (u.done k i)) : Runs i s k u :=
  ⟨_, eff, retires_retireAt i _ [] (len ▸ h.lt) ⟨rfl, rfl, fun _ _ => rfl⟩ rfl rfl rfl⟩

/-- A checked pair notes the blocks that are written, in its acorn store alone (R342). -/
theorem noteBlocks_pair (s : State) (p : Nat) (keys : List Nat) (j : Nat) :
    { (s.noteBlocks p keys).pair j with snapshot := none } = { s.pair j with snapshot := none } := by
  let bare (x : Pair) : Pair := { x with snapshot := none }
  have same : (s.noteBlocks p keys).jalti.pairs.map bare = s.jalti.pairs.map bare := map_modAt _ _ _ _ fun _ => rfl
  calc bare ((s.noteBlocks p keys).pair j) = ((s.noteBlocks p keys).jalti.pairs.map bare).getD j (bare default) := (getD_map' ..).symm
    _ = (s.jalti.pairs.map bare).getD j (bare default) := by rw [same]
    _ = bare (s.pair j) := getD_map' ..

/-- Scratchpad bytes written, on a checked pair noted before and on both clusters (R338, R342). -/
def spWritten (v : State) (checked : Bool) (p : Nat) (bytes : List (Nat × Byte)) : State :=
  (if checked then v.noteBlocks p (bytes.map Prod.fst) else v).writeSpBoth checked bytes

/-- A write of the scratchpad changes the scratchpads with their errors, and on a checked pair the acorn store's blocks. -/
theorem spWritten_eq (v : State) (checked : Bool) (p : Nat) (bytes : List (Nat × Byte)) :
    spWritten v checked p bytes = { v with
      mem := { v.mem with sp := (spWritten v checked p bytes).mem.sp, spErrs := (spWritten v checked p bytes).mem.spErrs }
      jalti := if checked then { v.jalti with pairs := (spWritten v checked p bytes).jalti.pairs } else v.jalti } := by
  cases checked <;> rfl

theorem spWritten_pair (v : State) (checked : Bool) (p : Nat) (bytes : List (Nat × Byte)) (j : Nat) :
    { (spWritten v checked p bytes).pair j with snapshot := none } = { v.pair j with snapshot := none } := by
  cases checked
  · rfl
  · exact noteBlocks_pair v p (bytes.map Prod.fst) j

theorem spWritten_length (v : State) (checked : Bool) (p : Nat) (bytes : List (Nat × Byte)) :
    (spWritten v checked p bytes).waves.length = v.waves.length := by
  cases checked <;> rfl

/-- The level that decides whether a write is noted is the one that decides where it goes. -/
theorem spWritten_checked (v : State) (w : Wave) (bytes : List (Nat × Byte)) :
    (if v.checked w then v.noteBlocks (v.pairOf w) (bytes.map Prod.fst) else v).writeSpBoth
      ((if v.checked w then v.noteBlocks (v.pairOf w) (bytes.map Prod.fst) else v).checked w) bytes =
      spWritten v (v.checked w) (v.pairOf w) bytes := by
  have same : (v.noteBlocks (v.pairOf w) (bytes.map Prod.fst)).checked w = v.checked w := rfl
  unfold spWritten
  split
  · rw [same]
  · rfl

theorem readSp_spWritten {v : State} (wf : Memory.wf v.mem.sp = true) (checked : Bool) (p : Nat) (bytes : List (Nat × Byte)) (key : Nat) :
    (spWritten v checked p bytes).readSp key =
      (lastByte (if checked then bytes ++ bytes.map fun e => (e.1 + 2 ^ 22, e.2) else bytes) key).getD (v.readSp key) := by
  cases checked <;> exact read_writeAll _ _ wf

theorem spst_holds {s : State} {k : Nat} {o : MemF} (h : Issues s k (.spst o)) (r : SpReaches s (s.wave k) o)
    (holds : s.holdsOf (s.wave k) = true) :
    ∃ u : State, u = { issued s k with fab := { s.fab with queues := u.fab.queues } }
      ∧ Runs (.spst o) s k (u.modWave k fun w => { w with effects := w.effects ++ [.sp (spBytes s (s.wave k) o)] }) := by
  obtain ⟨q, eff⟩ := spst_eff h r
  have held : (queued s k q).holdsOf ((queued s k q).wave k) = true := by rw [wave_queued h]; exact holds
  refine ⟨queued s k q, rfl, runs_of_exec_done h (by simpa using queued_length s k q) (eff.trans ?_)⟩
  unfold State.spStore
  rw [if_pos held]

/-- The state of an SPST that is performed at once, before its bytes: a handler's in a deterministic launch makes the wave's held
bytes at their places give way (R175, R204). -/
def spstBase (s : State) (k : Nat) (bytes : List (Nat × Byte)) : State :=
  if s.detOf (s.wave k) then (issued s k).modWave k fun w => w.overtake true (bytes.map Prod.fst) else issued s k

theorem spst_writes {s : State} {k : Nat} {o : MemF} (h : Issues s k (.spst o)) (wf : Memory.wf s.mem.sp = true)
    (r : SpReaches s (s.wave k) o) (holds : s.holdsOf (s.wave k) = false) :
    ∃ u : State,
        u = { spstBase s k (spBytes s (s.wave k) o) with
              mem := { s.mem with sp := u.mem.sp, spErrs := u.mem.spErrs }, fab := { s.fab with queues := u.fab.queues }
              jalti := if s.checked (s.wave k) then { s.jalti with pairs := u.jalti.pairs } else s.jalti }
      ∧ (∀ j, { u.pair j with snapshot := none } = { s.pair j with snapshot := none })
      ∧ Runs (.spst o) s k u
      ∧ ∀ key, u.readSp key = (lastByte (onClusters s (s.wave k) (spBytes s (s.wave k) o)) key).getD (s.readSp key) := by
  obtain ⟨q, eff⟩ := spst_eff h r
  generalize spBytes s (s.wave k) o = bytes at eff ⊢
  let v : State := if s.detOf (s.wave k) then (queued s k q).modWave k fun w => w.overtake true (bytes.map Prod.fst) else queued s k q
  have eq : (queued s k q).spStore k bytes = spWritten v (s.checked (s.wave k)) (s.pairOf (s.wave k)) bytes := by
    unfold State.spStore
    rw [wave_queued h]
    refine (if_neg (by rw [show (queued s k q).holdsOf ((s.wave k).noted s.cc) = false from holds]; decide)).trans ?_
    have det : (queued s k q).detOf ((s.wave k).noted s.cc) = s.detOf (s.wave k) := rfl
    simp only [det, v]
    cases s.detOf (s.wave k)
    · simp only [Bool.false_eq_true, if_false]
      exact spWritten_checked (queued s k q) ((s.wave k).noted s.cc) bytes
    · simp only [if_true]
      exact spWritten_checked _ ((s.wave k).noted s.cc) bytes
  rw [eq] at eff
  have len : (spWritten v (s.checked (s.wave k)) (s.pairOf (s.wave k)) bytes).waves.length = s.waves.length := by
    rw [spWritten_length]
    simp only [v]
    split <;> simp [queued_length]
  refine ⟨_, ?_, ?_, runs_of_exec_done h len eff, ?_⟩
  · refine (spWritten_eq v _ _ bytes).trans ?_
    simp only [v, spstBase]
    cases s.detOf (s.wave k) <;> cases s.checked (s.wave k) <;> rfl
  · refine fun j => (spWritten_pair v _ _ bytes j).trans ?_
    simp only [v]
    cases s.detOf (s.wave k) <;> rfl
  · have sp : v.mem = s.mem := by
      simp only [v]
      split <;> rfl
    refine fun key => (readSp_spWritten (sp ▸ wf) _ _ bytes key).trans ?_
    simp only [State.readSp, sp]
    rfl

/-- Settles O14: each access goes on with its lanes (`spAccess_reaches`) or is an SP_RANGE of those that leave (`spAccess_traps`). -/
theorem scratchpadAccess : Obligations.ScratchpadAccess := by
  refine ⟨fun s k o h effects errs r veils => ?_, fun s k o h wf r => ⟨spst_writes h wf r, spst_holds h r⟩, fun s k i o hi h m r => ?_⟩
  · obtain ⟨u, side, mem, cores, runs⟩ := spld_runs h effects errs r veils
    exact ⟨u, spValue s (s.wave k) o, side, mem, cores, runs, fun e he => spValue_active he, fun l lt ne => spValue_inactive lt ne⟩
  · obtain ⟨t, e, mem, cause, addr, lane, lanes, lower, tile, eff⟩ := spAccess_traps h r
    refine ⟨t, e, mem, cause, addr, lane, lanes, lower, ?_⟩
    have traps : (issued s k).takeTrap k t = (issued s k).setWave k
        (entered s.cc ((issued s k).wave k) (s.ctx (s.wave k).ctx).tvec t.cause t.mask t.addr) := by
      rw [takeTrap_enters (mayEnter_issued m h.lt), wave_issued h, tile]
      rfl
    obtain rfl | rfl := hi
    · have run : exec (.spld o) s = issue (.spld o) s _ := rfl
      exact (run.trans (issue_runs _ h)).trans (congrArg _ ((eff _ _ _).trans traps))
    · have run : exec (.spst o) s = issue (.spst o) s _ := rfl
      exact (run.trans (issue_runs _ h)).trans (congrArg _ ((eff _ _ _).trans traps))

end Sys2Proof.Machine
end

section
/-! PROOF. The end of an epoch (O40): what its steps leave of the waves and of the launches. -/

namespace Sys2Proof.Machine

open Sys2Proof.Safety Sys2Proof.Rules

/-! ### The order of commits -/

theorem insertBy_perm {α : Type} (f : α → Nat) (x : α) (l : List α) : (insertBy f x l).Perm (x :: l) := by
  induction l with
  | nil => exact .refl _
  | cons h t ih =>
    unfold insertBy
    split
    · exact .refl _
    · exact (ih.cons h).trans (.swap ..)

theorem sortBy_perm {α : Type} (f : α → Nat) (l : List α) : (sortBy f l).Perm l := by
  have insert (l acc : List α) : (l.foldl (fun acc x => insertBy f x acc) acc).Perm (l ++ acc) := by
    induction l generalizing acc with
    | nil => exact .refl _
    | cons x t ih => exact ((ih _).trans ((insertBy_perm f x acc).append_left t)).trans List.perm_middle
  simpa [sortBy] using insert l []

theorem nodup_commitOrder (s : State) (l : Nat) : (s.commitOrder l).Nodup :=
  (sortBy_perm _ _).nodup_iff.2 (List.Nodup.filter _ List.nodup_range)

theorem mem_commitOrder {s : State} {l k : Nat} : k ∈ s.commitOrder l ↔ k < s.waves.length ∧ (s.wave k).launch = l := by
  unfold State.commitOrder
  rw [(sortBy_perm _ _).mem_iff, wave_wavesWith, beq_iff_eq]

/-- Entries named after their places keep the order of the places. -/
theorem sublist_of_filterMap {g : Nat → Option (Nat × Nat)} (h : ∀ k e, g k = some e → e.1 = k) {l : List Nat} :
    ((l.filterMap g).map Prod.fst).Sublist l := by
  induction l with
  | nil => exact .slnil
  | cons k t ih =>
    cases hk : g k with
    | none => rw [List.filterMap_cons_none hk]; exact ih.cons k
    | some e => rw [List.filterMap_cons_some hk, List.map_cons, h k e hk]; exact ih.cons_cons k

/-- A grant touches its own wave alone. -/
theorem wave_grantClaim_ne (s : State) (k n : Nat) {j : Nat} (h : j ≠ k) : (s.grantClaim k n).wave j = s.wave j :=
  (wave_unblock_ne _ k j h).trans (State.wave_modWave_ne _ h)

/-! ### The relation -/

/-- A wave that may issue or is about to trap, and waits for nothing. -/
def Wave.calm (w : Wave) : Prop := (w.state = .ready ∨ w.state = .parked) ∧ w.wait = .nothing ∧ w.stalled = none

/-- A wave `w'` of the same launch as `w`, without an effect that `w` had not; where `strict` holds, calm and at its place in its
quantum if `w` was calm. -/
structure Keeping (strict : Prop) (w w' : Wave) : Prop where
  launch : w'.launch = w.launch
  effects : w'.effects = w.effects ∨ w'.effects = []
  calm : strict → w.calm → w'.calm ∧ w'.pc = w.pc ∧ w'.qidx = w.qidx ∧ w'.quantumEnded = w.quantumEnded

theorem Keeping.refl (p : Prop) (w : Wave) : Keeping p w w := ⟨rfl, .inl rfl, fun _ c => ⟨c, rfl, rfl, rfl⟩⟩

/-- What a step within an epoch end may change of a wave only as `Keeping` says. -/
def Wave.kept (w : Wave) : Wave :=
  { (default : Wave) with
    launch := w.launch, effects := w.effects, state := w.state, wait := w.wait, stalled := w.stalled, pc := w.pc, qidx := w.qidx
    quantumEnded := w.quantumEnded }

theorem Keeping.of_kept {p : Prop} {w w' : Wave} (h : w'.kept = w.kept) : Keeping p w w' where
  launch := by have := congrArg Wave.launch h; exact this
  effects := .inl (by have := congrArg Wave.effects h; exact this)
  calm _ c := by
    have calm := congrArg Wave.calm h
    have pc := congrArg Wave.pc h
    have qidx := congrArg Wave.qidx h
    have ended := congrArg Wave.quantumEnded h
    exact ⟨calm.mpr c, pc, qidx, ended⟩

theorem Keeping.trans {p : Prop} {a b c : Wave} (h : Keeping p a b) (g : Keeping p b c) : Keeping p a c where
  launch := g.launch.trans h.launch
  effects := by
    obtain e | e := g.effects
    · exact h.effects.imp e.trans e.trans
    · exact .inr e
  calm strict ca := by
    obtain ⟨cb, pc, qidx, ended⟩ := h.calm strict ca
    obtain ⟨cc, pc', qidx', ended'⟩ := g.calm strict cb
    exact ⟨cc, pc'.trans pc, qidx'.trans qidx, ended'.trans ended⟩

/-- `t` follows `s` within an epoch end: its launches are in their epochs, its waves have gone on as `Keeping` says, strictly those
of `K`, and those that it adds have no effects. -/
structure Onward (K : Nat → Prop) (s t : State) : Prop where
  longer : s.waves.length ≤ t.waves.length
  epochs : t.launches.map Launch.epoch = s.launches.map Launch.epoch
  waves : ∀ j, j < s.waves.length → Keeping (K j) (s.wave j) (t.wave j)
  fresh : ∀ j, s.waves.length ≤ j → j < t.waves.length → (t.wave j).effects = []

namespace Onward

variable {K : Nat → Prop}

theorem trans {s t u : State} (h : Onward K s t) (g : Onward K t u) : Onward K s u where
  longer := h.longer.trans g.longer
  epochs := g.epochs.trans h.epochs
  waves j lt := (h.waves j lt).trans (g.waves j (lt.trans_le h.longer))
  fresh j le lt := by
    by_cases old : j < t.waves.length
    · obtain e | e := (g.waves j old).effects
      · exact e.trans (h.fresh j le old)
      · exact e
    · exact g.fresh j (Nat.not_lt.1 old) lt

/-- Waves as they were, and launches in their epochs. -/
theorem of_same {s t : State} (w : t.waves = s.waves) (e : t.launches.map Launch.epoch = s.launches.map Launch.epoch) : Onward K s t where
  longer := by rw [w]
  epochs := e
  waves j _ := by
    have : t.wave j = s.wave j := by simp only [State.wave, w]
    rw [this]
    exact .refl _ _
  fresh j le lt := absurd lt (by rw [w]; omega)

theorem refl (s : State) : Onward K s s := of_same rfl rfl

theorem of_counted {s t : State} (h : Counted s t) : Onward K s t :=
  of_same h.waves (by have := congrArg State.launches h.rest; exact congrArg _ this)

theorem of_side {s t : State} (h : MemorySide s t) : Onward K s t := by
  refine of_same h.waves ?_
  have := congrArg (List.map Launch.epoch) h.launches
  simpa only [List.map_map, Function.comp_def, quietLaunch] using this

theorem of_modLaunch (s : State) (l : Nat) {f : Launch → Launch} (hf : ∀ x, (f x).epoch = x.epoch) : Onward K s (s.modLaunch l f) :=
  of_same rfl (map_modAt _ _ _ _ hf)

/-- One wave changed. -/
theorem of_wave {s t : State} {k : Nat} (length : t.waves.length = s.waves.length) (e : t.launches.map Launch.epoch = s.launches.map Launch.epoch)
    (others : ∀ j, j ≠ k → t.wave j = s.wave j) (h : k < s.waves.length → Keeping (K k) (s.wave k) (t.wave k)) : Onward K s t where
  longer := length.ge
  epochs := e
  waves j lt := by
    by_cases ne : j = k
    · subst ne; exact h lt
    · rw [others j ne]; exact .refl _ _
  fresh j le lt := by omega

theorem of_modWave {s : State} {k : Nat} {f : Wave → Wave} (h : Keeping (K k) (s.wave k) (f (s.wave k))) : Onward K s (s.modWave k f) :=
  of_wave (k := k) (by simp) rfl (fun _ ne => State.wave_modWave_ne f ne) fun lt => by rw [State.wave_modWave_self f lt]; exact h

/-! ### Closure -/

theorem snd {α : Type} {s t : State} {a : α} {p : α × State} (hp : Onward K s p.2) (e : p = (a, t)) : Onward K s t := by
  subst e; exact hp

section Closure

variable {s t u : State} (h : Onward K s t)
include h

theorem frame (same : u.waves = t.waves ∧ u.launches = t.launches) : Onward K s u := h.trans (of_same same.1 (by rw [same.2]))

theorem side (g : MemorySide t u) : Onward K s u := h.trans (of_side g)

theorem count {c event n : Nat} {m : Bool} : Onward K s (t.count c event n m) := h.trans (of_counted (counted_count _ _ _ _ _))

theorem modLaunch {l : Nat} {f : Launch → Launch} (hf : ∀ x, (f x).epoch = x.epoch) : Onward K s (t.modLaunch l f) :=
  h.trans (of_modLaunch t l hf)

theorem modWave {k : Nat} {f : Wave → Wave} (hf : ∀ w, (f w).kept = w.kept) : Onward K s (t.modWave k f) := h.trans (of_modWave (.of_kept (hf _)))

theorem withCopies {c : List CopyQueue} : Onward K s { t with copies := c } := h.frame (by exact ⟨rfl, rfl⟩)

theorem modPair {p : Nat} {f : Pair → Pair} : Onward K s (t.modPair p f) := h.frame (by exact ⟨rfl, rfl⟩)

theorem ite {c : Prop} {_ : Decidable c} (g : Onward K s u) : Onward K s (if c then t else u) := by
  split
  · exact h
  · exact g

theorem thenDo {c : Prop} {_ : Decidable c} (f : Onward K s t → Onward K s u) : Onward K s (if c then u else t) := by
  split
  · exact f h
  · exact h

theorem elseDo {c : Prop} {_ : Decidable c} (f : Onward K s t → Onward K s u) : Onward K s (if c then t else u) := by
  split
  · exact h
  · exact f h

theorem foldl {α : Type} {f : State → α → State} {l : List α} (hf : ∀ {t x}, x ∈ l → Onward K s t → Onward K s (f t x)) :
    Onward K s (l.foldl f t) := by
  induction l generalizing t with
  | nil => exact h
  | cons x l ih => exact ih (hf (List.mem_cons_self ..) h) fun hx => hf (List.mem_cons_of_mem _ hx)

/-- A fold that carries a note beside the state. -/
theorem foldl_fst {α β : Type} {f : State × β → α → State × β} {l : List α}
    (hf : ∀ {p x}, x ∈ l → Onward K s p.1 → Onward K s (f p x).1) {b : β} : Onward K s (l.foldl f (t, b)).1 := by
  suffices ∀ p : State × β, Onward K s p.1 → Onward K s (l.foldl f p).1 from this (t, b) h
  clear h
  induction l with
  | nil => exact fun _ hp => hp
  | cons x l ih => exact fun p hp => ih (fun hx => hf (List.mem_cons_of_mem _ hx)) _ (hf (List.mem_cons_self ..) hp)

end Closure

/-! ### Waits that end, and traps -/

theorem keeping_retireAt {s : State} {k : Nat} (i : Instr) (p : Priv) (n : VAddr) (e : List Byte) {w : Wave} (lt : k < s.waves.length)
    (launch : (s.wave k).launch = w.launch) (effects : (s.wave k).effects = w.effects) (waits : K k → ¬w.calm) :
    Keeping (K k) w ((s.retireAt k i p n e).wave k) := by
  have C := counted_retireAt s k i p n e
  have R := plain_retired (s.wave k) i p n e (1 ≤ (s.group (s.wave k).group).ilevel) (s.group (s.wave k).group).det
    (s.ctx (s.wave k).ctx).preempting (s.group (s.wave k).group).quantum.toNat
  generalize (s.wave k).retired i p n e (1 ≤ (s.group (s.wave k).group).ilevel) (s.group (s.wave k).group).det
    (s.ctx (s.wave k).ctx).preempting (s.group (s.wave k).group).quantum.toNat = x at C R
  have same : (s.retireAt k i p n e).wave k = x := by
    simp only [State.wave, C.waves]
    exact State.wave_setWave_self x lt
  have launch' : x.launch = (s.wave k).launch := by have := congrArg Wave.launch R; exact this
  have effects' : x.effects = (s.wave k).effects := by have := congrArg Wave.effects R; exact this
  rw [same]
  exact ⟨launch'.trans launch, .inl (effects'.trans effects), fun strict c => absurd c (waits strict)⟩

theorem epochs_retireAt (s : State) (k : Nat) (i : Instr) (p : Priv) (n : VAddr) (e : List Byte) :
    (s.retireAt k i p n e).launches = s.launches := by
  have := congrArg State.launches (counted_retireAt s k i p n e).rest
  exact this

theorem length_retireAt (s : State) (k : Nat) (i : Instr) (p : Priv) (n : VAddr) (e : List Byte) :
    (s.retireAt k i p n e).waves.length = s.waves.length := by
  rw [(counted_retireAt s k i p n e).waves]; simp

theorem retireAt {s : State} {k : Nat} (i : Instr) (p : Priv) (n : VAddr) (e : List Byte) (waits : K k → ¬(s.wave k).calm) :
    Onward K s (s.retireAt k i p n e) :=
  of_wave (length_retireAt ..) (by rw [epochs_retireAt])
    (fun j ne => by
      have C := counted_retireAt s k i p n e
      simp only [State.wave, C.waves]
      exact State.wave_setWave_ne _ ne)
    fun lt => keeping_retireAt i p n e lt rfl rfl waits

/-- The wait of a wave ends that was not calm. -/
theorem unblock {s : State} {k : Nat} (waits : K k → ¬(s.wave k).calm) : Onward K s (s.unblock k) := by
  let s' := s.setWave k { s.wave k with state := (s.wave k).home, wait := .nothing, stalled := none, eligibleSince := s.cc }
  have self (lt : k < s.waves.length) : s'.wave k =
      { s.wave k with state := (s.wave k).home, wait := .nothing, stalled := none, eligibleSince := s.cc } := State.wave_setWave_self _ lt
  refine of_wave (k := k) ?_ ?_ (fun j ne => wave_unblock_ne s k j ne) fun lt => ?_
  all_goals
    unfold State.unblock
    dsimp only
    split
  · exact (length_retireAt s' ..).trans (by simp [s'])
  · simp
  · rw [epochs_retireAt]; rfl
  · rfl
  · exact keeping_retireAt (s := s') _ _ _ _ (by simpa [s'] using lt) (by rw [self lt]) (by rw [self lt]) waits
  · rw [self lt]
    exact ⟨rfl, .inl rfl, fun strict c => absurd c (waits strict)⟩

section Closure

variable {s t : State} (h : Onward K s t)
include h

theorem postTrap {k : Nat} {x : Trap} : Onward K s (t.postTrap k x) :=
  h.trans (of_modWave ⟨rfl, .inl rfl, fun _ _ => ⟨⟨.inr rfl, rfl, rfl⟩, rfl, rfl, rfl⟩⟩)

theorem answer {k tag : Nat} {f : LongWrite → LongWrite} : Onward K s (t.answer k tag f) :=
  h.modWave fun _ => rfl

/-! ### Appends -/

theorem append {r : EmitReq} : Onward K s (t.append r) := .count (.foldl (h.frame (by exact ⟨rfl, rfl⟩)) fun _ h => h.frame (by exact ⟨rfl, rfl⟩))

theorem resumeEmit {r : EmitReq} {full : Bool} : Onward K s (t.resumeEmit r full) := by
  have go (d : BitVec 8) (waits : (t.wave r.wave).stalled ≠ none) : Onward K s
      ((t.modWave r.wave fun w => w.long (.p d.toNat) (.p (emitResult (w.readP d.toNat) r.mask full))).unblock r.wave) := by
    refine (h.modWave (k := r.wave) (f := fun w => w.long (.p d.toNat) (.p (emitResult (w.readP d.toNat) r.mask full))) fun _ => rfl).trans (unblock fun _ c => waits ?_)
    have stalled := c.2.2
    by_cases lt : r.wave < t.waves.length
    · rwa [State.wave_modWave_self _ lt] at stalled
    · rwa [show t.modWave r.wave _ = t from congrArg (fun w => { t with waves := w }) (modAt_oob _ _ (Nat.not_lt.1 lt))] at stalled
  unfold State.resumeEmit
  dsimp only
  split
  · next h => exact go _ (by simp [h])
  · next h => exact go _ (by simp [h])
  · exact h

theorem commitEmit {k : Nat} {r : EmitReq} : Onward K s (t.commitEmit k r) := by
  unfold State.commitEmit
  split
  · exact ((h.frame (u := t.takeRoom r) (by exact ⟨rfl, rfl⟩)).side (side_postTo _ _ _ _)).append.resumeEmit
  · split
    · exact h.frame (by exact ⟨rfl, rfl⟩)
    · exact h.resumeEmit
    · exact h.postTrap

theorem commitSeeds {g : Nat} : Onward K s (t.commitSeeds g) :=
  .foldl_fst (h.frame (by exact ⟨rfl, rfl⟩)) fun _ h => by
    dsimp only
    split
    · exact (h.frame (by exact ⟨rfl, rfl⟩)).append
    · exact h.frame (by exact ⟨rfl, rfl⟩)

/-! ### Effects -/

theorem invalSector {a : Asker} {sec : Nat} : Onward K s (t.invalSector a sec) := h.side (side_invalSector _ _ _)
theorem rdcDrop {sec : Nat} : Onward K s (t.rdcDrop sec) := h.side (side_rdcDrop _ _)
theorem post {a : Asker} {sec : Nat} {write : Bool} : Onward K s (t.post a sec write) := h.side (side_post _ _ _ _)
theorem heal {sec owner : Nat} : Onward K s (t.heal sec owner) := h.side (side_heal _ _ _)
theorem writeHome {l : List (Nat × Byte)} : Onward K s (t.writeHome l) := h.side (side_writeHome _ _)
theorem markWriters {l grpid : Nat} {pas : List Nat} : Onward K s (t.markWriters l grpid pas) := h.side (side_markWriters _ _ _ _)

theorem joinDone {c va : Nat} : Onward K s (t.joinDone c va) := h.frame (by exact ⟨rfl, rfl⟩)

theorem performAtomic {r : AtomReq} : Onward K s (t.performAtomic r) := by
  refine .thenDo (.thenDo (.modWave (.thenDo (.writeHome (.heal (.post (.rdcDrop (.invalSector ?_))))) (·.markWriters)) (by exact fun _ => rfl))
    (·.answer)) fun h => .ite h.joinDone (h.frame (by exact ⟨rfl, rfl⟩))
  refine .thenDo h fun h => ?_
  split
  next e => exact .modWave (.side (.snd (h.side (side_releaseCore _ _ _)) e) (side_depositAt _ _ _ _)) (by exact fun _ => rfl)

theorem commitEffect {k : Nat} {e : Effect} : Onward K s (t.commitEffect k e) := by
  cases e with
  | store cls bytes => exact ((h.side (side_storeAtCore _ _ _ _)).side (side_markWriters _ _ _ _)).modLaunch fun _ => rfl
  | sp bytes => exact (h.frame (u := t.writeSpBoth _ _) (by exact ⟨rfl, rfl⟩)).modLaunch fun _ => rfl
  | atomic r => exact h.performAtomic.modLaunch fun _ => rfl
  | emit r => exact h.commitEmit
  | arrive entry n => exact h.frame (by exact ⟨rfl, rfl⟩)
  | copy cluster queue seq => exact h.frame (by exact ⟨rfl, rfl⟩)

end Closure

/-- A wave's own effects commit, and none is left. -/
theorem commitWave (s : State) (k : Nat) : Onward K s (s.commitWave k) ∧ (k < s.waves.length → ((s.commitWave k).wave k).effects = []) := by
  have again : Onward K s ((s.emits.filter fun r => r.held && !r.seed && r.wave == k).foldl (fun s r => s.commitEmit k r)
      { s with emits := s.emits.filter fun r => !(r.held && !r.seed && r.wave == k) }) := .foldl ((refl s).frame (by exact ⟨rfl, rfl⟩)) fun _ h => h.commitEmit
  unfold State.commitWave
  dsimp only
  generalize (s.emits.filter fun r => r.held && !r.seed && r.wave == k).foldl (fun s r => s.commitEmit k r)
    { s with emits := s.emits.filter fun r => !(r.held && !r.seed && r.wave == k) } = t at again
  have rest : Onward K (t.modWave k fun w => { w with effects := [] })
      ((t.wave k).effects.foldl (fun s e => s.commitEffect k e) (t.modWave k fun w => { w with effects := [] })) :=
    .foldl (refl _) fun _ h => h.commitEffect
  refine ⟨(again.trans (of_modWave (by exact ⟨rfl, .inr rfl, fun _ c => ⟨c, rfl, rfl, rfl⟩⟩))).trans rest, fun lt => ?_⟩
  have lt : k < t.waves.length := lt.trans_le again.longer
  have cleared : ((t.modWave k fun w => { w with effects := [] }).wave k).effects = [] := by rw [State.wave_modWave_self _ lt]
  obtain e | e := (rest.waves k (by simpa using lt)).effects
  · exact e.trans cleared
  · exact e

/-- The effects of several waves commit, and none of them has any left. -/
theorem commitWaves (l : List Nat) (s : State) : Onward K s (l.foldl State.commitWave s)
    ∧ ∀ k ∈ l, k < s.waves.length → ((l.foldl State.commitWave s).wave k).effects = [] := by
  induction l generalizing s with
  | nil => exact ⟨refl s, nofun⟩
  | cons x t ih =>
    obtain ⟨step, done⟩ := commitWave (K := K) s x
    obtain ⟨steps, rest⟩ := ih (s.commitWave x)
    refine ⟨step.trans steps, fun k mem lt => ?_⟩
    have lt' := lt.trans_le step.longer
    obtain rfl | mem := List.mem_cons.1 mem
    · obtain e | e := (steps.waves k lt').effects
      · exact e.trans (done lt)
      · exact e
    · exact rest k mem lt'

/-- Waves that wait go on, none of them calm. -/
theorem unblocks {l : List Nat} (nd : l.Nodup) {s : State} (h : ∀ k ∈ l, ¬(s.wave k).calm) : Onward K s (l.foldl State.unblock s) := by
  induction l generalizing s with
  | nil => exact refl s
  | cons k t ih =>
    rw [List.nodup_cons] at nd
    refine (unblock fun _ => h k (by simp)).trans (ih nd.2 fun j hj => ?_)
    rw [wave_unblock_ne s k j fun e => nd.1 (e ▸ hj)]
    exact h j (by simp [hj])

section Closure

variable {s t : State} (h : Onward K s t)
include h

/-! ### Phases, claims and groups -/

theorem completePhase {c e : Nat} : Onward K s (t.completePhase c e) := by
  unfold State.completePhase
  split
  · exact h
  · split
    · exact h
    · refine (h.frame (u := t.modCtx c _) (by exact ⟨rfl, rfl⟩)).trans (unblocks (List.Nodup.filter _ List.nodup_range) fun k mem calm => ?_)
      have blocked := (List.mem_filter.1 mem).2
      simp only [Bool.and_eq_true, beq_iff_eq] at blocked
      have := blocked.1.2 ▸ calm.1
      simp at this

theorem completePhases {l : Nat} : Onward K s (t.completePhases l) := .foldl h fun _ h => h.completePhase

theorem formGroup {l g n m : Nat} : Onward K s (t.formGroup l g n m) :=
  ((h.frame (u := t.modPod g n fun p => { p with fifo := p.fifo.drop m }) (by exact ⟨rfl, rfl⟩)).modLaunch (l := l) (f := fun x => { x with
    formed := x.formed ++ [{ grpid := (t.launch l).nextGroup % 2 ^ 32, node := n, pips := (t.pod g n).fifo.take m, order := t.order, since := t.cc }]
    nextGroup := x.nextGroup + 1 }) fun _ => rfl).frame (by exact ⟨rfl, rfl⟩)

theorem formFull {l g n fuel : Nat} : Onward K s (Machine.formFull l g n fuel t) := by
  induction fuel generalizing t with
  | zero => exact h
  | succ fuel ih => exact .elseDo (ih (h.formGroup.frame (by exact ⟨rfl, rfl⟩))) fun _ => h

theorem formGroups {l g : Nat} : Onward K s (t.formGroups l g) := .foldl h fun _ h => h.formFull


theorem grantClaim {k n : Nat} (waits : K k → ¬(t.wave k).calm) : Onward K s (t.grantClaim k n) := by
  let core := t.modCore (t.coreOf (t.wave k)) fun c => { c with claims := c.claims.filter fun e => e.1 != k }
  let more := core.modWave k fun w => { w with v := w.v ++ t.claimed k n, valloc := w.valloc + 8 * n }
  have widened : Onward K s more := (h.frame (u := core) (by exact ⟨rfl, rfl⟩)).modWave (by exact fun _ => rfl)
  have granted : Onward K s { more with free := more.free + 256 * n } := widened.frame (by exact ⟨rfl, rfl⟩)
  refine granted.trans (unblock fun strict calm => waits strict ?_)
  by_cases lt : k < t.waves.length
  · have same : more.wave k = { t.wave k with v := (t.wave k).v ++ t.claimed k n, valloc := (t.wave k).valloc + 8 * n } :=
      State.wave_modWave_self _ lt
    change (more.wave k).calm at calm
    rw [same] at calm
    exact calm
  · have same : more.wave k = t.wave k := by
      simp only [State.wave, more, core, State.modWave_waves, State.modCore_waves, modAt_oob _ _ (Nat.not_lt.1 lt)]
    change (more.wave k).calm at calm
    rwa [same] at calm

/-- Claims are granted to waves of which each waits, and none twice. -/
theorem grants {l : Nat} {waiting : List (Nat × Nat)} (nd : (waiting.map Prod.fst).Nodup) {cores : List Nat}
    (waits : ∀ e ∈ waiting, ¬(t.wave e.1).calm) :
    Onward K s (waiting.foldl (fun (acc : State × List Nat) (e : Nat × Nat) =>
      if acc.2.contains (acc.1.coreOf (acc.1.wave e.1)) || (((acc.1.core (acc.1.coreOf (acc.1.wave e.1))).claims.takeWhile fun c => c.1 != e.1).any
          fun c => (acc.1.wave c.1).launch != l) || !acc.1.claimFits e.1 e.2 then (acc.1, acc.1.coreOf (acc.1.wave e.1) :: acc.2)
      else (acc.1.grantClaim e.1 e.2, acc.2)) (t, cores)).1 := by
  induction waiting generalizing t cores with
  | nil => exact h
  | cons e rest ih =>
    rw [List.map_cons, List.nodup_cons] at nd
    rw [List.foldl_cons]
    dsimp only
    split
    · exact ih h nd.2 fun x hx => waits x (by simp [hx])
    · refine ih (h.grantClaim fun _ => waits e (by simp)) nd.2 fun x hx => ?_
      rw [wave_grantClaim_ne t e.1 e.2 fun same => nd.1 (same ▸ List.mem_map_of_mem hx)]
      exact waits x (by simp [hx])

theorem grantClaims {l : Nat} : Onward K s (t.grantClaims l) := by
  have claims {k : Nat} {e : Nat × Nat} (hk : (if !(t.wave k).claiming then none
      else match (t.wave k).wait with
        | .claim n => some (k, n)
        | _ => none) = some e) : e.1 = k ∧ (t.wave k).claiming = true := by
    cases claiming : (t.wave k).claiming
    · simp [claiming] at hk
    · simp only [claiming, Bool.not_true, Bool.false_eq_true, if_false] at hk
      split at hk
      · exact ⟨congrArg Prod.fst (Option.some.inj hk).symm, rfl⟩
      · cases hk
  refine h.grants ((sublist_of_filterMap fun k e hk => (claims hk).1).nodup (nodup_commitOrder t l)) fun e he calm => ?_
  obtain ⟨k, -, hk⟩ := List.mem_filterMap.1 he
  obtain ⟨rfl, claiming⟩ := claims hk
  simp only [Wave.claiming, Bool.and_eq_true, beq_iff_eq] at claiming
  have := claiming.1 ▸ calm.1
  simp at this

theorem placeBytes {c : Nat} {checked : Bool} {k : Kernel} {p : Plan} {pips : List Pip} {w : Nat} :
    Onward K s (t.placeBytes c checked k p pips w) := h.frame (by exact ⟨rfl, rfl⟩)

theorem firstDispatch {l phys : Nat} : Onward K s (t.firstDispatch l phys) :=
  .elseDo h fun h => .side (.modLaunch (.foldl h fun _ h => .foldl h fun _ h => h.frame (by exact ⟨rfl, rfl⟩)) (by exact fun _ => rfl)) (side_traceEntry _ _ _ _ _ _)

/-- New waves without effects. -/
theorem dispatched {l : List Wave} {g : List Group} (none : ∀ w ∈ l, w.effects = []) :
    Onward K s { t with groups := g, waves := t.waves ++ l } := by
  refine h.trans ⟨by simp, rfl, fun j lt => ?_, fun j le lt => ?_⟩
  · have : ({ t with groups := g, waves := t.waves ++ l } : State).wave j = t.wave j := List.getD_append _ _ _ _ lt
    rw [this]
    exact .refl _ _
  · have new : j - t.waves.length < l.length := by simp at lt; omega
    have : ({ t with groups := g, waves := t.waves ++ l } : State).wave j = l[j - t.waves.length] :=
      (List.getD_append_right _ _ _ _ le).trans (List.getD_eq_getElem _ _ new)
    rw [this]
    exact none _ (List.getElem_mem new)

theorem startGroup {l : Nat} {k : Kernel} {node : Option Nat} {grpid roles n : Nat} {pips : List Pip} {pc : VAddr} {start : Nat} {p : Plan} :
    Onward K s (t.startGroup l k node grpid roles n pips pc start p) := by
  refine .thenDo (.modLaunch (.foldl (.foldl (.foldl ?_ fun _ h => h.placeBytes) fun _ h => h.frame (by exact ⟨rfl, rfl⟩)) fun _ h => h.frame (by exact ⟨rfl, rfl⟩)) (by exact fun _ => rfl)) fun h => h.frame (by exact ⟨rfl, rfl⟩)
  refine h.firstDispatch.dispatched fun w hw => ?_
  obtain ⟨n, -, rfl⟩ := List.mem_map.1 hw
  rfl

theorem startFlat {l : Nat} {k : Kernel} {p : Plan} : Onward K s (t.startFlat l k p) := h.startGroup.modLaunch fun _ => rfl

theorem startFormed {l n : Nat} {k : Kernel} {p : Plan} : Onward K s (t.startFormed l n k p) := (h.modLaunch (by exact fun _ => rfl)).startGroup

theorem dispatchDet {l fuel : Nat} : Onward K s (Machine.dispatchDet l fuel t) := by
  induction fuel generalizing t with
  | zero => exact h
  | succ fuel ih =>
    unfold Machine.dispatchDet
    split
    · exact h
    · split
      · dsimp only
        split
        · exact h
        · split
          · exact ih h.startFlat
          · exact h
      · split
        · exact h
        · dsimp only
          split
          · exact ih h.startFormed
          · exact h

theorem declarePodDeadlock {l : Nat} : Onward K s (t.declarePodDeadlock l) := .foldl h fun _ h => (h.frame (by exact ⟨rfl, rfl⟩)).postTrap

end Closure

/-! ### Acorns -/

theorem launch_writeS (w : Wave) (n : Nat) (x : Word) : (w.writeS n x).launch = w.launch := by
  unfold Wave.writeS
  split
  · rfl
  · split <;> rfl

theorem effects_writeS (w : Wave) (n : Nat) (x : Word) : (w.writeS n x).effects = w.effects := by
  unfold Wave.writeS
  split
  · rfl
  · split <;> rfl

/-- An abort puts its wave elsewhere, with the effects that it had (R191). -/
theorem performAbort {s t : State} (h : Onward (fun _ => False) s t) {k : Nat} {reason : BitVec 4} {code : BitVec 16} :
    Onward (fun _ => False) s (t.performAbort k reason code) := by
  have put {u : State} (hu : Onward (fun _ => False) s u) (w : Wave) (same : u.wave k = t.wave k) (launch : w.launch = (t.wave k).launch)
      (effects : w.effects = (t.wave k).effects) : Onward (fun _ => False) s (u.setWave k w) :=
    hu.trans (of_wave (k := k) (by simp) rfl (fun j ne => State.wave_setWave_ne w ne) fun lt => by
      rw [State.wave_setWave_self w lt, same]
      exact ⟨launch, .inl effects, nofun⟩)
  have tokens {slices : List Nat} : Onward (fun _ => False) s
      (if 8 ≤ (t.wave k).aborts + 1 then (if reason = 1 then t else t.releaseTokens k).requestTokens k slices
        else if reason = 1 then t else t.releaseTokens k) :=
    .thenDo (.elseDo h fun h => h.frame (by exact ⟨rfl, rfl⟩)) fun h => h.frame (by exact ⟨rfl, rfl⟩)
  have same {slices : List Nat} : (if 8 ≤ (t.wave k).aborts + 1 then (if reason = 1 then t else t.releaseTokens k).requestTokens k slices
        else if reason = 1 then t else t.releaseTokens k).wave k = t.wave k := by
    split <;> split <;> rfl
  unfold State.performAbort
  dsimp only
  split
  · exact h.modWave fun _ => rfl
  · exact (put tokens _ same (by exact launch_writeS ..) (by exact effects_writeS ..)).count

theorem releaseEntry {s t : State} (h : Onward K s t) {e : CheckEntry} : Onward K s (t.releaseEntry e) :=
  .thenDo (h.side (side_storePlain _ _ _ _ _)) (·.markWriters)

theorem takeAcorn {s t : State} (h : Onward (fun _ => False) s t) {p reason : Nat} : Onward (fun _ => False) s (t.takeAcorn p reason) := by
  refine .elseDo (.withCopies (.foldl (.modPair (.foldl (.foldl (.foldl (.foldl h fun _ h => .thenDo h fun h => h.performAbort)
    fun _ h => h.releaseEntry) fun _ h => ?_) fun _ h => h.modWave (by exact fun _ => rfl))) fun _ h => .thenDo h fun h => h.modWave (by exact fun _ => rfl))) (·.side (side_traceEntry _ _ _ _ _ _))
  exact .trans (.trans (h.modWave (by exact fun _ => rfl)) (retireAt _ _ _ _ nofun)) (of_modWave ⟨rfl, .inl rfl, nofun⟩)

end Onward

/-! ### The seven steps of R389 -/

/-- Steps 1 and 2: the seeds and the effects commit. -/
def State.epochSeeded (s : State) (l : Nat) : State :=
  match (s.launch l).graph with
  | some g => s.commitSeeds g
  | none => s

def State.epochCommitted (s : State) (l : Nat) : State := ((s.epochSeeded l).commitOrder l).foldl State.commitWave (s.epochSeeded l)

/-- Steps 3 to 6: phases, claims, groups and their dispatch. -/
def State.epochFormed (s : State) (l : Nat) (graph : Option Nat) : State :=
  let s := ((s.completePhases l).grantClaims l).modLaunch l fun x =>
    { x with veils := x.veils.filter (fun v => !v.waited), spVeils := x.spVeils.filter fun v => !v.waited }
  match graph with
  | some g => s.formGroups l g
  | none => s

def State.epochServed (s : State) (l : Nat) (graph : Option Nat) : State :=
  let s := s.epochFormed l graph
  let s := dispatchDet l ((s.launch l).ngroups + (s.launch l).formed.length) s
  if s.podDeadlocked l then s.declarePodDeadlock l else s

/-- Step 7: the next quantum, and the count of epochs. -/
def State.epochCounted (s : State) (l : Nat) : State :=
  ((s.launchWaves l).foldl (fun s k => s.modWave k fun w => w.nextQuantum s.cc) s).modLaunch l fun x => { x with epoch := x.epoch + 1 }

/-- The steps up to the seventh, from between the acorns of a checked launch. -/
def State.epochWaves (s : State) (l : Nat) : State := (s.epochCommitted l).epochServed l (s.launch l).graph

/-- The acorn before, on the pairs of a checked launch (R341). -/
def State.epochAcorned (s : State) (l : Nat) : State :=
  if (s.launch l).ilevel = 3 then (s.launchPairs l).foldl (fun s p => s.takeAcorn p 4) s else s

theorem exec_epochEnd {s : State} {l : Nat} (ready : s.epochReady l = true) : ∃ t, exec (.epochEnd l) s = .next t
    ∧ t.waves = (((s.epochAcorned l).epochWaves l).epochCounted l).waves
    ∧ t.launches = (((s.epochAcorned l).epochWaves l).epochCounted l).launches := by
  let ended := ((s.epochAcorned l).epochWaves l).epochCounted l
  have run : exec (.epochEnd l) s = .next (if (s.launch l).ilevel = 3 then
      (ended.launchPairs l).foldl (fun s p => s.modPair p fun q => { q with wanted := some 4 }) ended else ended) := by
    refine congrArg Host.Outcome.next (if_neg ?_)
    simp [ready]
  refine ⟨_, run, ?_⟩
  split
  · generalize ended.launchPairs l = ps
    change _ = ended.waves ∧ _ = ended.launches
    clear run
    generalize ended = u
    induction ps generalizing u with
    | nil => exact ⟨rfl, rfl⟩
    | cons p t ih => exact ih (u.modPair p _)
  · exact ⟨rfl, rfl⟩

theorem epochSeeded_onward (K : Nat → Prop) (s : State) (l : Nat) : Onward K s (s.epochSeeded l) := by
  unfold State.epochSeeded
  split
  · exact (Onward.refl s).commitSeeds
  · exact .refl s

theorem epochServed_onward (K : Nat → Prop) (s : State) (l : Nat) (graph : Option Nat) : Onward K s (s.epochServed l graph) := by
  have formed : Onward K s (s.epochFormed l graph) := by
    unfold State.epochFormed
    have veils := (Onward.refl (K := K) s).completePhases (l := l) |>.grantClaims (l := l) |>.modLaunch (l := l) (f := fun x =>
      { x with veils := x.veils.filter (fun v => !v.waited), spVeils := x.spVeils.filter fun v => !v.waited }) fun _ => rfl
    cases graph with
    | none => exact veils
    | some g => exact veils.formGroups
  exact .thenDo formed.dispatchDet (·.declarePodDeadlock)

theorem epochWaves_onward (K : Nat → Prop) (s : State) (l : Nat) : Onward K s (s.epochWaves l) :=
  ((epochSeeded_onward K s l).trans (Onward.commitWaves _ _).1).trans (epochServed_onward K _ l _)

theorem epochAcorned_onward (s : State) (l : Nat) : Onward (fun _ => False) s (s.epochAcorned l) :=
  .thenDo (Onward.refl s) fun h => .foldl h fun _ h => h.takeAcorn

/-- No wave of the launch has an effect left. -/
theorem effects_epochWaves (s : State) (l : Nat) {k : Nat} (lt : k < (s.epochWaves l).waves.length)
    (launch : ((s.epochWaves l).wave k).launch = l) : ((s.epochWaves l).wave k).effects = [] := by
  obtain ⟨commits, done⟩ := Onward.commitWaves (K := fun _ => False) ((s.epochSeeded l).commitOrder l) (s.epochSeeded l)
  have serves := epochServed_onward (fun _ => False) (s.epochCommitted l) l (s.launch l).graph
  by_cases old : k < (s.epochSeeded l).waves.length
  · have old' := old.trans_le commits.longer
    have mine : ((s.epochSeeded l).wave k).launch = l :=
      ((serves.waves k old').launch.trans (commits.waves k old).launch).symm.trans launch
    have none := done k (mem_commitOrder.2 ⟨old, mine⟩) old
    obtain e | e := (serves.waves k old').effects
    · exact e.trans none
    · exact e
  · exact (commits.trans serves).fresh k (Nat.not_lt.1 old) lt

/-! ### Quanta -/

theorem Wave.nextQuantum_launch (w : Wave) (cc : Nat) : (w.nextQuantum cc).launch = w.launch := by
  unfold Wave.nextQuantum
  split <;> rfl

theorem Wave.nextQuantum_effects (w : Wave) (cc : Nat) : (w.nextQuantum cc).effects = w.effects := by
  unfold Wave.nextQuantum
  split <;> rfl

theorem Wave.nextQuantum_state (w : Wave) (cc : Nat) : (w.nextQuantum cc).state = w.state := by
  unfold Wave.nextQuantum
  split <;> rfl

theorem Wave.nextQuantum_ended {w : Wave} (cc : Nat) (h : w.state ≠ .blocked) : (w.nextQuantum cc).quantumEnded = false := by
  unfold Wave.nextQuantum
  split
  · next stays => simpa [h] using stays
  · rfl

/-- Every wave of a list goes on to its next quantum, and no other. -/
theorem wave_nextQuanta {l : List Nat} (nd : l.Nodup) (s : State) {k : Nat} (lt : k < s.waves.length) :
    (l.foldl (fun s k => s.modWave k fun w => w.nextQuantum s.cc) s).wave k = if k ∈ l then (s.wave k).nextQuantum s.cc else s.wave k := by
  induction l generalizing s with
  | nil => rfl
  | cons x t ih =>
    rw [List.nodup_cons] at nd
    rw [List.foldl_cons, ih nd.2 _ (by simpa using lt)]
    by_cases eq : k = x
    · subst eq
      rw [if_neg nd.1, if_pos (by simp), State.wave_modWave_self _ lt]
    · rw [State.wave_modWave_ne _ eq]
      simp only [List.mem_cons, eq, false_or]
      rfl

theorem length_nextQuanta (l : List Nat) (s : State) :
    (l.foldl (fun s k => s.modWave k fun w => w.nextQuantum s.cc) s).waves.length = s.waves.length := by
  induction l generalizing s with
  | nil => rfl
  | cons x t ih => exact (ih _).trans (by simp)

theorem launches_nextQuanta (l : List Nat) (s : State) :
    (l.foldl (fun s k => s.modWave k fun w => w.nextQuantum s.cc) s).launches = s.launches := by
  induction l generalizing s with
  | nil => rfl
  | cons x t ih => exact ih _

theorem wave_epochCounted (s : State) (l : Nat) {k : Nat} (lt : k < s.waves.length) :
    (s.epochCounted l).wave k = if k ∈ s.launchWaves l then (s.wave k).nextQuantum s.cc else s.wave k :=
  wave_nextQuanta (List.Nodup.filter _ List.nodup_range) s lt

theorem epochCounted_length (s : State) (l : Nat) : (s.epochCounted l).waves.length = s.waves.length := length_nextQuanta _ s

theorem mem_launchWaves {s : State} {l k : Nat} : k ∈ s.launchWaves l ↔ k < s.waves.length ∧ (s.wave k).launch = l ∧ (s.wave k).state ≠ .exited := by
  unfold State.launchWaves
  rw [wave_wavesWith]
  simp

theorem wave_epochCounted_kept (s : State) (l : Nat) {k : Nat} (lt : k < s.waves.length) :
    ((s.epochCounted l).wave k).launch = (s.wave k).launch ∧ ((s.epochCounted l).wave k).effects = (s.wave k).effects
      ∧ ((s.epochCounted l).wave k).state = (s.wave k).state := by
  rw [wave_epochCounted s l lt]
  split
  · exact ⟨Wave.nextQuantum_launch .., Wave.nextQuantum_effects .., Wave.nextQuantum_state ..⟩
  · exact ⟨rfl, rfl, rfl⟩

/-- The epoch is counted. -/
theorem epoch_epochCounted {s u : State} {l : Nat} (same : u.launches.map Launch.epoch = s.launches.map Launch.epoch)
    (lt : l < s.launches.length) : ((u.epochCounted l).launch l).epoch = (s.launch l).epoch + 1 := by
  have length : u.launches.length = s.launches.length := by simpa using congrArg List.length same
  have before : (u.launch l).epoch = (s.launch l).epoch := by
    have := congrArg (fun x : List Nat => x.getD l (default : Launch).epoch) same
    rwa [getD_map', getD_map'] at this
  let v := (u.launchWaves l).foldl (fun s k => s.modWave k fun w => w.nextQuantum s.cc) u
  have launches : v.launches = u.launches := launches_nextQuanta _ u
  have after : (u.epochCounted l).launch l = { v.launch l with epoch := (v.launch l).epoch + 1 } :=
    getD_modAt_self _ _ _ (by rw [launches, length]; exact lt)
  have middle : v.launch l = u.launch l := by simp only [State.launch, launches]
  rw [after, middle]
  exact congrArg (· + 1) before

/-- A wave that is calm when its epoch ends goes on at its place, in its next quantum. -/
theorem calm_epochEnd {s : State} {l k : Nat} (lt : k < s.waves.length) (launch : (s.wave k).launch = l) (calm : (s.wave k).calm)
    (ended : (s.wave k).quantumEnded = true) :
    (((s.epochWaves l).epochCounted l).wave k).qidx = (s.wave k).qidx + 1 ∧ (((s.epochWaves l).epochCounted l).wave k).quantumCount = 0
      ∧ (((s.epochWaves l).epochCounted l).wave k).pc = (s.wave k).pc := by
  have O := epochWaves_onward (· = k) s l
  obtain ⟨calm', pc, qidx, ended'⟩ := (O.waves k lt).calm rfl calm
  have lt' := lt.trans_le O.longer
  have awake : ((s.epochWaves l).wave k).state ≠ .exited ∧ ((s.epochWaves l).wave k).state ≠ .blocked := by
    obtain e | e := calm'.1 <;> simp [e]
  have mem : k ∈ (s.epochWaves l).launchWaves l := mem_launchWaves.2 ⟨lt', (O.waves k lt).launch.trans launch, awake.1⟩
  rw [wave_epochCounted _ _ lt', if_pos mem]
  unfold Wave.nextQuantum
  rw [if_neg (by simp [ended'.trans ended, awake.2])]
  exact ⟨congrArg (· + 1) qidx, rfl, pc⟩

/-- What an epoch end that is ready says of its launch and its waves. -/
theorem epochReady_spec {s : State} {l : Nat} (ready : s.epochReady l = true) :
    (s.launch l).state = .running ∧ ∀ k ∈ s.launchWaves l, (s.wave k).quantumEnded = true := by
  unfold State.epochReady at ready
  simp only [Bool.and_eq_true, beq_iff_eq] at ready
  obtain ⟨⟨⟨⟨⟨⟨-, running⟩, -⟩, ended⟩, -⟩, -⟩, -⟩ := ready
  refine ⟨running, fun k mem => ?_⟩
  have := List.all_eq_true.1 ended _ (List.mem_map_of_mem mem)
  simp only [Bool.and_eq_true] at this
  exact this.1.2

theorem epochReady_launch {s : State} {l : Nat} (ready : s.epochReady l = true) : l < s.launches.length := by
  by_contra oob
  have none : s.launch l = default := List.getD_eq_default _ _ (Nat.not_lt.1 oob)
  have running := none ▸ (epochReady_spec ready).1
  exact absurd running (by decide)

/-- Settles O40: the steps of R389 before the seventh lead `Onward`, and the seventh begins the next quantum. -/
theorem epochEnds : Obligations.EpochEnds := by
  intro s l
  refine ⟨fun ready => ?_, fun idle => congrArg Host.Outcome.next (if_pos (by simp [idle]))⟩
  obtain ⟨t, run, waves, launches⟩ := exec_epochEnd ready
  let u := (s.epochAcorned l).epochWaves l
  have wave (k : Nat) : t.wave k = (u.epochCounted l).wave k := by simp only [State.wave, waves, u]
  have length : t.waves.length = u.waves.length := by rw [waves]; exact epochCounted_length u l
  have onward : Onward (fun _ => False) s u := (epochAcorned_onward s l).trans (epochWaves_onward _ _ l)
  refine ⟨t, run, ?_, fun k lt launch => ?_, fun k lt launch exited blocked => ?_,
    fun k lt launch state none wait stalled emits il => ?_⟩
  · have : t.launch l = (u.epochCounted l).launch l := by simp only [State.launch, launches, u]
    rw [this]
    exact epoch_epochCounted onward.epochs (epochReady_launch ready)
  · rw [length] at lt
    obtain ⟨l', e', -⟩ := wave_epochCounted_kept u l lt
    rw [wave] at launch ⊢
    rw [e']
    exact effects_epochWaves _ l lt (l'.symm.trans launch)
  · rw [length] at lt
    obtain ⟨l', -, s'⟩ := wave_epochCounted_kept u l lt
    rw [wave] at launch exited blocked ⊢
    rw [s'] at exited blocked
    rw [wave_epochCounted u l lt, if_pos (mem_launchWaves.2 ⟨lt, l'.symm.trans launch, exited⟩)]
    exact Wave.nextQuantum_ended _ blocked
  · have acorns : s.epochAcorned l = s := if_neg il
    rw [wave]
    simp only [u, acorns]
    exact calm_epochEnd lt launch ⟨.inl state, wait, stalled⟩
      ((epochReady_spec ready).2 k (mem_launchWaves.2 ⟨lt, launch, by simp [state]⟩))

end Sys2Proof.Machine
end

section
/-! PROOF. Placement and dispatch (O39). -/

namespace Sys2Proof.Machine

open Sys2Proof.Safety Sys2Proof.Rules

/-! ### What a dispatch leaves alone -/

/-- A launch without what memory traffic and its first dispatch may change. -/
def bare (x : Launch) : Launch := { quietLaunch x with traced := false }

/-- `t` is `s` but for memories, caches, twins, pairs, records and the like: waves, groups and graphs stay, contexts but for their
counters, launches but for their notes, and what cores are reserved for. -/
structure Beside (s t : State) : Prop where
  waves : t.waves = s.waves
  groups : t.groups = s.groups
  graphs : t.graphs = s.graphs
  ctxs : t.ctxs.map quietCtx = s.ctxs.map quietCtx
  cores : t.cores.map Core.reserved = s.cores.map Core.reserved
  launches : t.launches.map bare = s.launches.map bare

namespace Beside

theorem refl (s : State) : Beside s s := ⟨rfl, rfl, rfl, rfl, rfl, rfl⟩

theorem trans {s t u : State} (h : Beside s t) (g : Beside t u) : Beside s u :=
  ⟨g.waves.trans h.waves, g.groups.trans h.groups, g.graphs.trans h.graphs, g.ctxs.trans h.ctxs, g.cores.trans h.cores,
   g.launches.trans h.launches⟩

theorem of_side {s t : State} (h : MemorySide s t) : Beside s t where
  waves := h.waves
  groups := h.groups
  graphs := by have := congrArg State.graphs h.rest; exact this
  ctxs := h.ctxs
  cores := by
    have := congrArg (List.map Core.reserved) h.cores
    simpa only [List.map_map, Function.comp_def, quietCore] using this
  launches := by
    have := congrArg (List.map bare) h.launches
    rwa [List.map_map, List.map_map] at this

theorem launch {s t : State} (h : Beside s t) (l : Nat) : bare (t.launch l) = bare (s.launch l) := by
  have := congrArg (fun x : List Launch => x.getD l (bare default)) h.launches
  rwa [getD_map', getD_map'] at this

theorem ctx {s t : State} (h : Beside s t) (c : Nat) : quietCtx (t.ctx c) = quietCtx (s.ctx c) := by
  have := congrArg (fun x : List Context => x.getD c (quietCtx default)) h.ctxs
  rwa [getD_map', getD_map'] at this

section Closure

variable {s t u : State} (h : Beside s t)
include h

theorem side (g : MemorySide t u) : Beside s u := h.trans (of_side g)

theorem modCore {c : Nat} {f : Core → Core} (hf : ∀ x, (f x).reserved = x.reserved) : Beside s (t.modCore c f) :=
  h.trans ⟨rfl, rfl, rfl, rfl, map_modAt _ _ _ _ hf, rfl⟩

theorem modLaunch {l : Nat} {f : Launch → Launch} (hf : ∀ x, bare (f x) = bare x) : Beside s (t.modLaunch l f) :=
  h.trans ⟨rfl, rfl, rfl, rfl, rfl, map_modAt _ _ _ _ hf⟩

theorem modTwin {n : Nat} {f : Twin → Twin} : Beside s (t.modTwin n f) := h.trans ⟨rfl, rfl, rfl, rfl, rfl, rfl⟩

theorem modPair {p : Nat} {f : Pair → Pair} : Beside s (t.modPair p f) := h.trans ⟨rfl, rfl, rfl, rfl, rfl, rfl⟩

theorem placeBytes {c : Nat} {checked : Bool} {k : Kernel} {p : Plan} {pips : List Pip} {w : Nat} :
    Beside s (t.placeBytes c checked k p pips w) := h.trans ⟨rfl, rfl, rfl, rfl, rfl, rfl⟩

theorem remirror {core : Nat} : Beside s (t.remirror core) := h.modCore fun _ => rfl

theorem thenDo {c : Prop} {_ : Decidable c} (f : Beside s t → Beside s u) : Beside s (if c then u else t) := by
  split
  · exact f h
  · exact h

theorem foldl {α : Type} {f : State → α → State} (hf : ∀ {t x}, Beside s t → Beside s (f t x)) {l : List α} : Beside s (l.foldl f t) := by
  induction l generalizing t with
  | nil => exact h
  | cons x l ih => exact ih (hf h)

theorem firstDispatch {l phys : Nat} : Beside s (t.firstDispatch l phys) := by
  unfold State.firstDispatch
  dsimp only
  split
  · exact h
  · exact .side (.modLaunch (.foldl h fun h => .foldl h fun h => h.modCore (by exact fun _ => rfl)) (by exact fun _ => rfl))
      (side_traceEntry _ _ _ _ _ _)

end Closure

end Beside

/-! ### A group starts -/

/-- A group that is new in a launch, at the place of its plan. -/
structure Founded (s : State) (x : Launch) (k : Kernel) (node : Option Nat) (grpid : Nat) (pips : List Pip) (p : Plan) (new : Group) :
    Prop where
  grpid : new.grpid = BitVec.ofNat 32 grpid
  clusters : new.clusters = p.clusters
  ilevel : new.ilevel = x.ilevel
  spbase : new.spbase = BitVec.ofNat 20 p.base
  spsize : new.spsize = BitVec.ofNat 20 k.scratch
  windows : new.windows = List.replicate 16 { asid := (s.ctx x.ctx).asid }
  nodeid : new.nodeid = BitVec.ofNat 16 (node.getD 0)
  pipcount : new.pipcount = if node.isSome then BitVec.ofNat 11 pips.length else 1024

/-- Launches that differ by their notes alone do so after one has counted a group. -/
theorem bare_counted {a b : List Launch} (h : a.map bare = b.map bare) (l : Nat) :
    (modAt (fun x => { x with dispatched := x.dispatched + 1 }) a l).map bare =
      (modAt (fun x => { x with dispatched := x.dispatched + 1 }) b l).map bare := by
  have one (c : List Launch) : (modAt (fun x => { x with dispatched := x.dispatched + 1 }) c l).map bare =
      modAt (fun x => { x with dispatched := x.dispatched + 1 }) (c.map bare) l := by
    induction c generalizing l with
    | nil => rfl
    | cons x t ih =>
      cases l with
      | zero => rfl
      | succ l => exact congrArg (bare x :: ·) (ih l)
  rw [one, one, h]

/-- `t` is `s` with a new group of launch `l` and its waves. -/
structure Dispatched (s t : State) (l : Nat) (new : Group) (ws : List Wave) : Prop where
  waves : t.waves = s.waves ++ ws
  groups : t.groups = s.groups ++ [new]
  graphs : t.graphs = s.graphs
  ctxs : t.ctxs.map quietCtx = s.ctxs.map quietCtx
  cores : t.cores.map Core.reserved = s.cores.map Core.reserved
  launches : t.launches.map bare = (modAt (fun x => { x with dispatched := x.dispatched + 1 }) s.launches l).map bare

namespace Dispatched

variable {s t : State} {l : Nat} {new : Group} {ws : List Wave}

theorem launch (h : Dispatched s t l new ws) (lt : l < s.launches.length) :
    bare (t.launch l) = bare { s.launch l with dispatched := (s.launch l).dispatched + 1 } := by
  have := congrArg (fun x : List Launch => x.getD l (bare default)) h.launches
  rw [getD_map', getD_map', getD_modAt_self _ _ _ lt] at this
  exact this

theorem group_new (h : Dispatched s t l new ws) : t.group s.groups.length = new := by
  unfold State.group
  rw [h.groups, List.getD_append_right _ _ _ _ le_rfl, Nat.sub_self]
  rfl

theorem wave_old (h : Dispatched s t l new ws) {j : Nat} (lt : j < s.waves.length) : t.wave j = s.wave j := by
  unfold State.wave
  rw [h.waves, List.getD_append _ _ _ _ lt]

theorem wave_new (h : Dispatched s t l new ws) {m : Nat} (lt : m < ws.length) : t.wave (s.waves.length + m) = ws[m] := by
  unfold State.wave
  rw [h.waves, List.getD_append_right _ _ _ _ (Nat.le_add_right ..), Nat.add_sub_cancel_left, List.getD_eq_getElem _ _ lt]

theorem then_beside {u : State} (h : Dispatched s t l new ws) (g : Beside t u) : Dispatched s u l new ws :=
  ⟨g.waves.trans h.waves, g.groups.trans h.groups, g.graphs.trans h.graphs, g.ctxs.trans h.ctxs, g.cores.trans h.cores,
   g.launches.trans h.launches⟩

/-- The group and its waves are put beside the others, and the launch counts it. -/
theorem of_beside {v u t : State} (B : Beside s v) (U : Beside { v with groups := v.groups ++ [new], waves := v.waves ++ ws } u)
    (T : Beside (u.modLaunch l fun x => { x with dispatched := x.dispatched + 1 }) t) : Dispatched s t l new ws where
  waves := by rw [T.waves, State.modLaunch_waves, U.waves, B.waves]
  groups := by rw [T.groups, State.modLaunch_groups, U.groups, B.groups]
  graphs := by rw [T.graphs, State.modLaunch_graphs, U.graphs, B.graphs]
  ctxs := (T.ctxs.trans U.ctxs).trans B.ctxs
  cores := (T.cores.trans U.cores).trans B.cores
  launches := T.launches.trans (bare_counted (U.launches.trans B.launches) l)

end Dispatched

/-- A group is dispatched at its place, with its waves (R284, R287-R291). -/
theorem startGroup_dispatched (s : State) (l : Nat) (k : Kernel) (node : Option Nat) (grpid roles n : Nat) (pips : List Pip) (pc : VAddr)
    (start : Nat) (p : Plan) :
    ∃ v new, Beside s v ∧ Founded s (s.launch l) k node grpid pips p new
      ∧ Dispatched s (s.startGroup l k node grpid roles n pips pc start p) l new
        ((List.range n).map (v.startWave l s.groups.length k p pips pc roles start)) := by
  let v := s.firstDispatch l ((p.clusters.map (s.physCluster (s.launch l).ctx)).headD 0)
  have B : Beside s v := (Beside.refl s).firstDispatch
  have asid : (v.ctx (s.launch l).ctx).asid = (s.ctx (s.launch l).ctx).asid := by
    have := congrArg Context.asid (B.ctx (s.launch l).ctx)
    exact this
  have len : v.groups.length = s.groups.length := by rw [B.groups]
  rw [← len]
  refine ⟨v, _, B, ?_, Dispatched.of_beside B (.foldl (.foldl (.foldl (.refl _) (·.placeBytes)) (·.modTwin)) (·.remirror))
    (.thenDo (.refl _) (·.modPair))⟩
  exact ⟨rfl, rfl, rfl, rfl, rfl, by rw [← asid], rfl, rfl⟩

/-! ### The members of a new group -/

theorem getLsbD_allLanes {l : Nat} (h : l < 32) : allLanes.getLsbD l = true := by
  rw [show allLanes = BitVec.allOnes 32 from rfl, BitVec.getLsbD_allOnes]
  simpa using h

/-- The registers that the launch gives a wave (R281). -/
theorem getD_startRegs {x : Launch} (args : x.args.length = 15) (arg : x.planearg ≤ 15) {r : Nat} (pos : 1 ≤ r) :
    (startRegs x).getD r 0 =
      if x.planearg = r then BitVec.ofNat 64 (x.pcapa + 16 * x.pcapb) else if r ≤ 15 then x.args.getD (r - 1) 0 else 0 := by
  obtain ⟨n, rfl⟩ : ∃ n, r = n + 1 := ⟨r - 1, by omega⟩
  have plain : ((0 :: x.args) ++ List.replicate 48 0).getD (n + 1) 0 = if n + 1 ≤ 15 then x.args.getD (n + 1 - 1) 0 else 0 := by
    rw [List.cons_append, List.getD_cons_succ]
    split
    · rw [List.getD_append _ _ _ _ (by omega)]
      rfl
    · rw [List.getD_append_right _ _ _ _ (by omega)]
      exact List.getElem?_getD_replicate_default_eq ..
  unfold startRegs
  dsimp only
  split
  · next zero => rw [plain, if_neg (c := x.planearg = n + 1) (by omega)]
  · next set =>
    by_cases eq : x.planearg = n + 1
    · rw [if_pos eq, eq, List.getD_eq_getElem _ _ (by simp [args]; omega), List.getElem_set_self]
    · rw [if_neg eq, ← plain]
      simp only [List.getD_eq_getElem?_getD, List.getElem?_set_ne eq]

/-- A member of a group that was found starts as R13, R18, R281 and R284 say. -/
theorem startWave_starts {s v t : State} (B : Beside s v) {l g n roles start : Nat} {k : Kernel} {p : Plan} {pips : List Pip} {pc : VAddr}
    {new : Group} (D : Dispatched s t l new ((List.range n).map (v.startWave l g k p pips pc roles start))) :
    Starts t s.waves.length (s.launch l) g n k.regs pc (fun m l => pips.isEmpty || decide (32 * m + l < pips.length)) := by
  intro m lt
  have B := B.launch l
  have ctx : (v.launch l).ctx = (s.launch l).ctx := by have := congrArg Launch.ctx B; exact this
  have args : (v.launch l).args = (s.launch l).args := by have := congrArg Launch.args B; exact this
  have arg : (v.launch l).planearg = (s.launch l).planearg := by have := congrArg Launch.planearg B; exact this
  have capa : (v.launch l).pcapa = (s.launch l).pcapa := by have := congrArg Launch.pcapa B; exact this
  have capb : (v.launch l).pcapb = (s.launch l).pcapb := by have := congrArg Launch.pcapb B; exact this
  have wave : t.wave (s.waves.length + m) = v.startWave l g k p pips pc roles start m := by
    rw [D.wave_new (by simpa using lt), List.getElem_map, List.getElem_range]
  dsimp only
  rw [wave]
  refine ⟨rfl, rfl, rfl, rfl, ctx, rfl, rfl, fun l hl => ?_, fun r => ?_, fun r hr => ?_, fun hargs harg r hr => ?_⟩
  · unfold State.startWave
    dsimp only
    cases pips.isEmpty
    · rw [if_neg (by decide), getLsbD_maskOf _ hl]
      simp only [List.length_take, List.length_drop, Bool.false_or, decide_eq_decide]
      omega
    · rw [if_pos rfl, getLsbD_allLanes hl]
      rfl
  · exact List.getElem?_getD_replicate_default_eq ..
  · unfold Wave.readP
    rw [if_neg hr]
    exact List.getElem?_getD_replicate_default_eq ..
  · unfold Wave.readS
    rw [if_neg (by omega), if_neg fun priv => by cases priv.2]
    have := getD_startRegs (x := v.launch l) (args ▸ hargs) (arg ▸ harg) hr
    rw [arg, capa, capb, args] at this
    exact this

/-! ### Flat groups -/

theorem launch_modLaunch_self {s : State} {l : Nat} (f : Launch → Launch) (lt : l < s.launches.length) :
    (s.modLaunch l f).launch l = f (s.launch l) := getD_modAt_self _ _ _ lt

theorem Dispatched.length {s t : State} {l : Nat} {new : Group} {ws : List Wave} (h : Dispatched s t l new ws) :
    t.launches.length = s.launches.length := by
  simpa using congrArg List.length h.launches

/-- A flat launch's next group is dispatched, and its launch counts it (R268, R278). -/
theorem startFlat_dispatched (s : State) (l : Nat) (k : Kernel) (p : Plan) :
    ∃ v new u, Beside s v ∧ Founded s (s.launch l) k none (s.launch l).nextGroup [] p new
      ∧ Dispatched s u l new ((List.range (s.launch l).waves).map (v.startWave l s.groups.length k p [] (s.entryPc l k) (s.launch l).roles
          (max s.cc ((s.launch l).since + 225))))
      ∧ s.startFlat l k p = u.modLaunch l fun y => { y with nextGroup := y.nextGroup + 1 } := by
  obtain ⟨v, new, B, F, D⟩ := startGroup_dispatched s l k none (s.launch l).nextGroup (s.launch l).roles (s.launch l).waves [] (s.entryPc l k)
    (max s.cc ((s.launch l).since + 225)) p
  exact ⟨v, new, _, B, F, D, rfl⟩

theorem nextGroup_dispatched {s u : State} {l : Nat} {new : Group} {ws : List Wave} (D : Dispatched s u l new ws) (lt : l < s.launches.length) :
    (u.launch l).nextGroup = (s.launch l).nextGroup ∧ (u.launch l).dispatched = (s.launch l).dispatched + 1
      ∧ (u.launch l).formed = (s.launch l).formed := by
  have B := D.launch lt
  have next := congrArg Launch.nextGroup B
  have count := congrArg Launch.dispatched B
  have formed := congrArg Launch.formed B
  exact ⟨next, count, formed⟩

/-- The members of a new group start when it does. -/
theorem startAt_dispatched {s v u : State} {l g n roles start : Nat} {k : Kernel} {p : Plan} {pips : List Pip} {pc : VAddr} {new : Group}
    (D : Dispatched s u l new ((List.range n).map (v.startWave l g k p pips pc roles start))) {m : Nat} (lt : m < n) :
    (u.wave (s.waves.length + m)).startAt = start := by
  rw [D.wave_new (by simpa using lt), List.getElem_map, List.getElem_range]
  rfl

theorem groupDispatch_flat {s : State} {c l : Nat} {p : Plan} (lt : l < s.launches.length) (next : s.nextCandidate c = some (.flat l))
    (plan : s.candPlan (.flat l) = some p) :
    let x := s.launch l
    let k := s.candKernel (.flat l)
    let g := s.groups.length
    let first := s.waves.length
    ∃ t, exec (.groupDispatch c) s = .next t ∧ t.groups.length = g + 1 ∧ t.waves.length = first + x.waves
      ∧ (t.group g).grpid = BitVec.ofNat 32 x.nextGroup ∧ (t.group g).clusters = p.clusters ∧ (t.group g).ilevel = x.ilevel
      ∧ (t.group g).spbase = BitVec.ofNat 20 p.base ∧ (t.group g).spsize = BitVec.ofNat 20 k.scratch
      ∧ (t.group g).windows = List.replicate 16 { asid := (s.ctx x.ctx).asid }
      ∧ Starts t first x g x.waves k.regs (BitVec.ofNat 56 ((s.imageOf l).base + k.entry)) (fun _ _ => true)
      ∧ (t.launch l).nextGroup = x.nextGroup + 1 ∧ (t.launch l).dispatched = x.dispatched + 1
      ∧ (∀ m, m < x.waves → (t.wave (first + m)).startAt = max s.cc (x.since + 225))
      ∧ ∀ j, j < first → t.wave j = s.wave j := by
  obtain ⟨v, new, u, B, F, D, eq⟩ := startFlat_dispatched s l (s.candKernel (.flat l)) p
  have run : exec (.groupDispatch c) s = .next (s.startFlat l (s.candKernel (.flat l)) p) := by
    refine congrArg Host.Outcome.next ?_
    rw [next]
    dsimp only
    rw [plan]
  rw [eq] at run
  have group : (u.modLaunch l fun y => { y with nextGroup := y.nextGroup + 1 }).group s.groups.length = new := D.group_new
  have launch := launch_modLaunch_self (s := u) (fun y => { y with nextGroup := y.nextGroup + 1 }) (D.length ▸ lt)
  obtain ⟨count, dispatched, -⟩ := nextGroup_dispatched D lt
  refine ⟨_, run, ?_, ?_, ?_, ?_, ?_, ?_, ?_, ?_, startWave_starts B D, ?_, ?_, fun m hm => startAt_dispatched D hm, fun j hj => D.wave_old hj⟩
  · rw [State.modLaunch_groups, D.groups, List.length_append]; rfl
  · rw [State.modLaunch_waves, D.waves]; simp
  · rw [group, F.grpid]
  · rw [group, F.clusters]
  · rw [group, F.ilevel]
  · rw [group, F.spbase]
  · rw [group, F.spsize]
  · rw [group, F.windows]
  · rw [launch]; exact congrArg (· + 1) count
  · rw [launch]; exact dispatched

/-! ### Formed groups -/

/-- A launch without one of its formed groups. -/
def State.withoutFormed (s : State) (l n : Nat) : State := s.modLaunch l fun y => { y with formed := dropAt y.formed n }

theorem launch_withoutFormed {s : State} {l : Nat} (n : Nat) (lt : l < s.launches.length) :
    (s.withoutFormed l n).launch l = { s.launch l with formed := dropAt (s.launch l).formed n } := launch_modLaunch_self _ lt

theorem entryPc_withoutFormed {s : State} {l : Nat} (n : Nat) (lt : l < s.launches.length) (k : Kernel) :
    (s.withoutFormed l n).entryPc l k = s.entryPc l k := by
  have image : (s.withoutFormed l n).imageOf l = s.imageOf l := by
    unfold State.imageOf
    rw [launch_withoutFormed n lt]
    rfl
  unfold State.entryPc
  rw [image]

/-- A formed group leaves its launch's list and is dispatched with its pips (R284). -/
theorem startFormed_dispatched {s : State} {l n : Nat} {f : Formed} (k : Kernel) (p : Plan) (lt : l < s.launches.length)
    (form : (s.launch l).formed[n]? = some f) :
    ∃ v new roles, Beside (s.withoutFormed l n) v
      ∧ Founded (s.withoutFormed l n) ((s.withoutFormed l n).launch l) k (some f.node) f.grpid f.pips p new
      ∧ Dispatched (s.withoutFormed l n) (s.startFormed l n k p) l new ((List.range f.waves).map
          (v.startWave l s.groups.length k p f.pips (s.entryPc l k) roles (max (f.since + 135) ((s.launch l).since + 225)))) := by
  have member : (s.launch l).formed.getD n default = f := by rw [List.getD_eq_getElem?_getD, form]; rfl
  have start : ((s.withoutFormed l n).launch l).firstIssue f.since = max (f.since + 135) ((s.launch l).since + 225) := by
    rw [launch_withoutFormed n lt]
    rfl
  obtain ⟨v, new, B, F, D⟩ := startGroup_dispatched (s.withoutFormed l n) l k (some f.node) f.grpid
    ((s.withoutFormed l n).pod (((s.withoutFormed l n).launch l).graph.getD 0) f.node).roles f.waves f.pips
    ((s.withoutFormed l n).entryPc l k) (((s.withoutFormed l n).launch l).firstIssue f.since) p
  have eq : s.startFormed l n k p = (s.withoutFormed l n).startGroup l k (some f.node) f.grpid
      ((s.withoutFormed l n).pod (((s.withoutFormed l n).launch l).graph.getD 0) f.node).roles f.waves f.pips
      ((s.withoutFormed l n).entryPc l k) (((s.withoutFormed l n).launch l).firstIssue f.since) p := by
    unfold State.startFormed
    rw [member]
    rfl
  rw [start, entryPc_withoutFormed n lt] at D eq
  rw [← eq] at D
  exact ⟨v, new, _, B, F, D⟩

theorem groupDispatch_formed {s : State} {c l n : Nat} {p : Plan} {f : Formed} (lt : l < s.launches.length)
    (next : s.nextCandidate c = some (.formed l n)) (plan : s.candPlan (.formed l n) = some p) (form : (s.launch l).formed[n]? = some f)
    (pips : f.pips ≠ []) :
    let x := s.launch l
    let k := s.candKernel (.formed l n)
    let g := s.groups.length
    let first := s.waves.length
    let waves := (f.pips.length + 31) / 32
    ∃ t, exec (.groupDispatch c) s = .next t ∧ t.groups.length = g + 1 ∧ t.waves.length = first + waves
      ∧ (t.group g).grpid = BitVec.ofNat 32 f.grpid ∧ (t.group g).nodeid = BitVec.ofNat 16 f.node
      ∧ (t.group g).pipcount = BitVec.ofNat 11 f.pips.length
      ∧ Starts t first x g waves k.regs (BitVec.ofNat 56 ((s.imageOf l).base + k.entry)) (fun m l => decide (32 * m + l < f.pips.length))
      ∧ (∀ m, m < waves → (t.wave (first + m)).startAt = max (f.since + 135) (x.since + 225))
      ∧ (t.launch l).formed = dropAt x.formed n ∧ ∀ j, j < first → t.wave j = s.wave j := by
  have run : exec (.groupDispatch c) s = .next (s.startFormed l n (s.candKernel (.formed l n)) p) := by
    refine congrArg Host.Outcome.next ?_
    rw [next]
    dsimp only
    rw [plan]
  obtain ⟨v, new, roles, B, F, D⟩ := startFormed_dispatched (s.candKernel (.formed l n)) p lt form
  generalize s.startFormed l n (s.candKernel (.formed l n)) p = t at run D
  have group : t.group s.groups.length = new := D.group_new
  obtain ⟨-, -, formed⟩ := nextGroup_dispatched D (by simpa [State.withoutFormed] using lt)
  have starts := startWave_starts B D
  rw [launch_withoutFormed n lt] at starts formed
  simp only [List.isEmpty_eq_false_iff.2 pips, Bool.false_or] at starts
  refine ⟨t, run, ?_, ?_, ?_, ?_, ?_, starts, fun m hm => startAt_dispatched D hm, formed, fun j hj => D.wave_old hj⟩
  · rw [D.groups, List.length_append]; rfl
  · rw [D.waves]; simp [State.withoutFormed, Formed.waves]
  · rw [group, F.grpid]
  · rw [group, F.nodeid]; rfl
  · rw [group, F.pipcount]; rfl

/-! ### Candidates -/

theorem mem_candidates {s : State} {c : Nat} {x : Cand} (h : s.nextCandidate c = some x) : x ∈ s.candidates c := by
  unfold State.nextCandidate at h
  exact List.mem_of_find?_eq_some (Option.filter_eq_some_iff.1 h).1

/-- A continuation pod is a candidate where the order of a pip has settled (R287). -/
theorem settled_of_candidate {s : State} {c l g n : Nat} (h : s.nextCandidate c = some (.cont l g n)) : (s.pod g n).settled s.lc ≠ [] := by
  have mem := mem_candidates h
  unfold State.candidates at mem
  rw [(sortBy_perm _ _).mem_iff] at mem
  obtain ⟨l', -, mem⟩ := List.mem_flatMap.1 mem
  unfold State.candsOf at mem
  dsimp only at mem
  split at mem
  · split at mem
    · split at mem <;> simp at mem
    · cases mem
  · next g' _ =>
    obtain mem | mem := List.mem_append.1 mem
    · obtain ⟨_, -, e⟩ := List.mem_map.1 mem
      cases e
    · obtain ⟨n', settled, e⟩ := List.mem_map.1 mem
      obtain ⟨rfl, rfl, rfl⟩ := Cand.cont.inj e
      simpa using (List.mem_filter.1 settled).2

/-- No candidate is next while a saved group that fits comes before them all (R295). -/
theorem nextCandidate_of_saved {s : State} {c : Nat}
    (h : ∃ g ∈ s.restorable c, s.groupFits g = true ∧ ∀ x ∈ s.candidates c, s.savedKey g ≤ s.candKey x) : s.nextCandidate c = none := by
  obtain ⟨g, mem, fits, first⟩ := h
  cases e : s.nextCandidate c with
  | none => rfl
  | some x =>
    have candidate := mem_candidates e
    unfold State.nextCandidate at e
    have before : s.savedFirst c x = true :=
      List.any_eq_true.2 ⟨g, mem, by simp [fits, first x candidate]⟩
    have := (Option.filter_eq_some_iff.1 e).2
    simp [before] at this

/-! ### Runs of launchable pips -/

/-- What stops a list's longest run of a kind at its front is not of the kind. -/
theorem takeWhile_stops {α : Type} {p : α → Bool} {l : List α} {x : α} (h : l[(l.takeWhile p).length]? = some x) : p x = false := by
  induction l with
  | nil => simp at h
  | cons y t ih =>
    cases py : p y
    · simp only [List.takeWhile_cons, py] at h
      simp at h
      exact h ▸ py
    · simp only [List.takeWhile_cons, py] at h
      exact ih (by simpa using h)

/-- What the head run of a continuation pod takes of its launchable pips (R287): those at the front, at most 32, of one code pointer
and settled, up to the first that is not. -/
structure HeadRun (l : List Pip) (lc m : Nat) (h : Pip) : Prop where
  pos : 1 ≤ m
  most : m ≤ 32
  code : ∀ x ∈ l.take m, fieldAt x.bytes 0 8 = fieldAt h.bytes 0 8
  ready : ∀ x ∈ l.take m, x.ready < lc
  stops : m < 32 → ∀ x, l[m]? = some x → fieldAt x.bytes 0 8 ≠ fieldAt h.bytes 0 8 ∨ lc ≤ x.ready

theorem contRun_headRun {lc : Nat} {h : Pip} {rest : List Pip} (settled : (h :: rest).takeWhile (fun x => x.ready < lc) ≠ []) :
    ∃ m, contRun ((h :: rest).takeWhile fun x => x.ready < lc) = (h :: rest).take m
      ∧ (contRun ((h :: rest).takeWhile fun x => x.ready < lc)).length = m ∧ HeadRun (h :: rest) lc m h := by
  have first : h.ready < lc := by
    by_contra late
    simp [late] at settled
  let same (x : Pip) : Bool := fieldAt x.bytes 0 8 == fieldAt h.bytes 0 8
  let old (x : Pip) : Bool := x.ready < lc
  let front := (rest.takeWhile old).take 31
  let run := front.takeWhile same
  have eq : contRun ((h :: rest).takeWhile old) = h :: run := by
    rw [List.takeWhile_cons, if_pos (by simpa [old] using first)]
    rfl
  have within : run <+: rest := (List.takeWhile_prefix _).trans ((List.take_prefix _ _).trans (List.takeWhile_prefix _))
  have take : run = rest.take run.length := List.prefix_iff_eq_take.1 within
  have short : front.length ≤ 31 := List.length_take_le ..
  have most : run.length ≤ front.length := (List.takeWhile_prefix _).length_le
  have whole : h :: run = (h :: rest).take (run.length + 1) := by rw [List.take_succ_cons, ← take]
  refine ⟨run.length + 1, eq.trans whole, congrArg List.length eq, by omega, by omega, fun x hx => ?_, fun x hx => ?_, fun lt x hx => ?_⟩
  · rw [← whole] at hx
    obtain rfl | hx := List.mem_cons.1 hx
    · rfl
    · simpa [same] using List.mem_takeWhile_imp hx
  · rw [← whole] at hx
    obtain rfl | hx := List.mem_cons.1 hx
    · exact first
    · have := List.mem_takeWhile_imp (List.mem_of_mem_take ((List.takeWhile_prefix _).subset hx))
      simpa [old] using this
  · rw [List.getElem?_cons_succ] at hx
    cases next : front[run.length]? with
    | some y =>
      have eq : y = x := by
        have front' : front <+: rest := (List.take_prefix _ _).trans (List.takeWhile_prefix _)
        obtain ⟨lt', hy⟩ := List.getElem?_eq_some_iff.1 next
        have := List.prefix_iff_getElem?.1 front' _ lt'
        rw [hx, hy] at this
        exact (Option.some.inj this).symm
      have := takeWhile_stops next
      exact .inl (by simpa [same, eq] using this)
    | none =>
      have ends : run.length = (rest.takeWhile old).length := by
        have := List.getElem?_eq_none_iff.1 next
        simp only [front, List.length_take] at this short most
        omega
      have := takeWhile_stops (ends ▸ hx)
      exact .inr (by simpa [old] using this)

/-! ### Continuations -/

theorem pod_modPod_self {s : State} {g n : Nat} (f : Pod → Pod) (hg : g < s.graphs.length) (hn : n < (s.graph g).pods.length) :
    (s.modPod g n f).pod g n = f (s.pod g n) := by
  have graph : (s.modPod g n f).graph g = { s.graph g with pods := modAt f (s.graph g).pods n } := getD_modAt_self _ _ _ hg
  unfold State.pod
  rw [graph]
  exact getD_modAt_self _ _ _ hn

theorem side_postEdge (s : State) (slack owner sec : Nat) (write : Bool) (head : PeerHead) :
    MemorySide s (s.postEdge slack owner sec write head) := by
  unfold State.postEdge
  dsimp only
  split
  · exact .refl s
  · exact side_enqueue s _ _ _ _ _

/-- The head run of a continuation pod. -/
def State.headRun (s : State) (g n : Nat) : List Pip := contRun ((s.pod g n).settled s.lc)

/-- The state in which a continuation group is placed, before the acquires of its join words: its run has left its pod, and its launch
counts it. -/
def State.withoutRun (s : State) (l g n : Nat) : State :=
  (s.modPod g n fun x => { x with launchable := x.launchable.drop (s.headRun g n).length }).modLaunch l fun y =>
    { y with nextGroup := y.nextGroup + 1 }

/-- A continuation group is dispatched with its run, and takes FETCH_FAULT where its code pointer is no address (R287). -/
theorem startCont_dispatched (s : State) (l g n : Nat) (k : Kernel) (p : Plan) :
    ∃ (v w : State) (new : Group) (u : State) (x : Launch) (roles start : Nat), Beside (s.withoutRun l g n) v
      ∧ Founded v x k (some n) ((s.launch l).nextGroup % 2 ^ 32) (s.headRun g n) p new
      ∧ Dispatched v u l new ((List.range 1).map (w.startWave l v.groups.length k p (s.headRun g n)
          (BitVec.ofNat 56 (fieldAt ((s.headRun g n).headD default).bytes 0 8)) roles start))
      ∧ s.startCont l g n k p = if fieldAt ((s.headRun g n).headD default).bytes 0 8 < 2 ^ 56 then u
        else u.postTrap v.waves.length { cause := 0x16, mask := (u.wave v.waves.length).exec,
                                         addr := BitVec.ofNat 56 (fieldAt ((s.headRun g n).headD default).bytes 0 8) } := by
  let s₁ := s.withoutRun l g n
  let e := p.seats.headD default
  let core := 4 * s₁.physCluster (s₁.launch l).ctx e.clid + e.coreid
  let lines := (((s.headRun g n).map Pip.join).filterMap fun va => (s₁.vaPa (s₁.launch l).ctx va).map fun pa => 256 * lineOf pa).eraseDups
  let v := lines.foldl (fun s pa => (s.postEdge 256 (s.launch l).ctx (pa / 64) false).acquireLine core .device pa) s₁
  have B : Beside s₁ v := .foldl (.refl _) fun h => .side (.side h (side_postEdge _ _ _ _ _ _)) (side_acquireLine _ _ _ _)
  obtain ⟨w, new, -, F, D⟩ := startGroup_dispatched v l k (some n) ((s.launch l).nextGroup % 2 ^ 32) (v.pod g n).roles 1 (s.headRun g n)
    (BitVec.ofNat 56 (fieldAt ((s.headRun g n).headD default).bytes 0 8)) ((v.launch l).firstIssue v.cc) p
  exact ⟨v, w, new, _, _, _, _, B, F, D, rfl⟩

theorem continuationDispatch {s : State} {l gr n : Nat} {p : Plan} {h : Pip} {rest : List Pip} (lt : l < s.launches.length)
    (hg : gr < s.graphs.length) (hn : n < (s.graph gr).pods.length) (next : s.nextCandidate (s.graph gr).ctx = some (.cont l gr n))
    (plan : s.candPlan (.cont l gr n) = some p) (launchable : (s.pod gr n).launchable = h :: rest) :
    let g := s.groups.length
    let first := s.waves.length
    ∃ t m, exec (.continuationDispatch gr n) s = .next t ∧ t.groups.length = g + 1 ∧ t.waves.length = first + 1
      ∧ HeadRun (h :: rest) s.lc m h ∧ (t.pod gr n).launchable = (h :: rest).drop m
      ∧ (t.wave first).pc = BitVec.ofNat 56 (fieldAt h.bytes 0 8)
      ∧ (fieldAt h.bytes 0 8 < 2 ^ 56 → (t.wave first).state = .ready ∧ (t.wave first).trap = none)
      ∧ (2 ^ 56 ≤ fieldAt h.bytes 0 8 →
        (t.wave first).trap = some { cause := 0x16, mask := (t.wave first).exec, addr := BitVec.ofNat 56 (fieldAt h.bytes 0 8) })
      ∧ (t.group g).grpid = BitVec.ofNat 32 ((s.launch l).nextGroup % 2 ^ 32) ∧ (t.launch l).nextGroup = (s.launch l).nextGroup + 1 := by
  have settled := settled_of_candidate next
  unfold Pod.settled at settled
  rw [launchable] at settled
  obtain ⟨m, take, length, headRun⟩ := contRun_headRun settled
  have run_ : s.headRun gr n = (h :: rest).take m := by
    unfold State.headRun Pod.settled
    rw [launchable, take]
  have len : (s.headRun gr n).length = m := by
    unfold State.headRun Pod.settled
    rw [launchable, length]
  have head : (s.headRun gr n).headD default = h := by
    obtain ⟨j, rfl⟩ : ∃ j, m = j + 1 := ⟨m - 1, by have := headRun.pos; omega⟩
    rw [run_]
    rfl
  obtain ⟨v, w, new, u, x, roles, start, B, F, D, eq⟩ := startCont_dispatched s l gr n (s.candKernel (.cont l gr n)) p
  rw [head] at eq D
  have run : exec (.continuationDispatch gr n) s = .next (s.startCont l gr n (s.candKernel (.cont l gr n)) p) := by
    refine congrArg Host.Outcome.next ?_
    rw [next]
    dsimp only
    rw [if_pos ⟨rfl, rfl⟩, plan]
  have groups : v.groups.length = s.groups.length := by rw [B.groups]; rfl
  have waves : v.waves.length = s.waves.length := by rw [B.waves]; rfl
  have launch : (v.launch l).nextGroup = (s.launch l).nextGroup + 1 := by
    have := congrArg Launch.nextGroup (B.launch l)
    exact this.trans (congrArg Launch.nextGroup (launch_modLaunch_self _ lt))
  have pod : (u.pod gr n).launchable = (h :: rest).drop m := by
    have graphs : u.graphs = (s.withoutRun l gr n).graphs := D.graphs.trans B.graphs
    have same : u.pod gr n = (s.withoutRun l gr n).pod gr n := by simp only [State.pod, State.graph, graphs]
    rw [same, ← len, ← launchable]
    exact congrArg Pod.launchable (pod_modPod_self _ hg hn)
  have group : u.group s.groups.length = new := groups ▸ D.group_new
  have wave : u.wave s.waves.length = w.startWave l v.groups.length (s.candKernel (.cont l gr n)) p (s.headRun gr n)
      (BitVec.ofNat 56 (fieldAt h.bytes 0 8)) roles start 0 := by
    have := D.wave_new (m := 0) (by simp)
    rwa [waves] at this
  have count : v.launches.length = s.launches.length := by
    have same : v.launches.length = (s.withoutRun l gr n).launches.length := by simpa using congrArg List.length B.launches
    rw [same]
    simp [State.withoutRun, State.modPod]
  have next' : (u.launch l).nextGroup = (s.launch l).nextGroup + 1 := (nextGroup_dispatched D (count ▸ lt)).1.trans launch
  have more : u.waves.length = s.waves.length + 1 := by rw [D.waves, List.length_append, waves]; rfl
  have founded : u.groups.length = s.groups.length + 1 := by rw [D.groups, List.length_append, groups]; rfl
  rw [eq, waves] at run
  by_cases code : fieldAt h.bytes 0 8 < 2 ^ 56
  · rw [if_pos code] at run
    exact ⟨u, m, run, founded, more, headRun, pod, by rw [wave]; rfl, fun _ => by rw [wave]; exact ⟨rfl, rfl⟩,
      fun out => absurd code (by omega), by rw [group, F.grpid], next'⟩
  · rw [if_neg code] at run
    let x : Trap := { cause := 0x16, mask := (u.wave s.waves.length).exec, addr := BitVec.ofNat 56 (fieldAt h.bytes 0 8) }
    have trapped : (u.postTrap s.waves.length x).wave s.waves.length =
        { u.wave s.waves.length with state := .parked, wait := .nothing, stalled := none, trap := some x } :=
      State.wave_modWave_self _ (by omega)
    refine ⟨_, m, run, founded, (by simpa [State.postTrap] using more), headRun, pod, ?_, fun fits => absurd fits code, fun _ => ?_,
      (congrArg Group.grpid group).trans F.grpid, next'⟩
    · rw [trapped, wave]
      rfl
    · rw [trapped]

/-! ### Gangs -/

theorem gangOf_grpid (s : State) (l grpid : Nat) : (s.gangOf l grpid).grpid = grpid := by
  unfold State.gangOf
  cases found : (s.launch l).gangs.find? fun g => g.grpid == grpid with
  | none => rfl
  | some g => simpa using List.find?_some found

/-- A gang's admission state that is set reads back. -/
theorem gangOf_setGang {s : State} {l grpid : Nat} {g : Gang} (lt : l < s.launches.length) (eq : g.grpid = grpid) :
    (s.setGang l g).gangOf l grpid = g := by
  unfold State.gangOf State.setGang
  rw [launch_modLaunch_self _ lt]
  dsimp only
  rw [List.find?_cons_of_pos (by simpa using eq)]
  rfl

/-- The model's LFSR takes the step of R290. -/
theorem lfsrNext_lfsrStep (x : BitVec 16) : lfsrNext x (lfsrStep x) := by
  refine ⟨?_, fun n lt => ?_⟩
  · have shift : (lfsrStep x).getLsbD 0 = (x.getLsbD 15 ^^ x.getLsbD 13 ^^ x.getLsbD 12 ^^ x.getLsbD 10) := by simp [lfsrStep]
    rw [shift, Bool.xor_assoc]
  · simp [lfsrStep, BitVec.getLsbD_eq_getElem (show n < 16 by omega), show n + 1 < 16 by omega]

/-- A gang whose core set grants commits. -/
theorem gangReserve_granted {s : State} {l grpid : Nat} {p : Plan} (group : (s.launch l).nextGroup = grpid)
    (next : s.nextCandidate (s.launch l).ctx = some (.gang l))
    (plan : (s.gangSet l grpid).bind (s.planGang l grpid (s.candKernel (.gang l)) (s.launch l).waves) = some p) :
    exec (.gangReserve l grpid) s = .next (s.commitGang l grpid (s.candKernel (.gang l)) p) := by
  refine congrArg Host.Outcome.next ?_
  rw [if_neg (by simp [next, group])]
  dsimp only
  rw [plan]

/-- A gang whose core set does not grant holds the set where its token lets it, and is refused where it asked without one. -/
theorem gangReserve_refused {s : State} {l grpid : Nat} (group : (s.launch l).nextGroup = grpid)
    (next : s.nextCandidate (s.launch l).ctx = some (.gang l))
    (plan : (s.gangSet l grpid).bind (s.planGang l grpid (s.candKernel (.gang l)) (s.launch l).waves) = none) :
    exec (.gangReserve l grpid) s = .next
      (if s.mayFix l grpid then
        (((s.gangSet l grpid).getD []).foldl (fun s e =>
          s.modCore (4 * s.physCluster (s.launch l).ctx e.1 + e.2) fun c => { c with reserved := some (l, grpid) }) s).setGang l
            { s.gangOf l grpid with token := true }
      else if (s.gangOf l grpid).token then s
      else s.refuseGang l (s.gangOf l grpid)) := by
  refine congrArg Host.Outcome.next ?_
  rw [if_neg (by simp [next, group])]
  dsimp only
  rw [plan]

/-- A core that is no longer kept for a gang. -/
def Core.unreserved (gang : Nat × Nat) (c : Core) : Core := if c.reserved = some gang then { c with reserved := none } else c

theorem Core.reserved_unreserved (gang : Nat × Nat) (c : Core) : (c.unreserved gang).reserved ≠ some gang := by
  unfold Core.unreserved
  split
  · exact nofun
  · assumption

/-- A context without a gang's admission token. -/
def Context.withoutToken (gang : Nat × Nat) (c : Context) : Context := { c with tokens := c.tokens.filter fun e => e.1 != gang }

theorem Context.tokens_withoutToken (gang : Nat × Nat) (c : Context) : gang ∉ (c.withoutToken gang).tokens.map Prod.fst := by
  simp [Context.withoutToken]

/-- The state in which a gang that commits is dispatched: nothing is kept for it. -/
def State.withoutGang (s : State) (l grpid : Nat) : State :=
  ({ s with cores := s.cores.map (Core.unreserved (l, grpid)) }.modCtx (s.launch l).ctx (Context.withoutToken (l, grpid))).modLaunch l
    fun x => { x with gangs := x.gangs.filter fun y => y.grpid != grpid }

theorem core_withoutGang (s : State) (l grpid core : Nat) : (s.withoutGang l grpid).core core = (s.core core).unreserved (l, grpid) :=
  getD_map' (Core.unreserved (l, grpid)) s.cores default core

theorem tokens_withoutGang (s : State) (l grpid c : Nat) (eq : (s.launch l).ctx = c) :
    (l, grpid) ∉ ((s.withoutGang l grpid).ctx c).tokens.map Prod.fst := by
  subst eq
  by_cases inside : (s.launch l).ctx < s.ctxs.length
  · have dropped : (s.withoutGang l grpid).ctx (s.launch l).ctx = (s.ctx (s.launch l).ctx).withoutToken (l, grpid) :=
      getD_modAt_self _ _ _ inside
    rw [dropped]
    exact Context.tokens_withoutToken _ _
  · have out : (s.withoutGang l grpid).ctx (s.launch l).ctx = default :=
      List.getD_eq_default _ _ (by simpa [State.withoutGang] using inside)
    rw [out]
    exact List.not_mem_nil

/-- A gang that commits is dispatched, and neither a core nor the token of its partition is kept for it (R290). -/
theorem commitGang_dispatched {s : State} {l : Nat} (k : Kernel) (p : Plan) (lt : l < s.launches.length) :
    let grpid := (s.launch l).nextGroup
    let t := s.commitGang l grpid k p
    t.groups.length = s.groups.length + 1
      ∧ (t.group s.groups.length).grpid = BitVec.ofNat 32 grpid ∧ (t.group s.groups.length).clusters = p.clusters
      ∧ t.waves.length = s.waves.length + (s.launch l).waves ∧ (t.launch l).nextGroup = grpid + 1
      ∧ (∀ core, (t.core core).reserved ≠ some (l, grpid)) ∧ (l, grpid) ∉ (t.ctx (s.launch l).ctx).tokens.map Prod.fst := by
  intro grpid t
  have launch : (s.withoutGang l grpid).launch l = { s.launch l with gangs := (s.launch l).gangs.filter fun y => y.grpid != grpid } :=
    launch_modLaunch_self _ lt
  have ltw : l < (s.withoutGang l grpid).launches.length := by simpa [State.withoutGang] using lt
  obtain ⟨v, new, u, -, F, D, eq⟩ := startFlat_dispatched (s.withoutGang l grpid) l k p
  have eq : t = u.modLaunch l fun y => { y with nextGroup := y.nextGroup + 1 } := eq
  clear_value t
  subst eq
  rw [launch] at F D
  have group : (u.modLaunch l fun y => { y with nextGroup := y.nextGroup + 1 }).group s.groups.length = new := D.group_new
  have next := (nextGroup_dispatched D ltw).1
  rw [launch] at next
  have core (c : Nat) : (u.core c).reserved = ((s.withoutGang l grpid).core c).reserved := by
    have := congrArg (fun x => x.getD c (Core.reserved default)) D.cores
    rwa [getD_map', getD_map'] at this
  have tokens : (u.ctx (s.launch l).ctx).tokens = ((s.withoutGang l grpid).ctx (s.launch l).ctx).tokens := by
    have := congrArg (fun x => (x.getD (s.launch l).ctx (quietCtx default)).tokens) D.ctxs
    simp only [getD_map'] at this
    exact this
  refine ⟨?_, ?_, ?_, ?_, ?_, fun c => (core c).trans_ne ?_, fun mem => tokens_withoutGang s l grpid _ rfl (tokens ▸ mem)⟩
  · rw [State.modLaunch_groups, D.groups, List.length_append]; rfl
  · rw [group, F.grpid]
  · rw [group, F.clusters]
  · rw [State.modLaunch_waves, D.waves, List.length_append, List.length_map, List.length_range]; rfl
  · rw [launch_modLaunch_self _ (D.length ▸ ltw)]
    exact congrArg (· + 1) next
  · rw [core_withoutGang]
    exact Core.reserved_unreserved _ _

/-- The cores of a gang's set are reserved one by one (R290); the rest of the state stays. -/
theorem foldl_modCore {α : Type} (core : State → α → Nat) (f : Core → Core) (set : List α) (s : State) :
    ∃ cores, set.foldl (fun s e => s.modCore (core s e) f) s = { s with cores := cores } := by
  induction set generalizing s with
  | nil => exact ⟨_, rfl⟩
  | cons e rest ih => exact ih (s.modCore (core s e) f)

theorem reserved_foldl_modCore {α : Type} {core : State → α → Nat} {x : Nat × Nat}
    (move : ∀ s k e, core (s.modCore k fun c => { c with reserved := some x }) e = core s e) {set : List α} {s : State} {n : Nat}
    (lt : n < s.cores.length) (h : (s.core n).reserved = some x ∨ ∃ e ∈ set, core s e = n) :
    ((set.foldl (fun s e => s.modCore (core s e) fun c => { c with reserved := some x }) s).core n).reserved = some x := by
  induction set generalizing s with
  | nil => simpa using h
  | cons e rest ih =>
    refine ih (by simpa [State.modCore] using lt) ?_
    by_cases here : n = core s e
    · subst here
      exact .inl (congrArg Core.reserved (core_modCore _ lt))
    · rw [core_modCore_ne _ here]
      refine h.imp_right fun ⟨a, mem, eq⟩ => ⟨a, (List.mem_cons.1 mem).resolve_left ?_, (move ..).trans eq⟩
      rintro rfl
      exact here eq.symm

theorem gangReserve_fix {s : State} {l grpid : Nat} {set : List (Nat × Nat)} (lt : l < s.launches.length)
    (group : (s.launch l).nextGroup = grpid) (next : s.nextCandidate (s.launch l).ctx = some (.gang l)) (set_ : s.gangSet l grpid = some set)
    (plan : (s.gangSet l grpid).bind (s.planGang l grpid (s.candKernel (.gang l)) (s.launch l).waves) = none)
    (fix : s.mayFix l grpid = true) :
    ∃ t, exec (.gangReserve l grpid) s = .next t
      ∧ (t.gangOf l grpid).token = true ∧ t.waves = s.waves ∧ ∀ e ∈ set, 4 * s.physCluster (s.launch l).ctx e.1 + e.2 < s.cores.length →
        (t.core (4 * s.physCluster (s.launch l).ctx e.1 + e.2)).reserved = some (l, grpid) := by
  have run := gangReserve_refused group next plan
  rw [if_pos fix, set_, Option.getD_some] at run
  obtain ⟨cores, held⟩ := foldl_modCore (fun s e => 4 * s.physCluster (s.launch l).ctx e.1 + e.2)
    (fun c => { c with reserved := some (l, grpid) }) set s
  refine ⟨_, run, ?_, ?_, fun e mem inside => ?_⟩
  · have gang := gangOf_setGang (s := { s with cores := cores }) (g := { s.gangOf l grpid with token := true }) lt (gangOf_grpid s l grpid)
    rw [held, gang]
  · rw [held]
    rfl
  · have := reserved_foldl_modCore (core := fun s e => 4 * s.physCluster (s.launch l).ctx e.1 + e.2) (x := (l, grpid))
      (fun _ _ _ => rfl) inside (.inr ⟨e, mem, rfl⟩)
    exact this

/-- A gang after a refused attempt: its LFSR has stepped, and it backs off. -/
def Gang.refused (g : Gang) : Gang :=
  { g with attempts := g.attempts + 1, lfsr := lfsrStep g.lfsr, backingOff := true,
           wait := 64 * (1 + (lfsrStep g.lfsr).toNat % 2 ^ min (g.attempts + 1) 6) }

/-- A context in which a gang has asked for the admission token. -/
def Context.withToken (gang : Nat × Nat) (order : Nat) (c : Context) : Context :=
  { c with tokens := if c.tokens.any (fun e => e.1 == gang) then c.tokens else c.tokens ++ [(gang, order)] }

theorem Context.tokens_withToken (gang : Nat × Nat) (order : Nat) (c : Context) : gang ∈ (c.withToken gang order).tokens.map Prod.fst := by
  by_cases before : c.tokens.any (fun e => e.1 == gang) = true
  · obtain ⟨e, mem, own⟩ := List.any_eq_true.1 before
    simp only [Context.withToken, if_pos before]
    exact List.mem_map.2 ⟨e, mem, by simpa using own⟩
  · simp [Context.withToken, if_neg before]

/-- A refused gang steps its LFSR and backs off, and after the 16th attempt asks for the admission token (R290). -/
theorem refuseGang_spec {s : State} {l grpid : Nat} (lt : l < s.launches.length) :
    let g := s.gangOf l grpid
    let t := s.refuseGang l g
    t.gangOf l grpid = g.refused
      ∧ (15 ≤ g.attempts → (s.launch l).ctx < s.ctxs.length → (l, grpid) ∈ (t.ctx (s.launch l).ctx).tokens.map Prod.fst)
      ∧ t.waves = s.waves ∧ t.groups = s.groups := by
  intro g t
  have own : g.refused.grpid = grpid := gangOf_grpid s l grpid
  have gang := gangOf_setGang lt own
  have ctx : ((s.setGang l g.refused).launch l).ctx = (s.launch l).ctx := by
    unfold State.setGang
    rw [launch_modLaunch_self _ lt]
  by_cases many : 16 ≤ g.attempts + 1
  · have run : t = { (s.setGang l g.refused).modCtx ((s.setGang l g.refused).launch l).ctx (Context.withToken (l, g.refused.grpid) s.order)
        with order := s.order + 1 } := if_pos many
    clear_value t
    subst run
    refine ⟨gang, fun _ inside => ?_, rfl, rfl⟩
    have asked : ((s.setGang l g.refused).modCtx (s.launch l).ctx (Context.withToken (l, grpid) s.order)).ctx (s.launch l).ctx =
        (s.ctx (s.launch l).ctx).withToken (l, grpid) s.order := ctx_modCtx_self _ _ _ inside
    have mem := asked ▸ Context.tokens_withToken (l, grpid) s.order (s.ctx (s.launch l).ctx)
    rw [ctx, own]
    exact mem
  · have run : t = s.setGang l g.refused := if_neg many
    clear_value t
    subst run
    exact ⟨gang, fun late => absurd late (by omega), rfl, rfl⟩

/-- Settles O39: each dispatch puts the new group and its waves after the others and leaves the rest alone (`Dispatched`). -/
theorem placement : Obligations.Placement := by
  refine ⟨fun s c p => ⟨fun l lt next plan => groupDispatch_flat lt next plan,
    fun l n f lt next plan form pips => groupDispatch_formed lt next plan form pips, fun l gr n h rest lt hg hn next plan launchable => ?_,
    fun saved => ?_⟩, fun s l grpid lt group next => ⟨fun p plan => ?_, fun set set_ plan fix => gangReserve_fix lt group next set_ plan fix,
    fun plan fix token => ?_⟩, fun s l grpid lt backing => ?_⟩
  · obtain ⟨t, m, run, groups, waves, ⟨pos, most, code, ready, stops⟩, pod, rest⟩ :=
      continuationDispatch lt hg hn next plan launchable
    exact ⟨t, m, run, groups, waves, pos, most, pod, code, ready, stops, rest⟩
  · refine congrArg Host.Outcome.next ?_
    rw [nextCandidate_of_saved saved]
  · subst group
    exact ⟨_, gangReserve_granted rfl next plan, commitGang_dispatched _ p lt⟩
  · have run := gangReserve_refused group next plan
    rw [if_neg (by simp [fix]), if_neg (by simp [token])] at run
    obtain ⟨gang, asks, waves, groups⟩ := refuseGang_spec (s := s) (grpid := grpid) lt
    refine ⟨_, run, ?_, ?_, ?_, ?_, asks, waves, groups⟩
    · rw [gang]; rfl
    · rw [gang]; exact lfsrNext_lfsrStep _
    · rw [gang]; rfl
    · rw [gang]; rfl
  · exact ⟨_, congrArg Host.Outcome.next (if_pos backing), gangOf_setGang lt (gangOf_grpid s l grpid)⟩

end Sys2Proof.Machine
end

section
/-! PROOF. The decode conditions (O2), and words of the spec (O57). -/

namespace Sys2Proof.Machine

open Sys2Proof.Safety Sys2Proof.Rules

/-- Every instruction that has a word passes the common checks of an issue before its own effect (R60, R292). -/
theorem exec_eq_issue {i : Instr} (word : (encode i).isSome) (s : State) : ∃ body, exec i s = issue i s body := by
  cases i with
  | loadReturn | storePerformed | atomicPerformed | fenceComplete | writebackAck | icinvAck | trapEntry | launchTeardown | transactionAbort
  | claimGrant | claimDeadlock | matrixOperationStart | mmaKstep | tileAccessComplete | copyStart | copyComplete | podAppend
  | coalescingTimerExpiry | podDeadlock | continuationDispatch | groupDispatch | gangReserve | gangBackoffExpiry | launch | edgeHash
  | operatingPointChange | launchCompletion | signatureEpochAdvance | quantumEnd | epochEnd | checkCompare | acornTake | reexecute
  | l2Request | huskSweepComplete | shareRetire | dramPatrol | preemptionRequest | preemptionSave | fullSave | preemptionRestore
  | worldSwitch | stage2FaultService | null | poolRefill | tlbi | fail | stage2Shootdown | poolCheck | peerRequest | peerFatalNotice
  | linkTraining | linkLossOfLock | apertureAccess | sqDoorbell | queueEnable | huskDefine | graphCreate | graphDestroy | traceMark
  | perfConfig | perfRead | slotConfig | poolSet | s1rootSet | ctxCreate | ctxDestroy | vfAssign | getVersion | getCapabilities
  | negotiateAlgorithms | getDigests | getCertificate | challenge | getMeasurements | keyExchange | finish | heartbeat | endSession
  | ideIntegrityFailure | pairStatus | pairReturn | inject | wdogSet | wdogKick | watchdogExpiry | thermalCapAdjust | hotClear
  | coldReset | warmReset | vfFunctionLevelReset | registerWrite | quiescePoint | modeRequest | iciLoad | lpddr6Request | arbiterGrant
  | slackExhaustion | peerShootdown | ideKm | doeDiscovery | thermalFatal => exact absurd word Bool.false_ne_true
  | _ => exact ⟨_, rfl⟩

/-- An instruction that meets a decode condition at its issue ends in that trap, before any effect of its own. -/
theorem issue_decodeCheck {s : State} {k : Nat} {i : Instr} {cause : BitVec 7} (body : Nat → State → State) (cur : s.cur = some k)
    (can : s.canIssue k i = true) (met : (s.wave k).decodeCheck i = some cause) :
    issue i s body = .next ((issued s k).trapExec k cause) := by
  simp [issue, cur, State.issueAt, can, met, issued]

/-- A list of registers leaves the allocation where it names a vector register at or above VALLOC (R24). -/
theorem any_outOfRange (w : Wave) (l : List Reg) : l.any w.outOfRange = true ↔ ∃ n, Reg.v n ∈ l ∧ w.valloc ≤ n := by
  rw [List.any_eq_true]
  constructor
  · rintro ⟨r, mem, out⟩
    cases r with
    | v n => exact ⟨n, mem, of_decide_eq_true out⟩
    | s _ | sb _ | p _ | cell _ => exact absurd out Bool.false_ne_true
  · rintro ⟨n, mem, out⟩
    exact ⟨.v n, mem, decide_eq_true out⟩

/-- A list of registers meets the unmarked set where it names one of its members (R58). -/
theorem any_unmarked (w : Wave) (l : List Reg) : l.any w.unmarked.contains = true ↔ ∃ r ∈ l, r ∈ w.unmarked := by
  simp [List.any_eq_true]

/-- Settles O2: the conditions stand in their order in `Wave.decodeCheck`, and the trap comes before the effect of any instruction. -/
theorem decodeConditions : Obligations.DecodeConditions := by
  refine ⟨fun w i => ?_, fun s k i cause cur lt can word met enter => ?_⟩
  · intro named privilege operand range hazard
    have first : (decide (w.priv = .u) && i.privileged) = true ↔ privilege := by simp [privilege]
    have second : ((operands i).any Opnd.illegal || i.illegalWord) = true ↔ operand := by simp [operand, or_comm]
    have third : named.any w.outOfRange = true ↔ range := any_outOfRange w named
    have fourth : named.any w.unmarked.contains = true ↔ hazard := any_unmarked w named
    have check : w.decodeCheck i = if (decide (w.priv = .u) && i.privileged) = true then some 0x03
        else if ((operands i).any Opnd.illegal || i.illegalWord) = true then some 0x04
        else if named.any w.outOfRange = true then some 0x05 else if named.any w.unmarked.contains = true then some 0x06 else none := rfl
    rw [check]
    refine ⟨fun h => ?_, fun h₁ h => ?_, fun h₁ h₂ h => ?_, fun h₁ h₂ h₃ h => ?_, fun h₁ h₂ h₃ h => ?_⟩
    · rw [if_pos (first.2 h)]
    · rw [if_neg (mt first.1 h₁), if_pos (second.2 h)]
    · rw [if_neg (mt first.1 h₁), if_neg (mt second.1 h₂), if_pos (third.2 h)]
    · rw [if_neg (mt first.1 h₁), if_neg (mt second.1 h₂), if_neg (mt third.1 h₃), if_pos (fourth.2 h)]
    · rw [if_neg (mt first.1 h₁), if_neg (mt second.1 h₂), if_neg (mt third.1 h₃), if_neg (mt fourth.1 h)]
  · obtain ⟨body, run⟩ := exec_eq_issue word s
    rw [run, issue_decodeCheck body cur can met, trapExec_enters enter lt]

/-- Settles O57, word by word. -/
theorem decodeWords : Obligations.DecodeWords := by
  unfold Obligations.DecodeWords
  decide +kernel

end Sys2Proof.Machine
end

section
/-! PROOF. Vector results (O4): a scan of a NaN in lane 0. -/

namespace Sys2Proof.Machine

open Sys2Proof.Safety Sys2Proof.Rules

/-- An instruction completes with one result: what two completions of it put into an outstanding register is the same. -/
theorem long_unique {i : Instr} {s : State} {k : Nat} {w : Wave} {r : Reg} {x y : VReg} (h : Completes i s k (w.long r (.v x)))
    (g : Completes i s k (w.long r (.v y))) : x = y := by
  obtain ⟨t, run, left⟩ := h
  obtain ⟨u, again, right⟩ := g
  cases run.symm.trans again
  have pending := congrArg Wave.pending (left.regs.symm.trans right.regs)
  simpa [plain, Wave.long] using pending

/-- `vxscan.add.f32x2 v4, v1`. -/
def addScan : VOp := ⟨false, false, 0, 4, 1, .v 0, 0, .f32x2, .rn, false, false⟩

/-- One wave whose V1 holds a NaN with a payload in lane 0. -/
def payloadState : State :=
  { (default : State) with
    waves := [{ (default : Wave) with exec := allLanes, valloc := 8, v := List.replicate 8 (vregOf fun _ => 0x7FC00001) }]
    cur := some 0 }

theorem issues_addScan : Issues payloadState 0 (.vxscan .add addScan) where
  cur := rfl
  lt := by decide
  can := by decide +kernel
  decode := by decide +kernel
  errs := by decide +kernel
  shadow := by decide +kernel
  txn := by decide +kernel
  commit := by decide +kernel

/-- R83's canonical NaN in sub-element 0 of lane 0. -/
theorem addScan_canonical : elemOf 32 (laneOf (mergeLanes ((payloadState.wave 0).governing false 0)
    (addScan.et.canonical (scan 32 (RedOp.add.step .f32x2 .rn false) (withIdentity .add addScan (payloadState.wave 0))))
    ((payloadState.wave 0).readV 4)) 0) 0 = 0x7FC00000 := by decide +kernel

/-- The machine completes the scan with the canonical NaN in every sub-element of lane 0 (R83). -/
theorem completes_addScan : Completes (.vxscan .add addScan) payloadState 0 ((payloadState.wave 0).long (.v 4)
    (.v (mergeLanes ((payloadState.wave 0).governing false 0)
      (addScan.et.canonical (scan 32 (RedOp.add.step .f32x2 .rn false) (withIdentity .add addScan (payloadState.wave 0))))
      ((payloadState.wave 0).readV 4)))) :=
  completes_of_regOp issues_addScan rfl rfl (SameSeat.long _ _ _ _ _)

/-- Refutes O4: the rule of VXSCAN in `vectorLong` copies lane 0 bit for bit, and the machine gives a NaN there in its canonical
form, as R83 has it: a scan is none of the operations that copy bits. -/
theorem not_vectorResults : ¬ Obligations.VectorResults := by
  rintro ⟨-, long⟩
  obtain ⟨v, accepts, completes⟩ := long payloadState 0 (.vxscan .add addScan) _ rfl (by decide) issues_addScan
  have copied : elemOf 32 (laneOf v 0) 0 = 0x7FC00001 := (accepts 0 (by decide) 0 (by decide) 0 (by decide)).trans (by decide +kernel)
  have merged : elemOf 32 (laneOf (mergeLanes ((payloadState.wave 0).governing false 0) v ((payloadState.wave 0).readV 4)) 0) 0 =
      elemOf 32 (laneOf v 0) 0 := by
    rw [laneOf_mergeLanes _ _ _ (by decide), if_pos (by decide +kernel)]
  have canonical := merged.symm.trans ((congrArg (fun x => elemOf 32 (laneOf x 0) 0) (long_unique completes completes_addScan)).trans
    addScan_canonical)
  exact absurd (copied.symm.trans canonical) (by decide)

end Sys2Proof.Machine
end

section
/-! PROOF. Masks, predicates and branches (O5). -/

namespace Sys2Proof.Machine

open Sys2Proof.Safety Sys2Proof.Rules

/-! ### Conditions and targets -/

/-- The scalar conditions of R120 are those of `scalarMeets`. -/
theorem SCond.holds_iff (c : SCond) (x : Word) : c.holds x = true ↔ scalarMeets c x.toInt := by
  have zero : x = 0 ↔ x.toInt = 0 := by rw [← BitVec.toInt_inj]; simp
  cases c <;> simp only [SCond.holds, scalarMeets, beq_iff_eq, bne_iff_ne, Bool.not_eq_true', Bool.and_eq_true, Bool.or_eq_true, ne_eq,
    BitVec.msb_eq_toInt, decide_eq_true_eq, decide_eq_false_iff_not, zero] <;> omega

/-- Masks that differ nowhere are equal. -/
theorem mask_eq_iff (x y : Mask) : x = y ↔ ∀ l, x.getLsbD l = y.getLsbD l :=
  ⟨fun h _ => h ▸ rfl, fun h => BitVec.eq_of_getLsbD_eq fun l _ => h l⟩

/-- The predicate conditions of R120 are those of `lanesMeet`. -/
theorem PCond.holds_iff (c : PCond) (p exec : Mask) : c.holds p exec = true ↔ lanesMeet c p exec := by
  have none_ : p &&& exec = 0 ↔ ∀ l, exec.getLsbD l = true → p.getLsbD l = false := by
    simp only [mask_eq_iff, BitVec.getLsbD_and]
    exact forall_congr' fun l => by cases p.getLsbD l <;> cases exec.getLsbD l <;> simp
  have all_ : p &&& exec = exec ↔ ∀ l, exec.getLsbD l = true → p.getLsbD l = true := by
    simp only [mask_eq_iff, BitVec.getLsbD_and]
    exact forall_congr' fun l => by cases p.getLsbD l <;> cases exec.getLsbD l <;> simp
  cases c <;> simp only [PCond.holds, lanesMeet, beq_iff_eq, bne_iff_ne, ne_eq, none_, all_]
  all_goals push Not; simp

/-- The target of a format-B instruction is that of R49: sign extension and shift are a product of integers, modulo 2^56. -/
theorem branchTarget_eq (pc : VAddr) (off : BitVec 32) : branchTarget pc off = target pc off := by
  have shift : off.signExtend 56 <<< 3 = BitVec.ofInt 56 (8 * off.toInt) := by
    rw [BitVec.shiftLeft_eq_mul_twoPow, BitVec.ofInt_mul, BitVec.mul_comm]
    rfl
  have base : BitVec.ofInt 56 pc.toNat = pc := by simp
  rw [branchTarget, target, BitVec.ofInt_add, base, shift]

/-! ### Masks and predicates (R123, R151, R160) -/

/-- The mask of VCMP holds a lane where all its sub-elements meet the condition, or with X[0] = 1 any of them (R151). -/
theorem getLsbD_compareMask (c : VCond) (o : VOp) (w : Wave) {l : Nat} (hl : l < 32) :
    let meets (j : Nat) : Prop := c.holds o.et (elemV o.et w o.a.toNat l j) (elemB o.et w o.b l j) = true
    (compareMask c o w).getLsbD l = true ↔ if o.x then ∃ j, j < o.et.count ∧ meets j else ∀ j, j < o.et.count → meets j := by
  intro meets
  have each (j : Nat) (hj : j < o.et.count) : c.holds o.et (elemOf o.et.width (laneOf (w.readV o.a.toNat) l) j)
      (elemOf o.et.width (laneOf (w.bsrc o.et o.b) l) j) = true ↔ meets j := by rw [elem_bsrc _ _ _ _ _ hl hj]; rfl
  rw [compareMask, getLsbD_maskOf _ hl]
  cases o.x with
  | true => simpa using exists_congr fun j => and_congr_right fun hj => each j hj
  | false => simpa using forall_congr' fun j => imp_congr_right fun hj => each j hj

/-- VCMP writes the predicate of R151: the compared lanes under the governing mask, the old bits elsewhere. -/
theorem compared_merge (c : VCond) (o : VOp) (w : Wave) :
    compared c o w ((compareMask c o w &&& w.governing o.pn o.pi) ||| (w.readP o.d.toNat &&& ~~~w.governing o.pn o.pi)) := by
  intro l hl
  rw [BitVec.getLsbD_or, BitVec.getLsbD_and, BitVec.getLsbD_and, BitVec.getLsbD_not]
  by_cases active : (w.governing o.pn o.pi).getLsbD l = true
  · rw [if_pos active]
    simpa [active] using getLsbD_compareMask c o w hl
  · rw [if_neg active, Bool.eq_false_of_not_eq_true active]
    simp [hl]

theorem compareMask_noted (c : VCond) (o : VOp) (w : Wave) (cc : Nat) : compareMask c o (w.noted cc) = compareMask c o w := by
  simp only [compareMask, Wave.readV_noted, Wave.bsrc_noted]

/-- An instruction without an effect of its own completes with the registers as they are. -/
theorem completes_of_done {s : State} {k : Nat} {i : Instr} (h : Issues s k i) (run : exec i s = issue i s fun k s => s.done k i) :
    Completes i s k (s.wave k) :=
  completes_of_issue (body := fun k s => s.done k i) (f := id) h run
    (by rw [State.doneWith, id, State.setWave_self (by simpa [issued] using h.lt)]) rfl (SameSeat.rfl' _)

/-- The masks, predicates and NOPs complete with what `maskRule` gives. -/
theorem completes_maskRule {s : State} {k : Nat} {i : Instr} {rule : Wave → Prop} (defined : maskRule (s.wave k) i = some rule)
    (h : Issues s k i) : ∃ w, rule w ∧ Completes i s k w := by
  cases i with
  | vcmp c o =>
    cases defined
    refine ⟨_, ⟨_, compared_merge c o (s.wave k), rfl⟩, completes_of_regOp h rfl ?_ (SameSeat.writeP _ _ _)⟩
    rw [compareMask_noted]
    exact Wave.writeP_noted _ _ _ _
  | vballot o =>
    cases defined
    let ballot := (s.wave k).readP o.a.toNat &&& (s.wave k).governing o.pn o.pi
    refine ⟨(s.wave k).writeS o.d.toNat (ballot.setWidth 64), ⟨_, rfl, fun n => ?_⟩,
      completes_of_regOp h rfl (Wave.writeS_noted _ _ _ _) (SameSeat.writeS _ _ _)⟩
    simp only [ballot, BitVec.getLsbD_setWidth, BitVec.getLsbD_and]
    by_cases inside : n < 64
    · simp [inside]
    · simp [inside, BitVec.getLsbD_of_ge _ n (by omega : 32 ≤ n)]
  | xmovExecP q a =>
    cases defined
    exact ⟨_, rfl, completes_of_regOp h rfl rfl ⟨rfl, rfl, rfl⟩⟩
  | xmovPExec q d =>
    cases defined
    exact ⟨_, rfl, completes_of_regOp h rfl (Wave.writeP_noted _ _ _ _) (SameSeat.writeP _ _ _)⟩
  | xand q d a inv =>
    cases defined
    let mask := (s.wave k).exec &&& (if inv then ~~~(s.wave k).readP a.toNat else (s.wave k).readP a.toNat)
    obtain ⟨priv, group, pc⟩ := SameSeat.writeP (s.wave k) d.toNat (s.wave k).exec
    refine ⟨_, ⟨mask, rfl, fun l hl => ?_⟩, completes_of_regOp h rfl ?_ ⟨priv, group, pc⟩⟩
    · cases inv <;> simp [mask, hl]
    · exact congrArg (fun x : Wave => { x with exec := mask }) (Wave.writeP_noted (s.wave k) s.cc d.toNat (s.wave k).exec)
  | nop q =>
    cases defined
    exact ⟨_, rfl, completes_of_done h rfl⟩
  | _ => exact absurd defined (Option.some_ne_none _).symm

/-- XJOIN retires with the difference of the masks behind its word in the block signature (R123, R124). -/
theorem retires_xjoin {s : State} {k : Nat} {q : Bool} {a : BitVec 8} (h : Issues s k (.xjoin q a)) :
    ∃ t, exec (.xjoin q a) s = .next t ∧
      Retires s t k (.xjoin q a) ((s.wave k).pc + 8) { s.wave k with exec := (s.wave k).readP a.toNat }
        (bytesOf 4 ((s.wave k).exec &&& ~~~(s.wave k).readP a.toNat).toNat) := by
  refine retires_of_issue h rfl ?_ rfl rfl
  have lt : k < (issued s k).waves.length := by simpa [issued] using h.lt
  dsimp only
  rw [State.modWave_eq_setWave _ lt, wave_issued h]
  rfl

/-! ### Branches (R49, R120, R121) -/

/-- A branch that leaves the wave's registers alone retires at its target, or at the next word. -/
theorem retires_branch {s : State} {k : Nat} {i : Instr} (h : Issues s k i) (off : BitVec 32) (taken : Wave → Bool)
    (run : exec i s = issue i s fun k s => s.branch k i off (taken (s.wave k))) (note : taken ((s.wave k).noted s.cc) = taken (s.wave k)) :
    ∃ t, exec i s = .next t ∧
      Retires s t k i (if taken (s.wave k) then target (s.wave k).pc off else (s.wave k).pc + 8) (s.wave k) := by
  refine retires_of_issue h run ?_ rfl rfl
  have lt : k < (issued s k).waves.length := by simpa [issued] using h.lt
  have wave : (issued s k).wave k = (s.wave k).noted s.cc := wave_issued h
  rw [← wave, State.setWave_self lt]
  simp only [State.branch, wave, note, branchTarget_eq]
  rfl

/-- RET and JMPI to an aligned address retire there, with the change of the wave that they make. -/
theorem retires_jumpTo {s : State} {k : Nat} {i : Instr} (h : Issues s k i) (a : BitVec 8) (change : Wave → Wave)
    (run : exec i s = issue i s fun k s => s.jumpTo k i a change) (note : change ((s.wave k).noted s.cc) = (change (s.wave k)).noted s.cc)
    (seat : SameSeat (s.wave k) (change (s.wave k))) (aligned : ((s.wave k).readS a.toNat).toNat % 8 = 0) :
    ∃ t, exec i s = .next t ∧ Retires s t k i (((s.wave k).readS a.toNat).setWidth 56) (change (s.wave k)) := by
  refine retires_of_issue h run ?_ seat.group seat.priv
  have lt : k < (issued s k).waves.length := by simpa [issued] using h.lt
  have wave : (issued s k).wave k = (s.wave k).noted s.cc := wave_issued h
  have address : (((s.wave k).readS a.toNat).setWidth 56).toNat % 8 = 0 := by
    rw [BitVec.toNat_setWidth, Nat.mod_mod_of_dvd _ (by decide)]
    exact aligned
  simp only [State.jumpTo, wave, Wave.readS_noted]
  rw [if_neg (not_not.2 address), State.modWave_eq_setWave _ lt, wave, note]
  rfl

/-- A wave with a return address in S62 and on its return stack (R120, R121). -/
def Wave.called (w : Wave) (back : VAddr) : Wave :=
  { w.writeS 62 (back.setWidth 64) with retStack := (back :: w.retStack).take 8 }

theorem SameSeat.called (w : Wave) (back : VAddr) : SameSeat w (w.called back) := by
  obtain ⟨priv, group, pc⟩ := SameSeat.writeS w 62 (back.setWidth 64)
  exact ⟨priv, group, pc⟩

theorem Wave.called_noted (w : Wave) (cc : Nat) (back : VAddr) : (w.noted cc).called back = (w.called back).noted cc := by
  unfold Wave.called
  rw [Wave.writeS_noted]
  rfl

/-- CALL retires at its target with the return address saved. -/
theorem retires_call {s : State} {k : Nat} {q : Bool} {off : BitVec 32} (h : Issues s k (.call q off)) :
    ∃ t, exec (.call q off) s = .next t ∧
      Retires s t k (.call q off) (target (s.wave k).pc off) ((s.wave k).called ((s.wave k).pc + 8)) := by
  obtain ⟨priv, group, pc⟩ := SameSeat.called (s.wave k) ((s.wave k).pc + 8)
  have lt : k < (issued s k).waves.length := by simpa [issued] using h.lt
  have wave : (issued s k).wave k = (s.wave k).noted s.cc := wave_issued h
  have called : (issued s k).modWave k (fun w => w.called (((issued s k).wave k).pc + 8)) =
      (issued s k).setWave k (((s.wave k).called ((s.wave k).pc + 8)).noted s.cc) := by
    rw [State.modWave_eq_setWave _ lt, wave, Wave.called_noted, Wave.noted_pc]
  refine retires_of_issue h rfl ?_ group priv
  change State.branch ((issued s k).modWave k fun w => w.called (((issued s k).wave k).pc + 8)) k _ off true = _
  rw [called, State.branch, State.wave_setWave_self _ lt, if_pos rfl, branchTarget_eq]
  simp only [Wave.noted_priv, Wave.noted_pc, priv, pc]

/-- The branches, CALL, RET and JMPI retire where `branchRule` says, and leave the wave as it says. -/
theorem retires_branchRule {s : State} {k : Nat} {i : Instr} {rule : VAddr → Wave → Prop}
    (defined : branchRule (s.wave k) i = some rule) (h : Issues s k i) :
    ∃ next w t, rule next w ∧ exec i s = .next t ∧ Retires s t k i next w := by
  cases i with
  | bra q off =>
    cases defined
    obtain ⟨t, run, ret⟩ := retires_branch h off (fun _ => true) rfl rfl
    exact ⟨_, _, t, ⟨rfl, rfl⟩, run, ret⟩
  | brc q c a off =>
    cases defined
    obtain ⟨t, run, ret⟩ := retires_branch h off (fun w => c.holds (w.readS a.toNat)) rfl rfl
    have meets := SCond.holds_iff c ((s.wave k).readS a.toNat)
    refine ⟨_, _, t, ?_, run, ret⟩
    exact ⟨rfl, fun met => if_pos (meets.2 met), fun fails => if_neg (mt meets.1 fails)⟩
  | brv q c a off =>
    cases defined
    obtain ⟨t, run, ret⟩ := retires_branch h off (fun w => c.holds (w.readP a.toNat) w.exec) rfl rfl
    have meets := PCond.holds_iff c ((s.wave k).readP a.toNat) (s.wave k).exec
    refine ⟨_, _, t, ?_, run, ret⟩
    exact ⟨rfl, fun met => if_pos (meets.2 met), fun fails => if_neg (mt meets.1 fails)⟩
  | call q off =>
    cases defined
    obtain ⟨t, run, ret⟩ := retires_call h
    exact ⟨_, _, t, ⟨rfl, rfl⟩, run, ret⟩
  | ret q a =>
    by_cases aligned : ((s.wave k).readS a.toNat).toNat % 8 = 0
    · rw [branchRule, if_neg (not_not.2 aligned)] at defined
      cases defined
      obtain ⟨t, run, ret⟩ := retires_jumpTo h a _ rfl rfl ⟨rfl, rfl, rfl⟩ aligned
      exact ⟨_, _, t, ⟨rfl, rfl⟩, run, ret⟩
    · rw [branchRule, if_pos aligned] at defined
      cases defined
  | jmpi q a =>
    by_cases aligned : ((s.wave k).readS a.toNat).toNat % 8 = 0
    · rw [branchRule, if_neg (not_not.2 aligned)] at defined
      cases defined
      obtain ⟨t, run, ret⟩ := retires_jumpTo h a _ rfl rfl ⟨rfl, rfl, rfl⟩ aligned
      exact ⟨_, _, t, ⟨rfl, rfl⟩, run, ret⟩
    · rw [branchRule, if_pos aligned] at defined
      cases defined
  | _ => exact absurd defined (Option.some_ne_none _).symm

/-- Settles O5, by the rules of masks, of XJOIN and of branches. -/
theorem controlResults : Obligations.ControlResults :=
  ⟨⟨fun _ _ _ _ defined h => completes_maskRule defined h, fun _ _ _ _ h => retires_xjoin h⟩,
    fun _ _ _ _ defined h => retires_branchRule defined h⟩

end Sys2Proof.Machine
end

section
/-! PROOF. Returns, acknowledgements and the end of a quantum (O35). -/

namespace Sys2Proof.Machine

open Sys2Proof.Safety Sys2Proof.Rules

/-! ### The oldest complete long write -/

/-- The first entry that a test accepts stands where it accepts one and none before. -/
theorem indexWhere_eq {α : Type} {p : α → Bool} {l : List α} {n : Nat} {x : α} (here : l[n]? = some x) (yes : p x = true)
    (first : ∀ m y, m < n → l[m]? = some y → p y = false) : indexWhere p l = some n := by
  induction l generalizing n with
  | nil => simp at here
  | cons h t ih =>
    cases n with
    | zero =>
      obtain rfl : h = x := by simpa using here
      rw [indexWhere, if_pos yes]
    | succ n =>
      have no : p h = false := first 0 h (Nat.succ_pos n) rfl
      rw [indexWhere, if_neg (by simp [no]), ih here fun m y lt at_ => first (m + 1) y (Nat.succ_lt_succ lt) at_]
      rfl

/-! ### A value that arrives at its register (R57, R58) -/

/-- A value put into a register changes nothing of the wave but its register files. -/
theorem Wave.put_files (w : Wave) (r : Reg) (x : RegVal) : ∃ a b c d, w.put r x = { w with s := a, sbank := b, v := c, p := d } := by
  unfold Wave.put Wave.writeV Wave.writeP
  split
  · split <;> exact ⟨_, _, _, _, rfl⟩
  · exact ⟨_, _, _, _, rfl⟩
  · exact ⟨_, _, _, _, rfl⟩
  · split <;> exact ⟨_, _, _, _, rfl⟩
  · exact ⟨_, _, _, _, rfl⟩
  · exact ⟨_, _, _, _, rfl⟩

/-- What the end of a PARKED wave's returns leaves of it. -/
structure Unparked (w x : Wave) : Prop where
  pending : x.pending = w.pending
  pc : x.pc = w.pc
  exec : x.exec = w.exec
  s : x.s = w.s
  sbank : x.sbank = w.sbank
  v : x.v = w.v
  p : x.p = w.p

theorem Wave.unparked (w : Wave) (cc : Nat) : Unparked w (w.unpark cc) := by
  unfold Wave.unpark
  split <;> exact ⟨rfl, rfl, rfl, rfl, rfl, rfl, rfl⟩

/-- A PARKED wave goes on with its last return, unless a trap or an abort is waiting (R58). -/
theorem Wave.unpark_state (w : Wave) (cc : Nat) :
    (w.state = .parked ∧ w.pending = [] ∧ w.trap = none ∧ w.abort = none →
      (w.unpark cc).state = w.home ∧ (w.unpark cc).unmarked = [])
    ∧ (¬(w.state = .parked ∧ w.pending = [] ∧ w.trap = none ∧ w.abort = none) →
      (w.unpark cc).state = w.state ∧ (w.unpark cc).unmarked = w.unmarked) := by
  have goes : (w.state = .parked && w.pending.isEmpty && w.trap.isNone && w.abort.isNone) = true ↔
      w.state = .parked ∧ w.pending = [] ∧ w.trap = none ∧ w.abort = none := by simp [and_assoc]
  refine ⟨fun h => ?_, fun h => ?_⟩
  · rw [Wave.unpark, if_pos (goes.2 h)]; exact ⟨rfl, rfl⟩
  · rw [Wave.unpark, if_neg (mt goes.1 h)]; exact ⟨rfl, rfl⟩

/-- A wave with its long write `n`, which is `l`, at its register. -/
def Wave.landed (w : Wave) (n : Nat) (l : LongWrite) : Wave := { w with pending := dropAt w.pending n }.deliver l

/-- A long write that lands leaves the wave where it is, and the rest of what is outstanding. -/
theorem Wave.landed_rest (w : Wave) (n : Nat) (l : LongWrite) :
    let x := w.landed n l
    (x.pending = dropAt w.pending n ∧ x.pc = w.pc ∧ x.exec = w.exec) ∧ (x.state = w.state ∧ x.home = w.home ∧ x.unmarked = w.unmarked)
      ∧ x.trap = w.trap ∧ x.abort = w.abort := by
  obtain ⟨a, b, c, d, put⟩ := Wave.put_files { w with pending := dropAt w.pending n } l.dst l.val
  intro x
  have landed : x = { ({ w with pending := dropAt w.pending n, s := a, sbank := b, v := c, p := d } : Wave) with
      shadow := shadowAfter w.shadow l.dst l.shadow, regErrs := errsAfter w.regErrs l.dst } := by
    simp only [x, Wave.landed, Wave.deliver, put]
  rw [landed]
  exact ⟨⟨rfl, rfl, rfl⟩, ⟨rfl, rfl, rfl⟩, rfl, rfl⟩

theorem Wave.landed_s {w : Wave} {n r : Nat} {l : LongWrite} {v : Word} (dst : l.dst = .s r) (val : l.val = .s v) (nz : r ≠ 0) :
    let x := w.landed n l
    x.s = putAt 0 w.s r v ∧ x.sbank = w.sbank ∧ x.v = w.v ∧ x.p = w.p := by
  simp [Wave.landed, Wave.deliver, Wave.put, dst, val, nz]

theorem Wave.landed_sb {w : Wave} {n r : Nat} {l : LongWrite} {v : Word} (dst : l.dst = .sb r) (val : l.val = .s v) :
    let x := w.landed n l
    x.sbank = putAt 0 w.sbank (r - 56) v ∧ x.s = w.s ∧ x.v = w.v ∧ x.p = w.p := by
  simp [Wave.landed, Wave.deliver, Wave.put, dst, val]

theorem Wave.landed_v {w : Wave} {n r : Nat} {l : LongWrite} {v : VReg} (dst : l.dst = .v r) (val : l.val = .v v) :
    let x := w.landed n l
    x.v = putAt zeroVReg w.v r v ∧ x.s = w.s ∧ x.sbank = w.sbank ∧ x.p = w.p := by
  simp [Wave.landed, Wave.deliver, Wave.put, Wave.writeV, dst, val]

theorem Wave.landed_p {w : Wave} {n r : Nat} {l : LongWrite} {v : Mask} (dst : l.dst = .p r) (val : l.val = .p v) (nz : r ≠ 0) :
    let x := w.landed n l
    x.p = putAt 0 w.p r v ∧ x.s = w.s ∧ x.sbank = w.sbank ∧ x.v = w.v := by
  simp [Wave.landed, Wave.deliver, Wave.put, Wave.writeP, dst, val, nz]

/-- LOAD_RETURN lands the oldest complete long write, and unparks the wave behind its last (R57, R58). -/
theorem exec_loadReturn {s : State} {k n : Nat} {l : LongWrite} (here : (s.wave k).pending[n]? = some l) (complete : l.need = 0)
    (oldest : ∀ m y, m < n → (s.wave k).pending[m]? = some y → y.need ≠ 0) :
    exec (.loadReturn k) s = .next (s.setWave k (((s.wave k).landed n l).unpark s.cc)) := by
  have found : indexWhere (fun (l : LongWrite) => l.need == 0) (s.wave k).pending = some n :=
    indexWhere_eq here (by simp [complete]) fun m y lt at_ => by simpa using oldest m y lt at_
  have entry : (s.wave k).pending.getD n default = l := by rw [List.getD_eq_getElem?_getD, here]; rfl
  change event (match indexWhere _ (s.wave k).pending with | none => _ | some n => _) = _
  rw [found]
  change event (s.setWave k (((s.wave k).landed n ((s.wave k).pending.getD n default)).unpark s.cc)) = _
  rw [entry]
  rfl

/-! ### Acknowledgements (R137, R138, R180) -/

/-- The cores of an ICINV's scope are those that `icinvCovers` names. -/
theorem mem_icinvCores (s : State) (w : Wave) (scope : Scope) (core : Nat) : core ∈ s.icinvCores w scope ↔ icinvCovers s w scope core := by
  cases scope with
  | wave | group => cases h : s.checked w <;> simp [State.icinvCores, icinvCovers, h]
  | cluster =>
    cases h : s.checked w <;> simp only [State.icinvCores, icinvCovers, h, List.mem_map, List.mem_range, Bool.false_eq_true, if_false, if_true,
      false_and, or_false, true_and]
    · exact ⟨fun ⟨i, lt, e⟩ => by omega, fun e => ⟨core % 4, by omega, by omega⟩⟩
    · exact ⟨fun ⟨i, lt, e⟩ => by omega, fun e => ⟨core - 4 * s.physCluster w.ctx w.clid, by omega, by omega⟩⟩
  | device | system =>
    simp only [State.icinvCores, icinvCovers, State.partitionCores, List.mem_flatMap, List.mem_cons, List.not_mem_nil, or_false]
    exact ⟨fun ⟨p, mem, e⟩ => by rwa [show core / 4 = p by omega], fun mem => ⟨core / 4, mem, by omega⟩⟩

/-- The state with the instruction caches of a list of cores emptied. -/
def State.icachesEmptied (s : State) (l : List Nat) : State := l.foldl (fun s c => s.modCore c fun x => { x with icache := [] }) s

theorem icachesEmptied_rest (s : State) (l : List Nat) : ({ s.icachesEmptied l with cores := s.cores } : State) = s := by
  induction l generalizing s with
  | nil => rfl
  | cons c l ih => exact congrArg (fun u : State => { u with cores := s.cores }) (ih (s.modCore c fun x => { x with icache := [] }))

@[simp] theorem icachesEmptied_cc (s : State) (l : List Nat) : (s.icachesEmptied l).cc = s.cc :=
  (congrArg State.cc (icachesEmptied_rest s l) :)
@[simp] theorem icachesEmptied_waves (s : State) (l : List Nat) : (s.icachesEmptied l).waves = s.waves :=
  (congrArg State.waves (icachesEmptied_rest s l) :)

/-- A core beyond the part stays the default one. -/
theorem core_modCore_oob {s : State} {core c : Nat} (f : Core → Core) (h : s.cores.length ≤ c) : (s.modCore core f).core c = s.core c := by
  by_cases same : c = core
  · subst same
    simp only [State.core, State.modCore_cores, modAt_oob f _ h]
  · exact core_modCore_ne f same

/-- The caches of the cores in the list are empty afterwards, and everything else of the cores is as it was. -/
theorem core_emptied (s : State) (l : List Nat) (core : Nat) : (s.icachesEmptied l).core core =
    if core ∈ l ∧ core < s.cores.length then { s.core core with icache := [] } else s.core core := by
  induction l generalizing s with
  | nil => rfl
  | cons c l ih =>
    have len : (s.modCore c fun x => { x with icache := [] }).cores.length = s.cores.length := by simp
    refine (ih _).trans ?_
    rw [len]
    by_cases inside : core < s.cores.length
    · by_cases same : core = c
      · subst same
        rw [core_modCore _ inside]
        simp [inside]
      · rw [core_modCore_ne _ same]
        simp [same]
    · rw [core_modCore_oob _ (not_lt.1 inside)]
      simp [inside]

/-- ICINV_ACK empties the covered instruction caches and lets the wave issue again. -/
theorem exec_icinvAck {s : State} {k : Nat} {scope : Scope} (hold : (s.wave k).hold = .icinv scope) :
    exec (.icinvAck k) s = .next ((s.icachesEmptied (s.icinvCores (s.wave k) scope)).modWave k fun w =>
      { w with hold := .none, eligibleSince := s.cc }) := by
  change event (match (s.wave k).hold with | .icinv _ => _ | _ => _) = _
  rw [hold]
  change event (State.modWave _ k fun w => { w with hold := .none, eligibleSince := (s.icachesEmptied _).cc }) = _
  rw [icachesEmptied_cc]
  rfl

/-- Settles O35: what a landed long write leaves (`Wave.landed_rest`), and what each acknowledgement lets go on. -/
theorem waveReturns : Obligations.WaveReturns := by
  intro s k lt w
  refine ⟨fun n l here complete oldest => ?_, fun hold => ?_, fun scope hold => ?_, fun due => ?_, fun ended i => ?_⟩
  · obtain ⟨⟨pending, pc, exec_⟩, ⟨state, home, unmarked⟩, trap, abort⟩ := w.landed_rest n l
    obtain ⟨upending, upc, uexec, us, usb, uv, up⟩ := (w.landed n l).unparked s.cc
    refine ⟨_, exec_loadReturn here complete oldest, upending.trans pending, upc.trans pc, uexec.trans exec_,
      fun r v dst val nz => ?_, fun r v dst val => ?_, fun r v dst val => ?_, fun r v dst val nz => ?_, ?_⟩
    · obtain ⟨written, sbank, v_, p⟩ := Wave.landed_s (w := w) (n := n) dst val nz
      rw [written] at us
      refine ⟨?_, fun j hj => ?_, usb.trans sbank, uv.trans v_, up.trans p⟩ <;> rw [us]
      · exact getD_putAt_self _ _ _ _
      · exact getD_putAt_ne _ _ _ hj
    · obtain ⟨written, s_, v_, p⟩ := Wave.landed_sb (w := w) (n := n) dst val
      rw [written] at usb
      refine ⟨?_, fun j hj => ?_, us.trans s_, uv.trans v_, up.trans p⟩ <;> rw [usb]
      · exact getD_putAt_self _ _ _ _
      · exact getD_putAt_ne _ _ _ hj
    · obtain ⟨written, s_, sbank, p⟩ := Wave.landed_v (w := w) (n := n) dst val
      rw [written] at uv
      refine ⟨?_, fun j hj => ?_, us.trans s_, usb.trans sbank, up.trans p⟩ <;> rw [Wave.readV, uv]
      · exact getD_putAt_self _ _ _ _
      · exact getD_putAt_ne _ _ _ hj
    · obtain ⟨written, s_, sbank, v_⟩ := Wave.landed_p (w := w) (n := n) dst val nz
      rw [written] at up
      refine ⟨?_, fun j hj => ?_, us.trans s_, usb.trans sbank, uv.trans v_⟩
      · rw [Wave.readP, if_neg nz, up]; exact getD_putAt_self _ _ _ _
      · rw [Wave.readP, Wave.readP, up, getD_putAt_ne _ _ _ hj]
    · have goes := (w.landed n l).unpark_state s.cc
      rwa [pending, state, home, unmarked, trap, abort] at goes
  · exact congrArg Host.Outcome.next (if_pos hold)
  · refine ⟨_, exec_icinvAck hold, ?_, fun core covered inside => ?_, fun core outside => ?_⟩
    · simp only [State.modWave_waves, icachesEmptied_waves]
    · refine (core_emptied s _ core).trans (if_pos ⟨(mem_icinvCores s w scope core).2 covered, inside⟩)
    · refine (core_emptied s _ core).trans (if_neg fun h => outside ((mem_icinvCores s w scope core).1 h.1))
  · exact congrArg Host.Outcome.next (if_pos due)
  · simp [State.canIssue, show (s.wave k).quantumEnded = true from ended]

end Sys2Proof.Machine
end

section
/-! PROOF. Code images (O50). -/

namespace Sys2Proof.Machine

open Sys2Proof.Safety Sys2Proof.Rules


/-- Where the bytes of a section go: the physical addresses of its place with its bytes, where the context maps the place. -/
def State.sectionPlace (s : State) (c : Nat) (base : Word) (file : List Byte) (x : Section) : Option (List (Nat × Byte)) :=
  (s.vaRange c (base.toNat + x.img) x.size).map fun l => l.zip (x.image file)

theorem sectionPlace_isSome (s : State) (c : Nat) (base : Word) (file : List Byte) (x : Section) :
    (s.sectionPlace c base file x).isSome = (s.vaRange c (base.toNat + x.img) x.size).isSome := Option.isSome_map

theorem sectionPlace_getD (s : State) (c : Nat) (base : Word) (file : List Byte) (x : Section) :
    (s.sectionPlace c base file x).getD [] = ((s.vaRange c (base.toNat + x.img) x.size).getD []).zip (x.image file) := by
  unfold State.sectionPlace
  cases s.vaRange c (base.toNat + x.img) x.size <;> rfl

/-- What ICI_LOAD checks before it writes anything (R71-R73). -/
def State.refusesImage (s : State) (c : Nat) (base : Word) (file : List Byte) : Bool :=
  let kernels := chunks 64 (fieldAt file 24 4) (sectionBytes file 4)
  !iciOk file || s.ctxs.length ≤ c || !(s.ctx c).alive
    || !(((sectionsOf file).filter Section.mapped).all fun x => (s.sectionPlace c base file x).isSome)
    || kernels.length ≠ fieldAt file 24 4 || !kernels.all kernelOk

theorem exec_iciLoad (s : State) (c : Nat) (base : Word) (file : List Byte) : exec (.iciLoad c base file) s =
    event (if s.refusesImage c base file = true then s
      else { s.writeHome (((sectionsOf file).filter Section.mapped).flatMap fun x => (s.sectionPlace c base file x).getD []) with
        images := s.images ++ [imageOfFile c base.toNat file] }) := rfl

theorem refusesImage_eq_false (s : State) (c : Nat) (base : Word) (file : List Byte) :
    let kernels := chunks 64 (fieldAt file 24 4) (sectionBytes file 4)
    s.refusesImage c base file = false ↔ iciOk file = true ∧ c < s.ctxs.length ∧ (s.ctx c).alive = true
      ∧ kernels.length = fieldAt file 24 4 ∧ (∀ d ∈ kernels, kernelOk d = true)
      ∧ ∀ x ∈ (sectionsOf file).filter Section.mapped, (s.vaRange c (base.toNat + x.img) x.size).isSome = true := by
  intro kernels
  simp only [State.refusesImage, sectionPlace_isSome, Bool.or_eq_false_iff, Bool.not_eq_false', decide_eq_false_iff_not, not_le, not_not,
    List.all_eq_true, kernels]
  tauto

/-- Settles O50: the checks of ICI_LOAD are those of the statement, and the image that it adds is the file's. -/
theorem imageLoads : Obligations.ImageLoads := by
  intro s c base file mapped kernels ok
  have accepted : s.refusesImage c base file = false ↔ ok := refusesImage_eq_false s c base file
  refine ⟨fun bad => ?_, fun good => ?_⟩
  · rw [exec_iciLoad, if_pos (Bool.eq_true_of_not_eq_false (mt accepted.1 bad))]
    rfl
  · rw [exec_iciLoad, if_neg (by rw [accepted.2 good]; exact Bool.false_ne_true)]
    obtain ⟨-, -, -, count, -⟩ := id good
    refine ⟨_, imageOfFile c base.toNat file, rfl, rfl, rfl, rfl, rfl, ?_, rfl, ?_⟩
    · simpa [imageOfFile] using count
    · simp only [sectionPlace_getD]
      rfl

end Sys2Proof.Machine
end

section
/-! PROOF. Preemption, saves, restores and world switches (O41). -/

namespace Sys2Proof.Machine

open Sys2Proof.Safety Sys2Proof.Rules


/-! ### Folds of one step per wave -/

theorem waves_foldl {α : Type} {f : State → α → State} (h : ∀ s x, (f s x).waves = s.waves) (l : List α) (s : State) :
    (l.foldl f s).waves = s.waves := by
  induction l generalizing s with
  | nil => rfl
  | cons x t ih => exact (ih _).trans (h s x)

theorem length_foldl {α : Type} {f : State → α → State} (h : ∀ s x, (f s x).waves.length = s.waves.length) (l : List α) (s : State) :
    (l.foldl f s).waves.length = s.waves.length := by
  induction l generalizing s with
  | nil => rfl
  | cons x t ih => exact (ih _).trans (h s x)

/-- Of a fold over distinct waves only the step at wave `k` matters to it, where the other steps leave every wave of which `P` holds as it is. -/
theorem wave_foldl {f : State → Nat → State} {k : Nat} {P : Wave → Prop} (length : ∀ s j, (f s j).waves.length = s.waves.length)
    (others : ∀ s j, j ≠ k → P (s.wave k) → (f s j).wave k = s.wave k) (own : ∀ s, k < s.waves.length → P (s.wave k) → P ((f s k).wave k))
    {l : List Nat} (nd : l.Nodup) (s : State) (lt : k < s.waves.length) (p : P (s.wave k)) :
    (k ∉ l → (l.foldl f s).wave k = s.wave k)
    ∧ (k ∈ l → ∃ u : State, u.wave k = s.wave k ∧ k < u.waves.length ∧ (l.foldl f s).wave k = (f u k).wave k) := by
  induction l generalizing s with
  | nil => exact ⟨fun _ => rfl, fun h => absurd h (List.not_mem_nil)⟩
  | cons x t ih =>
    rw [List.nodup_cons] at nd
    obtain ⟨fresh, nd⟩ := nd
    have lt' : k < (f s x).waves.length := by rw [length]; exact lt
    by_cases e : x = k
    · subst e
      exact ⟨fun h => absurd (List.mem_cons_self ..) h, fun _ => ⟨s, rfl, lt, (ih nd (f s x) lt' (own s lt p)).1 fresh⟩⟩
    · have same := others s x e p
      obtain ⟨out, mem⟩ := ih nd (f s x) lt' (by rw [same]; exact p)
      refine ⟨fun h => (out fun m => h (List.mem_cons_of_mem _ m)).trans same, fun h => ?_⟩
      obtain ⟨u, hu, ltu, eq⟩ := mem ((List.mem_cons.1 h).resolve_left (Ne.symm e))
      exact ⟨u, hu.trans same, ltu, eq⟩

theorem nodup_wavesWith (s : State) (p : Wave → Bool) : (s.wavesWith p).Nodup := List.Nodup.filter _ List.nodup_range

/-! ### Contexts, launches and the world switch of a machine whose waves come and go -/

/-- What preemption knows of a context: whether it lives, whether it is switched out or being preempted, its function and its clusters. -/
def standing (c : Context) : Context := { (default : Context) with
  alive := c.alive, switchedOut := c.switchedOut, preempting := c.preempting, fn := c.fn, clusterMap := c.clusterMap }

/-- The contexts of `t` stand as those of `s` do, its launches are of the same contexts, and the same world switch is in progress. -/
structure Steady (s t : State) : Prop where
  ctxs : t.ctxs.map standing = s.ctxs.map standing
  launches : t.launches.map Launch.ctx = s.launches.map Launch.ctx
  switching : t.cp.switching = s.cp.switching

namespace Steady

theorem refl (s : State) : Steady s s := ⟨rfl, rfl, rfl⟩

theorem trans {s t u : State} (h : Steady s t) (g : Steady t u) : Steady s u :=
  ⟨g.ctxs.trans h.ctxs, g.launches.trans h.launches, g.switching.trans h.switching⟩

theorem foldl {α : Type} {f : State → α → State} (h : ∀ s x, Steady s (f s x)) (l : List α) (s : State) : Steady s (l.foldl f s) := by
  induction l generalizing s with
  | nil => exact refl s
  | cons x t ih => exact (h s x).trans (ih _)

theorem of_counted {s t : State} (h : Counted s t) : Steady s t where
  ctxs := by
    have := congrArg (List.map standing) h.ctxs
    rwa [List.map_map, List.map_map] at this
  launches := by have := congrArg State.launches h.rest; exact congrArg _ this
  switching := by have := congrArg (fun x : State => x.cp.switching) h.rest; exact this

theorem ctx {s t : State} (h : Steady s t) (c : Nat) : standing (t.ctx c) = standing (s.ctx c) := by
  have := congrArg (fun x : List Context => x.getD c (standing default)) h.ctxs
  rwa [getD_map', getD_map'] at this

theorem preempting {s t : State} (h : Steady s t) (c : Nat) : (t.ctx c).preempting = (s.ctx c).preempting := by
  have := congrArg Context.preempting (h.ctx c); exact this

theorem switchedOut {s t : State} (h : Steady s t) (c : Nat) : (t.ctx c).switchedOut = (s.ctx c).switchedOut := by
  have := congrArg Context.switchedOut (h.ctx c); exact this

theorem launch {s t : State} (h : Steady s t) (l : Nat) : (t.launch l).ctx = (s.launch l).ctx := by
  have := congrArg (fun x : List Nat => x.getD l (default : Launch).ctx) h.launches
  rwa [getD_map', getD_map'] at this

theorem of_modLaunch (s : State) (l : Nat) {f : Launch → Launch} (hf : ∀ x, (f x).ctx = x.ctx) : Steady s (s.modLaunch l f) :=
  ⟨rfl, map_modAt _ _ _ _ hf, rfl⟩

theorem of_setWave (s : State) (k : Nat) (w : Wave) : Steady s (s.setWave k w) := ⟨rfl, rfl, rfl⟩

theorem of_modWave (s : State) (k : Nat) (f : Wave → Wave) : Steady s (s.modWave k f) := ⟨rfl, rfl, rfl⟩

theorem of_modCopyQueue (s : State) (q : Nat) (f : CopyQueue → CopyQueue) : Steady s (s.modCopyQueue q f) := ⟨rfl, rfl, rfl⟩

theorem performAbort (s : State) (k : Nat) (reason : BitVec 4) (code : BitVec 16) : Steady s (s.performAbort k reason code) := by
  unfold State.performAbort
  dsimp only
  split
  · exact ⟨rfl, rfl, rfl⟩
  · refine Steady.trans ?_ (of_counted (counted_count _ _ _ _ _))
    refine Steady.trans ?_ (of_setWave _ _ _)
    split <;> split <;> exact ⟨rfl, rfl, rfl⟩

theorem abortTxn (s : State) (k : Nat) (reason : BitVec 4) (code : BitVec 16) : Steady s (s.abortTxn k reason code) := by
  unfold State.abortTxn
  split
  · exact performAbort s k reason code
  · exact ⟨rfl, rfl, rfl⟩

theorem retireAt (s : State) (k : Nat) (i : Instr) (p : Priv) (n : VAddr) (e : List Byte) : Steady s (s.retireAt k i p n e) :=
  (of_setWave s k _).trans (of_counted (counted_retireAt s k i p n e))

theorem unblock (s : State) (k : Nat) : Steady s (s.unblock k) := by
  unfold State.unblock
  dsimp only
  split
  · exact (of_setWave s k _).trans (retireAt _ _ _ _ _ _)
  · exact of_setWave s k _

theorem ticketDone (s : State) (k : Nat) (i : Instr) (q seq : Nat) (next : VAddr) : Steady s (s.ticketDone k i q seq next) := by
  unfold State.ticketDone
  refine Steady.trans ?_ (retireAt _ _ _ _ _ _)
  split
  · exact of_modLaunch _ _ fun _ => rfl
  · exact refl s

theorem wakeTickets (s : State) (q : Nat) : Steady s (s.wakeTickets q) := by
  refine foldl (fun s k => ?_) _ s
  dsimp only
  split
  · split
    · exact refl s
    · split
      · exact (of_modCopyQueue s _ _).trans (of_modWave _ k _)
      · split
        · exact refl s
        · split
          · exact (of_setWave s k _).trans (ticketDone _ _ _ _ _ _)
          · exact of_setWave s k _
  · exact refl s

end Steady

/-! ### Contexts of a partition (R322, R323) -/

/-- The contexts of a list, changed one after another. -/
def State.modCtxs (s : State) (l : List Nat) (f : Context → Context) : State := l.foldl (fun s c => s.modCtx c f) s

theorem modCtxs_rest (s : State) (l : List Nat) (f : Context → Context) : ({ s.modCtxs l f with ctxs := s.ctxs } : State) = s := by
  unfold State.modCtxs
  induction l generalizing s with
  | nil => rfl
  | cons c l ih =>
    have := congrArg (fun x : State => ({ x with ctxs := s.ctxs } : State)) (ih (s.modCtx c f))
    exact this

theorem modCtxs_waves (s : State) (l : List Nat) (f : Context → Context) : (s.modCtxs l f).waves = s.waves := by
  have := congrArg State.waves (modCtxs_rest s l f); exact this

theorem modCtxs_cp (s : State) (l : List Nat) (f : Context → Context) : (s.modCtxs l f).cp = s.cp := by
  have := congrArg State.cp (modCtxs_rest s l f); exact this

theorem modCtxs_launches (s : State) (l : List Nat) (f : Context → Context) : (s.modCtxs l f).launches = s.launches := by
  have := congrArg State.launches (modCtxs_rest s l f); exact this

theorem modCtxs_length (s : State) (l : List Nat) (f : Context → Context) : (s.modCtxs l f).ctxs.length = s.ctxs.length := by
  unfold State.modCtxs
  induction l generalizing s with
  | nil => rfl
  | cons c l ih => exact (ih _).trans (length_modAt _ _ _)

theorem ctx_modCtxs {l : List Nat} (nd : l.Nodup) (s : State) (f : Context → Context) {c : Nat} (lt : c < s.ctxs.length) :
    (s.modCtxs l f).ctx c = if c ∈ l then f (s.ctx c) else s.ctx c := by
  unfold State.modCtxs
  induction l generalizing s with
  | nil => rfl
  | cons x t ih =>
    rw [List.nodup_cons] at nd
    rw [List.foldl_cons, ih nd.2 _ (by rwa [State.modCtx, length_modAt])]
    by_cases e : c = x
    · subst e
      rw [if_neg nd.1, if_pos (List.mem_cons_self ..), ctx_modCtx_self _ _ _ lt]
    · have same : (s.modCtx x f).ctx c = s.ctx c := getD_modAt_ne _ _ _ e
      simp only [same, List.mem_cons, e, false_or]

theorem nodup_partitionCtxs (s : State) (c : Nat) : (s.partitionCtxs c).Nodup := List.Nodup.filter _ List.nodup_range

theorem nodup_functionCtxs (s : State) (fn : Nat) : (s.functionCtxs fn).Nodup := List.Nodup.filter _ List.nodup_range

/-- A context that lives and is switched in is of its own partition. -/
theorem mem_partitionCtxs_self {s : State} {c : Nat} (lt : c < s.ctxs.length) (alive : (s.ctx c).alive = true)
    (here : (s.ctx c).switchedOut = false) : c ∈ s.partitionCtxs c := by
  simp [State.partitionCtxs, lt, alive, here]

theorem mem_functionCtxs {s : State} {c fn : Nat} : c ∈ s.functionCtxs fn ↔ c < s.ctxs.length ∧ (s.ctx c).alive = true ∧ (s.ctx c).fn = fn := by
  simp [State.functionCtxs]

/-! ### Transactions that a preemption aborts (R189, R191, R318) -/

theorem wave_count (s : State) (c event n : Nat) (u : Bool) (k : Nat) : (s.count c event n u).wave k = s.wave k := by
  simp only [State.wave, (counted_count s c event n u).waves]

/-- An abort concerns its own wave alone. -/
theorem wave_performAbort_ne (s : State) {j k : Nat} (reason : BitVec 4) (code : BitVec 16) (ne : k ≠ j) :
    (s.performAbort j reason code).wave k = s.wave k := by
  unfold State.performAbort
  dsimp only
  split
  · exact State.wave_modWave_ne _ ne
  · rw [wave_count, State.wave_setWave_ne _ ne]
    split <;> split <;> rfl

theorem length_performAbort (s : State) (k : Nat) (reason : BitVec 4) (code : BitVec 16) :
    (s.performAbort k reason code).waves.length = s.waves.length := by
  unfold State.performAbort
  dsimp only
  split
  · simp
  · rw [(counted_count _ _ _ _ _).waves, State.setWave_waves, List.length_set]
    split <;> split <;> rfl

/-- What an abort leaves of its wave: the transaction is gone, the wave stands at the abort target with the mask of TXBEGIN, and S61 holds
a status word of the reason (R191). -/
structure AbortedTo (w : Wave) (x : Txn) (reason : BitVec 4) (code : BitVec 16) (w' : Wave) : Prop where
  txn : w'.txn = none
  pc : w'.pc = x.target
  exec : w'.exec = x.exec
  status : ∃ n token, w'.readS 61 = abortStatus reason n token code

theorem wave_performAbort_self {s : State} {k : Nat} {x : Txn} (reason : BitVec 4) (code : BitVec 16) (lt : k < s.waves.length)
    (txn : (s.wave k).txn = some x) : AbortedTo (s.wave k) x reason code ((s.performAbort k reason code).wave k) := by
  unfold State.performAbort
  simp only [txn]
  have lt' : k < (if 8 ≤ (s.wave k).aborts + 1 then
      (if reason = 1 then s else s.releaseTokens k).requestTokens k (s.txnSlices x) else if reason = 1 then s else s.releaseTokens k).waves.length := by
    split <;> split <;> exact lt
  rw [wave_count, State.wave_setWave_self _ lt']
  exact ⟨rfl, rfl, rfl, _, _, Wave.readS_writeS_self _ _ (by decide)⟩

theorem wave_abortTxn_ne (s : State) {j k : Nat} (reason : BitVec 4) (code : BitVec 16) (ne : k ≠ j) :
    (s.abortTxn j reason code).wave k = s.wave k := by
  unfold State.abortTxn
  split
  · exact wave_performAbort_ne s reason code ne
  · exact State.wave_modWave_ne _ ne

theorem length_abortTxn (s : State) (k : Nat) (reason : BitVec 4) (code : BitVec 16) : (s.abortTxn k reason code).waves.length = s.waves.length := by
  unfold State.abortTxn
  split
  · exact length_performAbort s k reason code
  · simp

/-- Reason 7 stands in bits [3:0] of the status word (R191). -/
theorem abortStatus_preempt (n : Nat) (token : Bool) : (abortStatus 7 n token 0).toNat % 16 = 7 := by
  change (BitVec.ofNat 64 (7 + 16 * min n 15 + 256 * token.toNat + 65536 * 0)).toNat % 16 = 7
  rw [BitVec.toNat_ofNat]
  omega

/-! ### Preemption requests (R318) -/

/-- The resident waves of some contexts. -/
def State.wavesOf (s : State) (cs : List Nat) : List Nat := s.wavesWith fun w => w.resident && cs.contains w.ctx

/-- The instructions since the request are counted from here. -/
def State.recounted (s : State) (ws : List Nat) : State := ws.foldl (fun s k => s.modWave k fun w => { w with sincePreempt := 0 }) s

/-- A wave's open transaction aborts with PREEMPT, unless it is aborting already (R189). -/
def State.preemptTxn (s : State) (k : Nat) : State :=
  if (s.wave k).txn.isSome && (s.wave k).abort.isNone then s.abortTxn k 7 0 else s

/-- A requested preemption, but for the twins that it stops. -/
def State.requested (s : State) (c : Nat) : State :=
  let u := s.modCtxs (s.partitionCtxs c) fun x => { x with preempting := true }
  (u.wavesOf (s.partitionCtxs c)).foldl State.preemptTxn (u.recounted (u.wavesOf (s.partitionCtxs c)))

/-- A request for a context that is switched in and not preempted yet. -/
theorem exec_preemptionRequest {s : State} {c : Nat} (alive : (s.ctx c).alive = true) (here : (s.ctx c).switchedOut = false)
    (new : (s.ctx c).preempting = false) : ∃ l : List Nat, exec (.preemptionRequest c) s = .next (l.foldl State.stopTwin (s.requested c)) := by
  change ∃ l : List Nat, execPreemptionRequest c s = _
  unfold execPreemptionRequest
  rw [alive, here, new]
  exact ⟨_, rfl⟩

theorem steady_requested (s : State) (c : Nat) :
    Steady (s.modCtxs (s.partitionCtxs c) fun x => { x with preempting := true }) (s.requested c) := by
  refine (Steady.foldl (fun s k => Steady.of_modWave s k _) _ _).trans (Steady.foldl (fun s k => ?_) _ _)
  unfold State.preemptTxn
  split
  · exact Steady.abortTxn _ _ _ _
  · exact Steady.refl s

theorem steady_stopTwins (l : List Nat) (s : State) : Steady s (l.foldl State.stopTwin s) :=
  Steady.foldl (f := State.stopTwin) (fun _ _ => ⟨rfl, rfl, rfl⟩) l s

theorem length_preemptTxn (s : State) (k : Nat) : (s.preemptTxn k).waves.length = s.waves.length := by
  unfold State.preemptTxn
  split
  · exact length_abortTxn s k 7 0
  · rfl

theorem wave_preemptTxn_ne (s : State) {j k : Nat} (ne : k ≠ j) : (s.preemptTxn j).wave k = s.wave k := by
  unfold State.preemptTxn
  split
  · exact wave_abortTxn_ne s 7 0 ne
  · rfl

/-- A wave of the partition with an open transaction and no return outstanding has aborted it. -/
theorem wave_requested {s : State} {c k : Nat} {x : Txn} (lt : k < s.waves.length) (member : (s.wave k).ctx ∈ s.partitionCtxs c)
    (resident : (s.wave k).resident = true) (txn : (s.wave k).txn = some x) (abort : (s.wave k).abort = none)
    (pending : (s.wave k).pending = []) : AbortedTo (s.wave k) x 7 0 ((s.requested c).wave k) := by
  unfold State.requested
  dsimp only
  generalize hu : (s.modCtxs (s.partitionCtxs c) fun x => { x with preempting := true }) = u
  have waves : u.waves = s.waves := by subst hu; exact modCtxs_waves _ _ _
  have same : u.wave k = s.wave k := by simp only [State.wave, waves]
  have ltu : k < u.waves.length := by rw [waves]; exact lt
  have mem : k ∈ u.wavesOf (s.partitionCtxs c) := by
    unfold State.wavesOf
    rw [wave_wavesWith, same]
    simp [ltu, resident, member]
  have nd : (u.wavesOf (s.partitionCtxs c)).Nodup := nodup_wavesWith u _
  obtain ⟨v, hv, ltv, counted⟩ := (wave_foldl (k := k) (P := fun _ => True)
    (f := fun (s : State) (k : Nat) => s.modWave k fun w => { w with sincePreempt := 0 }) (fun s j => by simp)
    (fun s j ne _ => State.wave_modWave_ne _ (Ne.symm ne)) (fun _ _ _ => trivial) nd u ltu trivial).2 mem
  rw [State.wave_modWave_self _ ltv, hv, same] at counted
  have ltw : k < (u.recounted (u.wavesOf (s.partitionCtxs c))).waves.length := by
    unfold State.recounted
    rwa [length_foldl (fun s j => by simp)]
  obtain ⟨v', hv', ltv', aborted⟩ := (wave_foldl (k := k) (P := fun _ => True) length_preemptTxn
    (fun s j ne _ => wave_preemptTxn_ne s (Ne.symm ne)) (fun _ _ _ => trivial) nd
    (u.recounted (u.wavesOf (s.partitionCtxs c))) ltw trivial).2 mem
  rw [aborted]
  change v'.wave k = State.wave (List.foldl _ _ _) k at hv'
  rw [counted] at hv'
  have open_ : (v'.wave k).txn = some x := by rw [hv']; exact txn
  have step : v'.preemptTxn k = v'.performAbort k 7 0 := by
    simp [State.preemptTxn, State.abortTxn, hv', txn, abort, pending]
  rw [step]
  obtain ⟨h1, h2, h3, h4⟩ := wave_performAbort_self 7 0 ltv' open_
  exact ⟨h1, h2, h3, h4⟩

/-- What a preemption request does to its partition. -/
theorem preemptionRequest_stops {s : State} {c : Nat} (lt : c < s.ctxs.length) (alive : (s.ctx c).alive = true)
    (here : (s.ctx c).switchedOut = false) (l : List Nat) :
    ((l.foldl State.stopTwin (s.requested c)).ctx c).preempting = true
    ∧ ∀ n, (s.launch n).ctx = c → (l.foldl State.stopTwin (s.requested c)).dispatches n = false := by
  have steady := (steady_requested s c).trans (steady_stopTwins l _)
  have preempting : ((l.foldl State.stopTwin (s.requested c)).ctx c).preempting = true := by
    rw [steady.preempting, ctx_modCtxs (nodup_partitionCtxs s c) s _ lt, if_pos (mem_partitionCtxs_self lt alive here)]
  refine ⟨preempting, fun n of => ?_⟩
  have launch : ((l.foldl State.stopTwin (s.requested c)).launch n).ctx = c := by
    rw [steady.launch, State.launch, modCtxs_launches]; exact of
  simp [State.dispatches, launch, preempting]

theorem wave_stopTwins (l : List Nat) (s : State) (k : Nat) : (l.foldl State.stopTwin s).wave k = s.wave k := by
  have := waves_foldl (f := State.stopTwin) (fun _ _ => rfl) l s
  simp only [State.wave, this]

/-! ### Saves (R74, R318, R319) -/

theorem waves_writeBackLine (s : State) (x : L2Line) : (s.writeBackLine x).waves = s.waves := by
  unfold State.writeBackLine
  dsimp only
  have healed := waves_foldl (fun s i => (side_healL2 s (4 * x.line + i) x.owner).waves) (List.range 4) s
  split
  · exact (waves_foldl (fun s i => (side_rdcWriteBack s _).waves) _ _).trans healed
  · split
    · exact healed
    · exact (waves_foldl (fun s i => (side_charge s _ _ _ _).waves) _ _).trans healed

theorem waves_emptyShare (s : State) (bank share : Nat) : (s.emptyShare bank share).waves = s.waves := by
  refine waves_foldl (fun s x => ?_) _ s
  unfold State.dropLine
  dsimp only
  split
  · exact (waves_foldl (fun s i => (side_rdcDrop s _).waves) _ _).trans (waves_writeBackLine s x)
  · exact waves_writeBackLine s x

theorem waves_reserveShadow (s : State) : s.reserveShadow.waves = s.waves := by
  unfold State.reserveShadow
  split
  · rfl
  · split
    · rfl
    · refine waves_foldl (fun s b => ?_) _ _
      split
      · exact waves_emptyShare _ _ _
      · rfl

/-- The state of a group is saved beside its waves. -/
theorem waves_saveGroup (s : State) (g : Nat) : (s.saveGroup g).waves = s.waves :=
  (waves_foldl (f := fun (t : State) (e : Nat × Nat) => t.modTwin (2 * t.physCluster (s.group g).ctx e.1 + e.2) fun _ => Twin.reset)
    (fun _ _ => rfl) _ _).trans (waves_reserveShadow s)

/-- A wave that a save takes off its core: what the point keeps of it, or all. -/
def Wave.savedAt (w : Wave) (point : Option PreemptPoint) (n : Nat) : Wave :=
  let x : Wave := if w.state = .blocked ∨ w.state = .yielded then w.unretired
    else { w with savedState := if w.state = .parked then .parked else w.home }
  let y : Wave := match point with
    | some p => { x.liveAt p n with savedFull := false, savedFlags := p.flags }
    | none => { x with savedFull := true, savedFlags := 7 }
  { y with state := .saved, hold := .none, preempted := false, unmarked := [], regErrs := [], shadow := [] }

theorem waves_lastSave (c : Prop) {_ : Decidable c} (s : State) (g : Nat) : (if c then s else s.saveGroup g).waves = s.waves := by
  split
  · rfl
  · exact waves_saveGroup s g

/-- A save changes its own wave alone. -/
theorem waves_saveWave (s : State) (k : Nat) (point : Option PreemptPoint) :
    (s.saveWave k point).waves = s.waves.set k ((s.wave k).savedAt point s.free) := by
  unfold State.saveWave
  exact waves_lastSave _ _ _

theorem wave_saveWave {s : State} {k : Nat} (lt : k < s.waves.length) (point : Option PreemptPoint) :
    (s.saveWave k point).wave k = (s.wave k).savedAt point s.free := by
  simp only [State.wave, waves_saveWave]
  exact State.wave_setWave_self (s := s) _ lt

/-- A wave that runs is saved in its home state: whole, or with what the point marks. -/
theorem savedAt_of_runs {w : Wave} (runs : w.state = .ready ∨ w.state = .handler) (n : Nat) :
    w.savedAt none n = { w with savedState := w.home, savedFull := true, savedFlags := 7, state := .saved, hold := .none
                                preempted := false, unmarked := [], regErrs := [], shadow := [] }
    ∧ ∀ p, w.savedAt (some p) n = { ({ w with savedState := w.home } : Wave).liveAt p n with
        savedFull := false, savedFlags := p.flags, state := .saved, hold := .none, preempted := false, unmarked := [], regErrs := [], shadow := [] } := by
  have awake : ¬(w.state = .blocked ∨ w.state = .yielded) := by obtain h | h := runs <;> simp [h]
  have unparked : ¬w.state = .parked := by obtain h | h := runs <;> simp [h]
  refine ⟨?_, fun p => ?_⟩ <;>
  · unfold Wave.savedAt
    rw [if_neg awake, if_neg unparked]

/-- A wave that is drained has no transaction to abort first. -/
theorem txnDue_of_drained {s : State} {k : Nat} (h : s.drained k = true) : s.txnDue k = false := by
  simp only [State.drained, Bool.and_eq_true, Option.isNone_iff_eq_none] at h
  simp [State.txnDue, h.2]

theorem exec_preemptionSave {s : State} {k : Nat} {p : PreemptPoint} (preempting : (s.ctx (s.wave k).ctx).preempting = true)
    (drained : s.drained k = true) (acorn : s.acornAt k = true) (ready : (s.wave k).state = .ready) (user : (s.wave k).priv = .u)
    (goes : (s.wave k).quantumEnded = false) (point : s.pointOf (s.wave k) = some p) :
    exec (.preemptionSave k) s = .next (s.saveWave k (some p)) := by
  have due : s.saveDue k = some (some p) := by simp [State.saveDue, preempting, user, drained, ready, goes, point]
  change execPreemptionSave k s = _
  simp [execPreemptionSave, txnDue_of_drained drained, due, State.saveOr, acorn, event]

theorem exec_fullSave {s : State} {k : Nat} (preempting : (s.ctx (s.wave k).ctx).preempting = true)
    (drained : s.drained k = true) (acorn : s.acornAt k = true) (late : 16384 ≤ (s.wave k).sincePreempt)
    (runs : (s.wave k).state = .ready ∨ (s.wave k).state = .handler) : exec (.fullSave k) s = .next (s.saveWave k none) := by
  have due : s.fullSaveDue k = true := by
    obtain h | h := runs <;> simp [State.fullSaveDue, preempting, drained, late, h]
  change execFullSave k s = _
  simp [execFullSave, txnDue_of_drained drained, due, State.saveOr, acorn, event]

/-- A list in which what a point does not mark is replaced holds what it marks. -/
theorem getD_marked {α : Type} (live : Nat → Bool) (free : Nat → α) (l : List α) (d : α) {r : Nat} (marked : live r = true) :
    ((List.range l.length).map fun i => if live i then l.getD i d else free i).getD r d = l.getD r d := by
  simp only [List.getD_eq_getElem?_getD, List.getElem?_map]
  by_cases h : r < l.length
  · simp [h, marked]
  · simp [h]

/-- A list of which a point marks everything is as it was. -/
theorem marked_all {α : Type} (live : Nat → Bool) (free : Nat → α) (l : List α) (d : α) (marked : ∀ r, live r = true) :
    ((List.range l.length).map fun i => if live i then l.getD i d else free i) = l := by
  refine List.ext_getElem (by simp) fun n h g => ?_
  simp [marked, g]

/-- A wave that is saved at a point keeps what the point marks. -/
theorem preemptionSave_keeps {s : State} {k : Nat} {p : PreemptPoint} (lt : k < s.waves.length) (ready : (s.wave k).state = .ready)
    (user : (s.wave k).priv = .u) :
    let w := (s.saveWave k (some p)).wave k
    w.state = .saved ∧ w.savedState = .ready ∧ w.pc = (s.wave k).pc ∧ w.valloc = (s.wave k).valloc
      ∧ (∀ r, p.slive.getLsbD r = true → w.s.getD r 0 = (s.wave k).s.getD r 0)
      ∧ (∀ r, p.vlive.getLsbD r = true → w.readV r = (s.wave k).readV r)
      ∧ (∀ r, p.plive.getLsbD r = true → w.p.getD r 0 = (s.wave k).p.getD r 0)
      ∧ (p.flags.getLsbD 2 = true → w.sbank = (s.wave k).sbank) := by
  dsimp only
  rw [wave_saveWave lt, (savedAt_of_runs (.inl ready) s.free).2 p]
  refine ⟨rfl, if_pos user, rfl, rfl, fun r h => ?_, fun r h => ?_, fun r h => ?_, fun h => ?_⟩
  · exact getD_marked _ _ _ _ h
  · exact getD_marked _ _ _ _ h
  · exact getD_marked _ _ _ _ h
  · exact marked_all _ _ _ _ fun _ => h

/-- A wave that is saved whole keeps all its registers. -/
theorem fullSave_keeps {s : State} {k : Nat} (lt : k < s.waves.length) (runs : (s.wave k).state = .ready ∨ (s.wave k).state = .handler) :
    ((s.saveWave k none).wave k).state = .saved ∧ ((s.saveWave k none).wave k).savedState = (s.wave k).home
      ∧ KeptWhole s (s.saveWave k none) k := by
  have eq : (s.saveWave k none).wave k = _ := (wave_saveWave lt none).trans (savedAt_of_runs runs s.free).1
  refine ⟨by rw [eq], by rw [eq], ?_⟩
  constructor <;> rw [eq]

/-! ### Restores (R295, R319) -/

theorem length_wakeTickets (s : State) (q : Nat) : (s.wakeTickets q).waves.length = s.waves.length := (Wakes.wakeTickets s q).length

theorem wave_retireAt_ne (s : State) {j k : Nat} (i : Instr) (p : Priv) (n : VAddr) (e : List Byte) (ne : k ≠ j) :
    (s.retireAt j i p n e).wave k = s.wave k := by
  simp only [State.wave, (counted_retireAt s j i p n e).waves]
  exact State.wave_setWave_ne _ ne

theorem wave_ticketDone_ne (s : State) {j k : Nat} (i : Instr) (q seq : Nat) (next : VAddr) (ne : k ≠ j) :
    (s.ticketDone j i q seq next).wave k = s.wave k := by
  unfold State.ticketDone
  dsimp only
  rw [wave_retireAt_ne _ _ _ _ _ ne]
  split <;> rfl

/-- A fold whose steps leave wave `k` alone while `P` holds of it leaves it alone. -/
theorem wave_foldl_same {α : Type} {f : State → α → State} {k : Nat} {P : Wave → Prop}
    (h : ∀ s x, P (s.wave k) → (f s x).wave k = s.wave k) (l : List α) {s : State} (p : P (s.wave k)) : (l.foldl f s).wave k = s.wave k := by
  induction l generalizing s with
  | nil => rfl
  | cons x t ih => exact (ih (by rw [h s x p]; exact p)).trans (h s x p)

/-- A wave that waits for nothing is not woken by a copy. -/
theorem wave_wakeTickets {s : State} {k : Nat} (q : Nat) (idle : (s.wave k).wait = .nothing) : (s.wakeTickets q).wave k = s.wave k := by
  refine wave_foldl_same (P := fun w => w.wait = .nothing) (fun s j idle => ?_) _ idle
  by_cases ne : k = j
  · subst ne
    simp only [idle]
  · dsimp only
    split
    · split
      · rfl
      · split
        · exact State.wave_modWave_ne _ ne
        · split
          · rfl
          · split
            · exact (wave_ticketDone_ne _ _ _ _ _ ne).trans (State.wave_setWave_ne _ ne)
            · exact State.wave_setWave_ne _ ne
    · rfl

/-- Wave `k` in the seat that it is restored to. -/
def State.reseated (s : State) (k : Nat) : State :=
  let w := s.wave k
  let taken := s.slotsTaken w.ctx [] w.clid w.coreid w.quarter
  let seat := if taken.contains w.slot then s.seatOn w.ctx [] (w.clid, w.coreid) none
    else { clid := w.clid, coreid := w.coreid, quarter := w.quarter, slot := w.slot }
  (s.setWave k { w with
    state := w.savedState, quarter := seat.quarter, slot := seat.slot
    preempted := (w.savedState == .ready || w.savedState == .handler) && !w.quantumEnded, eligibleSince := s.cc
    sincePreempt := 0 }).remirror (s.coreOf w)

theorem wave_reseated_self {s : State} {k : Nat} (lt : k < s.waves.length) :
    ((s.reseated k).wave k).wait = (s.wave k).wait ∧ ((s.reseated k).wave k).state = (s.wave k).savedState ∧ KeptWhole s (s.reseated k) k := by
  have eq : (s.reseated k).wave k = _ := State.wave_setWave_self _ lt
  refine ⟨by rw [eq], by rw [eq], ?_⟩
  constructor <;> rw [eq]

theorem wave_reseated_ne (s : State) {j k : Nat} (ne : k ≠ j) : (s.reseated j).wave k = s.wave k := State.wave_setWave_ne _ ne

theorem length_reseated (s : State) (k : Nat) : (s.reseated k).waves.length = s.waves.length := List.length_set ..

theorem steady_reseated (s : State) (k : Nat) : Steady s (s.reseated k) := ⟨rfl, rfl, rfl⟩

/-- A restored wave takes up its wait where the machine has come meanwhile (R196, R234). -/
def State.resumed (s : State) (k : Nat) (w : Wave) : State :=
  match w.wait with
  | .claim n => s.modCore (s.coreOf w) fun c => { c with claims := c.claims ++ [(k, n)] }
  | .barrier e phase =>
    match (s.ctx w.ctx).barrier e with
    | some b => if b.broken then s.modWave k fun w => { w with state := w.home, wait := .nothing, stalled := none }
      else if phase < b.phase then s.unblock k else s
    | none => s
  | .ticket q _ => s.wakeTickets q
  | .nothing | .emit _ | .batch _ | .service _ | .stage2 _ => s

theorem restoreWave_eq (s : State) (k : Nat) : s.restoreWave k = (s.reseated k).resumed k (s.wave k) := by
  unfold State.restoreWave State.resumed
  rfl

theorem length_resumed (s : State) (k : Nat) (w : Wave) : (s.resumed k w).waves.length = s.waves.length := by
  unfold State.resumed
  split
  · rfl
  · split
    · split
      · simp
      · split
        · exact unblock_len s k
        · rfl
    · rfl
  · exact length_wakeTickets s _
  all_goals rfl

theorem steady_resumed (s : State) (k : Nat) (w : Wave) : Steady s (s.resumed k w) := by
  unfold State.resumed
  split
  · exact ⟨rfl, rfl, rfl⟩
  · split
    · split
      · exact ⟨rfl, rfl, rfl⟩
      · split
        · exact Steady.unblock s k
        · exact Steady.refl s
    · exact Steady.refl s
  · exact Steady.wakeTickets s _
  all_goals exact Steady.refl s

/-- Another wave that waits for nothing does not notice. -/
theorem wave_resumed_ne {s : State} {j k : Nat} (w : Wave) (ne : k ≠ j) (idle : (s.wave k).wait = .nothing) :
    (s.resumed j w).wave k = s.wave k := by
  unfold State.resumed
  split
  · rfl
  · split
    · split
      · exact State.wave_modWave_ne _ ne
      · split
        · exact wave_unblock_ne s j k ne
        · rfl
    · rfl
  · exact wave_wakeTickets _ idle
  all_goals rfl

theorem length_restoreWave (s : State) (k : Nat) : (s.restoreWave k).waves.length = s.waves.length := by
  rw [restoreWave_eq, length_resumed, length_reseated]

theorem steady_restoreWave (s : State) (k : Nat) : Steady s (s.restoreWave k) := by
  rw [restoreWave_eq]
  exact (steady_reseated s k).trans (steady_resumed _ _ _)

theorem wave_restoreWave_ne {s : State} {j k : Nat} (ne : k ≠ j) (idle : (s.wave k).wait = .nothing) :
    (s.restoreWave j).wave k = s.wave k := by
  rw [restoreWave_eq, wave_resumed_ne _ ne (by rwa [wave_reseated_ne s ne]), wave_reseated_ne s ne]

/-- A wave that waits for nothing goes on in its saved state with its registers. -/
theorem wave_restoreWave_self {s : State} {k : Nat} (lt : k < s.waves.length) (idle : (s.wave k).wait = .nothing) :
    ((s.restoreWave k).wave k).wait = .nothing ∧ ((s.restoreWave k).wave k).state = (s.wave k).savedState ∧ KeptWhole s (s.restoreWave k) k := by
  have eq : s.restoreWave k = s.reseated k := by rw [restoreWave_eq, State.resumed, idle]
  rw [eq, ← idle]
  exact wave_reseated_self lt

/-- The waves of a group that are saved. -/
def State.savedMembers (s : State) (g : Nat) : List Nat := (s.members g).filter fun k => (s.wave k).state == .saved

theorem nodup_savedMembers (s : State) (g : Nat) : (s.savedMembers g).Nodup := List.Nodup.filter _ (nodup_wavesWith s _)

theorem asked_pair (c : Prop) {_ : Decidable c} (s : State) (p : Nat) (f : Pair → Pair) :
    (if c then s.modPair p f else s).waves = s.waves ∧ Steady s (if c then s.modPair p f else s) := by
  split
  · exact ⟨rfl, rfl, rfl, rfl⟩
  · exact ⟨rfl, Steady.refl s⟩

/-- Scratchpad, tiles and queues come back before the waves, and leave waves, contexts and launches alone. -/
theorem restoreGroup_waves (s : State) (g : Nat) : ∃ u : State, u.waves = s.waves ∧ Steady s u
    ∧ (s.restoreGroup g).waves = ((u.savedMembers g).foldl State.restoreWave u).waves
    ∧ Steady ((u.savedMembers g).foldl State.restoreWave u) (s.restoreGroup g) := by
  refine ⟨?u, ?waves, ?steady, ?last⟩
  case last =>
    unfold State.restoreGroup
    exact asked_pair _ _ _ _
  case waves =>
    refine Eq.trans (waves_foldl (fun s e => ?_) _ _) rfl
    dsimp only
    split <;> rfl
  case steady =>
    have back (f : State → Nat × Nat × Twin → State) (hf : ∀ s e, Steady s (f s e)) (l : List (Nat × Nat × Twin)) (v : State)
        (saves : List GroupSave) (same : Steady s v) : Steady s { l.foldl f v with saves := saves } :=
      (same.trans (Steady.foldl hf l v)).trans ⟨rfl, rfl, rfl⟩
    refine back _ (fun s e => ?_) _ _ _ ⟨rfl, rfl, rfl⟩
    dsimp only
    split <;> exact ⟨rfl, rfl, rfl⟩

/-- What a wave keeps depends on that wave alone. -/
theorem keptWhole_congr {s s' t t' : State} {k : Nat} (h : KeptWhole s t k) (before : s'.wave k = s.wave k) (after : t'.wave k = t.wave k) :
    KeptWhole s' t' k := by
  obtain ⟨scalars, sbank, v, p, exec, pc, priv, tcause, tmask, taddr, taddrTile, tpc, valloc⟩ := h
  constructor <;> rw [before, after] <;> assumption

/-- A restored group's waves that wait for nothing go on in their saved states, with their registers. -/
theorem wave_restoreGroup {s : State} {g k : Nat} (member : k ∈ s.members g) (saved : (s.wave k).state = .saved)
    (idle : (s.wave k).wait = .nothing) :
    ((s.restoreGroup g).wave k).state = (s.wave k).savedState ∧ KeptWhole s (s.restoreGroup g) k := by
  obtain ⟨u, waves, -, restored, -⟩ := restoreGroup_waves s g
  have lt : k < s.waves.length := (wave_wavesWith.1 member).1
  have same : u.wave k = s.wave k := by simp only [State.wave, waves]
  have mem : k ∈ u.savedMembers g := by
    have member' : k ∈ u.members g := by
      have := wave_wavesWith.1 member
      exact wave_wavesWith.2 ⟨by rw [waves]; exact this.1, by rw [same]; exact this.2⟩
    simp [State.savedMembers, member', same, saved]
  obtain ⟨v, hv, ltv, eq⟩ := (wave_foldl (k := k) (P := fun w => w.wait = .nothing) length_restoreWave
    (fun s j ne idle => wave_restoreWave_ne (Ne.symm ne) idle) (fun s lt idle => (wave_restoreWave_self lt idle).1) (nodup_savedMembers u g) u
    (by rw [waves]; exact lt) (by rw [same]; exact idle)).2 mem
  have here : (s.restoreGroup g).wave k = (v.restoreWave k).wave k := by
    have := congrArg (fun l : List Wave => l.getD k default) restored
    exact this.trans eq
  have before : v.wave k = s.wave k := hv.trans same
  obtain ⟨-, state, kept⟩ := wave_restoreWave_self ltv (by rw [before]; exact idle)
  rw [before] at state
  refine ⟨by rw [here]; exact state, ?_⟩
  exact keptWhole_congr kept before.symm here

theorem steady_restoreGroup (s : State) (g : Nat) : Steady s (s.restoreGroup g) := by
  obtain ⟨u, -, first, -, last⟩ := restoreGroup_waves s g
  exact (first.trans (Steady.foldl steady_restoreWave _ u)).trans last

/-- The preemption of a partition has ended. -/
def State.released (s : State) (c : Nat) : State := s.modCtxs (s.partitionCtxs c) fun x => { x with preempting := false }

/-- A restore that is due ends the preemption and brings back the groups that fit. -/
theorem exec_preemptionRestore {s : State} {c : Nat} (here : (s.ctx c).switchedOut = false)
    (due : (s.ctx c).preempting = false ∨ (s.partitionSaved c = true ∧ s.cp.switching = none)) :
    execPreemptionRestore c s = .next (((s.released c).restorable c).foldl (fun s g => if s.groupFits g then s.restoreGroup g else s) (s.released c)) := by
  have go : ((s.ctx c).switchedOut || ((s.ctx c).preempting && (!s.partitionSaved c || s.cp.switching.isSome))) = false := by
    obtain h | ⟨h, g⟩ := due <;> simp [*]
  unfold execPreemptionRestore
  rw [go]
  exact rfl

theorem steady_restores (l : List Nat) (s : State) : Steady s (l.foldl (fun s g => if s.groupFits g then s.restoreGroup g else s) s) := by
  refine Steady.foldl (fun s g => ?_) l s
  split
  · exact steady_restoreGroup s g
  · exact Steady.refl s

/-! ### The world switch (R323) -/

/-- The switched contexts: those of the outgoing function out, those of the incoming one in. -/
def State.switchedOver (s : State) (out into : Nat) : State :=
  let u := s.modCtxs (s.functionCtxs (s.ctx out).fn) fun x => { x with switchedOut := true, preempting := false }
  u.modCtxs (u.functionCtxs (u.ctx into).fn) fun x => { x with switchedOut := false, preempting := false }

theorem ctx_switchedOver {s : State} {out into : Nat} (lto : out < s.ctxs.length) (lti : into < s.ctxs.length)
    (ne : (s.ctx out).fn ≠ (s.ctx into).fn) (outAlive : (s.ctx out).alive = true) (intoAlive : (s.ctx into).alive = true) :
    ((s.switchedOver out into).ctx out).switchedOut = true ∧ ((s.switchedOver out into).ctx into).switchedOut = false
      ∧ ((s.switchedOver out into).ctx into).preempting = false := by
  unfold State.switchedOver
  dsimp only
  generalize hu : (s.modCtxs (s.functionCtxs (s.ctx out).fn) fun x => { x with switchedOut := true, preempting := false }) = u
  have length : u.ctxs.length = s.ctxs.length := by rw [← hu, modCtxs_length]
  have uout : u.ctx out = { s.ctx out with switchedOut := true, preempting := false } := by
    rw [← hu, ctx_modCtxs (nodup_functionCtxs ..) s _ lto, if_pos (mem_functionCtxs.2 ⟨lto, outAlive, rfl⟩)]
  have uinto : u.ctx into = s.ctx into := by
    rw [← hu, ctx_modCtxs (nodup_functionCtxs ..) s _ lti, if_neg fun m => by obtain ⟨-, -, fn⟩ := mem_functionCtxs.1 m; exact ne fn.symm]
  have outStays : out ∉ u.functionCtxs (u.ctx into).fn := fun m => by
    obtain ⟨-, -, fn⟩ := mem_functionCtxs.1 m
    rw [uout, uinto] at fn
    exact ne fn
  have intoMem : into ∈ u.functionCtxs (u.ctx into).fn := mem_functionCtxs.2 ⟨by rw [length]; exact lti, by rw [uinto]; exact intoAlive, rfl⟩
  rw [ctx_modCtxs (nodup_functionCtxs ..) u _ (by rw [length]; exact lto), if_neg outStays, uout,
    ctx_modCtxs (nodup_functionCtxs ..) u _ (by rw [length]; exact lti), if_pos intoMem]
  exact ⟨rfl, rfl, rfl⟩

/-- A world switch begins with the preemption of the outgoing partition. -/
theorem worldSwitch_begins {s : State} {out into : Nat} (lt : out < s.ctxs.length) (outAlive : (s.ctx out).alive = true)
    (intoAlive : (s.ctx into).alive = true) (idle : s.cp.switching = none) (here : (s.ctx out).switchedOut = false)
    (away : (s.ctx into).switchedOut = true) (new : (s.ctx out).preempting = false) :
    ∃ t, exec (.worldSwitch out into) s = .next t ∧ t.cp.switching = some (out, into) ∧ (t.ctx out).preempting = true := by
  let u : State := { s with cp := { s.cp with switching := some (out, into) } }
  obtain ⟨l, (request : execPreemptionRequest out u = _)⟩ := exec_preemptionRequest (s := u) (c := out) outAlive here new
  have stops := preemptionRequest_stops (s := u) (c := out) lt outAlive here l
  refine ⟨l.foldl State.stopTwin (u.requested out), ?_, ?_, stops.1⟩
  · have begins : s.beginSwitch out into = l.foldl State.stopTwin (u.requested out) := by
      unfold State.beginSwitch
      change (match execPreemptionRequest out u with | .next s => s | _ => u) = _
      rw [request]
    change event (match s.cp.switching with | none => _ | some e => _) = _
    rw [idle]
    simp only [outAlive, intoAlive, here, away, new, begins, Bool.not_false, Bool.and_self, if_true, event]
  · have steady := (steady_requested u out).trans (steady_stopTwins l _)
    rw [steady.switching, modCtxs_cp]

/-- The outgoing partition is saved: the switch ends. -/
theorem worldSwitch_ends {s : State} {out into : Nat} (lto : out < s.ctxs.length) (lti : into < s.ctxs.length)
    (ne : (s.ctx out).fn ≠ (s.ctx into).fn) (outAlive : (s.ctx out).alive = true) (intoAlive : (s.ctx into).alive = true)
    (going : s.cp.switching = some (out, into)) (preempting : (s.ctx out).preempting = true) (saved : s.partitionSaved out = true) :
    ∃ t, exec (.worldSwitch out into) s = .next t ∧ t.cp.switching = none ∧ (t.ctx out).switchedOut = true
      ∧ (t.ctx into).switchedOut = false := by
  obtain ⟨outOut, intoIn, intoFree⟩ := ctx_switchedOver lto lti ne outAlive intoAlive
  let v := s.switchedOver out into
  let w := ({ v with cp := { v.cp with switching := none } } : State).modFunc (v.ctx into).fn fun f => { f with since := v.lc }
  have restore := exec_preemptionRestore (s := w) (c := into) intoIn (.inl intoFree)
  have finishes : s.finishSwitch out into = ((w.released into).restorable into).foldl
      (fun s g => if s.groupFits g then s.restoreGroup g else s) (w.released into) := by
    unfold State.finishSwitch
    change (match execPreemptionRestore into w with | .next s => s | _ => w) = _
    rw [restore]
  have steady := steady_restores ((w.released into).restorable into) (w.released into)
  have out_ (c : Nat) (lt : c < s.ctxs.length) : ((w.released into).ctx c).switchedOut = (v.ctx c).switchedOut := by
    have length : c < w.ctxs.length := by
      change c < (State.modCtxs _ _ _).ctxs.length
      rw [modCtxs_length, modCtxs_length]
      exact lt
    unfold State.released
    rw [ctx_modCtxs (nodup_partitionCtxs ..) w _ length]
    split <;> rfl
  refine ⟨s.finishSwitch out into, ?_, ?_, ?_, ?_⟩
  · change event (match s.cp.switching with | none => _ | some e => _) = _
    rw [going]
    simp [preempting, saved, event]
  · rw [finishes, steady.switching, State.released, modCtxs_cp]
    rfl
  · rw [finishes, steady.switchedOut, out_ out lto]; exact outOut
  · rw [finishes, steady.switchedOut, out_ into lti]; exact intoIn

/-- A partition that is saved comes back: the preemption ends, and the group that fits goes on. -/
theorem preemptionRestore_restores {s : State} {c g : Nat} (lt : c < s.ctxs.length) (alive : (s.ctx c).alive = true)
    (here : (s.ctx c).switchedOut = false) (idle : s.cp.switching = none) (saved : s.partitionSaved c = true)
    (only : (s.released c).restorable c = [g]) (fits : (s.released c).groupFits g = true) :
    ∃ t, exec (.preemptionRestore c) s = .next t ∧ (t.ctx c).preempting = false
      ∧ ∀ k ∈ s.members g, (s.wave k).state = .saved → (s.wave k).wait = .nothing →
        (t.wave k).state = (s.wave k).savedState ∧ KeptWhole s t k := by
  have runs : exec (.preemptionRestore c) s = .next ((s.released c).restoreGroup g) := by
    change execPreemptionRestore c s = _
    rw [exec_preemptionRestore here (.inr ⟨saved, idle⟩), only, List.foldl_cons, List.foldl_nil, if_pos fits]
  have waves : (s.released c).waves = s.waves := modCtxs_waves _ _ _
  refine ⟨_, runs, ?_, fun k member isSaved waits => ?_⟩
  · rw [(steady_restoreGroup _ g).preempting, State.released, ctx_modCtxs (nodup_partitionCtxs ..) s _ lt,
      if_pos (mem_partitionCtxs_self lt alive here)]
  · have same : (s.released c).wave k = s.wave k := by simp only [State.wave, waves]
    have member' : k ∈ (s.released c).members g := by
      obtain ⟨inside, of⟩ := wave_wavesWith.1 member
      exact wave_wavesWith.2 ⟨by rw [waves]; exact inside, by rw [same]; exact of⟩
    obtain ⟨state, kept⟩ := wave_restoreGroup member' (by rw [same]; exact isSaved) (by rw [same]; exact waits)
    rw [same] at state
    exact ⟨state, keptWhole_congr kept same.symm rfl⟩

/-- Settles O41, event by event. -/
theorem preemption : Obligations.Preemption := by
  refine ⟨fun s c lt alive here new => ?request, fun s k lt preempting drained acorn => ⟨fun p ready user goes point => ?point,
    fun late runs => ?whole⟩, fun s c g lt alive here idle saved => ?restore, fun s out into lto lti ne outAlive intoAlive => ⟨?begins, ?ends⟩⟩
  case request =>
    obtain ⟨l, request⟩ := exec_preemptionRequest alive here new
    obtain ⟨preempting, stopped⟩ := preemptionRequest_stops lt alive here l
    refine ⟨_, request, preempting, stopped, fun k x ltk of resident txn abort pending => ?_⟩
    have member : (s.wave k).ctx ∈ s.partitionCtxs c := by rw [of]; exact mem_partitionCtxs_self lt alive here
    obtain ⟨gone, pc, mask, n, token, status⟩ := wave_requested ltk member resident txn abort pending
    rw [wave_stopTwins]
    exact ⟨gone, pc, mask, by rw [status]; exact abortStatus_preempt n token⟩
  case point => exact ⟨_, exec_preemptionSave preempting drained acorn ready user goes point, preemptionSave_keeps lt ready user⟩
  case whole => exact ⟨_, exec_fullSave preempting drained acorn late runs, fullSave_keeps lt runs⟩
  case restore => exact fun only fits => preemptionRestore_restores lt alive here idle saved only fits
  case begins => exact worldSwitch_begins lto outAlive intoAlive
  case ends => exact worldSwitch_ends lto lti ne outAlive intoAlive

end Sys2Proof.Machine
end

section
/-! PROOF. Steps and fetches (O55). -/

namespace Sys2Proof.Machine

open Sys2Proof.Safety Sys2Proof.Rules


/-! ### What a fetch does before it reads its block (R307, R309) -/

/-- A core without its instruction cache and its translations. -/
def Core.uncoded (c : Core) : Core := { c with icache := [], tlb := [] }

/-- `t` is `s` but for traffic that touches no byte, no L1 and no instruction cache: translations, requests, counters. -/
structure Translated (s t : State) : Prop where
  side : MemorySide s t
  mem : t.mem = s.mem
  cores : t.cores.map Core.uncoded = s.cores.map Core.uncoded
  icaches : t.cores.map Core.icache = s.cores.map Core.icache

namespace Translated

theorem refl (s : State) : Translated s s := ⟨.refl s, rfl, rfl, rfl⟩

theorem trans {s t u : State} (h : Translated s t) (g : Translated t u) : Translated s u :=
  ⟨h.side.trans g.side, g.mem.trans h.mem, g.cores.trans h.cores, g.icaches.trans h.icaches⟩

theorem postWalk (s : State) (a : Asker) (va : Nat) : Translated s (s.postWalk a va) := by
  unfold State.postWalk
  generalize s.walkPas a.ctx va = l
  induction l generalizing s with
  | nil => exact refl s
  | cons pa l ih =>
    obtain ⟨mem, cores⟩ := post_mem s a (pa / 64) false
    exact Translated.trans ⟨side_post s a (pa / 64) false, mem, by rw [cores], by rw [cores]⟩ (ih _)

theorem noteFrame (s : State) (c : Nat) (e : TlbEntry) : Translated s (s.noteFrame c e) := by
  refine ⟨side_noteFrame s c e, ?_, ?_, ?_⟩ <;>
  · unfold State.noteFrame
    dsimp only
    split <;> rfl

theorem fillTlb (s : State) (c core : Nat) (e : TlbEntry) : Translated s (s.fillTlb c core e) := by
  refine Translated.trans ?_ (noteFrame _ c e)
  exact ⟨side_modCore s core _ fun _ => rfl, rfl, map_modAt _ _ _ _ fun _ => rfl, map_modAt _ _ _ _ fun _ => rfl⟩

theorem countDenials (s : State) (c n : Nat) : Translated s (s.countDenials c n) := by
  refine ⟨side_countDenials s c n, ?_, ?_, ?_⟩ <;>
  · unfold State.countDenials
    split <;> rfl

theorem block {s t : State} (h : Translated s t) (core blk : Nat) : (t.core core).block blk = (s.core core).block blk := by
  have := congrArg (fun l : List (List (Nat × List Byte)) => l.getD core (default : Core).icache) h.icaches
  rw [getD_map', getD_map'] at this
  unfold Core.block
  exact congrArg (fun l : List (Nat × List Byte) => (l.find? fun e => e.1 == blk).map Prod.snd) this

end Translated

/-- Wave `k`'s translation is in the TLB of its core, walked for where it was not. -/
def State.translated (s : State) (k : Nat) (e : TlbEntry) : State :=
  let w := s.wave k
  let known := (s.core (s.coreOf w)).tlb.any fun x => x.asid == e.asid && x.vpage == e.vpage
  (if known then s else s.postWalk { core := s.coreOf w, ctx := w.ctx, cls := 0, umode := w.priv == .u } w.pc.toNat).fillTlb w.ctx (s.coreOf w) e

theorem State.translated_def (s : State) (k : Nat) (e : TlbEntry) : s.translated k e =
    (if (s.core (s.coreOf (s.wave k))).tlb.any fun x => x.asid == e.asid && x.vpage == e.vpage then s
      else s.postWalk { core := s.coreOf (s.wave k), ctx := (s.wave k).ctx, cls := 0, umode := (s.wave k).priv == .u } (s.wave k).pc.toNat).fillTlb
      (s.wave k).ctx (s.coreOf (s.wave k)) e := rfl

theorem translated_of (s : State) (k : Nat) (e : TlbEntry) : Translated s (s.translated k e) := by
  unfold State.translated
  dsimp only
  split
  · exact Translated.fillTlb s _ _ e
  · exact (Translated.postWalk s _ _).trans (Translated.fillTlb _ _ _ e)

theorem codeBlock_sound {s : State} (sound : s.mem.icErrs = []) (core blk : Nat) : s.codeBlock core blk = (s.core core).block blk := by
  simp [State.codeBlock, sound]

theorem dropBlock_sound {s : State} (sound : s.mem.icErrs = []) (core blk owner : Nat) : s.dropBlock core blk owner = s := by
  simp [State.dropBlock, sound]

/-- The physical address of a wave's next instruction on a page. -/
def Wave.codePa (w : Wave) (e : TlbEntry) : Nat := e.ppage * 65536 + w.pc.toNat % 65536

/-- A fetch from a block that the instruction cache holds. -/
theorem fetch_hit {s : State} {k : Nat} {e : TlbEntry} {data : List Byte} (page : s.fetchPage (s.wave k) = .ok e) (sound : s.mem.icErrs = [])
    (here : (s.core (s.coreOf (s.wave k))).block ((s.wave k).codePa e / 64) = some data) :
    s.fetch k = .word ((s.translated k e).modCore (s.coreOf (s.wave k)) fun c => c.keepBlock ((s.wave k).codePa e / 64) data)
      (blockWord data ((s.wave k).codePa e % 64)) := by
  have T := translated_of s k e
  have block := (codeBlock_sound (by rw [T.mem]; exact sound) (s.coreOf (s.wave k)) ((s.wave k).codePa e / 64)).trans ((T.block _ _).trans here)
  have pa : (s.wave k).codePa e = e.ppage * 65536 + (s.wave k).pc.toNat % 65536 := rfl
  unfold State.fetch
  simp only [page, ← pa, ← State.translated_def, block]

/-- A fetch from a block that the home serves without an error. -/
theorem fetch_miss {s t : State} {k : Nat} {e : TlbEntry} {data : List Byte} (page : s.fetchPage (s.wave k) = .ok e) (sound : s.mem.icErrs = [])
    (missing : (s.core (s.coreOf (s.wave k))).block ((s.wave k).codePa e / 64) = none)
    (served : ((s.translated k e).countDenials (s.wave k).ctx (denials [e])).nearRead
      { core := s.coreOf (s.wave k), ctx := (s.wave k).ctx, cls := 0, umode := (s.wave k).priv == .u } ((s.wave k).codePa e / 64) = (data, 0, t)) :
    s.fetch k = .word (t.modCore (s.coreOf (s.wave k)) fun c => c.keepBlock ((s.wave k).codePa e / 64) data)
      (blockWord data ((s.wave k).codePa e % 64)) := by
  have T := translated_of s k e
  have sound' : (s.translated k e).mem.icErrs = [] := by rw [T.mem]; exact sound
  have block := (codeBlock_sound sound' (s.coreOf (s.wave k)) ((s.wave k).codePa e / 64)).trans ((T.block _ _).trans missing)
  have pa : (s.wave k).codePa e = e.ppage * 65536 + (s.wave k).pc.toNat % 65536 := rfl
  unfold State.fetch
  simp only [page, ← pa, ← State.translated_def, block, dropBlock_sound sound', served]
  exact if_pos (by simp)

/-! ### The bytes of a block (R138) -/

theorem core_oob (s : State) {n : Nat} (h : s.cores.length ≤ n) : s.core n = default := List.getD_eq_default _ _ h

/-- A machine without errors is in order for a core that it does not have. -/
theorem ordered_outside {s : State} (clean : Clean s) (rdc : RdcWf s) (home : Memory.wf s.mem.home = true) : Ordered s s.cores.length := by
  refine ⟨clean, home, rdc, ?_⟩
  rw [core_oob s (Nat.le_refl _)]
  exact ⟨List.nodup_nil, fun x hx => absurd hx List.not_mem_nil⟩

/-- A read of a sector that the remote data cache holds gives the bytes that are served. -/
theorem nearRead_held {s : State} {core : Nat} (o : Ordered s core) (a : Asker) {r : RdcSector} (mem : r ∈ s.mem.rdc) :
    ∀ pa, sectorOf pa = r.sec → (s.nearRead a r.sec).1.getD (pa % 64) 0 = servedByte s pa := by
  obtain ⟨-, peer, husk⟩ := o.rdc.2 r mem
  have sp := shifts_post o a r.sec false
  obtain ⟨h, hh⟩ := Option.isSome_iff_exists.1 husk
  have stale : ((s.l2Words r.sec).any (fun w => !w.isEmpty) && s.mem.rdc.any fun x => x.sec == r.sec && x.dirty == 0) = false := by
    rw [l2Words_clean o.clean]; rfl
  have posted : (s.post a r.sec false).mem = s.mem := (post_mem s a r.sec false).1
  have peer' : (s.post a r.sec false).isPeer (64 * r.sec) = true := by rw [isPeer_side sp.side]; exact peer
  have husk' : (s.post a r.sec false).remoteHusk = some h := by rw [remoteHusk_side sp.side]; exact hh
  have held : (s.post a r.sec false).mem.rdc.any (fun x => x.sec == r.sec) = true := by
    rw [posted]; exact List.any_eq_true.2 ⟨r, mem, by simp⟩
  intro pa at_
  have use := (rdcUse_spec sp.ordered h a.ctx r.sec peer' (by rw [husk']; rfl)).2.2.2.2 pa at_
  have stays : ((s.post a r.sec false).rdcUse h a.ctx r.sec).2 = s.post a r.sec false := by
    unfold State.rdcUse
    exact if_pos held
  rw [stays, servedByte_congr sp.side (by rw [posted]) (by rw [posted])] at use
  unfold State.nearRead
  rw [heal_clean sp.ordered.clean, healL2_clean sp.ordered.clean]
  simp only [badBytes_clean sp.ordered.clean, stale, peer', husk', decide_true, Bool.true_and, Bool.false_eq_true, if_false, if_true]
  exact use.1

/-- A read of a whole sector at its home gives the bytes that are served. -/
theorem nearRead_served {s : State} {core : Nat} (o : Ordered s core) (a : Asker) (sec : Nat) :
    ∃ t, s.nearRead a sec = ((List.range 64).map fun j => servedByte s (64 * sec + j), 0, t) ∧ Shifts s t core := by
  obtain ⟨d, t, read, length, shifts, bytes⟩ := nearRead_spec o a sec
  have served (pa : Nat) (at_ : sectorOf pa = sec) : d.getD (pa % 64) 0 = servedByte s pa := by
    by_cases held : ∃ r ∈ s.mem.rdc, r.sec = sec
    · obtain ⟨r, mem, num⟩ := held
      have kept := nearRead_held o a mem
      rw [num, read] at kept
      exact kept pa at_
    · have none_ : s.mem.rdc.find? (fun r => r.sec == sectorOf pa) = none := by
        rw [find_rdc_none, at_]
        exact fun r mem num => held ⟨r, mem, num⟩
      have eq : servedByte s pa = nearByte s pa := by
        rw [servedByte_eq o.rdc, nearByte_eq o.rdc, none_]
        rfl
      exact (bytes pa at_).elim id fun h => h.trans eq.symm
  refine ⟨t, ?_, shifts⟩
  rw [read]
  congr 1
  refine List.ext_getElem (by simp [length]) fun j h g => ?_
  have lt : j < 64 := by rwa [length] at h
  have := served (64 * sec + j) (by unfold sectorOf; omega)
  have place : (64 * sec + j) % 64 = j := by omega
  rw [place, List.getD_eq_getElem _ _ h] at this
  simp [this]

/-! ### Fetches (R122, R138) -/

/-- Traffic that moves no byte, and then a block that a core keeps: what a fetch may change. -/
theorem fetchSide_of {s t : State} (side : MemorySide s t)
    (homes : ∀ pa, Memory.read t.mem.home pa = Memory.read s.mem.home pa ∨ Memory.read t.mem.home pa = nearByte s pa)
    (near : ∀ pa, nearByte t pa = nearByte s pa) (cores : t.cores.map Core.uncoded = s.cores.map Core.uncoded) (core blk : Nat)
    (data : List Byte) : FetchSide s (t.modCore core fun c => c.keepBlock blk data) where
  side := ⟨side.rest, side.sp, side.host, side.ctxs, side.launches, rfl⟩
  homes := homes
  near := near
  cores := (map_modAt Core.uncoded (fun c => c.keepBlock blk data) t.cores core fun _ => rfl).trans cores

/-- A fetch takes a block whole, from the instruction cache or as its home serves it. -/
theorem fetch_block {s : State} {k : Nat} {e : TlbEntry} (page : s.fetchPage (s.wave k) = .ok e) (clean : Clean s)
    (sound : s.mem.icErrs = []) (rdc : RdcWf s) (home : Memory.wf s.mem.home = true) :
    let pa := (s.wave k).codePa e
    let block := ((s.core (s.coreOf (s.wave k))).block (pa / 64)).getD ((List.range 64).map fun j => servedByte s (64 * (pa / 64) + j))
    ∃ t, s.fetch k = .word t (blockWord block (pa % 64)) ∧ FetchSide s t := by
  dsimp only
  cases held : (s.core (s.coreOf (s.wave k))).block ((s.wave k).codePa e / 64) with
  | some data =>
    have T := translated_of s k e
    exact ⟨_, fetch_hit page sound held, fetchSide_of T.side (fun pa => .inl (by rw [T.mem]))
      (fun pa => nearByte_congr T.side (by rw [T.mem]) (by rw [T.mem]) pa) T.cores _ _ _⟩
  | none =>
    have T := (translated_of s k e).trans (Translated.countDenials _ (s.wave k).ctx (denials [e]))
    have ordered := ordered_outside (clean.of_mem T.mem) (rdcWf_congr T.side (by rw [T.mem]) rdc) (by rw [T.mem]; exact home)
    obtain ⟨t, read, shifts⟩ := nearRead_served ordered
      { core := s.coreOf (s.wave k), ctx := (s.wave k).ctx, cls := 0, umode := (s.wave k).priv == .u } ((s.wave k).codePa e / 64)
    have near (pa : Nat) := nearByte_congr T.side (by rw [T.mem]) (by rw [T.mem]) pa
    simp only [servedByte_congr T.side (by rw [T.mem]) (by rw [T.mem])] at read
    refine ⟨_, fetch_miss page sound held read, fetchSide_of (T.side.trans shifts.side) (fun pa => ?_) (fun pa => ?_) ?_ _ _ _⟩
    · exact (shifts.homes pa).imp (fun h => h.trans (by rw [T.mem])) fun h => h.trans (near pa)
    · exact (shifts.near pa).trans (near pa)
    · rw [shifts.cores]; exact T.cores

/-- A fetch whose translation fails raises the cause of the failure, with the address fetched; a table entry that cannot be read is no
such failure. -/
theorem fetch_fault {s : State} {k : Nat} {x : WalkErr} (page : s.fetchPage (s.wave k) = .error x) (h1 : x ≠ .badEntry1) (h2 : x ≠ .badEntry2) :
    s.fetch k = .raised (s.raise k { cause := x.cause .fetch, mask := (s.wave k).exec, addr := (s.wave k).pc }) := by
  unfold State.fetch
  cases x with
  | badEntry1 => exact absurd rfl h1
  | badEntry2 => exact absurd rfl h2
  | _ => simp only [page]

/-! ### The end of a cc (R6, R201, R273, R379) -/

/-- `t` is `s` but for counters, messages and the packets that wait in the fabric. -/
structure Ages (s t : State) : Prop where
  waves : t.waves = s.waves
  mem : t.mem = s.mem
  cores : t.cores = s.cores
  groups : t.groups = s.groups
  jalti : t.jalti = s.jalti
  times : (t.cc, t.lc, t.lcPart) = (s.cc, s.lc, s.lcPart)
  ctxs : t.ctxs.map uncounted = s.ctxs.map uncounted

namespace Ages

theorem of_counted {s t : State} (h : Counted s t) : Ages s t where
  waves := h.waves
  mem := h.mem
  cores := h.cores
  groups := h.groups
  jalti := by have := congrArg State.jalti h.rest; exact this
  times := by have := congrArg (fun x : State => (x.cc, x.lc, x.lcPart)) h.rest; exact this
  ctxs := h.ctxs

theorem trans {s t u : State} (h : Ages s t) (g : Ages t u) : Ages s u :=
  ⟨g.waves.trans h.waves, g.mem.trans h.mem, g.cores.trans h.cores, g.groups.trans h.groups, g.jalti.trans h.jalti,
    g.times.trans h.times, g.ctxs.trans h.ctxs⟩

theorem ctx {s t : State} (h : Ages s t) (c : Nat) : uncounted (t.ctx c) = uncounted (s.ctx c) := by
  have := congrArg (fun l : List Context => l.getD c (uncounted default)) h.ctxs
  rwa [getD_map', getD_map'] at this

theorem wave {s t : State} (h : Ages s t) (k : Nat) : t.wave k = s.wave k := by simp only [State.wave, h.waves]

theorem group {s t : State} (h : Ages s t) (g : Nat) : t.group g = s.group g := by simp only [State.group, h.groups]

end Ages

theorem counted_foldl {α : Type} {f : State → α → State} (h : ∀ s x, Counted s (f s x)) (l : List α) (s : State) : Counted s (l.foldl f s) := by
  induction l generalizing s with
  | nil => exact Counted.refl s
  | cons x t ih => exact (h s x).trans (ih _)

theorem ages_ageFabric (s : State) : Ages s s.ageFabric := by
  unfold State.ageFabric
  refine Ages.trans (Ages.of_counted (counted_foldl (fun s p => ?_) _ s)) ⟨rfl, rfl, rfl, rfl, rfl, rfl, rfl⟩
  split
  · exact counted_count _ _ _ _ _
  · exact Counted.refl s

/-- The state of a cc's end before the clocks go on. -/
def State.aged (s : State) : State :=
  let cs := ((s.waves.filter Wave.resident).map Wave.ctx).eraseDups
  let s1 := cs.foldl (fun s c => s.count c 0x01 1 (s.waves.any fun w => w.resident && w.ctx == c && w.priv == .u)) s
  State.ageFabric ((s.waves.filter fun w => w.state == .parked).foldl (fun s w => s.count w.ctx 0x06 1 (w.priv == .u)) s1)

theorem ages_aged (s : State) : Ages s s.aged :=
  ((Ages.of_counted (counted_foldl (fun s c => counted_count s c _ _ _) _ s)).trans
    (Ages.of_counted (counted_foldl (fun s (w : Wave) => counted_count s w.ctx _ _ _) _ _))).trans (ages_ageFabric _)

theorem nextCc_eq (s : State) : s.nextCc = { s.aged.tick.watch with cc := s.cc + 1, turn := 0 } := rfl

theorem group_watch (s : State) {g : Nat} (lt : g < s.groups.length) : s.watch.group g = s.watchGroup g := by
  change ((List.range s.groups.length).map s.watchGroup).getD g default = _
  rw [List.getD_eq_getElem _ _ (by simpa using lt)]
  simp

/-- Whether a group is in claim deadlock does not depend on what ages. -/
theorem Ages.claimDeadlocked {s t : State} (h : Ages s t) (g : Nat) : t.claimDeadlocked g = s.claimDeadlocked g := by
  have members : t.members g = s.members g := by
    simp only [State.members, State.wavesWith, h.waves, h.wave]
  have preempting (c : Nat) : (t.ctx c).preempting = (s.ctx c).preempting := by
    have := congrArg Context.preempting (h.ctx c); exact this
  have phys (c clid : Nat) : t.physCluster c clid = s.physCluster c clid := by
    have := congrArg (fun x : Context => x.clusterMap.getD clid clid) (h.ctx c); exact this
  have pair (n : Nat) : t.pair n = s.pair n := by simp only [State.pair, h.jalti]
  have checked (w : Wave) : t.checked w = s.checked w := by simp only [State.checked, State.ilevelOf, h.group]
  have pairOf (w : Wave) : t.pairOf w = s.pairOf w := by simp only [State.pairOf, phys]
  simp only [State.claimDeadlocked, members, h.wave, h.group, preempting, pair, checked, pairOf]

/-- What watching a claim deadlock leaves: the group but for the count, which is none without a deadlock and at most one higher with one. -/
theorem watchGroup_spec (s : State) (g : Nat) :
    s.watchGroup g = { s.group g with stuck := (s.watchGroup g).stuck, marks := (s.watchGroup g).marks }
    ∧ (s.claimDeadlocked g = false → (s.watchGroup g).stuck = 0)
    ∧ (s.claimDeadlocked g = true → 1 ≤ (s.watchGroup g).stuck ∧ (s.watchGroup g).stuck ≤ (s.group g).stuck + 1) := by
  unfold State.watchGroup
  cases dead : s.claimDeadlocked g with
  | true =>
    refine ⟨rfl, fun h => absurd h (by decide), fun _ => ?_⟩
    simp only [if_true]
    split <;> omega
  | false =>
    simp only [Bool.false_eq_true, if_false]
    split
    · next still =>
      simp only [Bool.and_eq_true, decide_eq_true_eq] at still
      exact ⟨rfl, fun _ => still.1, fun h => absurd h (by decide)⟩
    · exact ⟨rfl, fun _ => rfl, fun h => absurd h (by decide)⟩

/-- A clock that goes on leaves everything but the launches' back-offs. -/
theorem tick_rest (s : State) : s.tick.waves = s.waves ∧ s.tick.mem = s.mem ∧ s.tick.cores = s.cores ∧ s.tick.groups = s.groups
    ∧ ∀ g, s.tick.claimDeadlocked g = s.claimDeadlocked g := by
  unfold State.tick
  dsimp only
  split <;> exact ⟨rfl, rfl, rfl, rfl, fun _ => rfl⟩

/-- A cc is 500 parts of the launcher clock's 2 ns in as many parts as the clock has MHz (R273). -/
theorem tick_time (s : State) :
    (s.lcPart + 500 < s.clock → s.tick.lc = s.lc ∧ s.tick.lcPart = s.lcPart + 500)
    ∧ (s.clock ≤ s.lcPart + 500 → s.tick.lc = s.lc + 1 ∧ s.tick.lcPart = s.lcPart + 500 - s.clock ∧ s.tick.lcEnd = true) := by
  have part : s.tick = if s.lcPart + 500 < s.clock then _ else _ := rfl
  refine ⟨fun h => ?_, fun h => ?_⟩
  · rw [part, if_pos h]; exact ⟨rfl, rfl⟩
  · rw [part, if_neg (Nat.not_lt.2 h)]; exact ⟨rfl, rfl, rfl⟩

/-! ### The order of a step (R292, R355, log 6) -/

theorem step_agenda {s : State} {i : Instr} {rest : List Instr} (agenda : s.agenda = i :: rest) :
    step s = stepAgenda i { s with agenda := rest, cur := none } := by
  unfold step
  rw [agenda]

theorem step_halted {s : State} (empty : s.agenda = []) (fatal : s.cp.fatal = true) : step s = .next s := by
  unfold step
  split
  · next agenda => rw [empty] at agenda; contradiction
  · exact if_pos fatal

theorem step_unit {s : State} (empty : s.agenda = []) (live : s.cp.fatal = false) (turn : s.turn = 0) :
    (∀ t, ({ s with cur := none } : State).auto = some t → step s = .next t)
    ∧ (({ s with cur := none } : State).auto = none → step s = .next { s with cur := none, turn := 1 }) := by
  have awake : ¬s.cp.fatal = true := by simp [live]
  unfold step
  split
  · next agenda => rw [empty] at agenda; contradiction
  · rw [if_neg awake, if_pos turn]
    exact ⟨fun t auto => by rw [auto], fun auto => by rw [auto]⟩

theorem step_quarter {s : State} {n : Nat} (empty : s.agenda = []) (live : s.cp.fatal = false) (turn : s.turn = n + 1) :
    (∀ q k, s.nextIssue n = some (q, k) → step s = stepWave k { s with turn := q + 2, cur := some k })
    ∧ (s.nextIssue n = none → step s = .next s.nextCc) := by
  have awake : ¬s.cp.fatal = true := by simp [live]
  have later : ¬s.turn = 0 := by omega
  have before : s.turn - 1 = n := by omega
  unfold step
  split
  · next agenda => rw [empty] at agenda; contradiction
  · rw [if_neg awake, if_neg later, before]
    exact ⟨fun q k issue => by rw [issue], fun issue => by rw [issue]⟩

/-- A wave runs what its fetched word decodes to, or enters the handler with what the word or the fetch raises. -/
theorem stepWave_spec (k : Nat) (s : State) :
    (∀ t w i, s.fetch k = .word t w → decodeWord w = .ok i → stepWave k s = exec i t)
    ∧ (∀ t w, s.fetch k = .word t w → decodeWord w = .illegalOpcode → stepWave k s = .next (t.trapExec k 1))
    ∧ (∀ t w, s.fetch k = .word t w → decodeWord w = .reservedField → stepWave k s = .next (t.trapExec k 2))
    ∧ (∀ t, s.fetch k = .raised t → stepWave k s = .next t) := by
  unfold stepWave
  refine ⟨fun t w i fetch decode => ?_, fun t w fetch decode => ?_, fun t w fetch decode => ?_, fun t fetch => ?_⟩
  · rw [fetch]; dsimp only; rw [decode]
  · rw [fetch]; dsimp only; rw [decode]; rfl
  · rw [fetch]; dsimp only; rw [decode]; rfl
  · rw [fetch]

/-- The end of a cc counts the cc and its part of the launcher clock, watches the deadlocks, and touches no wave and no memory. -/
theorem nextCc_spec (s : State) :
    s.nextCc.cc = s.cc + 1 ∧ s.nextCc.turn = 0 ∧ s.nextCc.waves = s.waves ∧ s.nextCc.mem = s.mem ∧ s.nextCc.cores = s.cores
    ∧ (s.lcPart + 500 < s.clock → s.nextCc.lc = s.lc ∧ s.nextCc.lcPart = s.lcPart + 500)
    ∧ (s.clock ≤ s.lcPart + 500 → s.nextCc.lc = s.lc + 1 ∧ s.nextCc.lcPart = s.lcPart + 500 - s.clock ∧ s.nextCc.lcEnd = true)
    ∧ ∀ g, g < s.groups.length → s.nextCc.group g = { s.group g with stuck := (s.nextCc.group g).stuck, marks := (s.nextCc.group g).marks }
      ∧ (s.claimDeadlocked g = false → (s.nextCc.group g).stuck = 0)
      ∧ (s.claimDeadlocked g = true → 1 ≤ (s.nextCc.group g).stuck ∧ (s.nextCc.group g).stuck ≤ (s.group g).stuck + 1) := by
  have A := ages_aged s
  obtain ⟨waves, mem, cores, groups, dead⟩ := tick_rest s.aged
  obtain ⟨inside, beyond⟩ := tick_time s.aged
  have clock : s.aged.clock = s.clock := by simp only [State.clock, A.jalti]
  have times := A.times
  simp only [Prod.mk.injEq] at times
  obtain ⟨-, lc, part⟩ := times
  rw [clock, part, lc] at inside beyond
  rw [nextCc_eq]
  generalize s.aged.tick = u at *
  refine ⟨rfl, rfl, waves.trans A.waves, mem.trans A.mem, cores.trans A.cores, inside, beyond, fun g lt => ?_⟩
  have group : State.group { u.watch with cc := s.cc + 1, turn := 0 } g = u.watchGroup g := group_watch u (by rw [groups, A.groups]; exact lt)
  have same : u.group g = s.group g := by simp only [State.group, groups, A.groups]
  rw [group, ← A.claimDeadlocked g, ← dead g, ← same]
  exact watchGroup_spec u g

/-- Settles O55, from the order of the agenda, the units and the quarters to the fetch. -/
theorem stepRunsDecoded : Obligations.StepRunsDecoded := by
  refine ⟨fun s i rest agenda event live => ?agenda, fun s fatal => ⟨fun empty => step_halted empty fatal, fun i rest agenda other => ?refused,
      fun k i => ?silent⟩,
    fun s empty live => ⟨step_unit empty live, fun n q k turn issue => ?issue, fun n turn none_ => ?cc⟩,
    fun s k => ⟨fun e page clean sound rdc home => ?fetch, fun x page kind => ?fault, fun page => ?format, fun page => ?stage2⟩⟩
  case agenda =>
    have counts : (i.isEvent && (!s.cp.fatal || i.isReset)) = true := by
      obtain h | h := live <;> simp [event, h]
    rw [step_agenda agenda]
    exact if_pos counts
  case refused =>
    rw [step_agenda agenda]
    exact if_neg (by simp [fatal, other])
  case silent => simp [State.canIssue, fatal]
  case issue =>
    rw [(step_quarter empty live turn).1 q k issue]
    exact stepWave_spec k _
  case cc => exact ⟨s.nextCc, (step_quarter empty live turn).2 none_, nextCc_spec s⟩
  case fetch => exact fetch_block page clean sound rdc home
  case fault =>
    obtain rfl | rfl | rfl := kind <;> exact fetch_fault page (by decide) (by decide)
  case format => exact fetch_fault page (by decide) (by decide)
  case stage2 => exact fetch_fault page (by decide) (by decide)

end Sys2Proof.Machine
end

section
/-! PROOF. Combined atomic requests (O19). -/

namespace Sys2Proof.Machine

open Sys2Proof.Safety Sys2Proof.Rules

/-- The aggregator's running folds are the partial folds of the lanes' values. -/
theorem foldl_append_last (g : Nat → Nat → Nat) (t acc : List Nat) (v : Nat) :
    t.foldl (fun acc x => acc ++ [g (acc.getLastD v) x]) (acc ++ [v]) = acc ++ t.scanl g v := by
  suffices h : ∀ d, t.foldl (fun acc x => acc ++ [g (acc.getLastD d) x]) (acc ++ [v]) = acc ++ t.scanl g v from h v
  intro d
  induction t generalizing acc v with
  | nil => simp
  | cons x t ih =>
    have last : (acc ++ [v]).getLastD d = v := by simp
    rw [List.foldl_cons, last, ih (acc ++ [v]) (g v x), List.scanl_cons, List.append_assoc, List.singleton_append]

/-- Partial folds of an associative operation, each applied to the old value, are what the lanes would leave one after another. -/
theorem oneByOne_of_assoc {g : Nat → Nat → Nat} (assoc : ∀ a b c, g (g a b) c = g a (g b c)) (old v : Nat) (t : List Nat) :
    oneByOne g old (v :: t) = (g old ((t.scanl g v).getLastD v), old :: (t.scanl g v).dropLast.map (g old)) := by
  suffices h : ∀ d, oneByOne g old (v :: t) = (g old ((t.scanl g v).getLastD d), old :: (t.scanl g v).dropLast.map (g old)) from h v
  intro d
  induction t generalizing v with
  | nil => simp [oneByOne]
  | cons x t ih =>
    have next := ih (g v x)
    have ne : t.scanl g (g v x) ≠ [] := by simp
    simp only [oneByOne, ← assoc, Prod.mk.injEq, List.cons.injEq, true_and] at next ⊢
    rw [List.scanl_cons, List.dropLast_cons_of_ne_nil ne, List.map_cons, next.1, next.2]
    simp [List.getLastD_eq_getLast?, ne, List.getLast?_eq_some_getLast]

theorem AtomOp.apply_assoc {op : AtomOp} (hf : op ≠ .fadd) (w64 : Bool) (a b c : Nat) :
    op.apply w64 (op.apply w64 a b) c = op.apply w64 a (op.apply w64 b c) := by
  cases op with
  | add => simp [AtomOp.apply, Nat.add_assoc]
  | min => grind [AtomOp.apply]
  | max => grind [AtomOp.apply]
  | minu => exact Nat.min_assoc a b c
  | maxu => exact Nat.max_assoc a b c
  | and => exact Nat.and_assoc a b c
  | or => exact Nat.or_assoc a b c
  | xor => exact Nat.xor_assoc a b c
  | swap => rfl
  | cas => rfl
  | fadd => exact absurd rfl hf

/-- Settles O19: every operation but FADD is associative. -/
theorem combinedAtomics : Obligations.CombinedAtomics := by
  intro op w64 old vs hf _ _ _
  cases vs with
  | nil => rfl
  | cons v t =>
    rw [oneByOne_of_assoc (AtomOp.apply_assoc hf w64), ← List.nil_append (t.scanl _ v), ← foldl_append_last]
    rfl

end Sys2Proof.Machine
end

section
/-! PROOF. Bit-plane slabs and the scale words of tensor slots (O26). -/

namespace Sys2Proof.Machine

open Sys2Proof.Safety Sys2Proof.Rules

/-! ### Slabs (R221) -/

/-- Bit `n` of a value clamped to `p` bits in two's complement. -/
theorem testBit_wrapTo_clampTo (p n : Nat) (x : Int) :
    (wrapTo p (clampTo (minOf true p) (maxOf true p) x)).testBit n =
      decide ((max (-(2 ^ (p - 1) : Int)) (min (2 ^ (p - 1) - 1 : Int) x) % 2 ^ p) / 2 ^ n % 2 = 1) := by
  have value : ((wrapTo p (clampTo (minOf true p) (maxOf true p) x) : Nat) : Int) =
      max (-(2 ^ (p - 1) : Int)) (min (2 ^ (p - 1) - 1 : Int) x) % 2 ^ p := by
    rw [cast_wrapTo, clampTo_eq _ _ _ (minOf_le _ _)]
    simp [minOf, maxOf]
  rw [Nat.testBit_eq_decide_div_mod_eq, ← value]
  norm_cast

theorem getLsbD_slabByte (t : ET) (regs : Nat → VReg) (p i b j : Nat) (hj : j < 8) :
    let e := 8 * b + j
    let n := t.count
    let x := toSigned t.width (elemOf t.width (laneOf (regs (e / (32 * n))) (e % (32 * n) / n)) (e % n))
    (slabByte t regs p i b).getLsbD j = (wrapTo p (clampTo (minOf true p) (maxOf true p) x)).testBit (p - 1 - i) := by
  simp only [slabByte, BitVec.getLsbD_ofNat, testBit_foldr, List.getElem?_range hj, hj, decide_true, Bool.true_and, Option.map_some,
    Option.getD_some]

/-! ### Scale words (R105) -/

theorem foldl_max_spec (l : List Nat) (a : Nat) :
    a ≤ l.foldl Nat.max a ∧ (∀ e ∈ l, e ≤ l.foldl Nat.max a) ∧ (l.foldl Nat.max a = a ∨ l.foldl Nat.max a ∈ l) := by
  induction l generalizing a with
  | nil => simp
  | cons x t ih =>
    obtain ⟨base, all, mem⟩ := ih (Nat.max a x)
    have ha : a ≤ Nat.max a x := Nat.le_max_left a x
    have hx : x ≤ Nat.max a x := Nat.le_max_right a x
    refine ⟨ha.trans base, ?_, ?_⟩
    · intro e he
      obtain rfl | he := List.mem_cons.1 he
      · exact hx.trans base
      · exact all e he
    · obtain eq | mem := mem
      · obtain h | h := max_choice a x
        · exact .inl (eq.trans h)
        · exact .inr (by rw [List.foldl_cons, eq.trans h]; simp)
      · exact .inr (List.mem_cons_of_mem x mem)

theorem emaxOf_eq_slotEmax (fmt : BitVec 2) : emaxOf fmt = slotEmax fmt := by
  revert fmt; decide

theorem fp32Log2_log2Code {c : Nat} (pos : 0 < c) : fp32Log2 c (log2Code c) := by
  have exponent : bits c 30 23 = c / 2 ^ 23 % 256 := by simp [bits, Nat.shiftRight_eq_div_pow]
  unfold fp32Log2 log2Code
  rw [exponent]
  by_cases sub : c / 2 ^ 23 % 256 = 0
  · exact ⟨c.log2, c, Nat.log2_self_le (by omega), Nat.lt_log2_self, by rw [if_pos sub, if_pos sub]; simp⟩
  · exact ⟨23, 2 ^ 23 + c % 2 ^ 23, by omega, by omega, by rw [if_neg sub, if_neg sub]; omega⟩

/-- The valid entries of a slot, newest first. -/
def Slot.valid (x : Slot) : List Nat := (List.range x.count).map fun k => (x.entries.getD ((x.head + 15 - k) % 16) 0).toNat

/-- The exponent that a slot's maximum gives. -/
def Slot.scale (x : Slot) (amax : Nat) : Int :=
  if amax = 0 then 127
  else if 0x7F800000 ≤ amax then 254
  else clampTo 0 254 (127 + log2Code amax - emaxOf x.fmt + x.margin.toNat)

theorem Slot.word_eq (x : Slot) : x.word =
    BitVec.ofNat 64 (x.valid.foldl Nat.max 0 + 2 ^ 32 * (x.scale (x.valid.foldl Nat.max 0)).toNat + 2 ^ 40 * x.count + 2 ^ 45 * x.nan.toNat) := rfl

theorem Slot.scale_range (x : Slot) (amax : Nat) : 0 ≤ x.scale amax ∧ x.scale amax ≤ 254 := by
  unfold Slot.scale
  split
  · omega
  · split
    · omega
    · rw [clampTo_eq _ _ _ (by omega)]; omega

theorem Slot.valid_le {x : Slot} (h : ∀ e ∈ x.entries, e.toNat ≤ 0x7F800000) : ∀ e ∈ x.valid, e ≤ 0x7F800000 := by
  intro e he
  obtain ⟨k, _, rfl⟩ := List.mem_map.1 he
  rw [List.getD_eq_getElem?_getD]
  cases hx : x.entries[(x.head + 15 - k) % 16]? with
  | none => simp
  | some y => exact h y (List.mem_of_getElem? hx)

/-- The fields of a scale word. -/
theorem Slot.word_fields {x : Slot} (count : x.count ≤ 16) (entries : ∀ e ∈ x.entries, e.toNat ≤ 0x7F800000) :
    let amax := x.valid.foldl Nat.max 0
    x.word.toNat % 2 ^ 32 = amax ∧ ((x.word.toNat / 2 ^ 32 % 256 : Nat) : Int) = x.scale amax
      ∧ x.word.toNat / 2 ^ 40 % 32 = x.count ∧ x.word.toNat / 2 ^ 45 = x.nan.toNat := by
  intro amax
  have small : amax ≤ 0x7F800000 := by
    obtain h | h := (foldl_max_spec x.valid 0).2.2
    · exact h.trans_le (by omega)
    · exact Slot.valid_le entries _ h
  obtain ⟨lo, hi⟩ := x.scale_range amax
  have nan := Bool.toNat_le x.nan
  have word : x.word.toNat = amax + 2 ^ 32 * (x.scale amax).toNat + 2 ^ 40 * x.count + 2 ^ 45 * x.nan.toNat := by
    rw [Slot.word_eq, BitVec.toNat_ofNat]
    exact Nat.mod_eq_of_lt (by change amax + 2 ^ 32 * (x.scale amax).toNat + 2 ^ 40 * x.count + 2 ^ 45 * x.nan.toNat < _; omega)
  rw [word]
  omega

/-- Settles O26. -/
theorem slabsAndScales : Obligations.SlabsAndScales := by
  refine ⟨fun t regs p i b j _ _ _ _ _ hj => (getLsbD_slabByte t regs p i b j hj).trans (testBit_wrapTo_clampTo _ _ _), ?_⟩
  intro x count entries valid amax scale
  obtain ⟨hamax, hscale, hcount, hnan⟩ := Slot.word_fields count entries
  obtain ⟨-, all, mem⟩ := foldl_max_spec x.valid 0
  have hs : (scale : Int) = x.scale amax := by rw [← hamax] at hscale; exact hscale
  rw [← hamax] at all mem
  refine ⟨all, mem, ?zero, ?inf, ?finite, hcount, hnan⟩
  case zero =>
    intro h
    have : x.scale amax = 127 := if_pos h
    omega
  case inf =>
    intro h
    have : x.scale amax = 254 := by rw [h]; rfl
    omega
  case finite =>
    intro pos fin
    refine ⟨log2Code amax, fp32Log2_log2Code pos, ?_⟩
    rw [hs, ← emaxOf_eq_slotEmax, ← clampTo_eq _ _ _ (by omega), Slot.scale, if_neg (by omega), if_neg (by omega)]

end Sys2Proof.Machine
end

section
/-! PROOF. The products of an MMA.BP (O27): what a k-step adds to an accumulator. -/

namespace Sys2Proof.Machine

open Sys2Proof.Safety Sys2Proof.Rules

/-! ### Sums -/

theorem sum_map_range (n : Nat) (f : Nat → Int) : ((List.range n).map f).sum = ∑ i ∈ Finset.range n, f i := rfl

/-- The number of 1 bits is the sum of the bits. -/
theorem popCount_eq_sum {w : Nat} (x : BitVec w) : (popCount x : Int) = ∑ k ∈ Finset.range w, (if x.getLsbD k then 1 else 0 : Int) := by
  rw [← sum_map_range, popCount]
  induction List.range w with
  | nil => rfl
  | cons k t ih => rw [List.countP_cons, List.map_cons, List.sum_cons, ← ih]; split <;> push_cast <;> ring

/-- The bits of little-endian bytes. -/
theorem testBit_ofBytes (l : List Byte) (n : Nat) : (ofBytes l).testBit n = (l.getD (n / 8) 0).getLsbD (n % 8) := by
  induction l generalizing n with
  | nil => simp [ofBytes]
  | cons b t ih =>
    have split : ofBytes (b :: t) = 2 ^ 8 * ofBytes t + b.toNat := by rw [ofBytes]; omega
    rw [split, Nat.testBit_two_pow_mul_add _ b.isLt]
    by_cases low : n < 8
    · rw [if_pos low, Nat.div_eq_of_lt low, Nat.mod_eq_of_lt low]; rfl
    · rw [if_neg low, ih, show n / 8 = (n - 8) / 8 + 1 by omega, List.getD_cons_succ, show (n - 8) % 8 = n % 8 by omega]

/-! ### Products (R96, R210) -/

/-- Bit `k` of plane `i` of an element given by its rows of bits. -/
def rowBit (a : List Nat) (i k : Nat) : Bool := (a.getD i 0).testBit k

theorem planeValue_eq_sum (p : Nat) (b : Nat → Bool) : planeValue p b = ∑ i ∈ Finset.range p, planeWeight p i * (if b i then 1 else 0) := by
  rw [planeValue, sum_map_range]
  refine Finset.sum_congr rfl fun i _ => ?_
  unfold planeWeight
  split <;> split <;> simp

/-- The engine's sum over pairs of planes is the sum of the products of the elements (R96). -/
theorem planeDot_eq (a b : List Nat) :
    planeDot a b = ((List.range 128).map fun k => planeValue a.length (rowBit a · k) * planeValue b.length (rowBit b · k)).sum := by
  have bit (i j : Nat) : (popCount (BitVec.ofNat 128 (a.getD i 0 &&& b.getD j 0)) : Int) =
      ∑ k ∈ Finset.range 128, (if rowBit a i k then 1 else 0 : Int) * (if rowBit b j k then 1 else 0 : Int) := by
    rw [popCount_eq_sum]
    refine Finset.sum_congr rfl fun k hk => ?_
    rw [BitVec.getLsbD_ofNat, Nat.testBit_and, decide_eq_true (Finset.mem_range.1 hk), Bool.true_and]
    unfold rowBit
    cases (a.getD i 0).testBit k <;> cases (b.getD j 0).testBit k <;> rfl
  have pairs : planeDot a b = ∑ i ∈ Finset.range a.length, ∑ j ∈ Finset.range b.length, planeWeight a.length i * planeWeight b.length j *
      (popCount (BitVec.ofNat 128 (a.getD i 0 &&& b.getD j 0)) : Int) := by
    simp only [planeDot, ← List.sum_eq_foldl, List.flatMap, List.sum_flatten, List.map_map, Function.comp_def, ← sum_map_range]
  rw [pairs, sum_map_range]
  simp only [bit, planeValue_eq_sum, Finset.sum_mul_sum]
  simp only [Finset.mul_sum]
  calc _ = ∑ i ∈ Finset.range a.length, ∑ k ∈ Finset.range 128, ∑ j ∈ Finset.range b.length,
        planeWeight a.length i * (if rowBit a i k then 1 else 0) * (planeWeight b.length j * (if rowBit b j k then 1 else 0)) :=
        Finset.sum_congr rfl fun i _ => Finset.sum_comm.trans <| Finset.sum_congr rfl fun k _ => Finset.sum_congr rfl fun j _ => by ring
    _ = _ := Finset.sum_comm

/-- An element read from the planes at some keys: row `r`, bit `k` (R98). -/
theorem planeValue_planeRows (read : Nat → Byte) (key : Nat → Nat) {p r k : Nat} (hr : r < 64) (hk : k < 128) :
    planeValue p (rowBit (rowOf (((List.range p).map key).map (planeRows read)) r) · k) =
      planeValue p fun i => (read (key i + 16 * r + k / 8)).getLsbD (k % 8) := by
  refine congrArg List.sum (List.map_congr_left fun i hi => ?_)
  have row : (rowOf (((List.range p).map key).map (planeRows read)) r).getD i 0 =
      ofBytes ((List.range 16).map fun j => read (key i + 16 * r + j)) := by
    simp [rowOf, planeRows, hr, List.mem_range.1 hi]
  have bit : rowBit (rowOf (((List.range p).map key).map (planeRows read)) r) i k = (read (key i + 16 * r + k / 8)).getLsbD (k % 8) := by
    have byte : k / 8 < 16 := by omega
    rw [rowBit, row, testBit_ofBytes]
    simp [byte]
  simp only [bit]

/-! ### Tiles (R107) -/

theorem toInt_storeInt (x : Int) : (BitVec.ofNat 32 (storeInt true true 32 x)).toInt = clamped x := by
  have clamp : clampTo (minOf true 32) (maxOf true 32) x = clamped x := clampTo_eq _ _ _ (minOf_le _ _)
  have value := cast_wrapTo 32 (clamped x)
  have range : -(2 ^ 31) ≤ clamped x ∧ clamped x ≤ 2 ^ 31 - 1 := by unfold clamped; omega
  rw [storeInt, if_pos rfl, clamp, BitVec.toInt_eq_toNat_cond, BitVec.toNat_ofNat, Nat.mod_eq_of_lt (wrapTo_lt _ _)]
  omega

/-- A list of `n` rows of `m` entries, at row `r` and column `c`. -/
theorem getD_rows {α : Type} (f : Nat → Nat → α) (d : α) {n m r c : Nat} (hr : r < n) (hc : c < m) :
    ((List.range n).flatMap fun r => (List.range m).map (f r)).getD (m * r + c) d = f r c := by
  have length (n : Nat) : ((List.range n).flatMap fun r => (List.range m).map (f r)).length = m * n := by
    simp [List.length_flatMap, Nat.mul_comm]
  induction n with
  | zero => omega
  | succ n ih =>
    rw [List.range_succ, List.flatMap_append]
    obtain lt | rfl := Nat.lt_succ_iff_lt_or_eq.1 hr
    · have : m * r + c < m * n := by nlinarith
      rw [List.getD_append _ _ _ _ (by rwa [length]), ih lt]
    · rw [List.getD_append_right _ _ _ _ (by rw [length]; omega), length]
      simp [hc]

theorem addKstep_toInt (tile : List (BitVec 32)) (a b0 b1 : List (List Nat)) {r c : Nat} (hr : r < 64) (hc : c < 128) :
    ((addKstep tile a b0 b1).1.getD (128 * r + c) 0).toInt =
      clamped ((tile.getD (128 * r + c) 0).toInt + planeDot (rowOf a r) (if c < 64 then rowOf b0 c else rowOf b1 (c - 64))) := by
  have entry : (addKstep tile a b0 b1).1.getD (128 * r + c) 0 = BitVec.ofNat 32 (storeInt true true 32
      ((tile.getD (128 * r + c) 0).toInt + planeDot (rowOf a r) (if c < 64 then rowOf b0 c else rowOf b1 (c - 64)))) := by
    unfold addKstep
    simp only [List.map_flatMap, List.map_map, Function.comp_def]
    rw [getD_rows _ _ hr hc]
    simp [hc]
  rw [entry, toInt_storeInt]

/-- A k-step adds to an accumulator the products of its row of A and its column of B (R210). -/
theorem addKstep_contribution (s : State) (tile : List (BitVec 32)) {tw offA offB ks pa pb leader st r c : Nat} (hr : r < 64) (hc : c < 128) :
    let keys := planeKeys tw offA offB ks pa pb leader st
    let planes (l : List Nat) : List (List Nat) := l.map (planeRows s.readSp)
    ((addKstep tile (planes keys.1) (planes keys.2.1) (planes keys.2.2)).1.getD (128 * r + c) 0).toInt =
      clamped ((tile.getD (128 * r + c) 0).toInt + contribution s tw leader offA offB ks pa pb st r c) := by
  intro keys planes
  have elemA {k : Nat} (hk : k < 128) : planeValue pa (rowBit (rowOf (planes keys.1) r) · k) = aValue s tw leader offA ks pa st r k :=
    planeValue_planeRows s.readSp _ hr hk
  have elemB {k : Nat} (hk : k < 128) :
      planeValue pb (rowBit (if c < 64 then rowOf (planes keys.2.1) c else rowOf (planes keys.2.2) (c - 64)) · k) =
        bValue s tw offB ks pb st k c := by
    unfold bValue planeBit
    split
    · next left =>
      rw [Nat.div_eq_of_lt left, Nat.mod_eq_of_lt left]
      exact planeValue_planeRows s.readSp _ left hk
    · next right =>
      rw [show c / 64 = 1 by omega, show c % 64 = c - 64 by omega]
      exact planeValue_planeRows s.readSp _ (by omega) hk
  have lengthA : (rowOf (planes keys.1) r).length = pa := by simp [rowOf, planes, keys, planeKeys]
  have lengthB : (if c < 64 then rowOf (planes keys.2.1) c else rowOf (planes keys.2.2) (c - 64)).length = pb := by
    split <;> simp [rowOf, planes, keys, planeKeys]
  rw [addKstep_toInt _ _ _ _ hr hc, planeDot_eq, lengthA, lengthB, contribution]
  refine congrArg (fun l : List Int => clamped (_ + l.sum)) (List.map_congr_left fun k hk => ?_)
  rw [elemA (List.mem_range.1 hk), elemB (List.mem_range.1 hk)]

end Sys2Proof.Machine
end

section
/-! PROOF. The k-steps of an MMA.BP (O27). -/

namespace Sys2Proof.Machine

open Sys2Proof.Safety Sys2Proof.Rules

/-- A head that retires changes no other twin. -/
theorem twin_retireHead_ne (s : State) {t j : Nat} (h : j ≠ t) : (s.retireHead t).twin j = s.twin j := by
  unfold State.retireHead
  split
  · rfl
  · next e _ =>
    let s' := (s.modTwin t fun x => x.passed e s.cc).modTwin t Twin.settle
    have H := entryRetired_headRetired s' e.group e.batch
    have twin : (s'.entryRetired e.group e.batch).twin j = s.twin j := by
      simp only [State.twin, H.twins]
      exact (twin_modTwin_ne _ h).trans (twin_modTwin_ne _ h)
    exact (apply_ite (fun x : State => x.twin j) _ _ _).trans ((congrArg₂ _ ((twin_modTwin_ne _ h).trans twin) twin).trans (ite_self _))

/-- A twin whose tile took the sums of k-step `st`. -/
def Twin.stepped (x : Twin) (tile st : Nat) (sums : List (BitVec 32) × Bool) : Twin :=
  { x.modMpc tile (fun m => { m with kstep := BitVec.ofNat 10 (st + 1), ovf := m.ovf || sums.2 }) with tiles := x.tiles.set tile sums.1 }

/-- The tile of a twin with the products of k-step `st` added, from the scratchpads as they are. -/
def kstepSums (s : State) (x : Twin) (tw tile offA offB ks pa pb leader st : Nat) : List (BitVec 32) × Bool :=
  let keys := planeKeys tw offA offB ks pa pb leader st
  let planes (l : List Nat) : List (List Nat) := l.map (planeRows s.readSp)
  addKstep (x.tiles.getD tile []) (planes keys.1) (planes keys.2.1) (planes keys.2.2)

/-- Without wrong bits in the scratchpads, none are in some ranges. -/
theorem spErrsIn_clean {s : State} (h : s.mem.spErrs = []) (ranges : List (Nat × Nat)) : s.spErrsIn ranges = [] := by
  simp [State.spErrsIn, h]

/-- A wave without held effects reads its shadow's scratchpad as it is. -/
theorem spShadow_plain {s : State} {k : Nat} (none : (s.wave k).effects = []) (key : Nat) : s.spShadow k key = s.readSp key := by
  simp [State.spShadow, State.spOwn, none, overlayByte]

/-- The shadow's twin after its k-step. -/
theorem twins_shadowKstep {s : State} {tw tile offA offB ks pa pb leader st : Nat} {acc : Bool} {e : MatEntry}
    (op : e.op = .mma tile offA offB ks pa pb acc leader) (noShadow : e.shadowOp = none) (effects : (s.wave e.wave).effects = [])
    (lt : st < ks) (shadows : s.shadows tw e = true) :
    s.shadowKstep tw e st = s.modTwin (tw + 2) fun x =>
      { x with tiles := x.tiles.set tile (kstepSums s x (tw + 2) tile offA offB ks pa pb leader st).1 } := by
  unfold State.shadowKstep State.modShadow
  rw [if_pos shadows, noShadow, Option.getD_none, op]
  have read : s.spShadow e.wave = s.readSp := funext fun key => spShadow_plain effects key
  simp only [if_neg (Nat.not_le.2 lt), read]
  rfl

/-- What a k-step does in the shadow's twin has nothing to do with errors of accumulators. -/
theorem shadowKstep_dropAccErrs (s : State) (t tile tw st : Nat) (idx : Nat → Bool) (e : MatEntry) :
    (s.dropAccErrs t tile idx).shadowKstep tw e st = (s.shadowKstep tw e st).dropAccErrs t tile idx := by
  have same : (s.dropAccErrs t tile idx).shadows tw e = s.shadows tw e := rfl
  unfold State.shadowKstep State.modShadow
  rw [same]
  cases s.shadows tw e <;> rfl

/-- A k-step: the leader's twin and its shadow's take their sums, and the last k-step retires the operation (R210, R244). -/
theorem exec_mmaKstep {s : State} {tw tile offA offB ks pa pb leader : Nat} {acc : Bool} {e : MatEntry} (ready : TwinReady s tw)
    (head : (s.twin tw).head = some e) (op : e.op = .mma tile offA offB ks pa pb acc leader) (started : e.started = true)
    (effects : (s.wave e.wave).effects = []) (veils : ∀ l ∈ s.launches, l.spVeils = [])
    (lt : ((s.twin tw).mpc.getD tile {}).kstep.toNat < ks) :
    let st := ((s.twin tw).mpc.getD tile {}).kstep.toNat
    ∃ m : State, exec (.mmaKstep tw) s = .next (if ks ≤ st + 1 then m.retireHead tw else m) ∧ m.groups = s.groups
      ∧ m.twins = ((s.shadowKstep tw e st).modTwin tw fun x => x.stepped tile st (kstepSums s (s.twin tw) tw tile offA offB ks pa pb leader st)).twins := by
  intro st
  let m₀ := (s.dropAccErrs tw e.tile fun _ => true).dropAccErrs (tw + 2) e.tile fun _ => true
  let m₁ := (m₀.shadowKstep tw e st).modTwin tw fun x => x.stepped tile st (kstepSums s (s.twin tw) tw tile offA offB ks pa pb leader st)
  let c := (s.wave e.wave).ctx
  have counted : Counted m₁ ((m₁.count c 4 1).count c 5 (pa * pb)) := (counted_count _ _ _ _ _).trans (counted_count _ _ _ _ _)
  refine ⟨(m₁.count c 4 1).count c 5 (pa * pb), congrArg Host.Outcome.next ?_, counted.groups.trans (modShadow_groups m₀ tw e _), counted.twins.trans ?_⟩
  · have read : m₀.spByte e.wave = s.readSp := funext fun key => spByte_plain (s := m₀) effects veils key
    simp only [head, op, started, ready.runs, Bool.not_true, Bool.or_self, Bool.false_eq_true, if_false, if_neg (Nat.not_le.2 lt),
      spErrsIn_clean ready.spErrs, List.find?_nil, List.foldl_nil, readAcc_clean ready.accErrs]
    simp only [m₀] at read
    simp only [read]
    rfl
  · have shadow : m₀.shadowKstep tw e st = ((s.shadowKstep tw e st).dropAccErrs tw e.tile fun _ => true).dropAccErrs (tw + 2) e.tile fun _ => true :=
      (shadowKstep_dropAccErrs _ _ _ _ _ _ _).trans (congrArg (State.dropAccErrs · _ _ _) (shadowKstep_dropAccErrs s _ _ _ _ _ _))
    simp only [m₁, shadow]
    rfl

/-- The twins after a k-step. -/
theorem twin_mmaKstep {s : State} {tw tile offA offB ks pa pb leader : Nat} {acc : Bool} {e : MatEntry} (ready : TwinReady s tw)
    (head : (s.twin tw).head = some e) (op : e.op = .mma tile offA offB ks pa pb acc leader) (started : e.started = true)
    (effects : (s.wave e.wave).effects = []) (veils : ∀ l ∈ s.launches, l.spVeils = [])
    (lt : ((s.twin tw).mpc.getD tile {}).kstep.toNat < ks) :
    let st := ((s.twin tw).mpc.getD tile {}).kstep.toNat
    let x := (s.twin tw).stepped tile st (kstepSums s (s.twin tw) tw tile offA offB ks pa pb leader st)
    ∃ t cc, exec (.mmaKstep tw) s = .next t ∧ (t.twin tw = if ks ≤ st + 1 then x.passed e cc else x)
      ∧ ∀ j, j ≠ tw → t.twin j = (s.shadowKstep tw e st).twin j := by
  intro st x
  obtain ⟨m, run, groups, twins⟩ := exec_mmaKstep ready head op started effects veils lt
  have length : (s.shadowKstep tw e st).twins.length = s.twins.length := modShadow_length s tw e _
  have inPart : tw < m.twins.length := by rw [twins, modTwin_length, length]; exact ready.inPart
  have own : m.twin tw = x :=
    (congrArg (fun l : List Twin => l.getD tw default) twins).trans <| (twin_modTwin_self _ (length ▸ ready.inPart)).trans <|
      congrArg (Twin.stepped · _ _ _) (twin_modShadow s tw e _)
  have others {j : Nat} (ne : j ≠ tw) : m.twin j = (s.shadowKstep tw e st).twin j :=
    (congrArg (fun l : List Twin => l.getD j default) twins).trans (twin_modTwin_ne _ ne)
  have retired : (m.retireHead tw).twin tw = x.passed e m.cc := by
    rw [← own]
    exact (retireHead_running inPart (by rw [own]; exact head) (by rw [own]; exact ready.stopped) fun g hg => by
      rw [own] at hg
      simpa only [State.group, groups] using ready.owner g hg).1
  refine ⟨_, m.cc, run, ?_, fun j ne => ?_⟩
  · split
    · exact retired
    · exact own
  · split
    · exact (twin_retireHead_ne m ne).trans (others ne)
    · exact others ne

/-- A head that retires leaves KSTEP as it is. -/
theorem kstep_passed (x : Twin) (e : MatEntry) (cc n : Nat) : ((x.passed e cc).mpc.getD n {}).kstep = (x.mpc.getD n {}).kstep := by
  have same : (x.passed e cc).mpc.map Mpc.kstep = x.mpc.map Mpc.kstep := map_modAt _ _ _ _ fun _ => rfl
  rw [← getD_map' Mpc.kstep, same, getD_map']

/-- Settles O27. -/
theorem matrixProducts : Obligations.MatrixProducts := by
  intro s tw tile offA offB ks pa pb leader r c acc e ready head op started effects veils hTile hr hc st hst hmax
  obtain ⟨t, cc, run, own, others⟩ := twin_mmaKstep ready head op started effects veils hst
  let x := (s.twin tw).stepped tile st (kstepSums s (s.twin tw) tw tile offA offB ks pa pb leader st)
  change t.twin tw = if ks ≤ st + 1 then x.passed e cc else x at own
  have tileLt : tile < (s.twin tw).tiles.length := ready.tiles ▸ hTile
  have mpcLt : tile < (s.twin tw).mpc.length := ready.mpc ▸ hTile
  have tiles : (t.twin tw).tiles = (s.twin tw).tiles.set tile (kstepSums s (s.twin tw) tw tile offA offB ks pa pb leader st).1 := by
    rw [own]; split <;> rfl
  have kstep : ((t.twin tw).mpc.getD tile {}).kstep = BitVec.ofNat 10 (st + 1) := by
    have stepped : (x.mpc.getD tile {}).kstep = BitVec.ofNat 10 (st + 1) := congrArg Mpc.kstep (mpc_modMpc _ mpcLt)
    rw [own]
    split
    · exact (kstep_passed x e cc tile).trans stepped
    · exact stepped
  refine ⟨t, run, ?_, ?_, fun more => ?_, fun last => ?_, fun j ne => ?_, fun shadows noShadow len => ?_, fun j ne far => ?_⟩
  · rw [accumulator_of_tiles r c tiles tileLt]
    exact addKstep_contribution s _ hr hc
  · rw [kstep, BitVec.toNat_ofNat, Nat.mod_eq_of_lt (by omega)]
  · rw [own, if_neg (by omega)]; rfl
  · rw [own, if_pos (by omega)]; rfl
  · rw [tiles, getD_set_ne _ _ _ ne]
  · have inPart : tw + 2 < s.twins.length := by
      by_contra out
      rw [State.twin, List.getD_eq_default _ _ (Nat.not_lt.1 out)] at len
      exact absurd len (by decide)
    have shadow := congrArg (State.twin · (tw + 2)) (twins_shadowKstep op noShadow effects hst shadows)
    rw [← others _ (by omega), twin_modTwin_self _ inPart] at shadow
    rw [accumulator_of_tiles r c (congrArg Twin.tiles shadow) (len ▸ hTile)]
    exact addKstep_contribution s _ hr hc
  · rw [others j ne, State.shadowKstep, State.modShadow]
    split
    · next shadows =>
      obtain ne2 | none := far
      · exact twin_modTwin_ne _ ne2
      · exact absurd shadows (by rw [none]; decide)
    · rfl

end Sys2Proof.Machine
end

section
/-! PROOF. Waits for copies (O31): what the end of the waits on a queue leaves of the queue and of the waves. -/

namespace Sys2Proof.Machine

open Sys2Proof.Safety Sys2Proof.Rules

/-- A copy, delivered or not. -/
def Copy.undelivered (c : Copy) : Copy := { c with delivered := false }

/-- The copies of a queue, delivered or not. -/
def CopyQueue.undelivered (x : CopyQueue) : List Copy := x.entries.map Copy.undelivered

/-- `t` has the queues of `s`, but for what was delivered, and the same copies are away. -/
structure QueuesKept (s t : State) : Prop where
  out : t.ctxs.map Context.switchedOut = s.ctxs.map Context.switchedOut
  saves : t.saves = s.saves
  copies : t.copies.map CopyQueue.undelivered = s.copies.map CopyQueue.undelivered

theorem copies_of_side {s t : State} (h : MemorySide s t) : t.copies = s.copies := by
  have := congrArg State.copies h.rest
  exact this

namespace QueuesKept

theorem refl (s : State) : QueuesKept s s := ⟨rfl, rfl, rfl⟩

theorem trans {s t u : State} (h : QueuesKept s t) (g : QueuesKept t u) : QueuesKept s u :=
  ⟨g.out.trans h.out, g.saves.trans h.saves, g.copies.trans h.copies⟩

theorem of_counted {s t : State} (h : Counted s t) : QueuesKept s t := by
  refine ⟨?_, (by have := congrArg State.saves h.rest; exact this), congrArg _ h.copies⟩
  have := congrArg (List.map Context.switchedOut) h.ctxs
  rw [List.map_map, List.map_map] at this
  exact this

theorem of_side {s t : State} (h : MemorySide s t) : QueuesKept s t := by
  refine ⟨?_, (by have := congrArg State.saves h.rest; exact this), congrArg _ (copies_of_side h)⟩
  have := congrArg (List.map Context.switchedOut) h.ctxs
  rw [List.map_map, List.map_map] at this
  exact this

theorem of_modCopy (s : State) (q seq : Nat) : QueuesKept s (s.modCopy q seq fun c => { c with delivered := true }) := by
  refine ⟨rfl, rfl, map_modAt _ _ _ _ fun x => ?_⟩
  simp only [CopyQueue.undelivered, List.map_map]
  refine List.map_congr_left fun c _ => ?_
  simp only [Function.comp_apply]
  split <;> rfl

theorem undelivered {s t : State} (h : QueuesKept s t) (q : Nat) : (t.copyQueue q).undelivered = (s.copyQueue q).undelivered := by
  have := congrArg (fun l : List (List Copy) => l.getD q (CopyQueue.undelivered default)) h.copies
  simp only [getD_map'] at this
  exact this

theorem seqs {s t : State} (h : QueuesKept s t) (q : Nat) :
    (t.copyQueue q).entries.map Copy.seq = (s.copyQueue q).entries.map Copy.seq := by
  have := congrArg (List.map Copy.seq) (h.undelivered q)
  rw [CopyQueue.undelivered, CopyQueue.undelivered, List.map_map, List.map_map] at this
  exact this

/-- The same copies are away from their queue. -/
theorem copyAway {s t : State} (h : QueuesKept s t) (c : Copy) : t.copyAway c = s.copyAway c := by
  have out : (t.ctx c.ctx).switchedOut = (s.ctx c.ctx).switchedOut := by
    have := congrArg (fun l : List Bool => l.getD c.ctx (Context.switchedOut default)) h.out
    simp only [getD_map'] at this
    exact this
  simp only [State.copyAway, out, h.saves]

/-- The copies that a wait is for are the same, but for what was delivered. -/
theorem copiesUpTo {s t : State} (h : QueuesKept s t) (q seq : Nat) :
    (t.copiesUpTo q seq).map Copy.undelivered = (s.copiesUpTo q seq).map Copy.undelivered := by
  have filtered (s : State) : (s.copiesUpTo q seq).map Copy.undelivered =
      (s.copyQueue q).undelivered.filter fun c => !s.copyAway c && seqBefore c.seq seq := by
    simp only [State.copiesUpTo, State.copiesIn, CopyQueue.undelivered, List.filter_filter, List.filter_map]
    refine congrArg _ (List.filter_congr fun c _ => ?_)
    exact Bool.and_comm _ _
  have away : t.copyAway = s.copyAway := funext h.copyAway
  rw [filtered, filtered, h.undelivered, away]

end QueuesKept

/-! ### One wave -/

/-- What the end of the waits on a queue does to wave `k` (R232, R234, R235). -/
def State.wakeTicket (q : Nat) (s : State) (k : Nat) : State :=
  let w := s.wave k
  match w.wait with
  | .ticket q' seq =>
    if q' ≠ q || !(w.state == .blocked || w.state == .yielded) then s
    else match s.stoppedCopy w.ctx q seq with
      | some c => (s.modCopy q c.seq fun c => { c with delivered := true }).postTrap k (c.trap w.exec)
      | none =>
        if !(s.copiesUpTo q seq).isEmpty then s
        else
          let next := if w.state = .yielded || w.stalled.any Instr.isCyield then w.yieldPc else w.pc + 8
          let s := s.setWave k { w with state := w.home, wait := .nothing, stalled := none, eligibleSince := s.cc }
          match w.stalled with
          | some i => s.ticketDone k i q seq next
          | none => s
  | _ => s

theorem wakeTickets_eq_foldl (s : State) (q : Nat) : s.wakeTickets q = (List.range s.waves.length).foldl (State.wakeTicket q) s := rfl

/-- The state in which a CWAIT or CYIELD of wave `k` retires holds the wave that retired, and the queues as they were. -/
theorem ticketDone_spec (s : State) (k : Nat) (i : Instr) (q seq : Nat) (next : VAddr) :
    QueuesKept s (s.ticketDone k i q seq next) ∧ ∃ w, (s.ticketDone k i q seq next).waves = s.waves.set k w ∧ w.wait = (s.wave k).wait
      ∧ w.pc = next ∧ (w.state = .parked ∨ w.state = (s.wave k).state) := by
  let wait (v : Veil) : Veil := if v.wave = k && v.queue = q && seqBefore v.seq seq then { v with waited := true } else v
  let u := if s.detOf (s.wave k) then
    s.modLaunch (s.wave k).launch fun l => { l with veils := l.veils.map wait, spVeils := l.spVeils.map wait } else s
  have first : QueuesKept s u ∧ u.waves = s.waves := by
    simp only [u]
    split <;> exact ⟨⟨rfl, rfl, rfl⟩, rfl⟩
  have C := counted_retireAt u k i (s.wave k).priv next []
  have wave : u.wave k = s.wave k := congrArg (fun l : List Wave => l.getD k default) first.2
  refine ⟨first.1.trans (QueuesKept.trans (t := u.setWave k _) ⟨rfl, rfl, rfl⟩ (QueuesKept.of_counted C)), _, C.waves.trans (congrArg (List.set · k _) first.2), ?_, retired_pc .., ?_⟩
  · have := congrArg Wave.wait (plain_retired (u.wave k) i (s.wave k).priv next [] (1 ≤ (u.group (u.wave k).group).ilevel)
      (u.group (u.wave k).group).det (u.ctx (u.wave k).ctx).preempting (u.group (u.wave k).group).quantum.toNat)
    have same : (plain (u.wave k)).wait = (u.wave k).wait := rfl
    exact this.trans (same.trans (congrArg Wave.wait wave))
  · rw [retired_state, wave]
    split
    · exact .inl rfl
    · exact .inr rfl

/-- The retirement of a CWAIT or CYIELD keeps the queues and leaves every other wave as it was. -/
theorem ticketDone_keeps (s : State) (k : Nat) (w : Wave) (i : Instr) (q seq : Nat) (next : VAddr) :
    let t := (s.setWave k w).ticketDone k i q seq next
    QueuesKept s t ∧ t.waves.length = s.waves.length ∧ ∀ j, j ≠ k → t.wave j = s.wave j := by
  obtain ⟨kept, x, waves, -⟩ := ticketDone_spec (s.setWave k w) k i q seq next
  refine ⟨.trans (t := s.setWave k w) ⟨rfl, rfl, rfl⟩ kept, by simp [waves], fun j ne => ?_⟩
  simp only [State.wave, waves]
  exact (getD_set_ne _ _ _ ne).trans (State.wave_setWave_ne _ ne)

/-- One wave's turn keeps the queues and leaves every other wave as it was. -/
theorem wakeTicket_keeps (q : Nat) (s : State) (k : Nat) :
    QueuesKept s (s.wakeTicket q k) ∧ (s.wakeTicket q k).waves.length = s.waves.length
      ∧ ∀ j, j ≠ k → (s.wakeTicket q k).wave j = s.wave j := by
  have stays : QueuesKept s s ∧ s.waves.length = s.waves.length ∧ ∀ j, j ≠ k → s.wave j = s.wave j := ⟨.refl s, rfl, fun _ _ => rfl⟩
  unfold State.wakeTicket
  dsimp only
  split
  · split
    · exact stays
    · split
      · exact ⟨.trans (.of_modCopy s q _) ⟨rfl, rfl, rfl⟩, State.modWave_length _ _ _, fun j ne => State.wave_modWave_ne _ ne⟩
      · split
        · exact stays
        · split
          · exact ticketDone_keeps ..
          · exact ⟨⟨rfl, rfl, rfl⟩, by simp, fun j ne => State.wave_setWave_ne _ ne⟩
  · exact stays

/-- A wave that waits for copies that are all complete goes on (R234, R235). -/
theorem wakeTicket_done {s : State} {q k seq : Nat} {l : Instr} (lt : k < s.waves.length) (waits : (s.wave k).state = .blocked ∨ (s.wave k).state = .yielded)
    (ticket : (s.wave k).wait = .ticket q seq) (stalled : (s.wave k).stalled = some l) (done : s.copiesUpTo q seq = []) :
    let w := (s.wakeTicket q k).wave k
    w.wait = .nothing ∧ w.state ≠ .blocked ∧ w.state ≠ .yielded
      ∧ w.pc = if (s.wave k).state = .yielded ∨ l.isCyield = true then (s.wave k).yieldPc else (s.wave k).pc + 8 := by
  let next := if (s.wave k).state = .yielded || (s.wave k).stalled.any Instr.isCyield then (s.wave k).yieldPc else (s.wave k).pc + 8
  let u := s.setWave k { s.wave k with state := (s.wave k).home, wait := .nothing, stalled := none, eligibleSince := s.cc }
  have step : s.wakeTicket q k = u.ticketDone k l q seq next := by
    unfold State.wakeTicket
    have none : s.stoppedCopy (s.wave k).ctx q seq = none := by simp [State.stoppedCopy, done]
    have state : ((s.wave k).state == .blocked || (s.wave k).state == .yielded) = true := by simpa using waits
    simp only [ticket, none, done, state, stalled, ne_eq, not_true_eq_false, decide_false, Bool.not_true, Bool.or_self, Bool.false_eq_true,
      List.isEmpty_nil, if_false, u, next]
  obtain ⟨-, w, waves, wait, pc, state⟩ := ticketDone_spec u k l q seq next
  have wave : (s.wakeTicket q k).wave k = w := by
    rw [step]
    simp only [State.wave, waves]
    exact getD_set_self _ _ _ (by simpa [u] using lt)
  have before : u.wave k = { s.wave k with state := (s.wave k).home, wait := .nothing, stalled := none, eligibleSince := s.cc } :=
    State.wave_setWave_self _ lt
  intro x
  rw [before] at wait state
  have home : (s.wave k).home ≠ .blocked ∧ (s.wave k).home ≠ .yielded := by unfold Wave.home; split <;> decide
  have idle : w.state ≠ .blocked ∧ w.state ≠ .yielded := by
    obtain h | h := state
    · rw [h]; decide
    · rw [h]; exact home
  simp only [x, wave]
  exact ⟨wait, idle.1, idle.2, pc.trans (by simp [next, stalled])⟩

/-! ### All waves -/

theorem foldl_wakeTicket (q : Nat) (l : List Nat) (s : State) :
    QueuesKept s (l.foldl (State.wakeTicket q) s) ∧ (l.foldl (State.wakeTicket q) s).waves.length = s.waves.length
      ∧ ∀ j, j ∉ l → (l.foldl (State.wakeTicket q) s).wave j = s.wave j := by
  induction l generalizing s with
  | nil => exact ⟨.refl s, rfl, fun _ _ => rfl⟩
  | cons k t ih =>
    obtain ⟨kept, length, others⟩ := wakeTicket_keeps q s k
    obtain ⟨kept', length', others'⟩ := ih (s.wakeTicket q k)
    exact ⟨kept.trans kept', length'.trans length, fun j hj => (others' j fun h => hj (by simp [h])).trans (others j fun h => hj (by simp [h]))⟩

theorem wakeTickets_keeps (s : State) (q : Nat) : QueuesKept s (s.wakeTickets q) := (foldl_wakeTicket q _ s).1

/-- The waves that wait for no copy that is left go on. -/
theorem wakeTickets_done {s : State} {q j seq : Nat} {l : Instr} (lt : j < s.waves.length) (waits : (s.wave j).state = .blocked ∨ (s.wave j).state = .yielded)
    (ticket : (s.wave j).wait = .ticket q seq) (stalled : (s.wave j).stalled = some l) (done : s.copiesUpTo q seq = []) :
    let w := (s.wakeTickets q).wave j
    w.wait = .nothing ∧ w.state ≠ .blocked ∧ w.state ≠ .yielded
      ∧ w.pc = if (s.wave j).state = .yielded ∨ l.isCyield = true then (s.wave j).yieldPc else (s.wave j).pc + 8 := by
  obtain ⟨before, after, split⟩ := List.append_of_mem (List.mem_range.2 lt)
  have nodup : (before ++ j :: after).Nodup := split ▸ List.nodup_range
  have hb : j ∉ before := fun h => (List.nodup_append.1 nodup).2.2 j h j (by simp) rfl
  have ha : j ∉ after := (List.nodup_cons.1 (List.nodup_append.1 nodup).2.1).1
  let u := before.foldl (State.wakeTicket q) s
  obtain ⟨kept, length, others⟩ := foldl_wakeTicket q before s
  have wave : u.wave j = s.wave j := others j hb
  have last : (s.wakeTickets q).wave j = (u.wakeTicket q j).wave j := by
    rw [wakeTickets_eq_foldl, split, List.foldl_append, List.foldl_cons]
    exact (foldl_wakeTicket q after _).2.2 j ha
  have left : u.copiesUpTo q seq = [] := by
    have := kept.copiesUpTo q seq
    rw [done] at this
    exact List.map_eq_nil_iff.1 this
  have := wakeTicket_done (length ▸ lt : j < u.waves.length) (by rw [wave]; exact waits) (by rw [wave]; exact ticket) (by rw [wave]; exact stalled) left
  rw [last]
  rw [wave] at this
  exact this

end Sys2Proof.Machine
end

section
/-! PROOF. The completion and the stop of a copy (O31). -/

namespace Sys2Proof.Machine

open Sys2Proof.Safety Sys2Proof.Rules

theorem copyQueue_modCopyQueue_self {s : State} {q : Nat} (f : CopyQueue → CopyQueue) (h : q < s.copies.length) :
    (s.modCopyQueue q f).copyQueue q = f (s.copyQueue q) := getD_modAt_self _ _ _ h

/-! ### Completion (R104, R231, R234, R235) -/

/-- The slot of a context after a push (R104). -/
theorem slots_pushSlot {s : State} {c : Nat} (n m : Nat) (nan : Bool) (h : c < s.ctxs.length) :
    ((s.pushSlot c n m nan).ctx c).slots.getD n {} = ((s.ctx c).slots.getD n {}).push m nan := by
  rw [State.pushSlot, ctx_modCtx_self _ _ _ h]
  exact getD_putAt_self' _ _ _ _ _

/-- A completed copy before it leaves its queue: its push, the bytes counted and the digest of a THASH (R104, R230). -/
def State.copyEntered (s : State) (c : Copy) (q queue : Nat) : State :=
  let s := (s.copyPush c q).count c.ctx 0x10 c.written
  if c.trace then
    s.traceEntry 3 2 c.ctx (bytesOf 8 (s.launch c.launch).seq ++ bytesOf 1 1 ++ zeros 7 ++ bytesOf 8 c.src
      ++ bytesOf 8 c.taken.length ++ bytesOf 8 (ticketOf c.seq queue (s.wave c.wave).clid) ++ zeros 8 ++ Sha.sha512 c.taken)
  else s

/-- A completed copy leaves its queue. -/
def State.copyLeft (s : State) (c : Copy) (q : Nat) : State :=
  s.modCopyQueue q fun x => { x with
    entries := x.entries.filter (fun y => y.seq != c.seq), roomAt := if 64 ≤ x.entries.length then s.cc else x.roomAt }

theorem exec_copyComplete {s : State} {cluster queue : Nat} {c : Copy}
    (h : (s.copyQueue (4 * cluster + queue)).entries.find? (fun x => x.stage == .running) = some c) :
    exec (.copyComplete cluster queue) s =
      .next (((s.copyEntered c (4 * cluster + queue) queue).copyLeft c (4 * cluster + queue)).wakeTickets (4 * cluster + queue)) := by
  refine congrArg Host.Outcome.next ?_
  simp only [h]
  rfl

theorem copyPush_keeps (s : State) (c : Copy) (q : Nat) :
    QueuesKept s (s.copyPush c q) ∧ (s.copyPush c q).waves = s.waves ∧ (s.copyPush c q).copies = s.copies := by
  unfold State.copyPush
  split
  · exact ⟨.refl s, rfl, rfl⟩
  · dsimp only
    split
    · exact ⟨⟨rfl, rfl, rfl⟩, rfl, rfl⟩
    · exact ⟨⟨map_modAt _ _ _ _ fun _ => rfl, rfl, rfl⟩, rfl, rfl⟩

theorem slots_of_side {s t : State} (h : MemorySide s t) : t.ctxs.map Context.slots = s.ctxs.map Context.slots := by
  have := congrArg (List.map Context.slots) h.ctxs
  rw [List.map_map, List.map_map] at this
  exact this

theorem copyEntered_keeps (s : State) (c : Copy) (q queue : Nat) :
    QueuesKept s (s.copyEntered c q queue) ∧ (s.copyEntered c q queue).waves = s.waves ∧ (s.copyEntered c q queue).copies = s.copies
      ∧ (s.copyEntered c q queue).ctxs.map Context.slots = (s.copyPush c q).ctxs.map Context.slots := by
  obtain ⟨kept, waves, copies⟩ := copyPush_keeps s c q
  have C := counted_count (s.copyPush c q) c.ctx 0x10 c.written false
  have slots : ((s.copyPush c q).count c.ctx 0x10 c.written).ctxs.map Context.slots = (s.copyPush c q).ctxs.map Context.slots := by
    have := congrArg (List.map Context.slots) C.ctxs
    rw [List.map_map, List.map_map] at this
    exact this
  unfold State.copyEntered
  dsimp only
  split
  · have S (body : List Byte) := side_traceEntry ((s.copyPush c q).count c.ctx 0x10 c.written) 3 2 c.ctx body none
    exact ⟨kept.trans (.trans (.of_counted C) (.of_side (S _))), (S _).waves.trans (C.waves.trans waves),
      (copies_of_side (S _)).trans (C.copies.trans copies), (slots_of_side (S _)).trans slots⟩
  · exact ⟨kept.trans (.of_counted C), C.waves.trans waves, C.copies.trans copies, slots⟩

theorem entries_copyLeft (s : State) (c : Copy) {q : Nat} (h : q < s.copies.length) :
    ((s.copyLeft c q).copyQueue q).entries = (s.copyQueue q).entries.filter fun y => y.seq != c.seq := by
  rw [State.copyLeft, copyQueue_modCopyQueue_self _ h]

/-- The end of waits on a queue pushes no slot. -/
theorem slots_wakeTickets (s : State) (q c : Nat) : ((s.wakeTickets q).ctx c).slots = (s.ctx c).slots := by
  have := congrArg (fun l => (l.getD c (seated default)).1.slots) (Wakes.wakeTickets s q).ctxs
  simp only [getD_map'] at this
  exact this

/-- A completed copy leaves its queue and pushes its slot, and the waves that waited for nothing else go on. -/
theorem copyComplete_done {s : State} {cluster queue : Nat} {c : Copy} (lt : 4 * cluster + queue < s.copies.length)
    (h : (s.copyQueue (4 * cluster + queue)).entries.find? (fun x => x.stage == .running) = some c) :
    let q := 4 * cluster + queue
    ∃ t, exec (.copyComplete cluster queue) s = .next t
      ∧ (t.copyQueue q).entries.map Copy.seq = ((s.copyQueue q).entries.map Copy.seq).filter (fun n => n != c.seq)
      ∧ (∀ n, c.slot = some n → s.detOf (s.wave c.wave) = false → c.ctx < s.ctxs.length →
          let x := (s.ctx c.ctx).slots.getD n {}
          let y := (t.ctx c.ctx).slots.getD n {}
          y.entries.getD x.head 0 = BitVec.ofNat 32 c.amax ∧ y.head = (x.head + 1) % 16 ∧ y.count = min (x.count + 1) 16
            ∧ y.nan = (x.nan || c.nan))
      ∧ (∀ j seq l, j < s.waves.length → (s.wave j).state = .blocked ∨ (s.wave j).state = .yielded → (s.wave j).wait = .ticket q seq →
          (s.wave j).stalled = some l → (∀ y ∈ s.copiesIn q, y.seq ≠ c.seq → seqBefore y.seq seq = false) →
          (t.wave j).wait = .nothing ∧ (t.wave j).state ≠ .blocked ∧ (t.wave j).state ≠ .yielded
            ∧ (t.wave j).pc = if (s.wave j).state = .yielded ∨ l.isCyield = true then (s.wave j).yieldPc else (s.wave j).pc + 8) := by
  intro q
  obtain ⟨kept, waves, copies, slots⟩ := copyEntered_keeps s c q queue
  let u := s.copyEntered c q queue
  have queueEq : u.copyQueue q = s.copyQueue q := congrArg (fun l : List CopyQueue => l.getD q default) copies
  have entries : ((u.copyLeft c q).copyQueue q).entries = (s.copyQueue q).entries.filter fun y => y.seq != c.seq :=
    (entries_copyLeft u c (copies ▸ lt)).trans (by rw [queueEq])
  refine ⟨_, exec_copyComplete h, ?_, fun n slot free inPart => ?_, fun j seq l hj waits ticket stalled others => ?_⟩
  · rw [(wakeTickets_keeps _ _).seqs, entries, List.filter_map]
    rfl
  · have pushed : s.copyPush c q = s.pushSlot c.ctx n c.amax c.nan := by
      unfold State.copyPush
      rw [slot]
      exact if_neg (by rw [free]; decide)
    have slots' : ((u.copyLeft c q).ctx c.ctx).slots = ((s.copyPush c q).ctx c.ctx).slots := by
      have := congrArg (fun l : List (List Slot) => l.getD c.ctx (Context.slots default)) slots
      simp only [getD_map'] at this
      exact this
    intro x y
    have last : y = x.push c.amax c.nan := by
      simp only [y, slots_wakeTickets]
      refine (congrArg (fun l : List Slot => l.getD n {}) slots').trans ?_
      rw [pushed]
      exact slots_pushSlot n c.amax c.nan inPart
    rw [last]
    exact ⟨getD_putAt_self' _ _ _ _ _, rfl, rfl, rfl⟩
  · have wave : (u.copyLeft c q).wave j = s.wave j := congrArg (fun l : List Wave => l.getD j default) waves
    have away : (u.copyLeft c q).copyAway = s.copyAway := funext kept.copyAway
    have done : (u.copyLeft c q).copiesUpTo q seq = [] := by
      rw [State.copiesUpTo, State.copiesIn, entries, away]
      refine List.filter_eq_nil_iff.2 fun y hy => ?_
      simp only [List.mem_filter, bne_iff_ne] at hy
      have before := others y (List.mem_filter.2 ⟨hy.1.1, hy.2⟩) hy.1.2
      simp [before]
    have goes := wakeTickets_done (s := u.copyLeft c q) (q := q) (j := j) (by change j < u.waves.length; rw [waves]; exact hj) (by rw [wave]; exact waits)
      (by rw [wave]; exact ticket) (by rw [wave]; exact stalled) done
    rw [wave] at goes
    exact goes

/-! ### Stops (R232) -/

theorem mem_of_nextCopy {s : State} {q : Nat} {c : Copy} (h : s.nextCopy q = some c) : c ∈ (s.copyQueue q).entries := by
  unfold State.nextCopy at h
  split at h
  · cases h
  · exact (List.mem_filter.1 (List.mem_of_mem_head? h)).1

/-- A copy that meets a fault stops there and stays in its queue. -/
theorem copyStart_stops {s : State} {cluster queue : Nat} {c : Copy}
    (next : s.nextCopy (4 * cluster + queue) = some c) (may : s.mayStart c = true) {u : State} {d : Copy} {cause : BitVec 7} {va : Nat}
    (run : s.performCopy c (4 * cluster + queue) = (u, d, some (some cause, va))) (ne : cause ≠ 0) (live : (u.group d.group).live = true)
    (same : (u.copyQueue (4 * cluster + queue)).entries = (s.copyQueue (4 * cluster + queue)).entries) (seq : d.seq = c.seq) :
    ∃ t x, exec (.copyStart cluster queue) s = .next t ∧ x ∈ (t.copyQueue (4 * cluster + queue)).entries ∧ x.seq = c.seq ∧ x.stage = .stopped
      ∧ x.fault = some (cause, va) ∧ x.done = d.done := by
  let stop : Copy := { d with stage := .stopped, fault := some (cause, va), delivered := false }
  let v := u.modCopy (4 * cluster + queue) d.seq fun _ => stop
  have exec_stop : exec (.copyStart cluster queue) s = .next (v.wakeTickets (4 * cluster + queue)) := by
    have stops : u.stopCopy (4 * cluster + queue) d (cause, va) = v.wakeTickets (4 * cluster + queue) := if_pos live
    refine congrArg Host.Outcome.next ?_
    simp only [next, may, run, Bool.not_true, Bool.false_eq_true, if_false]
    split
    · next h => cases h
    · next h => exact absurd (by cases h; rfl) ne
    · next h => cases h; exact stops
    · next h => cases h
  have mem : c ∈ (u.copyQueue (4 * cluster + queue)).entries := same ▸ mem_of_nextCopy next
  have inPart : 4 * cluster + queue < u.copies.length := by
    by_contra out
    rw [State.copyQueue, List.getD_eq_default _ _ (Nat.not_lt.1 out)] at mem
    cases mem
  have stopped : stop ∈ (v.copyQueue (4 * cluster + queue)).entries := by
    simp only [v, State.modCopy, copyQueue_modCopyQueue_self _ inPart]
    exact List.mem_map.2 ⟨c, mem, if_pos seq.symm⟩
  have kept : stop.undelivered ∈ ((v.wakeTickets (4 * cluster + queue)).copyQueue (4 * cluster + queue)).undelivered := by
    rw [(wakeTickets_keeps v _).undelivered]
    exact List.mem_map_of_mem stopped
  obtain ⟨x, hx, eq⟩ := List.mem_map.1 kept
  exact ⟨_, x, exec_stop, hx, (congrArg Copy.seq eq).trans seq, congrArg Copy.stage eq, congrArg Copy.fault eq, (by have := congrArg Copy.done eq; exact this)⟩

/-- A queue that has no copy to start, or whose next copy may not, does nothing. -/
theorem copyStart_waits {s : State} {cluster queue : Nat} {c : Copy}
    (h : s.nextCopy (4 * cluster + queue) = none ∨ s.nextCopy (4 * cluster + queue) = some c ∧ s.mayStart c = false) :
    exec (.copyStart cluster queue) s = .next s := by
  refine congrArg Host.Outcome.next ?_
  obtain none | ⟨next, may⟩ := h
  · simp only [none]
  · simp only [next, may, Bool.not_false, if_true]

end Sys2Proof.Machine
end

section
/-! PROOF. A copy between scratchpad bytes moves its elements (O31). -/

namespace Sys2Proof.Machine

open Sys2Proof.Safety Sys2Proof.Rules

/-! ### Bytes at their places -/

/-- The byte that a list gives a key of its own, each key once. -/
theorem lastByte_zip {keys : List Nat} {data : List Byte} (nodup : keys.Nodup) (length : data.length = keys.length) {x : Nat}
    (hx : x < keys.length) : lastByte (keys.zip data) (keys.getD x 0) = some (data.getD x 0) := by
  induction keys generalizing data x with
  | nil => simp at hx
  | cons k t ih =>
    obtain ⟨b, rest, rfl⟩ : ∃ b rest, data = b :: rest := List.exists_cons_of_length_pos (by simp [length])
    rw [List.zip_cons_cons, lastByte_cons]
    obtain ⟨hk, ht⟩ := List.nodup_cons.1 nodup
    cases x with
    | zero =>
      have none : lastByte (t.zip rest) k = none := lastByte_none fun e he h => hk (h ▸ (List.of_mem_zip he).1)
      simp [none]
    | succ x =>
      have := ih ht (by simpa using length) (Nat.lt_of_succ_lt_succ hx)
      simp only [List.getD_cons_succ, this, Option.some_or]

/-- Bytes moved along with their keys. -/
theorem map_shift_zip (keys : List Nat) (data : List Byte) (n : Nat) :
    (keys.zip data).map (fun e => (e.1 + n, e.2)) = (keys.map (· + n)).zip data := by
  rw [List.zip_map_left]
  rfl

theorem forall_mem_modAt {α : Type} {P : α → Prop} {f : α → α} {l : List α} (n : Nat) (h : ∀ x ∈ l, P x) (hf : ∀ x, P x → P (f x)) :
    ∀ x ∈ modAt f l n, P x := by
  induction l generalizing n with
  | nil => simp [modAt]
  | cons a t ih =>
    obtain ⟨ha, ht⟩ := List.forall_mem_cons.1 h
    cases n with
    | zero => exact List.forall_mem_cons.2 ⟨hf a ha, ht⟩
    | succ n => exact List.forall_mem_cons.2 ⟨ha, ih n ht⟩

/-! ### The machine while a copy between scratchpads runs -/

section Move

variable (s : State) (c : Copy)

/-- The scratchpad bytes of element `n` at the source and at the destination of a copy (R226, R227). -/
def Copy.readKeys (n : Nat) : List Nat := s.copyKeys c (addrPlus c.src (offsetAt c.ext c.sstride n)) c.esize
def Copy.writeKeys (n : Nat) : List Nat := s.copyKeys c (addrPlus c.dst (offsetAt c.ext c.dstride n)) c.esize

/-- What an element of a copy between scratchpads leaves of the machine. -/
structure Moving (t : State) : Prop where
  ctxs : t.ctxs = s.ctxs
  waves : t.waves = s.waves
  groups : t.groups = s.groups
  copies : t.copies = s.copies
  home : t.mem.home = s.mem.home
  wf : Memory.wf t.mem.sp = true
  spErrs : t.mem.spErrs = []
  veils : ∀ l ∈ t.launches, ∀ v ∈ l.spVeils, v.wave = c.wave

variable {s c}

theorem length_copyKeys (s : State) (c : Copy) (a n : Nat) : (s.copyKeys c a n).length = n := by simp [State.copyKeys]

/-- The wave of a copy sees the scratchpads as they are while the copies that are veiled are its own (R393). -/
theorem Moving.spSeen {t : State} (h : Moving s c t) : t.spSeen c.wave = t.readSp := by
  have none : ((t.launches.flatMap fun l => l.spVeils).flatMap fun v => if v.wave = c.wave then [] else v.old) = [] := by
    refine List.flatMap_eq_nil_iff.2 fun v hv => ?_
    obtain ⟨l, hl, hv⟩ := List.mem_flatMap.1 hv
    exact if_pos (h.veils l hl v hv)
  funext key
  simp [State.spSeen, none, overlayByte]

theorem Moving.spBits {t : State} (h : Moving s c t) (key : Nat) : t.spBits key = [] := by simp [State.spBits, h.spErrs, lookupD]

/-- A copy reads scratchpad bytes (R231). -/
theorem Moving.copyRead {t : State} (h : Moving s c t) {d : Copy} (sp : d.srcSp = true) (wave : d.wave = c.wave) (addr n : Nat) :
    t.copyRead d addr n = .ok ((t.copyKeys d addr n).map t.readSp, t) := by
  have good : (List.range n).find? (fun j => t.spBad ((t.copyKeys d addr n).getD j 0)) = none := by
    simp [State.spBad, h.spBits]
  have heal (l : List Nat) : l.foldl (fun s k => s.healSp k d.ctx) t = t := by
    induction l with
    | nil => rfl
    | cons k l ih =>
      have one : t.healSp k d.ctx = t := by simp [State.healSp, h.spBits]
      rw [List.foldl_cons, one, ih]
  unfold State.copyRead
  rw [if_pos sp]
  simp only [good, heal, wave, h.spSeen]

theorem veilWith_wave {l : List Veil} {wave q seq : Nat} {old : List (Nat × Byte)} {k : Nat} (hk : wave = k) (h : ∀ v ∈ l, v.wave = k) :
    ∀ v ∈ veilWith l wave q seq old, v.wave = k := by
  intro v hv
  unfold veilWith at hv
  split at hv
  · obtain ⟨x, hx, rfl⟩ := List.mem_map.1 hv
    split <;> exact h x hx
  · obtain hv | hv := List.mem_append.1 hv
    · exact h v hv
    · rw [List.mem_singleton.1 hv]; exact hk

/-- A copy writes scratchpad bytes, on a checked pair in both clusters (R231, R244). -/
theorem Moving.copyWrite {t : State} (h : Moving s c t) {d : Copy} (sp : d.dstSp = true) (wave : d.wave = c.wave) (q addr : Nat) (data : List Byte) :
    ∃ u, t.copyWrite d q addr data = .ok u ∧ Moving s c u
      ∧ ∀ key, u.readSp key = (lastByte (onClusters s (s.wave c.wave) ((t.copyKeys d addr data.length).zip data)) key).getD (t.readSp key) := by
  let bytes := (t.copyKeys d addr data.length).zip data
  let w := t.wave d.wave
  let v := if t.detOf w then t.modLaunch w.launch fun x => { x with spVeils := veilWith x.spVeils d.wave q d.seq (bytes.map Prod.fst |>.map fun key => (key, t.readSp key)) } else t
  have run : t.copyWrite d q addr data = .ok ((v.writeSpBoth (v.checked w) bytes).copiedBlocks (q / 8) bytes) := if_pos sp
  have veils : v.mem = t.mem ∧ v.ctxs = t.ctxs ∧ v.waves = t.waves ∧ v.groups = t.groups ∧ v.copies = t.copies
      ∧ ∀ l ∈ v.launches, ∀ x ∈ l.spVeils, x.wave = c.wave := by
    simp only [v]
    split
    · exact ⟨rfl, rfl, rfl, rfl, rfl, forall_mem_modAt _ h.veils fun l hl x hx => veilWith_wave wave hl x hx⟩
    · exact ⟨rfl, rfl, rfl, rfl, rfl, h.veils⟩
  obtain ⟨mem, ctxs, waves, groups, copies, veils⟩ := veils
  have checked : v.checked w = s.checked (s.wave c.wave) := by
    simp only [State.checked, State.ilevelOf, State.group, groups, h.groups, w, State.wave, h.waves, wave]
  refine ⟨_, run, ⟨ctxs.trans h.ctxs, waves.trans h.waves, groups.trans h.groups, copies.trans h.copies,
    (congrArg Mem.home mem).trans h.home, ?_, ?_, veils⟩, fun key => ?_⟩
  · exact Memory.wf_writeAll _ (by rw [mem]; exact h.wf)
  · change v.mem.spErrs.filter _ = []
    rw [mem, h.spErrs]
    rfl
  · change (Memory.writeAll v.mem.sp _).read key = _
    rw [checked, read_writeAll _ _ (by rw [mem]; exact h.wf), mem]
    rfl

/-! ### Elements (R227) -/

/-- After `n` elements, `d` being the copy that is left: those are at their places, and every other byte is as it was. -/
structure Moved (s : State) (c : Copy) (n : Nat) (t : State) (d : Copy) : Prop extends Moving s c t where
  copy : ∃ amax nan, d = { c with done := n, amax := amax, nan := nan }
  moved : ∀ m x, m < n → x < c.esize → t.readSp ((c.writeKeys s m).getD x 0) = s.readSp ((c.readKeys s m).getD x 0)
    ∧ (s.checked (s.wave c.wave) = true → t.readSp ((c.writeKeys s m).getD x 0 + 2 ^ 22) = s.readSp ((c.readKeys s m).getD x 0))
  kept : ∀ key, (∀ m, m < n → key ∉ c.writeKeys s m ∧ (s.checked (s.wave c.wave) = true → ∀ y ∈ c.writeKeys s m, key ≠ y + 2 ^ 22)) →
    t.readSp key = s.readSp key

/-- The bytes of a copy do not overlap: neither its sources with its destinations, on a checked pair in both clusters, nor the
destinations among themselves. -/
structure Apart (s : State) (c : Copy) : Prop where
  sources : ∀ n m x, n < c.total → m < c.total → x ∈ c.readKeys s n →
    x ∉ c.writeKeys s m ∧ (s.checked (s.wave c.wave) = true → ∀ y ∈ c.writeKeys s m, x ≠ y + 2 ^ 22)
  clusters : s.checked (s.wave c.wave) = true → ∀ n m x y, n < c.total → m < c.total → x ∈ c.writeKeys s n → y ∈ c.writeKeys s m → x ≠ y + 2 ^ 22
  places : ∀ n m x y, n < c.total → m < c.total → x < c.esize → y < c.esize → (c.writeKeys s n).getD x 0 = (c.writeKeys s m).getD y 0 → n = m ∧ x = y

theorem see_done (c : Copy) (data : List Byte) (n : Nat) : ∃ amax nan, ({ c.see data with done := n } : Copy) = { c with done := n, amax := amax, nan := nan } := by
  unfold Copy.see
  split
  · exact ⟨_, _, rfl⟩
  · split <;> exact ⟨_, _, rfl⟩

theorem Moving.copyKeys {t : State} (h : Moving s c t) {d : Copy} (ctx : d.ctx = c.ctx) (a n : Nat) : t.copyKeys d a n = s.copyKeys c a n := by
  simp only [State.copyKeys, State.physCluster, State.ctx, h.ctxs, ctx]

theorem Apart.nodup (h : Apart s c) {n : Nat} (lt : n < c.total) : (c.writeKeys s n).Nodup := by
  refine List.pairwise_iff_getElem.2 fun x y hx hy less eq => ?_
  have length : (c.writeKeys s n).length = c.esize := length_copyKeys _ _ _ _
  have := (h.places n n x y lt lt (length ▸ hx) (length ▸ hy) (by rw [List.getD_eq_getElem _ _ hx, List.getD_eq_getElem _ _ hy, eq])).2
  omega

/-- Bytes written at keys of their own, on a checked pair in both clusters. -/
theorem lastByte_onClusters {w : Wave} {keys : List Nat} {data : List Byte} (nodup : keys.Nodup) (length : data.length = keys.length)
    (clusters : s.checked w = true → ∀ x ∈ keys, ∀ y ∈ keys, x ≠ y + 2 ^ 22) :
    (∀ x, x < keys.length → lastByte (onClusters s w (keys.zip data)) (keys.getD x 0) = some (data.getD x 0)
      ∧ (s.checked w = true → lastByte (onClusters s w (keys.zip data)) (keys.getD x 0 + 2 ^ 22) = some (data.getD x 0)))
    ∧ ∀ key, key ∉ keys → (s.checked w = true → ∀ y ∈ keys, key ≠ y + 2 ^ 22) → lastByte (onClusters s w (keys.zip data)) key = none := by
  have absent {keys : List Nat} {key : Nat} (h : key ∉ keys) : lastByte (keys.zip data) key = none :=
    lastByte_none fun e he eq => h (eq ▸ (List.of_mem_zip he).1)
  have shifted {key : Nat} (h : ∀ y ∈ keys, key ≠ y + 2 ^ 22) : key ∉ keys.map (· + 2 ^ 22) := fun mem => by
    obtain ⟨y, hy, eq⟩ := List.mem_map.1 mem
    exact h y hy eq.symm
  unfold onClusters
  cases hc : s.checked w
  · exact ⟨fun x hx => ⟨lastByte_zip nodup length hx, nofun⟩, fun key h _ => absent h⟩
  · simp only [if_true, lastByte_append, map_shift_zip, forall_const]
    refine ⟨fun x hx => ⟨?_, ?_⟩, fun key h far => ?_⟩
    · have mem : keys.getD x 0 ∈ keys := by rw [List.getD_eq_getElem _ _ hx]; exact List.getElem_mem hx
      rw [absent (shifted (clusters hc _ mem)), lastByte_zip nodup length hx, Option.none_or]
    · have twin := lastByte_zip (nodup.map fun a b h => Nat.add_right_cancel h) (length.trans (List.length_map (f := (· + 2 ^ 22)) ..).symm)
        (x := x) (by simpa using hx)
      have key : (keys.map (· + 2 ^ 22)).getD x 0 = keys.getD x 0 + 2 ^ 22 := by simp [hx]
      rw [key] at twin
      rw [twin, Option.some_or]
    · rw [absent (shifted far), absent h, Option.none_or]

/-- One element of a plain copy is read and then written (R227). -/
theorem copyElement_plain {t u : State} {d : Copy} {q : Nat} {data : List Byte} (plain : d.kind = .plain)
    (read : t.copyRead d (addrPlus d.src (offsetAt d.ext d.sstride d.done)) d.esize = .ok (data, t))
    (one : t.engineDiffers d (addrPlus d.src (offsetAt d.ext d.sstride d.done)) d.esize = false)
    (write : t.copyWrite d q (addrPlus d.dst (offsetAt d.ext d.dstride d.done)) data = .ok u) :
    t.copyElement d q = .ok (u, { d.see data with done := d.done + 1 }) := by
  simp only [State.copyElement, plain, read, one, Bool.false_eq_true, if_false, write]

/-- One element moves. -/
theorem Moved.step {n q : Nat} {t : State} {d : Copy} (h : Moved s c n t d) (apart : Apart s c) (lt : n < c.total) (plain : c.kind = .plain)
    (srcSp : c.srcSp = true) (dstSp : c.dstSp = true) : ∃ u e, t.copyElement d q = .ok (u, e) ∧ Moved s c (n + 1) u e := by
  obtain ⟨amax, nan, rfl⟩ := h.copy
  let d : Copy := { c with done := n, amax := amax, nan := nan }
  have read : t.copyRead d (addrPlus c.src (offsetAt c.ext c.sstride n)) c.esize = .ok ((c.readKeys s n).map t.readSp, t) := by
    rw [h.copyRead (d := d) srcSp rfl, h.copyKeys (d := d) rfl]
    rfl
  let data := (c.readKeys s n).map t.readSp
  have length : data.length = c.esize := by simp [data, Copy.readKeys, length_copyKeys]
  obtain ⟨u, write, moving, bytes⟩ := h.copyWrite (d := d) dstSp rfl q (addrPlus c.dst (offsetAt c.ext c.dstride n)) data
  rw [h.copyKeys (d := d) rfl, length] at bytes
  change ∀ key, u.readSp key = (lastByte (onClusters s (s.wave c.wave) ((c.writeKeys s n).zip data)) key).getD (t.readSp key) at bytes
  have one : t.engineDiffers d (addrPlus c.src (offsetAt c.ext c.sstride n)) c.esize = false := by simp [State.engineDiffers, d, dstSp]
  have run : t.copyElement d q = .ok (u, { d.see data with done := n + 1 }) := copyElement_plain (d := d) plain read one write
  have length' (m : Nat) : (c.writeKeys s m).length = c.esize := length_copyKeys _ _ _ _
  have mem {m x : Nat} (hx : x < c.esize) : (c.writeKeys s m).getD x 0 ∈ c.writeKeys s m := by
    rw [List.getD_eq_getElem _ _ (length' m ▸ hx)]; exact List.getElem_mem _
  obtain ⟨own, other⟩ := lastByte_onClusters (s := s) (w := s.wave c.wave) (apart.nodup lt) (length.trans (length' n).symm)
    fun on x hx y hy => apart.clusters on n n x y lt lt hx hy
  have source {x : Nat} (hx : x < c.esize) : data.getD x 0 = s.readSp ((c.readKeys s n).getD x 0) := by
    have hx' : x < (c.readKeys s n).length := by rw [Copy.readKeys, length_copyKeys]; exact hx
    rw [List.getD_eq_getElem _ _ (length ▸ hx), List.getElem_map, List.getD_eq_getElem _ _ hx']
    exact h.kept _ fun m hm => apart.sources n m _ lt (hm.trans lt) (List.getElem_mem hx')
  have away {m x : Nat} (hm : m < n) (hx : x < c.esize) : (c.writeKeys s m).getD x 0 ∉ c.writeKeys s n := fun mem => by
    obtain ⟨y, hy, eq⟩ := List.getElem_of_mem mem
    have := (apart.places m n x y (hm.trans lt) lt hx (length' n ▸ hy) (by rw [List.getD_eq_getElem _ _ hy, eq])).1
    omega
  refine ⟨u, _, run, { moving with copy := see_done d data (n + 1), moved := fun m x hm hx => ?_, kept := fun key far => ?_ }⟩
  · obtain before | rfl := Nat.lt_succ_iff_lt_or_eq.1 hm
    · obtain ⟨here, twin⟩ := h.moved m x before hx
      refine ⟨?_, fun on => ?_⟩
      · rw [bytes, other _ (away before hx) fun on y hy => apart.clusters on m n _ y (before.trans lt) lt (mem hx) hy]
        exact here
      · rw [bytes, other _ (fun hy => apart.clusters on n m _ _ lt (before.trans lt) hy (mem hx) rfl) fun _ y hy eq =>
          away before hx (Nat.add_right_cancel eq ▸ hy)]
        exact twin on
    · obtain ⟨here, twin⟩ := own x (length' m ▸ hx)
      exact ⟨by rw [bytes, here, Option.getD_some, source hx], fun on => by rw [bytes, twin on, Option.getD_some, source hx]⟩
  · obtain ⟨not, far'⟩ := far n (Nat.lt_succ_self n)
    rw [bytes, other key not far']
    exact h.kept key fun m hm => far m (Nat.lt_succ_of_lt hm)

/-- All elements move, from any of them on. -/
theorem Moved.runElements {q : Nat} (apart : Apart s c) (plain : c.kind = .plain) (srcSp : c.srcSp = true) (dstSp : c.dstSp = true)
    (fuel : Nat) {n : Nat} {t : State} {d : Copy} (h : Moved s c n t d) (total : n + fuel = c.total) :
    ∃ u e, Machine.runElements q fuel t d = (u, e, none) ∧ Moved s c c.total u e := by
  induction fuel generalizing n t d with
  | zero => exact ⟨t, d, rfl, total ▸ h⟩
  | succ fuel ih =>
    obtain ⟨u, e, run, next⟩ := h.step (q := q) apart (by omega) plain srcSp dstSp
    obtain ⟨v, f, rest, last⟩ := ih next (by omega)
    exact ⟨v, f, by simp only [Machine.runElements, run, rest], last⟩

theorem Moved.copyDone {n : Nat} {t : State} {d : Copy} (h : Moved s c n t d) : d.done = n := by
  obtain ⟨amax, nan, rfl⟩ := h.copy
  rfl

/-- Before its first element nothing has moved. -/
theorem Moved.start (done : c.done = 0) (errs : s.mem.spErrs = []) (wf : Memory.wf s.mem.sp = true) (veils : ∀ l ∈ s.launches, l.spVeils = []) :
    Moved s c 0 s c where
  ctxs := rfl
  waves := rfl
  groups := rfl
  copies := rfl
  home := rfl
  wf := wf
  spErrs := errs
  veils := fun l hl v hv => by rw [veils l hl] at hv; cases hv
  copy := ⟨c.amax, c.nan, by rw [← done]⟩
  moved := nofun
  kept := fun _ _ => rfl

end Move

/-- A plain copy between scratchpads moves every element at its start (R226, R231). -/
theorem copyStart_moves {s : State} {cluster queue : Nat} {c : Copy} (lt : 4 * cluster + queue < s.copies.length)
    (next : s.nextCopy (4 * cluster + queue) = some c) (may : s.mayStart c = true) (plain : c.kind = .plain) (srcSp : c.srcSp = true)
    (dstSp : c.dstSp = true) (start : Moved s c 0 s c) (apart : Apart s c) :
    ∃ t u d, exec (.copyStart cluster queue) s = .next t ∧ Moved s c c.total u d ∧ t.mem = u.mem
      ∧ { d with stage := .running } ∈ (t.copyQueue (4 * cluster + queue)).entries := by
  obtain ⟨u, d, run, all⟩ := start.runElements (q := 4 * cluster + queue) apart plain srcSp dstSp c.total (Nat.zero_add _)
  obtain ⟨amax, nan, copy⟩ := all.copy
  have perform : s.performCopy c (4 * cluster + queue) = (u, d, none) := by
    have kind : d.kind = .plain := by rw [copy]; exact plain
    simp only [State.performCopy, start.copyDone, Nat.sub_zero, run, kind]
  have seq : d.seq = c.seq := by rw [copy]
  have queueEq : u.copyQueue (4 * cluster + queue) = s.copyQueue (4 * cluster + queue) :=
    congrArg (fun l : List CopyQueue => l.getD _ default) all.copies
  refine ⟨u.modCopy (4 * cluster + queue) d.seq fun _ => { d with stage := .running }, u, d, congrArg Host.Outcome.next ?_, all, rfl, ?_⟩
  · simp only [next, may, perform, Bool.not_true, Bool.false_eq_true, if_false]
  · simp only [State.modCopy, copyQueue_modCopyQueue_self _ (show _ < u.copies.length from all.copies ▸ lt), queueEq]
    exact List.mem_map.2 ⟨c, mem_of_nextCopy next, if_pos seq.symm⟩

/-- Settles O31. -/
theorem copySteps : Obligations.CopySteps := by
  intro s cluster queue c q lt both src dst
  refine ⟨fun next may plain srcSp dstSp done errs wf veils sources clusters places => ?_,
    fun next may u d cause va run ne live same seq => copyStart_stops next may run ne live same seq, copyStart_waits, copyComplete_done lt⟩
  obtain ⟨t, u, d, run, all, mem, running⟩ := copyStart_moves lt next may plain srcSp dstSp (Moved.start done errs wf veils) ⟨sources, clusters, places⟩
  have read (key : Nat) : t.readSp key = u.readSp key := congrArg (fun m : Mem => Memory.read m.sp key) mem
  obtain ⟨amax, nan, copy⟩ := all.copy
  refine ⟨t, run, ⟨_, running, rfl, by rw [copy], by rw [copy]⟩, fun n x hn hx => ?_, fun key far => ?_, (congrArg Mem.home mem).trans all.home⟩
  · rw [read, read]
    exact all.moved n x hn hx
  · rw [read]
    exact all.kept key far

end Sys2Proof.Machine
end

section
/-! PROOF. Commands on counters, slots, roots and pools (O44). -/

namespace Sys2Proof.Machine

open Sys2Proof.Safety Sys2Proof.Rules

/-! ### Contexts -/

theorem modCtx_eq_const {s : State} {c : Nat} (f : Context → Context) (h : c < s.ctxs.length) :
    s.modCtx c f = s.modCtx c fun _ => (s.modCtx c f).ctx c := by
  rw [ctx_modCtx_self _ _ _ h]
  simp only [State.modCtx, State.ctx, modAt_eq_set _ _ default h]

/-! ### Counters (R134, R409, R420) -/

/-- PERF_CONFIG's configuration `n`, of its two words. -/
def perfCfg (c : Cmd) (n : Nat) : BitVec 16 := BitVec.ofNat 16 (bits (c.arg 0 + 2 ^ 64 * c.arg 1) (16 * n + 10) (16 * n))

theorem toNat_perfCfg (c : Cmd) {n : Nat} (h : n < 8) : (perfCfg c n).toNat = (c.arg (n / 4) / 2 ^ (16 * (n % 4))) % 2 ^ 11 := by
  have w0 : c.arg 0 < 2 ^ 64 := (c.args.getD 0 0).isLt
  have width : 16 * n + 10 + 1 - 16 * n = 11 := by omega
  rw [perfCfg, bits, width, Nat.shiftRight_eq_div_pow, BitVec.toNat_ofNat, Nat.mod_eq_of_lt (by omega)]
  interval_cases n <;> norm_num <;> omega

theorem perfConfig_sets {s : State} {c : Cmd} (inPart : s.cmdCtx c < s.ctxs.length) :
    ∃ t : State, exec (.perfConfig c) s = .next (t.reply c 6 0x20) ∧ t = s.modCtx (s.cmdCtx c) (fun _ => t.ctx (s.cmdCtx c))
      ∧ (t.ctx (s.cmdCtx c)).perf.length = 8
      ∧ ∀ n, n < 8 → ((t.ctx (s.cmdCtx c)).perf.getD n {}).count = ((s.ctx (s.cmdCtx c)).perf.getD n {}).count
        ∧ ((t.ctx (s.cmdCtx c)).perf.getD n {}).cfg.toNat = (c.arg (n / 4) / 2 ^ (16 * (n % 4))) % 2 ^ 11 := by
  let set (l : List Perf) : List Perf := (List.range 8).map fun n => { l.getD n {} with cfg := perfCfg c n }
  refine ⟨s.modCtx (s.cmdCtx c) fun y => { y with perf := set y.perf }, rfl, modCtx_eq_const _ inPart, ?_⟩
  rw [ctx_modCtx_self _ _ _ inPart]
  refine ⟨by simp [set], fun n hn => ?_⟩
  have entry : (set (s.ctx (s.cmdCtx c)).perf).getD n {} = { (s.ctx (s.cmdCtx c)).perf.getD n {} with cfg := perfCfg c n } := by
    simp [set, hn]
  rw [entry]
  exact ⟨rfl, toNat_perfCfg c hn⟩

/-- Requests at edge stops change the queues of the fabric alone. -/
theorem foldl_postEdge_eq (owner : Nat) (write : Bool) (l : List Nat) (s : State) :
    ∃ queues, l.foldl (fun s sec => s.postEdge 256 owner sec write) s = { s with fab := { s.fab with queues := queues } } := by
  induction l generalizing s with
  | nil => exact ⟨s.fab.queues, rfl⟩
  | cons sec t ih =>
    have one : ∃ queues, s.postEdge 256 owner sec write = { s with fab := { s.fab with queues := queues } } := by
      unfold State.postEdge
      dsimp only
      split
      · exact ⟨s.fab.queues, rfl⟩
      · unfold Fabric.enqueue
        dsimp only
        split <;> exact ⟨_, rfl⟩
    obtain ⟨q, one⟩ := one
    obtain ⟨q', rest⟩ := ih (s.postEdge 256 owner sec write)
    exact ⟨q', by rw [List.foldl_cons, rest, one]⟩

/-- The command processor's writes reach the homes; nothing else changes but the queues of the fabric. -/
theorem cpWrite_eq (s : State) (c va : Nat) (data : List Byte) : ∃ mem queues,
    s.cpWrite c va data = { s with mem := mem, fab := { s.fab with queues := queues } }
      ∧ ∀ pas, s.vaRange c va data.length = some pas → mem.home = Memory.writeAll s.mem.home (pas.zip data) := by
  unfold State.cpWrite
  split
  · next l h =>
    obtain ⟨queues, eq⟩ := foldl_postEdge_eq c true (l.map sectorOf).eraseDups (s.writeHome (l.zip data))
    exact ⟨_, queues, eq, fun pas hp => by cases hp.symm.trans h; rfl⟩
  · next h => exact ⟨s.mem, s.fab.queues, rfl, fun pas hp => absurd (hp.symm.trans h) (by simp)⟩

/-- PERF_READ's eight words. -/
def perfWords (l : List Perf) : List Byte :=
  (List.range 8).flatMap fun n => bytesOf 8 ((l.getD n {}).count.toNat + 2 ^ 48 * (l.getD n {}).overflow.toNat)

theorem length_bytesOf (n v : Nat) : (bytesOf n v).length = n := by
  induction n generalizing v with
  | zero => rfl
  | succ n ih => simp [bytesOf, ih]

theorem length_perfWords (l : List Perf) : (perfWords l).length = 64 := by
  simp [perfWords, List.length_flatMap, length_bytesOf]

theorem perfRead_fails {s : State} {c : Cmd} (h : s.vaRange (s.cmdCtx c) c.addr.toNat 64 = none) :
    exec (.perfRead c) s = .next (s.reply c 7 0x22) := by
  refine congrArg Host.Outcome.next ?_
  simp only [h]

/-- PERF_READ writes its words, counts nothing, and clears the overflow bits where ARG0 says so. -/
theorem perfRead_reads {s : State} {c : Cmd} (inPart : s.cmdCtx c < s.ctxs.length) {pas : List Nat}
    (h : s.vaRange (s.cmdCtx c) c.addr.toNat 64 = some pas) :
    ∃ t : State, exec (.perfRead c) s = .next (t.reply c 7 0x20)
      ∧ t.mem.home = Memory.writeAll s.mem.home (pas.zip (perfWords (s.ctx (s.cmdCtx c)).perf))
      ∧ (∀ n, ((t.ctx (s.cmdCtx c)).perf.getD n {}).count = ((s.ctx (s.cmdCtx c)).perf.getD n {}).count)
      ∧ (∀ n, n < (s.ctx (s.cmdCtx c)).perf.length → ((t.ctx (s.cmdCtx c)).perf.getD n {}).overflow =
          (((s.ctx (s.cmdCtx c)).perf.getD n {}).overflow && !(bitAt (c.arg 0) 0))) := by
  obtain ⟨mem, queues, write, home⟩ := cpWrite_eq s (s.cmdCtx c) c.addr.toNat (perfWords (s.ctx (s.cmdCtx c)).perf)
  let clear (x : Context) : Context := { x with perf := x.perf.map fun p => { p with overflow := false } }
  let u : State := { s with mem := mem, fab := { s.fab with queues := queues } }
  have run : exec (.perfRead c) s = .next ((if bitAt (c.arg 0) 0 then u.modCtx (s.cmdCtx c) clear else u).reply c 7 0x20) := by
    refine congrArg Host.Outcome.next ?_
    simp only [h]
    exact congrArg (fun v : State => (if bitAt (c.arg 0) 0 then v.modCtx (s.cmdCtx c) clear else v).reply c 7 0x20) write
  have stored : mem.home = Memory.writeAll s.mem.home (pas.zip (perfWords (s.ctx (s.cmdCtx c)).perf)) :=
    home pas (by rw [length_perfWords]; exact h)
  refine ⟨_, run, ?_⟩
  cases bitAt (c.arg 0) 0
  · exact ⟨stored, fun _ => rfl, fun n _ => (Bool.and_true _).symm⟩
  · have ctx : (u.modCtx (s.cmdCtx c) clear).ctx (s.cmdCtx c) = clear (s.ctx (s.cmdCtx c)) := ctx_modCtx_self u _ _ inPart
    simp only [if_true, ctx]
    refine ⟨stored, fun n => ?_, fun n hn => ?_⟩
    · have := getD_map' (fun p : Perf => { p with overflow := false }) (s.ctx (s.cmdCtx c)).perf {} n
      have := congrArg Perf.count this
      exact this
    · simp [clear, hn]

/-! ### Slots (R103) -/

theorem slotConfig_busy {s : State} {c : Cmd} (busy : s.openLaunches (s.cmdCtx c) ≠ []) :
    exec (.slotConfig c) s = .next (s.reply c 8 0x24) := by
  refine congrArg Host.Outcome.next ?_
  simp [busy]

/-- What SLOT_CONFIG makes of a slot. -/
def Slot.configured (x : Nat) (y : Slot) : Slot :=
  let y := if bitAt x 12 then { y with count := 0, head := 0, nan := false, entries := [] } else y
  { y with fmt := BitVec.ofNat 2 (bits x 7 6), margin := BitVec.ofNat 4 (bits x 11 8) }

theorem exec_slotConfig {s : State} {c : Cmd} (idle : s.openLaunches (s.cmdCtx c) = []) (small : c.arg 0 < 2 ^ 13) :
    exec (.slotConfig c) s = .next ((s.modCtx (s.cmdCtx c) fun y => { y with
      slots := putAt {} y.slots (bits (c.arg 0) 5 0) ((y.slots.getD (bits (c.arg 0) 5 0) {}).configured (c.arg 0)) }).reply c 8 0x20) := by
  refine congrArg Host.Outcome.next ?_
  have high : c.arg 0 >>> 13 = 0 := by rw [Nat.shiftRight_eq_div_pow]; exact Nat.div_eq_of_lt small
  simp only [idle, high, List.isEmpty_nil, Bool.not_true, Bool.false_eq_true, if_false, ne_eq, not_true_eq_false]
  rfl

theorem slotConfig_sets {s : State} {c : Cmd} (inPart : s.cmdCtx c < s.ctxs.length) (idle : s.openLaunches (s.cmdCtx c) = [])
    (small : c.arg 0 < 2 ^ 13) : ∃ t : State, exec (.slotConfig c) s = .next (t.reply c 8 0x20)
      ∧ t = s.modCtx (s.cmdCtx c) (fun _ => t.ctx (s.cmdCtx c))
      ∧ (let n := c.arg 0 % 64
         let a := (s.ctx (s.cmdCtx c)).slots.getD n {}
         let b := (t.ctx (s.cmdCtx c)).slots.getD n {}
         b.fmt.toNat = c.arg 0 / 2 ^ 6 % 4 ∧ b.margin.toNat = c.arg 0 / 2 ^ 8 % 16
         ∧ (bitAt (c.arg 0) 12 = true → b.count = 0 ∧ b.nan = false ∧ b.entries = [])
         ∧ (bitAt (c.arg 0) 12 = false → b.count = a.count ∧ b.nan = a.nan ∧ b.entries = a.entries ∧ b.head = a.head)
         ∧ ∀ m, m ≠ n → (t.ctx (s.cmdCtx c)).slots.getD m {} = (s.ctx (s.cmdCtx c)).slots.getD m {}) := by
  refine ⟨_, exec_slotConfig idle small, modCtx_eq_const _ inPart, ?_⟩
  rw [ctx_modCtx_self _ _ _ inPart]
  have number : bits (c.arg 0) 5 0 = c.arg 0 % 64 := by simp [bits]
  simp only [number, getD_putAt_self']
  refine ⟨?_, ?_, fun on => ?_, fun off => ?_, fun m ne => getD_putAt_ne _ _ _ ne⟩
  · simp [Slot.configured, bits, Nat.shiftRight_eq_div_pow]
  · simp [Slot.configured, bits, Nat.shiftRight_eq_div_pow]
  · simp [Slot.configured, on]
  · simp [Slot.configured, off]

/-! ### Stage-1 roots (R303) -/

theorem s1rootSet_busy {s : State} {c : Cmd} (busy : s.openLaunches (s.cmdCtx c) ≠ []) :
    exec (.s1rootSet c) s = .next (s.reply c 0x0A 0x24) := by
  refine congrArg Host.Outcome.next ?_
  simp [busy]

theorem s1rootSet_refuses {s : State} {c : Cmd} (idle : s.openLaunches (s.cmdCtx c) = [])
    (bad : c.arg 0 % 2 ^ 17 ≠ 0 ∨ 2 ^ 48 ≤ c.arg 0) : exec (.s1rootSet c) s = .next (s.reply c 0x0A 0x22) := by
  refine congrArg Host.Outcome.next ?_
  simp only [idle, List.isEmpty_nil, Bool.not_true, Bool.false_eq_true, if_false, if_pos bad]

/-- A core whose translations of some entries are dropped. -/
def Core.keeping (p : TlbEntry → Bool) (x : Core) : Core := { x with tlb := x.tlb.filter p }

theorem mem_tlb_foldl_modCore (p : TlbEntry → Bool) (l : List Nat) (s : State) {core : Nat} (lt : core < s.cores.length) (e : TlbEntry) :
    e ∈ ((l.foldl (fun s core => s.modCore core (Core.keeping p)) s).core core).tlb ↔ e ∈ (s.core core).tlb ∧ (core ∈ l → p e = true) := by
  induction l generalizing s with
  | nil => simp
  | cons n t ih =>
    have first : e ∈ ((s.modCore n (Core.keeping p)).core core).tlb ↔ e ∈ (s.core core).tlb ∧ (core = n → p e = true) := by
      by_cases eq : core = n
      · rw [← eq, core_modCore _ lt]
        simp [Core.keeping, List.mem_filter]
      · rw [core_modCore_ne _ eq]
        simp [eq]
    rw [List.foldl_cons, ih _ (by simpa using lt), first, List.mem_cons]
    tauto

theorem core_foldl_modCore_of_notMem {f : Core → Core} {l : List Nat} {core : Nat} (h : core ∉ l) (s : State) :
    (l.foldl (fun s core => s.modCore core f) s).core core = s.core core := by
  induction l generalizing s with
  | nil => rfl
  | cons n t ih =>
    rw [List.mem_cons, not_or] at h
    rw [List.foldl_cons, ih h.2, core_modCore_ne _ h.1]

theorem mem_partitionCores (s : State) (c core : Nat) : core ∈ s.partitionCores c ↔ core / 4 ∈ (s.ctx c).clusterMap := by
  simp only [State.partitionCores, List.mem_flatMap, List.mem_cons, List.not_mem_nil, or_false]
  constructor
  · rintro ⟨p, hp, h⟩
    rwa [show core / 4 = p by omega]
  · exact fun h => ⟨core / 4, h, by omega⟩

/-- A group whose windows of some kind are no longer valid. -/
def Group.dropping (c : Nat) (window : Window → Bool) (g : Group) : Group :=
  if g.ctx = c then { g with windows := g.windows.map fun x => if x.valid && window x then { x with valid := false } else x } else g

theorem foldl_modCore_eq (f : Core → Core) (l : List Nat) (s : State) :
    ∃ cores, l.foldl (fun s core => s.modCore core f) s = { s with cores := cores } := by
  induction l generalizing s with
  | nil => exact ⟨s.cores, rfl⟩
  | cons n t ih => exact ih (s.modCore n f)

/-- What a shootdown drops (R309). -/
theorem dropTranslations_dropped (s : State) (c : Nat) (entry : TlbEntry → Bool) (window : Window → Bool) :
    Dropped s (s.dropTranslations c entry window) c (fun e => entry e = true) (fun w => window w = true) := by
  let p (e : TlbEntry) : Bool := !(e.asid == (s.ctx c).asid && entry e)
  have groups : (s.dropTranslations c entry window).groups = s.groups.map (Group.dropping c window) := by
    obtain ⟨cores, eq⟩ := foldl_modCore_eq (Core.keeping p) (s.partitionCores c) s
    have := congrArg (fun x : State => x.groups.map (Group.dropping c window)) eq
    exact this
  have group (g : Nat) : (s.dropTranslations c entry window).group g = (s.group g).dropping c window := by
    have := getD_map' (Group.dropping c window) s.groups default g
    have fixed : Group.dropping c window default = default := by unfold Group.dropping; split <;> rfl
    rw [fixed] at this
    exact (congrArg (fun l : List Group => l.getD g default) groups).trans this
  refine ⟨fun core hc lt e => ?_, fun core hc => ?_, fun g hg i hw => ?_, fun g hg => ?_⟩
  · have := mem_tlb_foldl_modCore p (s.partitionCores c) s lt e
    refine this.trans (and_congr_right fun _ => ?_)
    simp [mem_partitionCores, hc, p, imp_iff_not_or]
  · have := core_foldl_modCore_of_notMem (f := Core.keeping p) (fun h => hc ((mem_partitionCores s c core).1 h)) s
    exact congrArg Core.tlb this
  · rw [group, Group.dropping, if_pos hg]
    by_cases lt : i < (s.group g).windows.length
    · rw [List.getD_eq_getElem _ _ lt] at hw
      rw [List.getD_eq_getElem _ _ (by simpa using lt), List.getElem_map, hw]
      cases valid : ((s.group g).windows[i]).valid <;> simp [valid]
    · rw [List.getD_eq_default _ _ (by simpa using lt)]
  · rw [group, Group.dropping, if_neg hg]

theorem ctxs_dropTranslations (s : State) (c : Nat) (entry : TlbEntry → Bool) (window : Window → Bool) :
    (s.dropTranslations c entry window).ctxs = s.ctxs := by
  obtain ⟨cores, eq⟩ := foldl_modCore_eq (Core.keeping fun e => !(e.asid == (s.ctx c).asid && entry e)) (s.partitionCores c) s
  have := congrArg State.ctxs eq
  exact this

theorem s1rootSet_sets {s : State} {c : Cmd} (inPart : s.cmdCtx c < s.ctxs.length) (idle : s.openLaunches (s.cmdCtx c) = [])
    (aligned : c.arg 0 % 2 ^ 17 = 0) (small : c.arg 0 < 2 ^ 48) :
    ∃ t : State, exec (.s1rootSet c) s = .next (t.reply c 0x0A 0x20) ∧ (t.ctx (s.cmdCtx c)).s1root = some (c.arg 0)
      ∧ Dropped s t (s.cmdCtx c) (fun _ => True) (fun _ => True) := by
  let x := s.cmdCtx c
  let v := s.modCtx x fun y => { y with s1root := some (c.arg 0) }
  let u := v.dropTranslations x (fun _ => true) fun _ => true
  have ctx : v.ctx x = { s.ctx x with s1root := some (c.arg 0) } := ctx_modCtx_self _ _ _ inPart
  have run : exec (.s1rootSet c) s = .next ((u.tellLinked (u.ctx x).asid 0 (2 ^ 56)).reply c 0x0A 0x20) := by
    refine congrArg Host.Outcome.next ?_
    simp only [idle, List.isEmpty_nil, Bool.not_true, Bool.false_eq_true, if_false, aligned, ne_eq, not_true_eq_false, false_or, Nat.not_le.2 small]
    rfl
  obtain ⟨tlb, others, windows, kept⟩ := dropTranslations_dropped v x (fun _ => true) fun _ => true
  rw [ctx] at tlb others
  refine ⟨u.tellLinked (u.ctx x).asid 0 (2 ^ 56), run, ?_, fun core hc lt e => ?_, others, fun g hg i _ => windows g hg i rfl, kept⟩
  · have : (u.tellLinked (u.ctx x).asid 0 (2 ^ 56)).ctx x = v.ctx x :=
      congrArg (fun l : List Context => l.getD x default) (ctxs_dropTranslations v x (fun _ => true) fun _ => true)
    rw [show s.cmdCtx c = x from rfl, this, ctx]
  · exact (tlb core hc lt e).trans (and_congr_right fun _ => by simp [x])

/-! ### Pools (R316) -/

theorem poolSet_refuses {s : State} {c : Cmd} (h : s.poolHeader (s.cmdCtx c) c.addr.toNat = none) (frames : List (BitVec 48)) :
    exec (.poolSet c frames) s = .next (s.reply c 9 0x22) := by
  refine congrArg Host.Outcome.next ?_
  simp only [h]

/-- A range of a context is read through its tables alone. -/
theorem vaRange_congr {s t : State} (h : SameTables s t) {c : Nat} (s1 : (t.ctx c).s1root = (s.ctx c).s1root)
    (s2 : (t.ctx c).s2root = (s.ctx c).s2root) (asid : (t.ctx c).asid = (s.ctx c).asid) (va n : Nat) : t.vaRange c va n = s.vaRange c va n := by
  induction n generalizing va with
  | zero => rfl
  | succ n ih => simp only [State.vaRange, State.vaPa, walk_congr h s1 s2 asid, ih]

theorem byteBad_congr {s t : State} (h : SameTables s t) : t.byteBad = s.byteBad := by
  funext pa
  have words (sec : Nat) : t.l2Words sec = s.l2Words sec := by simp only [State.l2Words, h.mem]
  have dram (sec : Nat) : t.dramBad sec = s.dramBad sec := by simp only [State.dramBad, h.mem]
  have l2 (sec : Nat) : t.l2Bad sec = s.l2Bad sec := by simp only [State.l2Bad, h.mem, h.l2, words]
  have bytes (sec : Nat) : t.badBytes sec = s.badBytes sec := by rw [State.badBytes, State.badBytes, words, dram, l2]
  rw [State.byteBad, State.byteBad, bytes]

theorem poolHeader_congr {s t : State} (h : SameTables s t) {c : Nat} (s1 : (t.ctx c).s1root = (s.ctx c).s1root)
    (s2 : (t.ctx c).s2root = (s.ctx c).s2root) (asid : (t.ctx c).asid = (s.ctx c).asid) (va : Nat) : t.poolHeader c va = s.poolHeader c va := by
  simp only [State.poolHeader, State.cpRead, vaRange_congr h s1 s2 asid, byteBad_congr h, h.mem]

theorem poolSet_sets {s : State} {c : Cmd} (inPart : s.cmdCtx c < s.ctxs.length) {h : Nat × Nat × Nat × Nat}
    (header : s.poolHeader (s.cmdCtx c) c.addr.toNat = some h) (room : h.2.2.2 ≤ h.2.1 - h.1) (frames : List (BitVec 48)) :
    exec (.poolSet c frames) s = .next
      ((s.modCtx (s.cmdCtx c) fun y => { y with pool := some c.addr.toNat, quota := c.arg 0 }).reply c 9 0x20) := by
  let t := s.modCtx (s.cmdCtx c) fun y => { y with pool := some c.addr.toNat, quota := c.arg 0 }
  have ctx : t.ctx (s.cmdCtx c) = { s.ctx (s.cmdCtx c) with pool := some c.addr.toNat, quota := c.arg 0 } := ctx_modCtx_self _ _ _ inPart
  have same : t.poolHeader (s.cmdCtx c) c.addr.toNat = some h :=
    (poolHeader_congr (s := s) (t := t) ⟨rfl, rfl, rfl, rfl⟩ (by rw [ctx]) (by rw [ctx]) (by rw [ctx]) _).trans header
  have high : t.poolLow (s.cmdCtx c) = false := by
    simp only [State.poolLow, ctx, same]
    exact decide_eq_false (Nat.not_lt.2 room)
  refine congrArg Host.Outcome.next ?_
  simp only [header]
  rw [if_neg (by rw [show State.poolLow _ _ = false from high]; decide)]

/-! ### Graphs that go (R409) -/

theorem graphDestroy_refuses {s : State} {c : Cmd} (h : s.graphs.length ≤ c.arg 0 ∨ (s.graph (c.arg 0)).live = false ∨ (s.graph (c.arg 0)).ctx ≠ s.cmdCtx c) :
    exec (.graphDestroy c) s = .next (s.reply c 4 0x22) := by
  refine congrArg Host.Outcome.next (if_pos ?_)
  obtain h | h | h := h <;> simp [h]

theorem graphDestroy_busy {s : State} {c : Cmd} (lt : c.arg 0 < s.graphs.length) (live : (s.graph (c.arg 0)).live = true)
    (own : (s.graph (c.arg 0)).ctx = s.cmdCtx c) (busy : ∃ l ∈ s.launches, l.graph = some (c.arg 0) ∧ l.completed = false) :
    exec (.graphDestroy c) s = .next (s.reply c 4 0x24) := by
  refine congrArg Host.Outcome.next ((if_neg ?_).trans (if_pos ?_))
  · simp [lt, live, own]
  · simpa using busy

theorem graphDestroy_destroys {s : State} {c : Cmd} (lt : c.arg 0 < s.graphs.length) (live : (s.graph (c.arg 0)).live = true)
    (own : (s.graph (c.arg 0)).ctx = s.cmdCtx c) (idle : ∀ l ∈ s.launches, l.graph = some (c.arg 0) → l.completed = true) :
    exec (.graphDestroy c) s = .next ((s.modGraph (c.arg 0) fun y => { y with live := false }).reply c 4 0x20) := by
  refine congrArg Host.Outcome.next ((if_neg ?_).trans (if_neg ?_))
  · simp [lt, live, own]
  · simpa using idle

end Sys2Proof.Machine
end

section
/-! PROOF. GRAPH_CREATE and HUSK_DEFINE (O44). -/

namespace Sys2Proof.Machine

open Sys2Proof.Safety Sys2Proof.Rules

/-! ### Graphs (R236, R282) -/

theorem graphs_foldl_cpWrite (ctx : Nat) (at_ : Nat → Nat) (data : Nat → List Byte) (l : List Nat) (s : State) :
    (l.foldl (fun s i => s.cpWrite ctx (at_ i) (data i)) s).graphs = s.graphs := by
  induction l generalizing s with
  | nil => rfl
  | cons i t ih =>
    obtain ⟨mem, queues, write, -⟩ := cpWrite_eq s ctx (at_ i) (data i)
    rw [List.foldl_cons, ih, write]

/-- The pod of node `i` of a new graph, at an index of the pod table. -/
def newPod (free gens : List Nat) (i : Nat) (e : NodeRec × Kernel) : Pod :=
  { idx := free.getD i 0, kernel := e.1.kernel, cont := e.1.cont == 1, ancestors := BitVec.ofNat 64 e.1.ancestors
    roles := e.1.roles, gen := gens.getD i 0 }

/-- The pods of a new graph. -/
def newPods (free gens : List Nat) (nodes : List (NodeRec × Kernel)) : List Pod :=
  (List.range nodes.length).filterMap fun i => (nodes[i]?).map (newPod free gens i)

theorem newPods_eq_map (free gens : List Nat) (nodes : List (NodeRec × Kernel)) :
    newPods free gens nodes = (List.range nodes.length).map fun i => ((nodes[i]?).map (newPod free gens i)).getD default := by
  rw [newPods, ← List.filterMap_eq_map]
  refine List.filterMap_congr fun i hi => ?_
  simp [List.mem_range.1 hi]

theorem length_newPods (free gens : List Nat) (nodes : List (NodeRec × Kernel)) : (newPods free gens nodes).length = nodes.length := by
  simp [newPods_eq_map]

theorem getD_newPods (free gens : List Nat) {nodes : List (NodeRec × Kernel)} {n : Nat} (h : n < nodes.length) :
    (newPods free gens nodes).getD n default = newPod free gens n nodes[n] := by
  simp [newPods_eq_map, h]

theorem map_idx_newPods {free : List Nat} (gens : List Nat) {nodes : List (NodeRec × Kernel)} (h : free.length = nodes.length) :
    (newPods free gens nodes).map Pod.idx = free := by
  refine List.ext_getElem (by simp [length_newPods, h]) fun n h1 h2 => ?_
  have lt : n < nodes.length := h ▸ h2
  have := getD_newPods free gens lt
  rw [List.getD_eq_getElem _ _ (by rw [length_newPods]; exact lt)] at this
  rw [List.getElem_map, this]
  simp [newPod, h2]

theorem freePods_nodup (s : State) (c : Nat) : (s.freePods c).Nodup := List.Nodup.filter _ List.nodup_range

theorem freePods_lt {s : State} {c i : Nat} (h : i ∈ s.freePods c) : i < 4096 := List.mem_range.1 (List.mem_filter.1 h).1

theorem one_le_nextPodGen (n : Nat) : 1 ≤ nextPodGen n := by unfold nextPodGen; split <;> omega

theorem graphCreate_unread {s : State} {c : Cmd} (h : s.cpRead (s.cmdCtx c) c.addr.toNat 64 = none) :
    exec (.graphCreate c) s = .next (s.reply c 3 0x22) := by
  refine congrArg Host.Outcome.next ?_
  simp only [h]

/-- The graph that GRAPH_CREATE makes, at the first free indices of the context's pod table. -/
def State.newGraph (s : State) (x : Nat) (b : List Byte) (nodes : List (NodeRec × Kernel)) : Graph :=
  let free := (s.freePods x).take nodes.length
  { ctx := x, image := fieldAt b 0 4, poolSize := fieldAt b 16 8
    pods := newPods free (free.map fun i => nextPodGen (lookupD 0 (s.ctx x).podGens i)) nodes }

theorem exec_graphCreate {s : State} {c : Cmd} {b : List Byte} {nodes : List (NodeRec × Kernel)}
    (read : s.cpRead (s.cmdCtx c) c.addr.toNat 64 = some b) (named : s.graphNodes (s.cmdCtx c) c.addr.toNat b = some nodes)
    (room : nodes.length ≤ (s.freePods (s.cmdCtx c)).length) :
    ∃ t : State, exec (.graphCreate c) s = .next (t.reply c 3 0x20 s.graphs.length) ∧ t.graphs = s.graphs ++ [s.newGraph (s.cmdCtx c) b nodes] := by
  have enough : ¬ ((s.freePods (s.cmdCtx c)).take nodes.length).length < nodes.length := by simp [room]
  let free := (s.freePods (s.cmdCtx c)).take nodes.length
  let gens := free.map fun i => nextPodGen (lookupD 0 (s.ctx (s.cmdCtx c)).podGens i)
  let v : State := s.modCtx (s.cmdCtx c) fun x => { x with podGens := (free.zip gens).foldl (fun t e => assign t e.1 e.2) x.podGens }
  let u : State := { v with graphs := v.graphs ++ [s.newGraph (s.cmdCtx c) b nodes] }
  let pods := newPods free gens nodes
  let word (i : Nat) : Nat := (pods.getD i default).idx + 2 ^ 12 * (pods.getD i default).gen + 2 ^ 32 * s.graphs.length
  refine ⟨(List.range pods.length).foldl (fun t i => t.cpWrite (s.cmdCtx c) (c.addr.toNat + 64 + 48 * i + 32) (bytesOf 8 (word i))) u, ?_,
    graphs_foldl_cpWrite ..⟩
  refine congrArg Host.Outcome.next ?_
  simp only [read, named, if_neg enough]
  rfl

theorem graphCreate_creates {s : State} {c : Cmd} {b : List Byte} {nodes : List (NodeRec × Kernel)}
    (read : s.cpRead (s.cmdCtx c) c.addr.toNat 64 = some b) (named : s.graphNodes (s.cmdCtx c) c.addr.toNat b = some nodes)
    (room : nodes.length ≤ (s.freePods (s.cmdCtx c)).length) :
    ∃ t : State, exec (.graphCreate c) s = .next (t.reply c 3 0x20 s.graphs.length) ∧ t.graphs.length = s.graphs.length + 1
      ∧ (t.graph s.graphs.length).ctx = s.cmdCtx c ∧ (t.graph s.graphs.length).live = true ∧ (t.graph s.graphs.length).poolUsed = 0
      ∧ (t.graph s.graphs.length).poolSize = fieldAt b 16 8 ∧ (t.graph s.graphs.length).pods.length = nodes.length
      ∧ (∀ n, n < nodes.length → (t.pod s.graphs.length n).fifo = [] ∧ (t.pod s.graphs.length n).timer = none
          ∧ 1 ≤ (t.pod s.graphs.length n).gen ∧ (t.pod s.graphs.length n).idx < 4096)
      ∧ ((t.graph s.graphs.length).pods.map Pod.idx).Nodup := by
  obtain ⟨t, run, graphs⟩ := exec_graphCreate read named room
  let free := (s.freePods (s.cmdCtx c)).take nodes.length
  have length : free.length = nodes.length := by simp [free, room]
  have graph : t.graph s.graphs.length = s.newGraph (s.cmdCtx c) b nodes := by
    rw [State.graph, graphs]
    simp
  refine ⟨t, run, by rw [graphs]; simp, ?_⟩
  rw [graph]
  refine ⟨rfl, rfl, rfl, rfl, length_newPods _ _ _, fun n hn => ?_, ?_⟩
  · rw [State.pod, graph]
    have lt : n < free.length := length ▸ hn
    have := getD_newPods free (free.map fun i => nextPodGen (lookupD 0 (s.ctx (s.cmdCtx c)).podGens i)) hn
    rw [show (s.newGraph (s.cmdCtx c) b nodes).pods.getD n default = _ from this]
    refine ⟨rfl, rfl, ?_, ?_⟩
    · simp [newPod, lt, one_le_nextPodGen]
    · simp only [newPod, List.getD_eq_getElem _ _ lt]
      exact freePods_lt (List.mem_of_mem_take (List.getElem_mem lt))
  · rw [State.newGraph, map_idx_newPods _ length]
    exact (freePods_nodup s _).sublist (List.take_sublist _ _)

end Sys2Proof.Machine
end

section
/-! PROOF. HUSK_DEFINE, and the commands together (O44). -/

namespace Sys2Proof.Machine

open Sys2Proof.Safety Sys2Proof.Rules

/-! ### What leaves the definitions of husks alone -/

theorem husks_of_side {s t : State} (h : MemorySide s t) : t.fab.husks = s.fab.husks := by
  have := congrArg (fun x : State => x.fab.husks) h.rest
  exact this

theorem husks_foldl {α : Type} {f : State → α → State} (h : ∀ s x, (f s x).fab.husks = s.fab.husks) (l : List α) (s : State) :
    (l.foldl f s).fab.husks = s.fab.husks := by
  induction l generalizing s with
  | nil => rfl
  | cons x t ih => exact (ih _).trans (h s x)

theorem husks_cpWrite (s : State) (c va : Nat) (data : List Byte) : (s.cpWrite c va data).fab.husks = s.fab.husks := by
  obtain ⟨mem, queues, write, -⟩ := cpWrite_eq s c va data
  rw [write]

theorem husks_writeBackLine (s : State) (x : L2Line) : (s.writeBackLine x).fab.husks = s.fab.husks := by
  unfold State.writeBackLine
  dsimp only
  have healed := husks_of_side (side_foldl (fun s i => side_healL2 s (4 * x.line + i) x.owner) (List.range 4) s)
  split
  · exact (husks_of_side (side_foldl (fun s i => side_rdcWriteBack s (4 * x.line + i)) _ _)).trans healed
  · split
    · exact healed
    · exact (husks_of_side ((side_foldl (fun s i => side_charge s _ _ _ _) _ _).trans (side_enqueue _ _ _ _ _ _))).trans healed

theorem husks_emptyShare (s : State) (bank share : Nat) : (s.emptyShare bank share).fab.husks = s.fab.husks := by
  refine husks_foldl (fun s x => ?_) _ s
  unfold State.dropLine
  dsimp only
  split
  · exact (husks_of_side (side_foldl (fun s i => side_rdcDrop s (4 * x.line + i)) _ _)).trans (husks_writeBackLine s x)
  · exact husks_writeBackLine s x

theorem husks_fitShares (s : State) (husk n bank : Nat) : (s.fitShares husk n bank).fab.husks = s.fab.husks := by
  have given (o : Share) (l : List Nat) (s : State) : (l.foldl (fun s i => (s.emptyShare bank i).setShare bank i o) s).fab.husks = s.fab.husks :=
    husks_foldl (f := fun s i => (s.emptyShare bank i).setShare bank i o) (fun s i => husks_emptyShare s bank i) l s
  exact (given (.husk 0) _ _).trans (given (.husk husk) _ s)

theorem husks_cleanHusk (s : State) (husk : Nat) : (s.cleanHusk husk).fab.husks = s.fab.husks := by
  unfold State.cleanHusk
  dsimp only
  split
  · exact (husks_of_side (side_foldl side_rdcWriteBack _ _)).trans (husks_foldl husks_writeBackLine _ s)
  · exact husks_foldl husks_writeBackLine _ s

/-! ### Definitions (R361, R367) -/

/-- The number of a definition: that of the record, or the lowest that no husk has. -/
def State.huskNumber (s : State) (r : HuskRec) : Nat :=
  if r.husk ≠ 0 then r.husk else ((firstBelow (fun n => !(s.fab.husks.any fun h => h.num == n + 1)) 63).getD 0) + 1

/-- Fewer than 63 husks leave one of the numbers 1 to 63. -/
theorem huskNumber_free {s : State} {r : HuskRec} (fresh : r.husk = 0) (room : s.fab.husks.length < 63) :
    1 ≤ s.huskNumber r ∧ ∀ y ∈ s.fab.husks, y.num ≠ s.huskNumber r := by
  rw [State.huskNumber, if_neg (not_not.2 fresh)]
  cases h : firstBelow (fun n => !(s.fab.husks.any fun h => h.num == n + 1)) 63 with
  | none =>
    have taken : (List.range 63).map (· + 1) ⊆ s.fab.husks.map Husk.num := fun m hm => by
      obtain ⟨n, hn, rfl⟩ := List.mem_map.1 hm
      have := List.find?_eq_none.1 h n hn
      simpa using this
    have nodup : ((List.range 63).map (· + 1)).Nodup := List.nodup_range.map fun a b h => Nat.succ_injective h
    have := (nodup.subperm taken).length_le
    simp at this
    omega
  | some n =>
    have free := List.find?_some h
    exact ⟨by simp, fun y hy eq => by
      simp only [Bool.not_eq_true', List.any_eq_false, beq_iff_eq] at free
      exact free y hy eq⟩

theorem room_of_huskStatus {s : State} {c : Nat} {r : HuskRec} {banks : List Nat} (h : s.huskStatus c r banks = 0) (fresh : r.husk = 0) :
    s.fab.husks.length < 63 := by
  by_contra full
  unfold State.huskStatus at h
  simp only [fresh, decide_true, Bool.true_and, decide_eq_true (Nat.not_lt.1 full), if_true] at h
  split at h
  · cases h
  · split at h
    · cases h
    · split at h
      · cases h
      · split at h <;> cases h

theorem husks_defined (s : State) (banks : List Nat) (shares num : Nat) (p : Prop) [Decidable p] :
    (if p then (banks.foldl (fun s b => s.fitShares num shares b) s).cleanHusk num
      else banks.foldl (fun s b => s.fitShares num shares b) s).fab.husks = s.fab.husks := by
  have fitted := husks_foldl (f := fun s b => s.fitShares num shares b) (fun s b => husks_fitShares s num shares b) banks s
  split
  · exact (husks_cleanHusk _ _).trans fitted
  · exact fitted

/-- An accepted definition stands first, and replaces that of its number alone. -/
theorem defineHusk_spec (s : State) (c : Nat) (r : HuskRec) (banks : List Nat) : ∃ h : Husk,
    (s.defineHusk c r banks).2.2.fab.husks = h :: s.fab.husks.filter (fun x => x.num != h.num)
      ∧ h.num = s.huskNumber r ∧ h.ctx = c ∧ h.banks = banks ∧ h.shares = r.shares ∧ h.fill = r.fill ∧ h.policy = r.policy ∧ h.cls = r.cls :=
  ⟨_, congrArg (List.cons _) (congrArg (List.filter _) (husks_defined s banks r.shares _ _)), rfl, rfl, rfl, rfl, rfl, rfl, rfl⟩

theorem huskDefine_unread {s : State} {c : Cmd} (h : s.cpRead (s.cmdCtx c) c.addr.toNat 64 = none) :
    exec (.huskDefine c) s = .next (s.reply c 2 0x22) := by
  refine congrArg Host.Outcome.next ?_
  simp only [h]

/-- A record that is not accepted gets its STATUS, and changes nothing else (R361). -/
theorem huskDefine_refuses {s : State} {c : Cmd} {b : List Byte} (read : s.cpRead (s.cmdCtx c) c.addr.toNat 64 = some b)
    (bad : s.huskStatus (s.cmdCtx c) (huskRecord b) (s.huskBanksOf (s.cmdCtx c) (huskRecord b)) ≠ 0) :
    exec (.huskDefine c) s = .next ((s.cpWrite (s.cmdCtx c) (c.addr.toNat + 38)
      (bytesOf 2 (s.huskStatus (s.cmdCtx c) (huskRecord b) (s.huskBanksOf (s.cmdCtx c) (huskRecord b))))).reply c 2 0x20) := by
  refine congrArg Host.Outcome.next ?_
  simp only [read, if_pos bad]

theorem huskDefine_defines {s : State} {c : Cmd} {b : List Byte} (read : s.cpRead (s.cmdCtx c) c.addr.toNat 64 = some b)
    (good : s.huskStatus (s.cmdCtx c) (huskRecord b) (s.huskBanksOf (s.cmdCtx c) (huskRecord b)) = 0) :
    ∃ (t : State) (h : Husk), exec (.huskDefine c) s = .next (t.reply c 2 0x20) ∧ t.fab.husks.head? = some h
      ∧ h.ctx = s.cmdCtx c ∧ h.banks = s.huskBanksOf (s.cmdCtx c) (huskRecord b) ∧ h.shares = (huskRecord b).shares
      ∧ h.fill = (huskRecord b).fill ∧ h.policy = (huskRecord b).policy ∧ h.cls = (huskRecord b).cls
      ∧ ((huskRecord b).husk ≠ 0 → h.num = (huskRecord b).husk)
      ∧ ((huskRecord b).husk = 0 → 1 ≤ h.num ∧ ∀ y ∈ s.fab.husks, y.num ≠ h.num)
      ∧ ∀ y ∈ s.fab.husks, y.num ≠ h.num → y ∈ t.fab.husks := by
  obtain ⟨h, husks, num, ctx, banks, shares, fill, policy, cls⟩ :=
    defineHusk_spec s (s.cmdCtx c) (huskRecord b) (s.huskBanksOf (s.cmdCtx c) (huskRecord b))
  let d := s.defineHusk (s.cmdCtx c) (huskRecord b) (s.huskBanksOf (s.cmdCtx c) (huskRecord b))
  let t := d.2.2.cpWrite (s.cmdCtx c) (c.addr.toNat + 37) (bytesOf 1 d.1 ++ bytesOf 2 0 ++ bytesOf 8 d.2.1)
  have written : t.fab.husks = h :: s.fab.husks.filter (fun x => x.num != h.num) := (husks_cpWrite _ _ _ _).trans husks
  refine ⟨t, h, congrArg Host.Outcome.next ?_, by rw [written]; rfl, ctx, banks, shares, fill, policy, cls, fun named => ?_, fun fresh => ?_,
    fun y hy ne => ?_⟩
  · simp only [read, good, ne_eq, not_true_eq_false, if_false]
    rfl
  · rw [num, State.huskNumber, if_pos named]
  · rw [num]
    exact huskNumber_free fresh (room_of_huskStatus good fresh)
  · rw [written]
    exact List.mem_cons_of_mem _ (List.mem_filter.2 ⟨hy, by simpa using ne⟩)

/-- Settles O44. -/
theorem commands : Obligations.Commands := by
  intro s c inPart x
  refine ⟨rfl, perfConfig_sets inPart, perfRead_fails, fun pas => perfRead_reads inPart, fun busy => ⟨slotConfig_busy busy, s1rootSet_busy busy⟩,
    slotConfig_sets inPart, s1rootSet_sets inPart, s1rootSet_refuses, poolSet_refuses, fun h frames header room => poolSet_sets inPart header room frames,
    ⟨graphDestroy_refuses, fun lt live own => ⟨graphDestroy_busy lt live own, graphDestroy_destroys lt live own⟩⟩,
    fun unread => ⟨graphCreate_unread unread, huskDefine_unread unread⟩, fun b nodes => graphCreate_creates,
    fun b read => ⟨huskDefine_refuses read, huskDefine_defines read⟩⟩

end Sys2Proof.Machine
end

section
/-! PROOF. Launches under memory traffic (O38): only an error that is charged to a context changes one, and then none that has yet to run. -/

namespace Sys2Proof.Machine

open Sys2Proof.Safety Sys2Proof.Rules

/-! ### Steps that leave every launch as it is -/

theorem launches_foldl {α : Type} {f : State → α → State} (h : ∀ s x, (f s x).launches = s.launches) (l : List α) (s : State) :
    (l.foldl f s).launches = s.launches := by
  induction l generalizing s with
  | nil => rfl
  | cons x t ih => exact (ih _).trans (h s x)

theorem launches_of_counted {s t : State} (h : Counted s t) : t.launches = s.launches := by have := congrArg State.launches h.rest; exact this

theorem launches_traceEntry (s : State) (type units context : Nat) (body : List Byte) (stamp : Option Nat) :
    (s.traceEntry type units context body stamp).launches = s.launches := by
  unfold State.traceEntry
  dsimp only
  split <;> rfl

theorem launches_record (s : State) (r : Rec) : (s.record r).launches = s.launches := by
  simp only [State.record, apply_ite State.launches, launches_traceEntry, State.message, State.writeHomeN_launches, ite_self]

theorem launches_post (s : State) (a : Asker) (sec : Nat) (write : Bool) : (s.post a sec write).launches = s.launches := by
  unfold State.post
  dsimp only
  split
  · exact (launches_of_counted (counted_count _ _ _ _ _)).trans rfl
  · rfl

theorem launches_heal (s : State) (sec owner : Nat) : (s.heal sec owner).launches = s.launches := by
  unfold State.heal
  split
  · rfl
  · dsimp only
    split
    · rfl
    · exact launches_record _ _
    · split
      · rfl
      · exact launches_record _ _

theorem launches_clearL1Errs (s : State) (core sec : Nat) : (s.clearL1Errs core sec).launches = s.launches := by
  unfold State.clearL1Errs
  split <;> rfl

/-! ### What a charge spares -/

/-- A launch that an error charged to its context would end ABORTED (R325). -/
def Launch.runs (l : Launch) : Bool := l.state == .running || l.state == .finishing

/-- `t` has each launch of `s` that does not run as it was; and every launch, and still no error, where `s` has none. -/
structure Spares (s t : State) : Prop where
  idle : ∀ n, (s.launch n).runs = false → t.launch n = s.launch n
  clean : Clean s → Clean t ∧ t.launches = s.launches

namespace Spares

theorem refl (s : State) : Spares s s := ⟨fun _ _ => rfl, fun h => ⟨h, rfl⟩⟩

theorem trans {s t u : State} (h : Spares s t) (g : Spares t u) : Spares s u :=
  ⟨fun n hn => (g.idle n (by rw [h.idle n hn]; exact hn)).trans (h.idle n hn), fun c =>
    ⟨(g.clean (h.clean c).1).1, (g.clean (h.clean c).1).2.trans (h.clean c).2⟩⟩

theorem foldl {α : Type} {f : State → α → State} (h : ∀ s x, Spares s (f s x)) (l : List α) (s : State) : Spares s (l.foldl f s) := by
  induction l generalizing s with
  | nil => exact refl s
  | cons x t ih => exact (h s x).trans (ih _)

/-- A step that changes no launch. -/
theorem of_launches {s t : State} (h : t.launches = s.launches) (clean : Clean s → Clean t) : Spares s t :=
  ⟨fun n _ => by rw [State.launch, State.launch, h], fun c => ⟨clean c, h⟩⟩

theorem of_mem {s t : State} (h : t.launches = s.launches) (m : t.mem = s.mem) : Spares s t := of_launches h fun c => c.of_mem m

theorem writeHome (s : State) (l : List (Nat × Byte)) : Spares s (s.writeHome l) :=
  of_launches rfl fun h => ⟨by show s.mem.symErrs.filter _ = []; rw [h.sym]; rfl, by show s.mem.poison.filter _ = []; rw [h.poison]; rfl, h.l1, h.l2⟩

/-- The remote data cache changes. -/
theorem setRdc (s : State) (r : List RdcSector) : Spares s { s with mem := { s.mem with rdc := r } } :=
  of_launches rfl fun h => ⟨h.sym, h.poison, h.l1, h.l2⟩

end Spares

theorem abortLaunch_ne {s : State} {l n : Nat} (h : n ≠ l) : (s.abortLaunch l).launch n = s.launch n := getD_modAt_ne _ _ _ h

/-- A charge ends the launches of its context that run, and no other (R325). -/
theorem charge_idle (s : State) (source sec owner loc : Nat) (n : Nat) (h : (s.launch n).runs = false) :
    (s.charge source sec owner loc).launch n = s.launch n := by
  have step (l : List Nat) (s : State) (h : (s.launch n).runs = false) : (l.foldl (fun (s : State) l =>
      let x := s.launch l
      if x.ctx = owner && (x.state == .running || x.state == .finishing) then s.abortLaunch l else s) s).launch n = s.launch n := by
    induction l generalizing s with
    | nil => rfl
    | cons l t ih =>
      have one : (if (s.launch l).ctx = owner && ((s.launch l).state == .running || (s.launch l).state == .finishing) then s.abortLaunch l
          else s).launch n = s.launch n := by
        split
        · rename_i runs
          refine abortLaunch_ne fun e => ?_
          subst e
          rw [Launch.runs] at h
          simp [h] at runs
        · rfl
      exact (ih _ (by rw [one]; exact h)).trans one
  have recorded (r : Rec) : (s.record r).launch n = s.launch n := by rw [State.launch, launches_record]; rfl
  exact (step _ _ (by rw [recorded]; exact h)).trans (recorded _)

theorem spares_rdcWriteBack (s : State) (sec : Nat) : Spares s (s.rdcWriteBack sec) := by
  unfold State.rdcWriteBack
  split
  · exact .refl s
  · dsimp only
    split
    · rename_i bad
      exact ⟨fun n h => charge_idle s _ _ _ _ n h, fun c => by simp [l2Bad_clean c] at bad⟩
    · exact (Spares.writeHome s _).trans (Spares.setRdc _ _)

theorem spares_rdcDrop (s : State) (sec : Nat) : Spares s (s.rdcDrop sec) := (spares_rdcWriteBack s sec).trans (Spares.setRdc _ _)

theorem spares_rdcFill (s : State) (h owner sec : Nat) : Spares s (s.rdcFill h owner sec) := by
  refine Spares.trans ?_ (Spares.setRdc _ _)
  unfold State.rdcRoom
  dsimp only
  split
  · exact .refl s
  · split
    · exact .refl s
    · exact Spares.foldl spares_rdcDrop _ s

theorem spares_rdcUse (s : State) (h owner sec : Nat) : Spares s (s.rdcUse h owner sec).2 := by
  unfold State.rdcUse
  dsimp only
  split
  · exact .refl s
  · exact spares_rdcFill s _ _ _

theorem spares_heal (s : State) (sec owner : Nat) : Spares s (s.heal sec owner) :=
  .of_launches (launches_heal s sec owner) fun c => by rw [heal_clean c]; exact c

theorem mem_post (s : State) (a : Asker) (sec : Nat) (write : Bool) : (s.post a sec write).mem = s.mem := by
  unfold State.post
  dsimp only
  split
  · exact (counted_count _ _ _ _ _).mem.trans rfl
  · rfl

theorem spares_nearWrite (s : State) (a : Asker) (sec : Nat) (l : List (Nat × Byte)) : Spares s (s.nearWrite a sec l) := by
  have posted : Spares s (s.post a sec true) := .of_mem (launches_post s a sec true) (mem_post s a sec true)
  have healed : Spares s (if byteMask (l.map fun e => e.1 % 64) = BitVec.allOnes 64 then s.post a sec true
      else (s.post a sec true).heal sec a.ctx) := by
    split
    · exact posted
    · exact posted.trans (spares_heal _ _ _)
  have through (u : State) (c : Bool) : Spares u (if c then u.writeHome l else u) := by
    cases c with
    | false => exact .refl u
    | true => exact Spares.writeHome u l
  unfold State.nearWrite
  dsimp only
  split
  · exact healed.trans (Spares.writeHome _ _)
  · exact ((healed.trans (spares_rdcUse _ _ _ _)).trans (through _ _)).trans (Spares.setRdc _ _)

theorem spares_clearL1Errs (s : State) (core sec : Nat) : Spares s (s.clearL1Errs core sec) :=
  .of_launches (launches_clearL1Errs s core sec) fun c => by rw [clearL1Errs_clean c]; exact c

theorem spares_writeBackSector (s : State) (a : Asker) (x : L1Sector) : Spares s (s.writeBackSector a x) := by
  have cleared := spares_clearL1Errs s a.core x.sec
  refine ⟨fun n h => ?idle, fun c => ?clean⟩ <;> unfold State.writeBackSector
  case idle =>
    have same : (s.clearL1Errs a.core x.sec).launch n = s.launch n := cleared.idle n h
    dsimp only
    split
    · rfl
    · split
      · exact (charge_idle _ _ _ _ _ n (by rw [same]; exact h)).trans same
      · have corrected (l : List (Nat × List Nat)) : (l.foldl (fun s e => s.l1Corrected a.core x e) (s.clearL1Errs a.core x.sec)).launch n = s.launch n := by
          rw [State.launch, launches_foldl (f := fun s e => s.l1Corrected a.core x e) (fun s e => launches_record s _)]; exact same
        exact ((spares_nearWrite _ _ _ _).idle n (by rw [corrected]; exact h)).trans (corrected _)
  case clean =>
    simp only [l1Bits_clean c, clearL1Errs_clean c, List.any_nil, Bool.false_eq_true, if_false, List.foldl_nil]
    split
    · exact ⟨c, rfl⟩
    · exact (spares_nearWrite s a _ _).clean c

theorem spares_cleanSector (s : State) (a : Asker) (sec : Nat) : Spares s (s.cleanSector a sec) := by
  unfold State.cleanSector
  split
  · exact .refl s
  · dsimp only
    split
    · exact spares_writeBackSector s a _
    · exact (spares_writeBackSector s a _).trans (.of_mem rfl rfl)

/-- The regions of edges are written back. -/
theorem spares_cleanRegion (s : State) (c : Nat) (r : Nat × Nat) : Spares s (s.cleanRegion c r) :=
  Spares.foldl (fun s sec => (Spares.foldl (fun s _ => spares_cleanSector s _ sec) _ s).trans (spares_rdcWriteBack _ sec)) _ s

theorem side_cleanRegion (s : State) (c : Nat) (r : Nat × Nat) : MemorySide s (s.cleanRegion c r) :=
  side_foldl (fun s sec => (side_foldl (fun s _ => side_cleanSector s _ sec) _ s).trans (side_rdcWriteBack _ sec)) _ s

end Sys2Proof.Machine
end

section
/-! PROOF. LAUNCH and the end of a launch (O38): the frames that its edges take, and the launch that it adds. -/

namespace Sys2Proof.Machine

open Sys2Proof.Safety Sys2Proof.Rules

/-! ### The end of a launch (R276, R278) -/

/-- What a completion's message leaves, whether or not the function has the vector (R412). -/
theorem queueMessage_keeps {β : Type} (f : State → β) {s : State} {fn vec : Nat} (h : f (s.message fn vec) = f s) : f (s.queueMessage fn vec) = f s := by
  rw [State.queueMessage, apply_ite f, h, ite_self]

theorem launches_complete (s : State) (fn queue : Nat) (tag : BitVec 32) (status opc seq detail : Nat) :
    (s.complete fn queue tag status opc seq detail).launches = s.launches := by
  unfold State.complete
  dsimp only
  split
  · rw [queueMessage_keeps State.launches (State.message_launches ..)]
    simp
  · simp

theorem waves_complete (s : State) (fn queue : Nat) (tag : BitVec 32) (status opc seq detail : Nat) :
    (s.complete fn queue tag status opc seq detail).waves = s.waves := by
  unfold State.complete
  dsimp only
  split
  · rw [queueMessage_keeps State.waves (State.message_waves ..)]
    simp
  · simp

theorem launches_pushes (s : State) (l : Nat) : (s.applyPushes l).launches = modAt (fun x => { x with pushes := [] }) s.launches l := by
  unfold State.applyPushes
  exact congrArg (fun x => modAt (fun (x : Launch) => { x with pushes := [] }) x l) (launches_foldl (fun _ _ => by rfl) _ _)

theorem waves_applyPushes (s : State) (l : Nat) : (s.applyPushes l).waves = s.waves := by
  unfold State.applyPushes
  exact waves_foldl (fun _ _ => by rfl) _ _

/-- A launch as its end leaves it. -/
def Launch.ended (state : LState) (status : Nat) (x : Launch) : Launch :=
  { x with state := state, status := status, tearing := false, completed := true, formed := [], gangs := [], writers := [], veils := []
           spVeils := [] }

theorem launches_endLaunch (s : State) (l : Nat) (state : LState) (status : Nat) :
    (s.endLaunch l state status).launches = modAt (Launch.ended state status) (modAt (fun x => { x with pushes := [] }) s.launches l) l := by
  unfold State.endLaunch
  dsimp only
  rw [launches_complete]
  refine (launches_traceEntry _ _ _ _ _ _).trans ?_
  exact congrArg (fun x => modAt (Launch.ended state status) x l) (launches_pushes s l)

theorem waves_endLaunch (s : State) (l : Nat) (state : LState) (status : Nat) : (s.endLaunch l state status).waves = s.waves := by
  unfold State.endLaunch
  dsimp only
  rw [waves_complete]
  exact (side_traceEntry _ _ _ _ _ _).waves.trans (waves_applyPushes s l)

theorem length_endLaunch (s : State) (l : Nat) (state : LState) (status : Nat) :
    (s.endLaunch l state status).launches.length = s.launches.length := by simp [launches_endLaunch]

theorem launch_endLaunch {s : State} {l : Nat} (state : LState) (status : Nat) (h : l < s.launches.length) :
    (s.endLaunch l state status).launch l = ({ s.launch l with pushes := [] } : Launch).ended state status := by
  rw [State.launch, launches_endLaunch, getD_modAt_self _ _ _ (by simpa using h), getD_modAt_self _ _ _ h]
  rfl

/-! ### Frames for the edges (R279, R312) -/

/-- `t` is `s` but for homes, caches, tables and the frames that contexts have. -/
structure Mapped (s t : State) : Prop where
  rest : ({ t with cores := s.cores, fab := s.fab, mem := s.mem, cp := s.cp, ctxs := s.ctxs } : State) = s
  last : t.ctxs.map Context.lastSeq = s.ctxs.map Context.lastSeq

namespace Mapped

theorem refl (s : State) : Mapped s s := ⟨rfl, rfl⟩

theorem trans {s t u : State} (h : Mapped s t) (g : Mapped t u) : Mapped s u :=
  ⟨(congrArg (fun x : State => ({ x with cores := s.cores, fab := s.fab, mem := s.mem, cp := s.cp, ctxs := s.ctxs } : State)) g.rest).trans h.rest,
   g.last.trans h.last⟩

theorem foldl {α : Type} {f : State → α → State} (h : ∀ s x, Mapped s (f s x)) (l : List α) (s : State) : Mapped s (l.foldl f s) := by
  induction l generalizing s with
  | nil => exact refl s
  | cons x t ih => exact (h s x).trans (ih _)

theorem launches {s t : State} (h : Mapped s t) : t.launches = s.launches := by have := congrArg State.launches h.rest; exact this
theorem waves {s t : State} (h : Mapped s t) : t.waves = s.waves := by have := congrArg State.waves h.rest; exact this
theorem order {s t : State} (h : Mapped s t) : t.order = s.order := by have := congrArg State.order h.rest; exact this
theorem cc {s t : State} (h : Mapped s t) : t.cc = s.cc := by have := congrArg State.cc h.rest; exact this

theorem length {s t : State} (h : Mapped s t) : t.ctxs.length = s.ctxs.length := by simpa using congrArg List.length h.last

theorem lastSeq {s t : State} (h : Mapped s t) (c : Nat) : (t.ctx c).lastSeq = (s.ctx c).lastSeq := by
  have := congrArg (fun l : List (Option Nat) => l.getD c (default : Context).lastSeq) h.last
  simp only [getD_map'] at this
  exact this

theorem scrub (s : State) (frame : Nat) : Mapped s (s.scrub frame) := ⟨rfl, rfl⟩

theorem writeEntry (s : State) (pa e : Nat) : Mapped s (s.writeEntry pa e) := ⟨rfl, rfl⟩

theorem takeFrame (s : State) (c frame : Nat) : Mapped s (s.takeFrame c frame) := ⟨rfl, map_modAt _ _ _ _ fun _ => rfl⟩

theorem newTable (s : State) (c : Nat) : Mapped s (s.newTable c).2 := ⟨rfl, rfl⟩

theorem mapPage (c ipa frame fuel level table : Nat) (s : State) : Mapped s (Machine.mapPage c ipa frame fuel level table s) := by
  induction fuel generalizing level table s with
  | zero => exact refl s
  | succ fuel ih =>
    unfold Machine.mapPage
    dsimp only
    split
    · split
      · exact refl s
      · exact writeEntry s _ _
    · split
      · split
        · exact ih _ _ s
        · exact refl s
      · exact ((newTable s c).trans (writeEntry _ _ _)).trans (ih _ _ _)

theorem mapFrame (s : State) (c ipa frame : Nat) : Mapped s (s.mapFrame c ipa frame) :=
  ((scrub s frame).trans (takeFrame _ _ _)).trans (mapPage _ _ _ _ _ _ _)

theorem mapVa (c va fuel : Nat) (s : State) : Mapped s (Machine.mapVa c va fuel s) := by
  induction fuel generalizing s with
  | zero => exact refl s
  | succ fuel ih =>
    unfold Machine.mapVa
    split
    · exact (mapFrame s _ _ _).trans (ih _)
    · exact refl s

theorem mapRegion (s : State) (c : Nat) (r : Nat × Nat) : Mapped s (s.mapRegion c r) := foldl (fun s va => mapVa c va 4 s) _ s

theorem cpPost (s : State) (c va n : Nat) : Mapped s (s.cpPost c va n) := by
  refine foldl (fun s sec => ?_) _ s
  unfold State.postEdge
  dsimp only
  split
  · exact refl s
  · exact ⟨rfl, rfl⟩

end Mapped

/-! ### LAUNCH (R274-R279) -/

/-- The launches as LAUNCH leaves them before it ends or goes on: the new one stands last. -/
def State.withLaunch (s : State) (l : Launch) : State :=
  { s with launches := s.launches ++ [{ l with order := s.order, since := s.cc }], order := s.order + 1 }

theorem length_withLaunch (s : State) (l : Launch) : (s.withLaunch l).launches.length = s.launches.length + 1 := by simp [State.withLaunch]

theorem launch_withLaunch (s : State) (l : Launch) : (s.withLaunch l).launch s.launches.length = { l with order := s.order, since := s.cc } := by
  simp [State.withLaunch, State.launch]

theorem launch_withLaunch_lt {s : State} {m : Nat} (l : Launch) (h : m < s.launches.length) : (s.withLaunch l).launch m = s.launch m := by
  simp [State.withLaunch, State.launch, List.getElem?_append_left h]

/-- What a rejected launch is in the end (R276). -/
theorem rejects {s : State} {n : Nat} (l : Launch) (status : Nat) (h : s.launches.length = n) :
    ((s.withLaunch l).endLaunch ((s.withLaunch l).launches.length - 1) .rejected status).launches.length = n + 1
      ∧ (((s.withLaunch l).endLaunch ((s.withLaunch l).launches.length - 1) .rejected status).launch n).state = .rejected
      ∧ (((s.withLaunch l).endLaunch ((s.withLaunch l).launches.length - 1) .rejected status).launch n).status = status
      ∧ (((s.withLaunch l).endLaunch ((s.withLaunch l).launches.length - 1) .rejected status).launch n).completed = true := by
  subst h
  have last : (s.withLaunch l).launches.length - 1 = s.launches.length := by rw [length_withLaunch]; rfl
  have ended := launch_endLaunch (s := s.withLaunch l) (l := s.launches.length) .rejected status (by rw [length_withLaunch]; omega)
  rw [last, length_endLaunch, length_withLaunch, ended]
  exact ⟨rfl, rfl, rfl, rfl⟩

/-- The state in which the regions of a launch's edges are mapped. -/
def State.edgesReady (s : State) (ctx va : Nat) (named : Option (List Edge)) : State :=
  ((named.getD []).flatMap Edge.regions).foldl (fun s r => s.mapRegion ctx r) (s.cpPost ctx va 256)

theorem mapped_edgesReady (s : State) (ctx va : Nat) (named : Option (List Edge)) : Mapped s (s.edgesReady ctx va named) :=
  (Mapped.cpPost s ctx va 256).trans (Mapped.foldl (fun s r => Mapped.mapRegion s ctx r) _ _)

/-- The regions of the producers that are complete already (R279). -/
def State.doneRegions (s : State) (es : List Edge) : List (Nat × Nat) :=
  es.flatMap fun e =>
    match e.known with
    | some p => if (s.launch p).state == .complete || (s.launch p).state == .orphans then e.regions else []
    | none => []

/-- The state in which a launch that was read stands last, before it is rejected or goes on. -/
def State.enqueued (v : State) (ctx : Nat) (l : Launch) (edges : Option (List Edge)) (seeds : Option (List (List Byte))) : State :=
  (v.modCtx ctx fun x => { x with lastSeq := some (max (x.lastSeq.getD 0) l.seq) }).withLaunch
    { l with edges := edges.getD [], seeds := seeds.getD [], state := .waiting }

/-- The launch that a descriptor describes, at the integrity level in force (R275, R277). -/
def State.described (s : State) (c : Cmd) (b : List Byte) : Launch :=
  { launchOf c (s.cmdCtx c) b with ilevel := s.effectiveLevel (launchOf c (s.cmdCtx c) b) }

/-- The edges that a descriptor names. -/
def State.namedEdges (s : State) (c : Cmd) (b : List Byte) : Option (List Edge) :=
  s.readEdges (s.cmdCtx c) (fieldAt b 40 8) (min 64 (fieldAt b 48 2))

/-- What LAUNCH answers of a launch whose regions are mapped in `v`: it ends REJECTED, or the regions of its producers are written back. -/
def State.decided (v : State) (ctx : Nat) (l : Launch) (edges : Option (List Edge)) (seeds : Option (List (List Byte))) : Option Nat → State
  | some x => (v.enqueued ctx l edges seeds).endLaunch ((v.enqueued ctx l edges seeds).launches.length - 1) .rejected x
  | none => ((v.enqueued ctx l edges seeds).doneRegions (edges.getD [])).foldl (fun s r => s.cleanRegion ctx r) (v.enqueued ctx l edges seeds)

/-- LAUNCH of a descriptor that was read. -/
def State.launched (s : State) (c : Cmd) (b : List Byte) : State :=
  let l := s.described c b
  let v := s.edgesReady (s.cmdCtx c) c.addr.toNat (s.namedEdges c b)
  let edges := (s.namedEdges c b).filter (v.edgesMapped (s.cmdCtx c))
  v.decided (s.cmdCtx c) l edges (v.readSeeds l b) ((v.launchStatus l b edges).or (if (v.readSeeds l b).isNone then some 0x10 else none))

/-- LAUNCH of a descriptor that cannot be read. -/
def State.unread (s : State) (c : Cmd) : State :=
  let s := s.withLaunch { (default : Launch) with ctx := s.cmdCtx c, fn := c.fn, queue := c.queue, tag := c.tag }
  s.endLaunch (s.launches.length - 1) .rejected 0x10

theorem exec_launch (s : State) (c : Cmd) : exec (.launch c) s = .next (
    match (if c.addr.toNat % 64 = 0 then s.cpRead (s.cmdCtx c) c.addr.toNat 256 else none) with
    | none => s.unread c
    | some b => s.launched c b) := by
  refine congrArg Host.Outcome.next ?_
  split
  · rfl
  · rfl

theorem launch_unread {s : State} {c : Cmd} (h : c.addr.toNat % 64 ≠ 0 ∨ s.cpRead (s.cmdCtx c) c.addr.toNat 256 = none) :
    ∃ t, exec (.launch c) s = .next t ∧ t.launches.length = s.launches.length + 1
      ∧ (t.launch s.launches.length).state = .rejected ∧ (t.launch s.launches.length).status = 0x10
      ∧ (t.launch s.launches.length).completed = true := by
  have none : (if c.addr.toNat % 64 = 0 then s.cpRead (s.cmdCtx c) c.addr.toNat 256 else none) = none := by
    split
    · rename_i aligned
      exact h.resolve_left (not_not.2 aligned)
    · rfl
  exact ⟨s.unread c, by rw [exec_launch, none], rejects _ 0x10 rfl⟩

theorem exec_launch_read {s : State} {c : Cmd} {b : List Byte} (aligned : c.addr.toNat % 64 = 0)
    (read : s.cpRead (s.cmdCtx c) c.addr.toNat 256 = some b) : exec (.launch c) s = .next (s.launched c b) := by
  rw [exec_launch, if_pos aligned, read]

/-! ### A launch that is added -/

section
variable {s v : State} (m : Mapped s v) (ctx : Nat) (l : Launch) (edges : Option (List Edge)) (seeds : Option (List (List Byte)))
include m

theorem launch_rejected (x : Nat) : (v.decided ctx l edges seeds (some x)).launches.length = s.launches.length + 1
    ∧ ((v.decided ctx l edges seeds (some x)).launch s.launches.length).state = .rejected
    ∧ ((v.decided ctx l edges seeds (some x)).launch s.launches.length).status = x
    ∧ ((v.decided ctx l edges seeds (some x)).launch s.launches.length).completed = true :=
  rejects (s := v.modCtx ctx fun x => { x with lastSeq := some (max (x.lastSeq.getD 0) l.seq) }) _ x (congrArg List.length m.launches)

theorem length_enqueued : (v.enqueued ctx l edges seeds).launches.length = s.launches.length + 1 :=
  (length_withLaunch _ _).trans (congrArg (fun x => x.length + 1) m.launches)

theorem launch_enqueued : (v.enqueued ctx l edges seeds).launch s.launches.length =
    { l with edges := edges.getD [], seeds := seeds.getD [], state := .waiting, order := s.order, since := s.cc } := by
  rw [← m.launches, ← m.order, ← m.cc]
  exact launch_withLaunch (v.modCtx ctx _) _

theorem launch_enqueued_lt {n : Nat} (h : n < s.launches.length) : (v.enqueued ctx l edges seeds).launch n = s.launch n := by
  rw [← m.launches] at h
  exact (launch_withLaunch_lt (s := v.modCtx ctx _) _ h).trans (by rw [State.launch, State.launch, ← m.launches]; rfl)

theorem launch_waits : (v.decided ctx l edges seeds none).launch s.launches.length =
    { l with edges := edges.getD [], seeds := seeds.getD [], state := .waiting, order := s.order, since := s.cc } := by
  have spared : Spares (v.enqueued ctx l edges seeds) (v.decided ctx l edges seeds none) := Spares.foldl (fun s r => spares_cleanRegion s ctx r) _ _
  rw [spared.idle _ (by rw [launch_enqueued m]; rfl), launch_enqueued m]

theorem launch_others : (v.decided ctx l edges seeds none).launches.length = s.launches.length + 1
    ∧ (v.decided ctx l edges seeds none).order = s.order + 1
    ∧ (ctx < s.ctxs.length → ((v.decided ctx l edges seeds none).ctx ctx).lastSeq = some (max ((s.ctx ctx).lastSeq.getD 0) l.seq))
    ∧ (v.decided ctx l edges seeds none).waves = s.waves
    ∧ ∀ n, n < s.launches.length → ((v.decided ctx l edges seeds none).launch n).state = (s.launch n).state := by
  have side : MemorySide (v.enqueued ctx l edges seeds) (v.decided ctx l edges seeds none) := side_foldl (fun s r => side_cleanRegion s ctx r) _ _
  have states (n : Nat) : ((v.decided ctx l edges seeds none).launch n).state = ((v.enqueued ctx l edges seeds).launch n).state := by
    have := congrArg (fun x : List Launch => (x.getD n (quietLaunch default)).state) side.launches
    simp only [getD_map'] at this
    exact this
  have seqs : ((v.decided ctx l edges seeds none).ctx ctx).lastSeq = ((v.enqueued ctx l edges seeds).ctx ctx).lastSeq := by
    have := congrArg (fun x : List Context => (x.getD ctx (quietCtx default)).lastSeq) side.ctxs
    simp only [getD_map'] at this
    exact this
  refine ⟨?_, ?_, fun lt => ?_, side.waves.trans m.waves, fun n hn => ?_⟩
  · rw [← length_enqueued m ctx l edges seeds]
    simpa using congrArg List.length side.launches
  · have := congrArg State.order side.rest
    exact (show (v.decided ctx l edges seeds none).order = v.order + 1 from this).trans (congrArg (· + 1) m.order)
  · rw [seqs, ← m.lastSeq]
    exact congrArg Context.lastSeq (ctx_modCtx_self v ctx _ (by rw [m.length]; exact lt))
  · rw [states, launch_enqueued_lt m ctx l edges seeds hn]

end

end Sys2Proof.Machine
end

section
/-! PROOF. Edges that are hashed, operating points and the end of a FINISHING launch (O38). -/

namespace Sys2Proof.Machine

open Sys2Proof.Safety Sys2Proof.Rules

/-! ### EDGE_HASH (R398) -/

theorem modAt_of_get {α : Type} (f : α → α) {l : List α} {n : Nat} {x : α} (h : l[n]? = some x) : modAt f l n = l.set n (f x) := by
  obtain ⟨lt, get⟩ := List.getElem?_eq_some_iff.1 h
  rw [modAt_eq_set f l x lt, List.getD_eq_getElem _ _ lt, get]

/-- Two changes of a launch that agree on it have one result. -/
theorem modLaunch_congr {s : State} {l : Nat} {f g : Launch → Launch} (h : f (s.launch l) = g (s.launch l)) : s.modLaunch l f = s.modLaunch l g := by
  have : modAt f s.launches l = modAt g s.launches l := by
    by_cases lt : l < s.launches.length
    · rw [modAt_eq_set f _ default lt, modAt_eq_set g _ default lt]
      exact congrArg (s.launches.set l) h
    · rw [modAt_oob f _ (Nat.not_lt.1 lt), modAt_oob g _ (Nat.not_lt.1 lt)]
  exact congrArg (fun x => ({ s with launches := x } : State)) this

theorem partial_iff (pas : List (Option Nat)) : (pas.any Option.isNone).toNat = if none ∈ pas then 1 else 0 := by
  have : pas.any Option.isNone = decide (none ∈ pas) := by
    induction pas with
    | nil => rfl
    | cons p t ih => cases p <;> simp [ih]
  rw [this]
  split <;> simp [*]

theorem hashes_edge {s : State} {l edge region va len : Nat} {e : Edge} (waits : (s.launch l).state = .waiting)
    (he : (s.launch l).edges[edge]? = some e) (host : e.producer = none) (next : e.hashed = region) (hr : e.regions[region]? = some (va, len)) :
    exec (.edgeHash l edge region) s = .next ((s.traceEntry 3 2 (s.launch l).ctx
      (bytesOf 8 (s.launch l).seq ++ bytesOf 1 0 ++ bytesOf 1 edge ++ bytesOf 2 region
        ++ bytesOf 1 (if none ∈ (List.range len).map fun i => s.vaPa (s.launch l).ctx (va + i) then 1 else 0) ++ zeros 3
        ++ bytesOf 8 va ++ bytesOf 8 len ++ zeros 16
        ++ Sha.sha512 (((List.range len).map fun i => s.vaPa (s.launch l).ctx (va + i)).filterMap fun p => p.map (Memory.read s.mem.home)))).modLaunch
          l fun x => { x with edges := x.edges.set edge { e with hashed := region + 1 } }) := by
  have due : ¬(decide ((s.launch l).state ≠ .waiting) || e.producer.isSome || decide (e.hashed ≠ region)) = true := by simp [waits, host, next]
  refine congrArg Host.Outcome.next ?_
  dsimp only
  rw [he]
  dsimp only
  rw [hr]
  dsimp only
  rw [if_neg due, partial_iff]
  refine modLaunch_congr ?_
  rw [State.launch, launches_traceEntry]
  exact congrArg (fun x => ({ s.launch l with edges := x } : Launch)) ((modAt_of_get _ he).trans (by rw [next]; rfl))

/-! ### Operating points (R280) -/

/-- The hints that count for a domain. -/
def State.hintsFor (s : State) (d : Nat) : List Nat :=
  (List.range s.launches.length).filterMap fun l => if s.countsFor l d && (s.launch l).oppt != 7 then some (s.launch l).oppt else none

theorem mem_hintsFor {s : State} {d n : Nat} :
    n ∈ s.hintsFor d ↔ ∃ l, (l < s.launches.length ∧ s.countsFor l d = true ∧ (s.launch l).oppt ≠ 7) ∧ n = (s.launch l).oppt := by
  simp only [State.hintsFor, List.mem_filterMap, List.mem_range]
  constructor
  · rintro ⟨l, lt, h⟩
    split at h
    · rename_i counts
      simp only [Bool.and_eq_true, bne_iff_ne, ne_eq] at counts
      exact ⟨l, ⟨lt, counts.1, counts.2⟩, (Option.some.inj h).symm⟩
    · cases h
  · rintro ⟨l, ⟨lt, counts, hint⟩, rfl⟩
    exact ⟨l, lt, by simp [counts, hint]⟩

theorem requestedPoint_eq (s : State) (d : Nat) : s.requestedPoint d = (s.hintsFor d).max? := by
  unfold State.requestedPoint
  change (match s.hintsFor d with | [] => none | h :: t => some (t.foldl max h)) = _
  cases s.hintsFor d with
  | nil => rfl
  | cons h t => rfl

/-- A domain goes to the largest hint that counts for it, or stays, under CAP (R280). -/
theorem targetPoint_spec (s : State) (d : Nat) :
    let counts (l : Nat) : Prop := l < s.launches.length ∧ s.countsFor l d = true ∧ (s.launch l).oppt ≠ 7
    s.targetPoint d ≤ s.jalti.cap ∧ (∀ l, counts l → min (s.launch l).oppt s.jalti.cap ≤ s.targetPoint d)
      ∧ ((∃ l, counts l) → ∃ l, counts l ∧ s.targetPoint d = min (s.launch l).oppt s.jalti.cap)
      ∧ ((∀ l, ¬counts l) → s.targetPoint d = min (s.jalti.points.getD d 0) s.jalti.cap) := by
  intro counts
  rw [State.targetPoint, requestedPoint_eq]
  refine ⟨Nat.min_le_right _ _, ?_⟩
  cases h : (s.hintsFor d).max? with
  | none =>
    have none (l : Nat) : ¬counts l := fun c => by
      have := mem_hintsFor.2 ⟨l, c, rfl⟩
      rw [List.max?_eq_none_iff.1 h] at this
      cases this
    exact ⟨fun l c => absurd c (none l), fun ⟨l, c⟩ => absurd c (none l), fun _ => rfl⟩
  | some p =>
    obtain ⟨mem, largest⟩ := List.max?_eq_some_iff.1 h
    obtain ⟨l, c, rfl⟩ := mem_hintsFor.1 mem
    exact ⟨fun m cm => min_le_min_right _ (largest _ (mem_hintsFor.2 ⟨m, cm, rfl⟩)), fun _ => ⟨l, c, rfl⟩, fun no => absurd c (no l)⟩

theorem reaches_point {s : State} {d : Nat} (h : d < s.jalti.points.length) : exec (.operatingPointChange d) s =
    .next { s with jalti := { s.jalti with points := s.jalti.points.set d (s.targetPoint d) } } :=
  congrArg Host.Outcome.next (if_neg (Nat.not_le.2 h))

/-! ### LAUNCH_COMPLETION (R268, R278) -/

/-- Whether a launch has copies, atomics or buffered accesses outstanding (R278). -/
def State.outstanding (s : State) (l : Nat) : Bool :=
  s.launchCopies l || s.atomics.any (fun r => (s.wave r.wave).launch == l)
    || s.jalti.pairs.any (fun p => p.buffer.any fun e => (s.wave e.wave).launch == l)

theorem outstanding_iff (s : State) (l : Nat) : s.outstanding l = true ↔
    (∃ q ∈ s.copies, ∃ c ∈ q.entries, c.launch = l) ∨ (∃ r ∈ s.atomics, (s.wave r.wave).launch = l)
      ∨ (∃ p ∈ s.jalti.pairs, ∃ e ∈ p.buffer, (s.wave e.wave).launch = l) := by
  simp [State.outstanding, State.launchCopies, or_assoc]

/-- The regions of the edges that wait for a launch (R268). -/
def State.waitingRegions (s : State) (l : Nat) : List (Nat × Nat) :=
  s.launches.flatMap fun y =>
    if y.ctx = (s.launch l).ctx && y.state == .waiting then y.edges.flatMap fun e => if e.known = some l then e.regions else [] else []

/-- The state in which a FINISHING launch has written back what its successors wait for. -/
def State.writtenBack (s : State) (l : Nat) : State := (s.waitingRegions l).foldl (fun u r => u.cleanRegion (s.launch l).ctx r) s

theorem exec_launchCompletion (s : State) (l : Nat) : exec (.launchCompletion l) s = .next (
    if decide ((s.launch l).state ≠ .finishing) || (s.launch l).tearing || s.outstanding l then s
    else if ((s.writtenBack l).launch l).tearing then s.writtenBack l
    else if (s.launch l).orphanCount = 0 then (s.writtenBack l).endLaunch l .complete 0 else (s.writtenBack l).endLaunch l .orphans 1) := by
  have order : (decide ((s.launch l).state ≠ .finishing) || (s.launch l).tearing || s.outstanding l)
      = (decide ((s.launch l).state ≠ .finishing) || (s.launch l).tearing || s.launchCopies l || s.atomics.any (fun r => (s.wave r.wave).launch == l)
        || s.jalti.pairs.any (fun p => p.buffer.any fun e => (s.wave e.wave).launch == l)) := by
    simp only [State.outstanding, Bool.or_assoc]
  rw [order]
  rfl

theorem side_writtenBack (s : State) (l : Nat) : MemorySide s (s.writtenBack l) := side_foldl (fun s r => side_cleanRegion s _ r) _ s

theorem spares_writtenBack (s : State) (l : Nat) : Spares s (s.writtenBack l) := Spares.foldl (fun s r => spares_cleanRegion s _ r) _ s

/-- A launch but for its writers, and whether it is to end ABORTED, is what memory traffic leaves. -/
theorem quiet_of_side {s t : State} (h : MemorySide s t) (l : Nat) : quietLaunch (t.launch l) = quietLaunch (s.launch l) := by
  have := congrArg (fun x : List Launch => x.getD l (quietLaunch default)) h.launches
  simp only [getD_map'] at this
  exact this

theorem completes {s : State} {l : Nat} (lt : l < s.launches.length) (finishing : (s.launch l).state = .finishing)
    (whole : (s.launch l).tearing = false) (idle : s.outstanding l = false) : ∃ t, exec (.launchCompletion l) s = .next t
      ∧ (Clean s → (t.launch l).completed = true)
      ∧ ((t.launch l).completed = (s.launch l).completed ∧ (t.launch l).state = .finishing ∧ (t.launch l).tearing = true
        ∨ (t.launch l).completed = true ∧ (t.launch l).state = (if (s.launch l).orphanCount = 0 then .complete else .orphans)
          ∧ (t.launch l).status = (if (s.launch l).orphanCount = 0 then 0 else 1)) := by
  have quiet := quiet_of_side (side_writtenBack s l) l
  have room : l < (s.writtenBack l).launches.length := by
    have := congrArg List.length (side_writtenBack s l).launches
    simp only [List.length_map] at this
    omega
  rw [exec_launchCompletion, finishing, whole, idle, if_neg (by simp)]
  by_cases torn : ((s.writtenBack l).launch l).tearing = true
  · rw [if_pos torn]
    refine ⟨_, rfl, fun clean => ?_, .inl ⟨?_, ?_, torn⟩⟩
    · have same : (s.writtenBack l).launch l = s.launch l := by rw [State.launch, ((spares_writtenBack s l).clean clean).2]; rfl
      rw [same, whole] at torn
      cases torn
    · have := congrArg Launch.completed quiet; exact this
    · have := congrArg Launch.state quiet; exact (show _ = (s.launch l).state from this).trans finishing
  · rw [if_neg torn]
    split
    · refine ⟨_, rfl, fun _ => ?_, .inr ?_⟩ <;> rw [launch_endLaunch _ _ room]
      · rfl
      · exact ⟨rfl, rfl, rfl⟩
    · refine ⟨_, rfl, fun _ => ?_, .inr ?_⟩ <;> rw [launch_endLaunch _ _ room]
      · rfl
      · exact ⟨rfl, rfl, rfl⟩

theorem completion_waits {s : State} {l : Nat} (h : (s.launch l).state ≠ .finishing ∨ s.outstanding l = true) :
    exec (.launchCompletion l) s = .next s := by
  rw [exec_launchCompletion, if_pos]
  rcases h with state | busy
  · simp [state]
  · simp [busy]

end Sys2Proof.Machine
end

section
/-! PROOF. LAUNCH_TEARDOWN (O38): the waves that are killed, and the copies that are left. -/

namespace Sys2Proof.Machine

open Sys2Proof.Safety Sys2Proof.Rules

/-! ### What a killed wave takes with it -/

/-- Of a launch, how it stands; of a copy, whose it is and how far it has come. -/
def Launch.standing (x : Launch) : LState × Bool × Bool := (x.state, x.completed, x.tearing)
def Copy.standing (c : Copy) : Nat × Bool × CopyStage := (c.launch, c.heldBack, c.stage)

/-- A queue holds a copy that stands so. -/
def CopyQueue.holds (x : CopyQueue) (k : Nat × Bool × CopyStage) : Prop := ∃ c ∈ x.entries, c.standing = k

/-- `f` leaves the copies of a queue as they stand, but for stopped ones that it drops. -/
def DropsStopped (f : CopyQueue → CopyQueue) : Prop := ∀ x k, ((f x).holds k → x.holds k) ∧ (k.2.2 ≠ .stopped → x.holds k → (f x).holds k)

/-- `t` has the launches and copies of `s` as they stand, but for stopped copies that are gone. -/
structure Sheds (s t : State) : Prop where
  launches : t.launches.map Launch.standing = s.launches.map Launch.standing
  fewer : ∀ k, (∃ x ∈ t.copies, x.holds k) → ∃ x ∈ s.copies, x.holds k
  kept : ∀ k, k.2.2 ≠ .stopped → (∃ x ∈ s.copies, x.holds k) → ∃ x ∈ t.copies, x.holds k

theorem mem_modAt {α : Type} (f : α → α) {l : List α} {n : Nat} {x : α} :
    (x ∈ modAt f l n → x ∈ l ∨ ∃ y ∈ l, x = f y) ∧ (x ∈ l → x ∈ modAt f l n ∨ f x ∈ modAt f l n) := by
  induction l generalizing n with
  | nil => simp [modAt]
  | cons y t ih =>
    cases n with
    | zero =>
      simp only [modAt, List.mem_cons]
      refine ⟨fun h => ?_, fun h => ?_⟩
      · rcases h with rfl | h
        · exact .inr ⟨y, .inl rfl, rfl⟩
        · exact .inl (.inr h)
      · rcases h with rfl | h
        · exact .inr (.inl rfl)
        · exact .inl (.inr h)
    | succ n =>
      simp only [modAt, List.mem_cons]
      refine ⟨fun h => ?_, fun h => ?_⟩
      · rcases h with rfl | h
        · exact .inl (.inl rfl)
        · exact ((ih (n := n)).1 h).imp .inr fun ⟨z, hz, e⟩ => ⟨z, .inr hz, e⟩
      · rcases h with rfl | h
        · exact .inl (.inl rfl)
        · exact ((ih (n := n)).2 h).imp .inr .inr

/-! ### Barriers that break (R197) -/

/-- The waves that wait on a barrier of a context. -/
def Wave.waitsAt (c e : Nat) (x : Wave) : Bool :=
  x.ctx == c && x.state == .blocked && match x.wait with
    | .barrier e' _ => e' == e
    | _ => false

/-- A barrier breaks, and its waiters trap (R197). -/
def State.breakBarrier (s : State) (c e : Nat) : State :=
  let s := s.modCtx c fun x => x.modBarrier e fun b => { b with broken := true }
  (s.wavesWith (Wave.waitsAt c e)).foldl (fun s j => s.postTrap j { cause := 0x31, mask := (s.wave j).exec, addr := 0 }) s

theorem breakBarriers_eq (s : State) (k : Nat) : s.breakBarriers k =
    (s.barriersOf (s.wave k) (s.wave k).sgid).foldl (fun u e => u.breakBarrier (s.wave k).ctx e) s := rfl

namespace Sheds

theorem of_eq {s t : State} (h : t.launches = s.launches) (g : t.copies = s.copies) : Sheds s t :=
  ⟨by rw [h], fun k => by rw [g]; exact id, fun k _ => by rw [g]; exact id⟩

theorem refl (s : State) : Sheds s s := of_eq rfl rfl

theorem trans {s t u : State} (h : Sheds s t) (g : Sheds t u) : Sheds s u :=
  ⟨g.launches.trans h.launches, fun k hk => h.fewer k (g.fewer k hk), fun k ns hk => g.kept k ns (h.kept k ns hk)⟩

theorem foldl {α : Type} {f : State → α → State} (h : ∀ s x, Sheds s (f s x)) (l : List α) (s : State) : Sheds s (l.foldl f s) := by
  induction l generalizing s with
  | nil => exact refl s
  | cons x t ih => exact (h s x).trans (ih _)

theorem of_counted {s t : State} (h : Counted s t) : Sheds s t := of_eq (launches_of_counted h) h.copies

theorem record (s : State) (r : Rec) : Sheds s (s.record r) := of_eq (launches_record s r) (copies_of_side (side_record s r))

theorem modLaunch (s : State) (l : Nat) {f : Launch → Launch} (h : ∀ x, (f x).standing = x.standing) : Sheds s (s.modLaunch l f) :=
  ⟨map_modAt _ _ _ _ h, fun _ => id, fun _ _ => id⟩

theorem modCopyQueue (s : State) (q : Nat) {f : CopyQueue → CopyQueue} (h : DropsStopped f) : Sheds s (s.modCopyQueue q f) := by
  refine ⟨rfl, fun k ⟨x, hx, holds⟩ => ?_, fun k ns ⟨x, hx, holds⟩ => ?_⟩
  · rcases (mem_modAt f).1 hx with hx | ⟨y, hy, rfl⟩
    · exact ⟨x, hx, holds⟩
    · exact ⟨y, hy, (h y k).1 holds⟩
  · rcases (mem_modAt f (n := q)).2 hx with hx | hx
    · exact ⟨x, hx, holds⟩
    · exact ⟨f x, hx, (h x k).2 ns holds⟩

theorem modCopy (s : State) (q seq : Nat) {f : Copy → Copy} (h : ∀ c, (f c).standing = c.standing) : Sheds s (s.modCopy q seq f) := by
  have same (c : Copy) : (if c.seq = seq then f c else c).standing = c.standing := by
    split
    · exact h c
    · rfl
  refine modCopyQueue s q fun x k => ⟨?_, fun _ => ?_⟩
  · rintro ⟨_, changed, rfl⟩
    obtain ⟨c, hc, rfl⟩ := List.mem_map.1 changed
    exact ⟨c, hc, (same c).symm⟩
  · rintro ⟨c, hc, rfl⟩
    exact ⟨_, List.mem_map_of_mem hc, same c⟩

theorem postTrap (s : State) (k : Nat) (t : Trap) : Sheds s (s.postTrap k t) := of_eq rfl rfl

theorem retireAt (s : State) (k : Nat) (i : Instr) (priv : Priv) (next : VAddr) (extra : List Byte) : Sheds s (s.retireAt k i priv next extra) :=
  (of_eq rfl rfl : Sheds s (s.setWave k _)).trans (of_counted (counted_retireAt s k i priv next extra))

theorem ticketDone (s : State) (k : Nat) (i : Instr) (q seq : Nat) (next : VAddr) : Sheds s (s.ticketDone k i q seq next) := by
  unfold State.ticketDone
  refine Sheds.trans ?_ (retireAt _ k i _ next [])
  split
  · exact modLaunch s _ fun _ => rfl
  · exact refl s

theorem wakeTickets (s : State) (q : Nat) : Sheds s (s.wakeTickets q) := by
  refine foldl (fun s k => ?_) _ s
  dsimp only
  split
  · split
    · exact refl s
    · split
      · refine Sheds.trans ?_ (postTrap _ k _)
        exact modCopy s q _ fun _ => rfl
      · split
        · exact refl s
        · split
          · exact (of_eq rfl rfl : Sheds s (s.setWave k _)).trans (ticketDone _ k _ q _ _)
          · exact of_eq rfl rfl
  · exact refl s

theorem dropsStopped (g : Nat) : DropsStopped fun x => { x with entries := x.entries.filter fun c => !(c.group == g && c.stage == .stopped) } := by
  refine fun x k => ⟨?_, fun ns => ?_⟩
  · rintro ⟨c, hc, rfl⟩
    exact ⟨c, (List.mem_filter.1 hc).1, rfl⟩
  · rintro ⟨c, hc, rfl⟩
    have goes : c.stage ≠ .stopped := ns
    exact ⟨c, List.mem_filter.2 ⟨hc, by simp [goes]⟩, rfl⟩

theorem abandonCopies (s : State) (g : Nat) : Sheds s (s.abandonCopies g) := by
  refine foldl (fun s q => ?_) _ s
  dsimp only
  split
  · exact refl s
  · exact ((modCopyQueue s q (dropsStopped g)).trans (foldl (fun s _ => record s _) _ _)).trans (wakeTickets _ q)

theorem dissolve (s : State) (g : Nat) : Sheds s (s.dissolve g) := by
  rcases dissolve_cases s g with e | e
  · rw [e]; exact refl s
  · have launches : (s.emptied g).launches = s.launches := by
      unfold State.emptied
      dsimp only
      split <;> rfl
    rw [e]
    exact (of_eq launches (State.emptied_copies s g)).trans (abandonCopies _ g)

theorem breakBarrier (s : State) (c e : Nat) : Sheds s (s.breakBarrier c e) :=
  (of_eq rfl rfl : Sheds s (s.modCtx c _)).trans (foldl (fun s j => postTrap s j _) _ _)

theorem killSilently (s : State) (k : Nat) : Sheds s (s.killSilently k) := by
  have broken : Sheds s (s.breakBarriers k) := by
    rw [breakBarriers_eq]
    exact foldl (fun s e => breakBarrier s _ e) _ s
  have vacated : Sheds (s.breakBarriers k) ((s.breakBarriers k).vacated k) := of_eq rfl rfl
  exact (broken.trans vacated).trans (dissolve _ _)

end Sheds

/-! ### Waves that are killed (R301) -/

theorem wave_postTraps {trap : State → Nat → Trap} {l : List Nat} {j : Nat} (h : j ∉ l) (s : State) :
    (l.foldl (fun s j => s.postTrap j (trap s j)) s).wave j = s.wave j := by
  induction l generalizing s with
  | nil => rfl
  | cons x t ih =>
    rw [List.mem_cons, not_or] at h
    exact (ih h.2 _).trans (State.wave_modWave_ne _ h.1)

theorem length_breakBarrier (s : State) (c e : Nat) : (s.breakBarrier c e).waves.length = s.waves.length :=
  length_foldl (fun s j => by simp [State.postTrap]) _ _

/-- A wave that has exited is none of the waiters. -/
theorem wave_breakBarrier {s : State} {c e j : Nat} (h : (s.wave j).state = .exited) : (s.breakBarrier c e).wave j = s.wave j := by
  refine wave_postTraps (trap := fun s j => { cause := 0x31, mask := (s.wave j).exec, addr := 0 }) (fun mem => ?_) _
  have waits : ((s.wave j).waitsAt c e) = true := (wave_wavesWith.1 mem).2
  simp [Wave.waitsAt, h] at waits

theorem length_breakBarriers (s : State) (k : Nat) : (s.breakBarriers k).waves.length = s.waves.length := by
  rw [breakBarriers_eq]
  exact length_foldl (fun s e => length_breakBarrier s _ e) _ s

theorem wave_breakBarriers {s : State} {k j : Nat} (h : (s.wave j).state = .exited) : (s.breakBarriers k).wave j = s.wave j := by
  rw [breakBarriers_eq]
  generalize s.barriersOf (s.wave k) (s.wave k).sgid = l
  generalize (s.wave k).ctx = c
  induction l generalizing s with
  | nil => rfl
  | cons e t ih =>
    have first := wave_breakBarrier (c := c) (e := e) h
    exact (ih (by rw [first]; exact h)).trans first

theorem killSilently_exits {s : State} {k : Nat} (h : k < s.waves.length) : ((s.killSilently k).wave k).state = .exited := by
  have lt : k < (s.breakBarriers k).waves.length := by rw [length_breakBarriers]; exact h
  obtain ⟨exited, -⟩ := vacated_self lt
  rw [State.killSilently, exited_eq, dissolve_awake _ _ (by simp [Wave.waits, exited])]
  exact exited

theorem killSilently_keeps {s : State} {k j : Nat} (h : (s.wave j).state = .exited) : ((s.killSilently k).wave j).state = .exited := by
  have broken : ((s.breakBarriers k).wave j).state = .exited := by rw [wave_breakBarriers h]; exact h
  have vacated : (((s.breakBarriers k).vacated k).wave j).state = .exited := by
    by_cases e : j = k
    · subst e
      by_cases lt : j < (s.breakBarriers j).waves.length
      · exact (vacated_self lt).1
      · exact (congrArg (fun l : List Wave => (l.getD j default).state) (modAt_oob _ (s.breakBarriers j).waves (Nat.not_lt.1 lt))).trans broken
    · exact (congrArg Wave.state (State.wave_modWave_ne (s := s.breakBarriers k) _ e)).trans broken
  rw [State.killSilently, exited_eq, dissolve_awake _ _ (by simp [Wave.waits, vacated])]
  exact vacated

theorem length_killSilently (s : State) (k : Nat) : (s.killSilently k).waves.length = s.waves.length := by
  rw [State.killSilently, exited_eq, dissolve_length, vacated_length, length_breakBarriers]

theorem exits_all {l : List Nat} {s : State} (lt : ∀ k ∈ l, k < s.waves.length) :
    (∀ j, (s.wave j).state = .exited → ((l.foldl State.killSilently s).wave j).state = .exited)
      ∧ ∀ k ∈ l, ((l.foldl State.killSilently s).wave k).state = .exited := by
  induction l generalizing s with
  | nil => exact ⟨fun _ h => h, nofun⟩
  | cons x t ih =>
    obtain ⟨keeps, exits⟩ := ih (s := s.killSilently x) fun k hk => by rw [length_killSilently]; exact lt k (List.mem_cons_of_mem _ hk)
    refine ⟨fun j h => keeps j (killSilently_keeps h), fun k hk => ?_⟩
    rcases List.mem_cons.1 hk with rfl | hk
    · exact keeps k (killSilently_exits (lt k (List.mem_cons_self ..)))
    · exact exits k hk

/-! ### LAUNCH_TEARDOWN (R301) -/

/-- The state in which every wave of a launch is killed. -/
def State.allKilled (s : State) (l : Nat) : State := (s.launchWaves l).foldl State.killSilently s

/-- The state in which what the pods and requests of a launch hold is gone, and the copies that have not entered their queues (R301). -/
def State.tornDown (s : State) (l : Nat) : State :=
  let s := s.allKilled l
  let s := { s with emits := s.emits.filter fun r => (s.wave r.wave).launch != l && !(r.seed && (s.launch l).graph == some r.graph) }
  let s := match (s.launch l).graph with
    | some g =>
      if (s.launch l).state = LState.running ∨ (s.launch l).state = LState.finishing then
        (s.emptyPods g).modGraph g fun x => { x with poolUsed := 0 }
      else s
    | none => s
  { s with copies := s.copies.map fun (q : CopyQueue) => { q with entries := q.entries.filter fun c => !(c.launch == l && c.heldBack) } }

theorem exec_launchTeardown {s : State} {l : Nat} (torn : (s.launch l).tearing = true) : exec (.launchTeardown l) s =
    .next (if (s.tornDown l).launchCopies l then s.tornDown l else (s.tornDown l).endLaunch l .aborted 2) := by
  have run : exec (.launchTeardown l) s = .next (if !(s.launch l).tearing then s
      else if (s.tornDown l).launchCopies l then s.tornDown l else (s.tornDown l).endLaunch l .aborted 2) := rfl
  rw [run, torn]
  rfl

theorem teardown_of_whole {s : State} {l : Nat} (whole : (s.launch l).tearing = false) : exec (.launchTeardown l) s = .next s :=
  congrArg Host.Outcome.next (if_pos (by rw [whole]; rfl))

theorem tornDown_parts (s : State) (l : Nat) : (s.tornDown l).waves = (s.allKilled l).waves ∧ (s.tornDown l).launches = (s.allKilled l).launches
    ∧ (s.tornDown l).copies = (s.allKilled l).copies.map fun (q : CopyQueue) =>
      { q with entries := q.entries.filter fun c => !(c.launch == l && c.heldBack) } := by
  unfold State.tornDown
  generalize s.allKilled l = u
  dsimp only
  split
  · split
    · exact ⟨rfl, rfl, rfl⟩
    · exact ⟨rfl, rfl, rfl⟩
  · exact ⟨rfl, rfl, rfl⟩

theorem sheds_allKilled (s : State) (l : Nat) : Sheds s (s.allKilled l) := Sheds.foldl Sheds.killSilently _ s

/-- The copies that keep a launch are those that it has issued (R244, R301). -/
theorem launchCopies_tornDown (s : State) (l : Nat) :
    (s.tornDown l).launchCopies l = true ↔ ∃ stage, ∃ x ∈ (s.allKilled l).copies, x.holds (l, false, stage) := by
  simp only [State.launchCopies, (tornDown_parts s l).2.2, List.any_eq_true, List.mem_map]
  constructor
  · rintro ⟨_, ⟨q, hq, rfl⟩, c, hc, mine⟩
    obtain ⟨hc, issued⟩ := List.mem_filter.1 hc
    have own : c.launch = l := by simpa using mine
    have out : c.heldBack = false := by simpa [own] using issued
    exact ⟨c.stage, q, hq, c, hc, by rw [Copy.standing, own, out]⟩
  · rintro ⟨stage, q, hq, c, hc, e⟩
    obtain ⟨own, out, -⟩ : c.launch = l ∧ c.heldBack = false ∧ c.stage = stage := by simpa [Copy.standing] using e
    exact ⟨_, ⟨q, hq, rfl⟩, c, List.mem_filter.2 ⟨hc, by simp [out]⟩, by simp [own]⟩

/-- A launch that is torn down stands as it did until it ends. -/
theorem standing_tornDown (s : State) (l : Nat) : ((s.tornDown l).launch l).standing = (s.launch l).standing := by
  have same : ((s.allKilled l).launch l).standing = (s.launch l).standing := by
    have := congrArg (fun x : List (LState × Bool × Bool) => x.getD l (default : Launch).standing) (sheds_allKilled s l).launches
    simp only [getD_map'] at this
    exact this
  rw [State.launch, (tornDown_parts s l).2.1]
  exact same

theorem tears_down {s : State} {l : Nat} (lt : l < s.launches.length) (torn : (s.launch l).tearing = true) : ∃ t, exec (.launchTeardown l) s = .next t
    ∧ (∀ k, k < s.waves.length → (s.wave k).launch = l → (s.wave k).state ≠ .exited → (t.wave k).state = .exited)
    ∧ ((∀ q ∈ s.copies, ∀ c ∈ q.entries, c.launch = l → c.heldBack = true) →
        (t.launch l).state = .aborted ∧ (t.launch l).status = 2 ∧ (t.launch l).completed = true)
    ∧ ((∃ q ∈ s.copies, ∃ c ∈ q.entries, c.launch = l ∧ c.heldBack = false ∧ c.stage ≠ .stopped) →
        (t.launch l).state = (s.launch l).state ∧ (t.launch l).completed = (s.launch l).completed ∧ (t.launch l).tearing = true) := by
  obtain ⟨waves, launches, -⟩ := tornDown_parts s l
  have exits (k : Nat) (hk : k < s.waves.length) (own : (s.wave k).launch = l) (lives : (s.wave k).state ≠ .exited) :
      ((s.tornDown l).wave k).state = .exited := by
    rw [State.wave, waves]
    exact (exits_all fun k hk => (wave_wavesWith.1 hk).1).2 k (wave_wavesWith.2 ⟨hk, by simp [own, lives]⟩)
  have room : l < (s.tornDown l).launches.length := by
    have := congrArg List.length (sheds_allKilled s l).launches
    simp only [List.length_map] at this
    rw [launches]
    omega
  rw [exec_launchTeardown torn]
  by_cases busy : (s.tornDown l).launchCopies l = true
  · rw [if_pos busy]
    refine ⟨_, rfl, exits, fun held => ?_, fun _ => ?_⟩
    · obtain ⟨stage, holds⟩ := (launchCopies_tornDown s l).1 busy
      obtain ⟨q, hq, c, hc, e⟩ := (sheds_allKilled s l).fewer _ holds
      obtain ⟨own, out, -⟩ : c.launch = l ∧ c.heldBack = false ∧ c.stage = stage := by simpa [Copy.standing] using e
      rw [held q hq c hc own] at out
      cases out
    · obtain ⟨state, completed, tearing⟩ : _ = (s.launch l).state ∧ _ = (s.launch l).completed ∧ _ = (s.launch l).tearing := by
        simpa [Launch.standing] using standing_tornDown s l
      exact ⟨state, completed, tearing.trans torn⟩
  · rw [if_neg busy]
    refine ⟨_, rfl, fun k hk own lives => ?_, fun _ => ?_, fun ⟨q, hq, c, hc, own, out, goes⟩ => ?_⟩
    · rw [State.wave, waves_endLaunch]
      exact exits k hk own lives
    · rw [launch_endLaunch _ _ room]
      exact ⟨rfl, rfl, rfl⟩
    · refine absurd ((launchCopies_tornDown s l).2 ⟨c.stage, ?_⟩) busy
      exact (sheds_allKilled s l).kept _ goes ⟨q, hq, c, hc, by rw [Copy.standing, own, out]⟩

/-! ### The obligation -/

/-- Settles O38. -/
theorem launchStates : Obligations.LaunchStates := by
  refine ⟨fun s c => ⟨launch_unread, fun b aligned read => ?_⟩, fun s l edge region va len e _ => hashes_edge,
    fun s d lt => ⟨s.targetPoint d, reaches_point lt, targetPoint_spec s d⟩, fun s l lt => ?_⟩
  · have m := mapped_edgesReady s (s.cmdCtx c) c.addr.toNat (s.namedEdges c b)
    rw [exec_launch_read aligned read]
    intro l named v edges seeds
    have answer : s.launched c b = v.decided (s.cmdCtx c) l edges seeds ((v.launchStatus l b edges).or (if seeds.isNone then some 0x10 else none)) := rfl
    refine ⟨fun x bad => ⟨_, rfl, ?_⟩, fun es ss status he hs => ⟨_, rfl, ?_⟩⟩
    · have rejected : (v.launchStatus l b edges).or (if seeds.isNone then some 0x10 else none) = some x := by
        rcases bad with status | ⟨status, unread, rfl⟩
        · rw [status]; rfl
        · rw [status, unread]; rfl
      rw [answer, rejected]
      exact launch_rejected m _ _ _ _ x
    · have goes : (v.launchStatus l b edges).or (if seeds.isNone then some 0x10 else none) = none := by rw [status, hs]; rfl
      obtain ⟨length, order, last, waves, states⟩ := launch_others m (s.cmdCtx c) l edges seeds
      have waits := launch_waits m (s.cmdCtx c) l edges seeds
      rw [show edges.getD [] = es by rw [he]; rfl, show seeds.getD [] = ss by rw [hs]; rfl] at waits
      rw [answer, goes]
      exact ⟨length, waits, order, last, waves, states⟩
  · exact ⟨fun finishing whole idle => completes lt finishing whole (by simpa using mt (outstanding_iff s l).1 idle),
      fun h => completion_waits (h.imp_right (outstanding_iff s l).2), tears_down lt, teardown_of_whole⟩

end Sys2Proof.Machine
end

section
/-! PROOF. Scalar results (O3). -/

namespace Sys2Proof.Machine

open Sys2Proof.Safety Sys2Proof.Rules

/-! ### Values: sums, products and comparisons (R115, R116, R119) -/

theorem toNat_sub_add (x y : Word) : ((x - y).toNat + y.toNat) % 2 ^ 64 = x.toNat := by
  rw [← BitVec.toNat_add, BitVec.sub_add_cancel]

theorem truth_ofBool {p : Prop} {b : Bool} (h : b = true ↔ p) : truth p (ofBool b) := by
  cases b
  · exact ⟨fun hp => absurd (h.2 hp) (by decide), fun _ => rfl⟩
  · exact ⟨fun _ => rfl, fun hp => absurd (h.1 rfl) hp⟩

theorem slt_sext {n : Nat} (x : Word) (imm : BitVec n) (h : n ≤ 64) : x.slt (sext64 imm) = true ↔ x.toInt < imm.toInt := by
  rw [BitVec.slt_iff_toInt_lt, sext64, BitVec.toInt_signExtend_of_le h]

theorem toInt_smin (x y : Word) : (if x.sle y then x else y).toInt = min x.toInt y.toInt := by
  simp only [apply_ite BitVec.toInt, min_def, BitVec.sle_iff_toInt_le]

theorem toInt_smax (x y : Word) : (if x.sle y then y else x).toInt = max x.toInt y.toInt := by
  simp only [apply_ite BitVec.toInt, max_def, BitVec.sle_iff_toInt_le]

theorem toNat_umin (x y : Word) : (if x ≤ y then x else y).toNat = min x.toNat y.toNat := by
  simp only [apply_ite BitVec.toNat, min_def, BitVec.le_def]

theorem toNat_umax (x y : Word) : (if x ≤ y then y else x).toNat = max x.toNat y.toNat := by
  simp only [apply_ite BitVec.toNat, max_def, BitVec.le_def]

/-- The high half of a signed product is a 64-bit number. -/
theorem toInt_mulHigh (x y : Word) : (mulHigh x y).toInt = x.toInt * y.toInt / 2 ^ 64 := by
  have bound : |x.toInt * y.toInt| ≤ 2 ^ 63 * 2 ^ 63 := by
    rw [abs_mul]
    exact mul_le_mul (abs_le.2 ⟨x.le_toInt, x.toInt_lt.le⟩) (abs_le.2 ⟨y.le_toInt, y.toInt_lt.le⟩) (abs_nonneg _) (by norm_num)
  obtain ⟨low, high⟩ := abs_le.1 bound
  rw [mulHigh, BitVec.toInt_ofInt, Int.bmod_eq_of_le (by omega) (by omega)]

theorem toNat_mulHighU (x y : Word) : (mulHighU x y).toNat = x.toNat * y.toNat / 2 ^ 64 := by
  have bound : x.toNat * y.toNat < 2 ^ 64 * 2 ^ 64 := Nat.mul_lt_mul'' x.isLt y.isLt
  rw [mulHighU, BitVec.toNat_ofNat, Nat.mod_eq_of_lt (Nat.div_lt_of_lt_mul bound)]

theorem toNat_slea (x y : Word) (n : Nat) : (x + y <<< n).toNat = (x.toNat + y.toNat * 2 ^ n) % 2 ^ 64 := by
  rw [BitVec.toNat_add, BitVec.toNat_shiftLeft, Nat.shiftLeft_eq, Nat.add_mod_mod]

theorem toNat_smad (x y z : Word) : (x * y + z).toNat = (x.toNat * y.toNat + z.toNat) % 2 ^ 64 := by
  rw [BitVec.toNat_add, BitVec.toNat_mul, Nat.mod_add_mod]

theorem toNat_saddpc (pc : VAddr) (x : Word) : (pc.setWidth 64 + x).toNat = (pc.toNat + x.toNat) % 2 ^ 64 := by
  rw [BitVec.toNat_add, BitVec.toNat_setWidth_of_le (by decide)]

/-! ### Values: division (R78) -/

theorem quotient_spec (x y : Word) : if y = 0 then quotient x y = BitVec.allOnes 64 else quotient x y = BitVec.ofInt 64 (x.toInt.tdiv y.toInt) := by
  unfold quotient
  split
  · rfl
  · rw [← BitVec.toInt_inj, BitVec.toInt_sdiv, BitVec.toInt_ofInt]

theorem quotientU_spec (x y : Word) : if y = 0 then quotientU x y = BitVec.allOnes 64 else (quotientU x y).toNat = x.toNat / y.toNat := by
  unfold quotientU
  split
  · rfl
  · exact BitVec.toNat_udiv

theorem remainder_spec (x y : Word) : if y = 0 then remainder x y = x else (remainder x y).toInt = x.toInt.tmod y.toInt := by
  unfold remainder
  split
  · rfl
  · exact BitVec.toInt_srem x y

theorem remainderU_spec (x y : Word) : if y = 0 then remainderU x y = x else (remainderU x y).toNat = x.toNat % y.toNat := by
  unfold remainderU
  split
  · rfl
  · exact BitVec.toNat_umod

/-! ### Values: shifts and fields (R115, R117, R119) -/

theorem getLsbD_andn (x y : Word) (n : Nat) : (x &&& ~~~y).getLsbD n = (x.getLsbD n && !y.getLsbD n) := by
  by_cases inside : n < 64
  · simp [inside]
  · simp [BitVec.getLsbD_of_ge x n (by omega)]

theorem toNat_sshl (x : Word) (n : Nat) : (x <<< n).toNat = x.toNat * 2 ^ n % 2 ^ 64 := by
  rw [BitVec.toNat_shiftLeft, Nat.shiftLeft_eq]

theorem toNat_sshr (x : Word) (n : Nat) : (x >>> n).toNat = x.toNat / 2 ^ n := by
  rw [BitVec.toNat_ushiftRight, Nat.shiftRight_eq_div_pow]

theorem toInt_ssar (x : Word) (n : Nat) : (x.sshiftRight n).toInt = x.toInt / 2 ^ n := by
  rw [BitVec.toInt_sshiftRight, Int.shiftRight_eq_div_pow]
  norm_cast

theorem getLsbD_rotr (x : Word) (y n : Nat) (hn : n < 64) : (x.rotateRight (y % 64)).getLsbD n = x.getLsbD ((n + y) % 64) := by
  rw [BitVec.getLsbD_rotateRight, Nat.mod_mod]
  by_cases low : n < 64 - y % 64
  · simp only [low, decide_true, cond_true]
    congr 1; omega
  · simp only [low, hn, decide_true, decide_false, cond_false, Bool.true_and]
    congr 1; omega

theorem getLsbD_lowMask (n i : Nat) : (lowMask n).getLsbD i = (decide (i < 64) && decide (i < n)) := by
  rw [lowMask, BitVec.getLsbD_ofNat, Nat.testBit_two_pow_sub_one]

theorem toNat_and_lowMask (x : Word) {n : Nat} (h : n ≤ 64) : (x &&& lowMask n).toNat = x.toNat % 2 ^ n := by
  have fits : 2 ^ n - 1 < 2 ^ 64 := by have := Nat.pow_le_pow_right (n := 2) (by decide) h; omega
  rw [BitVec.toNat_and, lowMask, BitVec.toNat_ofNat, Nat.mod_eq_of_lt fits, Nat.and_two_pow_sub_one_eq_mod]

theorem toNat_extractField (x : Word) (pos : Nat) {n : Nat} (h : n ≤ 64) : (extractField x pos n).toNat = x.toNat / 2 ^ pos % 2 ^ n := by
  rw [extractField, toNat_and_lowMask _ h, BitVec.toNat_ushiftRight, Nat.shiftRight_eq_div_pow]

/-- A field of `y` bits, clamped to those above `pos`, takes the low bits of another word. -/
theorem getLsbD_insertField (d x : Word) (pos y : Nat) {n : Nat} (hn : n < 64) :
    (insertField d x pos (min y (64 - pos))).getLsbD n = if pos ≤ n ∧ n < pos + y then x.getLsbD (n - pos) else d.getLsbD n := by
  have mask : decide (n - pos < 64) = true := by simp; omega
  simp only [insertField, BitVec.getLsbD_or, BitVec.getLsbD_and, BitVec.getLsbD_not, BitVec.getLsbD_shiftLeft, getLsbD_lowMask, hn, mask,
    decide_true, Bool.true_and]
  by_cases inside : pos ≤ n ∧ n < pos + y
  · simp [inside, show ¬n < pos by omega, show n - pos < min y (64 - pos) by omega]
  · rw [if_neg inside]
    by_cases low : n < pos
    · simp [low]
    · simp [low, show ¬n - pos < min y (64 - pos) by omega]

/-- A shift up and back repeats the highest bit of the field. -/
theorem getLsbD_ssext (x : Word) {w n : Nat} (pos : 0 < w) (le : w ≤ 64) (hn : n < 64) :
    ((x <<< (64 - w)).sshiftRight (64 - w)).getLsbD n = x.getLsbD (min n (w - 1)) := by
  rw [BitVec.getLsbD_sshiftRight, BitVec.msb_eq_getLsbD_last]
  by_cases inside : n < w
  · simp [show ¬64 ≤ n by omega, show 64 - w + n < 64 by omega, show min n (w - 1) = n by omega,
      BitVec.getLsbD_eq_getElem hn]
  · simp [show ¬64 ≤ n by omega, show ¬64 - w + n < 64 by omega, show min n (w - 1) = w - 1 by omega,
      show ¬63 < 64 - w by omega, show 63 - (64 - w) = w - 1 by omega, BitVec.getLsbD_eq_getElem (show w - 1 < 64 by omega)]

/-- The upper 36 bits of a word and the lower 28 of another do not meet. -/
theorem toNat_smovhi (imm : BitVec 36) (x : Word) :
    ((imm.setWidth 64 <<< 28) ||| (x &&& 0xFFFFFFF)).toNat = imm.toNat * 2 ^ 28 + x.toNat % 2 ^ 28 := by
  have low : (x &&& 0xFFFFFFF : Word).toNat = x.toNat % 2 ^ 28 := toNat_and_lowMask x (n := 28) (by decide)
  have high : (imm.setWidth 64 <<< 28 : Word).toNat = 2 ^ 28 * imm.toNat := by
    have := imm.isLt
    rw [BitVec.toNat_shiftLeft, BitVec.toNat_setWidth, Nat.shiftLeft_eq]
    omega
  rw [BitVec.toNat_or, low, high, ← Nat.two_pow_add_eq_or_of_lt (Nat.mod_lt _ (by decide)), Nat.mul_comm]

/-! ### Values: counts of bits (R117) -/

theorem sclz_spec (x : Word) : if x = 0 then BitVec.ofNat 64 (leadZeros 64 x.toNat) = 64 else
    (BitVec.ofNat 64 (leadZeros 64 x.toNat)).toNat < 64 ∧ 2 ^ 63 ≤ x.toNat * 2 ^ (BitVec.ofNat 64 (leadZeros 64 x.toNat)).toNat
      ∧ x.toNat * 2 ^ (BitVec.ofNat 64 (leadZeros 64 x.toNat)).toNat < 2 ^ 64 := by
  by_cases zero : x = 0
  · subst zero; rfl
  · have ne : x.toNat ≠ 0 := fun h => zero (BitVec.eq_of_toNat_eq h)
    have small : x.toNat.log2 < 64 := (Nat.log2_lt ne).2 x.isLt
    have value : (BitVec.ofNat 64 (leadZeros 64 x.toNat)).toNat = 63 - x.toNat.log2 := by
      rw [leadZeros, if_neg ne, BitVec.toNat_ofNat]; omega
    have low := Nat.mul_le_mul_right (2 ^ (63 - x.toNat.log2)) (Nat.log2_self_le ne)
    have high := Nat.mul_lt_mul_of_pos_right (Nat.lt_log2_self (n := x.toNat)) (Nat.two_pow_pos (63 - x.toNat.log2))
    rw [← pow_add] at low high
    rw [if_neg zero, value]
    refine ⟨by omega, ?_, ?_⟩
    · rwa [show x.toNat.log2 + (63 - x.toNat.log2) = 63 by omega] at low
    · rwa [show x.toNat.log2 + 1 + (63 - x.toNat.log2) = 64 by omega] at high

theorem sctz_spec (x : Word) : if x = 0 then BitVec.ofNat 64 (trailZeros x) = 64 else
    (BitVec.ofNat 64 (trailZeros x)).toNat < 64 ∧ x.getLsbD (BitVec.ofNat 64 (trailZeros x)).toNat = true
      ∧ ∀ n, n < (BitVec.ofNat 64 (trailZeros x)).toNat → x.getLsbD n = false := by
  by_cases zero : x = 0
  · subst zero; decide
  · rw [if_neg zero]
    cases found : firstBelow x.getLsbD 64 with
    | none =>
      have off : ∀ n, n < 64 → x.getLsbD n = false := by simpa [firstBelow, List.find?_eq_none] using found
      exact absurd (BitVec.eq_of_getLsbD_eq fun n hn => by rw [off n hn]; simp) zero
    | some i =>
      obtain ⟨on, inside, below⟩ := List.find?_range_eq_some.1 found
      have lt : i < 64 := List.mem_range.1 inside
      have value : (BitVec.ofNat 64 (trailZeros x)).toNat = i := by
        rw [trailZeros, found, BitVec.toNat_ofNat, Option.getD_some]; omega
      rw [value]
      exact ⟨lt, on, fun n hn => by simpa using below n hn⟩

theorem toNat_spopc (x : Word) : (BitVec.ofNat 64 (popCount x)).toNat = ((List.range 64).filter x.getLsbD).length := by
  have le : popCount x ≤ 64 := List.countP_le_length.trans (by simp)
  rw [BitVec.toNat_ofNat, Nat.mod_eq_of_lt (by omega), popCount, List.countP_eq_length_filter]

/-- A number that takes bits in at its low end holds the first of them highest. -/
theorem testBit_shifted_in (f : Nat → Bool) (m n : Nat) :
    ((List.range m).foldl (fun a i => 2 * a + (f i).toNat) 0).testBit n = (decide (n < m) && f (m - 1 - n)) := by
  induction m generalizing n with
  | zero => simp
  | succ m ih =>
    rw [List.range_succ, List.foldl_append, List.foldl_cons, List.foldl_nil]
    cases n with
    | zero => cases h : f m <;> simp [h, Nat.testBit_zero]
    | succ n =>
      have half (a : Nat) (b : Bool) : (2 * a + b.toNat) / 2 = a := by cases b <;> simp; omega
      rw [Nat.testBit_succ, half, ih]
      simp [show m - (n + 1) = m - 1 - n by omega]

theorem getLsbD_reverseBits (x : Word) {n : Nat} (hn : n < 64) : (reverseBits x).getLsbD n = x.getLsbD (63 - n) := by
  rw [reverseBits, BitVec.getLsbD_ofNat, testBit_shifted_in]
  simp [hn]

/-! ### How a scalar instruction completes (R57, R114) -/

/-- A result that reads no note of the issue completes in Sd. -/
theorem completes_writeS {s : State} {k : Nat} {i : Instr} {d : Nat} (f : Wave → Word) (h : Issues s k i)
    (run : exec i s = regOp i s fun w => w.writeS d (f w)) (note : f ((s.wave k).noted s.cc) = f (s.wave k)) :
    Completes i s k ((s.wave k).writeS d (f (s.wave k))) :=
  completes_of_regOp h run (by rw [note, Wave.writeS_noted]) (SameSeat.writeS _ _ _)

/-- A function of two operands completes in Sd, with what its value meets. -/
theorem completes_scalar2 {s : State} {k : Nat} {i : Instr} {o : SBin} {P : Word → Prop} (f : Word → Word → Word) (h : Issues s k i)
    (run : exec i s = scalar2 i o f s) (meets : P (f ((s.wave k).readS o.a.toNat) ((s.wave k).ssrc o.b))) :
    ∃ r, P r ∧ Completes i s k ((s.wave k).writeS o.d.toNat r) :=
  ⟨_, meets, completes_writeS (fun w => f (w.readS o.a.toNat) (w.ssrc o.b)) h run (by simp)⟩

/-- A function of one operand completes in Sd, with what its value meets. -/
theorem completes_scalar1 {s : State} {k : Nat} {i : Instr} {d a : BitVec 8} {P : Word → Prop} (f : Word → Word) (h : Issues s k i)
    (run : exec i s = scalar1 i d a f s) (meets : P (f ((s.wave k).readS a.toNat))) :
    ∃ r, P r ∧ Completes i s k ((s.wave k).writeS d.toNat r) :=
  ⟨_, meets, completes_writeS (fun w => f (w.readS a.toNat)) h run rfl⟩

/-- A long function of two operands completes with a long write of Sd, with what its value meets. -/
theorem completes_scalar2Long {s : State} {k : Nat} {i : Instr} {o : SBin} {P : Word → Prop} (f : Word → Word → Word) (h : Issues s k i)
    (run : exec i s = scalar2Long i o f s) (meets : P (f ((s.wave k).readS o.a.toNat) ((s.wave k).ssrc o.b))) :
    ∃ r, P r ∧ Completes i s k ((s.wave k).long ((s.wave k).sReg o.d.toNat) (.s r)) :=
  ⟨_, meets, completes_of_regOp h run (by simp [Wave.long_noted]) (SameSeat.long _ _ _ _ _)⟩

/-! ### The tables -/

/-- Every instruction of R115-R119 completes with the value of its row in Sd. -/
theorem completes_scalarShort {s : State} {k : Nat} {i : Instr} {d : Nat} {rel : ScalarRel} (defined : scalarShort i = some (d, rel))
    (wf : wellFormed i = true) (h : Issues s k i) : ∃ r, rel (s.wave k) r ∧ Completes i s k ((s.wave k).writeS d r) := by
  cases i with
  | sadd o =>
    cases defined
    exact completes_scalar2 (fun x y => x + y) h rfl (BitVec.toNat_add _ _)
  | ssub o =>
    cases defined
    exact completes_scalar2 (fun x y => x - y) h rfl (toNat_sub_add _ _)
  | sand o =>
    cases defined
    exact completes_scalar2 (fun x y => x &&& y) h rfl fun _ => BitVec.getLsbD_and
  | sor o =>
    cases defined
    exact completes_scalar2 (fun x y => x ||| y) h rfl fun _ => BitVec.getLsbD_or
  | sxor o =>
    cases defined
    exact completes_scalar2 (fun x y => x ^^^ y) h rfl fun _ => BitVec.getLsbD_xor
  | sandn o =>
    cases defined
    exact completes_scalar2 (fun x y => x &&& ~~~y) h rfl (getLsbD_andn _ _)
  | sshl o =>
    cases defined
    exact completes_scalar2 (fun x y => x <<< (y.toNat % 64)) h rfl (toNat_sshl _ _)
  | sshr o =>
    cases defined
    exact completes_scalar2 (fun x y => x >>> (y.toNat % 64)) h rfl (toNat_sshr _ _)
  | ssar o =>
    cases defined
    exact completes_scalar2 (fun x y => x.sshiftRight (y.toNat % 64)) h rfl (toInt_ssar _ _)
  | srot o =>
    cases defined
    exact completes_scalar2 (fun x y => x.rotateRight (y.toNat % 64)) h rfl fun n hn => getLsbD_rotr _ _ n hn
  | smin o =>
    cases defined
    exact completes_scalar2 (fun x y => if x.sle y then x else y) h rfl (toInt_smin _ _)
  | smax o =>
    cases defined
    exact completes_scalar2 (fun x y => if x.sle y then y else x) h rfl (toInt_smax _ _)
  | sminu o =>
    cases defined
    exact completes_scalar2 (fun x y => if x ≤ y then x else y) h rfl (toNat_umin _ _)
  | smaxu o =>
    cases defined
    exact completes_scalar2 (fun x y => if x ≤ y then y else x) h rfl (toNat_umax _ _)
  | sslt o =>
    cases defined
    exact completes_scalar2 (fun x y => ofBool (x.slt y)) h rfl (truth_ofBool BitVec.slt_iff_toInt_lt)
  | ssltu o =>
    cases defined
    exact completes_scalar2 (fun x y => ofBool (decide (x < y))) h rfl (truth_ofBool decide_eq_true_iff)
  | sseq o =>
    cases defined
    exact completes_scalar2 (fun x y => ofBool (x == y)) h rfl (truth_ofBool beq_iff_eq)
  | smul o =>
    cases defined
    exact completes_scalar2 (fun x y => x * y) h rfl (BitVec.toNat_mul _ _)
  | smulh o =>
    cases defined
    exact completes_scalar2 mulHigh h rfl (toInt_mulHigh _ _)
  | smulhu o =>
    cases defined
    exact completes_scalar2 mulHighU h rfl (toNat_mulHighU _ _)
  | smad o =>
    cases defined
    exact ⟨_, toNat_smad _ _ _, completes_writeS _ h rfl (by simp)⟩
  | sclz o =>
    cases defined
    exact completes_scalar1 (fun x => BitVec.ofNat 64 (leadZeros 64 x.toNat)) h rfl (sclz_spec _)
  | sctz o =>
    cases defined
    exact completes_scalar1 (fun x => BitVec.ofNat 64 (trailZeros x)) h rfl (sctz_spec _)
  | spopc o =>
    cases defined
    exact completes_scalar1 (fun x => BitVec.ofNat 64 (popCount x)) h rfl (toNat_spopc _)
  | sbrev o =>
    cases defined
    exact completes_scalar1 reverseBits h rfl fun n hn => getLsbD_reverseBits _ hn
  | ssext o =>
    have pos : 0 < o.width.toNat := Nat.pos_of_ne_zero fun zero => by
      have width : o.width = 0 := BitVec.eq_of_toNat_eq zero
      simp [wellFormed, width] at wf
    cases defined
    exact completes_scalar1 (fun x => (x <<< (64 - o.width.toNat)).sshiftRight (64 - o.width.toNat)) h rfl fun n hn =>
      getLsbD_ssext _ pos (by omega) hn
  | szext o =>
    cases defined
    exact completes_scalar1 (fun x => x &&& lowMask o.width.toNat) h rfl (toNat_and_lowMask _ (by omega))
  | sbfx o =>
    cases defined
    exact ⟨_, toNat_extractField _ _ (by omega), completes_writeS _ h rfl rfl⟩
  | sbfi o =>
    cases defined
    exact ⟨_, fun n hn => getLsbD_insertField _ _ _ _ hn, completes_writeS _ h rfl rfl⟩
  | ssel o =>
    cases defined
    exact ⟨_, ⟨fun set => if_pos set, fun clear => if_neg (not_not.2 clear)⟩, completes_writeS _ h rfl rfl⟩
  | slea o =>
    cases defined
    exact ⟨_, toNat_slea _ _ _, completes_writeS _ h rfl rfl⟩
  | saddi o =>
    cases defined
    exact completes_scalar1 (fun x => x + sext64 o.imm) h rfl (BitVec.toNat_add _ _)
  | sandi o =>
    cases defined
    exact completes_scalar1 (fun x => x &&& sext64 o.imm) h rfl fun _ => BitVec.getLsbD_and
  | sori o =>
    cases defined
    exact completes_scalar1 (fun x => x ||| sext64 o.imm) h rfl fun _ => BitVec.getLsbD_or
  | sxori o =>
    cases defined
    exact completes_scalar1 (fun x => x ^^^ sext64 o.imm) h rfl fun _ => BitVec.getLsbD_xor
  | smovi o =>
    cases defined
    exact ⟨_, BitVec.toInt_signExtend_of_le (by decide), completes_writeS _ h rfl rfl⟩
  | smovhi o =>
    cases defined
    exact completes_scalar1 (fun x => (o.imm.setWidth 64 <<< 28) ||| (x &&& 0xFFFFFFF)) h rfl (toNat_smovhi o.imm _)
  | sslti o =>
    cases defined
    exact completes_scalar1 (fun x => ofBool (x.slt (sext64 o.imm))) h rfl (truth_ofBool (slt_sext _ o.imm (by decide)))
  | saddpc o =>
    cases defined
    exact ⟨_, toNat_saddpc _ _, completes_writeS _ h rfl rfl⟩
  | _ => exact absurd defined (Option.some_ne_none _).symm

/-- The divisions of R116 complete with a long write of the value of their row. -/
theorem completes_scalarLong {s : State} {k : Nat} {i : Instr} {d : Nat} {rel : ScalarRel} (defined : scalarLong i = some (d, rel))
    (h : Issues s k i) : ∃ r, rel (s.wave k) r ∧ Completes i s k ((s.wave k).long ((s.wave k).sReg d) (.s r)) := by
  cases i with
  | sdiv o =>
    cases defined
    exact completes_scalar2Long quotient h rfl (quotient_spec _ _)
  | sdivu o =>
    cases defined
    exact completes_scalar2Long quotientU h rfl (quotientU_spec _ _)
  | srem o =>
    cases defined
    exact completes_scalar2Long remainder h rfl (remainder_spec _ _)
  | sremu o =>
    cases defined
    exact completes_scalar2Long remainderU h rfl (remainderU_spec _ _)
  | _ => exact absurd defined (Option.some_ne_none _).symm

/-- Settles O3, row by row of the spec's tables. -/
theorem scalarResults : Obligations.ScalarResults :=
  ⟨fun _ _ _ _ _ => completes_scalarShort, fun _ _ _ _ _ => completes_scalarLong⟩

end Sys2Proof.Machine
end

section
/-! PROOF. PERFRD, SIGCHK, ACORN and ICINV (O7). -/

namespace Sys2Proof.Machine

open Sys2Proof.Safety

/-- An instruction whose own effect is its retirement completes with the registers as they are. -/
theorem completes_of_body_done {s : State} {k : Nat} {i : Instr} {body : Nat → State → State} (h : Issues s k i)
    (run : exec i s = issue i s body) (eff : body k (issued s k) = (issued s k).done k i) : Completes i s k (s.wave k) :=
  ⟨_, (run.trans (issue_runs _ h)).trans (congrArg _ eff), retires_done i h.lt⟩

/-! ### PERFRD (R134) -/

/-- What PERFRD reads of counter `n`: its count and, above, its overflow bit (R134). -/
def State.perfWord (s : State) (w : Wave) (n : Nat) : Word :=
  if s.perfHidden w then 0
  else (s.perfOf w n).count.setWidth 64 ||| (if (s.perfOf w n).overflow then BitVec.ofNat 64 (2 ^ 48) else 0)

/-- A context whose counter `n` has its overflow bit cleared. -/
def Context.clearOverflow (n : Nat) (c : Context) : Context := { c with perf := modAt (fun p => { p with overflow := false }) c.perf n }

/-- The count has 48 bits, so that the overflow bit stands above it. -/
theorem toNat_counter (count : BitVec 48) (overflow : Bool) :
    (count.setWidth 64 ||| (if overflow then BitVec.ofNat 64 (2 ^ 48) else 0)).toNat = count.toNat + 2 ^ 48 * overflow.toNat := by
  have low : (count.setWidth 64).toNat = count.toNat := BitVec.toNat_setWidth_of_le (by decide)
  rw [BitVec.toNat_or, low, Nat.or_comm]
  cases overflow with
  | true =>
    have apart := Nat.two_pow_add_eq_or_of_lt count.isLt 1
    rw [Nat.mul_one] at apart
    exact apart.symm.trans (Nat.add_comm _ _)
  | false => simp

theorem toNat_perfWord (s : State) (w : Wave) (n : Nat) : (s.perfWord w n).toNat =
    if s.detOf w = true ∧ w.priv = .u then 0 else (s.perfOf w n).count.toNat + 2 ^ 48 * (s.perfOf w n).overflow.toNat := by
  have hidden : s.perfHidden w = true ↔ s.detOf w = true ∧ w.priv = .u := by simp [State.perfHidden]
  unfold State.perfWord
  by_cases h : s.perfHidden w = true
  · rw [if_pos h, if_pos (hidden.1 h)]; rfl
  · rw [if_neg h, if_neg (mt hidden.2 h), toNat_counter]

/-- A change of the wave and its retirement is the retirement of the changed wave. -/
theorem doneWith_eq {s : State} {k : Nat} (i : Instr) (f : Wave → Wave) (lt : k < s.waves.length) :
    s.doneWith k i f = (s.modWave k f).done k i := by
  rw [State.modWave_eq_setWave f lt]; rfl

/-- PERFRD runs: the counter in a long write, and with CLR its overflow bit cleared. -/
theorem runs_perfrd {s : State} {k : Nat} {o : PerfrdF} (h : Issues s k (.perfrd o)) : Runs (.perfrd o) s k
    ((if o.clr then (issued s k).modCtx (s.wave k).ctx (Context.clearOverflow o.n.toNat) else issued s k).modWave k
      fun w => w.long (w.sReg o.d.toNat) (.s (s.perfWord (s.wave k) o.n.toNat))) := by
  have lt : k < (if o.clr then (issued s k).modCtx (s.wave k).ctx (Context.clearOverflow o.n.toNat) else issued s k).waves.length := by
    split <;> simpa [issued] using h.lt
  refine runs_of_done h rfl (by split <;> simp [issued]) ?_
  rw [← doneWith_eq _ _ lt]
  dsimp only
  rw [wave_issued h]
  cases o.clr <;> rfl

/-! ### SIGCHK, ACORN and ICINV (R126, R127, R137) -/

theorem ilevelOf_issued {s : State} {k : Nat} {i : Instr} (h : Issues s k i) :
    (issued s k).ilevelOf ((issued s k).wave k) = s.ilevelOf (s.wave k) := by rw [wave_issued h]; rfl

/-- SIGCHK has no effect at IL0 (R126). -/
theorem completes_sigchk_off {s : State} {k : Nat} {q : Bool} {imm : BitVec 32} (h : Issues s k (.sigchk q imm))
    (off : s.ilevelOf (s.wave k) = 0) : Completes (.sigchk q imm) s k (s.wave k) :=
  completes_of_body_done h rfl (if_pos ((ilevelOf_issued h).trans off))

/-- SIGCHK clears SIGREG where it matches (R126). -/
theorem completes_sigchk_match {s : State} {k : Nat} {q : Bool} {imm : BitVec 32} (h : Issues s k (.sigchk q imm))
    (on : s.ilevelOf (s.wave k) ≠ 0) (same : (s.wave k).sigreg = imm) :
    Completes (.sigchk q imm) s k { s.wave k with sigreg := 0 } := by
  refine completes_of_issue (f := fun w => { w with sigreg := 0 }) h rfl ?_ rfl ⟨rfl, rfl, rfl⟩
  have sig : ((issued s k).wave k).sigreg = imm := by rw [wave_issued h]; exact same
  exact (if_neg fun off => on ((ilevelOf_issued h).symm.trans off)).trans (if_pos sig)

theorem checked_issued {s : State} {k : Nat} {i : Instr} (h : Issues s k i) :
    (issued s k).checked ((issued s k).wave k) = true ↔ s.ilevelOf (s.wave k) = 3 := by
  rw [State.checked, ilevelOf_issued h, beq_iff_eq]

/-- ACORN waits for the acorn at IL3 (R127). -/
theorem acorn_waits {s : State} {k : Nat} {q : Bool} {id : BitVec 16} (h : Issues s k (.acorn q id))
    (level : s.ilevelOf (s.wave k) = 3) : exec (.acorn q id) s = .next (((issued s k).modWave k fun w =>
      { w with hold := .acorn id.toNat, stalled := some (.acorn q id) }).modPair (s.pairOf (s.wave k)) fun p => { p with wanted := some 0 }) := by
  have run : exec (.acorn q id) s = issue (.acorn q id) s _ := rfl
  rw [run, issue_runs _ h, if_pos ((checked_issued h).2 level), wave_issued h]
  rfl

/-- A wave that has retired takes a hold. -/
theorem Retires.held {s t : State} {k : Nat} {i : Instr} {next : VAddr} {w : Wave} (x : Hold) (lt : k < t.waves.length)
    (R : Retires s t k i next w) :
    Retires s (t.modWave k fun w => { w with hold := x }) k i next { w with hold := x } := by
  have wk := State.wave_modWave_self (fun w => { w with hold := x }) lt
  constructor
  · exact same_trans R.outside ⟨rfl, rfl, fun j ne => State.wave_modWave_ne _ ne⟩
  · rw [wk]; have := congrArg (fun w : Wave => { w with hold := x }) R.regs; exact this
  · rw [wk]; exact R.pc
  · rw [wk]; exact R.state
  · rw [wk]; exact R.unmarked
  · rw [wk]; exact R.sig

/-- ICINV completes and holds its wave (R137; that it retires at issue is the model's own choice, log 25). -/
theorem completes_icinv {s : State} {k : Nat} {q : Bool} {scope : Scope} (h : Issues s k (.icinv q scope)) :
    Completes (.icinv q scope) s k { s.wave k with hold := .icinv scope } := by
  have run : exec (.icinv q scope) s = issue (.icinv q scope) s _ := rfl
  refine ⟨_, run.trans (issue_runs _ h), Retires.held _ ?_ (retires_done _ h.lt)⟩
  rw [State.done, (counted_retireAt _ _ _ _ _ _).waves]
  simpa [issued] using h.lt

/-- Settles O7, instruction by instruction. -/
theorem systemResults : Obligations.SystemResults := by
  refine ⟨fun s k o h => ⟨_, _, runs_perfrd h, rfl, toNat_perfWord _ _ _⟩,
    fun s k q imm id scope => ⟨fun h => ⟨completes_sigchk_off h, completes_sigchk_match h⟩, fun h => ⟨fun below => ?_, acorn_waits h⟩,
      completes_icinv⟩⟩
  exact completes_of_body_done h rfl (if_neg (mt (checked_issued h).1 below))

end Sys2Proof.Machine
end

section
/-! PROOF. Conditions taken as traps (O8). -/

namespace Sys2Proof.Machine

open Sys2Proof.Safety Sys2Proof.Rules

/-! ### What becomes of a condition (R189, R299) -/

theorem takeTrap_of_txn {s : State} {k : Nat} {x : Txn} (t : Trap) (txn : (s.wave k).txn = some x) :
    s.takeTrap k t = s.abortTxn k 6 (t.cause.setWidth 16) := by
  unfold State.takeTrap
  exact if_pos (by simp [txn])

/-- Outside a transaction a condition waits for the outstanding returns; that the wave is PARKED with it is the model's own choice
(log 23). -/
theorem takeTrap_of_pending {s : State} {k : Nat} (t : Trap) (txn : (s.wave k).txn = none) (pending : (s.wave k).pending ≠ []) :
    s.takeTrap k t = s.postTrap k t := by
  unfold State.takeTrap
  exact (if_neg (by simp [txn])).trans (if_neg (by simpa using pending))

theorem takeTrap_of_idle {s : State} {k : Nat} (t : Trap) (txn : (s.wave k).txn = none) (pending : (s.wave k).pending = []) :
    s.takeTrap k t = s.enterTrap k t := by
  unfold State.takeTrap
  exact (if_neg (by simp [txn])).trans (if_pos (by simp [pending]))

/-- A posted trap is entered as the condition itself would be, once the wave may enter its handler. -/
theorem trapEntry_enters {s : State} {k : Nat} {t : Trap} (m : MayEnter s k) (posted : (s.wave k).trap = some t) :
    exec (.trapEntry k t.cause t.mask t.addr) s =
      .next (s.setWave k (entered s.cc (s.wave k) (s.ctx (s.wave k).ctx).tvec t.cause t.mask t.addr t.tile)) := by
  have run : exec (.trapEntry k t.cause t.mask t.addr) s = .next (s.enterTrap k t) := by
    change execTrapEntry _ _ _ _ s = _
    simp [execTrapEntry, event, posted, m.pending]
  rw [run, ← takeTrap_of_idle t m.txn m.pending, takeTrap_enters m]

/-! ### Waves that are killed (R301) -/

/-- Without anything outstanding, in S-mode or without a handler, the condition kills the wave. -/
theorem takeTrap_kills {s : State} {k : Nat} (t : Trap) (txn : (s.wave k).txn = none) (pending : (s.wave k).pending = [])
    (fatal : (s.wave k).priv = .s ∨ (s.ctx (s.wave k).ctx).tvec = 0) : ∃ code, s.takeTrap k t = s.kill k code := by
  rw [takeTrap_of_idle t txn pending]
  unfold State.enterTrap
  by_cases priv : (s.wave k).priv = .s
  · exact ⟨0x64, if_pos priv⟩
  · exact ⟨0x65, (if_neg priv).trans (if_pos (fatal.resolve_left priv))⟩

/-- The state in which a kill is recorded. -/
def State.killNoted (s : State) (k : Nat) (code : BitVec 7) : State := s.record { s.waveRec k 0x0E 2 10 with cause := code.toNat }

theorem kill_eq (s : State) (k : Nat) (code : BitVec 7) :
    s.kill k code = ((s.killNoted k code).abortLaunch ((s.killNoted k code).wave k).launch).killSilently k := rfl

theorem killNoted_waves (s : State) (k : Nat) (code : BitVec 7) : (s.killNoted k code).waves = s.waves := (side_record _ _).waves

theorem kill_exits {s : State} {k : Nat} (code : BitVec 7) (lt : k < s.waves.length) : ((s.kill k code).wave k).state = .exited := by
  rw [kill_eq]
  refine killSilently_exits ?_
  change k < (s.killNoted k code).waves.length
  rwa [killNoted_waves]

/-- How a launch stands is kept by a kill that does not abort it. -/
theorem standing_killSilently (s : State) (k l : Nat) : ((s.killSilently k).launch l).standing = (s.launch l).standing := by
  have := congrArg (fun x : List (LState × Bool × Bool) => x.getD l (default : Launch).standing) (Sheds.killSilently s k).launches
  simp only [getD_map'] at this
  exact this

/-- A running launch that aborts is torn down. -/
theorem tearing_abortLaunch {s : State} {l : Nat} (running : (s.launch l).state = .running) (lt : l < s.launches.length) :
    ((s.abortLaunch l).launch l).tearing = true := by
  unfold State.abortLaunch State.modLaunch State.launch
  rw [getD_modAt_self _ _ _ lt]
  change (s.launches.getD l default).state = _ at running
  rw [running]

theorem kill_tears {s : State} {k : Nat} (code : BitVec 7) (running : (s.launch (s.wave k).launch).state = .running)
    (lt : (s.wave k).launch < s.launches.length) : ((s.kill k code).launch (s.wave k).launch).tearing = true := by
  have wave : (s.killNoted k code).wave k = s.wave k := by simp only [State.wave, killNoted_waves]
  have launches : (s.killNoted k code).launches = s.launches := launches_record _ _
  have torn : (((s.killNoted k code).abortLaunch (s.wave k).launch).launch (s.wave k).launch).tearing = true :=
    tearing_abortLaunch (by rw [State.launch, launches]; exact running) (by rw [launches]; exact lt)
  have kept := congrArg (fun x : LState × Bool × Bool => x.2.2)
    (standing_killSilently ((s.killNoted k code).abortLaunch (s.wave k).launch) k (s.wave k).launch)
  rw [kill_eq, wave]
  exact kept.trans torn

/-! ### Transactions that abort (R189, R191) -/

/-- The fields of a status word: reason, attempts and code (R191). -/
theorem abortStatus_fields (reason : BitVec 4) (n : Nat) (token : Bool) (code : BitVec 16) :
    (abortStatus reason n token code).toNat % 16 = reason.toNat ∧ (abortStatus reason n token code).toNat / 16 % 16 = min n 15
      ∧ (abortStatus reason n token code).toNat / 65536 = code.toNat := by
  have r := reason.isLt
  have c := code.isLt
  have t := token.toNat_le
  have value : (abortStatus reason n token code).toNat = reason.toNat + 16 * min n 15 + 256 * token.toNat + 65536 * code.toNat := by
    rw [abortStatus, BitVec.toNat_ofNat]; omega
  rw [value]
  omega

/-- The state in which an aborting wave has given up its tokens, and asked for them anew after eight attempts (R191, R192). -/
def State.tokensAbandoned (s : State) (k : Nat) (reason : BitVec 4) (x : Txn) : State :=
  let u := if reason = 1 then s else s.releaseTokens k
  if 8 ≤ (s.wave k).aborts + 1 then u.requestTokens k (s.txnSlices x) else u

theorem tokensAbandoned_parts (s : State) (k : Nat) (reason : BitVec 4) (x : Txn) :
    (s.tokensAbandoned k reason x).waves = s.waves ∧ (s.tokensAbandoned k reason x).mem.home = s.mem.home
      ∧ (s.tokensAbandoned k reason x).cores = s.cores := by
  unfold State.tokensAbandoned
  split <;> split <;> exact ⟨rfl, rfl, rfl⟩

/-- A wave whose transaction has aborted (R191). -/
def Wave.abandoned (w : Wave) (x : Txn) (status : Word) (cc : Nat) : Wave :=
  { (w.writeS 61 status) with
    exec := x.exec, pc := x.target, txn := none, aborts := w.aborts + 1, tokenWanted := decide (8 ≤ w.aborts + 1), abort := none
    unmarked := [], state := w.home, wait := .nothing, stalled := none, hold := .none, eligibleSince := cc
    shadow := shadowAfter w.shadow (w.sReg 61) none, regErrs := errsAfter w.regErrs (w.sReg 61) }

/-- An abort gives up tokens and changes its wave, and counts. -/
theorem performAbort_counted {s : State} {k : Nat} {x : Txn} (reason : BitVec 4) (code : BitVec 16) (txn : (s.wave k).txn = some x) :
    ∃ token cc, Counted ((s.tokensAbandoned k reason x).setWave k
      ((s.wave k).abandoned x (abortStatus reason ((s.wave k).aborts + 1) token code) cc)) (s.performAbort k reason code) := by
  unfold State.performAbort
  simp only [txn]
  exact ⟨_, _, counted_count _ _ _ _ _⟩

/-- The abort leaves its wave at the target of TXBEGIN with the status word, and memory and cores alone. -/
theorem aborted_performAbort {s : State} {k : Nat} {x : Txn} (reason : BitVec 4) (code : BitVec 16) (lt : k < s.waves.length)
    (txn : (s.wave k).txn = some x) : Aborted s (s.performAbort k reason code) k x reason code := by
  obtain ⟨token, cc, C⟩ := performAbort_counted reason code txn
  obtain ⟨waves, home, cores⟩ := tokensAbandoned_parts s k reason x
  obtain ⟨low, attempts, high⟩ := abortStatus_fields reason ((s.wave k).aborts + 1) token code
  generalize abortStatus reason ((s.wave k).aborts + 1) token code = status at C low attempts high
  have self : (s.performAbort k reason code).wave k = (s.wave k).abandoned x status cc := by
    simp only [State.wave, C.waves]
    exact State.wave_setWave_self _ (by rw [waves]; exact lt)
  have word : ((s.performAbort k reason code).wave k).readS 61 = status := by
    rw [self]; exact (s.wave k).readS_writeS_self status (by decide)
  constructor
  case home => rw [C.mem]; exact home
  case cores => rw [C.cores]; exact cores
  case reason => rw [word, low]
  case attempts => rw [word, attempts]
  case code => rw [word, high]
  all_goals rw [self]; rfl

/-- In a transaction with nothing outstanding a condition aborts with reason FAULT (R189). -/
theorem takeTrap_aborts {s : State} {k : Nat} {x : Txn} (t : Trap) (lt : k < s.waves.length) (txn : (s.wave k).txn = some x)
    (pending : (s.wave k).pending = []) : Aborted s (s.takeTrap k t) k x 6 (t.cause.setWidth 16) := by
  have faults : s.takeTrap k t = s.performAbort k 6 (t.cause.setWidth 16) := by
    rw [takeTrap_of_txn t txn]
    exact if_pos (by simp [pending])
  rw [faults]
  exact aborted_performAbort 6 _ lt txn

/-! ### Conditions of operands (R121, R128, R129, R193, R195, R199) -/

/-- An instruction that raises a condition where `fails` holds of the wave enters the handler there. -/
theorem traps_where {s : State} {k : Nat} {i : Instr} {body : Nat → State → State} {fails : Prop} {dec : Decidable fails}
    {raises : BitVec 7 × VAddr} {e : BitVec 7 × VAddr} (raised : (if fails then some raises else none) = some e)
    (h : Issues s k i) (m : MayEnter s k) (run : exec i s = issue i s body)
    (eff : fails → body k (issued s k) = (issued s k).trapExec k raises.1 raises.2) :
    exec i s = .next ((issued s k).setWave k
      (entered s.cc ((issued s k).wave k) (s.ctx (s.wave k).ctx).tvec e.1 (s.wave k).exec e.2)) := by
  by_cases met : fails
  · rw [if_pos met] at raised
    cases raised
    exact traps_of_issue h m run (eff met)
  · rw [if_neg met] at raised
    cases raised

/-- RET and JMPI to a misaligned address raise PC_ALIGN with it (R121). -/
theorem jumpTo_misaligned {s : State} {k : Nat} {i : Instr} (h : Issues s k i) (a : BitVec 8) (change : Wave → Wave)
    (off : ((s.wave k).readS a.toNat).toNat % 8 ≠ 0) :
    (issued s k).jumpTo k i a change = (issued s k).trapExec k 7 (((s.wave k).readS a.toNat).setWidth 56) := by
  have address : (((s.wave k).readS a.toNat).setWidth 56).toNat % 8 ≠ 0 := by
    rwa [BitVec.toNat_setWidth, Nat.mod_mod_of_dvd _ (by decide)]
  unfold State.jumpTo
  rw [wave_issued h]
  exact if_pos address

/-- A control or group instruction whose operands raise a condition enters the handler with its cause and address; that GJOIN looks at
its token before anything else is the model's own choice (log 74). -/
theorem operandTrap_enters {s : State} {k : Nat} {i : Instr} {cause : BitVec 7} {addr : VAddr}
    (raised : operandTrap (s.wave k) i = some (cause, addr)) (h : Issues s k i) (m : MayEnter s k) :
    exec i s = .next ((issued s k).setWave k
      (entered s.cc ((issued s k).wave k) (s.ctx (s.wave k).ctx).tvec cause (s.wave k).exec addr)) := by
  have w1 : (issued s k).wave k = (s.wave k).noted s.cc := wave_issued h
  cases i with
  | bkpt q tag =>
    cases raised
    exact traps_of_issue h m rfl rfl
  | trap q n =>
    cases raised
    refine traps_of_issue h m rfl ?_
    have user : ((issued s k).wave k).priv = .u := by rw [w1]; exact m.user
    rw [user]
  | ret q a =>
    by_cases aligned : ((s.wave k).readS a.toNat).toNat % 8 = 0
    · rw [operandTrap, if_pos aligned] at raised
      cases raised
    · rw [operandTrap, if_neg aligned] at raised
      cases raised
      exact traps_of_issue h m rfl (jumpTo_misaligned h a _ aligned)
  | jmpi q a =>
    by_cases aligned : ((s.wave k).readS a.toNat).toNat % 8 = 0
    · rw [operandTrap, if_pos aligned] at raised
      cases raised
    · rw [operandTrap, if_neg aligned] at raised
      cases raised
      exact traps_of_issue h m rfl (jumpTo_misaligned h a _ aligned)
  | bopen q d a mask => exact traps_where raised h m rfl fun met => by dsimp only; rw [w1]; exact if_pos met
  | vclaim q n => exact traps_where raised h m rfl fun met => by dsimp only; rw [w1]; exact if_pos met
  | vrels q n => exact traps_where raised h m rfl fun met => by dsimp only; rw [w1]; exact if_pos met
  | gjoin q a sgid =>
    refine traps_where raised h m rfl fun met => ?_
    have high : ((s.wave k).readS a.toNat).toNat >>> 38 ≠ 0 := by rw [Nat.shiftRight_eq_div_pow]; omega
    dsimp only
    rw [w1]
    exact if_pos high
  | _ => exact absurd raised (Option.some_ne_none _).symm

/-! ### The obligation -/

/-- Settles O8, by what becomes of a condition and by the instructions that raise one. -/
theorem trapEntry : Obligations.TrapEntry := by
  refine ⟨fun s k c lt => ⟨fun m => takeTrap_enters m c, trapEntry_enters, takeTrap_of_pending c, fun txn pending fatal => ?_,
    fun x txn pending => takeTrap_aborts c lt txn pending⟩, fun s k i cause addr => operandTrap_enters⟩
  obtain ⟨code, kills⟩ := takeTrap_kills c txn pending fatal
  rw [kills]
  exact ⟨kill_exits code lt, kill_tears code⟩

end Sys2Proof.Machine
end
